-- ==== Sys2Proof/Word.lean ====
section
/-!
DEFINITION. Bytes and words, and the plain data that command operands are made of: who accesses, which ring,
which queue owner, which mailbox side, what the outside answered to a read. The manual is `spec/`; its rules
are cited as R<n>.
-/
namespace Sys2Proof

/-- One byte of a packet, a structure in memory or a flash image. -/
abbrev Byte := BitVec 8
/-- One register: "All registers are 32 bits wide" (00_scope.md, Registers). -/
abbrev Word := BitVec 32
/-- One memory word without its check bits (R421). -/
abbrev Dword := BitVec 64

/-- What the outside answers to one read request of the adapter (R92, R93): the bytes, the bytes with EP set,
Unsupported Request, Completer Abort, or nothing before the completion timeout. `internal` is not the outside's: on an
opcode row it says that the adapter failed internally over the command (R165, log 132); anywhere else it is no answer. -/
inductive Read where
  | ok (bytes : List Byte)
  | poisoned (bytes : List Byte)
  | denied
  | aborted
  | timeout
  | internal (bytes : List Byte)
deriving DecidableEq, Repr

/-- The bytes a read brought, none for a failed one. -/
def Read.bytes : Read → List Byte
  | .ok b => b
  | .poisoned b => b
  | .denied => []
  | .aborted => []
  | .timeout => []
  | .internal b => b

/-- The three kinds of command ring (R157). -/
inductive Ring where
  | manager
  | function (f : Fin 32)
  | slice (s : Fin 4096)
deriving DecidableEq, Repr

/-- A requester of R9. -/
inductive Requester where
  | manager
  | core (c : Fin 16)
  | stitch (e : Fin 2) (ch : Fin 16)
  | host (f : Fin 32)
deriving DecidableEq, Repr

/-- A queue owner is either a slice or the function itself (R109). -/
inductive Owner where
  | function (f : Fin 32)
  | slice (s : Fin 4096)
deriving DecidableEq, Repr

/-- The mailbox pairs (R141); the core pairs are those of cores 4-15. -/
inductive Pair where
  | function (f : Fin 32)
  | slice (s : Fin 4096)
  | core (c : Fin 16)
deriving DecidableEq, Repr

/-- One side of a pair: the manager's, or the other party's (R141). -/
structure Side where
  pair : Pair
  mgr  : Bool
deriving DecidableEq, Repr

/-- The nodes of the egress hierarchy (R350, R351). -/
inductive NodeId where
  | port (p : Fin 172)
  | dflt (p : Fin 172)
  | slice (s : Fin 4096) (n : Fin 256)
  | dfltSvc (p : Fin 172) (c : Fin 8)
  | sliceSvc (s : Fin 4096) (n : Fin 256) (c : Fin 8)
deriving DecidableEq, Repr

/-- The reference clocks whose loss R473 handles. -/
inductive Clock where
  | sys
  | href (d : Fin 2)
  | lref (d : Fin 2)
  | cp
deriving DecidableEq, Repr

/-- The place and the width in bytes of a register access (R8). -/
structure Span where
  off : Nat
  len : Nat
deriving DecidableEq, Repr

/-- One memory access that reaches a BAR: a read of `len` bytes, or a write, with its byte enables and a write's EP bit. A
missing byte enable counts as set. -/
inductive Access where
  | read (off len : Nat) (be : List Bool)
  | write (off : Nat) (data : List Byte) (be : List Bool) (ep : Bool)
deriving DecidableEq, Repr

/-- A request that a host sends to its function (R90): an access to BAR0, BAR2 or BAR4, or one of the kinds
that R90 answers without reaching a BAR. `unsupported` is an I/O request, a locked read, an AtomicOp or a Deferrable Memory
Write, none of them posted; `translated` is a memory request with AT = Translated or a Translation Request, posted when it
is a memory write. -/
inductive HostReq where
  | bar0 (a : Access)
  | bar2 (a : Access)
  | bar4 (a : Access)
  | unsupported
  | translated (posted : Bool)
  | message
  | vendorType1
  | malformed
deriving DecidableEq, Repr

/-- How a started eyelet segment ends (R337): its data arrived, arrived with the poison mark, or a read failed
under R93 on the given side. -/
inductive SegEnd where
  | ok (data : List Byte)
  | poisoned (data : List Byte)
  | failed (exporterSide timeout : Bool)
deriving DecidableEq, Repr

/-- How an I2C transaction that did not time out ends (R407): the bytes read, or the data bytes acknowledged or read
before the fault. -/
inductive I2cEnd where
  | ok (rd : List Byte)
  | nackAddr (moved : Nat)
  | nackData (acked : Nat)
  | arbLost (moved : Nat)
deriving DecidableEq, Repr

end Sys2Proof
end

