-- ==== Sys2Proof/Syntax.lean ====
section
/-!
DEFINITION. The commands of the block: one constructor per row of spec/opcode_table.json, in the table's order.
A Polsum command row names its ring and what the read of its parameter bytes answered; a register row names the
requester and the value; an event row names the unit it happens to and whatever the outside supplies with it.
-/
namespace Sys2Proof

/-- One constructor per row of spec/opcode_table.json. -/
inductive Instr where
  -- Polsum commands (chapter 7, R166), each at the moment it executes on its ring
  | nop (r : Ring) (p : Read)
  | identify (r : Ring) (p : Read)
  | wake (r : Ring) (p : Read)
  | wakeSlotSet (r : Ring) (p : Read)
  | fwSelect (r : Ring) (p : Read)
  | fwQuery (r : Ring) (p : Read)
  | sliceCreate (r : Ring) (p : Read)
  | sliceQuotaSet (r : Ring) (p : Read)
  | sliceReset (r : Ring) (p : Read)
  | sliceResetDone (s : Fin 4096)
  | sliceDestroy (r : Ring) (p : Read)
  | meterSnapshot (r : Ring) (p : Read)
  | snapshotBankWrite
  | functionQueuesSet (r : Ring) (p : Read)
  | queueCreate (r : Ring) (p : Read)
  | queueDestroy (r : Ring) (p : Read)
  | queueStop (r : Ring) (p : Read)
  | queueStopAbort (o : Owner) (q : Nat)
  | queueStart (r : Ring) (p : Read)
  | queueQuery (r : Ring) (p : Read)
  | cqModerate (r : Ring) (p : Read)
  | rssSet (r : Ring) (p : Read)
  | sliceVectors (r : Ring) (p : Read)
  | entryInsert (r : Ring) (p : Read)
  | entryInsertIfAbsent (r : Ring) (p : Read)
  | entryModify (r : Ring) (p : Read)
  | entryDelete (r : Ring) (p : Read)
  | entryLookup (r : Ring) (p : Read)
  | ageScan (r : Ring) (p : Read)
  | lpmInsert (r : Ring) (p : Read)
  | lpmDelete (r : Ring) (p : Read)
  | tableQuery (r : Ring) (p : Read)
  | rsOpen (r : Ring) (p : Read)
  | rsKeyProfile (r : Ring) (p : Read)
  | rsTableBind (r : Ring) (p : Read)
  | rsTcamWrite (r : Ring) (p : Read)
  | rsActionWrite (r : Ring) (p : Read)
  | rsEncapWrite (r : Ring) (p : Read)
  | rsParsePolicy (r : Ring) (p : Read)
  | rsPatternWrite (r : Ring) (p : Read)
  | rsPolicerProfile (r : Ring) (p : Read)
  | genCommit (r : Ring) (p : Read)
  | genQuery (r : Ring) (p : Read)
  | sliceExceptionSet (r : Ring) (p : Read)
  | learnRingSet (r : Ring) (p : Read)
  | learnFilterSet (r : Ring) (p : Read)
  | contextWrite (r : Ring) (p : Read)
  | contextRead (r : Ring) (p : Read)
  | saKeyRotate (r : Ring) (p : Read)
  | placementSet (r : Ring) (p : Read)
  | placementClear (r : Ring) (p : Read)
  | eyeletExport (r : Ring) (p : Read)
  | eyeletRewrite (r : Ring) (p : Read)
  | eyeletWithdraw (r : Ring) (p : Read)
  | eyeletQuery (r : Ring) (p : Read)
  | eyeletRewriteReply (h : Fin 65536)
  | policerSet (r : Ring) (p : Read)
  | nodeSet (r : Ring) (p : Read)
  | nodeUnbindDrained (s : Fin 4096) (n : Fin 256)
  | nodeQuery (r : Ring) (p : Read)
  | scrub (r : Ring) (p : Read)
  | spareCommit (r : Ring) (p : Read) (badSlots : List Nat)
  | domainSet (r : Ring) (p : Read)
  -- the command engine and its registers (chapter 7)
  | commandFetch (r : Ring) (hdr : Read)
  | crCtrlWrite (r : Ring) (v : Word)
  | crTailWrite (r : Ring) (v : Word)
  | rrHeadWrite (r : Ring) (v : Word)
  | controlReset (q : Requester)
  | controlResetDone
  | tblInsert (q : Requester) (owner : BitVec 12) (ownerValid : Bool) (table : Fin 64)
  | tblInsertIfAbsent (q : Requester) (owner : BitVec 12) (ownerValid : Bool) (table : Fin 64)
  | tblModify (q : Requester) (owner : BitVec 12) (ownerValid : Bool) (table : Fin 64)
  | tblDelete (q : Requester) (owner : BitVec 12) (ownerValid : Bool) (table : Fin 64)
  | tblLookup (q : Requester) (owner : BitVec 12) (ownerValid : Bool) (table : Fin 64)
  -- coherent updates and the tables' own events (chapters 1, 9, 10)
  | coherentUpdateApply
  | genRetire
  | tableEccRepair (t : Fin 64) (place : Nat) (good : Bool)
  | ageVisit (t : Fin 64)
  -- queues (chapter 5)
  | sqDbWrite (o : Owner) (q : Nat) (v : Word)
  | cqHeadWrite (o : Owner) (c : Nat) (v : Word)
  | fetchTurn (f : Fin 32)
  | descriptorFetchDone (o : Owner) (q : Nat) (data : List Byte)
  | txJob (o : Owner) (q : Nat) (data : Read)
  | moderationTimer (o : Owner) (c : Nat)
  | rxPlacement (pkt : Nat) (descs : Read)
  | feqCtrlWrite (f : Fin 32) (v : Word)
  | feqHeadWrite (f : Fin 32) (v : Word)
  | mevCtrlWrite (q : Requester) (v : Word)
  | mevHeadWrite (q : Requester) (v : Word)
  | excCtrlWrite (q : Requester) (v : Word)
  | excHeadWrite (q : Requester) (v : Word)
  | learnHeadWrite (q : Requester) (v : Word)
  | actCntIndexWrite (q : Requester) (v : Word)
  -- the host function (chapter 4)
  | configRequest (f : Fin 33) (write : Bool) (off : Nat) (v : Word) (be : BitVec 4)
  | barRequest (f : Fin 32) (a : HostReq)
  | busMasterDisable (f : Fin 32)
  | busMasterEnable (f : Fin 32)
  | flr (f : Fin 32)
  | flrDone (f : Fin 32)
  | d3hotEntry (f : Fin 32)
  | d0Return (f : Fin 32)
  | pasidEnableWrite (f : Fin 32) (on : Bool)
  | atsEnableWrite (f : Fin 32) (on : Bool)
  | msixUnmask (f : Fin 32) (v : Option (Fin 2048))
  | atsInvalidation (f : Fin 32) (itag : Nat) (pasid : Option Nat) (base len : Nat)
  | atsInvalidationDone (f : Fin 32) (itag : Nat)
  | translationCompletion (f : Fin 32) (tag : Nat) (base len xlat : Nat) (rd wr : Bool)
  | readCompletion (f : Fin 32) (tag : Nat) (res : Read)
  | completionTimeout (f : Fin 32) (tag : Nat)
  | pmeResend (f : Fin 32)
  | wakeTimeout (f : Fin 32)
  -- host links and connectors (chapter 3)
  | hlLinkCtrlWrite (q : Requester) (n : Fin 32) (v : Word)
  | connCtrlWrite (q : Requester) (n : Fin 32) (v : Word)
  | presenceChange (n : Fin 32) (present : Bool)
  | powerFault (n : Fin 32)
  | attentionPress (n : Fin 32)
  | perstAssert (n : Fin 32) (hotReset : Bool)
  | perstDeassert (n : Fin 32)
  | linkTrainingDone (n : Fin 32) (partnerSpeed partnerWidth workingLanes : Nat) (partnerFlit : Bool)
  | equalizationFail (n : Fin 32) (speed : Nat)
  | dlActive (n : Fin 32)
  | unplannedLinkDown (n : Fin 32)
  | flapHoldEnd (n : Fin 32)
  | surpriseRemoval (n : Fin 32)
  | l0pNarrow (n : Fin 32)
  | l0pWidenRequest (n : Fin 32) (granted : Bool)
  | partnerL0pRequest (n : Fin 32) (width : Nat)
  | l1Entry (n : Fin 32)
  | flitError (n : Fin 32) (corrected : Bool)
  | badDllp (n : Fin 32)
  | replayRollover (n : Fin 32)
  | receiverOverflow (n : Fin 32)
  -- mailboxes (chapter 6)
  | mbDbSet (x : Side) (v : Word)
  | mbClaim (x : Side) (v : Word)
  | mbRxAck (x : Side) (n : Fin 32) (v : Word)
  | mbSideReset (x : Side) (v : Word)
  | mbMaskWrite (x : Side) (ack : Bool) (v : Word)
  | arenaPageWrite (x : Side) (upper : Bool) (off : Nat) (data : List Byte) (ep : Bool)
  -- line ports, pipelines and the traffic manager (chapters 8 to 16)
  | lineFrameReceive (g : Fin 32) (k : Fin 4) (frame : List Byte) (codeErr : Bool)
  | pauseFrameReceive (g : Fin 32) (k : Fin 4) (frame : List Byte)
  | pauseExpiry (g : Fin 32) (k : Fin 4) (c : Fin 8)
  | pfcWatchdog (g : Fin 32) (k : Fin 4) (c : Fin 8)
  | pfcWatchdogEnd (g : Fin 32) (k : Fin 4) (c : Fin 8)
  | xoffReached (g : Fin 32) (k : Fin 4) (c : Fin 8)
  | xoffRefresh (g : Fin 32) (k : Fin 4) (c : Fin 8)
  | xonReached (g : Fin 32) (k : Fin 4) (c : Fin 8)
  | pipelinePass (pkt : Nat) (badLanes : List Nat)
  | contextCacheFill (d : Fin 4) (c : Nat)
  | policerRefill (p : Nat)
  | nodeRefill (n : NodeId)
  | tmAdmit (pkt : Nat)
  | tmDequeue (p : Fin 172)
  | spillReadback (pkt : Nat)
  | bufferAgeDrop (pkt : Nat)
  | tmAgeLimitWrite (q : Requester) (v : Word)
  | macTransmit (g : Fin 32) (k : Fin 4)
  | learnNoticeWrite (n : Fin 8)
  | xferSegmentStart (o : Owner) (q : Nat)
  | xferSegmentEnd (o : Owner) (q : Nat) (seg : Nat) (res : SegEnd)
  | eyeletFlushReadDone (f : Fin 32) (tag : Nat)
  | placementTableReadDone (c : Nat) (entry segs : Read)
  | lpModeWrite (q : Requester) (g : Fin 32) (v : Word)
  | lpPortCtrlWrite (q : Requester) (g : Fin 32) (k : Fin 4) (v : Word)
  | anBasePageTimeout (g : Fin 32) (k : Fin 4)
  | anRestartTimer (g : Fin 32) (k : Fin 4)
  | linkTrainingFail (g : Fin 32) (k : Fin 4)
  | lineLinkUp (g : Fin 32) (k : Fin 4)
  | lineLinkDown (g : Fin 32) (k : Fin 4)
  | lineFlapHoldEnd (g : Fin 32) (k : Fin 4)
  | fecDegradedChange (g : Fin 32) (k : Fin 4) (degraded : Bool)
  | ptpRxInfoRead (q : Requester) (g : Fin 32) (k : Fin 4)
  | ptpTxInfoRead (q : Requester) (g : Fin 32) (k : Fin 4)
  | msWriteSa (q : Requester) (g : Fin 32)
  | msReadSa (q : Requester) (g : Fin 32)
  | msInvalidateSa (q : Requester) (g : Fin 32)
  -- the control complex (chapter 17)
  | coreHold (q : Requester) (c : Fin 16) (hold : Bool)
  | coreReset (q : Requester) (c : Fin 16)
  | coreKick (q : Requester) (c : Fin 16)
  | coreWdogWrite (q : Requester) (c : Fin 16) (v : Word)
  | watchdogExpiry (c : Fin 16)
  | mtimecmpReached (c : Fin 16)
  | icClaimWrite (q : Requester) (c : Fin 16) (v : Word)
  | icClaimRead (q : Requester) (c : Fin 16)
  | icPsw (q : Requester) (c : Fin 16) (v : Word)
  | icSwSet (q : Requester) (v : Word)
  | icCfgWrite (q : Requester) (n : Fin 1024) (v : Word)
  | lockRead (readers : List Requester) (i : Fin 256) (cycle : Nat)
  | lockWrite (q : Requester) (i : Fin 256)
  | i2cGo (q : Requester) (n : Fin 8) (v : Word) (sdaLow : Bool)
  | i2cRecover (q : Requester) (n : Fin 8)
  | i2cDone (n : Fin 8) (res : I2cEnd)
  | i2cTimeout (n : Fin 8) (acked : Nat) (rd : List Byte)
  -- the stitch engines (chapter 18)
  | chStart (q : Requester) (e : Fin 2) (ch : Fin 16) (v : Word)
  | chRun (e : Fin 2) (fetch : Read)
  | chDisable (q : Requester) (e : Fin 2) (ch : Fin 16) (v : Word)
  | chDisableDone (e : Fin 2) (ch : Fin 16) (fetch : Read)
  | chEnable (q : Requester) (e : Fin 2) (ch : Fin 16) (v : Word)
  | stMove (e : Fin 2) (fetch data : Read)
  | stLoop (e : Fin 2) (fetch : Read)
  | stWait (e : Fin 2) (fetch word : Read)
  | stWaitPoll (e : Fin 2) (word : Read)
  | stSignal (e : Fin 2) (fetch : Read)
  -- memory integrity (chapter 19)
  | scrubGo (q : Requester) (v : Word)
  | scrubDone (m : Fin 12)
  | testRawWrite (q : Requester)
  | testRawRead (q : Requester)
  | testCheckedRead (q : Requester)
  | flipCtrlWrite (q : Requester) (v : Word)
  | spareAdd (q : Requester) (m : Fin 16)
  | spareRemove (q : Requester) (m : Fin 16)
  -- power, reset, start-up, clocks (chapters 20, 21)
  | powerGoodFall
  | resetNAssert
  | resetRelease
  | devCtrlReset (q : Requester)
  | startupStepDone (fail : Option Nat) (setpoints : List Nat)
  | railWarning (r : Fin 15) (mv : Nat)
  | brownout (r : Fin 15) (mv : Nat)
  | throttleLift
  | droopExcess (d : Fin 8)
  | recalibrationStep (d : Fin 8) (excess : Bool)
  | thermalWarning (d : Fin 8) (temp : BitVec 12)
  | thermalTrip (d : Fin 8)
  | thermalRelease (temps : List (BitVec 12))
  | clockLoss (c : Clock)
  | clockReturn (c : Clock)
  | cpPerst
  | timeSkew (d : Fin 8) (eighths : Nat)
  | timeRateAdjWrite (q : Requester) (v : Word)
  | bindOff
  | domainPowerUpDone
  -- flash and fuses (chapter 22)
  | spiRead (q : Requester)
  | spiProgram (q : Requester)
  | spiErase (q : Requester)
  | spiOpDone (fault : Option Nat)
  | fuseLockCmdWrite (q : Requester) (v : Word)
  | fieldLockBurnDone (readBack : Bool)
  -- registers and the HBM aperture (chapters 0, 1)
  | hbmApertureWrite (q : Requester) (high : Bool) (v : Word)
  | bar2Access (a : Access)
  | reg64LowRead (q : Requester) (off : Nat)
  | reg64HighWrite (q : Requester) (off : Nat) (v : Word)
  | rcRegisterRead (q : Requester) (a : Span)
  | registerWrite (q : Requester) (a : Span) (v : BitVec 64)
  -- rows at the table's end
  | pmeTurnOff (n : Fin 32)
  | l1Exit (n : Fin 32)
  | managerFunctionConfigWrite (off : Nat) (v : Word)
  | cpPerstRelease
  | basePageReceive (g : Fin 32) (k : Fin 4) (rates : BitVec 3) (pause : BitVec 2) (ownNonce : Bool)
  | lineFaultChange (g : Fin 32) (k : Fin 4) (localFault remoteFault : Bool)
  | railRecovery (r : Fin 15) (mv : Nat)
  | sliceDestroyDone (s : Fin 4096)
deriving DecidableEq, Repr

end Sys2Proof
end

