-- ==== Sys2Proof/Decode.lean ====
section
/-!
DEFINITION. spec/opcode_table.json gives bits for no row, so no word spells a command.
-/
namespace Sys2Proof

/-- The command that a word of `nbits` bits spells by the table's bits: the table gives bits for no row. -/
def decodeTableWord (nbits w : Nat) : Option Instr :=
  match nbits, w with
  | _, _ => none

end Sys2Proof
end

