-- ==== Sys2Proof/Config.lean ====
section
/-!
DEFINITION. What one part fixes and the manual does not state (fused values, fixed HBM addresses), the outside
standards that the manual only names, and the free values. Every constant here is opaque: it has no body, so
nothing can prove a value of it and every claim holds for all of them. Log entries 10 to 14.
-/
namespace Sys2Proof.Config

/-- The Device Serial Number, "fused" (R2, DEV_SERIAL). -/
opaque serial : BitVec 64
/-- Byte i of the SHA-384 key hash in the fuses (R490). -/
opaque keyHash : List Byte
/-- Which of the free pages of its stack's reserved region (R11) each area starts at, "fixed for the life of the part":
the mailbox arena (0, R142), the SPI staging area (1, R487), the customer HBM window (2, R388), the snapshot banks (3 and
4, R57). -/
opaque place : Nat → Nat
/-- The stack that holds snapshot bank 0 or 1 (R57 names none). -/
opaque bankStack : Bool → Nat
/-- Byte i of the boot ROM (R388). -/
opaque bootRom : Nat → Byte
/-- Spare rows left in memory m after the factory map (R434, SPARE_AVAIL.FACTORY_LEFT, Init "—"). -/
opaque factoryLeft : Nat → Byte
/-- SHA-384 of a byte string (R483 names the standard only). -/
opaque sha384 : List Byte → List Byte
/-- Whether an ECDSA P-384 signature with SHA-384 verifies: public key, signature, message (R483). -/
opaque ecdsaVerifies : List Byte → List Byte → List Byte → Bool
/-- The candidate that RANDOM eviction chooses, "chosen uniformly by the adapter" (R215): the n-th draw. -/
opaque randomDraw : Nat → Nat
/-- How long the n-th staging of a coherent update on every die takes, in ns (R17; R235 bounds it). -/
opaque stagingDelay : Nat → Nat
/-- Where in the range of 4,096 s that R219 leaves open an age is reported that has passed 36,863 s. -/
opaque visitAge : Nat → Nat
/-- A byte that the manual leaves undefined: the n-th free byte drawn. -/
opaque freeByte : Nat → Byte
/-- A word that the manual leaves undefined: the n-th free word drawn. -/
opaque freeWord : Nat → Word
/-- The bits of a configuration-space dword that the manual leaves to the PCI Express specification: by
function number (32 for the manager function), dword offset, and the value last written there, if any (R34, R80, R82). -/
opaque cfgRest : Nat → Nat → Option Word → Word

/-- The completion timeout, in ns, within the range that a value of Device Control 2 names in the base specification
(R93, log 135): by value and number of the read. -/
opaque cplTimeout : Nat → Nat → Nat

end Sys2Proof.Config
end

