-- ==== Sys2Proof/Machine/State.lean ====
section
/-!
DEFINITION. The state of the FJ-3280 as the manual gives it, as plain data. Sparse tables are `Map`s: lists of
(key, value) with strictly rising keys that never list the table's default value. Every record's field defaults
are its values after Device Reset.
-/
namespace Sys2Proof.Machine

/-- A sparse table: keys strictly rising, no entry equal to the default. Its operations are in Machine/Ops.lean. -/
abbrev Map (α : Type) := List (Nat × α)

/-! ### What the adapter emits -/

/-- Whose memory a write goes to: the manager's, or a host's, with the PASID of a slice (R42). -/
inductive Target where
  | manager
  | host (f : Nat) (pasid : Option Nat)
deriving DecidableEq, Repr

/-- What leaves the adapter. Outputs are appended to `Dev.out` in the order in which they leave; nothing reads
them back (log 3). -/
inductive Output where
  /-- A memory write: Relaxed Ordering and EP as R92 and R94 lay down. -/
  | memWrite (t : Target) (addr : Nat) (data : List Byte) (ro ep : Bool) (xlated : Bool := false)
  /-- A read request, with its tag. -/
  | memRead (t : Target) (addr len tag : Nat) (xlated : Bool := false)
  /-- A Translation Request (R96). -/
  | translate (f : Nat) (pasid : Option Nat) (addr tag : Nat)
  /-- An Invalidation Completion (R97). -/
  | invalidated (f itag : Nat)
  /-- An MSI-X message of function f, or of the manager function (32). -/
  | msix (f vector : Nat)
  /-- A value returned to the requester of a register read. -/
  | value (q : Requester) (off : Nat) (v : Word)
  /-- What a core's load from a core-local address outside the register space returns (R388). -/
  | load (c addr : Nat) (data : List Byte)
  /-- An access that the adapter answers with an access fault on a core (R389). -/
  | coreFault (c : Nat)
  /-- A completion of a configuration or memory request: 0 SC, 1 UR, 2 RRS, 4 CA; data; EP. -/
  | completion (f status : Nat) (data : List Byte) (ep : Bool)
  /-- A frame on a line port, FCS included. -/
  | frame (port : Nat) (data : List Byte)
  /-- A PM_PME message. -/
  | pme (f : Nat)
  /-- PME_TO_Ack, answering PME_Turn_Off. -/
  | pmeToAck (n : Nat)
  /-- WAKE_N driven low (true) or released. -/
  | wakeN (n : Nat) (low : Bool)
  /-- PWR_EN of a connector. -/
  | pwrEn (n : Nat) (on : Bool)
  /-- A link-level answer: 0 Nak (replay request), 1 Recovery, 2 full-width request, 3 width accepted, 4 L1 request. -/
  | link (n kind : Nat)
  /-- An error message: 0 ERR_COR, 1 ERR_NONFATAL, 2 ERR_FATAL. -/
  | err (f sev : Nat)
  /-- An I2C transaction driven onto the bus: control and command word, data, or a recovery (9 pulses, STOP). -/
  | i2c (n : Nat) (cmd : Word) (data : List Byte)
  | i2cRecover (n : Nat)
deriving DecidableEq, Repr

/-! ### Rings in memory -/

/-- A ring the adapter writes and the owner consumes (R111, R113, R120): the manager event ring, the function
event queue, the device exception ring, the learn ring. Positions run over 0 .. 2N-1. -/
structure EvRing where
  base   : Nat := 0
  enable : Bool := false
  log2   : Nat := 6
  /-- LOG2 as last written; `log2` is the value it is taken as. -/
  rawLog : Nat := 6
  vector : Nat := 0
  head   : Nat := 0
  wpos   : Nat := 0
  overflow : Bool := false
  /-- Events lost since the last EVENTS_LOST entry (R35, R138). -/
  lost   : Nat := 0
deriving DecidableEq, Repr

/-- The command a ring executes: its header, and whether it has begun (it then waits for its end). -/
structure Exec where
  opcode : Nat
  flags  : Nat
  tag    : Nat
  slice  : Nat
  plen   : Nat
  begun  : Bool := false
  /-- The adapter has failed internally over it: its reply says so (R165). -/
  internal : Bool := false
  /-- Data that it has written ahead of its reply. -/
  data   : Option Nat := none
  /-- Its place in the order of acceptance (R164). -/
  seq    : Nat := 0
deriving DecidableEq, Repr

/-- A reply of 32 bytes before its phase bit (R155). -/
structure Reply where
  tag    : Nat
  status : Nat
  detail : Nat
  words  : List Nat
  quiet  : Bool
  /-- Data writes that go ahead of it, when translation may still refuse one (R96). -/
  data   : Option Nat := none
deriving DecidableEq, Repr

/-- A command ring with its reply ring (R157). -/
structure CmdRing where
  base   : Nat := 0
  rrBase : Nat := 0
  enable : Bool := false
  intEn  : Bool := false
  crLog2 : Nat := 7
  rrLog2 : Nat := 6
  /-- CR_LOG2 and RR_LOG2 as last written; `crLog2` and `rrLog2` are the values they are taken as. -/
  crRaw  : Nat := 7
  rrRaw  : Nat := 6
  vector : Nat := 0
  head   : Nat := 0
  tail   : Nat := 0
  rrHead : Nat := 0
  rrWrite : Nat := 0
  halted : Bool := false
  haltReason : Nat := 0
  err    : Nat := 0
  exec   : Option Exec := none
  /-- Replies held while requests may not be issued (R34, R98). -/
  held   : List Reply := []
  /-- REPLY_EVENT raised and not yet followed by an RR_HEAD write (R36). -/
  notified : Bool := false
  /-- Slots that the next packet needs, once its header has been seen with the tail inside it (R153). -/
  need   : Nat := 1
  /-- The RESETTING slice for which the next command waits (R51). -/
  waits  : Option Nat := none
deriving DecidableEq, Repr

/-! ### Queues (chapter 5) -/

inductive QKind where
  | tx | rx | xfer
deriving DecidableEq, Repr

/-- A started segment of an XFER job: its number, its bytes, the base of the window it was checked against, and its
status once it has ended (R337). -/
structure Seg where
  idx   : Nat
  bytes : Nat
  base  : Nat := 0
  status : Option Nat := none
  /-- How its data came, while writes of it still wait to leave (R96). -/
  landing : Option Nat := none
deriving DecidableEq, Repr

/-- An XFER job in progress (R335, R337). -/
structure Xfer where
  write   : Bool
  handle  : Nat
  offset  : Nat
  len     : Nat
  /-- Segments started, ended, or refused by their check. -/
  segs    : List Seg := []
  next    : Nat := 0
  failed  : Bool := false
  /-- The exporter against whose window segments were started. -/
  exporter : Option Nat := none
  /-- The flushing read of R338 is outstanding. -/
  flushing : Bool := false
deriving DecidableEq, Repr

/-- A whole chain read and not yet completed: its descriptors, 32 bytes each, the ring index of the last, and the
status and DETAIL with which it ends when its check failed (R115, R118). -/
structure Job where
  descs : List (List Byte)
  last  : Nat
  fault : Option (Nat × Nat) := none
deriving DecidableEq, Repr

/-- A halt that waits for the jobs in flight (R130): its reason, the status of its HALT entry, since when, and the
rings whose QUEUE_STOP and QUEUE_DESTROY it answers. -/
structure Ending where
  reason : Nat
  status : Nat
  since  : Nat
  stop   : Option Ring := none
  destroy : Option Ring := none
deriving DecidableEq, Repr

/-- A completion entry of 16 bytes before its phase bit (R119). -/
structure CEntry where
  tag    : Nat
  index  : Nat
  queue  : Nat
  len    : Nat
  status : Nat
  bufs   : Nat := 0
  detail : Nat := 0
  type   : Nat
  /-- The run of its queue that the entry belongs to (R131). -/
  run    : Nat := 0
  /-- The data writes that it describes, when translation may still refuse one (R96). -/
  data   : Option Nat := none
deriving DecidableEq, Repr

/-- A descriptor read under way: its tag, how many descriptors, and what has arrived of it. -/
structure Fetch where
  tag : Nat
  n   : Nat
  got : List Byte := []
deriving DecidableEq, Repr

/-- A queue that exists (R108, R132). -/
structure Queue where
  kind   : QKind
  rxMeta : Bool := false
  spill  : Bool := false
  log2   : Nat
  base   : Nat
  head   : Nat := 0
  tail   : Nat := 0
  /-- The next descriptor to read; on an RX queue, the first posted buffer that no packet has reserved (R124). -/
  fetch  : Nat := 0
  weight : Nat := 1
  burst  : Nat := 1
  cq     : Nat
  spillLimit : Nat := 0
  /-- Halt reason; none while RUNNING (R129). -/
  halted : Option Nat := none
  ending : Option Ending := none
  /-- Descriptor reads under way, oldest first. -/
  fetching : List Fetch := []
  /-- How often QUEUE_START has started it. -/
  run    : Nat := 0
  chain  : List (List Byte) := []
  jobs   : List Job := []
  xfer   : Option Xfer := none
  noBuf  : Nat := 0
  cqFull : Nat := 0
  haltedDrops : Nat := 0
  stalls : Nat := 0
deriving DecidableEq, Repr

/-- A completion ring with its moderation (R120, R126, R128). `halts` are HALT entries that wait (R129). -/
structure Cq where
  base   : Nat
  log2   : Nat
  head   : Nat := 0
  wpos   : Nat := 0
  count  : Nat := 0
  timer  : Nat := 0
  vector : Nat := 0
  intEn  : Bool := false
  mcount : Nat := 0
  /-- Device time at which the running timer reaches 0. -/
  due    : Option Nat := none
  /-- COUNT, TIMER, vector and INT_EN of a CQ_MODERATE, which apply from the next entry (R128). -/
  staged : Option (Nat × Nat × Nat × Bool) := none
  stalled : Bool := false
  held   : List CEntry := []
  halts  : List CEntry := []
deriving DecidableEq, Repr

/-! ### Functions and owners (chapters 4, 5, 8) -/

structure MsixVec where
  addr   : Nat := 0
  data   : Word := 0
  masked : Bool := true
deriving DecidableEq, Repr

structure AtcEntry where
  pasid : Option Nat
  base  : Nat
  len   : Nat
  xlat  : Nat
  rd    : Bool
  wr    : Bool
deriving DecidableEq, Repr

/-- An invalidation in progress (R97). -/
structure Inval where
  itag  : Nat
  start : Nat
  /-- Tags of reads sent with a barred translation and still open. -/
  open_ : List Nat
deriving DecidableEq, Repr

/-- What an outstanding read serves. -/
inductive Purpose where
  | descriptors (o : Owner) (q : Nat)
  | jobData (o : Owner) (q : Nat)
  /-- The zero-length read behind XFER_WRITE data: for a window rewrite, or for jobs by queue key. -/
  | flush (handle : Option Nat) (jobs : List Nat)
  | segment (o : Owner) (q : Nat) (seg : Nat)
  | placement (c : Nat)
  | translation
deriving DecidableEq, Repr

/-- A read of the adapter that has not ended. Its requests may be several: the tag is the model's, one for all of them. -/
structure OutRead where
  tag     : Nat
  purpose : Purpose
  pasid   : Option Nat := none
  /-- The requests that have been sent: untranslated address and length. -/
  sent    : List (Nat × Nat) := []
  /-- When the last of them was sent (R93). -/
  start   : Nat := 0
deriving DecidableEq, Repr

/-- What a posted write serves: nothing that waits for it, the segment of a queue, data that an entry describes, or that
entry, whose status byte lies at the given place. -/
inductive XFor where
  | other
  | seg (q k : Nat)
  | data (id : Nat)
  | entry (id at' : Nat)
deriving DecidableEq, Repr

/-- A request of a function that cannot leave yet: until its requester may issue (R95, R98, R100), until its translation
is known (R96), or behind one of the same requester. -/
structure XReq where
  out   : Output
  /-- Whether it must be translated; MSI-X messages are not. -/
  need  : Bool
  /-- The requester: none for the function, else the slice's PASID. -/
  who   : Option Nat := none
  serves : XFor := .other
  /-- Tag of the Translation Request it waits for. -/
  wait  : Option Nat := none
deriving DecidableEq, Repr

/-- A D3hot entry (true) or the end of a Bus Master Enable clear that waits for the segments in flight, until its bound
(R98, R100). -/
structure Closing where
  d3  : Bool
  due : Nat
deriving DecidableEq, Repr

/-- A function: its configuration space, MSI-X, translation cache, power state (chapter 4), and the part of the
queue pool it holds (R110). -/
structure Fn where
  mse : Bool := false
  bme : Bool := false
  d3  : Bool := false
  parked : Bool := false
  /-- A wake has been signalled since the function was parked (R102). -/
  woken : Bool := false
  waking : Bool := false
  /-- When PM_PME was last sent. -/
  pmeAt : Nat := 0
  pmeEn : Bool := false
  pmeStatus : Bool := false
  msixEn : Bool := false
  msixMask : Bool := false
  vecs : Map MsixVec := []
  pba  : List Nat := []
  pasidEn : Bool := false
  atsEn : Bool := false
  aspm  : Bool := false
  /-- Device Control: Max_Payload_Size, Enable Relaxed Ordering and the rest; at first as the base specification has it
  (log 9). -/
  devCtl : Word := 0x2810
  /-- Device Control 2: completion timeout value in bits 3:0, disable in bit 4. -/
  devCtl2 : Word := 0
  uncStatus : Word := 0
  uncMask : Word := 0
  uncSev : Option Word := none
  corStatus : Word := 0
  /-- Advisory Non-Fatal errors are masked at first, as the base specification has it. -/
  corMask : Word := 0x2000
  /-- Other dwords of configuration space that the host has written. -/
  cfg  : Map Word := []
  flr  : Bool := false
  bmeHalt : Bool := false
  atc  : List AtcEntry := []
  invals : List Inval := []
  reads : List OutRead := []
  nextTag : Nat := 0
  /-- Requests that wait to leave, oldest first. -/
  xq    : List XReq := []
  /-- Reads whose translation granted no permission and whose transfers have still to fail (R96). -/
  xdenied : List Nat := []
  /-- Writes refused by translation: what they served, and the status with which that ends (R96). -/
  xbad  : List (XFor × Nat) := []
  /-- Translation Requests that failed and whose transfers have still to fail: PASID, address, how. -/
  xnone : List (Option Nat × Nat × Read) := []
  /-- A D3hot entry or Bus Master Enable clear in progress. -/
  closing : Option Closing := none
  /-- Header Log and First Error Pointer of AER: the header itself is a free value (log 4). -/
  hdrLog : List Word := []
  firstErr : Nat := 0
  feq  : EvRing := {}
  weight : Nat := 16
  qBase : Nat := 0
  qLen  : Nat := 0
  /-- Level 1 of the fetch order: the round and the participants already served in it (R122). -/
  round : Nat := 1
  served : List Nat := []
deriving DecidableEq, Repr

/-- The exception policy of an owner (R195, R196), its RSS key and table (R134), and its level-2 fetch position. -/
structure OwnerSt where
  queue : Nat := 0xFFFF
  lenOver : Nat := 0
  trailer : Nat := 0
  malformed : Nat := 0
  depth : Nat := 0
  oversize : Nat := 0
  rssFields : Nat := 0
  rssKey : List Byte := []
  rssTable : Map Nat := []
  round : Nat := 1
  served : List Nat := []
deriving DecidableEq, Repr

/-! ### Slices and meters (chapter 2) -/

inductive SliceState where
  | active | resetting | hostLost | closing
deriving DecidableEq, Repr

structure Slice where
  state  : SliceState
  fn     : Nat
  pasid  : Nat
  lidx   : Nat
  weight : Nat
  qBase : Nat := 0
  qLen  : Nat := 0
  cBase : Nat := 0
  cLen  : Nat := 0
  pBase : Nat := 0
  pLen  : Nat := 0
  subNodes : Nat := 0
  eyelets : Nat := 0
  wake : Nat := 0
  caps : List Nat := []
  meters : Map Nat := []
  /-- Freeze point, once SLICE_DESTROY has taken effect (R53). -/
  frozen : Option Nat := none
  /-- Largest buffer age limit since the freeze point, in µs (R54). -/
  ageMax : Nat := 0
  fromLost : Bool := false
  resumed : Bool := false
  resetWaits : List Ring := []
  /-- A SLICE_DESTROY accepted and not yet replied: its ring, and its apply point once the freeze took effect. -/
  destroyer : Option Ring := none
  tearing : Bool := false
  /-- SLICE_VECTORS range (R133). -/
  vecBase : Nat := 0
  vecCount : Nat := 0
deriving DecidableEq, Repr

/-! ### Mailboxes (chapter 6) -/

/-- The registers of one side (R144); arrays are indexed by message number. -/
structure MbSide where
  dbOut : Word := 0
  ackSum : Word := 0
  ackMask : Word := 0xFFFFFFFF
  dbIn : Word := 0
  dbMask : Word := 0xFFFFFFFF
  claimed : Word := 0
  ptr  : Map Word := []
  ack  : Map Word := []
  /-- MB_PTR as copied at the post, of messages posted and not yet claimed (R145). -/
  inPtr : Map Word := []
  rxPtr : Map Word := []
  rxStat : Map Word := []
  /-- Offsets of bytes of this side's page that it wrote under a posted message (R147). -/
  torn  : List Nat := []
  /-- It has been interrupted for doorbells, or acknowledges, and has not served them yet (R151). -/
  toldIn : Bool := false
  toldAck : Bool := false
  vector : Nat := 0
  err  : Nat := 0
deriving DecidableEq, Repr

/-! ### Tables, rule sets, generations (chapters 9, 10) -/

/-- A live exact-match entry (R211). `hit` holds the device second of HIT_TIME in the four replicas, not reduced (R219), none
in a staged copy of an entry that moves, which keeps its own; `seq` orders stash insertion. -/
structure Entry where
  key   : List Byte
  owner : Option Nat := none
  data  : List Byte
  hit   : List Nat := [0, 0, 0, 0]
  seq   : Nat := 0
deriving DecidableEq, Repr

/-- A live prefix (R229). -/
structure Prefix where
  len  : Nat
  vrf  : Nat
  addr : List Byte
  data : List Byte
deriving DecidableEq, Repr

/-- The live content of one table. Bucket slots have keys 2·bucket + slot, counted from the table's first
bucket; stash entries have keys 2^32 + i. -/
structure Table where
  ents : Map Entry := []
  prefixes : List Prefix := []
  seq  : Nat := 0
deriving DecidableEq, Repr

/-- A rule set (R253): every item as the bytes that its command wrote. -/
structure RuleSet where
  /-- RS_TABLE_BIND parameters (R208). -/
  tables : Map (List Byte) := []
  /-- RS_KEY_PROFILE parameters (R206). -/
  profiles : Map (List Byte) := []
  /-- Classic TCAM rules by table · 65,536 + index: VALUE, MASK, DATA (R226). -/
  tcam : Map (List Byte) := []
  /-- Action lists of 128 bytes (R244). -/
  lists : Map (List Byte) := []
  /-- Members of 8 bytes each (R260). -/
  groups : Map (List Byte) := []
  /-- Egress port to list index; 0xFFFF is none. -/
  egress : Map Nat := []
  /-- RS_ENCAP_WRITE parameters (R283). -/
  templates : Map (List Byte) := []
  /-- RS_PARSE_POLICY parameters other than the values of Device Reset (R190). -/
  policy : Option (List Byte) := none
  /-- RS_PATTERN_WRITE parameters (R197). -/
  patterns : Map (List Byte) := []
  /-- RS_POLICER_PROFILE parameters (R346). -/
  policers : Map (List Byte) := []
deriving DecidableEq, Repr

/-- The banks (R254): CURRENT, DRAINING, SHADOW, COMMITTING. Missing ones are FREE. -/
structure Gens where
  current : Nat := 1
  rules   : RuleSet := {}
  /-- Apply point of CURRENT; 0 for generation 1. -/
  applied : Nat := 0
  draining : Option (Nat × RuleSet) := none
  /-- Largest age limit since CURRENT's apply point, in µs (R257). -/
  ageMax  : Nat := 10000
  shadow  : Option RuleSet := none
  committing : Option RuleSet := none
  /-- The generation the SHADOW bank was copied from, or 0. -/
  base    : Nat := 0
  /-- Tables with a pending redefinition in the SHADOW bank, and in the bank committed last (R210). -/
  redef   : List Nat := []
  redefDrain : List Nat := []
deriving DecidableEq, Repr

/-- A window of an eyelet (R327). -/
structure Window where
  base : Nat
  len  : Nat
  perm : Nat
  importers : List Nat
deriving DecidableEq, Repr

/-- A segment in flight against an eyelet: its queue, its number, whether a rewrite has applied since its check,
and whether it writes the window. -/
structure Flight where
  q    : Nat
  seg  : Nat
  old  : Bool := false
  write : Bool
deriving DecidableEq, Repr

/-- A window rewrite not yet replied (R332); a Slice Reset or Slice Destroy withdraws without a ring. -/
structure Rewrite where
  ring : Option Ring
  withdraw : Bool := false
  applied : Bool := false
  /-- Old writes still need a flushing read; that read is outstanding. -/
  flush : Bool := false
  flushing : Bool := false
deriving DecidableEq, Repr

structure Eyelet where
  exporter : Nat
  win   : Option Window := none
  apply : Nat := 0
  moved : Nat := 0
  flight : List Flight := []
  rewrite : Option Rewrite := none
  /-- A write has landed behind which no flushing read has been issued. -/
  dirty : Bool := false
deriving DecidableEq, Repr

/-- A change that takes effect at an apply point (R17). -/
inductive UpdOp where
  /-- Slots of an exact-match table written at once; `ins` marks a write of an insertion (R217). -/
  | slots (t : Nat) (ins : Bool) (w : List (Nat × Option Entry))
  /-- The prefixes of an LPM table after this step. -/
  | lpm (t : Nat) (p : List Prefix)
  /-- A classic TCAM rule emptied wherever it stands at its index (R233). -/
  | rule (t i : Nat) (b : List Byte)
  | commit
  | freeze (s : Nat)
  | snapshot (bank : Bool) (r : Ring)
  | window (h : Nat) (w : Option Window)
deriving DecidableEq, Repr

/-- What happens once an update has taken effect. -/
inductive UpdDone where
  | reply (r : Ring) (status detail : Nat) (words : List Nat)
  /-- A NOP that waits for the updates accepted before it (R167). -/
  | fence (r : Ring)
  /-- The register path: status, detail, words of R222, the evicted key. -/
  | regPath (q : Requester) (status detail : Nat) (words : List Nat) (key : List Byte)
deriving DecidableEq, Repr

structure Update where
  apply : Nat
  op    : UpdOp
  done  : List UpdDone := []
deriving DecidableEq, Repr

/-- The table command registers of one requester (R171). -/
structure TblRegs where
  cmd    : Word := 0
  busy   : Bool := false
  /-- An operation accepted that has not begun, by its place in the order of acceptance (R164, R217). -/
  waiting : Option Nat := none
  status : Nat := 0
  detail : Nat := 0
  apply  : Nat := 0
  err    : Nat := 0
  key    : Map Word := []
  data   : Map Word := []
deriving DecidableEq, Repr

/-! ### Packets (chapters 1, 10, 15) -/

/-- Where a packet is. -/
inductive Loc where
  /-- The ingress FIFO of a port group (R373), with its priority class. -/
  | fifo (g : Nat) (cls : Nat)
  /-- Fetched from a host and waiting for a first-pass slot. -/
  | hostIn (f : Nat)
  /-- Waiting for a recirculation slot of a pipeline (R25). -/
  | recirc (pl : Nat)
  /-- On its way to a context's home pipeline, from a pipe die: in the transfer queue between the two dies, or waiting for a
  slot on its own die (R24, R25). -/
  | steer (src : Nat) (pl : Nat)
  /-- Suspended at a context primitive until the context cache holds the context (R295). -/
  | ctxWait (c : Nat)
  /-- Suspended in STORAGE_BIND until a placement-table entry has been read (R318). -/
  | tableWait (c : Nat)
  /-- On its way into the traffic manager of an egress port, from a pipe die (R22). -/
  | toTm (port : Nat)
  /-- In a transfer queue between pipe dies, toward an egress port (R13). -/
  | transfer (src dst : Nat) (port : Nat)
  /-- A multicast packet in a transfer queue, one for all the group's members whose ports the far die owns (R13). -/
  | cross (src dst : Nat)
  /-- In the FIFO of a service node (R352); `true` while spilled to HBM. -/
  | node (n : NodeId) (port : Nat) (spilled : Bool)
  /-- Buffered for a host link, to be placed. -/
  | hostOut (f : Nat)
  /-- In a MAC transmit queue 1-3 of a line port (R377). -/
  | mac (port q : Nat)
deriving DecidableEq, Repr

/-- The destination of a packet: nothing yet, or FORWARD's (R245); `queue` delivers to an exception queue. -/
inductive Dest where
  | none
  | line (port : Nat)
  | function (f : Nat)
  | slice (s : Nat)
  | group (g : Nat)
  /-- Exception queue of an owner, by owner-local number. -/
  | excFn (f : Nat) (q : Nat)
  | excSlice (s : Nat) (q : Nat)
  /-- The device exception path of a pipe die (R252). -/
  | device
deriving DecidableEq, Repr

/-- One primitive still to run, with its lane's ARG and entry owner (R237). -/
structure Prim where
  op    : List Byte
  arg   : List Byte
  owner : Option Nat
deriving DecidableEq, Repr

/-- A requested mirror copy (R249). -/
structure Mirror where
  dest  : Dest
  cls   : Nat
  trunc : Nat
deriving DecidableEq, Repr

structure Packet where
  id     : Nat
  loc    : Loc
  bytes  : List Byte
  /-- INGRESS of R125; kind 3 is a bad line frame (R375). -/
  ingress : Nat
  srcSlice : Nat := 0xFFFF
  time   : Nat := 0
  gen    : Nat := 0
  hash   : Nat := 0
  hashed : Bool := false
  pass   : Nat := 0
  pmeta  : List Byte := List.replicate 16 0
  slice  : Nat := 0xFFFF
  billing : Option Nat := none
  /-- METER_CLASS has set the billing slice (R245). -/
  billSet : Bool := false
  /-- Meters of R56 have counted this packet. -/
  metered : Bool := false
  dest   : Dest := .none
  cls    : Nat := 0
  /-- A forward or steer action of the last pass has chosen the destination (R192). -/
  chosen : Bool := false
  /-- Queue choice of STEER: none is RSS. -/
  steer  : Option Nat := none
  /-- The slice that owns the entry whose ARG chose the queue (R245). -/
  steerOwner : Option Nat := none
  mirrors : Nat := 0
  poisoned : Bool := false
  macsec : Bool := false
  lengthened : Bool := false
  /-- FLAGS word of the last parse (R187). -/
  flags  : Nat := 0
  vlanTci : Nat := 0
  vlanRemoved : Bool := false
  exception : Nat := 0
  /-- Delivered as an exception, RX_FLAGS bit 5. -/
  isExc  : Bool := false
  decrypted : Bool := false
  /-- Pipeline that holds the packet: that of the last pass, or the home pipeline it was steered to. -/
  pl     : Nat := 0
  /-- Pipeline that the last pass entered. -/
  passPl : Nat := 0
  /-- Pipeline that ran RECIRCULATE (R248). -/
  recircPl : Nat := 0
  lineLen : Nat := 0
  /-- The RX queue whose spill limit this packet counts against. -/
  spillQ : Option Nat := none
  /-- Multicast copy list still to run, 0xFFFF for none (R247). -/
  copyList : Nat := 0xFFFF
  /-- Suspended pass: the PRV's bytes, the primitives left, and what the pass has done so far. -/
  prv    : List Byte := []
  todo   : List Prim := []
  anchors : List Nat := []
  ctxUsed : Bool := false
  police : Nat := 0
  recirc : Bool := false
  mirrorReq : List Mirror := []
  /-- The context that a bound transmit job's packets carry into pass 1 (R315). -/
  bound  : Option Nat := none
  /-- A policer found the packet red (R348). -/
  red    : Bool := false
  /-- The packet is a multicast copy, judged at its replication (R192). -/
  mcast  : Bool := false
  /-- The packet that a copy was made from: its place in the order of R26. -/
  origin : Option Nat := none
deriving DecidableEq, Repr

/-- The entry under which the current C2HData PDU of a context is placed (R322): buffer segments (address, length),
and the PDU's data offset and length. -/
structure Placing where
  segs  : List (Nat × Nat)
  datao : Nat
  datal : Nat
deriving DecidableEq, Repr

/-! ### Policers and nodes (chapter 15) -/

structure Policer where
  enable : Bool := false
  profile : Nat := 0
  cir : Nat := 0
  pir : Nat := 0
  cbs : Nat := 0
  pbs : Nat := 0
  tc  : Nat := 0
  tp  : Nat := 0
  /-- Number of refill boundaries already credited. -/
  refilled : Nat := 0
  /-- Settings staged for the next boundary (enable, profile, CIR, PIR, CBS, PBS, FILL), and the ring to answer. -/
  staged : Option (List Nat × Ring) := none
deriving DecidableEq, Repr

structure Node where
  cir : Nat := 0
  pir : Nat := 0
  cbs : Nat := 0
  pbs : Nat := 0
  weight : Nat := 16
  strict : Nat := 0
  overhead : Int := 0
  /-- SHARE of a subscriber, in KiB. -/
  share : Nat := 0
  /-- LIMIT of a service node, in KiB. -/
  limit : Nat := 1024
  spillEn : Bool := false
  c : Int := 0
  p : Int := 0
  deficit : Int := 0
  refilled : Nat := 0
  staged : Option (List Byte × Ring) := none
  /-- Egress port a slice node is bound to. -/
  bound : Option Nat := none
  /-- An unbind that waits for the node to drain: its ring, none after a Control Reset, and its boundary (R357). -/
  unbinding : Option (Option Ring × Nat) := none
  drops : Nat := 0
  /-- Child whose turn of the deficit round robin it is. -/
  turn : Nat := 0
deriving DecidableEq, Repr

/-! ### Learning (chapter 11) -/

structure LearnFilter where
  hash : Nat
  port : Nat
  time : Nat
deriving DecidableEq, Repr

structure Learn where
  table : Nat := 0
  profile : Nat := 0
  portOff : Nat := 0
  on    : Bool := false
  moves : Bool := true
  window : Nat := 1000
  /-- PORT_EN, 160 bits. -/
  portEn : Nat := 2 ^ 160 - 1
  ring  : EvRing := { log2 := 8 }
  event : Bool := false
  notified : Bool := false
  /-- Per pipeline: filter entries by set·4 + way, notices waiting, notices lost since the last LEARN_LOST. -/
  filters : Map LearnFilter := []
  fifos : Map (List (List Byte)) := []
  lost  : Map Nat := []
deriving DecidableEq, Repr

/-! ### Line ports (chapter 16) -/

structure PtpEntry where
  time : Nat
  type : Nat
  domain : Nat
  seq  : Nat
deriving DecidableEq, Repr

structure LPort where
  nonce : Nat := 0
  /-- Failures in a row, by lane rate bit. -/
  fails : Map Nat := []
  lastRate : Nat := 0
  /-- When the present negotiation, pause or hold began. -/
  since : Nat := 0
  anFailed : Bool := false
  /-- Negotiation pauses until the 1 s restart timer ends (R370). -/
  restart : Bool := false
  /-- The present bring-up began without auto-negotiation (R368). -/
  skipAn : Bool := false
  /-- The PCS is aligned (R371). -/
  aligned : Bool := false
  downs : List Nat := []
  /-- By class: device time at which the pause ends, when it began without a break, and until when pauses are ignored. -/
  pauseEnd : Map Nat := []
  pauseSince : Map Nat := []
  ignoreEnd : Map Nat := []
  /-- By class (8 for PAUSE): device time at which XOFF was last sent. -/
  xoffAt : Map Nat := []
  /-- MAC control frames waiting in transmit queue 0. -/
  ctrl : List (List Byte) := []
  ptpRx : List PtpEntry := []
  ptpTx : List PtpEntry := []
  ptpRxOvf : Bool := false
  ptpTxOvf : Bool := false
  /-- MACsec SA records of R306: transmit by AN, receive by 4·SC + AN. -/
  msTx : Map (List Byte) := []
  msRx : Map (List Byte) := []
  /-- Transmit ANs whose MS_PN has been raised. -/
  msWarned : List Nat := []
deriving DecidableEq, Repr

/-! ### Host links (chapter 3) -/

structure Link where
  perst : Bool := false
  /-- Speeds excluded until the next Detect, and equalization failures by speed. -/
  excluded : List Nat := []
  eqFails : Map Nat := []
  downs  : List Nat := []
  holdSince : Nat := 0
  /-- WAKE_N is driven low since this device time. -/
  wakeSince : Option Nat := none
  /-- A Host Link Reset that has not yet been followed by DL_Active. -/
  resetting : Bool := false
  /-- Link down (unplanned) since, for surprise removal. -/
  downSince : Option Nat := none
  /-- Full width of the present training, as HL_LINK_STATUS.WIDTH. -/
  fullWidth : Nat := 0
  /-- When full width was last requested without being granted (R67). -/
  widenAt : Option Nat := none
deriving DecidableEq, Repr

/-! ### The control complex (chapter 17) -/

structure Core where
  mtimecmp : Nat := 2 ^ 64 - 1
  wdogStart : Nat := 0
  /-- Private sources: PENDING, ENABLE, SMODE (R394). -/
  pend  : BitVec 64 := 0
  en    : BitVec 64 := 0
  smode : BitVec 64 := 0
  claim : Option Nat := none
deriving DecidableEq, Repr

/-- A shared interrupt source (R396). -/
structure Source where
  enable : Bool := false
  withdraw : Bool := false
  smode  : Bool := false
  level  : Bool := false
  pending : Bool := false
  armed  : Bool := true
  target : Nat := 0
deriving DecidableEq, Repr

/-! ### Stitch engines (chapter 18) -/

structure Chan where
  /-- 0 IDLE, 1 QUEUED, 2 RUNNING, 3 DISABLING, 4 DISABLED. -/
  state : Nat := 0
  disDone : Bool := false
  done  : Bool := false
  err   : Bool := false
  sig   : Bool := false
  errCode : Nat := 0
  disable : Bool := false
  customer : Bool := false
  intEn : Nat := 0
  prog  : Nat := 0
  pc    : Nat := 0
  bytes : Nat := 0
  sigval : Word := 0
  /-- Loop levels 0-3: ACTIVE and n (R413). -/
  levels : List (Bool × Nat) := [(false, 0), (false, 0), (false, 0), (false, 0)]
  poison : Bool := false
  /-- A WAIT in progress: its instruction, and when it began. -/
  waiting : Option (List Byte × Nat) := none
deriving DecidableEq, Repr

structure Engine where
  queue : List Nat := []
  running : Option Nat := none
deriving DecidableEq, Repr

/-! ### Memories (chapter 19) -/

/-- A volatile repair (R435). -/
structure Repair where
  mem  : Nat
  unit : Nat
  committed : Bool := false
deriving DecidableEq, Repr

/-- A scrub in progress; started by registers when `ring` is none. -/
structure Scrub where
  start : Nat
  len   : Nat
  began : Nat
  ring  : Option Ring
deriving DecidableEq, Repr

/-! ### Power, reset, clocks (chapter 20) -/

/-- Why the adapter is held in reset (R441, R449, R473). -/
inductive Hold where
  | powerOn | resetN | thermal | sysclk
deriving DecidableEq, Repr

structure Power where
  /-- What holds the adapter in reset now. -/
  holds : List Hold := []
  /-- Throttling rails (R443), and when the last of them rose to 96 %. -/
  throttling : List Nat := []
  liftFrom : Nat := 0
  /-- Recalibration scheduled or running on these dies. -/
  recal : List Nat := []
  /-- A bind-off (false) or power-up (true) in progress: KIND, INDEX, ring. -/
  domain : Option (Nat × Nat × Bool × Ring) := none
  /-- Control Reset in progress since this device time. -/
  ctlReset : Option Nat := none
  /-- FUSE_LOCK_CMD's first key has been written (R491). -/
  lockArmed : Bool := false
  lockBusy : Bool := false
  lockFail : Bool := false
  /-- CP_PERST_N is asserted (R473). -/
  cpPerst : Bool := false
  /-- Both image slots failed at the last activation (R176). -/
  noImage : Bool := false
  /-- Start-up has aligned the dies' copies of device time (R454, step 7). -/
  aligned : Bool := false
  /-- Each die's last measured difference from the reference, in eighths of a nanosecond, and when (R15). -/
  skews : Map (Nat × Nat) := []
deriving DecidableEq, Repr

/-- The test access port (R476): its IDCODE. No command reaches the port or the boundary-scan chain of the sideband balls,
which follow the state they show. -/
structure Tap where
  idcode : Word := 0x032807A7
deriving DecidableEq, Repr

/-- A requester's latched high half, or held low half, of the 64-bit register at `off` (R9). -/
structure Half where
  who : Requester
  off : Nat
  v   : Word
deriving DecidableEq, Repr

/-- A 64-bit value captured for one requester, which reads it in the register pair at `off`. -/
structure Capture where
  who : Requester
  off : Nat
  v   : Nat
deriving DecidableEq, Repr

/-- A slot of field fuses (R434). -/
structure FuseSlot where
  mem  : Nat
  unit : Nat
  committed : Bool
deriving DecidableEq, Repr

/-- What survives power-on: fuses and the external flash (chapter 22). -/
structure Nv where
  fieldLock : Bool := false
  slots : List FuseSlot := []
  /-- The SPI NOR, 64 MiB; an unlisted offset reads the erased value 0xFF. -/
  flash : List Host.Cell := []
deriving DecidableEq, Repr

/-- Everything that a power-on reset or Device Reset returns to its reset value. -/
structure Dev where
  /-- Device time in nanoseconds (R14). -/
  time  : Nat := 0
  /-- The register file: registers that hold a value of their own, by BAR0 offset; unlisted reads Init. -/
  regs  : Map Word := []
  latches : List Half := []
  held  : List Half := []
  /-- Captures of ACT_CNT_INDEX (R265) and of PTP timestamps (R383). -/
  captures : List Capture := []
  out   : List Output := []
  /-- Free values drawn so far: the model's own counter (log 4). -/
  free  : Nat := 0
  -- coherent updates
  updates : List Update := []
  lastApply : Nat := 0
  -- rings and commands
  mev   : EvRing := { log2 := 8, rawLog := 8 }
  rings : Map CmdRing := []
  /-- Number of the function or slice ring served last (R164). -/
  served : Nat := 0
  /-- Commands and register-path operations accepted so far (R164). -/
  accepted : Nat := 0
  tblRegs : Map TblRegs := []
  /-- A snapshot that has taken effect and is not yet written: bank, apply point, meters and slices as frozen. -/
  snap  : Option (Bool × Nat × Ring × Map Slice) := none
  snapSeq : Nat := 0
  -- functions, slices, queues, mailboxes
  /-- Functions 0-31, and the manager function as 32. -/
  fns   : Map Fn := []
  links : Map Link := []
  owners : Map OwnerSt := []
  slices : Map Slice := []
  queues : Map Queue := []
  cqs   : Map Cq := []
  mail  : Map MbSide := []
  eyelets : Map Eyelet := []
  /-- Handles freed, with the device time of the withdrawal's reply, oldest first; unlisted free handles were never used. -/
  freed : List (Nat × Nat) := []
  -- tables and generations
  tables : Map Table := []
  gens  : Gens := {}
  counters : Map (Nat × Nat) := []
  exc   : EvRing := {}
  learn : Learn := {}
  -- packets
  pkts  : List Packet := []
  nextPkt : Nat := 0
  ipId  : Map Nat := []
  ctxCache : Map (List Nat) := []
  ctxMiss : Map (List Nat) := []
  placing : Map Placing := []
  /-- Contexts whose placement table counts as not VALID until the next PLACEMENT_SET (R325). -/
  ptOff : List Nat := []
  policers : Map Policer := []
  nodes : Map Node := []
  ports : Map LPort := []
  -- control complex
  cores : Map Core := []
  ic    : Map Source := []
  locks : Map (Option Nat) := []
  chans : Map Chan := []
  engines : Map Engine := []
  -- memories: bytes and check bytes by key (Machine/Ops.lean, memKey); unlisted reads 0 after the cast-on fill
  mem   : List Host.Cell := []
  chk   : List Host.Cell := []
  repairs : List Repair := []
  scrubs : Map Scrub := []
  /-- SSVID and SSID of the board configuration record as read at start-up, none when it was absent (R484). -/
  board : Option (Nat × Nat) := none
  power : Power := {}
  tap   : Tap := {}
deriving DecidableEq, Repr

/-- The machine: the commands that wait, first in first out, what survives power-on, and the rest. -/
structure State where
  pending : List Instr := []
  nv  : Nv := {}
  dev : Dev := {}
deriving DecidableEq, Repr

/-- Why the machine stops with a fault: never. The manual gives every command of the table an effect, and a
value it leaves open is a free value; nothing raises a fault. -/
inductive Fault where
deriving DecidableEq, Repr

/-- Why a command is refused. -/
inductive Refusal where
  /-- No meaning written for the command: raised by Machine/Dispatch.lean only. Safe: nothing is claimed of it. -/
  | notModelled (mnemonic : String)
deriving DecidableEq, Repr

/-- Right after the release of power-on reset: start-up step 1 reached (R454), every field at Init. -/
def State.reset : State := {}

end Sys2Proof.Machine
end

