-- ==== Sys2Proof/Machine/Operands.lean ====
section
/-!
DEFINITION. Operand forms: the byte, field and position readers that every command parameter, descriptor, header
and ring pointer goes through. A byte beyond the end of an operand reads 0 (log 5).
-/
namespace Sys2Proof.Machine

/-! ### Bytes (R3, R4) -/

/-- Byte `i` of a structure, as a number. -/
def byteAt (b : List Byte) (i : Nat) : Nat := (b.getD i 0).toNat

/-- Little-endian value of a whole byte string (R4). -/
def leNat : List Byte → Nat
  | [] => 0
  | b :: bs => b.toNat + 256 * leNat bs

/-- Network-order value of a whole byte string (R4). -/
def beNat (b : List Byte) : Nat := b.foldl (fun a x => a * 256 + x.toNat) 0

/-- `n` bytes from offset `o`; missing bytes read 0. -/
def bytesAt (b : List Byte) (o n : Nat) : List Byte :=
  let t := (b.drop o).take n
  t ++ List.replicate (n - t.length) 0

/-- The little-endian field of `n` bytes at offset `o`. -/
def le (b : List Byte) (o n : Nat) : Nat := leNat (bytesAt b o n)

/-- The network-order field of `n` bytes at offset `o`. -/
def be (b : List Byte) (o n : Nat) : Nat := beNat (bytesAt b o n)

/-- `v` as `n` little-endian bytes. -/
def leBytes : Nat → Nat → List Byte
  | 0, _ => []
  | n + 1, v => BitVec.ofNat 8 v :: leBytes n (v / 256)

/-- `v` as `n` bytes in network order. -/
def beBytes (n v : Nat) : List Byte := (leBytes n v).reverse

/-- `b` cut or filled with zero bytes to `n` bytes. -/
def padTo (n : Nat) (b : List Byte) : List Byte := bytesAt b 0 n

/-- `b` with the bytes from `o` on replaced by `x`; its length is kept. -/
def putBytes (b : List Byte) (o : Nat) (x : List Byte) : List Byte :=
  b.take o ++ x.take (b.length - o) ++ b.drop (o + x.length)

def putLe (b : List Byte) (o n v : Nat) : List Byte := putBytes b o (leBytes n v)
def putBe (b : List Byte) (o n v : Nat) : List Byte := putBytes b o (beBytes n v)

/-- Whether `n` bytes from `o` are all 0: a reserved field of a parameter block. -/
def zeroAt (b : List Byte) (o n : Nat) : Bool := (bytesAt b o n).all (· == 0)

/-- `b` cut into pieces of `n` bytes. -/
def chunks (n : Nat) (b : List Byte) : List (List Byte) :=
  (List.range ((b.length + n - 1) / n)).map fun i => (b.drop (i * n)).take n

/-! ### Fields of a word -/

/-- Bits hi..lo of a number. -/
def bits (v hi lo : Nat) : Nat := v / 2 ^ lo % 2 ^ (hi - lo + 1)

/-- Bit i of a number. -/
def bit (v i : Nat) : Bool := v / 2 ^ i % 2 == 1

/-- Bits hi..lo of a number replaced by `x`. -/
def setBits (v hi lo x : Nat) : Nat :=
  v - bits v hi lo * 2 ^ lo + x % 2 ^ (hi - lo + 1) * 2 ^ lo

/-- A flag as a number. -/
def b2n (b : Bool) : Nat := if b then 1 else 0

/-- A number as a word. -/
def word (n : Nat) : Word := BitVec.ofNat 32 n

/-- Bits hi..lo of a word. -/
def wbits (w : Word) (hi lo : Nat) : Nat := bits w.toNat hi lo

/-- A word with bits hi..lo replaced by `x`. -/
def wset (w : Word) (hi lo x : Nat) : Word := word (setBits w.toNat hi lo x)

/-- The low and the high 32 bits of a number. -/
def lo32 (n : Nat) : Nat := n % 2 ^ 32
def hi32 (n : Nat) : Nat := n / 2 ^ 32 % 2 ^ 32

/-- Two's complement value of `n` bits. -/
def signed (n v : Nat) : Int := if v < 2 ^ (n - 1) then v else (v : Int) - 2 ^ n

/-! ### Ring positions (R111) -/

/-- Position 0..2N-1 of a written pointer: index in bits 15:0, lap in bit 16; none for an index of N or more. -/
def posOf (n : Nat) (w : Nat) : Option Nat :=
  if w % 65536 < n then some (w / 65536 % 2 * n + w % 65536) else none

/-- A position as it is written and read: index in bits 15:0, lap in bit 16. -/
def posWord (n p : Nat) : Nat := p % n + p / n % 2 * 65536

/-- Entries between head and tail: (pos(tail) − pos(head)) mod 2N. -/
def ringCount (n head tail : Nat) : Nat := (tail + 2 * n - head) % (2 * n)

/-- `k` entries further. -/
def ringAdd (n p k : Nat) : Nat := (p + k) % (2 * n)

/-- A new tail is valid when its count, reckoned from the head, is no less than the present one and at most N (R112). -/
def tailValid (n head tail w : Nat) : Option Nat :=
  match posOf n w with
  | none => none
  | some p => if ringCount n head tail ≤ ringCount n head p && ringCount n head p ≤ n then some p else none

/-- A new consumer head is valid when it lies no further from the old head than the write position (R113). -/
def headValid (n head wpos w : Nat) : Option Nat :=
  match posOf n w with
  | none => none
  | some p => if ringCount n head p ≤ ringCount n head wpos then some p else none

/-! ### Keys of the sparse tables -/

/-- The key of a command ring: the manager's, then the functions', then the slices'. -/
def ringKey : Ring → Nat
  | .manager => 0
  | .function f => 1 + f
  | .slice s => 64 + s

/-- CR_ID.KIND and NUMBER (R157). -/
def ringKind : Ring → Nat
  | .manager => 0
  | .function _ => 1
  | .slice _ => 2
def ringNumber : Ring → Nat
  | .manager => 0
  | .function f => f
  | .slice s => s

/-- The key of a queue owner: functions 0-31, slices from 64. -/
def ownerKey : Owner → Nat
  | .function f => f
  | .slice s => 64 + s

/-- The key of a queue or completion ring of an owner. -/
def qKey (o : Owner) (q : Nat) : Nat := ownerKey o * 8192 + q

/-- The key of a mailbox side: functions, slices, cores; even the other party's, odd the manager's. -/
def pairKey : Pair → Nat
  | .function f => f
  | .slice s => 64 + s
  | .core c => 8192 + c
def sideKey (x : Side) : Nat := 2 * pairKey x.pair + b2n x.mgr

/-- The ID of a requester in the order of R402: cores 0-15, manager 16 is given by the chapter's own table, so
this is only the model's key for a requester's own registers: manager 0, cores 1-16, stitch 32-63, hosts 64-95. -/
def reqKey : Requester → Nat
  | .manager => 0
  | .core c => 1 + c
  | .stitch e ch => 32 + 16 * e + ch
  | .host f => 64 + f

/-- The key of a logical line port, 4g + k (R36). -/
def portKey (g : Fin 32) (k : Fin 4) : Nat := 4 * g + k

/-- The key of an egress node (R350, R351). -/
def nodeKey : NodeId → Nat
  | .port p => p
  | .dflt p => 256 + p
  | .slice s n => 2 ^ 20 + s * 256 + n
  | .dfltSvc p c => 2 ^ 22 + p * 8 + c
  | .sliceSvc s n c => 2 ^ 24 + (s * 256 + n) * 8 + c

/-- Limit a saturating 32-bit count. -/
def sat32 (n : Nat) : Nat := min n 0xFFFFFFFF

/-- A finite number by its value, wrapped. -/
def fin (n v : Nat) (h : 0 < n := by decide) : Fin n := ⟨v % n, Nat.mod_lt _ h⟩

end Sys2Proof.Machine
end

