-- ==== Sys2Proof/Machine/Flags.lean ====
section
/-!
DEFINITION. What the adapter computes over bytes: status codes, checksums, CRCs and hashes.
-/
namespace Sys2Proof.Machine

/-! ### Status codes (R165) -/

def stOk := 0x00
def stPending := 0x01
def stExists := 0x02
def stNotFound := 0x03
def stTableFull := 0x04
def stEvicted := 0x05
def stNoResource := 0x06
def stDenied := 0x07
def stBadOpcode := 0x08
def stBadParam := 0x09
def stBadLength := 0x0A
def stGenBusy := 0x0B
def stAborted := 0x0C
def stSliceReset := 0x0D
def stDomainDown := 0x0E
def stTimeout := 0x0F
def stMediaError := 0x10
def stPoisoned := 0x11
def stHostLost := 0x12
def stInternal := 0xFF

/-! ### CRCs -/

/-- Eight steps of a reflected CRC-32 with the bit-reversed polynomial `poly`. -/
def crcByte (poly : Word) (c : Word) (b : Byte) : Word :=
  let step (c : Word) : Word := if c.getLsbD 0 then (c >>> 1) ^^^ poly else c >>> 1
  let c := c ^^^ b.setWidth 32
  step (step (step (step (step (step (step (step c)))))))

/-- CRC-32 of IEEE 802.3: reflected, initial value all ones, result complemented (R107). -/
def crc32 (b : List Byte) : Word := ~~~ (b.foldl (crcByte 0xEDB88320) 0xFFFFFFFF)

/-- CRC-32C (Castagnoli): reflected, initial value all ones, result complemented. -/
def crc32c (b : List Byte) : Word := ~~~ (b.foldl (crcByte 0x82F63B78) 0xFFFFFFFF)

/-- The frame check sequence as it is sent: the CRC-32, least significant byte first. -/
def fcsBytes (b : List Byte) : List Byte := leBytes 4 (crc32 b).toNat

/-! ### Internet checksum -/

/-- Sum of 16-bit words in network order, an odd last byte padded with 0. -/
def sum16 : List Byte → Nat
  | [] => 0
  | [a] => a.toNat * 256
  | a :: b :: rest => a.toNat * 256 + b.toNat + sum16 rest

/-- Fold a sum to 16 bits with end-around carry. -/
def fold16 (s : Nat) : Nat :=
  let s := s % 65536 + s / 65536
  let s := s % 65536 + s / 65536
  s % 65536 + s / 65536

/-- The Internet checksum that makes the sum of all words all ones. -/
def inetChecksum (sum : Nat) : Nat := 65535 - fold16 sum

/-- Whether bytes that include their own checksum verify. -/
def inetOk (sum : Nat) : Bool := fold16 sum == 65535

/-! ### Toeplitz hash (R135) -/

/-- Bit i of a byte string, most significant bit first. -/
def bitMsb (b : List Byte) (i : Nat) : Bool := (b.getD (i / 8) 0).getMsbD (i % 8)

/-- Bits i .. i+31 of the key, most significant first, as a 32-bit value. -/
def keyWindow (key : List Byte) (i : Nat) : Word :=
  word (beNat (bytesAt key (i / 8) 5) / 2 ^ (8 - i % 8) % 2 ^ 32)

/-- R135: the exclusive or of the key windows at the input's one bits. -/
def toeplitz (key input : List Byte) : Word :=
  (List.range (8 * input.length)).foldl
    (fun h i => if bitMsb input i then h ^^^ keyWindow key i else h) 0

end Sys2Proof.Machine
end

