-- ==== Sys2Proof/Machine/Regs.lean ====
section
/-!
DEFINITION. The register map of the manager function's BAR0 (01_rack_adapter.md, Register space), as the
register tables of every chapter give it: offset, replication, fields with type and Init. Registers of a host
function's BAR0 that the manager sees (R85, R139) are listed where the manager sees them. What a register of
another structure reads as (a ring, a channel, a core, a lock) is computed in Machine/Registers.lean.
-/
namespace Sys2Proof.Machine

/-- The register types of R6; `sp` is a field that a rule of its own governs (PTP_RX_INFO, IC_CLAIM). -/
inductive RegType where
  | ro | rw | rw1c | rc | wo | sp
deriving DecidableEq, Repr

structure RegField where
  hi : Nat
  lo : Nat
  ty : RegType
  init : Nat := 0
deriving DecidableEq, Repr

/-- A register, replicated over `dims`: (count, stride), the widest stride first. `half` is 1 for the low and 2
for the high half of a 64-bit value (R9). -/
structure RegDef where
  base : Nat
  dims : List (Nat × Nat) := []
  fields : List RegField
  half : Nat := 0
deriving DecidableEq, Repr

/-- One field over the whole register. -/
def whole (t : RegType) (init : Nat := 0) : List RegField := [⟨31, 0, t, init⟩]

/-- The two halves of a 64-bit register at `b` and `b + 4`. -/
def pair64 (b : Nat) (dims : List (Nat × Nat)) (t : RegType) : List RegDef :=
  [⟨b, dims, whole t, 1⟩, ⟨b + 4, dims, whole t, 2⟩]

/-- Saturating RC counters, one at each block offset. -/
def counters (b : Nat) (dims : List (Nat × Nat)) (offs : List Nat) : List RegDef :=
  offs.map fun o => ⟨b + o, dims, whole .rc, 0⟩

/-- DEV block: identity, status and reset (20), fuses and SPI (22), HBM aperture and event ring (R33, R35). -/
def devRegs : List RegDef :=
  [⟨0x0, [], [⟨31, 16, .ro, 0xF0A7⟩, ⟨15, 0, .ro, 0x3280⟩], 0⟩,
   ⟨0x4, [], [⟨7, 0, .ro, 0⟩], 0⟩] ++ pair64 0x8 [] .ro ++
  [⟨0x10, [], [⟨0, 0, .wo, 0⟩], 0⟩,
   ⟨0x14, [], [⟨31, 31, .ro, 0⟩, ⟨30, 30, .ro, 0⟩, ⟨23, 16, .ro, 0⟩, ⟨3, 0, .ro, 1⟩], 0⟩,
   ⟨0x18, [], [⟨7, 4, .ro, 0⟩, ⟨3, 0, .ro, 1⟩], 0⟩,
   ⟨0x1C, [], whole .rc, 0⟩, ⟨0x20, [], whole .ro, 0⟩,
   ⟨0x40, [], [⟨31, 30, .rw, 0⟩], 1⟩, ⟨0x44, [], [⟨3, 0, .rw, 0⟩], 2⟩,
   ⟨0x100, [(12, 4)], whole .ro, 0⟩,
   ⟨0x130, [], [⟨3, 3, .ro, 0⟩, ⟨2, 2, .ro, 0⟩, ⟨1, 1, .ro, 1⟩, ⟨0, 0, .ro, 0⟩], 0⟩,
   ⟨0x134, [], whole .wo, 0⟩,
   ⟨0x200, [], [⟨31, 31, .wo, 0⟩, ⟨30, 30, .ro, 0⟩, ⟨1, 0, .rw, 0⟩], 0⟩,
   ⟨0x204, [], [⟨25, 0, .rw, 0⟩], 0⟩, ⟨0x208, [], [⟨22, 0, .rw, 0⟩], 0⟩,
   ⟨0x20C, [], [⟨31, 8, .ro, 0⟩, ⟨7, 0, .ro, 0⟩], 0⟩] ++ pair64 0x210 [] .ro ++
  [⟨0x300, [], [⟨31, 12, .rw, 0⟩], 1⟩, ⟨0x304, [], whole .rw, 2⟩,
   ⟨0x308, [], [⟨31, 31, .rw, 0⟩, ⟨28, 24, .rw, 8⟩, ⟨5, 0, .rw, 0⟩], 0⟩,
   ⟨0x30C, [], [⟨16, 0, .wo, 0⟩], 0⟩,
   ⟨0x310, [], [⟨31, 31, .rw1c, 0⟩, ⟨16, 0, .ro, 0⟩], 0⟩,
   ⟨0x314, [], [⟨31, 1, .rw, 0⟩], 0⟩, ⟨0x318, [], whole .rc, 0⟩]

/-- TIME block (01_rack_adapter.md). -/
def timeRegs : List RegDef :=
  pair64 0x100000 [] .ro ++ pair64 0x100008 [] .ro ++ pair64 0x100010 [] .rw ++
  [⟨0x100018, [], [⟨17, 0, .rw, 0⟩], 0⟩,
   ⟨0x10001C, [], [⟨23, 16, .rc, 0⟩, ⟨10, 8, .ro, 0⟩, ⟨2, 2, .rw1c, 0⟩, ⟨1, 1, .rw1c, 0⟩, ⟨0, 0, .ro, 0⟩], 0⟩]

/-- HL blocks (03_host_links.md), the function's registers in them (R85, R139), and R342. -/
def hlRegs : List RegDef :=
  let D := [(32, 0x10000)]
  [⟨0x1000000, D, [⟨15, 12, .rw, 6⟩, ⟨11, 10, .rw, 0⟩, ⟨9, 9, .rw, 0⟩, ⟨8, 8, .rw, 0⟩, ⟨7, 7, .wo, 0⟩], 0⟩,
   ⟨0x1000004, D, [⟨23, 20, .ro, 0⟩, ⟨19, 16, .ro, 0⟩, ⟨15, 13, .ro, 0⟩, ⟨12, 12, .ro, 0⟩, ⟨11, 11, .ro, 0⟩,
     ⟨10, 10, .ro, 0⟩, ⟨9, 9, .rw1c, 0⟩, ⟨8, 8, .ro, 0⟩, ⟨7, 7, .ro, 0⟩], 0⟩,
   ⟨0x1000008, D, [⟨16, 16, .rw, 1⟩, ⟨9, 8, .rw, 1⟩, ⟨7, 0, .rw, 25⟩], 0⟩,
   ⟨0x1000010, D, [⟨15, 9, .rw1c, 0⟩, ⟨3, 3, .ro, 0⟩, ⟨2, 2, .ro, 0⟩, ⟨1, 1, .ro, 0⟩, ⟨0, 0, .ro, 0⟩], 0⟩,
   ⟨0x1000014, D, [⟨15, 9, .rw, 0x7F⟩, ⟨8, 8, .wo, 0⟩, ⟨5, 4, .rw, 0⟩, ⟨3, 3, .rw, 1⟩, ⟨0, 0, .rw, 0⟩], 0⟩] ++
  counters 0x1000000 D [0x20, 0x24, 0x28, 0x2C, 0x30, 0x34, 0x38, 0x3C, 0x40, 0x44, 0x100, 0x104, 0x108, 0x10C] ++
  [⟨0x1008000, D, [⟨15, 8, .ro, 0⟩, ⟨7, 7, .ro, 0⟩, ⟨4, 0, .ro, 0⟩], 0⟩,
   ⟨0x1008004, D, [⟨9, 0, .ro, 0⟩], 0⟩, ⟨0x1008008, D, [⟨6, 1, .ro, 0⟩, ⟨0, 0, .ro, 1⟩], 0⟩] ++
  counters 0x1008000 D [0x10, 0x14, 0x18, 0x1C, 0x20, 0x24, 0x28, 0x2C, 0x30, 0x34, 0x38,
    0x4100, 0x4104, 0x4108, 0x410C, 0x4110, 0x4114, 0x4118, 0x411C]

/-- LP blocks (16_line_ports.md), MACsec (R305, R308) included. -/
def lpRegs : List RegDef :=
  let D := [(32, 0x10000)]
  let K := [(32, 0x10000), (4, 4)]
  let P := [(32, 0x10000), (4, 0x20)]
  [⟨0x2000000, D, [⟨2, 0, .rw, 0⟩], 0⟩, ⟨0x2000004, D, [⟨0, 0, .rw1c, 0⟩], 0⟩,
   ⟨0x2000010, K, [⟨31, 31, .rw, 0⟩, ⟨30, 30, .wo, 0⟩, ⟨29, 29, .rw, 0⟩, ⟨28, 27, .rw, 0⟩, ⟨26, 25, .rw, 0⟩,
     ⟨24, 22, .rw, 7⟩, ⟨21, 21, .rw, 0⟩, ⟨13, 0, .rw, 9216⟩], 0⟩,
   ⟨0x2000020, K, [⟨31, 31, .ro, 0⟩, ⟨30, 28, .ro, 0⟩, ⟨27, 27, .ro, 0⟩, ⟨26, 26, .ro, 0⟩, ⟨25, 25, .ro, 0⟩,
     ⟨23, 20, .ro, 0⟩, ⟨19, 18, .ro, 0⟩, ⟨7, 0, .rw1c, 0⟩], 0⟩,
   ⟨0x2000030, K, [⟨18, 16, .ro, 0⟩, ⟨15, 15, .ro, 0⟩, ⟨14, 12, .ro, 0⟩, ⟨11, 10, .ro, 0⟩], 0⟩,
   ⟨0x2000040, K, [⟨26, 24, .rw, 0⟩, ⟨23, 0, .rw, 0xFAC688⟩], 0⟩,
   ⟨0x2000050, K, [⟨8, 8, .rw, 1⟩, ⟨7, 0, .rw, 0xC0⟩], 0⟩,
   ⟨0x2000060, K, [⟨15, 8, .rw, 0⟩, ⟨7, 0, .rw, 0⟩], 0⟩,
   ⟨0x2000070, K, [⟨24, 16, .rw, 64⟩, ⟨8, 0, .rw, 32⟩], 0⟩,
   ⟨0x2000080, K, whole .rc, 0⟩,
   ⟨0x2000100, P, [⟨30, 24, .ro, 0⟩, ⟨22, 16, .ro, 0⟩, ⟨3, 0, .rw, 0⟩], 0⟩,
   ⟨0x2000104, P, whole .sp, 0⟩] ++ pair64 0x2000108 P .ro ++
  [⟨0x2000110, P, whole .sp, 0⟩] ++ pair64 0x2000114 P .ro ++
  [⟨0x2000200, [(32, 0x10000), (4, 0x10), (3, 4)], whole .rw1c, 0⟩] ++
  pair64 0x2001000 [(32, 0x10000), (4, 0x400), (75, 8)] .ro ++
  [⟨0x2008000, K, [⟨31, 31, .rw, 0⟩, ⟨30, 30, .rw, 0⟩, ⟨29, 29, .rw, 1⟩, ⟨28, 28, .rw, 1⟩, ⟨27, 26, .rw, 2⟩,
     ⟨25, 25, .rw, 1⟩, ⟨17, 16, .rw, 0⟩], 0⟩,
   ⟨0x2008010, K, whole .rw, 0⟩,
   ⟨0x2008020, D, [⟨31, 31, .ro, 0⟩, ⟨30, 30, .wo, 0⟩, ⟨1, 0, .rw, 0⟩], 0⟩,
   ⟨0x2008024, D, [⟨31, 8, .ro, 0⟩, ⟨7, 0, .ro, 0⟩], 0⟩,
   ⟨0x2008040, [(32, 0x10000), (20, 4)], whole .rw, 0⟩] ++
  counters 0x2008100 [(32, 0x10000), (4, 0x40)] [0, 4, 8, 0xC, 0x10, 0x14, 0x18, 0x1C, 0x20]

/-- PL blocks: R200, R266, R280, R309, R363, R30; TM (R362, R363); CRYPTO (R309, R326). -/
def plRegs : List RegDef :=
  counters 0x4000000 [(8, 0x100000)] [0x2000, 0x2004, 0x2008, 0x200C, 0x2010, 0x2014, 0x2018, 0x2100, 0x2104,
    0x2108, 0x210C, 0x2110, 0x2114, 0x2118, 0x211C, 0x2200, 0x2204, 0x2208, 0x220C, 0x2210, 0x2300, 0x2304,
    0x2308, 0x2400, 0x2404, 0x2408, 0x2500, 0x2504, 0x2508] ++
  [⟨0xC000000, [], [⟨19, 0, .rw, 10000⟩], 0⟩,
   ⟨0xC001000, [(4, 0x100)], [⟨16, 0, .ro, 0⟩], 0⟩, ⟨0xC001004, [(4, 0x100)], [⟨13, 0, .ro, 0⟩], 0⟩] ++
  counters 0xC001000 [(4, 0x100)] [0x10, 0x14, 0x18, 0x1C, 0x20, 0x24, 0x28] ++
  counters 0xD000000 [(8, 0x100)] [0, 4, 8, 0xC, 0x10, 0x14, 0x18, 0x1C, 0x20, 0x24, 0x28,
    0x40, 0x44, 0x48, 0x4C, 0x50, 0x54, 0x58, 0x5C]

/-- TBL block: register path (R171), command engine (R157, R174), generations and captures (R264, R265), learning
(R279), table counters (R236). -/
def tblBlockRegs : List RegDef :=
  [⟨0xD800000, [], [⟨31, 31, .ro, 0⟩, ⟨30, 30, .wo, 0⟩, ⟨27, 16, .rw, 0⟩, ⟨15, 15, .rw, 0⟩, ⟨11, 6, .rw, 0⟩,
     ⟨3, 0, .rw, 0⟩], 0⟩,
   ⟨0xD800004, [], [⟨31, 8, .ro, 0⟩, ⟨7, 0, .ro, 0⟩], 0⟩] ++ pair64 0xD800008 [] .ro ++
  [⟨0xD800010, [], whole .rc, 0⟩, ⟨0xD800040, [(14, 4)], whole .rw, 0⟩, ⟨0xD800080, [(16, 4)], whole .rw, 0⟩,
   ⟨0xD801000, [], [⟨0, 0, .wo, 0⟩], 0⟩,
   ⟨0xD801004, [], [⟨31, 16, .ro, 0⟩, ⟨4, 4, .ro, 0⟩, ⟨1, 1, .ro, 0⟩, ⟨0, 0, .ro, 0⟩], 0⟩,
   ⟨0xD802000, [], [⟨31, 12, .rw, 0⟩], 1⟩, ⟨0xD802004, [], whole .rw, 2⟩,
   ⟨0xD802008, [], [⟨31, 31, .rw, 0⟩, ⟨30, 30, .rw, 0⟩, ⟨28, 24, .rw, 7⟩, ⟨20, 16, .rw, 6⟩, ⟨10, 0, .rw, 0⟩], 0⟩,
   ⟨0xD80200C, [], [⟨16, 0, .wo, 0⟩], 0⟩, ⟨0xD802010, [], [⟨16, 0, .ro, 0⟩], 0⟩,
   ⟨0xD802014, [], [⟨31, 31, .ro, 0⟩, ⟨30, 30, .ro, 0⟩, ⟨29, 29, .ro, 0⟩, ⟨3, 0, .ro, 0⟩], 0⟩,
   ⟨0xD802018, [], [⟨31, 12, .rw, 0⟩], 1⟩, ⟨0xD80201C, [], whole .rw, 2⟩,
   ⟨0xD802020, [], [⟨16, 0, .wo, 0⟩], 0⟩, ⟨0xD802024, [], [⟨16, 0, .ro, 0⟩], 0⟩,
   ⟨0xD802028, [], whole .rc, 0⟩, ⟨0xD80202C, [], [⟨31, 30, .ro, 0⟩, ⟨11, 0, .ro, 0⟩], 0⟩,
   ⟨0xD803000, [], [⟨31, 16, .ro, 0⟩, ⟨15, 0, .ro, 1⟩], 0⟩,
   ⟨0xD803004, [], [⟨31, 31, .ro, 0⟩, ⟨30, 30, .ro, 0⟩, ⟨15, 0, .ro, 0⟩], 0⟩,
   ⟨0xD803010, [], [⟨31, 12, .rw, 0⟩], 1⟩, ⟨0xD803014, [], whole .rw, 2⟩,
   ⟨0xD803018, [], [⟨31, 31, .rw, 0⟩, ⟨3, 0, .rw, 6⟩], 0⟩,
   ⟨0xD80301C, [], [⟨16, 0, .wo, 0⟩], 0⟩, ⟨0xD803020, [], [⟨16, 0, .ro, 0⟩], 0⟩, ⟨0xD803024, [], whole .rc, 0⟩,
   ⟨0xD803100, [], [⟨17, 0, .rw, 0⟩], 0⟩] ++ pair64 0xD803108 [] .ro ++ pair64 0xD803110 [] .ro ++
  [⟨0xD803200, [], [⟨16, 0, .wo, 0⟩], 0⟩, ⟨0xD803204, [], [⟨16, 0, .ro, 0⟩], 0⟩,
   ⟨0xD803208, [], [⟨31, 31, .ro, 0⟩, ⟨30, 30, .ro, 0⟩], 0⟩, ⟨0xD80320C, [], whole .rc, 0⟩] ++
  pair64 0xD804000 [(64, 0x40)] .ro ++ pair64 0xD804008 [(64, 0x40)] .ro ++
  counters 0xD804000 [(64, 0x40)] [0x10, 0x14, 0x18, 0x1C, 0x20, 0x24] ++
  [⟨0xD804028, [(64, 0x40)], whole .ro, 0⟩, ⟨0xD80402C, [(64, 0x40)], whole .ro, 0⟩]

/-- MEM block (19_memory_integrity.md): R428, R430, R432, R433, R435. -/
def memRegs : List RegDef :=
  let M := [(12, 0x100)]
  counters 0xE000000 M [0, 4, 8] ++
  [⟨0xE00000C, M, [⟨15, 8, .ro, 0⟩, ⟨7, 0, .ro, 0⟩], 0⟩,
   ⟨0xE000010, M, whole .ro 0xFFFFFFFF, 1⟩, ⟨0xE000014, M, whole .ro 0xFFFFFFFF, 2⟩,
   ⟨0xE000018, M, whole .ro 0xFFFFFFFF, 1⟩, ⟨0xE00001C, M, whole .ro 0xFFFFFFFF, 2⟩,
   ⟨0xE000020, M, [⟨15, 0, .rw, 1000⟩], 0⟩,
   ⟨0xE001000, [], [⟨25, 0, .rw1c, 0⟩], 0⟩, ⟨0xE001004, [], whole .rc, 0⟩,
   ⟨0xE002000, [], [⟨31, 31, .wo, 0⟩, ⟨3, 0, .rw, 0⟩], 0⟩,
   ⟨0xE002004, [], [⟨31, 31, .ro, 0⟩, ⟨7, 0, .ro, 0⟩], 0⟩] ++
  pair64 0xE002008 [] .rw ++ pair64 0xE002010 [] .rw ++
  [⟨0xE002018, [], whole .ro, 0⟩, ⟨0xE00201C, [], whole .ro, 0⟩, ⟨0xE002020, [], whole .ro, 0⟩,
   ⟨0xE002024, [], whole .ro 0xFFFFFFFF, 1⟩, ⟨0xE002028, [], whole .ro 0xFFFFFFFF, 2⟩, ⟨0xE00202C, [], whole .ro, 0⟩,
   ⟨0xE003000, [], [⟨31, 31, .rw, 0⟩, ⟨3, 0, .rw, 0⟩], 0⟩] ++ pair64 0xE003004 [] .rw ++ pair64 0xE00300C [] .rw ++
  [⟨0xE003014, [], [⟨7, 0, .rw, 0⟩], 0⟩, ⟨0xE003018, [], [⟨1, 0, .wo, 0⟩], 0⟩,
   ⟨0xE00301C, [], [⟨31, 31, .ro, 0⟩, ⟨30, 24, .ro, 0⟩, ⟨23, 16, .ro, 0⟩, ⟨9, 8, .ro, 0⟩, ⟨7, 0, .ro, 0⟩], 0⟩,
   ⟨0xE003100, [], whole .rw, 0⟩, ⟨0xE003104, [], whole .rw, 0⟩, ⟨0xE003108, [], [⟨7, 0, .rw, 0⟩], 0⟩,
   ⟨0xE00310C, [], [⟨31, 31, .rw, 0⟩, ⟨30, 30, .rw, 0⟩, ⟨3, 0, .rw, 0⟩], 0⟩] ++ pair64 0xE003110 [] .ro ++
  [⟨0xE004000, [], [⟨31, 31, .wo, 0⟩, ⟨30, 30, .ro, 0⟩, ⟨9, 8, .rw, 0⟩, ⟨3, 0, .rw, 0⟩], 0⟩,
   ⟨0xE004004, [], [⟨31, 10, .rw, 0⟩], 1⟩, ⟨0xE004008, [], whole .rw, 2⟩,
   ⟨0xE00400C, [], [⟨7, 0, .ro, 0⟩], 0⟩,
   ⟨0xE004100, [(12, 4)], [⟨31, 24, .ro, 0⟩, ⟨23, 16, .ro, 0⟩, ⟨15, 8, .ro, 0⟩, ⟨7, 0, .ro, 0⟩], 0⟩]

/-- CTL block (17_control_complex.md): interrupt controller, locks, cores 4-15, I2C. Mailbox sides are in
Machine/Mailbox.lean. -/
def ctlRegs : List RegDef :=
  let C := [(16, 0x1000)]
  [⟨0xE800000, C, [⟨11, 0, .sp, 0xFFF⟩], 0⟩,
   ⟨0xE800010, C, whole .ro, 0⟩, ⟨0xE800014, C, whole .ro, 0⟩,
   ⟨0xE800020, C, whole .rw, 0⟩, ⟨0xE800024, C, whole .rw, 0⟩,
   ⟨0xE800028, C, whole .rw, 0⟩, ⟨0xE80002C, C, whole .rw, 0⟩,
   ⟨0xE800030, C, [⟨7, 0, .wo, 0⟩], 0⟩, ⟨0xE800100, [(16, 0x1000), (32, 4)], whole .ro, 0⟩,
   ⟨0xE800200, C, whole .rc, 0⟩,
   ⟨0xE880000, [(1024, 4)], [⟨31, 31, .rw, 0⟩, ⟨30, 30, .rw, 0⟩, ⟨29, 29, .rw, 0⟩, ⟨9, 9, .ro, 0⟩, ⟨8, 8, .ro, 0⟩,
     ⟨3, 0, .rw, 0⟩], 0⟩,
   ⟨0xE881000, [(32, 4)], whole .ro, 0⟩, ⟨0xE882000, [], [⟨8, 0, .wo, 0⟩], 0⟩,
   ⟨0xE900000, [(256, 4)], whole .sp, 0⟩,
   ⟨0xE900400, [(256, 4)], [⟨31, 31, .ro, 0⟩, ⟨7, 0, .ro, 0⟩], 0⟩,
   ⟨0xE900800, [], whole .rc, 0⟩, ⟨0xE900804, [], [⟨15, 8, .ro, 0⟩, ⟨7, 0, .ro, 0⟩], 0⟩] ++
  (let Q := [(12, 0x100)]
   [⟨0xE980400, Q, [⟨31, 31, .rw, 1⟩, ⟨30, 30, .wo, 0⟩], 0⟩, ⟨0xE980404, Q, [⟨31, 2, .rw, 0x4100000⟩], 0⟩,
    ⟨0xE980408, Q, [⟨2, 2, .rw1c, 0⟩, ⟨1, 1, .ro, 1⟩, ⟨0, 0, .ro, 0⟩], 0⟩,
    ⟨0xE98040C, Q, [⟨31, 31, .rw, 0⟩, ⟨30, 30, .rw, 0⟩, ⟨15, 0, .rw, 1000⟩], 0⟩,
    ⟨0xE980410, Q, whole .wo, 0⟩, ⟨0xE980414, Q, whole .rc, 0⟩]) ++ pair64 0xE981000 [] .ro ++
  (let N := [(8, 0x100)]
   [⟨0xEA00000, N, [⟨31, 31, .rw, 0⟩, ⟨30, 30, .wo, 0⟩, ⟨29, 28, .rw, 0⟩, ⟨27, 27, .rw, 0⟩], 0⟩,
    ⟨0xEA00004, N, [⟨31, 31, .ro, 0⟩, ⟨30, 30, .wo, 0⟩, ⟨29, 29, .rw, 1⟩, ⟨25, 16, .rw, 0⟩, ⟨15, 8, .rw, 0⟩,
      ⟨7, 0, .rw, 0⟩], 0⟩,
    ⟨0xEA00008, N, [⟨15, 8, .ro, 0⟩, ⟨7, 2, .rw1c, 0⟩], 0⟩, ⟨0xEA00040, [(8, 0x100), (16, 4)], whole .rw, 0⟩])

/-- STITCH block (18_stitch_engine.md). -/
def stitchRegs : List RegDef :=
  let C := [(2, 0x10000), (16, 0x100)]
  [⟨0xF000000, C, [⟨31, 31, .wo, 0⟩, ⟨30, 30, .rw, 0⟩, ⟨29, 29, .rw, 0⟩, ⟨2, 0, .rw, 0⟩], 0⟩,
   ⟨0xF000004, C, [⟨31, 31, .ro, 0⟩, ⟨30, 28, .ro, 0⟩, ⟨23, 16, .ro, 0⟩, ⟨2, 0, .rw1c, 0⟩], 0⟩,
   ⟨0xF000008, C, [⟨31, 5, .rw, 0⟩], 1⟩, ⟨0xF00000C, C, whole .rw, 2⟩] ++
  pair64 0xF000010 C .ro ++ pair64 0xF000018 C .ro ++
  [⟨0xF000020, C, whole .ro, 0⟩,
   ⟨0xF001000, [(2, 0x10000)], [⟨31, 31, .ro, 0⟩, ⟨19, 16, .ro, 0⟩, ⟨4, 0, .ro, 0⟩], 0⟩,
   ⟨0xF001004, [(2, 0x10000)], whole .rc, 0⟩]

/-- Nominal level of rail r in mV; AVS rails start at 750 (R439). -/
def railNominal (r : Nat) : Nat :=
  if r < 8 then 750 else [900, 900, 1200, 1100, 400, 1800, 1800].getD (r - 8) 0

/-- The registers of rails 0-14 (R444). The manual gives NOW_MV no Init: the rail is taken to stand at its nominal
level (log 41). -/
def railRegs : List RegDef := (List.range 15).flatMap fun r =>
  [⟨0xF800000 + 0x10 * r, [],
    [⟨31, 31, .ro, 0⟩, ⟨30, 30, .rw1c, 0⟩, ⟨29, 29, .rw1c, 0⟩, ⟨27, 16, .rc, 0xFFF⟩, ⟨11, 0, .ro, railNominal r⟩], 0⟩,
   ⟨0xF800004 + 0x10 * r, [], [⟨11, 0, .ro, railNominal r⟩], 0⟩, ⟨0xF800008 + 0x10 * r, [], whole .rc, 0⟩]

/-- PWR block (20, 21). -/
def pwrRegs : List RegDef :=
  railRegs ++
  [⟨0xF800100, [], [⟨31, 31, .ro, 0⟩, ⟨3, 0, .ro, 0⟩], 0⟩] ++ pair64 0xF800104 [] .ro ++
  [⟨0xF80010C, [], whole .rc, 0⟩,
   ⟨0xF800200, [(8, 0x10)], [⟨31, 31, .ro, 0⟩, ⟨30, 30, .ro, 0⟩, ⟨23, 12, .ro, 0⟩, ⟨11, 0, .ro, 750⟩], 0⟩,
   ⟨0xF800300, [(8, 4)], [⟨11, 0, .ro, 0⟩], 0⟩, ⟨0xF800320, [], [⟨7, 0, .rw, 100⟩], 0⟩,
   ⟨0xF800400, [], [⟨15, 8, .ro, 0xFF⟩, ⟨7, 0, .ro, 0xFF⟩], 0⟩,
   ⟨0xF800404, [], whole .ro 0xFFFFFFFF, 0⟩, ⟨0xF800408, [], whole .ro 0xFFFFFFFF, 0⟩,
   ⟨0xF80040C, [], whole .ro, 0⟩, ⟨0xF800410, [], whole .rc, 0⟩, ⟨0xF800414, [], whole .rc, 0⟩,
   ⟨0xF800500, [], [⟨21, 17, .rw1c, 0⟩, ⟨5, 1, .ro, 0x1F⟩, ⟨0, 0, .ro, 1⟩], 0⟩]

/-- The whole map. -/
def regMap : List RegDef :=
  devRegs ++ timeRegs ++ hlRegs ++ lpRegs ++ plRegs ++ tblBlockRegs ++ memRegs ++ ctlRegs ++ stitchRegs ++ pwrRegs

/-- Whether `rem` bytes past a base is an instance of a register replicated over `dims`. -/
def inDims : List (Nat × Nat) → Nat → Bool
  | [], rem => rem == 0
  | (count, stride) :: rest, rem => rem / stride < count && inDims rest (rem % stride)

/-- Whether the register covers the offset. -/
def RegDef.covers (r : RegDef) (off : Nat) : Bool := r.base ≤ off && inDims r.dims (off - r.base)

/-- The register at a BAR0 offset. -/
def regAt (off : Nat) : Option RegDef := regMap.find? (·.covers off)

/-- The register's value after Device Reset: every field at Init, reserved bits 0 (R5, R7). -/
def RegDef.initial (r : RegDef) : Word :=
  r.fields.foldl (fun w f => w ||| BitVec.ofNat 32 ((f.init % 2 ^ (f.hi - f.lo + 1)) <<< f.lo)) 0

/-- Init of the register at an offset, 0 where no register lies. -/
def initAt (off : Nat) : Word := ((regAt off).map RegDef.initial).getD 0

/-- The bits of a field. -/
def RegField.mask (f : RegField) : Word := BitVec.ofNat 32 ((2 ^ (f.hi - f.lo + 1) - 1) <<< f.lo)

/-- What a write leaves in a register by its field types alone (R6, R7): RW takes the value written, RW1C loses
the bits written as 1, every other field keeps its value. -/
def RegDef.afterWrite (r : RegDef) (old v : Word) : Word :=
  r.fields.foldl (fun w f => match f.ty with
    | .rw => (w &&& ~~~f.mask) ||| (v &&& f.mask)
    | .rw1c => w &&& ~~~(v &&& f.mask)
    | _ => w) old

/-- What a read returns of the stored value: WO fields and reserved bits read 0 (R6, R7). -/
def RegDef.readValue (r : RegDef) (old : Word) : Word :=
  r.fields.foldl (fun w f => match f.ty with
    | .wo => w
    | _ => w ||| (old &&& f.mask)) 0

/-- What a read leaves: an RC field is cleared (R6) to its Init ("then clears the field"; MIN_MV returns to 0xFFF). -/
def RegDef.afterRead (r : RegDef) (old : Word) : Word :=
  r.fields.foldl (fun w f => match f.ty with
    | .rc => (w &&& ~~~f.mask) ||| BitVec.ofNat 32 ((f.init % 2 ^ (f.hi - f.lo + 1)) <<< f.lo)
    | _ => w) old

end Sys2Proof.Machine
end

