-- ==== Sys2Proof/Machine/Ops.lean ====
section
/-!
DEFINITION. The shared operations: sparse tables, the register file, outputs and DMA, the memories of R420,
interrupts, event rings and meters. Every meaning is written over these.
-/
namespace Sys2Proof.Machine

/-! ### Sparse tables -/

/-- The entry of a key. -/
def mfind {α : Type} : Map α → Nat → Option α
  | [], _ => none
  | (k, v) :: r, n => if k = n then some v else mfind r n

/-- Enter a value, keeping the keys rising. -/
def mput {α : Type} : Map α → Nat → α → Map α
  | [], n, x => [(n, x)]
  | (k, v) :: r, n, x => if n < k then (n, x) :: (k, v) :: r else if n = k then (n, x) :: r else (k, v) :: mput r n x

/-- Remove a key. -/
def mdel {α : Type} : Map α → Nat → Map α
  | [], _ => []
  | (k, v) :: r, n => if k = n then mdel r n else (k, v) :: mdel r n

/-- The value of a key, `dflt` when unlisted. -/
def mget {α : Type} (dflt : α) (m : Map α) (n : Nat) : α := (mfind m n).getD dflt

/-- Set the value of a key; the default is not listed. -/
def mset {α : Type} [DecidableEq α] (dflt : α) (m : Map α) (n : Nat) (x : α) : Map α :=
  if x = dflt then mdel m n else mput m n x

/-- Change the value of a key. -/
def mupd {α : Type} [DecidableEq α] (dflt : α) (m : Map α) (n : Nat) (f : α → α) : Map α :=
  mset dflt m n (f (mget dflt m n))

/-- Change the value of a listed key only. -/
def mmod {α : Type} (m : Map α) (n : Nat) (f : α → α) : Map α :=
  m.map fun e => if e.1 = n then (e.1, f e.2) else e

/-- Keep the entries that satisfy a test. -/
def mkeep {α : Type} (m : Map α) (p : Nat → α → Bool) : Map α := m.filter fun e => p e.1 e.2

/-- Change every listed value. -/
def mmap {α : Type} (m : Map α) (f : Nat → α → α) : Map α := m.map fun e => (e.1, f e.1 e.2)

/-- The canonical form of a sparse table: keys strictly rising. -/
def Map.rising {α : Type} : Map α → Bool
  | [] => true
  | [_] => true
  | (a, _) :: (b, y) :: r => a < b && Map.rising ((b, y) :: r)

/-! ### Changing the device -/

/-- A meaning that changes only `dev`, with the flash and fuses readable. -/
def State.onDev (s : State) (f : Nv → Dev → Dev) : State := { s with dev := f s.nv s.dev }

/-- A meaning that changes the flash or the fuses too. -/
def State.onBoth (s : State) (f : Nv → Dev → Nv × Dev) : State :=
  let r := f s.nv s.dev
  { s with nv := r.1, dev := r.2 }

def emit (o : Output) (d : Dev) : Dev := { d with out := d.out ++ [o] }

/-- Apply a change when a condition holds. -/
def when (c : Bool) (f : Dev → Dev) (d : Dev) : Dev := if c then f d else d

/-- Apply a change for each element, in order. -/
def each {α : Type} (l : List α) (f : α → Dev → Dev) (d : Dev) : Dev := l.foldl (fun d a => f a d) d

def Dev.fn (d : Dev) (f : Nat) : Fn := mget {} d.fns f
def updFn (f : Nat) (g : Fn → Fn) (d : Dev) : Dev := { d with fns := mupd {} d.fns f g }
def Dev.link (d : Dev) (n : Nat) : Link := mget {} d.links n
def updLink (n : Nat) (g : Link → Link) (d : Dev) : Dev := { d with links := mupd {} d.links n g }
def Dev.ring (d : Dev) (r : Ring) : CmdRing := mget {} d.rings (ringKey r)
def updRing (r : Ring) (g : CmdRing → CmdRing) (d : Dev) : Dev := { d with rings := mupd {} d.rings (ringKey r) g }
def Dev.owner (d : Dev) (o : Owner) : OwnerSt := mget {} d.owners (ownerKey o)
def updOwner (o : Owner) (g : OwnerSt → OwnerSt) (d : Dev) : Dev :=
  { d with owners := mupd {} d.owners (ownerKey o) g }
def Dev.slice (d : Dev) (s : Nat) : Option Slice := mfind d.slices s
def updSlice (s : Nat) (g : Slice → Slice) (d : Dev) : Dev := { d with slices := mmod d.slices s g }
def Dev.queue (d : Dev) (o : Owner) (q : Nat) : Option Queue := mfind d.queues (qKey o q)
def updQueue (o : Owner) (q : Nat) (g : Queue → Queue) (d : Dev) : Dev :=
  { d with queues := mmod d.queues (qKey o q) g }
def Dev.cq (d : Dev) (o : Owner) (c : Nat) : Option Cq := mfind d.cqs (qKey o c)
def updCq (o : Owner) (c : Nat) (g : Cq → Cq) (d : Dev) : Dev := { d with cqs := mmod d.cqs (qKey o c) g }
def Dev.side (d : Dev) (x : Side) : MbSide := mget {} d.mail (sideKey x)
def updSide (x : Side) (g : MbSide → MbSide) (d : Dev) : Dev := { d with mail := mupd {} d.mail (sideKey x) g }
def Dev.core (d : Dev) (c : Nat) : Core := mget {} d.cores c
def updCore (c : Nat) (g : Core → Core) (d : Dev) : Dev := { d with cores := mupd {} d.cores c g }
def Dev.chan (d : Dev) (e ch : Nat) : Chan := mget {} d.chans (16 * e + ch)
def updChan (e ch : Nat) (g : Chan → Chan) (d : Dev) : Dev := { d with chans := mupd {} d.chans (16 * e + ch) g }
def Dev.engine (d : Dev) (e : Nat) : Engine := mget {} d.engines e
def updEngine (e : Nat) (g : Engine → Engine) (d : Dev) : Dev := { d with engines := mupd {} d.engines e g }
def Dev.port (d : Dev) (p : Nat) : LPort := mget {} d.ports p
def updPort (p : Nat) (g : LPort → LPort) (d : Dev) : Dev := { d with ports := mupd {} d.ports p g }
def Dev.table (d : Dev) (t : Nat) : Table := mget {} d.tables t
def updTable (t : Nat) (g : Table → Table) (d : Dev) : Dev := { d with tables := mupd {} d.tables t g }
def Dev.node (d : Dev) (n : NodeId) : Node := mget {} d.nodes (nodeKey n)
def updNode (n : NodeId) (g : Node → Node) (d : Dev) : Dev := { d with nodes := mupd {} d.nodes (nodeKey n) g }
def Dev.policer (d : Dev) (p : Nat) : Policer := mget {} d.policers p
def updPolicer (p : Nat) (g : Policer → Policer) (d : Dev) : Dev := { d with policers := mupd {} d.policers p g }
def Dev.packet (d : Dev) (i : Nat) : Option Packet := d.pkts.find? (·.id == i)
def updPacket (i : Nat) (g : Packet → Packet) (d : Dev) : Dev :=
  { d with pkts := d.pkts.map fun p => if p.id = i then g p else p }
def dropPacket (i : Nat) (d : Dev) : Dev := { d with pkts := d.pkts.filter fun p => p.id != i }
def updPower (g : Power → Power) (d : Dev) : Dev := { d with power := g d.power }

/-- Enter a new packet, giving it the next number. -/
def addPacket (p : Packet) (d : Dev) : Dev :=
  { d with pkts := d.pkts ++ [{ p with id := d.nextPkt }], nextPkt := d.nextPkt + 1 }

/-- Draw a free byte string: values that the manual leaves undefined (log 4). -/
def drawBytes (n : Nat) (d : Dev) : List Byte × Dev :=
  ((List.range n).map fun i => Config.freeByte (d.free + i), { d with free := d.free + n })

/-- Draw a free word (log 4). -/
def drawWord (d : Dev) : Word × Dev := (Config.freeWord d.free, { d with free := d.free + 1 })

/-- A number below n that the adapter chooses among those not in use: which one is left open, so it is free (log 4). -/
def pickFree (n : Nat) (used : Nat → Bool) (d : Dev) : Option Nat × Dev :=
  let r := drawWord d
  (((List.range n).map fun i => (r.1.toNat + i) % n).find? fun i => !used i, r.2)

/-! ### The register file -/

/-- The stored value of a register: what it holds, Init when unlisted (R5). -/
def Dev.reg (d : Dev) (off : Nat) : Word :=
  match mfind d.regs off with
  | some v => v
  | none => initAt off

/-- Store a register's value; Init is not listed. -/
def setReg (off : Nat) (v : Word) (d : Dev) : Dev :=
  { d with regs := if v = initAt off then mdel d.regs off else mput d.regs off v }

/-- A field of a register as a number. -/
def Dev.fld (d : Dev) (off hi lo : Nat) : Nat := bits (d.reg off).toNat hi lo

/-- Set a field of a register. -/
def setFld (off hi lo x : Nat) (d : Dev) : Dev := setReg off (wset (d.reg off) hi lo x) d

/-- One bit of a register. -/
def Dev.flag (d : Dev) (off i : Nat) : Bool := (d.reg off).getLsbD i
def setFlag (off i : Nat) (b : Bool) (d : Dev) : Dev := setFld off i i (b2n b) d

/-- Add to a saturating 32-bit counter. -/
def countBy (off n : Nat) (d : Dev) : Dev := setReg off (word (sat32 ((d.reg off).toNat + n))) d
def count (off : Nat) (d : Dev) : Dev := countBy off 1 d

/-- A 64-bit value in two registers, low half first. -/
def Dev.reg64 (d : Dev) (off : Nat) : Nat := (d.reg off).toNat + 2 ^ 32 * (d.reg (off + 4)).toNat
def setReg64 (off v : Nat) (d : Dev) : Dev := d |> setReg off (word v) |> setReg (off + 4) (word (hi32 v))

/-- Capture a 64-bit value for one requester (R265, R383). -/
def capture (q : Requester) (off v : Nat) (d : Dev) : Dev :=
  { d with captures := (d.captures.filter fun x => !(x.who == q && x.off == off)) ++ [⟨q, off, v⟩] }

/-! ### Where the registers lie -/

def aBadAccess := 0x1C
def aTime := 0x100000
def aHl (n : Nat) := 0x1000000 + n * 0x10000
def aLp (g : Nat) := 0x2000000 + g * 0x10000
def aPl (n : Nat) := 0x4000000 + n * 0x100000
def aTm (die : Nat) := 0xC001000 + die * 0x100
def aCrypto (n : Nat) := 0xD000000 + n * 0x100
def aTbl (t : Nat) := 0xD804000 + t * 0x40
def aMem (m : Nat) := 0xE000000 + m * 0x100
def aCore (c : Nat) := 0xE980000 + c * 0x100
def aI2c (n : Nat) := 0xEA00000 + n * 0x100
/-- The function's own identity, status and counter registers, where the manager sees them (R85). -/
def aFn (f off : Nat) := aHl f + 0x8000 + off
/-- Registers of a host function's BAR0 that the manager does not see: the wake-pattern slots (R106). -/
def aHost (f off : Nat) := 2 ^ 32 + f * 2 ^ 26 + off

def badAccess (d : Dev) : Dev := count aBadAccess d

/-- An access by a core 4-15 that R389 refuses. -/
def coreDenied (c : Nat) (d : Dev) : Dev := d |> count (aCore c + 0x14) |> emit (.coreFault c)

/-- The pipeline that serves a host link, and the one that serves a port group (R21). -/
def plOfLink (n : Nat) : Nat := n / 4
def plOfGroup (g : Nat) : Nat := g / 4
/-- Host die of a link, line die of a group (R10). -/
def dieOfLink (n : Nat) : Nat := 4 + n / 16
def dieOfGroup (g : Nat) : Nat := 6 + g / 16
/-- The home pipeline of a context (R23). -/
def homePl (c : Nat) : Nat := 2 * (c % 4) + c / 4 % 2

/-- HL_LINK_STATUS.DL_UP. -/
def Dev.dlUp (d : Dev) (n : Nat) : Bool := d.flag (aHl n + 4) 11
/-- The pair of HL2k stands (HL_LINK_STATUS.PAIRED). -/
def Dev.paired (d : Dev) (n : Nat) : Bool := d.flag (aHl n + 4) 10
/-- Whether function f exists (R37). -/
def Dev.fnExists (d : Dev) (f : Nat) : Bool := f < 32 && !(f % 2 == 1 && d.paired (f - 1))
/-- The command engine is available (CMD_STATUS.READY and R158 ENGINE_READY go together, R174). -/
def Dev.engineReady (d : Dev) : Bool := d.flag 0xD801004 0
/-- Device ready (R454). -/
def Dev.ready (d : Dev) : Bool := d.flag 0x14 31

/-! ### Power domains (R457-R460) -/

/-- A bind-off of the domain has begun. -/
def Dev.unbinding (d : Dev) (kind i : Nat) : Bool := match d.power.domain with
  | some (k, j, on, _) => k == kind && j == i && !on
  | none => false
def Dev.plOn (d : Dev) (n : Nat) : Bool := d.flag 0xF800400 n && !d.unbinding 0 n
def Dev.cryptoOn (d : Dev) (n : Nat) : Bool := d.flag 0xF800400 (8 + n) && !d.unbinding 1 n
def Dev.lpOn (d : Dev) (g : Nat) : Bool := d.flag 0xF800404 g && !d.unbinding 2 g
def Dev.hlOn (d : Dev) (n : Nat) : Bool := d.flag 0xF800408 n && !d.unbinding 3 n
def domainDrop (d : Dev) : Dev := count 0xF800410 d

/-! ### Owners -/

/-- The function that an owner belongs to. -/
def Dev.fnOf (d : Dev) (o : Owner) : Nat := match o with
  | .function f => f
  | .slice s => ((d.slice s).map (·.fn)).getD 0

/-- The PASID that requests of an owner carry (R42). -/
def Dev.pasidOf (d : Dev) (o : Owner) : Option Nat := match o with
  | .function _ => none
  | .slice s => (d.slice s).map (·.pasid)

/-- The control port link is up: CP_REFCLK present, CP_PERST_N released (R473). -/
def Dev.cpUp (d : Dev) : Bool := d.flag 0xF800500 5 && !d.power.cpPerst

/-- Whether the function may issue requests (R89, R98, R99, R100, R138); the manager function is 32 (R34, R473). -/
def Dev.fnMay (d : Dev) (f : Nat) : Bool :=
  let x := d.fn f
  x.bme && !x.d3 && !x.flr && (if f = 32 then d.cpUp else d.dlUp f)

/-- Whether requests may be issued for an owner: for a slice, PASID Enable too (R95). -/
def Dev.ownerMay (d : Dev) (o : Owner) : Bool :=
  d.fnMay (d.fnOf o) && (match o with | .function _ => true | .slice _ => (d.fn (d.fnOf o)).pasidEn)

/-- Whether the manager function may issue requests (R34). -/
def Dev.mgrMay (d : Dev) : Bool := (d.fn 32).bme && !(d.fn 32).d3

/-- The SLICE field of an entry about an owner: its local index, or 0xFFFF (R138). -/
def Dev.localIdx (d : Dev) (o : Owner) : Nat := match o with
  | .function _ => 0xFFFF
  | .slice s => ((d.slice s).map (·.lidx)).getD 0xFFFF

/-! ### Meters (R56) -/

/-- Add to meter i of a slice, while its meters count (before the freeze point, R53). -/
def meter (s i n : Nat) (d : Dev) : Dev :=
  updSlice s (fun x => if x.state == .closing then x else
    { x with meters := mupd 0 x.meters i fun v => (v + n) % 2 ^ 64 }) d

def meterOf (o : Option Nat) (i n : Nat) (d : Dev) : Dev := match o with
  | some s => meter s i n d
  | none => d

/-! ### Host requests and translation (R82, R92, R94-R98) -/

/-- The translation-cache entry that covers a range. -/
def atcHit (x : Fn) (pasid : Option Nat) (addr len : Nat) : Option AtcEntry :=
  x.atc.find? fun e => e.pasid == pasid && e.base ≤ addr && addr + len ≤ e.base + e.len

/-- The entry is the one used last. -/
def atcUse (f : Nat) (e : AtcEntry) (d : Dev) : Dev := updFn f (fun x => { x with atc := e :: x.atc.filter (· != e) }) d

/-- What a request asks of translation: PASID, address, length, whether it writes, and its read tag. -/
def xKey : Output → Option (Option Nat × Nat × Nat × Bool × Option Nat)
  | .memWrite (.host _ p) a b _ _ _ => some (p, a, b.length, true, none)
  | .memRead (.host _ p) a n t _ => some (p, a, n, false, some t)
  | _ => none

/-- The request with its translated address. -/
def xApply (e : AtcEntry) : Output → Output
  | .memWrite t a b ro ep _ => .memWrite t (e.xlat + (a - e.base)) b ro ep true
  | .memRead t a n g _ => .memRead t (e.xlat + (a - e.base)) n g true
  | o => o

/-- A tag for a new read of function f. -/
def newTag (f : Nat) (p : Purpose) (pasid : Option Nat) (d : Dev) : Dev :=
  updFn f (fun x => { x with reads := x.reads ++ [{ tag := x.nextTag, purpose := p, pasid := pasid }],
                             nextTag := x.nextTag + 1 }) d

/-- A request of a read has been sent. -/
def noteSent (f tag a n : Nat) (d : Dev) : Dev :=
  updFn f (fun x => { x with reads := x.reads.map fun r =>
    if r.tag = tag then { r with sent := r.sent ++ [(a, n)], start := d.time } else r }) d

/-- The outstanding read of a tag. -/
def Fn.readOf (x : Fn) (tag : Nat) : Option OutRead := x.reads.find? (·.tag == tag)

/-- Non-posted requests outstanding on the link (R82: at most 2,048). -/
def Fn.nonPosted (x : Fn) : Nat := (x.reads.map (·.sent.length)).sum

/-- Whether the requests of a closing function's started segments still leave (R98 step 3). -/
def Dev.finishing (d : Dev) (f : Nat) (r : XReq) : Bool :=
  ((d.fn f).closing.map fun c => !c.d3) == some true && d.dlUp f &&
  (match r.serves with | .seg _ _ => true | .data _ => true | _ => false)

/-- Whether a request may leave now: its requester may issue, nothing of the same requester that may leave too waits ahead
of it, and a read has a place among the outstanding ones. -/
def Dev.reqMay (d : Dev) (f : Nat) (r : XReq) : Bool :=
  let x := d.fn f
  r.wait.isNone && !(x.xq.any fun y => y.who == r.who && (!d.finishing f r || d.finishing f y)) &&
  (d.fnMay f || d.finishing f r) &&
  (r.who.isNone || x.pasidEn) &&
  (match r.out with | .memRead _ _ _ _ _ => decide (x.nonPosted < 2048) | _ => true)

/-- An interrupt that may not be sent sets its pending bit (R89). -/
def msixPend (f v : Nat) (d : Dev) : Dev :=
  updFn f (fun x => { x with pba := if x.pba.contains v then x.pba else x.pba ++ [v] }) d

/-- Whether vector v of function f may be sent now: R89, and no D3hot entry in progress (R101). -/
def Dev.msixMay (d : Dev) (f v : Nat) : Bool :=
  let x := d.fn f
  d.fnMay f && x.closing.isNone && x.msixEn && !x.msixMask && !(mget {} x.vecs v).masked

/-- Set the status byte of an entry whose data a translation has refused. -/
def denyEntry (x : Fn) (r : XReq) : Output := match r.serves, r.out with
  | .entry i k, .memWrite t a b ro ep y => match x.xbad.find? fun w => w.1 == .data i with
    | some w => .memWrite t a (putLe b k 1 w.2) ro ep y
    | none => r.out
  | _, o => o

/-- A request leaves. -/
def sent (f : Nat) (r : XReq) (out : Output) (d : Dev) : Dev := match xKey r.out with
  | some (_, a, n, _, some t) => d |> noteSent f t a n |> emit out
  | _ => emit out d

/-- A request whose translation grants no permission, or for which none came: what it serves fails with a status. -/
def refuse (f : Nat) (r : XReq) (st : Nat) (d : Dev) : Dev := match xKey r.out with
  | some (_, _, _, _, some t) =>
    if (d.fn f).xdenied.contains t then d else updFn f (fun x => { x with xdenied := x.xdenied ++ [t] }) (count (aFn f 0x18) d)
  | _ =>
    d |> count (aFn f 0x18)
      |> when (r.serves != .other) (updFn f fun x => { x with xbad := x.xbad ++ [(r.serves, st)] })

/-- A request waits behind the others. -/
def holdReq (f : Nat) (r : XReq) (d : Dev) : Dev := updFn f (fun x => { x with xq := x.xq ++ [r] }) d

/-- A read that nothing waits for any more. -/
def Fn.forgot (x : Fn) (o : Output) : Bool := match xKey o with
  | some (_, _, _, _, some t) => (x.readOf t).isNone
  | _ => false

/-- A Translation Request goes, and the request waits for it (R96). -/
def askAts (f : Nat) (r : XReq) (pasid : Option Nat) (a : Nat) (d : Dev) : Dev :=
  let t := (d.fn f).nextTag
  d |> count (aFn f 0x20) |> newTag f .translation pasid |> noteSent f t a 0 |> emit (.translate f pasid a t)
    |> holdReq f { r with wait := some t }

/-- A request that may leave: untranslated, translated on a hit, refused without permission, or held for a translation. -/
def leaveNow (f : Nat) (r : XReq) (d : Dev) : Dev :=
  let x := d.fn f
  match (if r.need && x.atsEn then xKey r.out else none) with
  | none => sent f r (denyEntry x r) d
  | some (p, a, n, w, _) => match atcHit x p a n with
    | some e => d |> atcUse f e |> if if w then e.wr else e.rd then sent f r (xApply e (denyEntry x r)) else refuse f r stDenied
    | none => askAts f r p a d

/-- Let a request of function f leave, or hold it. During an FLR nothing is issued or kept (R99); a read that nothing
waits for any more is not sent. -/
def leave (f : Nat) (r : XReq) (d : Dev) : Dev :=
  let x := d.fn f
  match r.out with
  | .msix _ v =>
    if x.flr then msixPend f v d
    else if x.xq.any fun y => y.who == r.who then holdReq f r d
    else if d.msixMay f v then emit r.out d else msixPend f v d
  | o =>
    if x.flr || x.forgot o then d
    else if !d.reqMay f r then holdReq f r d
    else leaveNow f r d

/-- Hand one request of function f to the link. -/
def issue (f : Nat) (r : XReq) (d : Dev) : Dev := leave f r d

/-- Refusals of data are forgotten once no entry that describes it waits any more. -/
def dataDone (f : Nat) (ids : List Nat) (d : Dev) : Dev :=
  updFn f (fun x => { x with xbad := x.xbad.filter fun w => match w.1 with
    | .data i => !ids.contains i || x.xq.any fun r => match r.serves with | .entry j _ => j == i | _ => false
    | _ => true }) d

/-- Everything that waits leaves as far as it may now, in its order. -/
def pump (f : Nat) (d : Dev) : Dev :=
  let q := (d.fn f).xq
  let ids := q.filterMap fun r => match r.serves with | .entry i _ => some i | _ => none
  d |> updFn f (fun x => { x with xq := [] }) |> each q (leave f) |> dataDone f ids

/-- Whether a write that serves x still waits. -/
def Fn.waits (x : Fn) (s : XFor) : Bool := x.xq.any fun r => r.serves == s

/-- Pieces of a range that do not cross a multiple of m: (offset, length); one empty piece of an empty range. -/
def pieces (m addr len : Nat) : List (Nat × Nat) :=
  if len = 0 then [(0, 0)]
  else (List.range (len / m + 2)).filterMap fun i =>
    let a := max addr ((addr / m + i) * m)
    let b := min (addr + len) ((addr / m + i + 1) * m)
    if a < b then some (a - addr, b - a) else none

/-- Max_Payload_Size, at most the 512 bytes supported, and Max_Read_Request_Size, as the host has set them (R82). -/
def Fn.maxPayload (x : Fn) : Nat := min 512 (128 * 2 ^ wbits x.devCtl 7 5)
def Fn.maxRead (x : Fn) : Nat := min 4096 (128 * 2 ^ wbits x.devCtl 14 12)

/-- Write to host memory for an owner (R42), in requests of at most Max_Payload_Size; `ro` asks for Relaxed Ordering,
which is set when enabled (R94). -/
def hostWriteAs (s : XFor) (f : Nat) (pasid : Option Nat) (addr : Nat) (data : List Byte) (ro ep : Bool) (d : Dev) : Dev :=
  let x := d.fn f
  let ro := ro && x.devCtl.getLsbD 4
  each (pieces x.maxPayload addr data.length) (fun p d =>
    issue f { out := .memWrite (.host f pasid) (addr + p.1) ((data.drop p.1).take p.2) ro ep, need := true, who := pasid, serves := s } d) d
def hostWrite := hostWriteAs .other

/-- Read host memory for an owner, under a tag already entered, in requests of at most Max_Read_Request_Size. -/
def hostRead (f : Nat) (pasid : Option Nat) (addr len tag : Nat) (d : Dev) : Dev :=
  each (pieces (d.fn f).maxRead addr len) (fun p d =>
    issue f { out := .memRead (.host f pasid) (addr + p.1) p.2 tag, need := true, who := pasid } d) d

/-- A read whose translation granted no permission (R96): it no longer stands; none where it was permitted. -/
def takeDenied (f tag : Nat) (d : Dev) : Option Dev :=
  if (d.fn f).xdenied.contains tag then
    some (updFn f (fun x => { x with xdenied := x.xdenied.filter (· != tag), reads := x.reads.filter (·.tag != tag) }) d)
  else none

/-- A number that no data has used yet, for the writes that an entry describes. -/
def newData (f : Nat) (d : Dev) : Nat × Dev := ((d.fn f).nextTag, updFn f (fun x => { x with nextTag := x.nextTag + 1 }) d)

/-! ### Reads whose data is an operand of the row that uses it (R96; log 3) -/

/-- What translation says of a read before its data can be: it has not come, the read may go, or it fails. -/
inductive Xlat where
  | wait
  | ready
  | fail (r : Read)
deriving DecidableEq, Repr

/-- Look the requests of a read up in the ATC: misses send Translation Requests, one for each range at a time. -/
def xlatRead (f : Nat) (pasid : Option Nat) : List (Nat × Nat) → Dev → Xlat × Dev
  | [], d => (.ready, d)
  | (a, n) :: rest, d =>
    let x := d.fn f
    if !x.atsEn then (.ready, d)
    else match x.xnone.find? fun e => e.1 == pasid && e.2.1 == a with
      | some e => (.fail e.2.2, updFn f (fun x => { x with xnone := x.xnone.filter (· != e) }) d)
      | none => match atcHit x pasid a n with
        | some e => let d := atcUse f e d
          if e.rd then xlatRead f pasid rest d else (.fail .aborted, d)
        | none =>
          if x.reads.any fun r => r.purpose == .translation && r.pasid == pasid && r.sent == [(a, 0)] then (.wait, d)
          else
            let t := x.nextTag
            (.wait, d |> count (aFn f 0x20) |> newTag f .translation pasid |> noteSent f t a 0 |> emit (.translate f pasid a t))

/-- The requests of a read of several ranges. -/
def readPieces (x : Fn) (l : List (Nat × Nat)) : List (Nat × Nat) :=
  l.flatMap fun r => (pieces x.maxRead r.1 r.2).map fun p => (r.1 + p.1, p.2)

/-- Ranges of a ring: n entries of `size` bytes from index i on, of N. -/
def ringRange (base size n i k : Nat) : List (Nat × Nat) :=
  let k1 := min k (n - i % n)
  (if k1 = 0 then [] else [(base + i % n * size, k1 * size)]) ++ (if k1 < k then [(base, (k - k1) * size)] else [])

/-- Run `go` on what a read of function f brought once translation lets it through; a refused read is answered as the
link would have answered it. -/
def withRead (f : Nat) (pasid : Option Nat) (l : List (Nat × Nat)) (res : Read) (go : Read → Dev → Dev) (d : Dev) : Dev :=
  match xlatRead f pasid (readPieces (d.fn f) l) d with
  | (.wait, d) => d
  | (.ready, d) => go res d
  | (.fail r, d) => go r d

/-! ### MSI-X (R34, R89, R133) -/

/-- Raise vector v of function f for a requester: sent behind what it already has waiting, or pending. -/
def msixRaiseFor (who : Option Nat) (f v : Nat) (d : Dev) : Dev :=
  if v ≥ 2048 then d
  else if d.msixMay f v then issue f { out := .msix f v, need := false, who := who } d
  else msixPend f v d
def msixRaise := msixRaiseFor none

/-- Raise a vector that an owner's ring or mailbox names: slice-local for a slice, nothing beyond COUNT (R128, R133). -/
def ownerVector (o : Owner) (v : Nat) (d : Dev) : Dev := match o with
  | .function f => msixRaise f v d
  | .slice s => match d.slice s with
    | some x => if v < x.vecCount then msixRaiseFor (some x.pasid) x.fn (x.vecBase + v) d else d
    | none => d

/-- Send every pending vector that may now be sent (R89). -/
def msixFlush (f : Nat) (d : Dev) : Dev :=
  let p := (d.fn f).pba
  each p (fun v d => msixRaise f v d) (updFn f (fun x => { x with pba := [] }) d)

/-- Raise vector v of the manager function (R34). -/
def mgrMsix (v : Nat) (d : Dev) : Dev := msixRaise 32 v d

/-! ### Advanced Error Reporting (R91; bit places PRESUMED, log 9) -/

def erDataLink := 4
def erFlowControl := 13
def erInternal := 22
def erPoisoned := 12
def erTimeout := 14
def erAbort := 15
def erUnexpected := 16
def erOverflow := 17
def erMalformed := 18
def erUnsupported := 20

/-- Default severity: fatal for Data Link Protocol, Surprise Down, Flow Control Protocol, Receiver Overflow,
Malformed TLP and Uncorrectable Internal errors. -/
def aerSeverity (x : Fn) : Word := x.uncSev.getD 0x00462030

/-- Errors that a received TLP shows, whose header is logged. -/
def erHasHeader (b : Nat) : Bool := b ∈ [erPoisoned, erAbort, erUnexpected, erMalformed, erUnsupported]

/-- The first error logged sets First Error Pointer and, where a TLP showed it, the Header Log, a free value (log 4). -/
def aerHeader (f b : Nat) (d : Dev) : Dev :=
  if (d.fn f).uncStatus != 0 then d
  else
    let w := drawWord d
    let x := drawWord w.2
    let y := drawWord x.2
    let z := drawWord y.2
    if erHasHeader b then updFn f (fun n => { n with firstErr := b, hdrLog := [w.1, x.1, y.1, z.1] }) z.2
    else updFn f (fun n => { n with firstErr := b }) d

/-- Report an uncorrectable error: logged, and sent as the masks, severities and enables require; `adv` names a
case of the Advisory Non-Fatal rules. -/
def aerUnc (f b : Nat) (adv : Bool) (d : Dev) : Dev :=
  let d := aerHeader f b d
  let x := d.fn f
  let fatal := (aerSeverity x).getLsbD b
  let d := updFn f (fun x => { x with uncStatus := x.uncStatus ||| word (2 ^ b) }) d
  if adv && !fatal then
    let d := updFn f (fun x => { x with corStatus := x.corStatus ||| 0x2000 }) d
    when (!x.corMask.getLsbD 13 && x.devCtl.getLsbD 0) (emit (.err f 0)) d
  else when (!x.uncMask.getLsbD b && x.devCtl.getLsbD (if fatal then 2 else 1)) (emit (.err f (if fatal then 2 else 1))) d

/-- Report a correctable error. -/
def aerCor (f b : Nat) (d : Dev) : Dev :=
  let x := d.fn f
  d |> updFn f (fun x => { x with corStatus := x.corStatus ||| word (2 ^ b) })
    |> when (!x.corMask.getLsbD b && x.devCtl.getLsbD 0) (emit (.err f 0))

/-- A read of function f (32: the manager function) failed (R92, R93). -/
def dmaFail (f : Nat) (r : Read) (d : Dev) : Dev :=
  let c := fun o d => when (f < 32) (count (aFn f o)) d
  match r with
  | .ok _ => d
  | .poisoned _ => d |> c 0x18 |> c 0x1C |> aerUnc f erPoisoned true
  | .denied => d |> c 0x18 |> aerUnc f erUnsupported true
  | .aborted => c 0x18 d
  | .internal _ => d |> c 0x18 |> aerUnc f erTimeout true
  | .timeout => d |> c 0x18 |> aerUnc f erTimeout true

/-- The status of a failed read (R92, R93). -/
def readStatus : Read → Nat
  | .ok _ => stOk
  | .poisoned _ => stPoisoned
  | .denied => stDenied
  | .aborted => stDenied
  | .internal _ => stTimeout
  | .timeout => stTimeout

/-! ### Rings that the adapter writes (R111, R113, R120) -/

/-- Entries of the ring, its free room, and the phase of the lap being written. -/
def EvRing.n (r : EvRing) : Nat := 2 ^ r.log2
def EvRing.full (r : EvRing) : Bool := ringCount r.n r.head r.wpos == r.n
def EvRing.empty (r : EvRing) : Bool := ringCount r.n r.head r.wpos == 0
def phaseOf (n wpos : Nat) : Nat := b2n (wpos / n % 2 == 0)
/-- A ring started at position 0 (a write of 1 to ENABLE). -/
def EvRing.start (r : EvRing) : EvRing := { r with enable := true, head := 0, wpos := 0 }
/-- LOG2 written: ignored while ENABLE is 1, kept as written, and taken as `v` (R35, R137, R264). -/
def EvRing.setLog (r : EvRing) (raw v : Nat) : EvRing := if r.enable then r else { r with log2 := v, rawLog := raw }
/-- ENABLE written: "A write of 1 starts the ring at position 0 with phase 1" (R35, R137, R264; log 131). -/
def EvRing.setEnable (r : EvRing) (on : Bool) : EvRing := if on then r.start else { r with enable := false }
def EvRing.step (r : EvRing) : EvRing := { r with wpos := ringAdd r.n r.wpos 1 }

/-- The last byte with its phase bit set to `ph`. -/
def withPhase (b : List Byte) (at' : Nat) (ph : Nat) : List Byte :=
  putBytes b at' [BitVec.ofNat 8 (byteAt b at' % 128 + 128 * ph)]

/-- The two ordered writes of an entry: with the previous lap's phase, then with the new one (R120). -/
def ringWrites (w : Nat → List Byte → Dev → Dev) (base n wpos size : Nat) (b : List Byte) (at' : Nat) (d : Dev) : Dev :=
  let a := base + wpos % n * size
  d |> w a (withPhase b at' (1 - phaseOf n wpos)) |> w a (withPhase b at' (phaseOf n wpos))

/-- Write to manager memory; dropped while the control port link is down (R473). -/
def mgrWrite (addr : Nat) (data : List Byte) (d : Dev) : Dev := when d.cpUp (emit (.memWrite .manager addr data false false)) d

/-! ### Interrupt sources (R396, R398) -/

/-- The level of a shared source becomes `lv`. -/
def sourceLevel (n : Nat) (lv : Bool) (d : Dev) : Dev :=
  { d with ic := mupd {} d.ic n fun s =>
      { s with level := lv, armed := s.armed || !lv
               pending := if s.withdraw then (if s.armed then lv else s.pending) else s.pending || (lv && !s.level) } }

/-- A pulse: a rise and a fall. -/
def sourcePulse (n : Nat) (d : Dev) : Dev := d |> sourceLevel n true |> sourceLevel n false

/-- A private source of core c rises: its pending bit is latched (R394, R397). -/
def privRaise (c i : Nat) (d : Dev) : Dev :=
  updCore c (fun x => { x with pend := x.pend ||| BitVec.ofNat 64 (2 ^ i) }) d

/-! ### Manager events (R35, R36) -/

/-- The 32 bytes of an event entry, phase 0. -/
def mevBytes (code a0 a1 a2 time : Nat) : List Byte :=
  leBytes 2 code ++ leBytes 2 0 ++ leBytes 4 a0 ++ leBytes 4 a1 ++ leBytes 4 a2 ++ leBytes 8 time ++ leBytes 8 0

def mevPut (b : List Byte) (d : Dev) : Dev :=
  let r := d.mev
  d |> ringWrites mgrWrite r.base r.n r.wpos 32 b 31
    |> (fun d => { d with mev := r.step })
    |> (if r.empty then mgrMsix r.vector else id)

/-- Whether the ring can take an entry now. -/
def Dev.mevOpen (d : Dev) : Bool := d.mev.enable && !d.mev.full && d.mgrMay

/-- EVENTS_LOST, ahead of anything newer, once the ring can take an entry; MEV_MASK bit 31 masks it like any event. -/
def mevLostFirst (d : Dev) : Dev :=
  if d.mevOpen && d.mev.lost != 0 && !d.flag 0x314 31 then
    let d' := mevPut (mevBytes 0x1F d.mev.lost 0 0 d.time) d
    { d' with mev := { d'.mev with lost := 0 } }
  else d

/-- The pulse source that an event raises beside its entry (R395). -/
def eventSource (code : Nat) : Option Nat :=
  if 6 ≤ code && code ≤ 10 then some (195 + code) else none

/-- An event entry: masked, written, or lost (R35). -/
def raiseEntry (code a0 a1 a2 : Nat) (d : Dev) : Dev :=
  if d.flag 0x314 code then d
  else
    let d := mevLostFirst d
    if d.mevOpen then mevPut (mevBytes code a0 a1 a2 d.time) d
    else d |> count 0x318 |> fun d => { d with mev := { d.mev with overflow := true, lost := d.mev.lost + 1 } }

/-- Raise an event to the manager, and its interrupt source. -/
def raise (code a0 a1 a2 : Nat) (d : Dev) : Dev :=
  d |> raiseEntry code a0 a1 a2 |> (match eventSource code with | some n => sourcePulse n | none => id)

/-! ### Function events (R137, R138) -/

def feqPut (f : Nat) (b : List Byte) (d : Dev) : Dev :=
  let r := (d.fn f).feq
  d |> ringWrites (fun a b => hostWrite f none a b false false) r.base r.n r.wpos 16 b 15
    |> updFn f (fun x => { x with feq := r.step })
    |> msixRaise f r.vector

def Dev.feqOpen (d : Dev) (f : Nat) : Bool := (d.fn f).feq.enable && !(d.fn f).feq.full && d.fnMay f

def feqBytes (code slice queue detail : Nat) : List Byte :=
  leBytes 2 code ++ leBytes 2 slice ++ leBytes 2 queue ++ leBytes 2 0 ++ leBytes 4 detail ++ leBytes 4 0

def feqLostFirst (f : Nat) (d : Dev) : Dev :=
  let r := (d.fn f).feq
  if d.feqOpen f && r.lost != 0 then
    d |> feqPut f (feqBytes 4 0xFFFF 0 r.lost) |> updFn f fun x => { x with feq := { x.feq with lost := 0 } }
  else d

/-- Write a function event, or lose it (R138). -/
def fnEvent (f code slice queue detail : Nat) (d : Dev) : Dev :=
  let d := feqLostFirst f d
  if d.feqOpen f then feqPut f (feqBytes code slice queue detail) d
  else d |> count (aFn f 0x411C) |> updFn f fun x => { x with feq := { x.feq with overflow := true, lost := x.feq.lost + 1 } }

/-! ### The memories of R420 -/

/-- Size of memory m in bytes. -/
def memSize (m : Nat) : Nat :=
  if m < 4 then 192 * 2 ^ 20 else if m = 4 then 66 * 2 ^ 20 else if m = 5 then 50 * 2 ^ 20
  else if m < 8 then 10 * 2 ^ 20 else if m < 12 then 16 * 2 ^ 30 else 0

/-- Start of the test window, and its end (exclusive). -/
def testLo (m : Nat) : Nat :=
  if m < 4 then 0xBF00000 else if m = 4 then 0x4100000 else if m = 5 then 0x3100000
  else if m < 8 then 0x900000 else 0x3FFF00000
def testHi (m : Nat) : Nat := testLo m + 0x100000
def inTest (m o : Nat) : Bool := testLo m ≤ o && o < testHi m

/-- The key of byte o of memory m in `mem`; of its word, divided by 8, in `chk`. -/
def memKey (m o : Nat) : Nat := m * 2 ^ 40 + o

/-- The memory and offset of an HBM address. -/
def hbmMem (a : Nat) : Nat := 8 + a / 2 ^ 34 % 4
def hbmOff (a : Nat) : Nat := a % 2 ^ 34

/-! ### The areas of the reserved regions (R11): 4 KiB pages of each stack from 15 GiB to the test window, log 12 -/

/-- Where n pages fit among areas taken, in rising order: first starting page and how many starts. -/
def freeStarts (room n : Nat) : Nat → List (Nat × Nat) → List (Nat × Nat)
  | a, [] => [(a, room + 1 - n - a)]
  | a, (s, l) :: r => (a, s + 1 - n - a) :: freeStarts room n (s + l) r

/-- The x-th of such starts. -/
def nthStart : List (Nat × Nat) → Nat → Nat
  | [], _ => 0
  | (a, c) :: r, x => if x < c then a + x else nthStart r (x - c)

/-- The first page of area i, of n pages, among areas taken. -/
def areaStart (taken : Map Nat) (i n : Nat) : Nat :=
  let g := freeStarts 261888 n 0 taken
  nthStart g (Config.place i % (g.map (·.2)).sum)

def arenaPage : Nat := areaStart [] 0 8280
def stagingPage : Nat := areaStart [(arenaPage, 8280)] 1 1024
def custPage : Nat := areaStart [] 2 65536

/-- The areas of stack k besides the snapshot banks. -/
def areasOf (k : Nat) : Map Nat :=
  if k = 0 then mput (mput [] arenaPage 8280) stagingPage 1024 else if k = 1 then [(custPage, 65536)] else []

/-- The stack of a snapshot bank, and its first page. -/
def bankStack (b : Bool) : Nat := Config.bankStack b % 4
def bankPage0 : Nat := areaStart (areasOf (bankStack false)) 3 137
def bankPage1 : Nat :=
  let t := areasOf (bankStack true)
  areaStart (if bankStack true = bankStack false then mput t bankPage0 137 else t) 4 137

/-- The HBM address of page p of a stack's reserved region. -/
def reservedAt (k p : Nat) : Nat := k * 2 ^ 34 + 15 * 2 ^ 30 + p * 4096
/-- The mailbox arena in HB0 (R142), the SPI staging area in HB0 (R487), the customer HBM window in HB1 (R388), the
snapshot banks (R57). -/
def arenaBase : Nat := reservedAt 0 arenaPage
def stagingBase : Nat := reservedAt 0 stagingPage
def custBase : Nat := reservedAt 1 custPage
def bankBase (b : Bool) : Nat := reservedAt (bankStack b) (if b then bankPage1 else bankPage0)

/-- The columns of data bits 0-63 (R421). -/
def weight (v : Nat) : Nat := (List.range 8).foldl (fun n i => n + v / 2 ^ i % 2) 0
def eccColumns : List Nat :=
  (List.range 256).filter (fun v => weight v == 3) ++ [0x1F, 0x2F, 0x37, 0x3B, 0x3D, 0x3E, 0x4F, 0x57]

/-- The check byte of a data word. -/
def eccCheck (w : Nat) : Nat :=
  (eccColumns.zipIdx).foldl (fun c e => if bit w e.2 then c ^^^ e.1 else c) 0

/-- One byte of a memory, as stored. -/
def cellAt (c : List Host.Cell) (k : Nat) : Byte := mget 0 c k

/-- The data and check byte of the stored word at offset o. -/
def Dev.rawWord (d : Dev) (m o : Nat) : Nat × Nat :=
  (leNat ((List.range 8).map fun i => cellAt d.mem (memKey m (o / 8 * 8 + i))),
   (cellAt d.chk (memKey m o / 8)).toNat)

/-- Store data and check bits of a word as given. -/
def storeRaw (m o data chk : Nat) (d : Dev) : Dev :=
  { d with
    mem := ((leBytes 8 data).zipIdx).foldl (fun c e => mset 0 c (memKey m (o / 8 * 8 + e.2)) e.1) d.mem
    chk := mset 0 d.chk (memKey m o / 8) (BitVec.ofNat 8 chk) }

/-- How a read judges a word (R422): 0 clean, 1 corrected, 2 uncorrectable, 3 poisoned. -/
structure EccRead where
  outcome : Nat
  syndrome : Nat
  data : Nat
  /-- The bit inverted: 0-63, or 64 + j for check bit j. -/
  bit : Nat := 0
deriving DecidableEq, Repr

def eccJudge (data chk : Nat) : EccRead :=
  let s := eccCheck data ^^^ chk
  if s = 0 then ⟨0, 0, data, 0⟩
  else match eccColumns.idxOf? s with
    | some i => ⟨1, s, data ^^^ 2 ^ i, i⟩
    | none => match (List.range 8).find? (fun j => 2 ^ j == s) with
      | some j => ⟨1, s, data, 64 + j⟩
      | none => if s = 0xA5 then ⟨3, s, data, 0⟩ else ⟨2, s, data, 0⟩

/-- MEM_EVT bit i rises: MEM_EVENT and source 206 (R428). -/
def memEvent (i m : Nat) (d : Dev) : Dev :=
  if d.flag 0xE001000 i then d
  else
    let d := setFlag 0xE001000 i true d
    d |> raise 0x0F m (d.reg 0xE001000).toNat 0 |> sourcePulse 206

/-- Report a judged read (R426). -/
def eccReport (m o : Nat) (r : EccRead) (d : Dev) : Dev :=
  if r.outcome = 1 then
    let d := d |> count (aMem m) |> setReg64 (aMem m + 0x18) o |> setFld (aMem m + 0xC) 7 0 r.syndrome
    when (d.fld (aMem m + 0x20) 15 0 != 0 && (d.reg (aMem m)).toNat == d.fld (aMem m + 0x20) 15 0)
      (memEvent (12 + m) m) d
  else if r.outcome = 2 then
    let first := (d.reg (aMem m + 4)).toNat == 0
    let d := count (aMem m + 4) d
    if first then d |> setReg64 (aMem m + 0x10) o |> setFld (aMem m + 0xC) 15 8 r.syndrome |> memEvent m m else d
  else if r.outcome = 3 then count (aMem m + 8) d
  else d

/-- The word after a read (R422). -/
def eccRewrite (m o chk : Nat) (r : EccRead) (d : Dev) : Dev :=
  if r.outcome = 1 then storeRaw m o r.data (eccCheck r.data) d
  else if r.outcome = 2 then storeRaw m o r.data (chk ^^^ r.syndrome ^^^ 0xA5) d
  else d

/-- Read one word through the checker, reported. -/
def readWord (m o : Nat) (d : Dev) : EccRead × Dev :=
  let w := d.rawWord m o
  let r := eccJudge w.1 w.2
  (r, d |> eccReport m (o / 8 * 8) r |> eccRewrite m o w.2 r)

/-- The offsets of the words that a range covers. -/
def wordsOf (o len : Nat) : List Nat :=
  if len = 0 then [] else (List.range ((o + len - 1) / 8 - o / 8 + 1)).map fun i => (o / 8 + i) * 8

/-- Read n words from w on through the checker: bytes, and whether any word was uncorrectable or poisoned. -/
def readWords (m : Nat) : Nat → Nat → Dev → List Byte × Bool × Dev
  | 0, _, d => ([], false, d)
  | n + 1, w, d =>
    let x := readWord m w d
    let r := readWords m n (w + 8) x.2
    (leBytes 8 x.1.data ++ r.1, decide (x.1.outcome ≥ 2) || r.2.1, r.2.2)

/-- Read a range through the checker: bytes, and whether any word was uncorrectable or poisoned. -/
def readMem (m o len : Nat) (d : Dev) : List Byte × Bool × Dev :=
  let r := readWords m (wordsOf o len).length (o / 8 * 8) d
  ((r.1.drop (o % 8)).take len, r.2)

/-- Store one word, fresh check bits or the poison syndrome, through the flip mask when armed (R423, R433). -/
def storeWord (m o data : Nat) (poison first : Bool) (d : Dev) : Dev :=
  let chk := eccCheck data ^^^ (if poison then 0xA5 else 0)
  let c := d.reg 0xE00310C
  if first && c.getLsbD 31 && wbits c 3 0 == m && (c.getLsbD 30 || inTest m o) then
    d |> storeRaw m o (data ^^^ d.reg64 0xE003100) (chk ^^^ d.fld 0xE003108 7 0)
      |> setFlag 0xE00310C 31 false |> setReg64 0xE003110 (o / 8 * 8) |> memEvent 25 m
  else storeRaw m o data chk d

/-- Write fewer than 8 bytes into one word, merged with what a read of it finds (R423). -/
def mergeWord (m o : Nat) (data : List Byte) (poison first : Bool) (d : Dev) : Dev :=
  if data.isEmpty then d
  else
    let r := readWord m (o / 8 * 8) d
    let new := putBytes (leBytes 8 r.1.data) (o % 8) data
    storeWord m (o / 8 * 8) (leNat new) (poison || r.1.outcome ≥ 2) first r.2

/-- Write from a word's start on. -/
def writeWords (m w : Nat) (poison first : Bool) : List Byte → Dev → Dev
  | b0 :: b1 :: b2 :: b3 :: b4 :: b5 :: b6 :: b7 :: r, d =>
    writeWords m (w + 8) poison false r (storeWord m w (leNat [b0, b1, b2, b3, b4, b5, b6, b7]) poison first d)
  | l, d => mergeWord m w l poison first d

/-- Write a range: whole words as they are, the words at its ends merged (R423). -/
def writeMem (m o : Nat) (data : List Byte) (poison : Bool) (d : Dev) : Dev :=
  let h := (8 - o % 8) % 8
  if h = 0 then writeWords m o poison true data d
  else d |> mergeWord m o (data.take h) poison true |> writeWords m (o + h) poison false (data.drop h)

/-- A cast-on clear: zero words with check bits 0 (R425). -/
def clearMem (m o len : Nat) (d : Dev) : Dev :=
  { d with
    mem := mkeep d.mem fun k _ => !(memKey m o ≤ k && k < memKey m o + len)
    chk := mkeep d.chk fun k _ => !(memKey m o / 8 ≤ k && k < (memKey m o + len) / 8) }

def readHbm (a len : Nat) (d : Dev) : List Byte × Bool × Dev := readMem (hbmMem a) (hbmOff a) len d
def writeHbm (a : Nat) (data : List Byte) (poison : Bool) (d : Dev) : Dev := writeMem (hbmMem a) (hbmOff a) data poison d

/-! ### Connection contexts (R11, R23): 256 bytes in the context home of HB(c mod 4) -/

def ctxMem (c : Nat) : Nat := 8 + c % 4
def ctxOff (c : Nat) : Nat := c / 4 * 256

/-- The 256 bytes of a context and whether they are poisoned, read through the checker. -/
def readCtx (c : Nat) (d : Dev) : List Byte × Bool × Dev := readMem (ctxMem c) (ctxOff c) 256 d
def writeCtx (c : Nat) (b : List Byte) (d : Dev) : Dev := writeMem (ctxMem c) (ctxOff c) (padTo 256 b) false d
def clearCtx (c : Nat) (d : Dev) : Dev :=
  { clearMem (ctxMem c) (ctxOff c) 256 d with
    ctxCache := mmap d.ctxCache fun _ l => l.filter (· != c), ptOff := d.ptOff.filter (· != c) }

/-- The bytes of a context as stored, without a checked read. -/
def Dev.ctxRaw (d : Dev) (c : Nat) : List Byte :=
  (List.range 256).map fun i => cellAt d.mem (memKey (ctxMem c) (ctxOff c + i))

/-! ### Coherent updates (R16, R17, R18) -/

/-- The first apply point at least `lead` ns from now, never before one already assigned (R17, R18). -/
def Dev.applyPoint (d : Dev) (lead : Nat) : Nat := max ((d.time + lead + 255) / 256 * 256) d.lastApply

/-- Stage an update for an apply point. -/
def stageAt (a : Nat) (op : UpdOp) (done : List UpdDone) (d : Dev) : Dev :=
  { d with updates := d.updates ++ [{ apply := a, op := op, done := done }], lastApply := a }

/-- How long staging on every die takes, at most 400 ns (R235): a free value within that bound (log 14). -/
def drawStaging (d : Dev) : Nat × Dev := (Config.stagingDelay d.free % 401, { d with free := d.free + 1 })

/-- Stage an update with the next apply point at least 256 ns behind its staging (R17). -/
def stage (op : UpdOp) (done : List UpdDone) (d : Dev) : Dev :=
  let r := drawStaging d
  stageAt (d.applyPoint (r.1 + 256)) op done r.2

/-! ### Command replies (R155, R156, R160) -/

/-- The 32 bytes of a reply, phase 0. -/
def replyBytes (r : Reply) : List Byte :=
  leBytes 4 r.tag ++ leBytes 1 r.status ++ leBytes 3 (r.detail % 2 ^ 23) ++
  ((List.range 6).map fun i => leBytes 4 (r.words.getD i 0)).flatten

def crN (r : CmdRing) : Nat := 2 ^ r.crLog2
def rrN (r : CmdRing) : Nat := 2 ^ r.rrLog2
/-- Reply room, counting held replies. -/
def rrRoom (r : CmdRing) : Bool := ringCount (rrN r) r.rrHead r.rrWrite + r.held.length < rrN r

/-- Whether a ring's owner may receive writes. -/
def Dev.ringMay (d : Dev) : Ring → Bool
  | .manager => d.mgrMay
  | .function f => d.fnMay f
  | .slice s => d.ownerMay (.slice s)

/-- Write bytes into the memory of a ring's owner. -/
def ringWriteAs (x : XFor) (r : Ring) (addr : Nat) (b : List Byte) (d : Dev) : Dev := match r with
  | .manager => mgrWrite addr b d
  | .function f => hostWriteAs x f none addr b false false d
  | .slice s => hostWriteAs x (d.fnOf (.slice s)) (d.pasidOf (.slice s)) addr b false false d
def ringWrite := ringWriteAs .other

/-- What a reply's writes serve. -/
def Reply.serves (p : Reply) : XFor := match p.data with
  | some i => .entry i 4
  | none => .other

/-- The function through which a ring's owner is reached, 32 for the manager. -/
def Dev.ringFnNo (d : Dev) : Ring → Nat
  | .manager => 32
  | .function f => f
  | .slice s => d.fnOf (.slice s)

/-- Data of a command is written to its ring's owner, ahead of the reply, which says so when translation refuses it (R96). -/
def ringData (r : Ring) (l : List (Nat × List Byte)) (d : Dev) : Dev :=
  let i := newData (d.ringFnNo r) d
  i.2 |> updRing r (fun x => { x with exec := x.exec.map fun e => { e with data := some i.1 } })
    |> each l (fun w => ringWriteAs (.data i.1) r w.1 w.2)

/-- The interrupt of a ring: a vector, or REPLY_EVENT, which coalesces until the next RR_HEAD write (R36, R157). -/
def ringInterrupt (r : Ring) (d : Dev) : Dev := match r with
  | .manager =>
    let x := d.ring .manager
    if x.notified then d
    else d |> updRing .manager (fun x => { x with notified := true })
           |> raise 0x04 (posWord (rrN x) x.rrWrite) 0 0
  | .function f => msixRaise f (d.ring r).vector d
  | .slice s => ownerVector (.slice s) (d.ring r).vector d

/-- Write one reply into the reply ring, in two ordered writes. -/
def replyOut (r : Ring) (p : Reply) (d : Dev) : Dev :=
  let x := d.ring r
  d |> ringWrites (ringWriteAs p.serves r) x.rrBase (rrN x) x.rrWrite 32 (replyBytes p) 7
    |> dataDone (d.ringFnNo r) p.data.toList
    |> updRing r (fun x => { x with rrWrite := ringAdd (rrN x) x.rrWrite 1 })
    |> when (x.intEn && !p.quiet) (ringInterrupt r)

/-- End the executing command of a ring with a reply, written or held (R98, R34). The COMMANDS meter of the slice
that the header names counts, except for SLICE_CREATE (R56, R154). A command over which the adapter failed answers
INTERNAL, and the fault is logged to the manager (R36, R165). -/
def reply (r : Ring) (status detail : Nat) (words : List Nat) (d : Dev) : Dev :=
  let x := d.ring r
  match x.exec with
  | none => d
  | some e =>
    let p : Reply := if e.internal then { tag := e.tag, status := stInternal, detail := 0, words := [], quiet := bit e.flags 1 }
      else { tag := e.tag, status := status, detail := detail, words := words, quiet := bit e.flags 1, data := e.data }
    let d := when e.internal (raise 0x15 e.opcode (2 ^ 30 * ringKind r + ringNumber r) e.tag) d
    let d := if e.opcode = 0x0101 then d else meter e.slice 15 1 d
    let d := updRing r (fun x => { x with exec := none }) d
    if d.ringMay r && x.held.isEmpty then replyOut r p d
    else updRing r (fun x => { x with held := x.held ++ [p] }) d

/-- Write the held replies once requests may be issued again. -/
def releaseHeld (r : Ring) (d : Dev) : Dev :=
  if d.ringMay r then
    let h := (d.ring r).held
    each h (replyOut r) (updRing r (fun x => { x with held := [] }) d)
  else d

/-- Mark the executing command of a ring as begun: its effect is staged and its reply waits. -/
def begin' (r : Ring) (d : Dev) : Dev :=
  updRing r (fun x => { x with exec := x.exec.map fun e => { e with begun := true } }) d

/-! ### Which accesses reach a register (R389, R454, R456) -/

/-- The DEV, PWR and MEM blocks, which are served from start-up step 2 on. -/
def earlyBlock (off : Nat) : Bool :=
  off < 0x100000 || (0xE000000 ≤ off && off < 0xE800000) || (0xF800000 ≤ off && off < 0x10000000)

/-- Whether the register space at an offset is served: not while the adapter is held in reset, from step 2 the early
blocks, from step 8 everything. -/
def Dev.serves (d : Dev) (off : Nat) : Bool :=
  d.power.holds.isEmpty && (d.flag 0x14 31 || (earlyBlock off && 2 ≤ d.fld 0x14 3 0))

/-- The link of function f, or of the manager function 32, is up and carries requests to it. -/
def Dev.linked (d : Dev) (f : Nat) : Bool :=
  d.power.holds.isEmpty && (if f = 32 then d.cpUp else d.fnExists f && d.dlUp f && !(d.fn f).flr)

/-- The function takes memory requests to its BARs: Memory Space Enable; R90 names no power state (log 48; R34, R81). -/
def Dev.sees (d : Dev) (f : Nat) : Bool := d.linked f && (d.fn f).mse

/-- A posted request that finds it otherwise is an Unsupported Request (R90). -/
def unseen (f : Nat) (d : Dev) : Dev := when (d.linked f) (aerUnc f erUnsupported false) d

/-- A non-posted one is answered so. -/
def unseenRead (f : Nat) (d : Dev) : Dev :=
  when (d.linked f) (fun d => d |> aerUnc f erUnsupported true |> emit (.completion f 1 [] false)) d

/-- Whether a requester's access gets as far as the register space; hosts reach only their own function's (R32). -/
def Dev.admits (d : Dev) : Requester → Bool
  | .manager => d.sees 32
  | .host _ => false
  | _ => true

/-- An access that does not. -/
def unadmitted (q : Requester) (d : Dev) : Dev := match q with
  | .manager => unseen 32 d
  | _ => d

/-- A read that does not: the manager's is answered with Unsupported Request (R34, R90). -/
def unadmittedRead (q : Requester) (d : Dev) : Dev := match q with
  | .manager => unseenRead 32 d
  | _ => d

/-- A register access by a requester whose own rule says what becomes of it. -/
def State.atReg (s : State) (q : Requester) (off : Nat) (f : Nv → Dev → Dev) : State :=
  if !s.dev.admits q then s.onDev fun _ d => unadmitted q d
  else if s.dev.serves off then s.onDev f else s

/-- A register write that cores 4-15 may not make. -/
def State.atRegAll (s : State) (q : Requester) (off : Nat) (f : Nv → Dev → Dev) : State :=
  s.atReg q off fun nv d => match q with
    | .core c => if 4 ≤ (c : Nat) then coreDenied c d else f nv d
    | _ => f nv d

/-- A register read; a block that is not served yet reads 0. -/
def State.atRead (s : State) (q : Requester) (off : Nat) (f : Nv → Dev → Dev) : State :=
  if !s.dev.admits q then s.onDev fun _ d => unadmittedRead q d
  else if s.dev.serves off then s.onDev f
  else s.onDev fun _ d => when d.power.holds.isEmpty (emit (.value q off 0)) d

/-- An access to a ring, a queue or a mailbox by its owner, who reaches it through function f, 32 for the manager; a
core needs none. -/
def State.through (s : State) (f : Option Nat) (g : Nv → Dev → Dev) : State :=
  match f with
  | some f => if !s.dev.sees f then s.onDev fun _ d => unseen f d else if s.dev.serves (2 ^ 32) then s.onDev g else s
  | none => if s.dev.serves (2 ^ 32) then s.onDev g else s

/-- The function through which a mailbox side is reached (R144). -/
def Dev.sideFn (d : Dev) (x : Side) : Option Nat :=
  if x.mgr then some 32
  else match x.pair with
    | .function f => some f
    | .slice s => some (d.fnOf (.slice s))
    | .core _ => none

end Sys2Proof.Machine
end

