-- ==== Sys2Proof/Machine/Engine.lean ====
section
/-!
DEFINITION. The command engine of 07_polsum_commands.md: fetching and checking command packets, the doorbells of
command and reply rings, and the frame in which every opcode's meaning runs.
-/
namespace Sys2Proof.Machine

/-! ### Opcodes (R166) -/

/-- Which kinds of ring carry an opcode: manager, function, slice; and the parameter length it requires, none where
the parameters themselves decide (RS_ACTION_WRITE, R260). -/
structure OpRow where
  op : Nat
  mgr : Bool
  fn : Bool
  slice : Bool
  plen : Option Nat
deriving DecidableEq, Repr

def opRowsA : List OpRow :=
  [⟨0x0001, true, true, true, some 0⟩, ⟨0x0002, true, true, true, some 0⟩, ⟨0x0003, true, false, false, some 4⟩,
   ⟨0x0004, true, false, true, some 24⟩, ⟨0x0010, true, false, false, some 4⟩, ⟨0x0011, true, false, false, some 0⟩,
   ⟨0x0101, true, false, false, some 280⟩, ⟨0x0102, true, false, false, some 280⟩, ⟨0x0103, true, true, true, some 0⟩,
   ⟨0x0104, true, false, false, some 0⟩, ⟨0x0110, true, false, false, some 1⟩, ⟨0x0120, true, false, false, some 4⟩,
   ⟨0x0201, false, true, true, some 64⟩, ⟨0x0202, false, true, true, some 4⟩, ⟨0x0203, false, true, true, some 4⟩,
   ⟨0x0204, false, true, true, some 8⟩, ⟨0x0205, false, true, true, some 4⟩, ⟨0x0206, false, true, true, some 8⟩,
   ⟨0x0207, false, true, true, some 560⟩, ⟨0x0208, false, true, false, some 8⟩]

def opRowsB : List OpRow :=
  [⟨0x0301, true, true, true, some 72⟩, ⟨0x0302, true, true, true, some 72⟩, ⟨0x0303, true, true, true, some 72⟩,
   ⟨0x0304, true, true, true, some 72⟩, ⟨0x0305, true, true, true, some 72⟩, ⟨0x0306, true, false, false, some 24⟩,
   ⟨0x0307, true, false, false, some 32⟩, ⟨0x0308, true, false, false, some 32⟩, ⟨0x0309, true, false, false, some 4⟩,
   ⟨0x0401, true, false, false, some 4⟩, ⟨0x0402, true, false, false, some 116⟩, ⟨0x0403, true, false, false, some 24⟩,
   ⟨0x0404, true, false, false, some 96⟩, ⟨0x0405, true, false, false, none⟩, ⟨0x0406, true, false, false, some 144⟩,
   ⟨0x0407, true, false, false, some 48⟩, ⟨0x0408, true, false, false, some 80⟩, ⟨0x0409, true, false, false, some 16⟩,
   ⟨0x0410, true, false, false, some 8⟩, ⟨0x0411, true, false, false, some 0⟩, ⟨0x0420, true, true, true, some 12⟩]

def opRowsC : List OpRow :=
  [⟨0x0501, true, false, false, some 16⟩, ⟨0x0502, true, false, false, some 32⟩,
   ⟨0x0601, true, true, true, some 264⟩, ⟨0x0602, true, true, true, some 16⟩, ⟨0x0603, true, true, true, some 56⟩,
   ⟨0x0701, false, true, true, some 24⟩, ⟨0x0702, false, true, true, some 8⟩,
   ⟨0x0801, true, true, true, some 64⟩, ⟨0x0802, true, true, true, some 64⟩, ⟨0x0803, true, true, true, some 4⟩,
   ⟨0x0804, true, true, true, some 16⟩, ⟨0x0901, true, false, false, some 24⟩, ⟨0x0902, true, false, false, some 48⟩,
   ⟨0x0903, true, false, false, some 8⟩, ⟨0x0B01, true, false, false, some 24⟩, ⟨0x0B02, true, false, false, some 4⟩,
   ⟨0x0C01, true, false, false, some 4⟩]

def opRow (op : Nat) : Option OpRow := (opRowsA ++ opRowsB ++ opRowsC).find? (·.op == op)

/-! ### Rings -/

def ringOfKey (k : Nat) : Ring :=
  if k = 0 then .manager else if k < 64 then .function (fin 32 (k - 1)) else .slice (fin 4096 (k - 64))

/-- The ring may start a command: a packet posted, room for its reply, requests allowed, nothing executing, no wait for a
RESETTING slice, no bind-off of its host link (R51, R153, R157, R160, R161, R98, R174, R459). -/
def Dev.startable (d : Dev) (r : Ring) : Bool :=
  let x := d.ring r
  d.engineReady && x.enable && !x.halted && x.exec.isNone && x.held.isEmpty &&
  ringCount (crN x) x.head x.tail ≥ max 1 x.need &&
  !(x.waits.any fun s => ((d.slice s).map (·.state)) == some .resetting) && rrRoom x && d.ringMay r && (r != .manager || d.cpUp) &&
  !(match r with | .manager => false | .function f => d.unbinding 3 f | .slice s => d.unbinding 3 (d.fnOf (.slice s)))

/-- R164: the manager ring first; among the others one command per turn, in round robin. -/
def Dev.ringTurn (d : Dev) (r : Ring) : Bool :=
  match r with
  | .manager => true
  | _ =>
    let dist := fun k => (k + 8192 - d.served - 1) % 8192
    !d.startable .manager &&
    (d.rings.all fun e => e.1 == 0 || !d.startable (ringOfKey e.1) || dist (ringKey r) ≤ dist e.1)

/-- A refused command or descriptor counts in SLICE_DENIED of the function's pipeline (R30, R48). -/
def countDenied (f : Nat) (d : Dev) : Dev := count (aPl (plOfLink f) + 0x2504) d

/-- The function whose ring this is. -/
def Dev.ringFn (d : Dev) : Ring → Option Nat
  | .manager => none
  | .function f => some f
  | .slice s => some (d.fnOf (.slice s))

/-- A command refused under R162 counts in SLICE_DENIED (R30). -/
def ringDenied (r : Ring) (d : Dev) : Dev := match d.ringFn r with
  | some f => countDenied f d
  | none => d

/-- R162: whether a ring may act on the header's SLICE. -/
def Dev.ringOwns (d : Dev) (r : Ring) (slice : Nat) : Bool := match r with
  | .manager => true
  | .function f => slice == 0xFFFF || ((d.slice slice).map (·.fn)) == some f.val
  | .slice s => slice == s.val

/-- Halt a ring (R161). -/
def haltRing (r : Ring) (reason : Nat) (d : Dev) : Dev :=
  updRing r (fun x => { x with halted := true, haltReason := reason }) d

/-- The packet's header as a command to execute. -/
def execOf (h : List Byte) : Exec :=
  { opcode := le h 0 2, flags := byteAt h 2, tag := le h 4 4, slice := le h 8 2, plen := le h 10 2 }

/-- Slots of a packet (R152). -/
def slotsOf (plen : Nat) : Nat := (32 + plen + 31) / 32

/-- The first reserved header byte or bit that is not 0 (R154). -/
def hdrReserved (h : List Byte) : Option Nat :=
  if byteAt h 2 / 4 != 0 then some 2
  else (List.range 20).findSome? fun i => if byteAt h (12 + i) != 0 then some (12 + i) else none

/-- The header checks of R154 behind the PLEN limit, in order: the status and detail of the first that fails, and
whether it counts in SLICE_DENIED. -/
def hdrCheck (r : Ring) (h : List Byte) (d : Dev) : Option (Nat × Nat × Bool) :=
  let e := execOf h
  if byteAt h 3 != 1 then some (stBadOpcode, 2, false)
  else match opRow e.opcode with
  | none => some (stBadOpcode, 0, false)
  | some o =>
    match hdrReserved h with
    | some i => some (stBadParam, 0x8000 + i, false)
    | none =>
      let may := match r with | .manager => o.mgr | .function _ => o.fn | .slice _ => o.slice
      if !may || !d.ringOwns r e.slice then some (stDenied, 0, true)
      else match o.plen with
        | some n => if e.plen != n then some (stBadLength, n, false) else none
        | none => none

/-- Commands for a RESETTING slice from rings other wait, except a SLICE_RESET, which joins (R50, R52). -/
def Dev.sliceWaits (d : Dev) (e : Exec) : Bool :=
  e.opcode != 0x0103 && e.opcode != 0x0101 &&
  (match d.slice e.slice with | some x => x.state == .resetting | none => false)

/-- Commands that change tables, generations, meters or windows as coherent updates (R17). -/
def updOps : List Nat := [0x0104, 0x0110, 0x0301, 0x0302, 0x0303, 0x0304, 0x0307, 0x0308, 0x0410, 0x0801, 0x0802, 0x0803]

/-- Whether a coherent update accepted before place `seq` has not been staged yet: what was accepted later waits for it, so
that apply points follow the order of acceptance (R18, R164, R167). -/
def Dev.ahead (d : Dev) (seq : Nat) : Bool :=
  (d.rings.any fun x => match x.2.exec with
    | some e => !e.begun && updOps.contains e.opcode && decide (e.seq < seq)
    | none => false) ||
  d.tblRegs.any fun x => match x.2.waiting with | some n => decide (n < seq) | none => false

/-- The ring takes the packet of `n` slots: the command is accepted. -/
def takeSlots (r : Ring) (n : Nat) (e : Exec) (d : Dev) : Dev :=
  { updRing r (fun x => { x with head := ringAdd (crN x) x.head n, need := 1, waits := none,
                                 exec := some { e with seq := d.accepted } }) d with
    served := if r = .manager then d.served else ringKey r
    accepted := d.accepted + 1 }

/-- A header that was read: its PLEN check, the wait for the whole packet, and the remaining checks (R153, R154). -/
def headerRead (r : Ring) (h : List Byte) (d : Dev) : Dev :=
  let e := execOf h
  let x := d.ring r
  if e.plen > 4064 then
    d |> updRing r (fun x => { x with exec := some e }) |> reply r stBadLength 0x7FFFFF [] |> haltRing r 1
  else if ringCount (crN x) x.head x.tail < slotsOf e.plen then updRing r (fun x => { x with need := slotsOf e.plen }) d
  else if d.sliceWaits e then updRing r (fun x => { x with waits := some e.slice }) d
  else
    let d' := takeSlots r (slotsOf e.plen) e d
    match hdrCheck r h d with
    | some (st, det, den) => d' |> when den (ringDenied r) |> reply r st det []
    | none => d'

/-- The function of a ring's reads: 32 is the manager function. -/
def Dev.readFn (d : Dev) (r : Ring) : Nat := (d.ringFn r).getD 32

/-- The PASID of a ring's requests (R42). -/
def Dev.ringPasid (d : Dev) : Ring → Option Nat
  | .slice s => d.pasidOf (.slice s)
  | _ => none

/-- Where k slots of a ring from slot i on lie, for a ring whose reads pass a translation cache (R96). -/
def Dev.slotRanges (d : Dev) (r : Ring) (i k : Nat) : List (Nat × Nat) := match r with
  | .manager => []
  | _ => ringRange (d.ring r).base 32 (crN (d.ring r)) i k

/-- What the read of a packet's header brought. -/
def headerEnd (r : Ring) (hdr : Read) (d : Dev) : Dev := match hdr with
  | .ok h => headerRead r (padTo 32 h) d
  | .poisoned h =>
    d |> dmaFail (d.readFn r) hdr
      |> updRing r (fun x => { x with exec := some (execOf (padTo 32 h)) })
      |> reply r stPoisoned 0 [] |> haltRing r 3
  | _ => d |> dmaFail (d.readFn r) hdr |> haltRing r 2

/-- COMMAND_FETCH (R153, R154, R161): the header's read passes the translation cache (R96). -/
def execCommandFetch (r : Ring) (hdr : Read) (s : State) : Host.Outcome State Fault Refusal :=
  .next (s.onDev fun _ d =>
    if d.startable r && d.ringTurn r then
      withRead (d.readFn r) (d.ringPasid r) (d.slotRanges r (d.ring r).head 1) hdr (headerEnd r) d
    else d)

/-! ### The frame of a command's meaning -/

/-- Commands for a slice that is HOST_LOST or CLOSING, or for a slice that does not exist (R50, R165). -/
def sliceGate (e : Exec) (d : Dev) : Option (Nat × Nat) :=
  if e.slice = 0xFFFF || e.opcode = 0x0101 then none
  else match d.slice e.slice with
    | none => some (stNotFound, 0)
    | some x => match x.state with
      | .closing => some (stNotFound, if e.opcode = 0x0103 then 4 else 0)
      | .hostLost => if e.opcode ∈ [0x0102, 0x0103, 0x0104] then none else some (stHostLost, 0)
      | _ => none

/-- Where the parameters of the command that ring r executes lie: in the slots behind its header (R152). -/
def Dev.paramRanges (d : Dev) (r : Ring) (e : Exec) : List (Nat × Nat) :=
  let k := slotsOf e.plen - 1
  d.slotRanges r ((d.ring r).head + 2 * crN (d.ring r) - k) k

/-- Run the meaning of opcode `op` for the command that ring r executes: its parameters are read (R154, last row)
through the translation cache (R96), a slice that takes no commands answers, and `f` does the rest. Without such a
command, and for a coherent update or a NOP behind one accepted earlier that is not staged yet, nothing happens (log 2). `lift` says what is left of the whole when only the device changes. -/
def commandTo {α : Type} (lift : Dev → α) (r : Ring) (op : Nat) (p : Read) (f : Exec → List Byte → Dev → α) (d : Dev) : α :=
  match (d.ring r).exec with
  | none => lift d
  | some e =>
    if e.opcode != op || e.begun || ((op == 1 || updOps.contains op) && d.ahead e.seq) then lift d
    else
      let runOn := fun b d =>
        match sliceGate e d with
        | some (st, det) => lift (reply r st det [] d)
        | none => f e b d
      match xlatRead (d.readFn r) (d.ringPasid r) (readPieces (d.fn (d.readFn r)) (d.paramRanges r e)) d with
      | (.wait, d) => lift d
      | (.fail x, d) => lift (d |> dmaFail (d.readFn r) x |> reply r (readStatus x) 0 [])
      | (.ready, d) => match p with
        | .internal b =>
          let w := drawWord d
          let d' := updRing r (fun x => { x with exec := x.exec.map fun e => { e with internal := true } }) w.2
          if w.1.getLsbD 0 then runOn (padTo e.plen b) d' else lift (reply r stInternal 0 [] d')
        | p => if e.plen = 0 then runOn [] d else match p with
          | .ok b => runOn (padTo e.plen b) d
          | x => lift (d |> dmaFail (d.readFn r) x |> reply r (readStatus x) 0 [])

/-- A command that changes the device only. -/
def command (r : Ring) (op : Nat) (p : Read) (f : Exec → List Byte → Dev → Dev) (d : Dev) : Dev :=
  commandTo id r op p f d

/-- Reply the first fault of a list of checks, or go on. -/
def checks (r : Ring) (l : List (Option (Nat × Nat))) (go : Dev → Dev) (d : Dev) : Dev :=
  match l.findSome? id with
  | some (st, det) => reply r st det [] d
  | none => go d

/-- A field fault: BAD_PARAM with the field's offset. -/
def bad (c : Bool) (off : Nat) : Option (Nat × Nat) := if c then some (stBadParam, off) else none

/-- The queue or context owner that a command acts on (R132): the header's slice, or the function itself. -/
def cmdOwner (r : Ring) (e : Exec) : Option Owner :=
  if e.slice < 4096 then some (.slice (fin 4096 e.slice))
  else match r with
    | .function f => some (.function f)
    | _ => none

/-! ### Doorbells of command and reply rings (R158, R159, R160) -/

/-- What a slice ring needs to exist: its slice. -/
def Dev.ringExists (d : Dev) : Ring → Bool
  | .manager => true
  | .function f => d.fnExists f
  | .slice s => (d.slice s).isSome

/-- Sizes outside the stated range are taken as the default (R157). -/
def ringLog (lo dflt v : Nat) : Nat := if lo ≤ v && v ≤ 16 then v else dflt

def crCtrlWrite (r : Ring) (v : Word) (d : Dev) : Dev :=
  updRing r (fun x =>
    let x := if x.enable then x else
      { x with crLog2 := ringLog 7 7 (wbits v 28 24), rrLog2 := ringLog 6 6 (wbits v 20 16)
               crRaw := wbits v 28 24, rrRaw := wbits v 20 16 }
    let x := { x with intEn := v.getLsbD 30, vector := if r = .manager then x.vector else wbits v 10 0 }
    if v.getLsbD 31 && !x.enable then
      { x with enable := true, head := 0, tail := 0, rrHead := 0, rrWrite := 0, halted := false, haltReason := 0,
               need := 1, waits := none }
    else if !v.getLsbD 31 then { x with enable := false, need := 1, waits := none } else x) d

/-- CR_CTRL_WRITE (R157, R158). -/
def execCrCtrlWrite (r : Ring) (v : Word) (s : State) : Host.Outcome State Fault Refusal :=
  .next (s.through (s.dev.readFn r) fun _ d => if d.ringExists r then crCtrlWrite r v d else d)

def crErr (r : Ring) (d : Dev) : Dev := updRing r (fun x => { x with err := sat32 (x.err + 1) }) d

def crTailWrite (r : Ring) (v : Word) (d : Dev) : Dev :=
  let x := d.ring r
  if !x.enable || !d.engineReady then crErr r d
  else match tailValid (crN x) x.head x.tail (wbits v 16 0) with
    | some p => updRing r (fun x => { x with tail := p }) d
    | none => crErr r d

/-- CR_TAIL_WRITE (R159). -/
def execCrTailWrite (r : Ring) (v : Word) (s : State) : Host.Outcome State Fault Refusal :=
  .next (s.through (s.dev.readFn r) fun _ d => if d.ringExists r then crTailWrite r v d else d)

def rrHeadWrite (r : Ring) (v : Word) (d : Dev) : Dev :=
  let x := d.ring r
  match headValid (rrN x) x.rrHead x.rrWrite (wbits v 16 0) with
  | some p => updRing r (fun x => { x with rrHead := p, notified := false }) d
  | none => crErr r d

/-- RR_HEAD_WRITE (R160). -/
def execRrHeadWrite (r : Ring) (v : Word) (s : State) : Host.Outcome State Fault Refusal :=
  .next (s.through (s.dev.readFn r) fun _ d => if d.ringExists r then rrHeadWrite r v d else d)

end Sys2Proof.Machine
end

