-- ==== Sys2Proof/Machine/Updates.lean ====
section
/-!
DEFINITION. Coherent updates taking effect (R16-R20), and the passing of device time: no moment passes an apply
point without its updates.
-/
namespace Sys2Proof.Machine

/-! ### Table entries (R211, R216, R219) -/

/-- One second in nanoseconds. -/
def oneSecond : Nat := 1000000000

/-- HIT_TIME of a moment: the device second (R219). -/
def second (t : Nat) : Nat := t / 1000000000

/-- Write one place of an exact-match table: an entry that moves keeps its HIT_TIME, a new one takes the second. -/
def putSlot (now : Nat) (m : Map Entry) (w : Nat × Option Entry) : Map Entry := match w.2 with
  | none => mdel m w.1
  | some e =>
    let old := (m.find? fun x => x.2.key == e.key).map (·.2.hit)
    let hit := if e.hit.isEmpty then old.getD (List.replicate 4 (second now)) else List.replicate 4 (second now)
    mput m w.1 { e with hit := hit }

/-- A table after one update of its entries. -/
def tableAfter (now t : Nat) (u : UpdOp) (x : Table) : Table := match u with
  | .slots t' _ w => if t' = t then { x with ents := w.foldl (putSlot now) x.ents } else x
  | .lpm t' p => if t' = t then { x with prefixes := p } else x
  | _ => x

/-- Table t with every staged update that satisfies a test: as a lookup at a later moment finds it, or as an
insertion plans against it (R19, R216). -/
def Dev.tableWith (d : Dev) (t : Nat) (p : Update → Bool) : Table :=
  (d.updates.filter p).foldl (fun x u => tableAfter u.apply t u.op x) (d.table t)

/-! ### Eyelet windows (R332) -/

def updEyelet (h : Nat) (g : Eyelet → Eyelet) (d : Dev) : Dev := { d with eyelets := mmod d.eyelets h g }
def Dev.eyelet (d : Dev) (h : Nat) : Option Eyelet := mfind d.eyelets h

/-- A zero-length read on a slice's link behind the writes already issued there. It is for no data, ring or completion
entry, and so leaves untranslated (R96; log 133). -/
def flushRead (s : Nat) (h : Option Nat) (jobs : List Nat) (d : Dev) : Dev := match d.slice s with
  | none => d
  | some x =>
    let t := (d.fn x.fn).nextTag
    d |> newTag x.fn (.flush h jobs) (some x.pasid)
      |> issue x.fn { out := .memRead (.host x.fn (some x.pasid)) 0 0 t, need := false, who := some x.pasid }

/-- Once every old segment has finished, the flushing read behind their writes is issued, where the link can. -/
def eyeletSettle (h : Nat) (d : Dev) : Dev := match d.eyelet h with
  | none => d
  | some y => match y.rewrite with
    | none => d
    | some w =>
      if !w.applied || !w.flush || w.flushing || y.flight.any (·.old) then d
      else if d.ownerMay (.slice (fin 4096 y.exporter)) then
        d |> updEyelet h (fun y => { y with dirty := false, rewrite := some { w with flushing := true } })
          |> flushRead y.exporter (some h) []
      else updEyelet h (fun y => { y with dirty := false, rewrite := some { w with flush := false } }) d

/-- A window rewrite takes effect at its apply point. -/
def windowApply (h : Nat) (w : Option Window) (a : Nat) (d : Dev) : Dev :=
  d |> updEyelet h (fun y => { y with
        win := w, apply := a, flight := y.flight.map fun s => { s with old := true }
        rewrite := y.rewrite.map fun x => { x with applied := true, flush := y.dirty || y.flight.any (·.write) } })
    |> eyeletSettle h

/-! ### Generations (R254-R256) -/

/-- TM_AGE_LIMIT in force, in µs (R359). -/
def Dev.ageLimit (d : Dev) : Nat := d.fld 0xC000000 19 0

/-- The generation number that the next commit takes. -/
def nextGen (g : Nat) : Nat := if g ≥ 65535 then 1 else g + 1

/-- A committing bank becomes CURRENT and the previous one DRAINING. -/
def gensCommit (a age : Nat) (g : Gens) : Gens := match g.committing with
  | none => g
  | some r =>
    { g with current := nextGen g.current, rules := r, applied := a, draining := some (g.current, g.rules)
             ageMax := age, committing := none, base := 0, redef := [], redefDrain := g.redef }

/-- A rule set without the rule b at index i of table t. -/
def emptyRule (t i : Nat) (b : List Byte) (r : RuleSet) : RuleSet :=
  if mfind r.tcam (t * 65536 + i) = some b then { r with tcam := mdel r.tcam (t * 65536 + i) } else r

/-! ### An update takes effect -/

/-- The freeze point: the slice enters CLOSING, its meters stop (R53). -/
def freezeSlice (s a : Nat) (d : Dev) : Dev :=
  updSlice s (fun x => { x with state := .closing, frozen := some a, ageMax := d.ageLimit, tearing := true }) d

/-- What an update changes. -/
def updEffect (a : Nat) (u : UpdOp) (d : Dev) : Dev := match u with
  | .slots t _ _ => updTable t (tableAfter a t u) d
  | .lpm t _ => updTable t (tableAfter a t u) d
  | .rule t i b =>
    { d with gens := { d.gens with rules := emptyRule t i b d.gens.rules
                                   draining := d.gens.draining.map fun x => (x.1, emptyRule t i b x.2)
                                   shadow := d.gens.shadow.map (emptyRule t i b)
                                   committing := d.gens.committing.map (emptyRule t i b) } }
  | .commit => { d with gens := gensCommit a d.ageLimit d.gens }
  | .freeze s => freezeSlice s a d
  | .snapshot bank r => { d with snap := some (bank, a, r, d.slices) }
  | .window h w => windowApply h w a d

/-- The table command registers of a requester return the outcome of its operation (R172, R222). -/
def regReturn (q : Requester) (status detail : Nat) (words : List Nat) (key : List Byte) (d : Dev) : Dev :=
  (match q with | .core c => privRaise c 10 | _ => id) { d with tblRegs := mupd {} d.tblRegs (reqKey q) fun x =>
      { x with busy := false, status := status, detail := detail
               apply := words.getD 4 0 + 2 ^ 32 * words.getD 5 0
               data := (List.range 4).foldl (fun m i => mset 0 m i (word (words.getD i 0))) []
               key := if key.isEmpty then x.key
                 else (List.range 14).foldl (fun m i => mset 0 m i (word (le key (4 * i) 4))) [] } }

/-- What follows an update that has taken effect: replies, fences, the register path. -/
def updFinish (l : UpdDone) (d : Dev) : Dev := match l with
  | .reply r st det ws => reply r st det ws d
  | .fence r => reply r stOk 0 [(d.reg 0x100008).toNat, (d.reg 0x10000C).toNat] d
  | .regPath q st det ws key => regReturn q st det ws key d

/-- The oldest staged update takes effect at its apply point, recorded in TIME_APPLIED (R17, R20). -/
def applyFirst (d : Dev) : Dev := match d.updates with
  | [] => d
  | u :: r =>
    let d := { d with updates := r, time := max d.time u.apply }
    d |> updEffect u.apply u.op |> setReg64 0x100008 u.apply |> each u.done updFinish

/-- Every update due by t takes effect, in acceptance order. -/
def applyDue (t : Nat) : Nat → Dev → Dev
  | 0, d => d
  | k + 1, d => match d.updates with
    | [] => d
    | u :: _ => if u.apply ≤ t then applyDue t k (applyFirst d) else d

/-- Device time reaches the first pending apply point, and all its updates take effect. -/
def applyNext (d : Dev) : Dev := match d.updates with
  | [] => d
  | u :: _ => applyDue u.apply d.updates.length d

/-! ### Time -/

/-- Device time moves on to `t`, never back; updates due on the way take effect at their apply points (log 1). -/
def timeTo (t : Nat) (d : Dev) : Dev :=
  let d := applyDue t d.updates.length d
  { d with time := max d.time t }

/-- One nanosecond of device time passes, unless the adapter is held in reset (R14). -/
def tickDev (d : Dev) : Dev := if !d.power.holds.isEmpty then d else timeTo (d.time + 1) d

/-- A die's difference from the reference now, in eighths of a nanosecond: slewed back at 0.1 ns per µs, the fastest that R15
allows (DESIGN CHOICE, log 147). -/
def Dev.skewNow (d : Dev) (i : Nat) : Nat := match mfind d.power.skews i with
  | some (n, t) => n - (d.time - t) * 8 / 10000
  | none => 0

/-- SYNCED: every die, once aligned, is within 1 ns of the reference. -/
def skewSync (d : Dev) : Dev :=
  setFlag 0x10001C 0 (d.power.aligned && (List.range 8).all fun i => d.skewNow i ≤ 8) d

end Sys2Proof.Machine
end

