-- ==== Sys2Proof/Machine/QueueEngine.lean ====
section
/-!
DEFINITION. The queue engine of 05_queues.md: completion rings, doorbells, the order of fetch, descriptor checks,
chains, and halts. Transmit jobs are in Machine/HostTx.lean, receive placement in Machine/HostRx.lean, eyelet
jobs in Machine/Eyelets.lean.
-/
namespace Sys2Proof.Machine

/-! ### Completion rings (R119-R121, R126-R128) -/

def Cq.n (c : Cq) : Nat := 2 ^ c.log2
def Cq.full (c : Cq) : Bool := ringCount c.n c.head c.wpos == c.n
def Queue.n (q : Queue) : Nat := 2 ^ q.log2

/-- The 16 bytes of a completion entry, phase 0 (R119). -/
def cqeBytes (e : CEntry) : List Byte :=
  leBytes 4 e.tag ++ leBytes 2 e.index ++ leBytes 2 (e.queue % 8192) ++ leBytes 3 e.len ++ leBytes 1 e.status ++
  leBytes 1 e.bufs ++ leBytes 1 e.detail ++ leBytes 1 e.type ++ leBytes 1 0

/-- Trigger a ring's interrupt (R128). -/
def cqTrigger (o : Owner) (c : Nat) (d : Dev) : Dev := match d.cq o c with
  | none => d
  | some x => d |> updCq o c (fun x => { x with mcount := 0, due := none }) |> when x.intEn (ownerVector o x.vector)

/-- The values of a CQ_MODERATE come into force (R128). -/
def Cq.current (x : Cq) : Cq := match x.staged with
  | some (n, t, v, i) => { x with count := n, timer := t, vector := v, intEn := i, staged := none }
  | none => x

/-- An entry was written: new values apply, then count, timer and trigger (R128). -/
def cqModerate (o : Owner) (c : Nat) (d : Dev) : Dev := match (d.cq o c).map Cq.current with
  | none => d
  | some x =>
    let d := updCq o c Cq.current d
    let n := x.mcount + 1
    let due := if x.mcount = 0 && x.timer != 0 then some (d.time + x.timer * 500) else x.due
    let d := updCq o c (fun x => { x with mcount := n, due := due }) d
    when ((x.count != 0 && n ≥ x.count) || (x.count == 0 && x.timer == 0)) (cqTrigger o c) d

/-- The head moves past the descriptors that the entry accounts for, the last of which has the given index (R111). -/
def passIndex (q : Queue) (index : Nat) : Queue :=
  { q with head := ringAdd q.n q.head ((index + q.n - q.head % q.n) % q.n + 1) }

/-- The descriptors of an entry of the queue's present run are passed; a HALT entry, or one of an earlier run, passes
none (R111, R131). -/
def CEntry.pass (e : CEntry) (q : Queue) : Queue := if e.type = 3 || e.run != q.run then q else passIndex q e.index

/-- What an entry's writes serve. -/
def CEntry.serves (e : CEntry) : XFor := match e.data with
  | some i => .entry i 11
  | none => .other

/-- Write one entry into a ring that has room: two ordered writes, the head of its queue, moderation (R120, R111). -/
def cqWrite (o : Owner) (c : Nat) (e : CEntry) (d : Dev) : Dev := match d.cq o c with
  | none => d
  | some x =>
    d |> ringWrites (fun a b => hostWriteAs e.serves (d.fnOf o) (d.pasidOf o) a b false false) x.base x.n x.wpos 16 (cqeBytes e) 15
      |> dataDone (d.fnOf o) e.data.toList
      |> updCq o c (fun x => { x with wpos := ringAdd x.n x.wpos 1 })
      |> updQueue o e.queue e.pass
      |> cqModerate o c

/-- Write waiting entries while the ring has room: held ones first, in order, then HALT entries (R127, R129). -/
def cqDrain (o : Owner) (c : Nat) : Nat → Dev → Dev
  | 0, d => d
  | k + 1, d => match d.cq o c with
    | none => d
    | some x =>
      if x.full || !d.ownerMay o then d
      else match x.held, x.halts with
        | e :: r, _ => d |> updCq o c (fun x => { x with held := r }) |> cqWrite o c e |> cqDrain o c k
        | [], e :: r => d |> updCq o c (fun x => { x with halts := r }) |> cqWrite o c e |> cqDrain o c k
        | [], [] => d

/-- A ring becomes full while an entry waits: a stall begins (R126). -/
def cqStall (o : Owner) (c : Nat) (d : Dev) : Dev :=
  let f := d.fnOf o
  d |> updCq o c (fun x => { x with stalled := true })
    |> updQueue o c (fun q => { q with stalls := min (q.stalls + 1) 0xFFFF })
    |> count (aFn f 0x4110)
    |> fnEvent f 1 (d.localIdx o) c 0

/-- Everything waiting for a ring, as far as there is room; what still waits at a ring that it filled stalls it anew. -/
def cqFlush (o : Owner) (c : Nat) (d : Dev) : Dev := match d.cq o c with
  | none => d
  | some x =>
    let d := cqDrain o c (x.held.length + x.halts.length + 1) d
    match d.cq o c with
    | some y => when (y.full && !y.held.isEmpty && !y.stalled) (cqStall o c) d
    | none => d

/-- Complete a job or a packet with an entry: written, held during a stall or while the slice's requests are barred
by PASID Enable, or discarded once Bus Master Enable is 0 or an FLR runs (R95, R98, R99, R126). -/
def complete (o : Owner) (c : Nat) (e : CEntry) (d : Dev) : Dev := match d.cq o c with
  | none => d
  | some x =>
    let f := d.fnOf o
    let d := when (e.status == stBadOpcode || e.status == stBadParam || e.status == stBadLength) (count (aFn f 0x4118)) d
    if d.ownerMay o && !x.full && x.held.isEmpty then cqWrite o c e d
    else if !(d.fn f).bme || (d.fn f).flr then d
    else
      let d := updCq o c (fun x => { x with held := x.held ++ [e] }) d
      when (x.full && !x.stalled) (cqStall o c) d

/-- A HALT entry: written when the ring has room, Bus Master Enable is 1 and nothing waits ahead, else kept (R129). -/
def completeHalt (o : Owner) (c : Nat) (e : CEntry) (d : Dev) : Dev := match d.cq o c with
  | none => d
  | some x =>
    if d.ownerMay o && !x.full && x.held.isEmpty && x.halts.isEmpty then cqWrite o c e d
    else updCq o c (fun x => { x with halts := x.halts ++ [e] }) d

/-! ### Outstanding reads -/

/-- Forget the outstanding reads for a purpose. -/
def dropReads (f : Nat) (p : Purpose) (d : Dev) : Dev :=
  updFn f (fun x => { x with reads := x.reads.filter fun r => r.purpose != p }) d

/-- Forget the outstanding read of a tag. -/
def dropTag (f tag : Nat) (d : Dev) : Dev := updFn f (fun x => { x with reads := x.reads.filter (·.tag != tag) }) d

/-! ### Halts (R129, R130) -/

/-- Whether the queue counts as HALTED (R130: from step 1), and the reason. -/
def Queue.reason (q : Queue) : Option Nat := match q.halted with
  | some r => some r
  | none => q.ending.map (·.reason)

/-- Jobs or an eyelet job still in flight. -/
def Queue.busy (q : Queue) : Bool := !q.jobs.isEmpty || q.xfer.isSome

/-- Whether an outstanding read serves one of the queues that a test selects. -/
def Purpose.serves (p : Purpose) (sel : Nat → Bool) : Bool := match p with
  | .descriptors o q => sel (qKey o q)
  | .jobData o q => sel (qKey o q)
  | .segment o q _ => sel (qKey o q)
  | _ => false

/-- A write of a segment of one of the queues. -/
def XFor.ofQueue (s : XFor) (sel : Nat → Bool) : Bool := match s with
  | .seg q _ => sel q
  | _ => false

/-- Forget what is under way for queues: their outstanding reads, whose completions match nothing from now on, and
their eyelet segments with the writes that have not left; a window written by one still needs its flushing read, which
goes once no other segment of its old window is in flight (R332). -/
def forgetQueues (sel : Nat → Bool) (d : Dev) : Dev :=
  let hs := (d.eyelets.filter fun e => e.2.flight.any fun s => sel s.q).map (·.1)
  { d with
    fns := mmap d.fns fun _ x => { x with
      reads := x.reads.filter fun r => !r.purpose.serves sel
      xq := x.xq.filter fun r => !r.serves.ofQueue sel
      xbad := x.xbad.filter fun w => !w.1.ofQueue sel }
    eyelets := mmap d.eyelets fun _ e =>
      { e with flight := e.flight.filter fun s => !sel s.q
               dirty := e.dirty || e.flight.any fun s => sel s.q && s.write } }
  |> each hs eyeletSettle

/-- The head of a queue once its held entries of the present run have been written (R129). -/
def Dev.headBehind (d : Dev) (o : Owner) (q : Nat) (x : Queue) : Queue := match d.cq o x.cq with
  | some c => (c.held.filter fun e => e.queue == q).foldl (fun y e => e.pass y) x
  | none => x

/-- Return a queue, and the completion ring that it owns, to NOT_CREATED: what it left in another ring's wait is not
written (R140). -/
def removeQueue (o : Owner) (q : Nat) (d : Dev) : Dev :=
  let d := match d.queue o q with
    | some x => updCq o x.cq (fun c => { c with held := c.held.filter fun e => e.queue != q, halts := c.halts.filter fun e => e.queue != q }) d
    | none => d
  { d with queues := mdel d.queues (qKey o q), cqs := mdel d.cqs (qKey o q) }

/-- The commands that waited for a halt reply (R130, R132). -/
def endReplies (o : Owner) (q head : Nat) (e : Ending) (d : Dev) : Dev :=
  let d := match e.stop with
    | some r => reply r stOk 0 [head] d
    | none => d
  match e.destroy with
  | some r => d |> removeQueue o q |> reply r stOk 0 []
  | none => d

/-- The queue halts now: HALT entry with the head position, QUEUE_HALT event; what was partly fetched is discarded, and a
stop that waited for this replies (R118, R129, R130). -/
def haltQueue (o : Owner) (q reason status : Nat) (d : Dev) : Dev := match d.queue o q with
  | none => d
  | some x =>
    let f := d.fnOf o
    d |> forgetQueues (· == qKey o q)
      |> updQueue o q (fun x => { x with halted := some reason, ending := none, fetching := [], chain := [],
                                         jobs := [], xfer := none, fetch := x.head })
      |> completeHalt o x.cq { tag := 0, index := 0, queue := q, len := posWord x.n (d.headBehind o q x).head, status := status,
                               detail := reason, type := 3 }
      |> fnEvent f 2 (d.localIdx o) q reason
      |> (match x.ending with | some e => endReplies o q (posWord x.n x.head) e | none => id)

/-- Entries of a queue that wait for room in its ring (R126). -/
def Dev.heldOf (d : Dev) (o : Owner) (q : Nat) (x : Queue) : Bool := match d.cq o x.cq with
  | some c => c.held.any fun e => e.queue == q
  | none => false

/-- A halt that waited for jobs in flight takes place once none is left; a stop waits for their entries too (R130). -/
def endIfIdle (o : Owner) (q : Nat) (d : Dev) : Dev := match d.queue o q with
  | none => d
  | some x => match x.ending with
    | none => d
    | some e => if x.busy || (e.reason == 4 && d.heldOf o q x) then d else haltQueue o q e.reason e.status d

/-- Fetch stops and the queue halts once its jobs in flight have ended; a halt already under way keeps its reason and
its commands. -/
def endQueue (o : Owner) (q : Nat) (e : Ending) (d : Dev) : Dev :=
  d |> dropReads (d.fnOf o) (.descriptors o q)
    |> updQueue o q (fun x => { x with ending := some (x.ending.getD e), fetching := [], chain := [] }) |> endIfIdle o q

/-- What waits for a completion ring is written as far as there is room, and halts that waited for it take place. -/
def cqRoom (o : Owner) (c : Nat) (d : Dev) : Dev :=
  let qs := (d.queues.filter fun e => e.1 / 8192 == ownerKey o && e.2.cq == c && e.2.ending.isSome).map fun e => e.1 % 8192
  d |> cqFlush o c |> each qs (endIfIdle o)

/-- The queues of an owner: numbers in ascending order. -/
def Dev.queuesOf (d : Dev) (o : Owner) : List Nat :=
  (d.queues.filter fun e => e.1 / 8192 == ownerKey o).map fun e => e.1 % 8192
def Dev.cqsOf (d : Dev) (o : Owner) : List Nat :=
  (d.cqs.filter fun e => e.1 / 8192 == ownerKey o).map fun e => e.1 % 8192

/-- The owners of a function: itself, then its slices in ascending local index. -/
def Dev.ownersOf (d : Dev) (f : Nat) : List Owner :=
  let s := d.slices.filter fun e => e.2.fn == f
  .function (fin 32 f) ::
    (((List.range 512).filterMap fun i => s.find? fun e => e.2.lidx == i).map fun e => Owner.slice (fin 4096 e.1))

/-- Every queue of an owner becomes NOT_CREATED, with its rings and whatever waits for them (R140). -/
def clearQueues (o : Owner) (d : Dev) : Dev :=
  let d := forgetQueues (fun k => k / 8192 == ownerKey o) d
  { d with queues := mkeep d.queues fun k _ => k / 8192 != ownerKey o
           cqs := mkeep d.cqs fun k _ => k / 8192 != ownerKey o }

/-- Halt every queue of an owner with a reason; for reason BME, entries held are discarded (R98, R129). -/
def haltOwner (o : Owner) (reason status : Nat) (d : Dev) : Dev :=
  d |> when (reason == 1) (fun d => each (d.cqsOf o) (fun c => updCq o c fun x => { x with held := [], stalled := false }) d)
    |> each (d.queuesOf o) (fun q d => match d.queue o q with
      | some x => if x.halted.isSome then d else haltQueue o q reason status d
      | none => d)

/-! ### Doorbells (R112, R113) -/

def dbErr (o : Owner) (d : Dev) : Dev := count (aFn (d.fnOf o) 0x4114) d

/-- An invalid doorbell write: ignored, counted and reported (R112). -/
def dbBad (o : Owner) (q : Nat) (v : Word) (d : Dev) : Dev :=
  d |> dbErr o |> fnEvent (d.fnOf o) 3 (d.localIdx o) q v.toNat

/-- Whether the owner exists, and so its doorbells. -/
def Dev.ownerExists (d : Dev) : Owner → Bool
  | .function f => d.fnExists f
  | .slice s => (d.slice s).isSome

def sqDbWrite (o : Owner) (q : Nat) (v : Word) (d : Dev) : Dev := match d.queue o q with
  | none => dbErr o d
  | some x =>
    if x.reason.isSome then d
    else match tailValid x.n x.head x.tail (wbits v 16 0) with
      | some p => updQueue o q (fun x => { x with tail := p }) d
      | none => dbBad o q v d

/-- SQ_DB_WRITE (R112, R113). -/
def execSqDbWrite (o : Owner) (q : Nat) (v : Word) (s : State) : Host.Outcome State Fault Refusal :=
  .next (s.through (s.dev.fnOf o) fun _ d => if d.ownerExists o then sqDbWrite o q v d else d)

def cqHeadWrite (o : Owner) (c : Nat) (v : Word) (d : Dev) : Dev := match d.cq o c with
  | none => dbErr o d
  | some x => match headValid x.n x.head x.wpos (wbits v 16 0) with
    | some p => d |> updCq o c (fun y => { y with head := p, stalled := y.stalled && p == x.head }) |> cqRoom o c
    | none => dbBad o c v d

/-- CQ_HEAD_WRITE (R113, R127). -/
def execCqHeadWrite (o : Owner) (c : Nat) (v : Word) (s : State) : Host.Outcome State Fault Refusal :=
  .next (s.through (s.dev.fnOf o) fun _ d => if d.ownerExists o then cqHeadWrite o c v d else d)

/-- A moderation timer reaches 0 (R128): at its due time, while it runs. -/
def moderationTimer (o : Owner) (c : Nat) (d : Dev) : Dev := match d.cq o c with
  | none => d
  | some x => match x.due with
    | some t => d |> timeTo t |> cqTrigger o c
    | none => d

/-- MODERATION_TIMER (R128). -/
def execModerationTimer (o : Owner) (c : Nat) (s : State) : Host.Outcome State Fault Refusal :=
  .next (s.onDev fun _ d => moderationTimer o c d)

/-! ### Order of fetch (R122) -/

/-- A participant: its identifier, weight, and whether it is eligible. -/
structure Part where
  id : Nat
  weight : Nat
  ok : Bool
deriving DecidableEq, Repr

/-- The participants before (and with) the one served have had their turn in this round. -/
def uptoServed : List Part → Nat → List Nat
  | [], _ => []
  | p :: r, i => if p.id = i then [p.id] else p.id :: uptoServed r i

/-- The next turn of weighted round robin from a position: the participant, the round, those passed in it. -/
def wrr (parts : List Part) (maxW : Nat) : Nat → Nat → List Nat → Option (Nat × Nat × List Nat)
  | 0, _, _ => none
  | fuel + 1, round, passed =>
    match parts.find? fun p => p.ok && p.weight ≥ round && !passed.contains p.id with
    | some p => some (p.id, round, uptoServed parts p.id)
    | none => wrr parts maxW fuel (if round ≥ maxW then 1 else round + 1) []

/-- Descriptors posted and not yet read. -/
def Queue.unread (q : Queue) : Nat := ringCount q.n q.fetch q.tail

/-- Posted descriptors that no read has asked for. -/
def Queue.unasked (q : Queue) : Nat := q.unread - (q.fetching.map (·.n)).sum

/-- Jobs fetched and not completed on a host die, those whose entries wait in the holding store included (R122, R126). -/
def Dev.jobsOnDie (d : Dev) (die : Nat) : Nat :=
  let on := fun (k : Nat) => dieOfLink (if k < 32 then k else ((d.slice (k - 64)).map (·.fn)).getD 0) == die
  ((d.queues.filter fun e => on (e.1 / 8192)).map (·.2.jobs.length)).sum +
    ((d.cqs.filter fun e => on (e.1 / 8192)).map (·.2.held.length)).sum

/-- R122: whether a queue is eligible. -/
def Dev.eligible (d : Dev) (o : Owner) (q : Nat) : Bool := match d.queue o q with
  | none => false
  | some x =>
    x.kind != .rx && x.reason.isNone && (x.unasked > 0 || !x.jobs.isEmpty) &&
    (match d.cq o x.cq with | some c => !c.full && !c.stalled | none => false) &&
    d.jobsOnDie (dieOfLink (d.fnOf o)) < 32768

/-- Whether an owner may fetch: requests allowed, no D3hot entry and no bind-off begun, and for a slice ACTIVE (R50, R95, R98,
R100, R459). -/
def Dev.fetches (d : Dev) (o : Owner) : Bool :=
  d.ownerMay o && !d.unbinding 3 (d.fnOf o) && (d.fn (d.fnOf o)).closing.isNone && (match o with | .function _ => true | .slice s => ((d.slice s).map (·.state)) == some .active)

def Dev.ownerWeight (d : Dev) : Owner → Nat
  | .function f => (d.fn f).weight
  | .slice s => ((d.slice s).map (·.weight)).getD 0

def Dev.eligibleOwner (d : Dev) (o : Owner) : Bool := d.fetches o && (d.queuesOf o).any (d.eligible o)

def maxWeight (l : List Part) : Nat := l.foldl (fun m p => max m p.weight) 0

/-- A descriptor read failed or came poisoned: the queue halts once its jobs in flight have ended (R92, R93, R129). -/
def fetchFailed (o : Owner) (q : Nat) (res : Read) (d : Dev) : Dev :=
  endQueue o q { reason := (match res with | .poisoned _ => 2 | _ => 3), status := readStatus res, since := d.time } d

/-- Ask for the queue's next descriptors: up to `k`. -/
def fetchDescs (o : Owner) (q k : Nat) (d : Dev) : Dev := match d.queue o q with
  | none => d
  | some x =>
    let n := min k x.unasked
    let f := d.fnOf o
    let p := d.pasidOf o
    if n = 0 then d
    else
      let t := (d.fn f).nextTag
      d |> newTag f (.descriptors o q) p
        |> updQueue o q (fun x => { x with fetching := x.fetching ++ [{ tag := t, n := n }] })
        |> each (ringRange x.base 32 x.n (x.fetch + (x.unread - x.unasked)) n) (fun a => hostRead f p a.1 a.2 t)
        |> fun d => match takeDenied f t d with | some d => fetchFailed o q .aborted d | none => d

/-- One turn of host link f: level 1 chooses an owner, level 2 its queue (R122). -/
def fetchTurn (f : Nat) (d : Dev) : Dev :=
  let os := d.ownersOf f
  let l1 := os.map fun o => (⟨ownerKey o, d.ownerWeight o, d.eligibleOwner o⟩ : Part)
  let x := d.fn f
  match wrr l1 (maxWeight l1) (maxWeight l1 + 1) x.round x.served with
  | none => d
  | some (k, round, passed) =>
    let d := updFn f (fun x => { x with round := round, served := passed }) d
    match os.find? fun o => ownerKey o == k with
    | none => d
    | some o =>
      let l2 := (d.queuesOf o).map fun q => (⟨q, ((d.queue o q).map (·.weight)).getD 0, d.eligible o q⟩ : Part)
      let y := d.owner o
      match wrr l2 (maxWeight l2) (maxWeight l2 + 1) y.round y.served with
      | none => d
      | some (q, round, passed) =>
        d |> updOwner o (fun y => { y with round := round, served := passed })
          |> fetchDescs o q (((d.queue o q).map (·.burst)).getD 0)

/-- FETCH_TURN (R122). -/
def execFetchTurn (f : Fin 32) (s : State) : Host.Outcome State Fault Refusal :=
  .next (s.onDev fun _ d => fetchTurn f d)

/-! ### Descriptors and chains (R114, R115, R117, R118) -/

def dOp (b : List Byte) : Nat := byteAt b 0
def dFirst (b : List Byte) : Bool := bit (byteAt b 1) 0
def dLast (b : List Byte) : Bool := bit (byteAt b 1) 1
def dLen (b : List Byte) : Nat := le b 2 2
def dTag (b : List Byte) : Nat := le b 4 4
def dAddr (b : List Byte) : Nat := le b 8 8

/-- The opcodes that a queue's kind allows (R115). -/
def kindAllows (k : QKind) (op : Nat) : Bool := match k with
  | .tx => op = 0 || op = 1
  | .rx => op = 2
  | .xfer => op = 0 || op = 3 || op = 4

/-- A reserved field of a descriptor that is not 0, or an MSS out of range: its offset (R114, R115). -/
def descReserved (b : List Byte) : Option Nat :=
  if bit (byteAt b 1) 5 || bit (byteAt b 1) 6 || bit (byteAt b 1) 7 then some 1
  else if !dFirst b then (if zeroAt b 16 16 then none else some 16)
  else if dOp b = 0 then (if zeroAt b 16 16 then none else some 16)
  else if dOp b = 1 then
    let mss := le b 16 2
    if bit (byteAt b 1) 3 && (mss < 64 || mss > 9216) then some 16
    else if bits (le b 20 4) 30 20 != 0 then some 20
    else if byteAt b 24 ≥ 8 then some 24
    else if !zeroAt b 25 7 then some 25
    else none
  else if zeroAt b 18 6 then none else some 18

/-- The checks of one descriptor of a job whose FIRST descriptor has opcode `op0` (R115, R117). -/
def descCheck (k : QKind) (op0 : Nat) (b : List Byte) : Option (Nat × Nat) :=
  if !kindAllows k (dOp b) || dOp b != op0 then some (stBadOpcode, 0)
  else match descReserved b with
    | some o => some (stBadParam, o)
    | none => if dLen b = 0 then some (stBadLength, 2) else none

/-- Bytes of a job. -/
def jobLen (ds : List (List Byte)) : Nat := ds.foldl (fun n b => n + dLen b) 0

/-- Whether a TX job names a context beyond its owner's quota; a function's own queues hold none (R48, R315). -/
def Dev.ctxDenied (d : Dev) (o : Owner) (b : List Byte) : Bool :=
  let c := le b 20 4
  dOp b == 1 && bit c 31 && (match o with
    | .function _ => true
    | .slice s => match d.slice s with | some x => bits c 19 0 ≥ x.cLen | none => true)

/-- The checks of a whole chain: its descriptors in order, then the job's length, then quotas (R115). -/
def jobCheck (o : Owner) (k : QKind) (ds : List (List Byte)) (d : Dev) : Option (Nat × Nat) :=
  let b := ds.headD []
  match ds.findSome? (descCheck k (dOp b)) with
  | some x => some x
  | none =>
    let n := jobLen ds
    let tso := bit (byteAt b 1) 3
    if dOp b = 1 && !tso && (n < 14 || n > 16379) then some (stBadLength, 2)
    else if dOp b = 1 && tso && n > 262144 then some (stBadLength, 2)
    else if d.ctxDenied o b then some (stDenied, 20)
    else if k == .xfer && dOp b ≥ 3 && (match o with | .function _ => true | .slice _ => false) then some (stDenied, 16)
    else none

/-- The completion type of a queue's kind (R119). -/
def kindType : QKind → Nat
  | .tx => 0
  | .rx => 1
  | .xfer => 2

/-- Complete the oldest job of a queue with a status; `data` names the writes that translation may still refuse. -/
def endJobData (data : Option Nat) (o : Owner) (q status detail len : Nat) (d : Dev) : Dev := match d.queue o q with
  | none => d
  | some x => match x.jobs with
    | [] => d
    | j :: r =>
      d |> updQueue o q (fun x => { x with jobs := r, xfer := none })
        |> when (status == stDenied && detail == 20 && ownerKey o ≥ 64) (count (aPl (plOfLink (d.fnOf o)) + 0x2504))
        |> complete o x.cq { tag := dTag (j.descs.headD []), index := j.last, queue := q, len := len, status := status,
                             detail := detail, type := kindType x.kind, run := x.run, data := data }

def endJob := endJobData none

/-- Jobs at the front that need no data complete: faulty ones, and NOPs (R115). -/
def drainJobs (o : Owner) (q : Nat) : Nat → Dev → Dev
  | 0, d => d
  | k + 1, d => match d.queue o q with
    | none => d
    | some x => match x.jobs with
      | [] => d
      | j :: _ => match j.fault with
        | some (st, det) => drainJobs o q k (endJob o q st det 0 d)
        | none => if dOp (j.descs.headD []) = 0 then drainJobs o q k (endJob o q stOk 0 0 d) else d

/-- Everything at the front of a queue that can end now, and a halt that waited for it. -/
def settleQueue (o : Owner) (q : Nat) (d : Dev) : Dev := match d.queue o q with
  | none => d
  | some x => d |> drainJobs o q (x.jobs.length + 1) |> endIfIdle o q

/-- One descriptor is read: a broken chain ends, an open one grows, a whole one becomes a job (R117, R118). -/
def takeDesc (o : Owner) (k : QKind) (i : Nat) (b : List Byte) (d : Dev) (q : Queue) : Queue :=
  let n := q.n
  let prev := (i + n - 1) % n
  let q := if dFirst b && !q.chain.isEmpty then
      { q with jobs := q.jobs ++ [{ descs := q.chain, last := prev, fault := some (stBadParam, 1) }], chain := [] }
    else q
  if q.chain.isEmpty && !dFirst b then
    { q with jobs := q.jobs ++ [{ descs := [b], last := i, fault := some (stBadParam, 1) }] }
  else
    let c := q.chain ++ [b]
    if dLast b then { q with jobs := q.jobs ++ [{ descs := c, last := i, fault := jobCheck o k c d }], chain := [] }
    else if c.length = 64 then
      { q with jobs := q.jobs ++ [{ descs := c, last := i, fault := some (stBadLength, 1) }], chain := [] }
    else { q with chain := c }

/-- Descriptors are taken in ring order: those of the oldest read, as far as they have come whole. -/
def takeDescs (o : Owner) (q : Nat) : Nat → Dev → Dev
  | 0, d => d
  | k + 1, d => match (d.queue o q).bind fun x => (x.fetching.head?).map fun g => (x, g) with
    | none => d
    | some (_, g) =>
      let n := min g.n (g.got.length / 32)
      let d := each (List.range n) (fun j d =>
        updQueue o q (fun x =>
          let y := takeDesc o x.kind (x.fetch % x.n) (bytesAt g.got (32 * j) 32) d x
          { y with fetch := ringAdd x.n x.fetch 1 }) d) d
      let left := { g with n := g.n - n, got := g.got.drop (32 * n) }
      let d := updQueue o q (fun x => { x with fetching := (if n = g.n then [] else [left]) ++ x.fetching.tail }) d
      if n < g.n then d else d |> dropTag (d.fnOf o) g.tag |> takeDescs o q k

/-- Descriptors of a read arrive (R115, R117), as many as `data` holds whole: the read stands until all have come. An
open chain is fetched to its end (R122). -/
def descsArrive (o : Owner) (q tag : Nat) (data : List Byte) (d : Dev) : Dev := match d.queue o q with
  | none => d
  | some x =>
    let d := updQueue o q (fun x => { x with fetching := x.fetching.map fun g =>
      if g.tag = tag then { g with got := g.got ++ data } else g }) d
    let d := takeDescs o q x.fetching.length d
    let open' := match d.queue o q with
      | some x => !x.chain.isEmpty && x.unread > 0 && x.fetching.isEmpty
      | none => false
    d |> when open' (fetchDescs o q 1) |> settleQueue o q

end Sys2Proof.Machine
end

