-- ==== Sys2Proof/Machine/Queues.lean ====
section
/-!
DEFINITION. The queue commands of 05_queues.md, the pools' contiguous blocks (R43, R47), and the event rings that
software owns: the function event queue (R137), the manager event ring (R35), the device exception ring (R264).
-/
namespace Sys2Proof.Machine

/-! ### Contiguous blocks (R43, R47) -/

/-- Whether [b, b+n) meets none of the blocks and lies within the pool. -/
def blockFits (size b n : Nat) (blocks : List (Nat × Nat)) : Bool :=
  b + n ≤ size && blocks.all fun x => x.2 == 0 || b + n ≤ x.1 || x.1 + x.2 ≤ b

/-- First fit: the lowest base from which enough consecutive free numbers follow. -/
def firstFit (size n : Nat) (blocks : List (Nat × Nat)) : Option Nat :=
  let c := (0 :: blocks.map fun x => x.1 + x.2).filter fun b => blockFits size b n blocks
  c.foldl (fun m b => match m with | none => some b | some x => some (min x b)) none

/-- A block resized in a pool: its base; none when the pool falls short or it cannot grow in place. -/
def resize (size : Nat) (others : List (Nat × Nat)) (base len n : Nat) : Option Nat :=
  if n = 0 then some 0
  else if len = 0 then firstFit size n others
  else if n ≤ len then some base
  else if blockFits size (base + len) (n - len) others then some base else none

/-- Blocks of the queue pool, those of slices other than `s` and of functions other than `f`. -/
def Dev.queueBlocks (d : Dev) (s : Option Nat) (f : Option Nat) : List (Nat × Nat) :=
  ((d.slices.filter fun e => some e.1 != s).map fun e => (e.2.qBase, e.2.qLen)) ++
  ((d.fns.filter fun e => e.1 < 32 && some e.1 != f).map fun e => (e.2.qBase, e.2.qLen))

/-- The highest number in use, plus 1. -/
def topOf (l : List Nat) : Nat := l.foldl (fun m q => max m (q + 1)) 0

/-- FUNCTION_QUEUES_SET (R110). -/
def functionQueuesSet (r : Ring) (b : List Byte) (d : Dev) : Dev :=
  let f := byteAt b 0
  let n := le b 2 2
  let x := d.fn f
  checks r [bad (f ≥ 32) 0, if d.fnExists f then none else some (stBadParam, 0x200), bad (byteAt b 1 == 0) 1,
            bad (n > 4096) 2, bad (n < topOf (d.queuesOf (.function (fin 32 f)))) 2] (fun d =>
    match resize 1048576 (d.queueBlocks none (some f)) x.qBase x.qLen n with
    | none => reply r stNoResource 1 [] d
    | some base =>
      d |> updFn f (fun x => { x with weight := byteAt b 1, qBase := base, qLen := n }) |> reply r stOk 0 [0, base]) d

/-- FUNCTION_QUEUES_SET (R110). -/
def execFunctionQueuesSet (r : Ring) (p : Read) (s : State) : Host.Outcome State Fault Refusal :=
  .next (s.onDev fun _ d => command r 0x0120 p (fun _ b d => functionQueuesSet r b d) d)

/-! ### Queue commands (R132) -/

/-- The owner's queue quota. -/
def Dev.queueQuota (d : Dev) : Owner → Nat
  | .function f => (d.fn f).qLen
  | .slice s => ((d.slice s).map (·.qLen)).getD 0

/-- A number beyond the owner's quota: DENIED; beyond a slice's it counts in SLICE_DENIED (R30, R48). -/
def quotaDenied (r : Ring) (o : Owner) (det : Nat) (d : Dev) : Dev :=
  d |> (match o with | .slice _ => countDenied (d.fnOf o) | .function _ => id) |> reply r stDenied det []

/-- A vector that a ring may name: one of the function's 2,048, or below the slice's COUNT (R128). With COUNT 0 no vector
may be named, so that a ring of the slice is neither created nor moderated (DEDUCED, log 151). -/
def Dev.vectorOk (d : Dev) (o : Owner) (v : Nat) : Bool := match o with
  | .function _ => v < 2048
  | .slice s => match d.slice s with | some x => v < x.vecCount | none => false

/-- Whether a queue may own a completion ring (R109). -/
def mayOwnCq (o : Owner) (q : Nat) : Bool := match o with
  | .function _ => q < 2048
  | .slice _ => q < 4096

/-- The field faults of QUEUE_CREATE, in ascending offset (R132). -/
def createFaults (o : Owner) (q : Nat) (b : List Byte) (d : Dev) : List (Option (Nat × Nat)) :=
  let fl := byteAt b 3
  let own := bit fl 0
  let cl := byteAt b 5
  [bad (byteAt b 2 == 0 || byteAt b 2 > 3) 2,
   bad (fl / 16 != 0 || (own && !mayOwnCq o q) || (!own && bit fl 3)) 3,
   bad (byteAt b 4 < 6 || byteAt b 4 > 16) 4,
   bad (if own then cl < 6 || cl > 16 else cl != 0) 5,
   bad (byteAt b 6 == 0) 6, bad (byteAt b 7 == 0 || byteAt b 7 > 64) 7,
   bad (le b 8 8 % 4096 != 0) 8,
   bad (if own then le b 16 8 % 4096 != 0 else le b 16 8 != 0) 16,
   bad (if own then le b 24 2 != 0 else !mayOwnCq o (le b 24 2) || (d.cq o (le b 24 2)).isNone) 24,
   bad (if own then !d.vectorOk o (le b 26 2) else le b 26 2 != 0) 26,
   bad (!own && byteAt b 28 != 0) 28, bad (byteAt b 29 != 0) 29,
   bad (if own then le b 30 2 > 2047 else le b 30 2 != 0) 30,
   bad (!zeroAt b 36 28) 36]

/-- The queue that QUEUE_CREATE makes: RUNNING and empty at position 0. -/
def newQueue (q : Nat) (b : List Byte) : Queue :=
  { kind := if byteAt b 2 = 1 then .tx else if byteAt b 2 = 2 then .rx else .xfer
    rxMeta := bit (byteAt b 3) 1, spill := bit (byteAt b 3) 2, log2 := byteAt b 4, base := le b 8 8
    weight := byteAt b 6, burst := byteAt b 7, cq := if bit (byteAt b 3) 0 then q else le b 24 2
    spillLimit := le b 32 4 }

/-- Its own completion ring, if any: from position 0 with phase 1. -/
def newCq (b : List Byte) : Cq :=
  { base := le b 16 8, log2 := byteAt b 5, count := byteAt b 28, timer := le b 30 2, vector := le b 26 2,
    intEn := bit (byteAt b 3) 3 }

def queueCreate (r : Ring) (o : Owner) (b : List Byte) (d : Dev) : Dev :=
  let q := le b 0 2
  if q ≥ d.queueQuota o then quotaDenied r o 0 d
  else checks r (createFaults o q b d ++ [if (d.queue o q).isSome then some (stExists, 0) else none]) (fun d =>
    let d := { d with queues := mput d.queues (qKey o q) (newQueue q b) }
    let d := if bit (byteAt b 3) 0 then { d with cqs := mput d.cqs (qKey o q) (newCq b) } else d
    reply r stOk 0 [] d) d

/-- Run a queue command for the owner that it acts on; a manager ring never carries one (R132). -/
def queueCmd (r : Ring) (op : Nat) (p : Read) (f : Owner → List Byte → Dev → Dev) (d : Dev) : Dev :=
  command r op p (fun e b d => match cmdOwner r e with
    | some o => f o b d
    | none => reply r stDenied 0 [] d) d

/-- QUEUE_CREATE (R132). -/
def execQueueCreate (r : Ring) (p : Read) (s : State) : Host.Outcome State Fault Refusal :=
  .next (s.onDev fun _ d => queueCmd r 0x0201 p (queueCreate r) d)

/-- A command on a created queue within the quota: DENIED, BAD_PARAM for the reserved bytes, NOT_FOUND, or `go`. That
BAD_PARAM comes before NOT_FOUND is the model's choice (DESIGN CHOICE, log 151). -/
def onQueue (r : Ring) (o : Owner) (b : List Byte) (go : Nat → Queue → Dev → Dev) (d : Dev) : Dev :=
  let q := le b 0 2
  if q ≥ d.queueQuota o then quotaDenied r o 0 d
  else if !zeroAt b 2 2 then reply r stBadParam 2 [] d
  else match d.queue o q with
    | none => reply r stNotFound 0 [] d
    | some x => go q x d

/-- Whether another queue of the owner is bound to completion ring c. -/
def Dev.cqShared (d : Dev) (o : Owner) (c : Nat) : Bool :=
  (d.queuesOf o).any fun q => q != c && ((d.queue o q).map (·.cq)) == some c

def queueDestroy (r : Ring) (o : Owner) (q : Nat) (x : Queue) (d : Dev) : Dev :=
  if d.cqShared o q then reply r stBadParam 0x101 [] d
  else match x.halted, x.ending with
    | some _, _ => d |> removeQueue o q |> reply r stOk 0 []
    | none, some e => d |> begin' r |> endQueue o q { e with destroy := some r }
    | none, none => d |> begin' r |> endQueue o q { reason := 4, status := stOk, since := d.time, destroy := some r }

/-- QUEUE_DESTROY (R132). -/
def execQueueDestroy (r : Ring) (p : Read) (s : State) : Host.Outcome State Fault Refusal :=
  .next (s.onDev fun _ d => queueCmd r 0x0202 p (fun o b => onQueue r o b (queueDestroy r o)) d)

def queueStop (r : Ring) (o : Owner) (q : Nat) (x : Queue) (d : Dev) : Dev :=
  if x.reason.isSome then reply r stOk 0 [posWord x.n x.head] d
  else d |> begin' r |> endQueue o q { reason := 4, status := stOk, since := d.time, stop := some r }

/-- QUEUE_STOP (R130). -/
def execQueueStop (r : Ring) (p : Read) (s : State) : Host.Outcome State Fault Refusal :=
  .next (s.onDev fun _ d => queueCmd r 0x0203 p (fun o b => onQueue r o b (queueStop r o)) d)

/-- Bytes of an eyelet job that segments moved (R337). -/
def xferMoved (x : Xfer) : Nat :=
  x.segs.foldl (fun n s => if s.status == some stOk || s.status == some stPoisoned then n + s.bytes else n) 0

/-- Abort every job in flight with a status, in order (R130, R51). -/
def abortJobs (o : Owner) (q status : Nat) : Nat → Dev → Dev
  | 0, d => d
  | k + 1, d => match d.queue o q with
    | none => d
    | some x => if x.jobs.isEmpty then d
      else abortJobs o q status k (endJob o q status 0 ((x.xfer.map xferMoved).getD 0) d)

/-- 100 µs after the stop began, jobs still in flight are aborted (R130). -/
def queueStopAbort (o : Owner) (q : Nat) (d : Dev) : Dev := match d.queue o q with
  | none => d
  | some x => match x.ending with
    | none => d
    | some e => d |> timeTo (e.since + 100000) |> abortJobs o q stAborted x.jobs.length |> endIfIdle o q

/-- QUEUE_STOP_ABORT (R130). -/
def execQueueStopAbort (o : Owner) (q : Nat) (s : State) : Host.Outcome State Fault Refusal :=
  .next (s.onDev fun _ d => queueStopAbort o q d)

/-- QUEUE_START on a queue whose halt still waits for jobs in flight waits for it too (log 6). -/
def queueStart (r : Ring) (o : Owner) (b : List Byte) (q : Nat) (x : Queue) (d : Dev) : Dev :=
  if x.ending.isSome then d
  else
    let h := le b 4 4
    checks r [if x.halted.isNone then some (stBadParam, 0x100) else none,
              bad (h / 2 ^ 17 != 0 || (posOf x.n h).isNone) 4,
              if x.halted == some 1 && !(d.fn (d.fnOf o)).bme then some (stDenied, 0) else none] (fun d =>
      let p := (posOf x.n h).getD 0
      d |> updQueue o q (fun x => { x with halted := none, head := p, tail := p, fetch := p, run := x.run + 1 }) |> reply r stOk 0 []) d

/-- BME_HALT is 1 while a queue halted by a BME clear has not been restarted (FN_STATUS2). -/
def bmeHaltUpdate (f : Nat) (d : Dev) : Dev :=
  let left := (d.ownersOf f).any fun o => (d.queuesOf o).any fun q => (d.queue o q).any fun x => x.halted == some 1
  updFn f (fun x => { x with bmeHalt := x.bmeHalt && left }) d

/-- QUEUE_START (R131). -/
def execQueueStart (r : Ring) (p : Read) (s : State) : Host.Outcome State Fault Refusal :=
  .next (s.onDev fun _ d => queueCmd r 0x0204 p (fun o b d =>
    d |> onQueue r o b (queueStart r o b) |> bmeHaltUpdate (d.fnOf o)) d)

/-- The result words of QUEUE_QUERY; the counts are cleared (R132). -/
def queueWords (d : Dev) (o : Owner) (q : Nat) (x : Queue) : List Nat :=
  let st := if x.reason.isSome then 2 else 1
  let stall := match d.cq o x.cq with | some c => c.stalled | none => false
  let own := match d.cq o q with | some c => if x.cq = q then posWord c.n c.wpos else 0 | none => 0
  [st + x.reason.getD 0 * 256 + b2n stall * 65536, posWord x.n x.head, posWord x.n x.tail, own,
   x.noBuf + x.cqFull * 65536, x.haltedDrops + x.stalls * 65536]

def queueQuery (r : Ring) (o : Owner) (b : List Byte) (d : Dev) : Dev :=
  let q := le b 0 2
  if q ≥ d.queueQuota o then quotaDenied r o 0 d
  else if !zeroAt b 2 2 then reply r stBadParam 2 [] d
  else match d.queue o q with
    | none => reply r stOk 0 [0, 0, 0, 0, 0, 0] d
    | some x =>
      d |> updQueue o q (fun x => { x with noBuf := 0, cqFull := 0, haltedDrops := 0, stalls := 0 })
        |> reply r stOk 0 (queueWords d o q x)

/-- QUEUE_QUERY (R132). -/
def execQueueQuery (r : Ring) (p : Read) (s : State) : Host.Outcome State Fault Refusal :=
  .next (s.onDev fun _ d => queueCmd r 0x0205 p (queueQuery r) d)

/-- What CQ_MODERATE does: DENIED, the field faults, NOT_FOUND, in an order of the model's (DESIGN CHOICE, log 151). -/
def cqModerateCmd (r : Ring) (o : Owner) (b : List Byte) (d : Dev) : Dev :=
  let c := le b 0 2
  if c ≥ d.queueQuota o then quotaDenied r o 0 d
  else checks r [bad (byteAt b 3 / 2 != 0) 3, bad (le b 4 2 > 2047) 4, bad (!d.vectorOk o (le b 6 2)) 6,
                 if !mayOwnCq o c || (d.cq o c).isNone then some (stNotFound, 0) else none] (fun d =>
    d |> updCq o c (fun x => { x with staged := some (byteAt b 2, le b 4 2, le b 6 2, bit (byteAt b 3) 0) })
      |> reply r stOk 0 []) d

/-- CQ_MODERATE (R128, R132). -/
def execCqModerate (r : Ring) (p : Read) (s : State) : Host.Outcome State Fault Refusal :=
  .next (s.onDev fun _ d => queueCmd r 0x0206 p (cqModerateCmd r) d)

/-- The fault of indirection entry i: a reserved bit, or VALID with a queue other than an RX queue (R134). -/
def rssEntryFault (d : Dev) (o : Owner) (b : List Byte) (i : Nat) : Option (Nat × Nat) :=
  let e := le b (48 + 2 * i) 2
  bad (bits e 14 13 != 0 || (bit e 15 && ((d.queue o (bits e 12 0)).map (·.kind)) != some .rx)) (48 + 2 * i)

def rssSet (r : Ring) (o : Owner) (b : List Byte) (d : Dev) : Dev :=
  checks r ([bad (le b 0 2 / 64 != 0) 0, bad (!zeroAt b 2 2) 2, bad (!zeroAt b 44 4) 44] ++
            (List.range 256).map (rssEntryFault d o b)) (fun d =>
    let tbl := (List.range 256).foldl (fun m i => mset 0 m i (le b (48 + 2 * i) 2)) []
    d |> updOwner o (fun x => { x with rssFields := le b 0 2, rssKey := bytesAt b 4 40, rssTable := tbl })
      |> reply r stOk 0 []) d

/-- RSS_SET (R134). -/
def execRssSet (r : Ring) (p : Read) (s : State) : Host.Outcome State Fault Refusal :=
  .next (s.onDev fun _ d => queueCmd r 0x0207 p (rssSet r) d)

/-- The slice of function f with a local index. -/
def Dev.sliceAt (d : Dev) (f i : Nat) : Option (Nat × Slice) := d.slices.find? fun e => e.2.fn == f && e.2.lidx == i

def sliceVectors (r : Ring) (f : Nat) (b : List Byte) (d : Dev) : Dev :=
  let base := le b 2 2
  let n := le b 4 2
  match d.sliceAt f (le b 0 2) with
  | none => reply r stNotFound 0 [] d
  | some (s, x) =>
    if x.state = .closing then reply r stNotFound 0 [] d
    else if !zeroAt b 6 2 then reply r stBadParam 6 [] d
    else if n > 2048 || base + n > 2048 then reply r stBadParam 2 [] d
    else
      let meets := (List.range 512).find? fun i => match d.sliceAt f i with
        | some (t, y) => t != s && n != 0 && y.vecCount != 0 && base < y.vecBase + y.vecCount && y.vecBase < base + n
        | none => false
      match meets with
      | some i => reply r stBadParam 0x100 [i] d
      | none => d |> updSlice s (fun x => { x with vecBase := base, vecCount := n }) |> reply r stOk 0 []

/-- SLICE_VECTORS (R133). -/
def execSliceVectors (r : Ring) (p : Read) (s : State) : Host.Outcome State Fault Refusal :=
  .next (s.onDev fun _ d => command r 0x0208 p (fun _ b d => match r with
    | .function f => sliceVectors r f b d
    | _ => reply r stDenied 0 [] d) d)

/-! ### Event rings that software owns -/

def feqCtrlWrite (f : Nat) (v : Word) (d : Dev) : Dev :=
  let x := (d.fn f).feq
  let y := ({ x with vector := wbits v 10 0 }.setLog (wbits v 28 24) (ringLog 6 6 (wbits v 28 24))).setEnable (v.getLsbD 31)
  d |> updFn f (fun x => { x with feq := y }) |> feqLostFirst f

/-- FEQ_CTRL_WRITE (R137). -/
def execFeqCtrlWrite (f : Fin 32) (v : Word) (s : State) : Host.Outcome State Fault Refusal :=
  .next (s.through (f : Nat) fun _ d => if d.fnExists f then feqCtrlWrite f v d else d)

def feqHeadWrite (f : Nat) (v : Word) (d : Dev) : Dev :=
  let x := (d.fn f).feq
  match headValid x.n x.head x.wpos (wbits v 16 0) with
  | some p => d |> updFn f (fun y => { y with feq := { y.feq with head := p } }) |> feqLostFirst f
  | none => count (aFn f 0x4114) d

/-- FEQ_HEAD_WRITE (R137). -/
def execFeqHeadWrite (f : Fin 32) (v : Word) (s : State) : Host.Outcome State Fault Refusal :=
  .next (s.through (f : Nat) fun _ d => if d.fnExists f then feqHeadWrite f v d else d)

def mevCtrlWrite (v : Word) (d : Dev) : Dev :=
  let x := d.mev
  let y := ({ x with vector := wbits v 5 0 }.setLog (wbits v 28 24) (ringLog 6 8 (wbits v 28 24))).setEnable (v.getLsbD 31)
  mevLostFirst { d with mev := y }

/-- MEV_CTRL_WRITE (R35). -/
def execMevCtrlWrite (q : Requester) (v : Word) (s : State) : Host.Outcome State Fault Refusal :=
  .next (s.atRegAll q 0x308 fun _ d => mevCtrlWrite v d)

def mevHeadWrite (v : Word) (d : Dev) : Dev :=
  let x := d.mev
  match headValid x.n x.head x.wpos (wbits v 16 0) with
  | some p => mevLostFirst { d with mev := { x with head := p } }
  | none => badAccess d

/-- MEV_HEAD_WRITE (R35). -/
def execMevHeadWrite (q : Requester) (v : Word) (s : State) : Host.Outcome State Fault Refusal :=
  .next (s.atRegAll q 0x30C fun _ d => mevHeadWrite v d)

/-- EXC_CTRL: LOG2 6-14, other values taken as 6 (R264). -/
def excCtrlWrite (v : Word) (d : Dev) : Dev :=
  let n := wbits v 3 0
  { d with exc := (d.exc.setLog n (if n = 15 then 6 else ringLog 6 6 n)).setEnable (v.getLsbD 31) }

/-- EXC_CTRL_WRITE (R264). -/
def execExcCtrlWrite (q : Requester) (v : Word) (s : State) : Host.Outcome State Fault Refusal :=
  .next (s.atRegAll q 0xD803018 fun _ d => excCtrlWrite v d)

/-- EXC_HEAD: as CQ_HEAD for the device exception ring (R264). -/
def excHeadWrite (v : Word) (d : Dev) : Dev :=
  let x := d.exc
  match headValid x.n x.head x.wpos (wbits v 16 0) with
  | some p => { d with exc := { x with head := p } }
  | none => badAccess d

/-- EXC_HEAD_WRITE (R264). -/
def execExcHeadWrite (q : Requester) (v : Word) (s : State) : Host.Outcome State Fault Refusal :=
  .next (s.atRegAll q 0xD80301C fun _ d => excHeadWrite v d)

end Sys2Proof.Machine
end

