-- ==== Sys2Proof/Machine/Eyelets.lean ====
section
/-!
DEFINITION. Eyelet windows between hosts (14_eyelet_windows.md).
-/
namespace Sys2Proof.Machine

/-! ### Windows (R327, R328) -/

/-- A handle that may be issued: not exported, and freed at least 1 s ago, if it was ever used. -/
def Dev.handleFree (d : Dev) (h : Nat) : Bool :=
  (d.eyelet h).isNone && d.freed.all fun e => e.1 != h || d.time ≥ e.2 + 1000000000

/-- The free handle that has been free longest: one never used, any of them (log 21), else the oldest freed. -/
def nextHandle (d : Dev) : Option Nat × Dev :=
  let used := d.eyelets.map (·.1) ++ d.freed.map (·.1)
  if used.length < 65536 then pickFree 65536 used.contains d
  else ((d.freed.find? fun e => d.handleFree e.1).map (·.1), d)

/-- The window that a parameter block describes (R330). -/
def windowOf (b : List Byte) : Window :=
  { base := le b 0 8, len := le b 8 8, perm := byteAt b 16,
    importers := (List.range (byteAt b 17)).map fun i => le b (24 + 2 * i) 2 }

/-- The field faults of R330, in ascending offset; `exp` is EYELET_EXPORT, whose HANDLE is reserved. -/
def windowFaults (exp : Bool) (b : List Byte) : List (Option (Nat × Nat)) :=
  [bad (le b 0 8 % 4096 != 0) 0, bad (le b 8 8 % 4096 != 0 || le b 8 8 == 0 || le b 8 8 > 2 ^ 40) 8,
   bad (byteAt b 16 == 0 || byteAt b 16 > 3) 16, bad (byteAt b 17 == 0 || byteAt b 17 > 16) 17,
   bad (exp && le b 18 2 != 0) 18, bad (!zeroAt b 20 4) 20] ++
  ((List.range 16).map fun i => bad (i ≥ byteAt b 17 && le b (24 + 2 * i) 2 != 0) (24 + 2 * i)) ++
  [bad (!zeroAt b 56 8) 56]

/-- An importer that names no slice, or a CLOSING one (R331). -/
def importerFaults (b : List Byte) (d : Dev) : List (Option (Nat × Nat)) :=
  (List.range (min 16 (byteAt b 17))).map fun i =>
    bad (match d.slice (le b (24 + 2 * i) 2) with | none => true | some x => x.state == .closing) (24 + 2 * i)

/-- The exporter that a command acts for, and the answer where there is none (R331). -/
def withExporter (r : Ring) (e : Exec) (go : Nat → Dev → Dev) (d : Dev) : Dev :=
  if e.slice < 4096 then go e.slice d
  else match r with
    | .manager => reply r stBadParam 0x8008 [] d
    | _ => reply r stDenied 0x200 [] d

/-- Eyelets that a slice exports. -/
def Dev.eyeletsOf (d : Dev) (s : Nat) : List Nat :=
  (d.eyelets.filter fun e => e.2.exporter == s).map (·.1)

/-- Stage a window rewrite on both host dies (R332). -/
def stageWindow (h : Nat) (w : Option Window) (r : Option Ring) (d : Dev) : Dev :=
  d |> updEyelet h (fun y => { y with rewrite := some { ring := r, withdraw := w.isNone } })
    |> stage (.window h w) []

def eyeletExport (r : Ring) (s : Nat) (b : List Byte) (d : Dev) : Dev :=
  let quota := ((d.slice s).map (·.eyelets)).getD 0
  checks r (windowFaults true b ++ importerFaults b d ++
      [if (d.eyeletsOf s).length ≥ quota then some (stNoResource, 5) else none]) (fun d =>
    let p := nextHandle d
    match p.1 with
    | none => d
    | some h =>
      let d := p.2
      let d := { d with eyelets := mput d.eyelets h { exporter := s }, freed := d.freed.filter (·.1 != h) }
      d |> stageWindow h (some (windowOf b)) (some r) |> begin' r) d

/-- EYELET_EXPORT (R330, R332). -/
def execEyeletExport (r : Ring) (p : Read) (s : State) : Host.Outcome State Fault Refusal :=
  .next (s.onDev fun _ d => command r 0x0801 p (fun e b => withExporter r e fun s => eyeletExport r s b) d)

/-- A command on an eyelet that this slice exports; it waits while a rewrite of the eyelet runs (log 22). -/
def onEyelet (r : Ring) (s h : Nat) (faults : List (Option (Nat × Nat))) (go : Eyelet → Dev → Dev) (d : Dev) : Dev :=
  match d.eyelet h with
  | none => reply r stNotFound 0 [] d
  | some y => if y.exporter != s then reply r stNotFound 0 [] d else checks r faults (go y) d

/-- EYELET_REWRITE (R330, R332). -/
def execEyeletRewrite (r : Ring) (p : Read) (s : State) : Host.Outcome State Fault Refusal :=
  .next (s.onDev fun _ d => command r 0x0802 p (fun e b => withExporter r e fun s d =>
    let h := le b 18 2
    onEyelet r s h (windowFaults false b ++ importerFaults b d) (fun y d =>
      if y.rewrite.isSome then d
      else d |> stageWindow h (some (windowOf b)) (some r) |> begin' r) d) d)

/-- EYELET_WITHDRAW (R330, R332). -/
def execEyeletWithdraw (r : Ring) (p : Read) (s : State) : Host.Outcome State Fault Refusal :=
  .next (s.onDev fun _ d => command r 0x0803 p (fun e b => withExporter r e fun s d =>
    let h := le b 0 2
    onEyelet r s h [bad (!zeroAt b 2 2) 2] (fun y d =>
      if y.rewrite.isSome then d
      else d |> stageWindow h none (some r) |> begin' r) d) d)

/-- The definition as R330 lays it out, HANDLE filled (R333). -/
def windowBytes (h : Nat) (w : Window) : List Byte :=
  leBytes 8 w.base ++ leBytes 8 w.len ++ leBytes 1 w.perm ++ leBytes 1 w.importers.length ++ leBytes 2 h ++ leBytes 4 0 ++
  padTo 32 ((w.importers.map (leBytes 2)).flatten) ++ leBytes 8 0

def eyeletQuery (r : Ring) (h out : Nat) (y : Eyelet) (d : Dev) : Dev :=
  let w := y.win.getD { base := 0, len := 0, perm := 0, importers := [] }
  d |> ringData r [(out, windowBytes h w)]
    |> reply r stOk 0 [y.exporter + w.perm * 2 ^ 16 + w.importers.length * 2 ^ 24, y.flight.length,
                       lo32 y.apply, hi32 y.apply, lo32 y.moved, hi32 y.moved]

/-- EYELET_QUERY (R333). -/
def execEyeletQuery (r : Ring) (p : Read) (s : State) : Host.Outcome State Fault Refusal :=
  .next (s.onDev fun _ d => command r 0x0804 p (fun e b => withExporter r e fun s =>
    onEyelet r s (le b 0 2) [bad (!zeroAt b 2 6) 2, bad (le b 8 8 % 64 != 0) 8]
      (eyeletQuery r (le b 0 2) (le b 8 8))) d)

/-! ### A rewrite's end (R332) -/

/-- The rewrite ends: its reply, and a withdrawn handle is free from now on. -/
def rewriteReply (h : Nat) (d : Dev) : Dev := match d.eyelet h with
  | none => d
  | some y => match y.rewrite with
    | none => d
    | some w =>
      if !w.applied || w.flush || y.flight.any (·.old) then d
      else
        let d := match w.ring with
          | some r => reply r stOk 0 [h, 0, 0, 0, lo32 y.apply, hi32 y.apply] d
          | none => d
        if w.withdraw then { d with eyelets := mdel d.eyelets h, freed := d.freed ++ [(h, d.time)] }
        else updEyelet h (fun y => { y with rewrite := none }) d

/-- EYELET_REWRITE_REPLY (R332). -/
def execEyeletRewriteReply (h : Fin 65536) (s : State) : Host.Outcome State Fault Refusal :=
  .next (s.onDev fun _ d => rewriteReply h d)

/-! ### Segments (R335, R336) -/

/-- The window range of segment k of a job. -/
def Xfer.lo (x : Xfer) (k : Nat) : Nat := if k = 0 then x.offset else (x.offset / 4096 + k) * 4096
def Xfer.hi (x : Xfer) (k : Nat) : Nat := min (x.offset + x.len) ((x.offset / 4096 + k + 1) * 4096)
/-- How many segments a job has. -/
def Xfer.count (x : Xfer) : Nat := (x.offset + x.len - 1) / 4096 - x.offset / 4096 + 1
/-- Segments started and not ended. -/
def Xfer.open_ (x : Xfer) : Nat := (x.segs.filter (·.status.isNone)).length

/-- The exporter of a job, as a queue owner. -/
def expOwner (e : Nat) : Owner := .slice (fin 4096 e)

/-- The eyelet job of a chain (R114, R335). -/
def xferOf (j : Job) : Xfer :=
  let b := j.descs.headD []
  { write := dOp b == 4, handle := le b 16 2, offset := le b 24 8, len := jobLen j.descs }

/-- The local side of n bytes from byte a of a job: pieces of its buffers in ring order. -/
def localPieces : List (List Byte) → Nat → Nat → List (Nat × Nat)
  | [], _, _ => []
  | b :: r, a, n =>
    if n = 0 then []
    else if a ≥ dLen b then localPieces r (a - dLen b) n
    else
      let m := min n (dLen b - a)
      (dAddr b + a, m) :: localPieces r 0 (n - m)

/-- The checks of R336 on segment k of a job that slice `imp` started. -/
def segCheck (imp : Nat) (x : Xfer) (k : Nat) (d : Dev) : Option Nat :=
  match (d.eyelet x.handle).bind fun y => y.win.map fun w => (y, w) with
  | none => some stNotFound
  | some (y, w) =>
    if !w.importers.contains imp then some stDenied
    else if !bit w.perm (b2n x.write) then some stDenied
    else if x.hi k > w.len then some stDenied
    else match d.slice y.exporter with
      | none => some stNotFound
      | some e => match e.state with
        | .hostLost => some stHostLost
        | .resetting => some stAborted
        | .closing => some stNotFound
        | .active =>
          let f := d.fn e.fn
          if !d.hlOn e.fn then some stDomainDown
          else if !f.bme || f.d3 || f.parked || f.closing.isSome || f.flr || !f.pasidEn then some stAborted
          else none

/-- Where a segment's counters lie: EYE_SEGMENTS, EYE_NOT_FOUND, EYE_DENIED, EYE_UNREACHABLE (R342). -/
def eyeCounter (st : Nat) : Option Nat :=
  if st = stOk || st = stPoisoned then some 0x100
  else if st = stNotFound then some 0x104
  else if st = stDenied then some 0x108
  else if st = stAborted || st = stHostLost || st = stDomainDown then some 0x10C
  else none

/-- The status with which a job ends: its first failure in offset order, else POISONED, else OK (R337; log 23). -/
def xferStatus (x : Xfer) : Nat :=
  let s := x.segs.map fun s => s.status.getD stOk
  match s.find? fun v => v != stOk && v != stPoisoned with
  | some v => v
  | none => if s.contains stPoisoned then stPoisoned else stOk

/-- The job completes once every started segment has ended, an XFER_WRITE one behind a flushing read (R337, R338). -/
def xferEnd (o : Owner) (q : Nat) (d : Dev) : Dev := match d.queue o q with
  | none => d
  | some y => match y.xfer with
    | none => d
    | some x =>
      if x.flushing || x.open_ != 0 || (!x.failed && x.next < x.count) then d
      else
        let exp := x.exporter.getD 0
        if x.write && xferMoved x != 0 && (d.slice exp).isSome && d.ownerMay (expOwner exp) then
          d |> updQueue o q (fun y => { y with xfer := some { x with flushing := true } })
            |> flushRead exp none [qKey o q]
        else d |> endJob o q (xferStatus x) 0 (xferMoved x) |> settleQueue o q

/-- Nothing of a segment is left on the link of function f: its read, its writes, what translation said of them. -/
def segForget (f : Nat) (o : Owner) (q k : Nat) (d : Dev) : Dev :=
  d |> dropReads f (.segment o q k)
    |> updFn f fun x => { x with xq := x.xq.filter fun r => r.serves != .seg (qKey o q) k
                                 xbad := x.xbad.filter fun w => w.1 != .seg (qKey o q) k }

/-- A segment has its status: counted, taken out of flight, and its job looked at (R337, R341, R342). -/
def segSettle (o : Owner) (q k st : Nat) (d : Dev) : Dev := match (d.queue o q).bind (·.xfer) with
  | none => d
  | some x =>
    let n := x.hi k - x.lo k
    let good := st == stOk || st == stPoisoned
    let imp := match o with | .slice s => s.val | .function _ => 0xFFFF
    let exp := (d.eyelet x.handle).map (·.exporter)
    d |> (match eyeCounter st with | some c => count (aHl (d.fnOf o) + c) | none => id)
      |> when good (fun d => d |> meter imp 11 n |> meterOf exp 12 n)
      |> segForget (d.fnOf o) o q k
      |> (match exp.bind d.slice with | some e => segForget e.fn o q k | none => id)
      |> updEyelet x.handle (fun y => { y with
           flight := y.flight.filter fun s => !(s.q == qKey o q && s.seg == k)
           moved := if good then (y.moved + n) % 2 ^ 64 else y.moved
           dirty := y.dirty || (x.write && y.flight.any fun s => s.q == qKey o q && s.seg == k) })
      |> updQueue o q (fun y => { y with xfer := some { x with
           failed := x.failed || !good
           segs := x.segs.map fun s => if s.idx = k then { s with status := some st } else s } })
      |> eyeletSettle x.handle
      |> xferEnd o q

/-- Whether an owner may start segments: ACTIVE, its function able to issue, its queue running. -/
def Dev.mayStart (d : Dev) (o : Owner) (q : Queue) : Bool := d.fetches o && q.halted.isNone

/-- The job in progress on an XFER queue: the one begun, or the oldest chain read. -/
def Queue.job (q : Queue) : Option Xfer := match q.xfer with
  | some x => some x
  | none => (q.jobs.head?).bind fun j => if q.kind == .xfer && j.fault.isNone then some (xferOf j) else none

/-- Eyelet segments in flight for importers on a host die (R335). -/
def Dev.segsOnDie (d : Dev) (die : Nat) : Nat :=
  d.queues.foldl (fun n e => match e.2.xfer with
    | none => n
    | some x =>
      let k := e.1 / 8192
      let f := if k < 64 then k else ((d.slice (k - 64)).map (·.fn)).getD 0
      if dieOfLink f == die then n + x.open_ else n) 0

/-- The next segment of a queue's job is checked and started, or fails its check (R335, R336). -/
def segmentStart (o : Owner) (q : Nat) (d : Dev) : Dev := match d.queue o q with
  | none => d
  | some y => match o, y.job with
    | .slice s, some x =>
      if !d.mayStart o y || x.failed || x.flushing || x.next ≥ x.count || x.open_ ≥ 16 ||
         d.segsOnDie (dieOfLink (d.fnOf o)) ≥ 1024 then d
      else
        let k := x.next
        let n := x.hi k - x.lo k
        let base := (((d.eyelet x.handle).bind (·.win)).map (·.base)).getD 0
        let x := { x with next := k + 1, segs := x.segs ++ [{ idx := k, bytes := n, base := base }] }
        match segCheck s x k d with
        | some st => d |> updQueue o q (fun y => { y with xfer := some x }) |> segSettle o q k st
        | none => match (d.eyelet x.handle).bind fun e => e.win.map fun w => (e.exporter, w) with
          | none => d
          | some (exp, w) =>
            let src := if x.write then o else expOwner exp
            let ds := ((y.jobs.headD { descs := [], last := 0 }).descs)
            let at' := if x.write then localPieces ds (x.lo k - x.offset) n else [(w.base + x.lo k, n)]
            let f := d.fnOf src
            let p := d.pasidOf src
            let t := (d.fn f).nextTag
            d |> updQueue o q (fun y => { y with xfer := some { x with exporter := some exp } })
              |> updEyelet x.handle (fun e => { e with flight := e.flight ++ [{ q := qKey o q, seg := k, write := x.write }] })
              |> newTag f (.segment o q k) p
              |> each at' (fun a => hostRead f p a.1 a.2 t)
              |> fun d => match takeDenied f t d with | some d => segSettle o q k stDenied d | none => d
    | _, _ => d

/-- XFER_SEGMENT_START (R336). -/
def execXferSegmentStart (o : Owner) (q : Nat) (s : State) : Host.Outcome State Fault Refusal :=
  .next (s.onDev fun _ d => segmentStart o q d)

/-- The data of a segment is written to the other side, poisoned data with EP set, Relaxed Ordering asked for
(R94, R334, R340). `base` is that of the window the segment was checked against (R332). -/
def segWrite (o : Owner) (q : Nat) (ds : List (List Byte)) (x : Xfer) (k base exp : Nat) (data : List Byte) (ep : Bool)
    (d : Dev) : Dev :=
  let n := x.hi k - x.lo k
  let data := padTo n data
  let s := XFor.seg (qKey o q) k
  if x.write then hostWriteAs s (d.fnOf (expOwner exp)) (d.pasidOf (expOwner exp)) (base + x.lo k) data true ep d
  else
    (localPieces ds (x.lo k - x.offset) n).foldl (fun (a : Dev × List Byte) p =>
      (hostWriteAs s (d.fnOf o) (d.pasidOf o) p.1 (a.2.take p.2) true ep a.1, a.2.drop p.2)) (d, data) |>.1

/-- A segment whose data has come ends once its writes have left: as its data came, or as translation refused one of them
(R96, R334, R337). -/
def segLand (o : Owner) (q k st : Nat) (d : Dev) : Dev := match (d.queue o q).bind (·.xfer) with
  | none => d
  | some x =>
    let f := if x.write then d.fnOf (expOwner (x.exporter.getD 0)) else d.fnOf o
    let s := XFor.seg (qKey o q) k
    if (d.fn f).waits s then
      updQueue o q (fun y => { y with xfer := some { x with segs := x.segs.map fun g =>
        if g.idx = k then { g with landing := some st } else g } }) d
    else segSettle o q k (match (d.fn f).xbad.find? fun w => w.1 == s with | some w => w.2 | none => st) d

/-- A started segment ends (R337, R340). -/
def segmentEnd (o : Owner) (q k : Nat) (res : SegEnd) (d : Dev) : Dev :=
  match d.queue o q with
  | none => d
  | some y => match y.xfer with
    | none => d
    | some x => match x.segs.find? fun s => s.idx == k && s.status.isNone && s.landing.isNone with
      | none => d
      | some sg =>
        let ds := (y.jobs.headD { descs := [], last := 0 }).descs
        let exp := x.exporter.getD 0
        let src := if x.write then d.fnOf o else d.fnOf (expOwner exp)
        if !(d.fn src).reads.any (·.purpose == .segment o q k) then d
        else
        let d := dropReads src (.segment o q k) d
        match res with
        | .ok data => d |> segWrite o q ds x k sg.base exp data false |> segLand o q k stOk
        | .poisoned data =>
          d |> dmaFail src (.poisoned data) |> segWrite o q ds x k sg.base exp data true |> segLand o q k stPoisoned
        | .failed onExp timeout =>
          let f := if onExp then d.fnOf (expOwner exp) else d.fnOf o
          let r := if timeout then Read.timeout else .denied
          d |> dmaFail f r |> segSettle o q k (readStatus r)

/-- The owner that a queue key names. -/
def keyOwner (key : Nat) : Owner :=
  let k := key / 8192
  if k < 64 then .function (fin 32 k) else .slice (fin 4096 (k - 64))

/-- End every segment in flight that a test selects with a status (R339, R459). -/
def abortFlights (sel : Eyelet → Flight → Bool) (st : Nat) (d : Dev) : Dev :=
  let l := (d.eyelets.map fun e => (e.2.flight.filter (sel e.2)).map fun s => (s.q, s.seg)).flatten
  each l (fun s => segSettle (keyOwner s.1) (s.1 % 8192) s.2 st) d

/-- The flushing read has ended with a status: rewrite replies may go, and the jobs behind it complete, those that were
OK with the status (R332, R338). -/
def flushEnd (f tag st : Nat) (d : Dev) : Dev :=
  match ((d.fn f).readOf tag).map OutRead.purpose with
  | some (.flush h jobs) =>
    let d := dropTag f tag d
    let d := match h with
      | some h => updEyelet h (fun y => { y with rewrite := y.rewrite.map fun w =>
          { w with flush := false, flushing := false } }) d
      | none => d
    each jobs (fun key d =>
      let o := keyOwner key
      let q := key % 8192
      match (d.queue o q).bind (·.xfer) with
      | some x => d |> endJob o q (if xferStatus x = stOk then st else xferStatus x) 0 (xferMoved x) |> settleQueue o q
      | none => d) d
  | _ => d

/-- A flushing read is outstanding under this tag. -/
def Dev.flushOpen (d : Dev) (f tag : Nat) : Bool :=
  (d.fn f).reads.any fun r => r.tag == tag && (match r.purpose with | .flush _ _ => true | _ => false)

/-- The flushing read completes; a failed one is reported (R93). -/
def flushDone (f tag : Nat) (res : Read) (d : Dev) : Dev :=
  if d.flushOpen f tag then d |> dmaFail f res |> flushEnd f tag (readStatus res) else d

/-! ### What waited on a link goes on (R95-R98) -/

/-- Segments whose data has come and whose writes had to wait: owner, queue, segment and how the data came. -/
def Dev.landings (d : Dev) : List (Owner × Nat × Nat × Nat) :=
  d.queues.flatMap fun e => match e.2.xfer with
    | none => []
    | some x => x.segs.filterMap fun g => if g.status.isNone then g.landing.map fun st => (keyOwner e.1, e.1 % 8192, g.idx, st) else none

/-- Transfers whose translation granted no permission fail with DENIED (R96). A placement read goes on in
PLACEMENT_TABLE_READ_DONE. -/
def settleDenied (f : Nat) (d : Dev) : Dev :=
  each (d.fn f).xdenied (fun t d => match (d.fn f).readOf t with
    | none => updFn f (fun x => { x with xdenied := x.xdenied.filter (· != t) }) d
    | some r => match r.purpose with
      | .placement _ => d
      | .descriptors o q => match takeDenied f t d with | some d => fetchFailed o q .aborted d | none => d
      | .segment o q k => match takeDenied f t d with | some d => segSettle o q k stDenied d | none => d
      | _ => match takeDenied f t d with | some d => d | none => d) d

/-- The requests of function f that may leave now leave, and what waited for them ends. -/
def advance (f : Nat) (d : Dev) : Dev :=
  let d := d |> pump f |> settleDenied f
  each d.landings (fun g => segLand g.1 g.2.1 g.2.2.1 g.2.2.2) d

/-- A slice number leaves every importer list when its slice is freed (R329). -/
def forgetImporter (s : Nat) (d : Dev) : Dev :=
  { d with eyelets := mmap d.eyelets fun _ y =>
      { y with win := y.win.map fun w => { w with importers := w.importers.filter (· != s) } } }

end Sys2Proof.Machine
end

