-- ==== Sys2Proof/Machine/Mailbox.lean ====
section
/-!
DEFINITION. Mailboxes and doorbells (06_mailboxes.md).
-/
namespace Sys2Proof.Machine

/-- The other side of a pair (R141). -/
def Side.other (x : Side) : Side := { x with mgr := !x.mgr }

/-- Number of the lower page of a pair (R142). -/
def pairPage : Pair → Nat
  | .slice s => 2 * s
  | .function f => 8192 + 2 * f
  | .core c => 8256 + 2 * (c - 4)

/-- HBM address of the page that a side sends from: the upper one is the manager's (R142). -/
def sidePage (x : Side) : Nat := arenaBase + 4096 * (pairPage x.pair + b2n x.mgr)

/-- Whether the pair exists: a slice pair while a slice holds the number, a core pair for cores 4-15 (R141, R144), a
function's pair while the function exists (DEDUCED, log 137). -/
def Dev.pairExists (d : Dev) : Pair → Bool
  | .function f => d.fnExists f
  | .slice s => (d.slice s).isSome
  | .core c => 4 ≤ c.val

/-- Whether a side has been interrupted for doorbells, or acknowledges, that it has not served (R151, log 74). -/
def MbSide.told (m : MbSide) (ack : Bool) : Bool := if ack then m.toldAck else m.toldIn
def MbSide.tell (m : MbSide) (ack on : Bool) : MbSide := if ack then { m with toldAck := on } else { m with toldIn := on }

/-- Interrupt a side for a doorbell, or for an acknowledge. Interrupts before it has served the last one coalesce (R151);
a core's meet in its pending bit. -/
def mbInterrupt (x : Side) (ack : Bool) (d : Dev) : Dev :=
  let go := fun (f : Dev → Dev) => if (d.side x).told ack then d else d |> updSide x (·.tell ack true) |> f
  if x.mgr then match x.pair with
    | .function f => go (raise 0x03 0 f (if ack then 2 else 1))
    | .slice s => go (raise 0x03 1 s (if ack then 2 else 1))
    | .core c => go (raise 0x03 2 c (if ack then 2 else 1))
  else match x.pair with
    | .function f => go (msixRaise f (d.side x).vector)
    | .slice s => go (ownerVector (.slice s) (d.side x).vector)
    | .core c => privRaise c (if ack then 9 else 8) d

def mbErr (x : Side) (d : Dev) : Dev := updSide x (fun m => { m with err := sat32 (m.err + 1) }) d

def setBit (w : Word) (n : Nat) : Word := w ||| word (2 ^ n)
def clrBit (w : Word) (n : Nat) : Word := w &&& ~~~ word (2 ^ n)

/-- The byte range of message n in its sender's page, as MB_PTR gives it. -/
def ptrOff (p : Word) : Nat := wbits p 11 0
def ptrLen (p : Word) : Nat := wbits p 28 16

/-- A set bit in MB_DB_SET is refused while posted, or when the message leaves the page (R145). -/
def mbPostOk (m : MbSide) (n : Nat) : Bool :=
  let p := mget 0 m.ptr n
  !m.dbOut.getLsbD n && ptrOff p + ptrLen p ≤ 4096

/-- Post one message (R145). -/
def mbPost (x : Side) (n : Nat) (d : Dev) : Dev :=
  let p := mget 0 (d.side x).ptr n
  d |> updSide x (fun m => { m with dbOut := setBit m.dbOut n, ack := mset 0 m.ack n 0 })
    |> updSide (Side.other x) fun m => { m with dbIn := setBit m.dbIn n, inPtr := mset 0 m.inPtr n (p &&& 0x1FFF0FFF) }

def mbDbSet (x : Side) (v : Word) (d : Dev) : Dev :=
  let m := d.side x
  let ns := (List.range 32).filter v.getLsbD
  let go := ns.filter (mbPostOk m)
  let mask := (d.side (Side.other x)).dbMask
  d |> each ns (fun n d => if mbPostOk m n then mbPost x n d else mbErr x d)
    |> when (go.any fun n => !mask.getLsbD n) (mbInterrupt (Side.other x) false)

/-- An access to a register of a side: the set of a pair that does not exist behaves as a region with no register, which
the manager's writes count (R8, R144; log 137). -/
def onSide (x : Side) (go : Dev → Dev) (d : Dev) : Dev :=
  if d.pairExists x.pair then go d else if x.mgr then badAccess d else d

/-- MB_DB_SET (R145). -/
def execMbDbSet (x : Side) (v : Word) (s : State) : Host.Outcome State Fault Refusal :=
  .next (s.through (s.dev.sideFn x) fun _ d => onSide x (mbDbSet x v) d)

/-- Whether a word of an HBM range is uncorrectable or poisoned, as stored (log 138). -/
def Dev.hbmPoisoned (d : Dev) (a len : Nat) : Bool :=
  (wordsOf (hbmOff a) len).any fun o =>
    let w := d.rawWord (hbmMem a) o
    (eccJudge w.1 w.2).outcome ≥ 2

/-- Whether a message at p that side x receives lies over poisoned bytes; a word that no read has marked yet counts when a
read of it would mark it (R148, log 138). -/
def Dev.msgPoisoned (d : Dev) (x : Side) (p : Word) : Bool :=
  d.hbmPoisoned (sidePage (Side.other x) + ptrOff p) (ptrLen p)

/-- Claim one posted message. A claim of n that the sender withdrew and has not been acknowledged gives way (log 139). -/
def mbClaimOne (x : Side) (n : Nat) (d : Dev) : Dev :=
  let p := mget 0 (d.side x).inPtr n
  let code : Word := if d.msgPoisoned x p then 0xE003 else 0
  updSide x (fun m => { m with dbIn := clrBit m.dbIn n, inPtr := mset 0 m.inPtr n 0, claimed := setBit m.claimed n,
                               rxPtr := mset 0 m.rxPtr n p, rxStat := mset 0 m.rxStat n code }) d

def mbClaim (x : Side) (v : Word) (d : Dev) : Dev :=
  d |> updSide x (·.tell false false)
    |> each ((List.range 32).filter fun n => v.getLsbD n && (d.side x).dbIn.getLsbD n) (mbClaimOne x)

/-- MB_CLAIM (R146). -/
def execMbClaim (x : Side) (v : Word) (s : State) : Host.Outcome State Fault Refusal :=
  .next (s.through (s.dev.sideFn x) fun _ d => onSide x (mbClaim x v) d)

/-- Acknowledge message n to its sender with a code (R146, R148). -/
def mbAck (x : Side) (n code : Nat) (d : Dev) : Dev :=
  let o := Side.other x
  let was := (d.side o).ackSum.getLsbD n
  d |> updSide o (fun m => { m with dbOut := clrBit m.dbOut n, ack := mset 0 m.ack n (word (2 ^ 31 + code)),
                                    ackSum := setBit m.ackSum n })
    |> when (!was && !(d.side o).ackMask.getLsbD n) (mbInterrupt o true)

def mbRxAck (x : Side) (n : Nat) (v : Word) (d : Dev) : Dev :=
  let m := d.side x
  let code := wbits v 15 0
  if !m.claimed.getLsbD n || (0xE000 ≤ code && code ≤ 0xEFFF) then mbErr x d
  else
    let withdrawn := mget 0 m.rxStat n == 0xE002
    d |> updSide x (fun m => { m with claimed := clrBit m.claimed n, rxPtr := mset 0 m.rxPtr n 0,
                                      rxStat := mset 0 m.rxStat n 0 })
      |> when (!withdrawn) (mbAck x n code)

/-- MB_RX_ACK (R146). -/
def execMbRxAck (x : Side) (n : Fin 32) (v : Word) (s : State) : Host.Outcome State Fault Refusal :=
  .next (s.through (s.dev.sideFn x) fun _ d => onSide x (mbRxAck x n v) d)

/-- Clear the page that a side sends from (R425). -/
def clearPage (x : Side) (d : Dev) : Dev := clearMem (hbmMem (sidePage x)) (hbmOff (sidePage x)) 4096 d

/-- Reset one side (R149). -/
def sideReset (x : Side) (d : Dev) : Dev :=
  let o := Side.other x
  let m := d.side x
  let lost := (List.range 32).filter fun n =>
    m.dbIn.getLsbD n || (m.claimed.getLsbD n && mget 0 m.rxStat n != 0xE002)
  d |> clearPage x
    |> updSide o (fun y => { y with
        dbIn := 0
        inPtr := []
        toldIn := false
        rxPtr := mkeep y.rxPtr fun n _ => y.claimed.getLsbD n
        rxStat := ((List.range 32).filter y.claimed.getLsbD).foldl (fun r n => mset 0 r n 0xE002) y.rxStat })
    |> each lost (fun n => mbAck x n 0xE001)
    |> updSide x (fun _ => {})

/-- Reset both sides together (R150). -/
def pairReset (p : Pair) (d : Dev) : Dev :=
  d |> clearPage ⟨p, false⟩ |> clearPage ⟨p, true⟩
    |> updSide ⟨p, false⟩ (fun _ => {}) |> updSide ⟨p, true⟩ (fun _ => {})

/-- A write of MB_CTRL: RESET and VECTOR, which is reserved on sides other than a function's or a slice's. -/
def mbCtrlWrite (x : Side) (v : Word) (d : Dev) : Dev :=
  let d := when (v.getLsbD 31) (sideReset x) d
  match x.pair with
  | .core _ => d
  | _ => if x.mgr then d else updSide x (fun m => { m with vector := if v.getLsbD 31 then 0 else wbits v 10 0 }) d

/-- MB_CTRL with RESET (R149). -/
def execMbSideReset (x : Side) (v : Word) (s : State) : Host.Outcome State Fault Refusal :=
  .next (s.through (s.dev.sideFn x) fun _ d => onSide x (mbCtrlWrite x v) d)

/-- A new mask: a waiting bit that it unmasks interrupts (R151). -/
def mbMaskWrite (x : Side) (ack : Bool) (v : Word) (d : Dev) : Dev :=
  let m := d.side x
  let bare := if ack then m.ackSum &&& m.ackMask &&& ~~~v else m.dbIn &&& m.dbMask &&& ~~~v
  d |> updSide x (fun m => if ack then { m with ackMask := v } else { m with dbMask := v })
    |> when (bare != 0) (mbInterrupt x ack)

/-- MB_DB_MASK, MB_ACK_MASK (R151). -/
def execMbMaskWrite (x : Side) (ack : Bool) (v : Word) (s : State) : Host.Outcome State Fault Refusal :=
  .next (s.through (s.dev.sideFn x) fun _ d => onSide x (mbMaskWrite x ack v) d)

/-- A write into a page that the writer does not own as sender is discarded and counted (R143). -/
def arenaRefused (x : Side) (d : Dev) : Dev :=
  if x.mgr then badAccess d
  else match x.pair with
    | .function f => count (aFn f 0x10) d
    | .slice s => count (aFn (d.fnOf (.slice s)) 0x10) d
    | .core _ => mbErr x d

/-- A posted write with EP set counts in FN_POISON_IN and is reported, for a host (R92). -/
def hostPoisonIn (f : Nat) (d : Dev) : Dev := d |> count (aFn f 0x1C) |> aerUnc f erPoisoned true
def hostPoisoned (x : Side) (d : Dev) : Dev :=
  if x.mgr then d else match x.pair with
    | .function f => hostPoisonIn f d
    | .slice s => hostPoisonIn (d.fnOf (.slice s)) d
    | .core _ => d

/-- Messages that side x has claimed over a byte that is poisoned by now show it (R148). -/
def mbRefresh (x : Side) (d : Dev) : Dev :=
  each ((List.range 32).filter fun n => (d.side x).claimed.getLsbD n && mget 0 (d.side x).rxStat n == 0
      && d.msgPoisoned x (mget 0 (d.side x).rxPtr n)) (fun n => updSide x fun m => { m with rxStat := mset 0 m.rxStat n 0xE003 }) d

/-- The side that sends from the arena page in which an HBM address lies (R142). -/
def arenaSide (a : Nat) : Option Side :=
  let n := (a - arenaBase) / 4096
  if a < arenaBase || 8280 ≤ n then none
  else
    let p : Pair := if n < 8192 then .slice (fin 4096 (n / 2)) else if n < 8256 then .function (fin 32 ((n - 8192) / 2))
      else .core (fin 16 ((n - 8256) / 2 + 4))
    some ⟨p, n % 2 == 1⟩

/-- The contents of an HBM word have changed other than by a write of the arena. -/
def hbmTouched (a : Nat) (d : Dev) : Dev := match arenaSide a with
  | some x => mbRefresh (Side.other x) d
  | none => d

/-- Whether the byte at an offset of a side's page lies in a message that it has posted (R147). -/
def Dev.postedAt (d : Dev) (x : Side) (off : Nat) : Bool :=
  let r := d.side (Side.other x)
  (List.range 32).any fun n => (d.side x).dbOut.getLsbD n &&
    (let p := mget 0 (if r.dbIn.getLsbD n then r.inPtr else r.rxPtr) n
     ptrOff p ≤ off && off < ptrOff p + ptrLen p)

/-- The offsets of a run of bytes. -/
def runOffs (r : Nat × List Byte) : List Nat := (List.range r.2.length).map (r.1 + ·)

/-- Bytes of a page that receiver and manager read: those written under a posted message are undefined at the receiver
until the sender writes them again (R147, log 140). -/
def receiverBytes (x : Side) (off : Nat) (b : List Byte) (d : Dev) : List Byte × Dev :=
  let t := (d.side x).torn
  if (List.range b.length).any fun i => t.contains (off + i) then
    let r := drawBytes b.length d
    ((b.zip r.1).zipIdx.map fun e => if t.contains (off + e.2) then e.1.2 else e.1.1, r.2)
  else (b, d)

/-- Store runs of bytes, (offset, bytes), into the page that a side sends from. -/
def arenaStore (x : Side) (runs : List (Nat × List Byte)) (ep : Bool) (d : Dev) : Dev :=
  let offs := runs.flatMap runOffs
  d |> each runs (fun r => writeHbm (sidePage x + r.1) r.2 ep)
    |> updSide x (fun m => { m with torn := m.torn.filter (fun o => !offs.contains o) ++ offs.filter (d.postedAt x) })
    |> mbRefresh (Side.other x)

/-- One write of a side into a page of its pair, however its byte enables lie (R143): refused unless it is the side's own;
one with EP set into BAR0, where a function's pages lie, is discarded (R92). -/
def arenaWrite (x : Side) (upper : Bool) (runs : List (Nat × List Byte)) (ep : Bool) (d : Dev) : Dev :=
  let bar0 := !x.mgr && (match x.pair with | .function _ => true | _ => false)
  let d := when ep (hostPoisoned x) d
  if upper != x.mgr then arenaRefused x d else if ep && bar0 then d else arenaStore x runs ep d

/-- ARENA_PAGE_WRITE (R143). -/
def execArenaPageWrite (x : Side) (upper : Bool) (off : Nat) (data : List Byte) (ep : Bool) (s : State) :
    Host.Outcome State Fault Refusal :=
  .next (s.through (s.dev.sideFn x) fun _ d => if d.pairExists x.pair then arenaWrite x upper [(off, data)] ep d
    else if x.mgr then badAccess d else d)

/-! ### A side's registers (R144) -/

/-- Whether an offset of the 1 KiB set holds a register. -/
def mbHas (off : Nat) : Bool := off % 4 == 0 && (off ≤ 0x2C || (0x80 ≤ off && off < 0x300))

/-- What a read returns. -/
def Dev.mbValue (d : Dev) (x : Side) (off : Nat) : Word :=
  let m := d.side x
  let n := off / 4 % 32
  if off = 0x004 then m.dbOut
  else if off = 0x008 then m.ackSum
  else if off = 0x00C then m.ackMask
  else if off = 0x010 then m.dbIn
  else if off = 0x014 then m.dbMask
  else if off = 0x01C then m.claimed
  else if off = 0x020 then word m.vector
  else if off = 0x024 then word m.err
  else if off = 0x028 then (if x.mgr then word (sidePage { x with mgr := false }) else 0)
  else if off = 0x02C then (if x.mgr then word (hi32 (sidePage { x with mgr := false })) else 0)
  else if 0x080 ≤ off && off < 0x100 then mget 0 m.ptr n
  else if 0x100 ≤ off && off < 0x180 then mget 0 m.ack n
  else if 0x180 ≤ off && off < 0x200 then (if m.claimed.getLsbD n then setBit (mget 0 m.rxPtr n) 31 else 0)
  else if 0x200 ≤ off && off < 0x280 then (if m.claimed.getLsbD n then setBit (mget 0 m.rxStat n) 31 else 0)
  else 0

/-- A read: MB_ERR clears (RC); a look at MB_DB_IN or MB_ACK_SUM serves the interrupt (R151, log 74). -/
def mbRead (x : Side) (off : Nat) (d : Dev) : Word × Dev :=
  (d.mbValue x off, d |> when (off == 0x024) (updSide x fun m => { m with err := 0 })
    |> when (off == 0x010) (updSide x (·.tell false false)) |> when (off == 0x008) (updSide x (·.tell true false)))

/-- A write, by the register's own rule. -/
def mbWrite (x : Side) (off : Nat) (v : Word) (d : Dev) : Dev :=
  if off = 0x000 then mbDbSet x v d
  else if off = 0x008 then updSide x (fun m => { m.tell true false with ackSum := m.ackSum &&& ~~~v }) d
  else if off = 0x00C then mbMaskWrite x true v d
  else if off = 0x014 then mbMaskWrite x false v d
  else if off = 0x018 then mbClaim x v d
  else if off = 0x020 then mbCtrlWrite x v d
  else if 0x080 ≤ off && off < 0x100 then
    updSide x (fun m => { m with ptr := mset 0 m.ptr (off / 4 % 32) (v &&& 0x1FFF0FFF) }) d
  else if 0x280 ≤ off && off < 0x300 then mbRxAck x (off / 4 % 32) v d
  else d

/-- The side whose registers lie at a BAR0 offset of the manager function (R144). -/
def sideAt (off : Nat) : Option Side :=
  if 0xEB00000 ≤ off && off < 0xEB00000 + 32 * 0x400 then some ⟨.function (fin 32 ((off - 0xEB00000) / 0x400)), true⟩
  else if 0xEB10000 + 4 * 0x400 ≤ off && off < 0xEB10000 + 16 * 0x400 then
    some ⟨.core (fin 16 ((off - 0xEB10000) / 0x400)), true⟩
  else if 0xEB20000 + 4 * 0x400 ≤ off && off < 0xEB20000 + 16 * 0x400 then
    some ⟨.core (fin 16 ((off - 0xEB20000) / 0x400)), false⟩
  else if 0xEC00000 ≤ off && off < 0xEC00000 + 4096 * 0x400 then
    some ⟨.slice (fin 4096 ((off - 0xEC00000) / 0x400)), true⟩
  else none

end Sys2Proof.Machine
end

