-- ==== Sys2Proof/Machine/Parser.lean ====
section
/-!
DEFINITION. The parser and the pattern engine (08_parsing.md): the headers of R178 with their limits, the parse
result vector, the flow hash, checksum verification, PCLASS.
-/
namespace Sys2Proof.Machine

/-! ### The parse policy (R190) -/

/-- The values after Device Reset. -/
def policyDefault : List Byte :=
  leBytes 2 4789 ++ leBytes 6 0 ++ leBytes 2 6081 ++ leBytes 6 0 ++ leBytes 2 4420 ++ leBytes 6 0 ++
  leBytes 2 4500 ++ leBytes 2 0 ++ leBytes 4 0 ++ leBytes 4 0 ++ leBytes 1 0x3F ++ leBytes 1 0 ++ leBytes 2 1024 ++ leBytes 8 0

/-- A non-zero port of four at offset o. -/
def polPort (b : List Byte) (o p : Nat) : Bool := p != 0 && (List.range 4).any fun i => le b (o + 2 * i) 2 == p
def polEnable (b : List Byte) (i : Nat) : Bool := bit (byteAt b 36) i

/-! ### The state of a parse -/

/-- An anchor that is absent (R186 shows it as 0xFF in the PRV). -/
def absent : Nat := 65535

/-- An IP header that was parsed. -/
structure IpSeen where
  v6    : Bool
  off   : Nat
  src   : List Byte
  dst   : List Byte
  proto : Nat
  frag  : Bool := false
  first : Bool := true
  /-- Offset of its TCP or UDP header. -/
  l4    : Option Nat := none
deriving DecidableEq, Repr

/-- An L4 header whose checksum may be verified: protocol, stack, offset, end. -/
structure L4Seen where
  udp   : Bool
  inner : Bool
  off   : Nat
  fin   : Nat
deriving DecidableEq, Repr

structure Parse where
  pkt  : List Byte
  pol  : List Byte
  /-- From a line port, so that a SecTAG may be recognized; from a host, so that nothing is verified. -/
  line : Bool
  host : Bool
  /-- The bytes carry their FCS (a bad line frame, R375). -/
  fcs  : Bool := false
  prv  : List Byte := List.replicate 200 0
  flags : Nat := 0
  present : Nat := 0
  pos  : Nat := 0
  /-- End of the range that encloses the next header (R182). -/
  fin  : Nat
  /-- End of the innermost datagram that a length field has given. -/
  dend : Nat
  pend : Nat
  inner : Bool := false
  overO : Bool := false
  overI : Bool := false
  ipO  : Option IpSeen := none
  ipI  : Option IpSeen := none
  l4s  : List L4Seen := []
  labels : Nat := 0
  extO : Nat := 0
  extI : Nat := 0
  anchors : List Nat := [0, absent, absent, absent, absent, absent, absent]
deriving DecidableEq, Repr

def fLenOver := 0
def fTrailer := 1
def fMalformed := 2
def fDepth := 3
def fFrag := 12
def fTunnel := 13
def fMacsecOk := 14
def fSecTag := 15
def fNvme := 16
def fEsp := 17
def fPattern := 18
def fErrInner := 19
def fL2Len := 20

def setN (v i : Nat) : Nat := if bit v i then v else v + 2 ^ i
/-- Set a flag; LEN_OVER, TRAILER and MALFORMED of an inner header set ERR_INNER too (R187). -/
def Parse.flag (p : Parse) (i : Nat) : Parse :=
  let f := setN p.flags i
  { p with flags := if p.inner && i < 3 then setN f fErrInner else f
           overO := p.overO || (i == fLenOver && !p.inner), overI := p.overI || (i == fLenOver && p.inner) }
def Parse.has (p : Parse) (i : Nat) : Parse := { p with present := setN p.present i }
/-- PRESENT bit of a kind that has one per stack. -/
def Parse.hasIn (p : Parse) (o i : Nat) : Parse := p.has (if p.inner then i else o)
def Parse.put (p : Parse) (o : Nat) (b : List Byte) : Parse := { p with prv := putBytes p.prv o b }
def Parse.putIn (p : Parse) (o i : Nat) (b : List Byte) : Parse := p.put (if p.inner then i else o) b
def Parse.anchor (p : Parse) (i off : Nat) : Parse := { p with anchors := p.anchors.set i off }
def Parse.at' (p : Parse) (o n : Nat) : List Byte := bytesAt p.pkt o n
def Parse.be (p : Parse) (o n : Nat) : Nat := beNat (bytesAt p.pkt o n)
def Parse.b (p : Parse) (o : Nat) : Nat := byteAt p.pkt o

/-- R492: judge the header at `pos` with its fixed part, its own deeper limit, its malformed check and its whole
length; go on only when every step passes. -/
def Parse.judge (p : Parse) (fixed : Nat) (deep mal : Bool) (whole : Nat) (go : Parse → Parse) : Parse :=
  if p.pos + fixed > p.fin then p.flag fLenOver
  else if p.pos + fixed > 256 then p.flag fDepth
  else if deep then p.flag fDepth
  else if mal then p.flag fMalformed
  else if p.pos + whole > 256 then p.flag fDepth
  else go p

/-- A length field ends the datagram at `e`: beyond the bytes present LEN_OVER, before them a trailer (R182, R183). -/
def Parse.ends (p : Parse) (e : Nat) : Parse :=
  let q := { p with dend := min e p.fin }
  if e > p.fin then q.flag fLenOver
  else if e < p.fin then
    let q := { q with pend := min p.pend e }
    if p.pkt.length + (if p.fcs then 0 else 4) > 64 then q.flag fTrailer else q
  else q

/-- What follows is enclosed by the datagram; in the inner stack, still by the end that the outer lengths give (R182). -/
def Parse.within (p : Parse) : Parse := if p.inner then p else { p with fin := p.dend }

def Parse.ip (p : Parse) : Option IpSeen := if p.inner then p.ipI else p.ipO
def Parse.setIp (p : Parse) (x : IpSeen) : Parse := if p.inner then { p with ipI := some x } else { p with ipO := some x }

/-! ### L4 (R178, R181) -/

/-- SPI and sequence number of an ESP header, which ends the parse. -/
def Parse.esp (p : Parse) (udp : Bool) : Parse :=
  p.judge 8 false false 8 fun p =>
    let q := if udp then p.has 17 else p.anchor (if p.inner then 6 else 2) p.pos
    let q := (((q.has 16).flag fEsp).put 116 (p.at' p.pos 4)).put 180 (p.at' (p.pos + 4) 4)
    { q with pos := p.pos + 8 }

def Parse.icmp (p : Parse) : Parse :=
  p.judge 4 false false 4 fun p =>
    let q := ((p.hasIn 10 24).putIn 104 172 (p.at' p.pos 2)).anchor (if p.inner then 6 else 2) p.pos
    { q with pos := p.pos + 4 }

/-- Record the ports and the L4 header of the current stack. -/
def Parse.ports (p : Parse) (udp : Bool) : Parse :=
  let q := (p.putIn 104 172 (p.at' p.pos 4)).anchor (if p.inner then 6 else 2) p.pos
  match q.ip with
  | some x => q.setIp { x with l4 := some p.pos }
  | none => if udp then q else q

/-- The common header of an NVMe/TCP PDU, with at least 8 bytes of payload. -/
def Parse.nvme (p : Parse) : Parse :=
  if p.dend < p.pos + 8 then p
  else p.judge 8 false false 8 fun p =>
    let q := ((p.flag fNvme).has 26).put 192 (p.at' p.pos 8)
    { q with pos := p.pos + 8 }

def Parse.tcp (p : Parse) (frag : Bool) : Parse :=
  let n := p.b (p.pos + 12) / 16 * 4
  p.judge 20 false (n < 20 || n > p.fin - p.pos) n fun p =>
    let s := p.be p.pos 2
    let t := p.be (p.pos + 2) 2
    let q := ((p.hasIn 9 23).ports false).putIn 108 176 (p.at' (p.pos + 13) 1)
    let q := { q with l4s := q.l4s ++ [⟨false, p.inner, p.pos, p.dend⟩], pos := p.pos + n }
    if !frag && polEnable p.pol 4 && (polPort p.pol 16 s || polPort p.pol 16 t) then q.nvme else q

/-- `tunnel` runs on the outer stack behind a UDP header to a tunnel's port. -/
def Parse.udp (p : Parse) (frag : Bool) (tunnel : Nat → Parse → Parse) : Parse :=
  let n := p.be (p.pos + 4) 2
  p.judge 8 false (n < 8) 8 fun p =>
    let start := p.pos
    let dport := p.be (p.pos + 2) 2
    let q := (p.hasIn 8 22).ports true
    let q := if frag then q else (q.ends (start + n)).within
    let q := { q with l4s := q.l4s ++ [⟨true, p.inner, start, q.dend⟩], pos := start + 8 }
    if frag then q
    else
      let esp := polEnable p.pol 3 && le p.pol 24 2 != 0 && dport == le p.pol 24 2
      if !(polPort p.pol 0 dport || polPort p.pol 8 dport || esp) then q
      else if p.inner then q.flag fDepth
      else tunnel dport q

/-- The L4 header of protocol `proto`; `tunnel` follows UDP tunnels, `ipTunnel` protocols 4, 41 and 47. -/
def Parse.l4 (p : Parse) (tunnel ipTunnel : Nat → Parse → Parse) : Parse := match p.ip with
  | none => p
  | some x =>
    let p := p.within
    if x.frag && !x.first then p
    else if x.proto = 17 then p.udp x.frag tunnel
    else if x.proto = 6 then p.tcp x.frag
    else if x.proto = 1 || x.proto = 58 then p.icmp
    else if x.proto = 50 then (if polEnable p.pol 3 then p.esp false else p)
    else if (x.proto = 47 && polEnable p.pol 1) || ((x.proto = 4 || x.proto = 41) && polEnable p.pol 2) then
      (if p.inner then p.flag fDepth else if x.frag then p else ipTunnel x.proto p)
    else p

/-! ### IP (R178, R179, R182, R184) -/

/-- Record an IP header of the current stack. -/
def Parse.ipStore (p : Parse) (x : IpSeen) (tos ttl : Nat) (df : Bool) : Parse :=
  let q := p.setIp x
  let q := ((q.putIn 64 136 x.src).putIn 80 152 x.dst).putIn 96 168 (leBytes 1 x.proto)
  let q := (q.putIn 97 169 (leBytes 1 tos)).putIn 98 170 (leBytes 1 ttl)
  let q := q.putIn 99 171 (leBytes 1 (b2n x.frag + 2 * b2n x.first + 4 * b2n df))
  let q := if x.frag then q.flag fFrag else q
  q.anchor (if p.inner then 5 else 1) x.off

def Parse.ip4 (p : Parse) (next : Parse → Parse) : Parse :=
  let h := p.b p.pos % 16 * 4
  let tot := p.be (p.pos + 2) 2
  p.judge 20 false (p.b p.pos / 16 != 4 || h < 20 || h > tot || h > p.fin - p.pos) h fun p =>
    let s := p.pos
    let fw := p.be (s + 6) 2
    let x : IpSeen :=
      { v6 := false, off := s, src := p.at' (s + 12) 4, dst := p.at' (s + 16) 4, proto := p.b (s + 9)
        frag := fw % 8192 != 0 || bit fw 13, first := fw % 8192 == 0 }
    let q := (p.hasIn 4 20).ipStore x (p.b (s + 1)) (p.b (s + 8)) (bit fw 14)
    let q := if h > 20 then q.hasIn 6 28 else q
    let good := inetOk (sum16 (p.at' s h))
    let q := if p.host then q else q.flag ((if good then 8 else 4) + if p.inner then 2 else 0)
    let q := q.ends (s + tot)
    next { q with pos := s + h }

/-- The extension headers of an IPv6 header, then L4 (R178: up to three). -/
def Parse.ext (next : Parse → Parse) : Nat → Parse → Parse
  | 0, p => p
  | k + 1, p => match p.ip with
    | none => p
    | some x =>
      if !(x.proto ∈ [0, 43, 44, 60]) then next p
      else if (if p.inner then p.extI else p.extO) ≥ 3 then p.flag fDepth
      else
        let n := if x.proto = 44 then 8 else 8 * (p.b (p.pos + 1) + 1)
        p.judge 8 false (p.pos + n > min p.fin p.dend) n fun p =>
          let fo := p.be (p.pos + 2) 2
          let fr := x.proto == 44
          let y := { x with proto := p.b p.pos, frag := x.frag || (fr && (fo / 8 != 0 || bit fo 0))
                            first := x.first && !(fr && fo / 8 != 0) }
          let q := (p.hasIn 7 28).setIp y
          let q := q.putIn 96 168 (leBytes 1 y.proto)
          let q := q.putIn 99 171 (leBytes 1 (b2n y.frag + 2 * b2n y.first))
          let q := if y.frag then q.flag fFrag else q
          Parse.ext next k { q with pos := p.pos + n, extO := if p.inner then q.extO else q.extO + 1
                                    extI := if p.inner then q.extI + 1 else q.extI }

def Parse.ip6 (p : Parse) (next : Parse → Parse) : Parse :=
  let n := p.be (p.pos + 4) 2
  p.judge 40 false (p.b p.pos / 16 != 6 || (n == 0 && p.b (p.pos + 6) != 59)) 40 fun p =>
    let s := p.pos
    let x : IpSeen := { v6 := true, off := s, src := p.at' (s + 8) 16, dst := p.at' (s + 24) 16, proto := p.b (s + 6) }
    let q := (p.hasIn 5 21).ipStore x (p.be s 2 / 16 % 256) (p.b (s + 7)) false
    let q := if p.inner then q else q.put 100 (leBytes 4 (p.be s 4 % 2 ^ 20))
    let q := q.ends (s + 40 + n)
    Parse.ext next 5 { q with pos := s + 40 }

/-! ### The inner stack -/

/-- Whether an EtherType is a tag's TPID. -/
def isTpid (pol : List Byte) (t : Nat) : Bool := t == 0x8100 || t == 0x88A8 || (le pol 26 2 != 0 && t == le pol 26 2)

/-- Inner L4: a second tunnel sets PARSE_DEPTH. -/
def Parse.l4In (p : Parse) : Parse := p.l4 (fun _ p => p) (fun _ p => p)

/-- What an EtherType leads to in the inner stack. -/
def Parse.typeIn (p : Parse) (t : Nat) : Parse :=
  if t < 0x600 then p.flag fL2Len
  else if t = 0x800 then p.ip4 Parse.l4In
  else if t = 0x86DD then p.ip6 Parse.l4In
  else p

/-- Inner Ethernet with at most one tag. A tag is judged with the EtherType behind it, and begins at its TPID. -/
def Parse.ethIn (p : Parse) : Parse :=
  p.judge 14 false false 14 fun p =>
    let s := p.pos
    let q := ((p.put 120 (p.at' s 12)).has 18).anchor 4 s
    let t := p.be (s + 12) 2
    if isTpid p.pol t then
      Parse.judge { q with pos := s + 12 } 6 false false 6 fun q =>
        let q := (q.put 132 (p.at' (s + 14) 2)).has 19
        let u := p.be (s + 16) 2
        if isTpid p.pol u then { q.flag fDepth with pos := s + 16 }
        else Parse.typeIn { q.put 134 (p.at' (s + 16) 2) with pos := s + 18 } u
    else Parse.typeIn { q.put 134 (p.at' (s + 12) 2) with pos := s + 14 } t

/-- Enter the inner stack, enclosed by the end that the outer lengths give. -/
def Parse.enter (p : Parse) : Parse := { p.flag fTunnel with inner := true, fin := p.dend }

/-! ### Tunnels (R178) -/

/-- A protocol type behind Geneve or GRE. -/
def Parse.tunType (p : Parse) (t : Nat) : Parse :=
  if t = 0x6558 then p.enter.ethIn
  else if t = 0x800 then p.enter.ip4 Parse.l4In
  else if t = 0x86DD then p.enter.ip6 Parse.l4In
  else p

def Parse.vxlan (p : Parse) : Parse :=
  p.judge 8 false (!bit (p.b p.pos) 3) 8 fun p =>
    let q := ((p.put 109 (p.at' (p.pos + 4) 3)).has 11).anchor 3 p.pos
    Parse.ethIn (Parse.enter { q with pos := p.pos + 8 })

def Parse.geneve (p : Parse) : Parse :=
  let n := p.b p.pos % 64
  p.judge 8 (n > 31) (p.b p.pos / 64 != 0 || p.pos + 8 + 4 * n > p.fin) (8 + 4 * n) fun p =>
    let q := ((p.put 109 (p.at' (p.pos + 4) 3)).has 12).anchor 3 p.pos
    let q := if n != 0 then q.has 27 else q
    Parse.tunType { q with pos := p.pos + 8 + 4 * n } (p.be (p.pos + 2) 2)

/-- A UDP tunnel by its destination port; ESP in UDP needs a non-zero first word. -/
def Parse.udpTunnel (port : Nat) (p : Parse) : Parse :=
  if polPort p.pol 0 port then p.vxlan
  else if polPort p.pol 8 port then p.geneve
  else if p.pos + 4 ≤ p.fin && p.be p.pos 4 != 0 then p.esp true
  else p

def Parse.gre (p : Parse) : Parse :=
  let f := p.be p.pos 2
  let c := bit f 15
  let k := bit f 13
  let s := bit f 12
  let t := p.be (p.pos + 2) 2
  let nv := !c && k && !s && t == 0x6558
  let n := 4 + 4 * (b2n c + b2n k + b2n s)
  p.judge (if nv then 8 else 4) false (f % 8 != 0 || bit f 14 || p.pos + n > p.fin) n fun p =>
    let key := p.at' (p.pos + 4 + 4 * b2n c) 4
    let q := (if nv then (p.put 109 (key.take 3)).has 14 else p.has 13).anchor 3 p.pos
    let q := if k then q.put 112 key else q
    Parse.tunType { q with pos := p.pos + n } t

/-- Protocols 4, 41 and 47 in the outer stack. IP-in-IP is present once the inner IP header is parsed (R186, R188). -/
def Parse.ipTunnel (proto : Nat) (p : Parse) : Parse :=
  if proto = 47 then p.gre
  else
    let q := if proto = 4 then p.enter.ip4 Parse.l4In else p.enter.ip6 Parse.l4In
    if q.ipI.isSome then (q.has 15).anchor 3 p.pos else q

/-! ### The outer stack -/

def Parse.l4Out (p : Parse) : Parse := p.l4 Parse.udpTunnel Parse.ipTunnel

/-- Up to four MPLS labels, then IP by the first nibble behind the bottom of stack. -/
def Parse.mpls : Nat → Parse → Parse
  | 0, p => p.flag fDepth
  | k + 1, p => p.judge 4 false false 4 fun p =>
      let q := (p.put (48 + 4 * p.labels) (p.at' p.pos 4)).has 3
      let q := { q with labels := p.labels + 1, pos := p.pos + 4 }
      if !bit (p.b (p.pos + 2)) 0 then Parse.mpls k q
      else if q.pos < q.fin && q.b q.pos / 16 = 4 then q.ip4 Parse.l4Out
      else if q.pos < q.fin && q.b q.pos / 16 = 6 then q.ip6 Parse.l4Out
      else q

/-- The EtherType behind tags and SecTAG. -/
def Parse.typeOut (p : Parse) : Parse :=
  let t := p.be p.pos 2
  let q := { p.put 44 (p.at' p.pos 2) with pos := p.pos + 2 }
  if t < 0x600 then q.flag fL2Len
  else if t = 0x800 then q.ip4 Parse.l4Out
  else if t = 0x86DD then q.ip6 Parse.l4Out
  else if (t = 0x8847 || t = 0x8848) && polEnable p.pol 0 then Parse.mpls 4 q
  else q

/-- A SecTAG that the line die did not process: the ICV ends the packet; with E = 1 the parse stops, else it goes on at the
EtherType behind the SecTAG (R178). -/
def Parse.secTag (next : Parse → Parse) (p : Parse) : Parse :=
  let n := p.pkt.length - 16
  let p := { p with fin := min p.fin n, dend := min p.dend n, pend := min p.pend n }
  let w := if bit (p.b (p.pos + 2)) 5 then 16 else 8
  p.judge 8 false false w fun p =>
    let q := { (p.flag fSecTag).has 25 with pos := p.pos + w }
    if bit (p.b (p.pos + 2)) 3 then q else q.judge 2 false false 2 next

/-- Outer tags, at most two: `k` more may follow; `other` takes any other EtherType. -/
def Parse.tags (other : Bool → Nat → Parse → Parse) (first : Bool) : Nat → Parse → Parse
  | k, p =>
    let t := p.be p.pos 2
    if isTpid p.pol t then
      match k with
      | 0 => p.flag fDepth
      | k + 1 => p.judge 6 false false 6 fun p =>
          let q := p.put (if first then 40 else 42) (p.at' (p.pos + 2) 2)
          let q := { q with present := if first then setN q.present 0 else setN (q.present - b2n (bit q.present 0)) 1 }
          let q := if first && (t = 0x88A8 || t = le p.pol 26 2) then q.has 2 else q
          Parse.tags other false k { q with pos := p.pos + 4 }
    else other first k p

/-- The headers of an outer Ethernet header: tags, and a SecTAG behind which further tags may stand. -/
def Parse.tagsOut : Parse → Parse :=
  Parse.tags (fun first k p =>
    if p.be p.pos 2 = 0x88E5 && p.line then p.secTag (Parse.tags (fun _ _ p => p.typeOut) first k) else p.typeOut) true 2

/-- The whole packet from byte 0. -/
def Parse.run (p : Parse) : Parse :=
  p.judge 14 false false 14 fun p => Parse.tagsOut { p.put 28 (p.at' 0 12) with pos := 12 }

/-! ### Checksums, hash, patterns -/

/-- The pseudo-header sum of an L4 segment. -/
def pseudoSum (x : IpSeen) (proto len : Nat) : Nat := sum16 (x.src ++ x.dst) + proto + len / 65536 + len % 65536

/-- Verify the L4 checksums (R185). -/
def Parse.verify (p : Parse) : Parse :=
  if p.host then p else
  p.l4s.foldl (fun p s =>
    match (if s.inner then p.ipI else p.ipO) with
    | none => p
    | some x =>
      if (if s.inner then p.overI else p.overO) || x.frag || (s.udp && !x.v6 && p.be (s.off + 6) 2 == 0) then p
      else
        let n := s.fin - s.off
        let good := inetOk (pseudoSum x (if s.udp then 17 else 6) n + sum16 (p.at' s.off n)) &&
                    !(s.udp && p.be (s.off + 6) 2 == 0)
        { p with flags := setN p.flags ((if good then 9 else 5) + if s.inner then 2 else 0) }) p

/-- The innermost IP header that was parsed. -/
def Parse.innermost (p : Parse) : Option IpSeen := match p.ipI with
  | some x => some x
  | none => p.ipO

/-- FLOW_HASH (R189). -/
def Parse.flowHash (p : Parse) (ingress : Nat) : Nat :=
  let rest := match p.innermost with
    | some x =>
      x.src ++ x.dst ++ leBytes 1 x.proto ++
      (if bit p.flags fEsp then bytesAt p.prv 116 4
       else match x.l4 with
         | some o => if bit p.flags fFrag then [] else p.at' o 4
         | none => [])
    | none => bytesAt p.prv 28 12 ++ bytesAt p.prv 44 2 ++ bytesAt p.prv 40 2
  (crc32c (bytesAt p.pol 28 4 ++ leBytes 2 ingress ++ rest)).toNat

/-- Whether a pattern slot (R197) matches in the scan window at some position (R198). -/
def patternHit (slot win : List Byte) (proto : Nat) : Bool :=
  let n := byteAt slot 3
  (byteAt slot 5 == 0 || byteAt slot 5 == proto) &&
  (List.range (le slot 8 2 + 1)).any fun p =>
    le slot 6 2 ≤ p && p + n ≤ win.length &&
    (List.range n).all fun i => (byteAt win (p + i) ^^^ byteAt slot (16 + i)) &&& byteAt slot (48 + i) == 0

/-- PCLASS (R198). -/
def Parse.pclass (p : Parse) (patterns : Map (List Byte)) : Nat :=
  if !polEnable p.pol 5 || p.pend ≤ p.pos then 0
  else
    let win := (p.pkt.drop p.pos).take (min (le p.pol 38 2) (p.pend - p.pos))
    let proto := (p.innermost.map (·.proto)).getD 0
    if win.isEmpty then 0
    else patterns.foldl (fun v s => if patternHit s.2 win proto then setN v (byteAt s.2 4) else v) 0

/-- An anchor as the PRV shows it. -/
def anchorByte (a : Nat) : List Byte := leBytes 1 (if a = absent then 0xFF else a)

/-- What a pass takes from the parser: the PRV, FLAGS, anchors, the parse itself. -/
structure Parsed where
  prv   : List Byte
  flags : Nat
  hash  : Nat
  raw   : Parse
deriving DecidableEq, Repr

/-- Parse a packet (R177-R189, R198): `hash` is the flow hash of its first pass, once computed. -/
def parsePacket (pol : List Byte) (patterns : Map (List Byte)) (pkt : List Byte) (ingress slice : Nat) (hash : Option Nat)
    (macsecOk fcs : Bool) : Parsed :=
  let kind := ingress / 4096
  let p := (Parse.run { pkt := pkt, pol := pol, line := (kind == 0 || kind == 3) && !macsecOk, host := kind == 1, fcs := fcs
                        fin := pkt.length, dend := pkt.length, pend := pkt.length }).verify
  let h := match hash with | some h => h | none => p.flowHash ingress
  let pc := p.pclass patterns
  let fl := if macsecOk then setN p.flags fMacsecOk else p.flags
  let fl := if pc != 0 then setN fl fPattern else fl
  let a := p.anchors
  let prv := putBytes p.prv 0 (leBytes 4 fl ++ leBytes 4 h ++ leBytes 4 p.present ++ leBytes 2 p.pos ++ leBytes 2 p.pend ++
    leBytes 2 ingress ++ leBytes 2 slice ++ ((a.drop 1).map anchorByte).flatten ++ leBytes 1 p.labels ++
    leBytes 1 (p.extO + 4 * p.extI))
  { prv := putBytes prv 184 (leBytes 8 pc), flags := fl, hash := h, raw := p }

end Sys2Proof.Machine
end

