-- ==== Sys2Proof/Machine/Headers.lean ====
section
/-!
DEFINITION. A packet while primitives change it: its headers, its anchors (R241), the repair of checksums (R243), and
how a primitive ends.
-/
namespace Sys2Proof.Machine

/-- What follows a primitive: the next one, a dropped packet, an exception (R250), or a wait for a context or for a
placement-table read. -/
inductive Fate where
  | go
  | drop
  | exc (reason : Nat)
  | wait (l : Loc)
deriving DecidableEq, Repr

/-- The packet, what follows, and the device after a primitive. -/
abbrev Turn := Packet × Fate × Dev

/-- The rule set of a generation (R253): a packet may be stamped with the one that is COMMITTING (R255). -/
def Dev.rulesOf (d : Dev) (g : Nat) : RuleSet :=
  let x := d.gens
  if g = x.current then x.rules
  else match x.committing with
    | some r => if g = (if x.current ≥ 65535 then 1 else x.current + 1) then r else x.rules
    | none => match x.draining with
      | some (n, r) => if n = g then r else x.rules
      | none => x.rules

/-- The parse policy of a rule set. -/
def RuleSet.pol (r : RuleSet) : List Byte := r.policy.getD policyDefault

/-- Count a primitive skipped by pipeline n (R266). -/
def actSkip (n : Nat) (d : Dev) : Dev := count (aPl n + 0x2100) d
def skipped (p : Packet) (d : Dev) : Turn := (p, .go, actSkip p.pl d)

/-! ### Bytes and anchors (R241) -/

/-- Bytes lo .. hi-1 replaced by `ins`; anchors inside become absent, those behind move. -/
def splice (lo hi : Nat) (ins : List Byte) (p : Packet) : Packet :=
  { p with
    bytes := p.bytes.take lo ++ ins ++ p.bytes.drop hi
    anchors := match p.anchors with
      | [] => []
      | z :: a => z :: a.map fun x =>
          if x = absent || x < lo then x else if x < hi then absent else x - (hi - lo) + ins.length }

/-- The packet cut at byte e. -/
def cutAt (e : Nat) (p : Packet) : Packet := if e < p.bytes.length then splice e p.bytes.length [] p else p

/-- Anchor i of R245, none when absent. -/
def Packet.anchor (p : Packet) (i : Nat) : Option Nat :=
  let a := p.anchors.getD i absent
  if a = absent then none else some a

/-! ### IP headers -/

/-- An IP header in a packet: its offset, its length with options or extension headers, the end of its datagram, where
its last protocol or next header field stands and what it says. -/
structure IpHdr where
  off : Nat
  v6  : Bool
  len : Nat
  fin : Nat
  protoAt : Nat
  proto : Nat
  frag : Bool
deriving DecidableEq, Repr

/-- The extension headers of an IPv6 header. -/
def extWalk (b : List Byte) : Nat → IpHdr → IpHdr
  | 0, x => x
  | k + 1, x =>
    let o := x.off + x.len
    if !([0, 43, 44, 60].contains x.proto) || o + 8 > b.length then x
    else
      let n := if x.proto = 44 then 8 else 8 * (byteAt b (o + 1) + 1)
      let fr := x.proto == 44 && be b (o + 2) 2 / 8 * 8 + be b (o + 2) 2 % 2 != 0
      extWalk b k { x with len := x.len + n, protoAt := o, proto := byteAt b o, frag := x.frag || fr }

/-- The IP header at offset h. -/
def ipAt (b : List Byte) (h : Nat) : Option IpHdr :=
  let n := byteAt b h % 16 * 4
  if byteAt b h / 16 = 4 && h + 20 ≤ b.length then
    some { off := h, v6 := false, len := n, fin := min b.length (h + be b (h + 2) 2), protoAt := h + 9
           proto := byteAt b (h + 9), frag := be b (h + 6) 2 % 16384 != 0 }
  else if byteAt b h / 16 = 6 && h + 40 ≤ b.length then
    some (extWalk b 3 { off := h, v6 := true, len := 40, fin := min b.length (h + 40 + be b (h + 4) 2), protoAt := h + 6
                        proto := byteAt b (h + 6), frag := false })
  else none

/-- The end of the range that encloses a stack (R182): for the outer one the packet's end, less the ICV of a SecTAG that was
not processed; for the inner one the outer UDP length of VXLAN and Geneve, else the outer IP length. -/
def Packet.stackEnd (p : Packet) (inner : Bool) : Nat :=
  let n := p.bytes.length - (if bit p.flags fSecTag then 16 else 0)
  match inner, (p.anchor 1).bind (ipAt p.bytes) with
  | true, some x =>
    let udp := bit (le p.prv 8 4) 11 || bit (le p.prv 8 4) 12
    match p.anchor 2 with
    | some l4 => if udp then min (min n x.fin) (l4 + be p.bytes (l4 + 4) 2) else min n x.fin
    | none => min n x.fin
  | _, _ => n

/-- The IP header at anchor 1 (outer) or 5 (inner), its datagram no longer than its stack. -/
def Packet.ipHdr (p : Packet) (inner : Bool) : Option IpHdr :=
  ((p.anchor (if inner then 5 else 1)).bind (ipAt p.bytes)).map fun x => { x with fin := min x.fin (p.stackEnd inner) }

/-- Recompute the header checksum of the IPv4 header at h. -/
def fixIp4 (h : Nat) (b : List Byte) : List Byte :=
  let b := putBe b (h + 10) 2 0
  putBe b (h + 10) 2 (inetChecksum (sum16 (bytesAt b h (byteAt b h % 16 * 4))))

/-- The IP header's length fields for a datagram that runs to the packet's end. -/
def fixIpLen (h : Nat) (b : List Byte) : List Byte :=
  if byteAt b h / 16 = 4 then fixIp4 h (putBe b (h + 2) 2 (b.length - h)) else putBe b (h + 4) 2 (b.length - h - 40)

/-- Traffic class of an IP header, and the header with another one. -/
def tosOf (b : List Byte) (h : Nat) : Nat :=
  if byteAt b h / 16 = 4 then byteAt b (h + 1) else be b h 2 / 16 % 256
def setTos (h tos : Nat) (b : List Byte) : List Byte :=
  if byteAt b h / 16 = 4 then fixIp4 h (putBe b (h + 1) 1 tos)
  else putBe b h 2 (be b h 2 / 4096 * 4096 + tos % 256 * 16 + be b h 2 % 16)

/-- RFC 6040 normal mode under another outer ECN: ECT(1) over ECT(0) gives ECT(1). -/
def ecnEct1 (h : Nat) (b : List Byte) : List Byte :=
  let t := tosOf b h
  if t % 4 = 2 then setTos h (t / 4 * 4 + 1) b else b

/-- RFC 6040, an outer CE over an inner header at h: ECT becomes CE; `false` over Not-ECT. -/
def ecnCe (h : Nat) (b : List Byte) : List Byte × Bool :=
  let t := tosOf b h
  if t % 4 = 0 then (b, false) else (setTos h (t / 4 * 4 + 3) b, true)

/-- The sum of a pseudo-header for a segment of n bytes. -/
def pseudoOf (b : List Byte) (h proto n : Nat) : Nat :=
  (if byteAt b h / 16 = 4 then sum16 (bytesAt b (h + 12) 8) else sum16 (bytesAt b (h + 8) 32)) + proto + n / 65536 + n % 65536

/-- Behind the tags and a SecTAG that start at `t`: where the EtherType stands. -/
def etherWalk (pol b : List Byte) : Nat → Nat → Nat
  | 0, t => t
  | k + 1, t =>
    if isTpid pol (be b t 2) then etherWalk pol b k (t + 4)
    else if be b t 2 = 0x88E5 then etherWalk pol b k (t + (if bit (byteAt b (t + 2)) 5 then 16 else 8))
    else t

/-- Where the EtherType of the Ethernet header at l2 stands. -/
def etherTypeAt (pol b : List Byte) (l2 : Nat) : Nat := etherWalk pol b 3 (l2 + 12)

/-- The EtherType directly ahead of offset h, behind an Ethernet header and its tags, if that is what stands there. -/
def etherAhead (pol : List Byte) (p : Packet) (inner : Bool) (h : Nat) : Option Nat :=
  match (if inner then p.anchor 4 else some 0) with
  | none => none
  | some l2 => let t := etherTypeAt pol p.bytes l2; if t + 2 = h then some t else none

/-- EtherType of an IP version. -/
def ipEther (v6 : Bool) : Nat := if v6 then 0x86DD else 0x800

def setEther (t : Option Nat) (v6 : Bool) (b : List Byte) : List Byte := match t with
  | some t => putBe b t 2 (ipEther v6)
  | none => b

/-! ### Writes and the repair of checksums (R243) -/

/-- The weight of byte k of a header in a sum of 16-bit words. -/
def byteWeight (k : Nat) : Nat := if k % 2 = 0 then 256 else 1

/-- The new checksum after the byte changes (offset, old, new) of a stretch, each weighed by `w` (0: not summed). -/
def adjustSum (c : Nat) (w : Nat → Nat) (ch : List (Nat × Nat × Nat)) : Nat :=
  let s := ch.foldl (fun s x => s + (255 - x.2.1) * w x.1 + x.2.2 * w x.1 +
    (if w x.1 = 0 then 0 else 65535 - 255 * w x.1)) (65535 - c)
  65535 - fold16 s

/-- The new checksum after a length that it sums changes. -/
def adjustLen (c was now : Nat) : Nat :=
  if was = now then c
  else 65535 - fold16 (65535 - c + now / 65536 + now % 65536 + (65535 - was / 65536 - was % 65536))

/-- Weights of the bytes that a TCP or UDP checksum covers among the IP and L4 headers of one stack. -/
def l4Weight (b : List Byte) (x : IpHdr) (l4 : Nat) (i : Nat) : Nat :=
  let n := if x.proto = 6 then byteAt b (l4 + 12) / 16 * 4 else 8
  let c := if x.proto = 6 then l4 + 16 else l4 + 6
  if l4 ≤ i && i < l4 + n then (if i = c || i = c + 1 then 0 else byteWeight (i - l4))
  else if x.v6 then
    (if x.off + 8 ≤ i && i < x.off + 40 then byteWeight (i - x.off) else if i = x.protoAt then 1 else 0)
  else if x.off + 12 ≤ i && i < x.off + 20 then byteWeight (i - x.off) else if i = x.off + 9 then 1 else 0

/-- The length that the pseudo-header of a TCP or UDP segment holds: that of the UDP header, or what the IP header's length
leaves behind the IP header. -/
def pseudoLen (b : List Byte) (x : IpHdr) (l4 : Nat) : Nat :=
  if x.proto = 17 then be b (l4 + 4) 2
  else if x.v6 then be b (x.off + 4) 2 + x.off + 40 - l4 else be b (x.off + 2) 2 + x.off - l4

/-- Repair the checksums of the IP header at anchor i and of the L4 header at anchor j after bytes changed at o: `old` holds
the bytes before. -/
def repairStack (p : Packet) (o : Nat) (old : List Byte) (i j : Nat) (b : List Byte) : List Byte :=
  match (p.anchor i).bind (ipAt p.bytes) with
  | none => b
  | some x =>
    let n := old.length
    let b := match p.anchor j with
      | none => b
      | some l4 =>
        if x.proto != 6 && x.proto != 17 then b
        else
          let c := if x.proto = 6 then l4 + 16 else l4 + 6
          let ch := (List.range n).map fun i => (o + i, byteAt old i, byteAt b (o + i))
          let w := l4Weight p.bytes x l4
          let was := pseudoLen p.bytes x l4
          let now := pseudoLen b x l4
          if (x.proto = 17 && be b c 2 = 0) || !(was != now || ch.any fun e => w e.1 != 0 && e.2.1 != e.2.2) then b
          else
            let v := adjustSum (adjustLen (be b c 2) was now) w ch
            putBe b c 2 (if x.proto = 17 && v = 0 then 0xFFFF else v)
    if !x.v6 && o < x.off + x.len && x.off < o + n then fixIp4 x.off b else b

/-- The anchors of the IP and L4 headers of a packet: those of the PRV's two stacks, then those that ENCAP has added in this
pass (`addStack`). -/
def Packet.stacks (p : Packet) : List (Nat × Nat) :=
  (1, 2) :: (5, 6) :: (List.range ((p.anchors.length - 7) / 2)).map fun k => (7 + 2 * k, 8 + 2 * k)

/-- An IP header at h that ENCAP has added, and its UDP header, so that later primitives of the pass repair them (R243). No
primitive names these anchors (R241). -/
def addStack (h : Nat) (l4 : Option Nat) (p : Packet) : Packet := { p with anchors := p.anchors ++ [h, l4.getD absent] }

/-- Write bytes at o and repair the checksums that cover them. -/
def writeAt (o : Nat) (v : List Byte) (p : Packet) : Packet :=
  let old := bytesAt p.bytes o v.length
  { p with bytes := p.stacks.foldl (fun b x => repairStack p o old x.1 x.2 b) (putBytes p.bytes o v) }

end Sys2Proof.Machine
end

