-- ==== Sys2Proof/Machine/Tables.lean ====
section
/-!
DEFINITION. Lookup tables (09_tables.md): definitions and keys, the exact-match store with its stash, the LPM
TCAM, their commands on rings and on the register path, lookups, aging and repair.
-/
namespace Sys2Proof.Machine

/-! ### Definitions and profiles (R201, R205-R208), as the bytes of their commands -/

def tKind (b : List Byte) : Nat := byteAt b 1
def tProfile (b : List Byte) : Nat := byteAt b 2
def tEvict (b : List Byte) : Nat := byteAt b 3
def tBase (b : List Byte) : Nat := le b 4 2
def tSize (b : List Byte) : Nat := le b 6 2
def tLane (b : List Byte) (pass : Nat) : Nat := byteAt b (7 + pass)
def tMiss (b : List Byte) : List Byte := bytesAt b 12 8

/-- KIND of a table in a rule set, 0 when it is not defined. -/
def RuleSet.kind (r : RuleSet) (t : Nat) : Nat := ((mfind r.tables t).map tKind).getD 0
/-- Its definition; every byte 0 when it is not defined. -/
def RuleSet.table (r : RuleSet) (t : Nat) : List Byte := (mfind r.tables t).getD []

def exactKind (k : Nat) : Bool := k = 1 || k = 2
def lpmKind (k : Nat) : Bool := k = 5 || k = 6
def tcamKind (k : Nat) : Bool := k = 3 || k = 4
/-- Entries per unit (R201). -/
def perUnit (k : Nat) : Nat := if k = 1 then 2048 else if k = 4 then 512 else if k = 6 then 256 else if k = 0 then 0 else 1024
/-- Capacity of a table: the stash is added to that of an exact-match table. -/
def capacity (b : List Byte) : Nat := perUnit (tKind b) * tSize b + (if exactKind (tKind b) then 1024 else 0)

def pKeyLen (b : List Byte) : Nat := byteAt b 1
def pMask (b : List Byte) (j : Nat) : Nat := byteAt b (68 + j)
/-- The extractions in use: (SOURCE, OFFSET, LENGTH, KEY_OFF). -/
def pExtractions (b : List Byte) : List (Nat × Nat × Nat × Nat) :=
  ((List.range 16).map fun i => (byteAt b (4 + 4 * i), byteAt b (5 + 4 * i), byteAt b (6 + 4 * i), byteAt b (7 + 4 * i))).filter
    fun x => x.1 != 0
/-- KEY_OFF of the SLICE extraction, if any (R48). -/
def pSlice (b : List Byte) : Option Nat := ((pExtractions b).find? fun x => x.1 == 2).map fun x => x.2.2.2

/-- The profile that a table's definition names. -/
def RuleSet.profileOf (r : RuleSet) (t : Nat) : List Byte := (mfind r.profiles (tProfile (r.table t))).getD []

/-- A pending redefinition (R210); a table that is not defined in CURRENT has none. -/
def Dev.redefining (d : Dev) (t : Nat) : Bool :=
  d.gens.rules.kind t != 0 && (d.gens.redef.contains t || d.gens.redefDrain.contains t)

/-- Whether a table holds entries or prefixes, in effect or staged (R209). -/
def Dev.tableHolds (d : Dev) (t : Nat) : Bool :=
  let x := d.tableWith t fun _ => true
  !(x.ents.isEmpty && x.prefixes.isEmpty && (d.table t).ents.isEmpty && (d.table t).prefixes.isEmpty)

/-! ### Places (R211-R213). Bucket slots have keys 2·bucket + slot, stash entries 2^32 + i -/

/-- Slots of a bucket: two narrow or one wide. -/
def slotsPer (kind : Nat) : Nat := if kind = 1 then 2 else 1

/-- Buckets A and B of a key, counted from the table's first bucket (R212). -/
def buckets (t size : Nat) (key : List Byte) : Nat × Nat :=
  let n := size * 1024
  let ha := (crc32c (BitVec.ofNat 8 t :: 0x00 :: key)).toNat
  let hb := (crc32c (BitVec.ofNat 8 t :: 0xFF :: key)).toNat
  let a := ha * n / 2 ^ 32
  let b := hb * n / 2 ^ 32
  (a, if b = a then (if n = 0 then 0 else (a + 1) % n) else b)

def slotKeys (kind b : Nat) : List Nat := (List.range (slotsPer kind)).map fun s => 2 * b + s
def stashKey (i : Nat) : Nat := 2 ^ 32 + i
def inStash (p : Nat) : Bool := p ≥ 2 ^ 32

/-- The first place that holds a key, in the order of R213. -/
def findKey (m : Map Entry) (kind : Nat) (ab : Nat × Nat) (key : List Byte) : Option (Nat × Entry) :=
  let at' := fun p => match mfind m p with
    | some e => if e.key = key then some (p, e) else none
    | none => none
  match (slotKeys kind ab.1 ++ slotKeys kind ab.2).findSome? at' with
  | some x => some x
  | none => m.find? fun x => inStash x.1 && x.2.key == key

/-- The lowest free slot of a bucket. -/
def freeSlot (m : Map Entry) (kind b : Nat) : Option Nat := (slotKeys kind b).find? fun p => (mfind m p).isNone

/-- Age of an entry, from the replica with the smallest age; beyond 36,863 s the adapter's own visits have pulled it
forward, and what it reads is open within their range (R219). -/
def entryAge (now : Nat) (e : Entry) : Nat :=
  let a := second now - e.hit.foldl max 0
  if a ≤ 36863 then a else 32768 + Config.visitAge a % 4096

/-- Entries of a table, each key once. -/
def distinct (m : Map Entry) : List Entry :=
  m.foldl (fun l x => if l.any fun e => e.key == x.2.key then l else l ++ [x.2]) []

/-- Entries that a slice owns. -/
def ownedBy (m : Map Entry) (s : Nat) : Nat := ((distinct m).filter fun e => e.owner == some s).length

/-! ### Insertion (R214-R217) -/

/-- A path of a relocation search: its slots, first to last, and the buckets visited. -/
structure MovePath where
  slots : List Nat
  seen  : List Nat
deriving DecidableEq, Repr

/-- The other bucket of the entry at place p. -/
def otherBucket (t size p : Nat) (e : Entry) : Nat :=
  let ab := buckets t size e.key
  if p / 2 = ab.1 then ab.2 else ab.1

/-- One level of the breadth-first search: the first path whose next bucket has a free slot, or the next level. -/
def bfsLevel (t size kind : Nat) (m : Map Entry) : List MovePath → List MovePath → List Nat ⊕ List MovePath
  | [], next => .inr next
  | p :: rest, next =>
    let last := p.slots.getLastD 0
    match mfind m last with
    | none => bfsLevel t size kind m rest next
    | some e =>
      let o := otherBucket t size last e
      if p.seen.contains o then bfsLevel t size kind m rest next
      else match freeSlot m kind o with
        | some f => .inl (p.slots ++ [f])
        | none => bfsLevel t size kind m rest
            (next ++ (slotKeys kind o).map fun s => ⟨p.slots ++ [s], o :: p.seen⟩)

/-- A relocation path of at most `moves` moves: its slots s0 .. sk. -/
def bfs (t size kind : Nat) (m : Map Entry) : Nat → List MovePath → Option (List Nat)
  | 0, _ => none
  | k + 1, level => match bfsLevel t size kind m level [] with
    | .inl p => some p
    | .inr next => bfs t size kind m k next

/-- The writes of a relocation, each at its own apply point: the last entry moves first, the new one comes last (R216). -/
def moveWrites (m : Map Entry) : List Nat → List (List (Nat × Option Entry))
  | a :: b :: r => moveWrites m (b :: r) ++ [[(b, (mfind m a).map fun e => { e with hit := [] })]]
  | _ => []

/-- What an operation on one entry answers and writes: one element of `writes` per apply point; `early` marks an
operation whose apply point is that of its first write (R218). -/
structure Plan where
  status : Nat
  detail : Nat := 0
  words  : List Nat := [0, 0, 0, 0]
  writes : List (List (Nat × Option Entry)) := []
  early  : Bool := false
  /-- The entry added, and whether the writes are an insertion's. -/
  added  : Bool := false
  ins    : Bool := false
  moves  : Nat := 0
  stashed : Bool := false
  evicted : Option (Entry × Nat) := none
deriving DecidableEq, Repr

/-- OWNER of R211, R222. -/
def ownerWord (o : Option Nat) : Nat := match o with
  | some s => s + 2 ^ 15
  | none => 0

def entryWords (e : Entry) (w3 : Nat) : List Nat := [le e.data 0 4, le e.data 4 4, ownerWord e.owner, w3]

/-- The eviction candidates: entries of buckets A and B, those of the owning slice when there is one (R215). -/
def candidates (m : Map Entry) (kind : Nat) (ab : Nat × Nat) (owner : Option Nat) : List (Nat × Entry) :=
  (slotKeys kind ab.1 ++ slotKeys kind ab.2).filterMap fun p => match mfind m p with
    | some e => if owner.isNone || e.owner == owner then some (p, e) else none
    | none => none

/-- The candidate with the greatest age, the first on a tie. -/
def oldest (now : Nat) : List (Nat × Entry) → Option (Nat × Entry)
  | [] => none
  | c :: r => match oldest now r with
    | none => some c
    | some x => if entryAge now x.2 > entryAge now c.2 then some x else some c

/-- Where an absent key goes (R214, R215). -/
def planNew (t : Nat) (def' : List Byte) (now draw : Nat) (m : Map Entry) (e : Entry) : Plan :=
  let kind := tKind def'
  let size := tSize def'
  let ab := buckets t size e.key
  match (freeSlot m kind ab.1).orElse fun _ => freeSlot m kind ab.2 with
  | some p => { status := stOk, writes := [[(p, some e)]], added := true, ins := true }
  | none =>
    let start := (slotKeys kind ab.1).map (fun s => (⟨[s], [ab.1]⟩ : MovePath)) ++
                 (slotKeys kind ab.2).map fun s => ⟨[s], [ab.2]⟩
    match bfs t size kind m 8 start with
    | some path =>
      { status := stOk, words := [0, 0, 0, path.length - 1], moves := path.length - 1, added := true, ins := true
        writes := moveWrites m path ++ [[(path.headD 0, some e)]] }
    | none => match (List.range 1024).find? fun i => (mfind m (stashKey i)).isNone with
      | some i => { status := stOk, words := [0, 0, 0, 256], stashed := true, added := true, ins := true
                    writes := [[(stashKey i, some e)]] }
      | none =>
        let c := candidates m kind ab e.owner
        let pick := if tEvict def' = 1 then oldest now c
          else if tEvict def' = 2 then List.head? (c.drop (draw % c.length)) else none
        match pick with
        | none => { status := stTableFull }
        | some (p, v) => { status := stEvicted, words := entryWords v 0, evicted := some (v, entryAge now v)
                           writes := [[(p, some e)]], added := true, ins := true }

/-- A deletion, with the return of the oldest stash entry of the freed bucket (R218). -/
def planDelete (t : Nat) (def' : List Byte) (m : Map Entry) (p : Nat) : Plan :=
  let back := if inStash p then none else
    (m.filter fun x => inStash x.1 &&
        (let ab := buckets t (tSize def') x.2.key; ab.1 == p / 2 || ab.2 == p / 2)).foldl
      (fun (best : Option (Nat × Entry)) x => match best with
        | none => some x
        | some y => if x.2.seq < y.2.seq then some x else some y) none
  match back with
  | none => { status := stOk, writes := [[(p, none)]], early := true }
  | some (q, e) => { status := stOk, words := [0, 0, 0, 2 ^ 10], early := true
                     writes := [[(p, none)], [(p, some { e with hit := [] })], [(q, none)]] }

inductive EntryOp where
  | insert | ifAbsent | modify | delete | lookup
deriving DecidableEq, Repr

/-- Whether a slice may own one more entry of a table (R44). -/
def Dev.capOk (d : Dev) (t : Nat) (m : Map Entry) (owner : Option Nat) : Bool := match owner with
  | none => true
  | some s => match d.slice s with
    | none => true
    | some x => let cap := x.caps.getD t 0xFFFFFFFF; cap = 0xFFFFFFFF || ownedBy m s < cap

/-- One operation on one entry (R172, R214-R222): `path` is the slice of a slice path, whose entries alone it may touch
(R221). LOOKUP reads the entry in effect, the others plan against everything staged. -/
def planEntry (op : EntryOp) (t : Nat) (key data : List Byte) (owner path : Option Nat) (d : Dev) : Plan :=
  let def' := d.gens.rules.table t
  let tab := if op = .lookup then d.table t else d.tableWith t fun _ => true
  let m := tab.ents
  let fresh : Entry := { key := key, owner := owner, data := data, seq := tab.seq }
  let full : Plan := { status := stNoResource, detail := 0x10000 + t }
  match findKey m (tKind def') (buckets t (tSize def') key) key with
  | some (p, e) =>
    if path.isSome && e.owner != path then
      (if op = .insert || op = .ifAbsent then { status := stDenied, detail := 0x201 } else { status := stNotFound })
    else match op with
      | .lookup => { status := stOk, words := entryWords e (entryAge d.time e * 65536) }
      | .ifAbsent => { status := stExists, words := entryWords e (entryAge d.time e * 65536) }
      | .delete => planDelete t def' m p
      | .modify => { status := stOk, writes := [[(p, some { e with data := data })]] }
      | .insert =>
        if owner != e.owner && !d.capOk t m owner then full
        else { status := stOk, words := entryWords e 512, ins := true
               writes := [[(p, some { e with data := data, owner := owner })]] }
  | none =>
    if op = .lookup || op = .modify || op = .delete then { status := stNotFound }
    else if !d.capOk t m owner then full
    else planNew t def' d.time (Config.randomDraw d.free) m fresh

/-- While an insertion of a table is staged, no other update of it is accepted (R217, R231). -/
def Dev.tableHeld (d : Dev) (t : Nat) : Bool := d.updates.any fun u => match u.op with
  | .slots t' ins _ => t' == t && ins
  | .lpm t' _ => t' == t
  | _ => false

/-- At most 32 entry writes share an apply point (R235). -/
def Dev.tablePoint (d : Dev) (lead : Nat) : Nat :=
  let a := d.applyPoint lead
  let n := (d.updates.filter fun u => u.apply == a && (match u.op with
    | .slots .. => true
    | .lpm .. => true
    | _ => false)).length
  if n ≥ 32 then a + 256 else a

/-- Stage writes at consecutive apply points from `a` on; what follows is done after the last. -/
def stageRun (mk : List (Nat × Option Entry) → UpdOp) (done : List UpdDone) : Nat → List (List (Nat × Option Entry)) → Dev → Dev
  | _, [], d => d
  | a, [w], d => stageAt a (mk w) done d
  | a, w :: r, d => d |> stageAt a (mk w) [] |> stageRun mk done (a + 256) r

/-- The counters of an operation (R236). -/
def countPlan (t : Nat) (p : Plan) (d : Dev) : Dev :=
  d |> when p.added (count (aTbl t + 0x10))
    |> when (p.moves != 0) (countBy (aTbl t + 0x14) p.moves)
    |> when p.stashed (count (aTbl t + 0x18))
    |> when p.evicted.isSome (count (aTbl t + 0x1C))
    |> when (p.status == stTableFull) (count (aTbl t + 0x20))

/-- The result words: apply point of the change in words 4 and 5 (R222). -/
def planWords (p : Plan) (a : Nat) : List Nat := p.words ++ [lo32 a, hi32 a]

/-- Carry out a plan: `mk` makes what follows from the words; nothing is staged when nothing is written. -/
def runPlan (t : Nat) (p : Plan) (mk : List Nat → UpdDone) (d : Dev) : Dev :=
  let d := countPlan t p d
  if p.writes.isEmpty then updFinish (mk (planWords p 0)) d
  else
    let r := drawStaging d
    let d := r.2
    let a := d.tablePoint (r.1 + 256)
    let last := a + 256 * (p.writes.length - 1)
    d |> updTable t (fun x => { x with seq := x.seq + 1 })
      |> stageRun (.slots t p.ins) [mk (planWords p (if p.early then a else last))] a p.writes

/-! ### Entry commands (R220-R223) -/

/-- A 64-byte record of an entry (R223). -/
def entryRecord (t kind age : Nat) (stash : Bool) (e : Entry) : List Byte :=
  leBytes 2 (min age 65535) ++ leBytes 2 (ownerWord e.owner) ++ leBytes 1 t ++
  leBytes 1 (b2n stash + 2 * b2n (kind == 2)) ++ leBytes 2 0 ++ padTo 48 e.key ++ padTo 8 e.data

/-- Whether a key has a bit under a 0 MASK bit, or a byte beyond KEY_LEN (R220). -/
def keyBad (prof : List Byte) (key : List Byte) : Bool :=
  (key.zipIdx).any fun x => if x.2 < pKeyLen prof then x.1.toNat &&& (255 - pMask prof x.2) != 0 else x.1 != 0

/-- The slice path of a ring: the slice whose entries alone the command touches (R221). -/
def slicePath (r : Ring) (e : Exec) : Option Nat := match r with
  | .manager => none
  | _ => if e.slice < 4096 then some e.slice else none

def entryFaults (op : EntryOp) (r : Ring) (b : List Byte) (d : Dev) : List (Option (Nat × Nat)) :=
  let t := byteAt b 0
  let fl := byteAt b 1
  let ow := le b 2 2
  let ins := op == .insert || op == .ifAbsent
  let mgr := r == .manager
  [bad (t > 63 || !exactKind (d.gens.rules.kind t)) 1,
   bad (if mgr then fl > 1 else fl != 0) 1,
   bad (if mgr then ow > 4095 || (fl == 0 && ow != 0) else ow != 0) 2,
   bad (!zeroAt b 4 4) 4,
   bad (keyBad (d.gens.rules.profileOf t) (bytesAt b 16 48)) 16,
   bad (ins && (le b 8 8 % 64 != 0 || (le b 8 8 == 0 && tEvict (d.gens.rules.table t) != 0))) 8,
   if ins && d.redefining t then some (stGenBusy, t) else none]

def entryCommand (op : EntryOp) (r : Ring) (e : Exec) (b : List Byte) (d : Dev) : Dev :=
  let t := byteAt b 0
  checks r (entryFaults op r b d) (fun d =>
    let prof := d.gens.rules.profileOf t
    let path := slicePath r e
    if r != .manager && path.isNone then reply r stDenied 0x200 [] d
    else if path.isSome && (pSlice prof).isNone then reply r stDenied t [] d
    else if op != .lookup && d.tableHeld t then d
    else
      let key := bytesAt b 16 (pKeyLen prof)
      let key := match path, pSlice prof with
        | some s, some o => putLe key o 2 s
        | _, _ => key
      let owner := match path with
        | some s => some s
        | none => if bit (byteAt b 1) 0 then some (le b 2 2) else none
      let p := planEntry op t key (bytesAt b 64 8) owner path d
      let d := match p.evicted with
        | some (v, age) => ringData r [(le b 8 8, entryRecord t (d.gens.rules.kind t) age false v)] d
        | none => d
      d |> begin' r |> runPlan t p (fun ws => .reply r p.status p.detail ws)) d

/-- ENTRY_INSERT (R214, R220). -/
def execEntryInsert (r : Ring) (p : Read) (s : State) : Host.Outcome State Fault Refusal :=
  .next (s.onDev fun _ d => command r 0x0301 p (entryCommand .insert r) d)
/-- ENTRY_INSERT_IF_ABSENT (R214, R220). -/
def execEntryInsertIfAbsent (r : Ring) (p : Read) (s : State) : Host.Outcome State Fault Refusal :=
  .next (s.onDev fun _ d => command r 0x0302 p (entryCommand .ifAbsent r) d)
/-- ENTRY_MODIFY (R220). -/
def execEntryModify (r : Ring) (p : Read) (s : State) : Host.Outcome State Fault Refusal :=
  .next (s.onDev fun _ d => command r 0x0303 p (entryCommand .modify r) d)
/-- ENTRY_DELETE (R218, R220). -/
def execEntryDelete (r : Ring) (p : Read) (s : State) : Host.Outcome State Fault Refusal :=
  .next (s.onDev fun _ d => command r 0x0304 p (entryCommand .delete r) d)
/-- ENTRY_LOOKUP (R220). -/
def execEntryLookup (r : Ring) (p : Read) (s : State) : Host.Outcome State Fault Refusal :=
  .next (s.onDev fun _ d => command r 0x0305 p (entryCommand .lookup r) d)

/-! ### The register path (R171-R173) -/

/-- Only the manager and the cores have a set of table command registers. -/
def hasTblRegs : Requester → Bool
  | .manager => true
  | .core _ => true
  | _ => false

def tblErr (q : Requester) (d : Dev) : Dev :=
  { d with tblRegs := mupd {} d.tblRegs (reqKey q) fun x => { x with err := sat32 (x.err + 1) } }

/-- The operation that OP names. -/
def entryOp : Nat → Option EntryOp
  | 1 => some .insert
  | 2 => some .ifAbsent
  | 3 => some .modify
  | 4 => some .delete
  | 5 => some .lookup
  | _ => none

/-- The requester whose set of table command registers has a key. -/
def tblReq (k : Nat) : Requester := if k = 0 then .manager else .core (fin 16 (k - 1))

/-- The operation that TBL_CMD names runs with its registers' key and data; without the command engine it ends with
ABORTED. -/
def tblRun (q : Requester) (d : Dev) : Dev :=
  let x := mget {} d.tblRegs (reqKey q)
  let t := wbits x.cmd 11 6
  let key := ((List.range 14).map fun i => leBytes 4 (mget 0 x.key i).toNat).flatten
  let data := ((List.range 2).map fun i => leBytes 4 (mget 0 x.data i).toNat).flatten
  let prof := d.gens.rules.profileOf t
  if !d.engineReady then regReturn q stAborted 0 [] [] d
  else match entryOp (wbits x.cmd 3 0) with
  | none => regReturn q stBadOpcode 0 [] [] d
  | some op =>
    if !exactKind (d.gens.rules.kind t) then regReturn q stBadParam 1 [] [] d
    else if keyBad prof key then regReturn q stBadParam 16 [] [] d
    else if (op == .insert || op == .ifAbsent) && d.redefining t then regReturn q stGenBusy t [] [] d
    else
      let p := planEntry op t (key.take (pKeyLen prof)) data (if x.cmd.getLsbD 15 then some (wbits x.cmd 27 16) else none) none d
      let ev := match p.evicted with | some (v, _) => padTo 56 v.key | none => []
      runPlan t p (fun ws => .regPath q p.status p.detail ws ev) d

/-- Whether the operation of a register set must wait: a changing one for an insertion staged in its table (R217) and for
what was accepted before it (R164). -/
def Dev.tblWaits (d : Dev) (x : TblRegs) (seq : Nat) : Bool :=
  d.engineReady && wbits x.cmd 3 0 != 5 && (d.tableHeld (wbits x.cmd 11 6) || d.ahead seq)

/-- A write of TBL_CMD with GO: the operation is accepted, and runs unless it must wait. -/
def tblGo (q : Requester) (code owner : Nat) (ownerValid : Bool) (t : Nat) (d : Dev) : Dev :=
  if !hasTblRegs q then badAccess d
  else if (mget {} d.tblRegs (reqKey q)).busy then tblErr q d
  else
    let n := d.accepted
    let cmd := word (owner * 2 ^ 16 + b2n ownerValid * 2 ^ 15 + t * 2 ^ 6 + code)
    let set := fun (w : Option Nat) (d : Dev) => { d with tblRegs := mupd {} d.tblRegs (reqKey q) fun x =>
      { x with cmd := cmd, busy := true, waiting := w, status := stPending, detail := 0 } }
    let e := set none { d with accepted := n + 1 }
    if e.tblWaits (mget {} e.tblRegs (reqKey q)) n then set (some n) e else tblRun q e

/-- Waiting operations run as far as they may, in the order of their acceptance. -/
def tblSettle (d : Dev) : Dev :=
  let w : Map Nat := d.tblRegs.foldl (fun m e => match e.2.waiting with | some n => mput m n e.1 | none => m) []
  each (w.map (·.2)) (fun k d =>
    let x := mget {} d.tblRegs k
    match x.waiting with
    | none => d
    | some n =>
      if d.tblWaits x n then d
      else tblRun (tblReq k) { d with tblRegs := mupd {} d.tblRegs k fun x => { x with waiting := none } }) d

/-- COHERENT_UPDATE_APPLY (R17): device time reaches the first pending apply point, and all its updates take effect. -/
def execCoherentUpdateApply (s : State) : Host.Outcome State Fault Refusal :=
  .next (s.onDev fun _ d => d |> applyNext |> tblSettle)

/-- TBL_INSERT (R172). -/
def execTblInsert (q : Requester) (owner : BitVec 12) (ov : Bool) (t : Fin 64) (s : State) : Host.Outcome State Fault Refusal :=
  .next (s.atReg q 0xD800000 fun _ d => tblGo q 1 owner.toNat ov t d)
/-- TBL_INSERT_IF_ABSENT (R172). -/
def execTblInsertIfAbsent (q : Requester) (owner : BitVec 12) (ov : Bool) (t : Fin 64) (s : State) :
    Host.Outcome State Fault Refusal :=
  .next (s.atReg q 0xD800000 fun _ d => tblGo q 2 owner.toNat ov t d)
/-- TBL_MODIFY (R172). -/
def execTblModify (q : Requester) (owner : BitVec 12) (ov : Bool) (t : Fin 64) (s : State) : Host.Outcome State Fault Refusal :=
  .next (s.atReg q 0xD800000 fun _ d => tblGo q 3 owner.toNat ov t d)
/-- TBL_DELETE (R172). -/
def execTblDelete (q : Requester) (owner : BitVec 12) (ov : Bool) (t : Fin 64) (s : State) : Host.Outcome State Fault Refusal :=
  .next (s.atReg q 0xD800000 fun _ d => tblGo q 4 owner.toNat ov t d)
/-- TBL_LOOKUP (R172). -/
def execTblLookup (q : Requester) (owner : BitVec 12) (ov : Bool) (t : Fin 64) (s : State) : Host.Outcome State Fault Refusal :=
  .next (s.atReg q 0xD800000 fun _ d => tblGo q 5 owner.toNat ov t d)

/-! ### Aging (R219, R224) -/

/-- Walk position of a place: the bucket, or B + i for stash entry i. -/
def walkPos (nb p : Nat) : Nat := if inStash p then nb + (p - 2 ^ 32) else p / 2

/-- Take the records of whole buckets from the places of a walk until `max` would be exceeded: the places taken, and
the position at which the walk stops, if it does. -/
def takeWalk (nb max : Nat) : List Nat → List (Nat × Entry) → Nat → List (Nat × Entry) × Option Nat
  | [], _, _ => ([], none)
  | w :: r, l, n =>
    let b := l.filter fun x => walkPos nb x.1 == w
    if n + b.length > max then ([], some w)
    else
      let x := takeWalk nb max r l (n + b.length)
      (b ++ x.1, x.2)

def ageScan (r : Ring) (b : List Byte) (d : Dev) : Dev :=
  let t := byteAt b 0
  let def' := d.gens.rules.table t
  let nb := tSize def' * 1024
  let cur := le b 8 4
  checks r [bad (t > 63 || !exactKind (d.gens.rules.kind t)) 1, bad (byteAt b 1 > 1) 1, bad (le b 2 2 > 4095) 2,
            bad (le b 4 2 == 0 || le b 4 2 > 32767) 4, bad (le b 6 2 < 2 || le b 6 2 > 4096) 6, bad (cur ≥ nb + 1024) 8,
            bad (!zeroAt b 12 4) 12, bad (le b 16 8 % 64 != 0) 16] (fun d =>
    let stop := min (nb + 1024) (cur + 65536)
    let l := (d.table t).ents.filter fun x =>
      let w := walkPos nb x.1
      cur ≤ w && w < stop && entryAge d.time x.2 ≥ le b 4 2 && (!bit (byteAt b 1) 0 || x.2.owner == some (le b 2 2))
    let ws := (l.map fun x => walkPos nb x.1).eraseDups
    let x := takeWalk nb (le b 6 2) ws l 0
    let next := match x.2 with
      | some w => w
      | none => if stop ≥ nb + 1024 then 0xFFFFFFFF else stop
    d |> ringData r (x.1.zipIdx.map fun e =>
          (le b 16 8 + 64 * e.2, entryRecord t (tKind def') (entryAge d.time e.1.2) (inStash e.1.1) e.1.2))
      |> reply r stOk 0 [x.1.length, next]) d

/-- AGE_SCAN (R224). -/
def execAgeScan (r : Ring) (p : Read) (s : State) : Host.Outcome State Fault Refusal :=
  .next (s.onDev fun _ d => command r 0x0306 p (fun _ b => ageScan r b) d)

/-- The adapter visits every entry: one aged 32,768 s or more is pulled forward to that age in every replica (R219). -/
def ageVisit (t : Nat) (d : Dev) : Dev :=
  let pull := fun (_ : Nat) (e : Entry) =>
    if entryAge d.time e ≥ 32768 then { e with hit := List.replicate 4 (second d.time - 32768) } else e
  updTable t (fun x => { x with ents := mmap x.ents pull }) d

/-- AGE_VISIT (R219). -/
def execAgeVisit (t : Fin 64) (s : State) : Host.Outcome State Fault Refusal := .next (s.onDev fun _ d => ageVisit t d)

/-! ### TABLE_QUERY (R225) -/

/-- Rules of a classic TCAM table that a rule set holds. -/
def RuleSet.ruleCount (r : RuleSet) (t : Nat) : Nat := (r.tcam.filter fun x => x.1 / 65536 == t).length

def stashCount (m : Map Entry) : Nat := (m.filter fun x => inStash x.1).length

/-- Entries, rules or prefixes of a table that are present (TBL_IN_USE). -/
def Dev.tableInUse (d : Dev) (t : Nat) : Nat :=
  let k := d.gens.rules.kind t
  if exactKind k then (distinct (d.table t).ents).length
  else if lpmKind k then (d.table t).prefixes.length
  else if tcamKind k then d.gens.rules.ruleCount t
  else 0

def tableQuery (r : Ring) (e : Exec) (b : List Byte) (d : Dev) : Dev :=
  let t := byteAt b 0
  let def' := d.gens.rules.table t
  checks r [bad (t > 63) 0, bad (byteAt b 1 != 0) 1, bad (byteAt b 2 != 0) 2, bad (byteAt b 3 != 0) 3] (fun d =>
    let k := tKind def'
    let m := (d.table t).ents
    let w0 := k + tProfile def' * 2 ^ 8 + tEvict def' * 2 ^ 16 + b2n (d.redefining t) * 2 ^ 24
    let w23 := match d.slice e.slice with
      | some x => [if exactKind k then ownedBy m e.slice else 0, x.caps.getD t 0]
      | none => [d.tableInUse t, if exactKind k then stashCount m else 0]
    reply r stOk 0 ([w0, capacity def'] ++ w23 ++ [tBase def', tSize def']) d) d

/-- TABLE_QUERY (R225). -/
def execTableQuery (r : Ring) (p : Read) (s : State) : Host.Outcome State Fault Refusal :=
  .next (s.onDev fun _ d => command r 0x0309 p (tableQuery r) d)

/-! ### LPM tables (R229-R231) -/

/-- Address bytes of a KIND: 4 for IPv4, 16 for IPv6. -/
def lpmBytes (kind : Nat) : Nat := if kind = 5 then 4 else 16
/-- Rows of a prefix. -/
def lpmRows (kind : Nat) : Nat := if kind = 5 then 1 else 4

/-- Whether the leading `len` bits of two addresses agree. -/
def leadEq (len : Nat) (a b : List Byte) : Bool :=
  let w := 8 * a.length
  beNat a / 2 ^ (w - len) == beNat b / 2 ^ (w - len)

/-- The chunks of a shift of n rows: at most 4,096 rows each. -/
def shiftChunks (rows : Nat) : Nat := (rows + 4095) / 4096

/-- Stage the steps of a shift at consecutive apply points. -/
def stageLpm (t : Nat) (done : List UpdDone) : Nat → List (List Prefix) → Dev → Dev
  | _, [], d => d
  | a, [p], d => stageAt a (.lpm t p) done d
  | a, p :: r, d => d |> stageAt a (.lpm t p) [] |> stageLpm t done (a + 256) r

def lpmFaults (b : List Byte) (d : Dev) : List (Option (Nat × Nat)) :=
  let t := byteAt b 0
  let k := d.gens.rules.kind t
  let n := lpmBytes k
  let len := byteAt b 1
  [bad (t > 63 || !lpmKind k) 1, bad (len > 8 * n) 1, bad (!zeroAt b 4 4) 4,
   bad (beNat (bytesAt b 8 n) % 2 ^ (8 * n - len) != 0 || !zeroAt b (8 + n) (16 - n)) 8]

/-- The prefix that the parameters give. -/
def prefixOf (kind : Nat) (b : List Byte) : Prefix :=
  { len := byteAt b 1, vrf := le b 2 2, addr := bytesAt b 8 (lpmBytes kind), data := bytesAt b 24 8 }

def samePrefix (a b : Prefix) : Bool := a.len == b.len && a.vrf == b.vrf && a.addr == b.addr

/-- Carry out an LPM change in its steps. -/
def runLpm (r : Ring) (t : Nat) (steps : List (List Prefix)) (w0 moved : Nat) (d : Dev) : Dev :=
  let x := drawStaging d
  let d := x.2
  let a := d.tablePoint (x.1 + 256)
  let last := a + 256 * (steps.length - 1)
  d |> begin' r |> stageLpm t [.reply r stOk 0 [w0, moved, 0, 0, lo32 last, hi32 last]] a steps

def lpmInsert (r : Ring) (b : List Byte) (d : Dev) : Dev :=
  let t := byteAt b 0
  checks r (lpmFaults b d ++ [if d.redefining t then some (stGenBusy, t) else none]) (fun d =>
    if d.tableHeld t then d
    else
      let def' := d.gens.rules.table t
      let k := tKind def'
      let l := (d.tableWith t fun _ => true).prefixes
      let p := prefixOf k b
      let w := lpmRows k
      if l.any (samePrefix p) then runLpm r t [l.map fun x => if samePrefix p x then p else x] 1 0 d
      else if (l.length + 1) * w > tSize def' * 1024 then d |> count (aTbl t + 0x20) |> reply r stTableFull 0 []
      else
        let up := l.takeWhile fun x => x.len ≥ p.len
        let down := l.drop up.length
        let moved := down.length * w
        d |> count (aTbl t + 0x10)
          |> runLpm r t (List.replicate (shiftChunks moved) l ++ [up ++ p :: down]) 0 moved) d

/-- LPM_INSERT (R230, R231). -/
def execLpmInsert (r : Ring) (p : Read) (s : State) : Host.Outcome State Fault Refusal :=
  .next (s.onDev fun _ d => command r 0x0307 p (fun _ b => lpmInsert r b) d)

def lpmDelete (r : Ring) (b : List Byte) (d : Dev) : Dev :=
  let t := byteAt b 0
  checks r (lpmFaults b d) (fun d =>
    if d.tableHeld t then d
    else
      let k := d.gens.rules.kind t
      let l := (d.tableWith t fun _ => true).prefixes
      let p := prefixOf k b
      match l.findIdx? (samePrefix p) with
      | none => reply r stNotFound 0 [] d
      | some i =>
        let moved := (l.length - i - 1) * lpmRows k
        runLpm r t (List.replicate (shiftChunks moved + 1) (l.eraseIdx i)) 0 moved d) d

/-- LPM_DELETE (R230, R231). -/
def execLpmDelete (r : Ring) (p : Read) (s : State) : Host.Outcome State Fault Refusal :=
  .next (s.onDev fun _ d => command r 0x0308 p (fun _ b => lpmDelete r b) d)

/-! ### Lookups (R204, R213, R227, R229) -/

/-- What a lane yields: hit, ACTION and ARG, the owner of the entry, and the key of the entry that a hit refreshes. -/
structure LaneResult where
  hit   : Bool
  data  : List Byte
  owner : Option Nat := none
  found : Option (List Byte) := none
deriving DecidableEq, Repr

/-- Whether rule bytes (VALUE 40, MASK 40, DATA 8) match a key: bits beyond it compare as 0 (R227). -/
def ruleMatches (rule key : List Byte) : Bool :=
  (List.range 40).all fun i => (byteAt key i ^^^ byteAt rule i) &&& byteAt rule (40 + i) == 0

/-- One lookup in table t of a rule set, the live entries as `tab` has them. -/
def lookupTable (rs : RuleSet) (t : Nat) (tab : Table) (key : List Byte) : LaneResult :=
  let def' := rs.table t
  let k := tKind def'
  let miss : LaneResult := { hit := false, data := tMiss def' }
  if exactKind k then match findKey tab.ents k (buckets t (tSize def') key) key with
    | some (_, e) => { hit := true, data := e.data, owner := e.owner, found := some key }
    | none => miss
  else if tcamKind k then
    match rs.tcam.find? fun x => x.1 / 65536 == t && ruleMatches x.2 key with
    | some x => { hit := true, data := bytesAt x.2 80 8 }
    | none => miss
  else if lpmKind k then
    match tab.prefixes.find? fun p => p.vrf == le key 0 2 && leadEq p.len (bytesAt key 2 (lpmBytes k)) p.addr with
    | some p => { hit := true, data := p.data }
    | none => miss
  else miss

/-- A hit refreshes the entry's HIT_TIME in the replica of its own die (R219), wherever the entry stands now. -/
def touchEntry (t : Nat) (key : List Byte) (die now : Nat) (d : Dev) : Dev :=
  updTable t (fun x => { x with ents := mmap x.ents fun _ e =>
    if e.key = key then { e with hit := e.hit.set die (second now) } else e }) d

/-- Add one to a wrapping 64-bit count. -/
def count64 (off : Nat) (d : Dev) : Dev := setReg64 off ((d.reg64 off + 1) % 2 ^ 64) d

/-! ### Repair of a damaged row (R233) -/

/-- What is staged of a table's insertion or shift takes effect first (R217, R231). -/
def freeTable (t : Nat) (d : Dev) : Dev :=
  let a := (d.updates.filter fun u => match u.op with
    | .slots t' ins _ => t' == t && ins
    | .lpm t' _ => t' == t
    | _ => false).foldl (fun a u => max a u.apply) 0
  timeTo a d

/-- Stage updates of a table at its next apply points (R17, R235). -/
def stageTable (l : List UpdOp) (d : Dev) : Dev :=
  let r := drawStaging d
  let a := r.2.tablePoint (r.1 + 256)
  each l.zipIdx (fun u => stageAt (a + 256 * u.2) u.1 []) r.2

/-- Delete the entry with a key, with the stash return of R218. -/
def deleteKey (t : Nat) (key : List Byte) (d : Dev) : Dev :=
  let def' := d.gens.rules.table t
  let m := (d.tableWith t fun _ => true).ents
  match findKey m (tKind def') (buckets t (tSize def') key) key with
  | some (p, _) => stageTable ((planDelete t def' m p).writes.map (.slots t false)) d
  | none => d

/-- The rule at an index of a classic TCAM table: CURRENT's, else DRAINING's. -/
def Dev.ruleAt (d : Dev) (t i : Nat) : Option (List Byte) :=
  (mfind d.gens.rules.tcam (t * 65536 + i)).orElse fun _ => d.gens.draining.bind fun x => mfind x.2.tcam (t * 65536 + i)

/-- Take a damaged row out of every replica: the entry, prefix or rule that stood there; nothing once an update staged before
has rewritten it. -/
def loseRow (t place : Nat) (d : Dev) : Dev :=
  let k := d.gens.rules.kind t
  let x := d.table t
  let e := freeTable t d
  if exactKind k then match mfind x.ents place with
    | some y => if ((mfind (e.table t).ents place).map (·.key)) = some y.key then deleteKey t y.key e else e
    | none => e
  else if lpmKind k then match x.prefixes[place / lpmRows k]? with
    | some p => stageTable [.lpm t ((e.table t).prefixes.filter (· != p))] e
    | none => e
  else match e.ruleAt t place with
    | some b => stageTable [.rule t place b] e
    | none => e

/-- A damaged row is rewritten from a good replica, or lost (R233). -/
def tableRepair (t place : Nat) (good : Bool) (d : Dev) : Dev :=
  let d := count (aTbl t + 0x24) d
  if good then d |> freeTable t |> stageTable [.slots t false []]
  else d |> loseRow t place |> raise 0x0A t (if exactKind (d.gens.rules.kind t) then place / 2 else place) 0

/-- TABLE_ECC_REPAIR (R233). -/
def execTableEccRepair (t : Fin 64) (place : Nat) (good : Bool) (s : State) : Host.Outcome State Fault Refusal :=
  .next (s.onDev fun _ d => if d.gens.rules.kind t = 0 then d else tableRepair t place good d)

/-- Delete every entry that a slice owns, as coherent updates (R51, R55). -/
def deleteOwned (s : Nat) (d : Dev) : Dev :=
  each (List.range 64) (fun t d =>
    let own := (d.tableWith t fun _ => true).ents.filter fun x => x.2.owner == some s
    if own.isEmpty then d
    else
      let d := freeTable t d
      each ((distinct (d.table t).ents).filter fun e => e.owner == some s) (fun e => deleteKey t e.key) d) d

end Sys2Proof.Machine
end

