-- ==== Sys2Proof/Machine/RuleSets.lean ====
section
/-!
DEFINITION. Rule sets and generations (10_actions_generations.md): the rule-set commands of every chapter that
write the SHADOW bank, commits, retirement, the policy of SLICE_EXCEPTION_SET and the counter capture.
-/
namespace Sys2Proof.Machine

/-! ### The SHADOW bank (R256, R258) -/

/-- A rule-set command acts on the SHADOW bank, or answers that there is none. -/
def onShadow (r : Ring) (go : RuleSet → Dev → Dev) (d : Dev) : Dev := match d.gens.shadow with
  | none => reply r stNotFound 0x400 [] d
  | some x => go x d

/-- Write the SHADOW bank and answer OK. -/
def shadowSet (r : Ring) (x : RuleSet) (d : Dev) : Dev :=
  { d with gens := { d.gens with shadow := some x } } |> reply r stOk 0 []

/-- A pending redefinition begins (R210). -/
def markRedef (t : Nat) (d : Dev) : Dev :=
  if d.gens.redef.contains t then d else { d with gens := { d.gens with redef := d.gens.redef ++ [t] } }

/-- The first byte of a reserved range that is not 0, with its own offset. -/
def badBytes (b : List Byte) (o n : Nat) : Option (Nat × Nat) :=
  ((List.range n).find? fun i => byteAt b (o + i) != 0).map fun i => (stBadParam, o + i)

def discardShadow (d : Dev) : Dev := { d with gens := { d.gens with shadow := none, base := 0, redef := [] } }

/-- RS_OPEN; it waits while a bank is COMMITTING, whose place it would take (R254; log 24). -/
def rsOpen (r : Ring) (b : List Byte) (d : Dev) : Dev :=
  let fl := byteAt b 0
  checks r [bad (fl / 4 != 0 || fl == 3) 0, badBytes b 1 3] (fun d =>
    if bit fl 1 then onShadow r (fun _ d => d |> discardShadow |> reply r stOk 0 []) d
    else if d.gens.shadow.isSome then reply r stExists 0 [] d
    else if d.gens.committing.isSome then d
    else
      let base := if bit fl 0 then 0 else d.gens.current
      { d with gens := { d.gens with shadow := some (if bit fl 0 then {} else d.gens.rules), base := base } }
        |> reply r stOk 0 [base]) d

/-- RS_OPEN (R259). -/
def execRsOpen (r : Ring) (p : Read) (s : State) : Host.Outcome State Fault Refusal :=
  .next (s.onDev fun _ d => command r 0x0401 p (fun _ b => rsOpen r b) d)

/-! ### Key profiles (R206) -/

/-- Bytes of a source: PRV, SLICE, META. -/
def sourceSize (s : Nat) : Nat := if s = 1 then 200 else if s = 2 then 2 else 16

/-- The fault of extraction i. -/
def extFault (b : List Byte) (i : Nat) : Option (Nat × Nat) :=
  let o := 4 + 4 * i
  let src := byteAt b o
  let off := byteAt b (o + 1)
  let len := byteAt b (o + 2)
  let k := byteAt b (o + 3)
  if src = 0 then badBytes b (o + 1) 3
  else if src > 3 then some (stBadParam, o)
  else if off ≥ sourceSize src || (src == 2 && off != 0) then some (stBadParam, o + 1)
  else if (if src = 2 then len != 2 else len = 0 || len > 16) || off + len > sourceSize src then some (stBadParam, o + 2)
  else if k + len > pKeyLen b then some (stBadParam, o + 3)
  else none

/-- Extraction i in use. -/
def extUsed (b : List Byte) (i : Nat) : Bool := byteAt b (4 + 4 * i) != 0

/-- Whether extraction i overlaps an earlier one in the key. -/
def extOverlaps (b : List Byte) (i : Nat) : Bool :=
  let lo := fun j => byteAt b (7 + 4 * j)
  let hi := fun j => lo j + byteAt b (6 + 4 * j)
  extUsed b i && (List.range i).any fun j => extUsed b j && lo i < hi j && lo j < hi i

def profileFaults (b : List Byte) : List (Option (Nat × Nat)) :=
  let second := (List.range 16).find? fun i => byteAt b (4 + 4 * i) == 2 &&
    (List.range i).any fun j => byteAt b (4 + 4 * j) == 2
  let onSlice := fun j => match pSlice b with | some k => k ≤ j && j < k + 2 | none => false
  let mask := (List.range 48).find? fun j => (j ≥ pKeyLen b && pMask b j != 0) || (onSlice j && pMask b j != 0xFF)
  [bad (byteAt b 0 > 63) 0, bad (pKeyLen b == 0 || pKeyLen b > 48) 1, badBytes b 2 2] ++
  (List.range 16).map (extFault b) ++
  [((List.range 16).find? (extOverlaps b)).map fun i => (stBadParam, 7 + 4 * i),
   second.map fun i => (stBadParam, 4 + 4 * i), mask.map fun j => (stBadParam, 68 + j)]

/-- Kinds whose entries are live (R202). -/
def liveKind (k : Nat) : Bool := exactKind k || lpmKind k

def rsKeyProfile (r : Ring) (b : List Byte) (x : RuleSet) (d : Dev) : Dev :=
  let n := byteAt b 0
  checks r (profileFaults b) (fun d =>
    let named := if mfind d.gens.rules.profiles n = some b then [] else
      (d.gens.rules.tables.filter fun e => liveKind (tKind e.2) && tProfile e.2 == n).map (·.1)
    if named.any d.tableHolds then reply r stBadParam 0x100 [] d
    else d |> each named markRedef |> shadowSet r { x with profiles := mput x.profiles n b }) d

/-- RS_KEY_PROFILE (R206, R210). -/
def execRsKeyProfile (r : Ring) (p : Read) (s : State) : Host.Outcome State Fault Refusal :=
  .next (s.onDev fun _ d => command r 0x0402 p (fun _ b => onShadow r (rsKeyProfile r b)) d)

/-! ### Table definitions (R208-R210) -/

/-- The store of a kind and its units: table store, classic TCAM, LPM TCAM. -/
def storeOf (k : Nat) : Nat := if exactKind k then 1 else if tcamKind k then 2 else 3
def storeUnits (k : Nat) : Nat := if exactKind k then 1536 else if tcamKind k then 64 else 256

/-- Key lengths of a kind (R201). -/
def keyLenOk (k n : Nat) : Bool :=
  if k = 1 then 1 ≤ n && n ≤ 16 else if k = 2 then 1 ≤ n && n ≤ 48 else if k = 3 then 1 ≤ n && n ≤ 20
  else if k = 4 then 1 ≤ n && n ≤ 40 else if k = 5 then n == 6 else n == 18

/-- Field faults of RS_TABLE_BIND, in ascending offset. -/
def bindFields (b : List Byte) : List (Option (Nat × Nat)) :=
  let k := tKind b
  [bad (byteAt b 0 > 63) 0, bad (k > 6) 1] ++
  (if k = 0 then [badBytes b 2 2, bad (tBase b != 0) 4, bad (tSize b != 0) 6, badBytes b 8 4, bad (!zeroAt b 12 8) 12,
                  bad (!zeroAt b 20 4) 20]
   else [bad (tProfile b > 63 && !(tProfile b == 0xFE && k == 3)) 2, bad (tEvict b > if exactKind k then 2 else 0) 3,
         bad (k == 4 && tBase b % 2 != 0) 4, bad (tSize b == 0 || (k == 4 && tSize b % 2 != 0)) 6] ++
        (List.range 3).map (fun i => bad (tLane b (i + 1) > 7 && tLane b (i + 1) != 0xFF) (8 + i)) ++
        [bad (byteAt b 11 != 0) 11, bad (!zeroAt b 20 4) 20])

/-- A lane that another table holds, or one too many of its store, in pass i + 1 (R203). -/
def laneFault (b : List Byte) (others : Map (List Byte)) (i : Nat) : Option (Nat × Nat) :=
  let l := tLane b (i + 1)
  let bound := others.filter fun e => tLane e.2 (i + 1) != 0xFF
  let same := (bound.filter fun e => storeOf (tKind e.2) == storeOf (tKind b)).length
  bad (l != 0xFF && (bound.any (fun e => tLane e.2 (i + 1) == l) || (storeOf (tKind b) != 1 && same ≥ 2))) (8 + i)

/-- The faults that other definitions make, in the order of R209. -/
def bindFaults (b : List Byte) (x : RuleSet) : List (Option (Nat × Nat)) :=
  let k := tKind b
  let others := x.tables.filter fun e => e.1 != byteAt b 0
  if k = 0 then [] else
  [bad (tProfile b != 0xFE && (match mfind x.profiles (tProfile b) with
      | some p => !keyLenOk k (pKeyLen p)
      | none => true)) 2,
   bad (tBase b + tSize b > storeUnits k || others.any fun e => storeOf (tKind e.2) == storeOf k &&
      tBase b < tBase e.2 + tSize e.2 && tBase e.2 < tBase b + tSize b) 4] ++
  (List.range 3).map (laneFault b others)

/-- The rules that stay after a table's definition (R226). -/
def keepRules (b : List Byte) (x : RuleSet) : Map (List Byte) :=
  let t := byteAt b 0
  let keep := tcamKind (tKind b) && x.kind t == tKind b
  x.tcam.filter fun e => e.1 / 65536 != t || (keep && e.1 % 65536 < perUnit (tKind b) * tSize b)

def rsTableBind (r : Ring) (b : List Byte) (x : RuleSet) (d : Dev) : Dev :=
  let t := byteAt b 0
  let cur := d.gens.rules.table t
  let changed := d.gens.rules.kind t != 0 && (tKind b != tKind cur || tProfile b != tProfile cur ||
    tBase b != tBase cur || tSize b != tSize cur)
  checks r (bindFields b ++ bindFaults b x ++
      [if changed && liveKind (tKind cur) && d.tableHolds t then some (stBadParam, 0x100) else none]) (fun d =>
    d |> when changed (markRedef t)
      |> shadowSet r { x with tcam := keepRules b x
                              tables := if tKind b = 0 then mdel x.tables t else mput x.tables t b }) d

/-- RS_TABLE_BIND (R208-R210, R226). -/
def execRsTableBind (r : Ring) (p : Read) (s : State) : Host.Outcome State Fault Refusal :=
  .next (s.onDev fun _ d => command r 0x0403 p (fun _ b => onShadow r (rsTableBind r b)) d)

/-! ### Classic TCAM rules (R226) -/

/-- VALUE, MASK and DATA of a rule, in either format; VALUE bits under a 0 MASK bit are 0. -/
def ruleBytes (b : List Byte) : List Byte :=
  let f1 := byteAt b 1 == 1
  let v := if f1 then padTo 40 (bytesAt b 8 20) else bytesAt b 8 40
  let m := if f1 then padTo 40 (bytesAt b 28 20) else bytesAt b 48 40
  let dt := if f1 then padTo 8 (bytesAt b 48 2) else bytesAt b 88 8
  ((List.range 40).map fun i => v.getD i 0 &&& m.getD i 0) ++ m ++ dt

def rsTcamWrite (r : Ring) (b : List Byte) (x : RuleSet) (d : Dev) : Dev :=
  let t := byteAt b 0
  let k := x.kind t
  let i := le b 2 2
  let f1 := byteAt b 1 == 1
  checks r [bad (!tcamKind k || (f1 && k == 4)) 0, bad (i ≥ perUnit k * tSize (x.table t)) 2, bad (byteAt b 1 > 1) 1,
            bad (byteAt b 4 / 2 != 0) 4, bad (!zeroAt b 5 3) 5, bad (!f1 && k == 3 && !zeroAt b 28 20) 8,
            bad (!f1 && k == 3 && !zeroAt b 68 20) 48, bad (f1 && !zeroAt b 56 40) 56] (fun d =>
    let key := t * 65536 + i
    shadowSet r { x with tcam := if bit (byteAt b 4) 0 then mput x.tcam key (ruleBytes b) else mdel x.tcam key } d) d

/-- RS_TCAM_WRITE (R226). -/
def execRsTcamWrite (r : Ring) (p : Read) (s : State) : Host.Outcome State Fault Refusal :=
  .next (s.onDev fun _ d => command r 0x0404 p (fun _ b => onShadow r (rsTcamWrite r b)) d)

/-! ### Action lists, groups, bindings (R244, R245, R260) -/

def span (o n : Nat) : List Nat := (List.range n).map (o + ·)

/-- The highest TARGET of a KIND of FORWARD, MIRROR or a member. -/
def targetMax (kind : Nat) : Nat := if kind = 0 then 127 else if kind = 1 then 31 else 4095

/-- Operand bytes that a primitive uses, and its range faults; none for a reserved OP (R245). An immediate operand is
used unless MODE takes it from ARG. -/
def primShape (p : List Byte) : Option (List Nat × List (Bool × Nat)) :=
  let m := byteAt p
  let mode := fun o (imm arg : List Nat) => o :: if m o = 1 then arg else imm
  match m 0 with
  | 0x00 => some ([], [])
  | 0x01 => some (span 2 4 ++ (if m 5 = 1 then [6] else if m 5 = 2 then [] else span 8 (min 8 (max 1 (m 4)))),
      [(m 2 > 6, 2), (m 4 == 0 || m 4 > 8 || (m 5 == 1 && m 4 > 6) || (m 5 == 2 && m 4 != 1), 4), (m 5 > 2, 5)])
  | 0x02 => some ([2, 3] ++ mode 4 (span 8 (min 8 (max 1 (m 3)))) [5],
      [(m 2 > 15, 2), (m 3 == 0 || m 3 > 8 || m 2 + m 3 > 16, 3), (m 4 > 1, 4)])
  | 0x03 => some ([2, 3], [(le p 2 2 > 4095 && le p 2 2 != 0xFFFF, 2)])
  | 0x04 => some ([2, 3] ++ mode 4 [6, 7] [5], [(m 4 > 1, 4)])
  | 0x05 => some ([], [])
  | 0x06 => some (mode 2 (span 4 4) [3], [(m 2 > 1, 2)])
  | 0x07 => some ([2, 3], [])
  | 0x08 => some ([2, 3] ++ mode 4 (span 8 4) [5], [(le p 2 2 > 16383, 2), (m 4 > 1, 4), (m 4 == 1 && m 5 > 2, 5)])
  | 0x09 => some ([2, 3, 4], [(m 2 > 31, 2), (m 3 > 1, 3), (m 4 > 12 && m 4 != 0xFF, 4)])
  | 0x0A => some (7 :: mode 5 [2, 3, 4] [6], [(m 5 > 1, 5), (m 7 > 1, 7)])
  | 0x0B => some (7 :: mode 5 [2, 3, 4] [6], [(m 5 > 1, 5), (m 7 > 1, 7)])
  | 0x0C => some (7 :: mode 5 [2, 3, 4] [6], [(m 5 > 1, 5), (m 7 > 1, 7)])
  | 0x0D => some (mode 6 (span 2 4) [7], [(m 6 != 1 && le p 2 4 > 262143, 2), (m 6 > 1, 6)])
  | 0x0E => some (mode 6 (span 2 4) [7], [(m 6 != 1 && le p 2 4 > 262143, 2), (m 6 > 1, 6)])
  | 0x0F => some ([2, 3], [(le p 2 2 > 4095 && le p 2 2 != 0xFFFE, 2)])
  | 0x10 => some (2 :: (if m 2 = 1 then [4, 5] else if m 2 = 2 then [3] else []),
      [(m 2 > 2, 2), (m 2 == 1 && le p 4 2 > 8191, 4)])
  | 0x11 => some ([2, 3] ++ mode 4 [6, 7] [5],
      [(m 2 > 3, 2), (m 3 > 7, 3), (m 4 > 1, 4), (m 4 != 1 && le p 6 2 > targetMax (m 2), 6)])
  | 0x12 => some ([2, 3, 8, 9] ++ mode 4 [6, 7] [5],
      [(m 2 > 2, 2), (m 3 > 7, 3), (m 4 > 1, 4), (m 4 != 1 && le p 6 2 > targetMax (m 2), 6),
       (le p 8 2 != 0 && (le p 8 2 < 64 || le p 8 2 > 16383), 8)])
  | 0x13 => some ([], [])
  | 0x14 => some ([2], [(m 2 < 0x10, 2)])
  | 0x15 => some ([], [])
  | _ => none

/-- The lowest offset at fault in a primitive. -/
def primFault (p : List Byte) : Option Nat := match primShape p with
  | none => some 0
  | some (used, faults) =>
    let l := (if byteAt p 1 != 0 then [1] else []) ++ (faults.filter (·.1)).map (·.2) ++
      ((List.range 14).map (· + 2)).filter fun i => byteAt p i != 0 && !used.contains i
    l.foldl (fun a o => match a with | none => some o | some x => some (min x o)) none

def memberFault (m : List Byte) : Option Nat :=
  if byteAt m 0 > 2 then some 0 else if byteAt m 1 > 7 then some 1
  else if le m 2 2 > targetMax (byteAt m 0) then some 2
  else if byteAt m 6 != 0 then some 6 else if byteAt m 7 != 0 then some 7 else none

/-- The length that RS_ACTION_WRITE requires, where its TYPE and COUNT give one. -/
def actionLen (b : List Byte) : Option Nat :=
  if byteAt b 0 = 0 then some 136 else if byteAt b 0 = 2 then some 16
  else if byteAt b 0 = 1 && le b 4 2 ≤ 256 then some (8 + 8 * le b 4 2) else none

def actionFaults (b : List Byte) : List (Option (Nat × Nat)) :=
  let ty := byteAt b 0
  let n := le b 4 2
  [bad (ty > 2) 0, bad (byteAt b 1 > if ty = 0 then 1 else 0) 1,
   bad (le b 2 2 > if ty = 0 then 65534 else if ty = 1 then 4095 else 159) 2, bad (if ty = 1 then n > 256 else n != 0) 4,
   badBytes b 6 2] ++
  (if ty = 0 then (List.range 8).map fun i => (primFault (bytesAt b (8 + 16 * i) 16)).map fun o => (stBadParam, 8 + 16 * i + o)
   else if ty = 1 then (List.range n).map fun j => (memberFault (bytesAt b (8 + 8 * j) 8)).map fun o => (stBadParam, 8 + 8 * j + o)
   else [badBytes b 10 6])

/-- RS_ACTION_WRITE: a list with VALID 0 is undefined; its body is checked like any other (DEDUCED, log 25). -/
def rsActionWrite (r : Ring) (b : List Byte) (x : RuleSet) (d : Dev) : Dev :=
  let i := le b 2 2
  checks r (actionFaults b) (fun d =>
    if byteAt b 0 = 0 then
      shadowSet r { x with lists := if bit (byteAt b 1) 0 then mput x.lists i (bytesAt b 8 128) else mdel x.lists i } d
    else if byteAt b 0 = 1 then
      shadowSet r { x with groups := mset [] x.groups i (bytesAt b 8 (8 * le b 4 2)) } d
    else shadowSet r { x with egress := mset 0xFFFF x.egress i (le b 8 2) } d) d

/-- RS_ACTION_WRITE (R260). -/
def execRsActionWrite (r : Ring) (p : Read) (s : State) : Host.Outcome State Fault Refusal :=
  .next (s.onDev fun _ d => command r 0x0405 p (fun e b d =>
    match actionLen b with
    | some n => if e.plen != n then reply r stBadLength n [] d else onShadow r (rsActionWrite r b) d
    | none => onShadow r (rsActionWrite r b) d) d)

/-! ### Encap templates (R283, R284) -/

/-- The template's type and flags. -/
def eType (t : List Byte) : Nat := byteAt t 2
def eLen (t : List Byte) : Nat := byteAt t 3
def eL3 (t : List Byte) : Bool := bit (byteAt t 4) 0
def eBody (t : List Byte) : List Byte := bytesAt t 16 (eLen t)

/-- Behind tags: offset of the EtherType of a body, at most two tags. -/
def bodyType (pol b : List Byte) : Nat :=
  if !isTpid pol (be b 12 2) then 12 else if !isTpid pol (be b 16 2) then 16 else 20

/-- The IP header of a body: its offset, its length, and its protocol; none where there is no such header. -/
def bodyIp (pol b : List Byte) : Option (Nat × Nat × Nat) :=
  let t := bodyType pol b
  let h := t + 2
  if be b t 2 = 0x800 && h + 20 ≤ b.length && byteAt b h / 16 = 4 && byteAt b h % 16 ≥ 5 && be b (h + 6) 2 % 16384 = 0 then
    some (h, 4 * (byteAt b h % 16), byteAt b (h + 9))
  else if be b t 2 = 0x86DD && h + 40 ≤ b.length && byteAt b h / 16 = 6 then some (h, 40, byteAt b (h + 6))
  else none

/-- GRE's length, by its C, K and S bits. -/
def greLen (f : Nat) : Nat := 4 + 4 * (b2n (bit f 15) + b2n (bit f 13) + b2n (bit f 12))

/-- Whether a body consists of exactly the headers of its TYPE (R284). Length, checksum and protocol fields that ENCAP
fills are not judged (DEDUCED, log 26). -/
def bodyOk (pol t : List Byte) : Bool :=
  let b := eBody t
  match bodyIp pol b with
  | none => false
  | some (h, n, proto) =>
    let o := h + n
    let fits := fun k => o + k == b.length
    let f := be b o 2
    match eType t with
    | 1 => proto == 17 && fits 16 && polPort pol 0 (be b (o + 2) 2) && bit (byteAt b (o + 8)) 3
    | 2 => proto == 17 && polPort pol 8 (be b (o + 2) 2) && byteAt b (o + 8) / 64 == 0 && byteAt b (o + 8) % 64 ≤ 31 &&
           fits (16 + 4 * (byteAt b (o + 8) % 64)) && (eL3 t || be b (o + 10) 2 == 0x6558)
    | 3 => proto == 47 && polEnable pol 1 && f % 8 == 0 && !bit f 14 && !bit f 12 && fits (greLen f) &&
           (eL3 t || be b (o + 2) 2 == 0x6558)
    | 4 => proto == 47 && polEnable pol 1 && f % 8 == 0 && !bit f 15 && !bit f 14 && bit f 13 && !bit f 12 && fits 8 &&
           be b (o + 2) 2 == 0x6558
    | 5 => (proto == 4 || proto == 41) && polEnable pol 2 && fits 0
    | _ => false

def encapFaults (x : RuleSet) (b : List Byte) : List (Option (Nat × Nat)) :=
  let ty := eType b
  [bad (le b 0 2 > 16383) 0, bad (ty > 5) 2, bad (if ty = 0 then eLen b != 0 else eLen b < 34 || eLen b > 128) 3,
   bad (byteAt b 4 / 8 != 0 || (ty == 5 && !eL3 b) || ((ty == 1 || ty == 4) && eL3 b)) 4, bad (byteAt b 5 != 0) 5,
   bad (!zeroAt b 10 6) 10,
   bad (!zeroAt b (16 + eLen b) (128 - eLen b) || (ty != 0 && !bodyOk x.pol b)) 16]

def rsEncapWrite (r : Ring) (b : List Byte) (x : RuleSet) (d : Dev) : Dev :=
  checks r (encapFaults x b) (fun d =>
    let i := le b 0 2
    shadowSet r { x with templates := if eType b = 0 then mdel x.templates i else mput x.templates i b } d) d

/-- RS_ENCAP_WRITE (R283, R284). -/
def execRsEncapWrite (r : Ring) (p : Read) (s : State) : Host.Outcome State Fault Refusal :=
  .next (s.onDev fun _ d => command r 0x0406 p (fun _ b => onShadow r (rsEncapWrite r b)) d)

/-! ### Parse policy, patterns, policer profiles (R190, R197, R346) -/

/-- Offset of the first UDP port that repeats an earlier one (R191). -/
def portTwice (b : List Byte) : Option (Nat × Nat) :=
  let offs := [0, 2, 4, 6, 8, 10, 12, 14, 24]
  let i := (List.range 9).find? fun i => le b (offs.getD i 0) 2 != 0 &&
    (List.range i).any fun j => le b (offs.getD j 0) 2 == le b (offs.getD i 0) 2
  i.map fun i => (stBadParam, offs.getD i 0)

def rsParsePolicy (r : Ring) (b : List Byte) (x : RuleSet) (d : Dev) : Dev :=
  checks r ([portTwice b] ++ (List.range 4).map (fun i => bad (byteAt b (32 + i) > 2) (32 + i)) ++
      [bad (byteAt b 36 / 64 != 0) 36, bad (byteAt b 37 != 0) 37, bad (le b 38 2 > 1024) 38, bad (!zeroAt b 40 8) 40])
    (shadowSet r { x with policy := if b = policyDefault then none else some b }) d

/-- RS_PARSE_POLICY (R190, R191). -/
def execRsParsePolicy (r : Ring) (p : Read) (s : State) : Host.Outcome State Fault Refusal :=
  .next (s.onDev fun _ d => command r 0x0407 p (fun _ b => onShadow r (rsParsePolicy r b)) d)

def patternFaults (b : List Byte) : List (Option (Nat × Nat)) :=
  let v := bit (byteAt b 2) 0
  let n := byteAt b 3
  let beyond := fun o => ((List.range 32).find? fun i => i ≥ n && byteAt b (o + i) != 0).map fun i => (stBadParam, o + i)
  [bad (le b 0 2 > 8191) 0, bad (byteAt b 2 / 2 != 0) 2] ++
  (if v then [bad (n == 0 || n > 32) 3, bad (byteAt b 4 > 63) 4, bad (le b 6 2 > 1023) 6,
              bad (le b 8 2 > 1023 || le b 8 2 < le b 6 2) 8] else []) ++
  [bad (!zeroAt b 10 6) 10] ++ (if v then [beyond 16, beyond 48] else [])

def rsPatternWrite (r : Ring) (b : List Byte) (x : RuleSet) (d : Dev) : Dev :=
  checks r (patternFaults b) (fun d =>
    let i := le b 0 2
    shadowSet r { x with patterns := if bit (byteAt b 2) 0 then mput x.patterns i b else mdel x.patterns i } d) d

/-- RS_PATTERN_WRITE (R197). -/
def execRsPatternWrite (r : Ring) (p : Read) (s : State) : Host.Outcome State Fault Refusal :=
  .next (s.onDev fun _ d => command r 0x0408 p (fun _ b => onShadow r (rsPatternWrite r b)) d)

def policerProfileFaults (b : List Byte) : List (Option (Nat × Nat)) :=
  [bad (byteAt b 1 / 8 != 0) 1, bad (byteAt b 2 > 2) 2, bad (byteAt b 3 > 15 || (byteAt b 2 != 2 && byteAt b 3 != 0)) 3,
   bad (byteAt b 4 > 15 && byteAt b 4 != 0xFF) 4, bad (byteAt b 5 > 63) 5,
   bad (let v := signed 8 (byteAt b 6); v < -64 || v > 64) 6, bad (!zeroAt b 7 9) 7]

def rsPolicerProfile (r : Ring) (b : List Byte) (x : RuleSet) (d : Dev) : Dev :=
  checks r (policerProfileFaults b) (fun d =>
    let i := byteAt b 0
    shadowSet r { x with policers := if bit (byteAt b 1) 0 then mput x.policers i b else mdel x.policers i } d) d

/-- RS_POLICER_PROFILE (R346). -/
def execRsPolicerProfile (r : Ring) (p : Read) (s : State) : Host.Outcome State Fault Refusal :=
  .next (s.onDev fun _ d => command r 0x0409 p (fun _ b => onShadow r (rsPolicerProfile r b)) d)

/-! ### GEN_COMMIT, GEN_QUERY, retirement (R255-R262) -/

/-- The primitives of a list that can run: up to its first END (R238). -/
def listPrims (l : List Byte) : List (List Byte) := (chunks 16 (padTo 128 l)).takeWhile fun p => byteAt p 0 != 0

/-- Whether a list holds only the primitives of R246. -/
def egressSafe (l : List Byte) : Bool := (listPrims l).all fun p => [1, 4, 5, 6, 7, 8, 0x0E, 0x15].contains (byteAt p 0)

/-- Copy lists that a group's members name. -/
def copyLists (g : List Byte) : List Nat := ((chunks 8 g).map fun m => le m 4 2).filter (· != 0xFFFF)

/-- The first item that fails rows 3 and 4 of R261. -/
def commitFault (x : RuleSet) : Option (Nat × Nat) :=
  let det := fun (k i : Nat) => (stBadParam, k * 65536 + i)
  let row3 := [((x.lists.find? fun e => (listPrims e.2).any fun p => byteAt p 0 == 8 && (mfind x.templates (le p 2 2)).isNone).map
                  fun e => det 1 e.1),
               ((x.groups.find? fun e => (copyLists e.2).any fun i => (mfind x.lists i).isNone).map fun e => det 2 e.1),
               ((x.egress.find? fun e => (mfind x.lists e.2).isNone).map fun e => det 3 e.1)]
  let safe := fun i => egressSafe ((mfind x.lists i).getD [])
  let row4 := [((x.groups.find? fun e => (copyLists e.2).any fun i => !safe i).map fun e => det 2 e.1),
               ((x.egress.find? fun e => !safe e.2).map fun e => det 3 e.1)]
  (row3 ++ row4).findSome? id

def genCommit (r : Ring) (e : Exec) (b : List Byte) (x : RuleSet) (d : Dev) : Dev :=
  let g := d.gens
  checks r [bad (le b 0 2 != 0 && le b 0 2 != g.current) 0, badBytes b 2 6, commitFault x] (fun d =>
    match g.draining with
    | some (n, _) => if bit e.flags 0 then d else reply r stGenBusy n [] d
    | none =>
      let a := d.applyPoint 4000
      { d with gens := { g with shadow := none, committing := some x, base := 0 } }
        |> begin' r
        |> stageAt a .commit [.reply r stOk 0 [nextGen g.current, g.current, lo32 a, hi32 a]]) d

/-- GEN_COMMIT (R261): with WAIT it does not start while a generation is DRAINING. -/
def execGenCommit (r : Ring) (p : Read) (s : State) : Host.Outcome State Fault Refusal :=
  .next (s.onDev fun _ d => command r 0x0410 p (fun e b => onShadow r (genCommit r e b)) d)

/-- Whether a packet's egress processing has ended: it gives up its stamp (R255). -/
def Loc.egressed : Loc → Bool
  | .hostOut _ => true
  | .mac _ _ => true
  | _ => false

/-- Packets that hold a generation's stamp. -/
def Dev.stamped (d : Dev) (g : Nat) : Nat := (d.pkts.filter fun p => p.gen == g && !p.loc.egressed).length

def Dev.drainingGen (d : Dev) : Nat := (d.gens.draining.map (·.1)).getD 0

/-- GEN_QUERY (R262). -/
def execGenQuery (r : Ring) (p : Read) (s : State) : Host.Outcome State Fault Refusal :=
  .next (s.onDev fun _ d => command r 0x0411 p (fun _ _ d =>
    let g := d.gens
    let n := match g.draining with | some (i, _) => sat32 (d.stamped i) | none => 0
    reply r stOk 0 [g.current + 65536 * d.drainingGen, b2n g.shadow.isSome + 2 * b2n g.committing.isSome,
                    lo32 g.applied, hi32 g.applied, n, g.base] d) d)

/-- The DRAINING generation retires at the next apply point behind its commit's, once no packet carries it. -/
def genRetire (d : Dev) : Dev := match d.gens.draining with
  | none => d
  | some (n, _) =>
    if d.stamped n != 0 then d
    else
      let a := max ((d.time + 255) / 256 * 256) (d.gens.applied + 256)
      let d := timeTo a d
      { d with gens := { d.gens with draining := none, redefDrain := [] } } |> raise 0x06 n (lo32 a) (hi32 a)

/-- GEN_RETIRE (R257). -/
def execGenRetire (s : State) : Host.Outcome State Fault Refusal := .next (s.onDev fun _ d => genRetire d)

/-! ### SLICE_EXCEPTION_SET (R195) -/

def excFaults (b : List Byte) : List (Option (Nat × Nat)) :=
  let any := (List.range 5).any fun i => byteAt b (4 + i) == 1
  [bad (byteAt b 1 != 0) 1] ++
  (List.range 5).map (fun i => bad (byteAt b (4 + i) > if i = 4 then 1 else 2) (4 + i)) ++
  [bad (!zeroAt b 9 3) 9, bad (any && le b 2 2 == 0xFFFF) 2]

def sliceExceptionSet (r : Ring) (e : Exec) (b : List Byte) (d : Dev) : Dev :=
  let f := byteAt b 0
  let o : Owner := (cmdOwner r e).getD (.function (fin 32 f))
  let q := le b 2 2
  checks r (bad (r == .manager && e.slice == 0xFFFF && (f ≥ 32 || !d.fnExists f)) 0 :: excFaults b) (fun d =>
    if q != 0xFFFF && q ≥ d.queueQuota o then quotaDenied r o 0 d
    else d |> updOwner o (fun x => { x with queue := q, lenOver := byteAt b 4, trailer := byteAt b 5,
                                            malformed := byteAt b 6, depth := byteAt b 7, oversize := byteAt b 8 })
           |> reply r stOk 0 []) d

/-- SLICE_EXCEPTION_SET (R195). -/
def execSliceExceptionSet (r : Ring) (p : Read) (s : State) : Host.Outcome State Fault Refusal :=
  .next (s.onDev fun _ d => command r 0x0420 p (sliceExceptionSet r) d)

/-! ### Action counters (R265) -/

/-- A write of ACT_CNT_INDEX captures a counter for its requester. -/
def actCntIndexWrite (q : Requester) (v : Word) (d : Dev) : Dev :=
  let i := wbits v 17 0
  let c := mget (0, 0) d.counters i
  d |> setReg 0xD803100 (word i) |> capture q 0xD803108 c.1 |> capture q 0xD803110 c.2

/-- ACT_CNT_INDEX_WRITE (R265). -/
def execActCntIndexWrite (q : Requester) (v : Word) (s : State) : Host.Outcome State Fault Refusal :=
  .next (s.atRegAll q 0xD803100 fun _ d => actCntIndexWrite q v d)

end Sys2Proof.Machine
end

