-- ==== Sys2Proof/Machine/Aes.lean ====
section
/-!
DEFINITION. AES and Galois/Counter Mode as RFC 4106 and IEEE Std 802.1AE-2018 name them (R296, R304): the cipher of
ESP and MACsec. A block is a 128-bit number, its first byte most significant.
-/
namespace Sys2Proof.Machine

/-- The S-box, entry 0 most significant. -/
def aesSboxTable : Nat :=
  0x637c777bf26b6fc53001672bfed7ab76ca82c97dfa5947f0add4a2af9ca472c0b7fd9326363ff7cc34a5e5f171d8311504c723c31896059a071280e2eb27b27509832c1a1b6e5aa0523bd6b329e32f8453d100ed20fcb15b6acbbe394a4c58cfd0efaafb434d338545f9027f503c9fa851a3408f929d38f5bcb6da2110fff3d2cd0c13ec5f974417c4a77e3d645d197360814fdc222a908846eeb814de5e0bdbe0323a0a4906245cc2d3ac629195e479e7c8376d8dd54ea96c56f4ea657aae08ba78252e1ca6b4c6e8dd741f4bbd8b8a703eb5664803f60e613557b986c11d9ee1f8981169d98e949b1e87e9ce5528df8ca1890dbfe6426841992d0fb054bb16

def aesSub (x : Nat) : Nat := aesSboxTable / 256 ^ (255 - x % 256) % 256

/-- Multiplication by x in GF(2^8). -/
def aesDouble (x : Nat) : Nat := if x < 128 then 2 * x else (2 * x % 256) ^^^ 0x1B

/-- The substituted bytes of a 32-bit word. -/
def aesSubWord (w : Nat) : Nat :=
  aesSub (w / 2 ^ 24) * 2 ^ 24 + aesSub (w / 2 ^ 16) * 2 ^ 16 + aesSub (w / 2 ^ 8) * 2 ^ 8 + aesSub w

/-- Words of the key schedule, newest first; `nk` is 4 or 8. -/
def aesExpand (nk : Nat) : Nat → Nat → Nat → List Nat → List Nat
  | 0, _, _, ws => ws
  | k + 1, i, rcon, ws =>
    let t := ws.headD 0
    let t := if i % nk = 0 then aesSubWord (t % 2 ^ 24 * 256 + t / 2 ^ 24) ^^^ (rcon * 2 ^ 24)
      else if nk = 8 && i % nk = 4 then aesSubWord t else t
    aesExpand nk k (i + 1) (if i % nk = 0 then aesDouble rcon else rcon) ((ws.getD (nk - 1) 0 ^^^ t) :: ws)

/-- The round keys of a 16- or 32-byte key. -/
def aesRoundKeys (key : List Byte) : List Nat :=
  let nk := key.length / 4
  let ws := (aesExpand nk (4 * (nk + 7) - nk) nk 1 ((List.range nk).map fun i => be key (4 * i) 4).reverse).reverse
  (List.range (nk + 7)).map fun r =>
    ws.getD (4 * r) 0 * 2 ^ 96 + ws.getD (4 * r + 1) 0 * 2 ^ 64 + ws.getD (4 * r + 2) 0 * 2 ^ 32 + ws.getD (4 * r + 3) 0

/-- Byte i of a block. -/
def blockByte (b i : Nat) : Nat := b / 2 ^ (120 - 8 * i) % 256

/-- SubBytes and ShiftRows: column c, row r comes from column c + r. -/
def aesShifted (b : Nat) : List Nat := (List.range 16).map fun i => aesSub (blockByte b ((i + 4 * (i % 4)) % 16))

/-- MixColumns of one column. -/
def aesMix : List Nat → List Nat
  | a :: b :: c :: e :: rest =>
    let t := a ^^^ b ^^^ c ^^^ e
    (a ^^^ t ^^^ aesDouble (a ^^^ b)) :: (b ^^^ t ^^^ aesDouble (b ^^^ c)) :: (c ^^^ t ^^^ aesDouble (c ^^^ e)) ::
      (e ^^^ t ^^^ aesDouble (e ^^^ a)) :: aesMix rest
  | _ => []

def bytesToBlock (l : List Nat) : Nat := l.foldl (fun a x => a * 256 + x) 0

/-- The rounds behind the first key addition. -/
def aesRounds : List Nat → Nat → Nat
  | [], b => b
  | [k], b => bytesToBlock (aesShifted b) ^^^ k
  | k :: ks, b => aesRounds ks (bytesToBlock (aesMix (aesShifted b)) ^^^ k)

/-- One block under expanded keys. -/
def aesBlock (ks : List Nat) (b : Nat) : Nat := aesRounds ks.tail (b ^^^ ks.headD 0)

/-- Multiplication in the field of GHASH. -/
def ghashMul (x y : Nat) : Nat :=
  ((List.range 128).foldl (fun (zv : Nat × Nat) i =>
    (if bit x (127 - i) then zv.1 ^^^ zv.2 else zv.1,
     if zv.2 % 2 = 1 then (zv.2 / 2) ^^^ (0xE1 * 2 ^ 120) else zv.2 / 2)) (0, y)).1

/-- A byte string as blocks, the last one filled with zeros. -/
def toBlocks (b : List Byte) : List Nat := (chunks 16 b).map fun c => beNat (padTo 16 c)

def ghash (h : Nat) (blocks : List Nat) : Nat := blocks.foldl (fun y x => ghashMul (y ^^^ x) h) 0

/-- Counter mode from the block behind J0. -/
def gcmCtr (ks : List Nat) (iv : Nat) (data : List Byte) : List Byte :=
  ((chunks 16 data).zipIdx).flatMap fun c =>
    let s := beBytes 16 (aesBlock ks (iv * 2 ^ 32 + c.2 + 2))
    (c.1.zip s).map fun x => x.1 ^^^ x.2

/-- The 16-byte authentication tag over AAD and ciphertext; `iv` is the 96-bit nonce. -/
def gcmTag (ks : List Nat) (iv : Nat) (aad cipher : List Byte) : List Byte :=
  let h := aesBlock ks 0
  let y := ghash h (toBlocks aad ++ toBlocks cipher ++ [8 * aad.length * 2 ^ 64 + 8 * cipher.length])
  beBytes 16 (y ^^^ aesBlock ks (iv * 2 ^ 32 + 1))

/-- Encrypt and authenticate: ciphertext and tag. -/
def gcmSeal (key : List Byte) (iv : Nat) (aad plain : List Byte) : List Byte × List Byte :=
  let ks := aesRoundKeys key
  let c := gcmCtr ks iv plain
  (c, gcmTag ks iv aad c)

/-- Decrypt: the plaintext, and whether the tag verifies. -/
def gcmOpen (key : List Byte) (iv : Nat) (aad cipher tag : List Byte) : List Byte × Bool :=
  let ks := aesRoundKeys key
  (gcmCtr ks iv cipher, gcmTag ks iv aad cipher == tag)

end Sys2Proof.Machine
end

