-- ==== Sys2Proof/Machine/Crypto.lean ====
section
/-!
DEFINITION. Connection contexts and ESP (12_tunnels_crypto.md, R289-R303): the context commands, ENCRYPT, DECRYPT, the
replay window and key rotation. The context cache is transparent: the 256 bytes always stand in memory (log 29).
-/
namespace Sys2Proof.Machine

/-! ### Contexts (R289, R290) -/

/-- The slice whose context block holds c. -/
def Dev.ctxOwner (d : Dev) (c : Nat) : Option Nat :=
  (d.slices.find? fun e => e.2.cBase ≤ c && c < e.2.cBase + e.2.cLen).map (·.1)

def cxType (x : List Byte) : Nat := byteAt x 0
def cxFlag (x : List Byte) (i : Nat) : Bool := bit (byteAt x 1) i
def cxSeq (x : List Byte) : Nat := le x 8 8
def cxSwitch (x : List Byte) : Nat := le x 16 8
def cxSwitching (x : List Byte) : Bool := bit (byteAt x 24) 1
def cxWindow (x : List Byte) : Nat := le x 128 128

/-- A saturating or wrapping count inside a context. -/
def cxAdd (o n v : Nat) (x : List Byte) : List Byte := putLe x o n ((le x o n + v) % 256 ^ n)
def cxSat (o : Nat) (x : List Byte) : List Byte := putLe x o 4 (sat32 (le x o 4 + 1))

/-- A crypto counter of a context's home pipeline (R309, R326). -/
def cryCount (c off : Nat) (d : Dev) : Dev := count (aCrypto (homePl c) + off) d

/-! ### The context cache (R295) -/

def Dev.ctxCached (d : Dev) (c : Nat) : Bool := (mget [] d.ctxCache (c % 4)).contains c
/-- The context is used: it becomes the most recent of its die's 32,768. -/
def cacheTouch (c : Nat) (d : Dev) : Dev :=
  { d with ctxCache := mupd [] d.ctxCache (c % 4) fun l => (c :: l.filter (· != c)).take 32768 }
/-- A miss counts for the pipe die. -/
def cacheMiss (c : Nat) (d : Dev) : Dev := count (aCrypto (2 * (c % 4)) + 0x20) d
/-- Whether an earlier use of the context waits, so that a later one waits behind it. -/
def Dev.ctxHeld (d : Dev) (c : Nat) : Bool := d.pkts.any fun p => p.loc == .ctxWait c || p.loc == .tableWait c

/-- A command uses a context: a miss is counted and fetched (R293, R295). -/
def ctxUse (c : Nat) (d : Dev) : Dev := d |> when (!d.ctxCached c) (cacheMiss c) |> cacheTouch c

/-! ### Keys (R302, R303) -/

/-- Whether slot 1 serves sequence number n. -/
def cxSlot (x : List Byte) (n : Nat) : Nat :=
  let k := byteAt x 24 % 2
  if cxSwitching x && n ≥ cxSwitch x then 1 - k else k
def cxKey (x : List Byte) (k : Nat) : List Byte := bytesAt x (32 + 32 * k) (if cxFlag x 2 then 32 else 16)
def cxSalt (x : List Byte) (k : Nat) : List Byte := bytesAt x (96 + 4 * k) 4

/-- The rotation completes: the new slot serves, the old key is overwritten. -/
def cxRotated (x : List Byte) : List Byte :=
  let k := byteAt x 24 % 2
  let x := putLe (putLe x (32 + 32 * k) 32 0) (96 + 4 * k) 4 0
  putLe x 24 1 (1 - k)

def finishRotation (c : Nat) (due : Bool) (x : List Byte) (d : Dev) : List Byte × Dev :=
  if cxSwitching x && due then (cxRotated x, d |> cryCount c 0x24 |> raise 0x08 c 0 0) else (x, d)

/-! ### ESP (R296-R301) -/

/-- The nonce of sequence number n: SALT followed by the IV. -/
def espNonce (x : List Byte) (n : Nat) : Nat := beNat (cxSalt x (cxSlot x n)) * 2 ^ 64 + n
/-- The additional authenticated data. -/
def espAad (x : List Byte) (n : Nat) : List Byte := beBytes 4 (le x 4 4) ++ beBytes (if cxFlag x 1 then 8 else 4) n

/-- Pad, pad length and next header behind a payload (R297). -/
def espPad (payload : List Byte) (next : Nat) : List Byte :=
  let k := (4 - (payload.length + 2) % 4) % 4
  payload ++ (List.range k).map (fun i => BitVec.ofNat 8 (i + 1)) ++ leBytes 1 k ++ leBytes 1 next

/-- ESP header, IV, ciphertext and ICV for sequence number n. -/
def espSeal (x : List Byte) (n : Nat) (plain : List Byte) : List Byte :=
  let r := gcmSeal (cxKey x (cxSlot x n)) (espNonce x n) (espAad x n) plain
  beBytes 4 (le x 4 4) ++ beBytes 4 n ++ beBytes 8 n ++ r.1 ++ r.2

/-- A fault of R300: counted, then an exception with FAULT_EXC, else a drop. -/
def ctxFault (p : Packet) (c : Nat) (x : List Byte) (reason ctr : Nat) (d : Dev) : Turn :=
  (p, if bit (byteAt x 1) (if cxType x = 3 then 4 else 5) then .exc reason else .drop, cryCount c ctr d)

/-- A wrong or empty TYPE, or a poisoned context (R294, R300). -/
def ctxInvalid (p : Packet) (c : Nat) (x : List Byte) (poisoned : Bool) (d : Dev) : Turn :=
  ctxFault p c x 0x0C 0x10 (when poisoned (cryCount c 0x1C) d)

/-- A primitive completes: PKTS, BYTES and the CRYPTO_BYTES meter (R301). -/
def cryDone (c n : Nat) (x : List Byte) (d : Dev) : List Byte × Dev :=
  (cxAdd 112 8 n (cxAdd 104 8 1 x), meterOf (d.ctxOwner c) 6 n d)

/-- The UDP header at `u` behind the IP header at h: its length, and over IPv6 its checksum, else 0. -/
def fillUdp (h u : Nat) (always : Bool) (b : List Byte) : List Byte :=
  let n := b.length - u
  let b := putBe (putBe b (u + 4) 2 n) (u + 6) 2 0
  if always || byteAt b h / 16 = 6 then
    let v := inetChecksum (pseudoOf b h 17 n + sum16 (b.drop u))
    putBe b (u + 6) 2 (if v = 0 then 0xFFFF else v)
  else b

/-- The next IPv4 identification of a pipeline (R286; log 30). -/
def nextIpId (pl : Nat) (d : Dev) : Nat × Dev :=
  let v := mget 0 d.ipId pl
  (v, { d with ipId := mset 0 d.ipId pl ((v + 1) % 65536) })

/-- Transport mode: the bytes behind H become ESP (R297). -/
def encTransport (p : Packet) (x : List Byte) (h : IpHdr) (n : Nat) : Packet × Nat :=
  let plain := espPad ((p.bytes.take h.fin).drop (h.off + h.len)) h.proto
  let q := splice (h.off + h.len) p.bytes.length (espSeal x n plain) p
  ({ q with bytes := fixIpLen h.off (putBe q.bytes h.protoAt 1 50) }, plain.length)

/-- Tunnel mode: OUTER, ESP over H (R297). -/
def encTunnel (pol : List Byte) (p : Packet) (x : List Byte) (h : IpHdr) (inner : Bool) (n : Nat) (d : Dev) :
    Packet × Nat × Dev :=
  let v6 := cxFlag x 4
  let udp := cxFlag x 3
  let ipn := if v6 then 40 else 20
  let plain := espPad ((p.bytes.take h.fin).drop h.off) (if h.v6 then 41 else 4)
  let t := etherAhead pol p inner h.off
  let tos := tosOf p.bytes h.off
  let q := splice h.off p.bytes.length (bytesAt x 128 (ipn + if udp then 8 else 0) ++ espSeal x n plain) p
  let b := setEther t v6 q.bytes
  let b := putBe b (h.off + if v6 then 6 else 9) 1 (if udp then 17 else 50)
  let i := if v6 then (0, d) else nextIpId p.pl d
  let b := if v6 then b else putBe b (h.off + 4) 2 i.1
  let b := fixIpLen h.off (setTos h.off tos b)
  (addStack h.off (if udp then some (h.off + ipn) else none) { q with bytes := if udp then fillUdp h.off (h.off + ipn) false b else b },
   plain.length, i.2)

/-- ENCRYPT with context bytes x, as read (R297); without an IP header at the layer it is skipped (DEDUCED, log 28). -/
def encrypt (pol : List Byte) (p : Packet) (c : Nat) (inner : Bool) (x : List Byte) (poisoned : Bool) (d : Dev) : Turn :=
  match p.ipHdr inner with
  | none => skipped p d
  | some h =>
    if cxType x != 1 || poisoned then ctxInvalid p c x poisoned d
    else if !cxFlag x 0 && h.frag then ctxFault p c x 0x0D 0x14 d
    else
      let n := cxSeq x + 1
      if n ≥ (if cxFlag x 1 then 2 ^ 64 else 2 ^ 32) then ctxFault p c x 0x0B 0x0C d
      else
        let r := if cxFlag x 0 then encTunnel pol p x h inner n d else
          let t := encTransport p x h n
          (t.1, t.2, d)
        let y := cryDone c r.2.1 (putLe x 8 8 n) r.2.2
        let z := finishRotation c (n ≥ cxSwitch x) y.1 y.2
        ({ r.1 with lengthened := true }, .go, writeCtx c z.1 z.2)

/-- The sequence number that a carried low half stands for (R299). -/
def inferSeq (esn : Bool) (t s : Nat) : Int :=
  let th : Int := t / 2 ^ 32
  let tl := t % 2 ^ 32
  if !esn then s
  else if tl ≥ 1023 then (if s ≥ tl - 1023 then th * 2 ^ 32 + s else (th + 1) * 2 ^ 32 + s)
  else if s ≥ (tl + 2 ^ 32 - 1023) % 2 ^ 32 then (th - 1) * 2 ^ 32 + s else th * 2 ^ 32 + s

/-- Whether the replay check refuses n (R299). -/
def replayed (t win : Nat) (n : Int) : Bool := n < 1 || n + 1024 ≤ t || (n ≤ t && bit win (n.toNat % 1024))

/-- The window after n was accepted, and T (R299). -/
def windowAfter (t win n : Nat) : Nat × Nat :=
  let w := if n > t then
      (if n - t ≥ 1024 then 0 else (List.range (n - t - 1)).foldl (fun w i => setBits w ((t + 1 + i) % 1024) ((t + 1 + i) % 1024) 0) win)
    else win
  (setBits w (n % 1024) (n % 1024) 1, max t n)

/-- Where the ESP header behind H stands, when R298 step 2 passes. -/
def espAt (p : Packet) (x : List Byte) (inner : Bool) (h : IpHdr) : Option Nat :=
  let udp := bit (le p.prv 8 4) 17
  if !bit p.flags fEsp || bit p.flags fTunnel != inner || udp != cxFlag x 3 || h.frag then none
  else match p.anchor (if inner then 6 else 2) with
    | none => none
    | some l4 => let o := l4 + if udp then 8 else 0; if o + 36 ≤ h.fin then some o else none

/-- The packet without ESP: `payload` behind it, next header `nh` (R298). -/
def espRemoved (pol : List Byte) (p : Packet) (x : List Byte) (inner : Bool) (h : IpHdr) (o nh : Nat) (payload : List Byte) : Packet :=
  let q :=
    if cxFlag x 0 then
      let ce := tosOf p.bytes h.off % 4 == 3
      let t := etherAhead pol p inner h.off
      let q := splice h.off p.bytes.length payload p
      let b := setEther t (nh == 41) q.bytes
      { q with bytes := if ce then (ecnCe h.off b).1 else b }
    else
      let q := splice o p.bytes.length payload p
      { q with bytes := fixIpLen h.off (putBe q.bytes h.protoAt 1 nh) }
  { q with decrypted := true }

/-- DECRYPT behind step 4: the cipher, step 6, the window, the removal (R298-R301). -/
def decryptBody (pol : List Byte) (p : Packet) (c : Nat) (inner : Bool) (x : List Byte) (h : IpHdr) (o n : Nat) (d : Dev) : Turn :=
  let cipher := (p.bytes.take (h.fin - 16)).drop (o + 16)
  let r := gcmOpen (cxKey x (cxSlot x n)) (beNat (cxSalt x (cxSlot x n)) * 2 ^ 64 + be p.bytes (o + 8) 8) (espAad x n) cipher
    (bytesAt p.bytes (h.fin - 16) 16)
  if !p.poisoned && !r.2 then ctxFault p c x 0x08 0x00 (writeCtx c (cxSat 120 x) d)
  else
    let pt := r.1
    let nh := byteAt pt (pt.length - 1)
    let k := byteAt pt (pt.length - 2)
    let padOk := k + 2 ≤ pt.length && (List.range k).all fun i => byteAt pt (pt.length - 2 - k + i) == i + 1
    if !padOk || (cxFlag x 0 && nh != 4 && nh != 41) then ctxFault p c x 0x0D 0x14 d
    else
      let w := windowAfter (cxSeq x) (cxWindow x) n
      let y := if p.poisoned then x else putLe (putLe x 8 8 w.2) 128 128 w.1
      let y := cryDone c pt.length y (when p.poisoned (cryCount c 0x18) d)
      let z := finishRotation c (!p.poisoned && w.2 ≥ cxSwitch x + 1023) y.1 y.2
      let d := writeCtx c z.1 z.2
      if nh = 59 then (p, .drop, cryCount c 0x28 d)
      else (espRemoved pol p x inner h o nh (pt.take (pt.length - 2 - k)), .go, d)

/-- DECRYPT with context bytes x, as read (R298). -/
def decrypt (pol : List Byte) (p : Packet) (c : Nat) (inner : Bool) (x : List Byte) (poisoned : Bool) (d : Dev) : Turn :=
  if cxType x != 2 || poisoned then ctxInvalid p c x poisoned d
  else match (p.ipHdr inner).bind fun h => (espAt p x inner h).map fun o => (h, o) with
    | none => ctxFault p c x 0x0D 0x14 d
    | some (h, o) =>
      if be p.bytes o 4 != le x 4 4 then ctxFault p c x 0x0A 0x08 d
      else
        let n := inferSeq (cxFlag x 1) (cxSeq x) (be p.bytes (o + 4) 4)
        if replayed (cxSeq x) (cxWindow x) n then ctxFault p c x 0x09 0x04 (writeCtx c (cxSat 124 x) d)
        else decryptBody pol p c inner x h o n.toNat d

/-! ### Context commands (R291-R294, R302) -/

/-- Run a context command on the global context that its parameters name: a number on a slice path is slice-local and
judged against the quota; the command waits behind earlier uses of the context (R293). -/
def onContext (r : Ring) (e : Exec) (b : List Byte) (faults : List (Option (Nat × Nat))) (go : Nat → Dev → Dev) (d : Dev) : Dev :=
  let c := le b 0 3
  let run := fun g d =>
    if !d.plOn (homePl g) then reply r stDomainDown 0 [] d else if d.ctxHeld g then d else go g (ctxUse g d)
  let first := bad (byteAt b 3 != 0) 0
  match r with
  | .manager => checks r (first :: faults) (run c) d
  | _ =>
    match d.slice e.slice with
    | none => reply r stDenied 0x200 [] d
    | some x => match first with
      | some (st, det) => reply r st det [] d
      | none =>
        if c ≥ x.cLen then quotaDenied r (.slice (fin 4096 e.slice)) 0 d
        else checks r faults (run (x.cBase + c)) d

/-- The mutable fields: (offset, size). -/
def espMutable (type : Nat) : List (Nat × Nat) := [(8, 17), (104, 24)] ++ if type = 2 then [(128, 128)] else []
def nvmeMutable : List (Nat × Nat) := [(8, 20), (32, 24), (64, 32), (108, 8), (120, 32)]

/-- `x` with the given fields taken from `old`. -/
def keepFields (old : List Byte) (l : List (Nat × Nat)) (x : List Byte) : List Byte :=
  l.foldl (fun x f => putBytes x f.1 (bytesAt old f.1 f.2)) x

/-- A reserved range of the body: the first byte that is not 0. -/
def bodyZero (x : List Byte) (o n : Nat) : Option (Nat × Nat) :=
  bad (!zeroAt x o n) (8 + o)

/-- Faults of an ESP body; M fields are not judged with KEEP_STATE (DEDUCED, log 27). -/
def espFaults (x : List Byte) (keep : Bool) : List (Option (Nat × Nat)) :=
  let hdr := (if cxFlag x 4 then 40 else 20) + if cxFlag x 3 then 8 else 0
  [bad (byteAt x 1 / 64 != 0 || (cxFlag x 3 && !cxFlag x 0)) 9, bad (le x 4 4 < 256) 12,
   bad (!keep && !cxFlag x 1 && cxSeq x ≥ 2 ^ 32) 16, bad (!keep && byteAt x 24 / 4 != 0) 32, bodyZero x 25 7] ++
  (if cxFlag x 2 then [] else [bodyZero x 48 16, bodyZero x 80 16]) ++
  (if cxType x = 1 && cxFlag x 0 then [bodyZero x (128 + hdr) (128 - hdr)] else [])

def nvmeFaults (x : List Byte) : List (Option (Nat × Nat)) :=
  [bad (byteAt x 1 / 32 != 0) 9, bodyZero x 4 4, bodyZero x 28 4, bodyZero x 56 8, bodyZero x 106 2, bodyZero x 116 4,
   bodyZero x 152 104]

def contextFaults (b : List Byte) : List (Option (Nat × Nat)) :=
  let x := bytesAt b 8 256
  let keep := bit (byteAt b 4) 0
  [bad (byteAt b 4 > 1) 4, bad (!zeroAt b 5 3) 5, bad (cxType x > 3) 8] ++
  (if cxType x = 3 then nvmeFaults x else if cxType x = 0 then [] else espFaults x keep)

def contextRead (r : Ring) (b : List Byte) (c : Nat) (d : Dev) : Dev :=
  let o := readCtx c d
  if o.2.1 then reply r stPoisoned 0 [] o.2.2
  else
    let x := if cxType o.1 = 3 then o.1 else putLe o.1 32 72 0
    o.2.2 |> ringData r [(le b 8 8, x)] |> reply r stOk 0 []

/-- CONTEXT_READ (R292). -/
def execContextRead (r : Ring) (p : Read) (s : State) : Host.Outcome State Fault Refusal :=
  .next (s.onDev fun _ d => command r 0x0602 p (fun e b => onContext r e b
    [bad (!zeroAt b 4 4) 4, bad (le b 8 8 % 64 != 0) 8] (contextRead r b)) d)

def saKeyRotate (r : Ring) (b : List Byte) (c : Nat) (d : Dev) : Dev :=
  let o := readCtx c d
  let x := o.1
  let d := o.2.2
  if o.2.1 then reply r stPoisoned 0 [] d
  else if cxType x != 1 && cxType x != 2 then reply r stBadParam 0 [] d
  else if le b 8 8 ≤ cxSeq x then reply r stBadParam 8 [] d
  else if cxSwitching x then reply r stExists 0 [] d
  else
    let k := 1 - byteAt x 24 % 2
    let x := putBytes (putBytes x (32 + 32 * k) (bytesAt b 16 32)) (96 + 4 * k) (bytesAt b 48 4)
    let x := putLe (putBytes x 16 (bytesAt b 8 8)) 24 1 (2 + (1 - k))
    d |> writeCtx c x |> reply r stOk 0 []

/-- SA_KEY_ROTATE (R302). -/
def execSaKeyRotate (r : Ring) (p : Read) (s : State) : Host.Outcome State Fault Refusal :=
  .next (s.onDev fun _ d => command r 0x0603 p (fun e b => onContext r e b
    [bad (!zeroAt b 4 4) 4, bad (!zeroAt b 52 4) 52] (saKeyRotate r b)) d)

end Sys2Proof.Machine
end

