-- ==== Sys2Proof/Machine/Storage.lean ====
section
/-!
DEFINITION. NVMe/TCP offload (13_storage_offload.md): the binding of transmit jobs, receive tracking, placement, and
PLACEMENT_SET and PLACEMENT_CLEAR. Header layouts beyond the fields that the manual names are those of the transport
specification that it cites (PRESUMED, log 31).
-/
namespace Sys2Proof.Machine

/-! ### Fields of a connection context (R312) -/

def nxHdg (x : List Byte) : Bool := cxFlag x 0
def nxDdg (x : List Byte) : Bool := cxFlag x 1
def nxRxNext (x : List Byte) : Nat := le x 32 4
def nxB (x : List Byte) : Nat := le x 36 4
def nxState (x : List Byte) : Nat := byteAt x 44
def nxFill (x : List Byte) : Nat := byteAt x 45
def nxHdr (x : List Byte) : List Byte := bytesAt x 64 32
def nxPt (x : List Byte) : Nat := le x 96 8
def nxValid (x : List Byte) : Bool := bit (byteAt x 105) 0
/-- A 32-bit field set modulo 2^32. -/
def nx32 (o v : Nat) (x : List Byte) : List Byte := putLe x o 4 (v % 2 ^ 32)
def nxByte (o v : Nat) (x : List Byte) : List Byte := putLe x o 1 v

/-- a ≤ b in the order of R312. -/
def seqSub (a b : Nat) : Nat := (a % 2 ^ 32 + 2 ^ 32 - b % 2 ^ 32) % 2 ^ 32
def seqLe (a b : Nat) : Bool := seqSub b a < 2 ^ 31

/-! ### PDU headers (R316, R319) -/

def pduLen (h : List Byte) : Nat := le h 4 4
def pduPdo (h : List Byte) : Nat := byteAt h 3
/-- Bytes of a header with its digest slot. -/
def pduNeed (hdg : Bool) (hlen : Nat) : Nat := hlen + if hdg then 4 else 0
/-- Data follows the header. -/
def pduData (hdg : Bool) (h : List Byte) : Bool := pduLen h > pduNeed hdg (byteAt h 2)
/-- A data digest ends the PDU. -/
def pduDdg (hdg ddg : Bool) (h : List Byte) : Bool := ddg && pduData hdg h

/-- The checks of a header's common part: `types` maps a type to its HLEN. -/
def pduOk (types : List (Nat × Nat)) (hdg ddg : Bool) (h : List Byte) : Bool :=
  types.contains (byteAt h 0, byteAt h 2) && bit (byteAt h 1) 0 == hdg && bit (byteAt h 1) 1 == ddg &&
  pduLen h ≥ pduNeed hdg (byteAt h 2) + (if pduDdg hdg ddg h then 4 else 0) &&
  (!pduData hdg h || pduPdo h ≥ pduNeed hdg (byteAt h 2))

def txTypes : List (Nat × Nat) := [(2, 24), (4, 72), (6, 24)]
def rxTypes : List (Nat × Nat) := [(3, 24), (5, 24), (7, 24), (9, 24)]

/-- The running CRC32C over more bytes; 0 stands for no bytes yet. -/
def crcMore (c : Nat) (b : List Byte) : Nat := (~~~ (b.foldl (crcByte 0x82F63B78) (~~~ word c))).toNat

/-! ### Transmit binding (R315-R317) -/

/-- The position in the current transmit PDU: bytes passed, common header, running digest; and what the walk did: the
bytes of the job with digests filled (newest first), PDUs sent whole, the header digest to fill. -/
structure TxWalk where
  off  : Nat
  ch   : List Byte
  crc  : Nat
  /-- The bytes so far, latest first, each with whether it is a digest that was filled. -/
  out  : List (Byte × Bool) := []
  pdus : Nat := 0
  hdig : List Byte := []
deriving DecidableEq, Repr

/-- At a boundary: the header at the front of the bytes left, judged (R316). -/
def txHeader (hdg ddg : Bool) (b : List Byte) (w : TxWalk) : Option TxWalk :=
  let hlen := byteAt b 2
  if pduOk txTypes hdg ddg (b.take 8) && pduNeed hdg hlen ≤ b.length && 8 ≤ b.length then
    some { w with ch := b.take 8, crc := 0, hdig := leBytes 4 (crc32c (b.take hlen)).toNat }
  else none

/-- One byte of the job passes. -/
def txByte (hdg ddg : Bool) (x : Byte) (w : TxWalk) : TxWalk :=
  let hlen := byteAt w.ch 2
  let plen := pduLen w.ch
  let dd := pduDdg hdg ddg w.ch
  let inH := hdg && hlen ≤ w.off && w.off < hlen + 4
  let inD := dd && plen - 4 ≤ w.off
  let y := (if inH then w.hdig.getD (w.off - hlen) x
    else if inD then (leBytes 4 w.crc).getD (w.off - (plen - 4)) x else x, inH || inD)
  let crc := if dd && pduPdo w.ch ≤ w.off && w.off < plen - 4 then crcMore w.crc [x] else w.crc
  if w.off + 1 ≥ plen then { w with off := 0, ch := [], crc := 0, out := y :: w.out, pdus := w.pdus + 1 }
  else { w with off := w.off + 1, crc := crc, out := y :: w.out }

/-- The whole payload of a job; none when a header fails. -/
def txWalk (hdg ddg : Bool) : List Byte → TxWalk → Option TxWalk
  | [], w => some w
  | x :: r, w =>
    match (if w.off = 0 then txHeader hdg ddg (x :: r) w else some w) with
    | none => none
    | some w => txWalk hdg ddg r (txByte hdg ddg x w)

/-- What the binding of a job decides: nothing to do, a fault (reason, counter), or the payload with its digests, which are
marked, and the context after it. -/
inductive Bound where
  | none
  | fault (reason ctr : Nat)
  | filled (payload : List (Byte × Bool)) (x : List Byte) (pdus : Nat)
deriving DecidableEq, Repr

/-- Judge a job of sequence number `seq` and TCP payload `b` against context bytes x; none without a TCP header, where the
primitive does nothing further (R314). -/
def txBind (x : List Byte) (poisoned : Bool) (tcp : Option (Nat × List Byte)) : Bound :=
  if cxType x != 3 || poisoned then .fault 0x0C 0x10
  else match (if cxFlag x 2 then tcp else none) with
  | none => .none
  | some (seq, b) =>
  if seq != le x 8 4 then .fault 0x0E 0x40
  else if b.isEmpty then .none
  else match txWalk (nxHdg x) (nxDdg x) b { off := le x 12 4, ch := bytesAt x 16 8, crc := le x 24 4 } with
    | none => .fault 0x0F 0x44
    | some w =>
      let y := putBytes (nx32 24 w.crc (nx32 12 w.off (nx32 8 (seq + b.length) x))) 16 (padTo 8 w.ch)
      .filled w.out.reverse (cxAdd 120 8 w.pdus y) w.pdus

/-! ### The placement table (R321, R322, R325) -/

/-- Whether the table of a context counts as VALID (R313, R325). -/
def Dev.ptValid (d : Dev) (c : Nat) (x : List Byte) : Bool := nxValid x && !d.ptOff.contains c

/-- The owning slice of a context whose table is VALID and may be used: slice, function, PASID. -/
def Dev.tableOf (d : Dev) (c : Nat) (x : List Byte) : Option (Nat × Nat × Nat) :=
  if !d.ptValid c x then none
  else match d.ctxOwner c with
    | none => none
    | some s => match d.slice s with
      | none => none
      | some y => if d.ownerMay (.slice (fin 4096 s)) then some (s, y.fn, y.pasid) else none

/-- Write into the table or a buffer of context c. -/
def ptWrite (c : Nat) (x : List Byte) (addr : Nat) (b : List Byte) (ro : Bool) (d : Dev) : Dev := match d.tableOf c x with
  | none => d
  | some (_, f, pasid) => hostWrite f (some pasid) addr b ro false d

/-- The A fields of the header. ERR_SEQ is the start of the PDU in error, 0 outside ERROR. -/
def ptHeader (c : Nat) (x : List Byte) (d : Dev) : Dev :=
  ptWrite c x (nxPt x) (leBytes 1 (nxState x) ++ leBytes 3 0 ++ bytesAt x 108 8 ++ bytesAt x 144 4 ++
    (if nxState x = 4 then bytesAt x 36 4 else leBytes 4 0)) false d

def ptEntry (x : List Byte) (cid : Nat) : Nat := nxPt x + 64 + 32 * cid

/-- STOPPED = 1 in the entry of the current command. -/
def ptStop (c : Nat) (x : List Byte) (d : Dev) : Dev :=
  d |> ptWrite c x (ptEntry x (le x 46 2) + 20) (leBytes 1 1) false |> cryCount c 0x58

/-- Placement of the current PDU stops (R320, R322). -/
def stopPlacement (c : Nat) (x : List Byte) (d : Dev) : Dev := match mfind d.placing c with
  | none => d
  | some _ => ptStop c x { d with placing := mdel d.placing c }

/-- Every table of a context that belongs to one of the given slices counts as not VALID until the next PLACEMENT_SET
(R325); its VALID bit, which only the placement commands change, stays (R312). -/
def tablesOff (sel : Nat → Bool) (d : Dev) : Dev :=
  let hit := fun (k : Nat) (v : Byte) =>
    let c := k % 2 ^ 40 / 256 * 4 + (k / 2 ^ 40 - 8)
    8 * 2 ^ 40 ≤ k && k < 12 * 2 ^ 40 && k % 2 ^ 40 < 2 ^ 30 && k % 256 == 105 && v.getLsbD 0 &&
    (byteAt (d.ctxRaw c) 0 == 3 || byteAt (d.ctxRaw c) 0 == 0) && ((d.ctxOwner c).map sel).getD false
  each ((d.mem.filter fun e => hit e.1 e.2).map fun e => e.1 % 2 ^ 40 / 256 * 4 + (e.1 / 2 ^ 40 - 8)) (fun c d =>
    { d with placing := mdel d.placing c, ptOff := c :: d.ptOff.filter (· != c) }) d

/-- The pieces of a buffer range: (address, length) from offset `o` on, `n` bytes. -/
def segPieces : List (Nat × Nat) → Nat → Nat → List (Nat × Nat)
  | [], _, _ => []
  | (a, len) :: r, o, n =>
    if n = 0 then []
    else if o ≥ len then segPieces r (o - len) n
    else
      let k := min n (len - o)
      (a + o, k) :: segPieces r 0 (n - k)

/-- Place data bytes at an offset of the command's buffer. -/
def placeData (c : Nat) (x : List Byte) (pl : Placing) (o : Nat) (b : List Byte) (d : Dev) : Dev :=
  ((segPieces pl.segs o b.length).foldl (fun (st : Dev × List Byte) s =>
    (ptWrite c x s.1 (st.2.take s.2) true st.1, st.2.drop s.2)) (d, b)).1

/-! ### Receive tracking (R318-R320) -/

/-- Header bytes to gather. -/
def nxNeed (x : List Byte) : Nat := pduNeed (nxHdg x) 24

/-- The checks of R319 on a gathered header. -/
def rxHdrOk (x : List Byte) (h : List Byte) : Bool :=
  pduOk rxTypes (nxHdg x) (nxDdg x) (h.take 8) &&
  (!nxHdg x || le h 24 4 == (crc32c (h.take 24)).toNat)

/-- ERROR at the current PDU. -/
def rxError (c ctr : Nat) (x : List Byte) (d : Dev) : List Byte × Dev :=
  let d := { d with placing := mdel d.placing c }
  let y := cxSat 148 (nxByte 44 4 x)
  (y, d |> cryCount c ctr |> ptHeader c y)

/-- The current PDU's last byte has been walked (R319, R322). -/
def rxPduEnd (c : Nat) (x : List Byte) (d : Dev) : List Byte × Dev :=
  let h := nxHdr x
  if pduDdg (nxHdg x) (nxDdg x) h && le x 92 4 != le x 40 4 then rxError c 0x54 x d
  else
    let e := nxRxNext x
    let y := cxAdd 128 8 1 (nxByte 45 0 (nx32 40 0 (nx32 36 e (nx32 112 e x))))
    let d := meterOf (d.ctxOwner c) 7 1 d
    let r := match mfind d.placing c with
      | none => (y, d)
      | some pl =>
        (cxAdd 136 8 pl.datal y,
         ptWrite c y (ptEntry y (le y 46 2) + 16) (leBytes 4 (pl.datao + pl.datal)) false
           { d with placing := mdel d.placing c })
    (r.1, ptHeader c r.1 r.2)

/-- What the walk does next. -/
inductive WalkNext where
  | more
  | done
  | read
deriving DecidableEq, Repr

/-- The header has been gathered: judged, and for C2HData its table entry is wanted (R319, R322). -/
def rxHeaderDone (c : Nat) (x : List Byte) (d : Dev) : List Byte × WalkNext × Dev :=
  let h := nxHdr x
  if !rxHdrOk x h then
    let r := rxError c 0x50 x d
    (r.1, .done, r.2)
  else
    let y := nx32 40 0 (putLe x 92 4 0)
    if byteAt h 0 != 7 then (y, .more, d)
    else
      let y := nx32 52 0 (putBytes y 46 (bytesAt h 8 2))
      if (d.tableOf c y).isSome && le h 8 2 < 2 ^ byteAt y 104 then (y, .read, d)
      else (y, .more, cryCount c 0x58 d)

/-- One stretch of the walk: `seg` runs from N on. -/
def rxStep (c : Nat) (x seg : List Byte) (d : Dev) : List Byte × WalkNext × Dev :=
  let h := nxHdr x
  let n := nxRxNext x
  let k := seqSub n (nxB x)
  let fill := nxFill x
  if fill ≥ nxNeed x && k ≥ pduLen h then
    let r := rxPduEnd c x d
    (r.1, if nxState r.1 = 4 || seg.isEmpty then .done else .more, r.2)
  else if seg.isEmpty then (x, .done, d)
  else if fill < nxNeed x then
    let m := min (nxNeed x - fill) seg.length
    let y := nx32 32 (n + m) (nxByte 45 (fill + m) (putBytes x (64 + fill) (seg.take m)))
    if fill + m < nxNeed x then (y, .done, d) else rxHeaderDone c y d
  else
    let dd := pduDdg (nxHdg x) (nxDdg x) h
    let dend := pduLen h - if dd then 4 else 0
    if k < dend then
      let m := min (dend - k) seg.length
      let b := (seg.take m).drop (pduPdo h - k)
      let y := nx32 32 (n + m) (nx32 40 (crcMore (le x 40 4) b) x)
      match mfind d.placing c with
      | none => (y, .more, d)
      | some pl =>
        let o := max k (pduPdo h) - pduPdo h
        let b := b.take (pl.datal - o)
        (nx32 52 (le y 52 4 + b.length) y, .more, placeData c y pl (pl.datao + o) b d)
    else
      let m := min (pduLen h - k) seg.length
      (nx32 32 (n + m) (putBytes x (92 + (k - dend)) (seg.take m)), .more, d)

/-- The walk from N to the end of payload b, which starts at sequence number s. -/
def rxWalk (c s : Nat) (b : List Byte) : Nat → List Byte → Dev → List Byte × WalkNext × Dev
  | 0, x, d => (x, .done, d)
  | fuel + 1, x, d =>
    let r := rxStep c x (b.drop (seqSub (nxRxNext x) s)) d
    match r.2.1 with
    | .more => rxWalk c s b fuel r.1 r.2.2
    | n => (r.1, n, r.2.2)

def walkFuel (b : List Byte) : Nat := 2 * b.length + 2

/-- Enter a state other than SYNC: the header is written when it changed. -/
def rxEnter (c st : Nat) (x : List Byte) (d : Dev) : List Byte × Dev :=
  if nxState x = st then (x, d) else let y := nxByte 44 st x; (y, ptHeader c y d)

/-- sync at X (R320), and the walk from there. -/
def rxSync (c at' s : Nat) (b x : List Byte) (d : Dev) : List Byte × WalkNext × Dev :=
  let y := nx32 36 at' (nx32 32 at' (nx32 108 at' (nx32 112 at' (nxByte 45 0 (nxByte 44 0 x)))))
  let y := cxSat 144 (nx32 40 0 y)
  let d := d |> cryCount c 0x4C |> ptHeader c y
  rxWalk c s b (walkFuel b) y d

/-- Whether a header that passes lies wholly in the packet at offset o. -/
def candOk (x b : List Byte) (o : Nat) : Bool := o + nxNeed x ≤ b.length && rxHdrOk x (padTo 32 ((b.drop o).take (nxNeed x)))

/-- The end of a packet judged without sync: N follows the packet. -/
def rxLeave (s : Nat) (b x : List Byte) (d : Dev) : List Byte × WalkNext × Dev := (nx32 32 (s + b.length) x, .done, d)

/-- CONFIRM: the second header, where it begins in this packet (R320). -/
def rxConfirm (c s : Nat) (b x : List Byte) (d : Dev) : List Byte × WalkNext × Dev :=
  let next := (le x 48 4 + pduLen (nxHdr x)) % 2 ^ 32
  let o := seqSub next s
  if !seqLe s next || o ≥ b.length then rxLeave s b x d
  else if candOk x b o then rxSync c next s b x d
  else let r := rxEnter c 2 x d; rxLeave s b r.1 r.2

/-- test(C) with C at offset o (R320): sync, a candidate to confirm, or HUNT. -/
def rxTest (c o s : Nat) (b x : List Byte) (d : Dev) (fail : List Byte → Dev → List Byte × WalkNext × Dev) :
    List Byte × WalkNext × Dev :=
  if !candOk x b o then fail x d
  else if nxHdg x then rxSync c ((s + o) % 2 ^ 32) s b x d
  else
    let y := nx32 48 (s + o) (putBytes x 64 (padTo 32 ((b.drop o).take 24)))
    let r := rxEnter c 3 y d
    rxConfirm c s b r.1 r.2

/-- HUNT: the packet's start is the candidate. -/
def rxHunt (c s : Nat) (b x : List Byte) (d : Dev) : List Byte × WalkNext × Dev :=
  let r := rxEnter c 2 x d
  rxTest c 0 s b r.1 r.2 (fun x d => rxLeave s b x d)

/-- GAP: the next boundary is known. -/
def rxGap (c s : Nat) (b x : List Byte) (d : Dev) : List Byte × WalkNext × Dev :=
  let cand := le x 48 4
  if !seqLe s cand then rxHunt c s b x d
  else
    let o := seqSub cand s
    if o ≥ b.length then rxLeave s b x d else rxTest c o s b x d (rxHunt c s b)

/-- SYNC loses its place: the gap (R320). -/
def rxLose (c : Nat) (x : List Byte) (d : Dev) : List Byte × Dev :=
  let d := d |> stopPlacement c x |> cryCount c 0x48
  if nxFill x ≥ nxNeed x then rxEnter c 1 (nx32 48 (nxB x + pduLen (nxHdr x)) x) d else rxEnter c 2 x d

/-- A bound packet with sequence number s and payload b (R320). N follows every packet judged without sync
(DEDUCED, log 32). -/
def rxJudge (c s : Nat) (b x : List Byte) (poisoned : Bool) (d : Dev) : List Byte × WalkNext × Dev :=
  let n := nxRxNext x
  if nxState x = 4 || seqLe (s + b.length) n then (x, .done, d)
  else if nxState x = 0 then
    if !poisoned && seqLe s n then rxWalk c s b (walkFuel b) x d
    else
      let r := rxLose c x d
      if poisoned then (r.1, .done, r.2)
      else if nxState r.1 = 1 then rxGap c s b r.1 r.2 else rxHunt c s b r.1 r.2
  else if poisoned then (x, .done, d)
  else if nxState x = 1 then rxGap c s b x d
  else if nxState x = 2 then rxHunt c s b x d
  else if s != n then
    let r := rxEnter c 2 x d
    rxLeave s b r.1 r.2
  else rxConfirm c s b x d

/-! ### The STORAGE_BIND primitive (R314) -/

/-- The TCP header at a layer: its sequence number and payload. -/
def tcpPayload (p : Packet) (inner : Bool) : Option (Nat × List Byte) :=
  let i := if inner then 6 else 2
  match p.anchor i with
  | none => none
  | some o =>
    if !bit (le p.prv 8 4) (if inner then 23 else 9) then none
    else
      let e := le p.prv 14 2 + o - byteAt p.prv (19 + i)
      some (be p.bytes (o + 4) 4, (p.bytes.take e).drop (o + byteAt p.bytes (o + 12) / 16 * 4))

/-- Ask for the table entry of the current C2HData PDU. -/
def askEntry (c : Nat) (x : List Byte) (d : Dev) : Dev := match d.tableOf c x with
  | none => d
  | some (_, f, pasid) =>
    let a := ptEntry x (le x 46 2)
    let t := (d.fn f).nextTag
    d |> newTag f (.placement c) (some pasid) |> hostRead f (some pasid) a 32 t

/-- Store the context and go on, or wait for the entry. -/
def bindEnd (p : Packet) (c : Nat) (r : List Byte × WalkNext × Dev) : Turn :=
  let d := writeCtx c r.1 r.2.2
  if r.2.1 = .read then (p, .wait (.tableWait c), askEntry c r.1 d) else (p, .go, d)

/-- STORAGE_BIND with context bytes x, as read. -/
def storageBind (p : Packet) (c : Nat) (inner : Bool) (x : List Byte) (poisoned : Bool) (d : Dev) : Turn :=
  if cxType x != 3 || poisoned then ctxInvalid p c x poisoned d
  else match (if cxFlag x 3 then tcpPayload p inner else none) with
    | none => (p, .go, d)
    | some (s, b) => if b.isEmpty then (p, .go, d) else bindEnd p c (rxJudge c s b x p.poisoned d)

/-- The buffer of an entry: one segment, or its list; none when a list is wanted and did not come whole. -/
def entrySegs (e : List Byte) (segs : Read) : Option (List (Nat × Nat)) :=
  if le e 12 2 = 0 then some [(le e 0 8, le e 8 4)]
  else match segs with
    | .ok b => if le e 12 2 ≤ 256 then some ((List.range (le e 12 2)).map fun i => (le b (16 * i) 8, le b (16 * i + 8) 4)) else none
    | _ => none

/-- Whether a read of the table failed. -/
def readBad (r : Read) : Bool := match r with | .ok _ => false | _ => true

/-- The entry has been read (R322), or its translation was denied (R96): the PDU is placed, or not. -/
def entryRead (c : Nat) (x : List Byte) (denied : Bool) (entry segs : Read) (d : Dev) : Dev :=
  let h := nxHdr x
  let e := padTo 32 entry.bytes
  let f := ((d.tableOf c x).map fun t => t.2.1).getD 0
  if (d.tableOf c x).isNone then cryCount c 0x58 d
  else if denied || readBad entry then d |> when (!denied) (dmaFail f entry) |> cryCount c 0x5C
  else if le e 12 2 != 0 && le e 12 2 ≤ 256 && byteAt e 14 = 1 && byteAt e 20 = 0 && readBad segs then
    d |> dmaFail f segs |> ptStop c x
  else
    let o := le h 12 4
    let n := le h 16 4
    match entrySegs e segs with
    | some l =>
      if byteAt e 14 = 1 && byteAt e 20 = 0 && o = le e 16 4 && o + n ≤ le e 8 4 &&
         (le e 12 2 = 0 || (l.foldl (fun a s => a + s.2) 0) ≥ le e 8 4) then
        { d with placing := mput d.placing c ⟨l, o, n⟩ }
      else if byteAt e 14 = 1 then ptStop c x d else cryCount c 0x58 d
    | none => if byteAt e 14 = 1 then ptStop c x d else cryCount c 0x58 d

/-- The suspended walk of a packet goes on behind the entry read. -/
def storageResume (p : Packet) (c : Nat) (inner denied : Bool) (entry segs : Read) (d : Dev) : Turn :=
  let r := readCtx c d
  let d := entryRead c r.1 denied entry segs r.2.2
  match tcpPayload p inner with
  | none => (p, .go, d)
  | some (s, b) => bindEnd p c (rxWalk c s b (walkFuel b) r.1 d)

/-! ### CONTEXT_WRITE (R291, R313), PLACEMENT_SET, PLACEMENT_CLEAR (R324) -/

/-- The context after a CONTEXT_WRITE over `old` (R291, R313). P fields stay where both layouts have them: they are those
of TYPE 3, and of an empty context (log 134). -/
def ctxAfterWrite (old x : List Byte) (keep : Bool) (owner : Option Nat) : List Byte :=
  let y :=
    if cxType x = 3 then
      let y := if keep then keepFields old nvmeMutable x else
        let z := nvmeMutable.foldl (fun z f => putLe z f.1 f.2 0) x
        let n := bytesAt x 32 4
        let z := putBytes (putBytes (putBytes z 8 (bytesAt x 8 4)) 32 n) 36 n
        putBytes (putBytes z 108 n) 112 n
      if cxType old = 3 || cxType old = 0 then keepFields old [(96, 10)] y else putLe y 96 10 0
    else if cxType x = 0 then (if cxType old = 3 || cxType old = 0 then keepFields old [(96, 10)] x else putLe x 96 10 0)
    else if keep then keepFields old (espMutable (cxType x)) x else x
  putLe y 2 2 (match owner with | some s => s + 2 ^ 15 | none => 0)

/-- CONTEXT_WRITE: without KEEP_STATE the PDU being placed is placed no further (R322), and the header of a VALID table
shows a changed state (R321). -/
def contextWrite (r : Ring) (b : List Byte) (c : Nat) (d : Dev) : Dev :=
  let x := bytesAt b 8 256
  let keep := bit (byteAt b 4) 0
  let o := readCtx c d
  let d := o.2.2
  if keep && o.2.1 then reply r stPoisoned 0 [] d
  else if keep && cxType o.1 != cxType x then reply r stBadParam 4 [] d
  else
    let y := ctxAfterWrite o.1 x keep (d.ctxOwner c)
    let d := if keep then d else stopPlacement c o.1 d
    d |> writeCtx c y
      |> when (cxType y == 3 && (cxType o.1 != 3 || bytesAt y 44 1 != bytesAt o.1 44 1 || bytesAt y 108 8 != bytesAt o.1 108 8))
          (ptHeader c y)
      |> reply r stOk 0 [lo32 d.time, hi32 d.time]

/-- CONTEXT_WRITE (R291, R313). -/
def execContextWrite (r : Ring) (p : Read) (s : State) : Host.Outcome State Fault Refusal :=
  .next (s.onDev fun _ d => command r 0x0601 p (fun e b => onContext r e b (contextFaults b) (contextWrite r b)) d)

def placementSet (r : Ring) (b : List Byte) (c : Nat) (d : Dev) : Dev :=
  let o := readCtx c d
  let x := o.1
  let d := o.2.2
  checks r [if o.2.1 then some (stPoisoned, 0) else none, bad (cxType x != 3) 0,
             if d.ptValid c x then some (stExists, 0) else none, bad (!zeroAt b 4 4) 4, bad (le b 8 8 % 64 != 0) 8,
             bad (byteAt b 16 > 16) 16, bad (!zeroAt b 17 7) 17] (fun d =>
    { d with ptOff := d.ptOff.filter (· != c) } |> writeCtx c (nxByte 105 1 (putBytes (putBytes x 96 (bytesAt b 8 8)) 104 (bytesAt b 16 1))) |> reply r stOk 0 []) d

/-- PLACEMENT_SET (R324). -/
def execPlacementSet (r : Ring) (p : Read) (s : State) : Host.Outcome State Fault Refusal :=
  .next (s.onDev fun _ d => command r 0x0701 p (fun e b => onContext r e b [] (placementSet r b)) d)

def placementClear (r : Ring) (c : Nat) (d : Dev) : Dev :=
  let o := readCtx c d
  let x := o.1
  let d := o.2.2
  if o.2.1 then reply r stPoisoned 0 [] d
  else if cxType x != 3 || !d.ptValid c x then reply r stNotFound 0 [] d
  else { d with placing := mdel d.placing c } |> writeCtx c (nxByte 105 0 x) |> reply r stOk 0 []

/-- PLACEMENT_CLEAR (R324). -/
def execPlacementClear (r : Ring) (p : Read) (s : State) : Host.Outcome State Fault Refusal :=
  .next (s.onDev fun _ d => command r 0x0702 p (fun e b => onContext r e b [bad (!zeroAt b 4 4) 4] (placementClear r)) d)

end Sys2Proof.Machine
end

