-- ==== Sys2Proof/Machine/Actions.lean ====
section
/-!
DEFINITION. The action stage (10_actions_generations.md, R237-R245): the primitives, tunnels (12, R285-R287) and
ingress policing (15, R343-R349).
-/
namespace Sys2Proof.Machine

/-- The stage a primitive runs in: the stamped rule set. -/
structure Stage where
  rs : RuleSet
deriving DecidableEq, Repr

/-- A counter of the pipeline that holds the packet. -/
def plCount (p : Packet) (off : Nat) (d : Dev) : Dev := count (aPl p.pl + off) d

def denied (p : Packet) (d : Dev) : Turn := (p, .go, plCount p 0x2104 d)

/-- `n` ARG bytes from `off` on (R240). -/
def argBytes (t : Prim) (off n : Nat) : Option (List Byte) := if off + n ≤ t.arg.length then some (bytesAt t.arg off n) else none

/-- An operand that is immediate or `n` ARG bytes; `go` runs on its bytes. `shut` refuses ARG in a list run for a
slice-owned entry. -/
def operand (t : Prim) (p : Packet) (mode off n : Nat) (imm : List Byte) (shut : Bool) (go : List Byte → Dev → Turn) (d : Dev) :
    Turn :=
  if mode = 0 then go imm d
  else match argBytes t off n with
    | none => skipped p d
    | some b => if shut && t.owner.isSome then denied p d else go b d

/-! ### Field, tag and label primitives (R245) -/

def setField (t : Prim) (p : Packet) (d : Dev) : Turn :=
  let o := t.op
  let n := byteAt o 4
  let go := fun (v : List Byte) (d : Dev) => match p.anchor (byteAt o 2) with
    | none => skipped p d
    | some a =>
      let i := a + byteAt o 3
      if i + n > 256 || i + n > p.bytes.length then skipped p d
      else if byteAt o 5 = 2 then
        (writeAt i [BitVec.ofNat 8 (byteAt p.bytes i + 255)] p, if byteAt p.bytes i ≤ 1 then .exc 6 else .go, d)
      else (writeAt i v p, .go, d)
  if byteAt o 5 = 1 then operand t p 1 (byteAt o 6) n [] false go d else go (bytesAt o 8 n) d

def setMeta (t : Prim) (p : Packet) (d : Dev) : Turn :=
  let o := t.op
  operand t p (byteAt o 4) (byteAt o 5) (byteAt o 3) (bytesAt o 8 (byteAt o 3)) false
    (fun v d => ({ p with pmeta := putBytes p.pmeta (byteAt o 2) v }, .go, d)) d

def setSlice (t : Prim) (p : Packet) (d : Dev) : Turn :=
  let v := le t.op 2 2
  ({ p with slice := v, billing := if p.billSet then p.billing else if v = 0xFFFF then none else some v }, .go, d)

def pushVlan (t : Prim) (p : Packet) (d : Dev) : Turn :=
  let o := t.op
  operand t p (byteAt o 4) (byteAt o 5) 2 (bytesAt o 6 2) false
    (fun v d => if p.bytes.length < 12 then skipped p d else (splice 12 12 (bytesAt o 2 2 ++ v) p, .go, d)) d

def popVlan (s : Stage) (p : Packet) (d : Dev) : Turn :=
  if p.bytes.length < 16 || !isTpid s.rs.pol (be p.bytes 12 2) then skipped p d
  else ({ splice 12 16 [] p with vlanTci := be p.bytes 14 2, vlanRemoved := true }, .go, d)

/-- Where the EtherType behind the outer tags stands. -/
def outerType (s : Stage) (p : Packet) : Nat :=
  let pol := s.rs.pol
  let b := p.bytes
  if !isTpid pol (be b 12 2) then 12 else if !isTpid pol (be b 16 2) then 16 else 20

def isMpls (t : Nat) : Bool := t == 0x8847 || t == 0x8848

/-- PUSH_MPLS; with a label below, S stays as the entry has it (DEDUCED, log 33). -/
def pushMpls (s : Stage) (t : Prim) (p : Packet) (d : Dev) : Turn :=
  let o := t.op
  operand t p (byteAt o 2) (byteAt o 3) 4 (bytesAt o 4 4) false (fun v d =>
    let e := outerType s p
    if e + 2 > p.bytes.length then skipped p d
    else
      let v := if isMpls (be p.bytes e 2) then v else putLe v 2 1 (byteAt v 2 / 2 * 2 + 1)
      let q := splice (e + 2) (e + 2) v p
      ({ q with bytes := putBe q.bytes e 2 0x8847 }, .go, d)) d

def popMpls (s : Stage) (t : Prim) (p : Packet) (d : Dev) : Turn :=
  let e := outerType s p
  let b := p.bytes
  if e + 6 > b.length || !isMpls (be b e 2) then skipped p d
  else
    let q := splice (e + 2) (e + 6) [] p
    if byteAt b (e + 4) % 2 = 0 then (q, .go, d)
    else
      let nx := be t.op 2 2
      let nib := byteAt b (e + 6) / 16
      let v := if nx != 0 then nx else if nib = 4 then 0x800 else if nib = 6 then 0x86DD else 0
      if v = 0 then skipped p d else ({ q with bytes := putBe q.bytes e 2 v }, .go, d)

/-! ### Tunnels (R285-R287) -/

/-- The VNI, key and protocol fields behind the IP header of a template's body, from offset o on. -/
def encapTunnel (t : List Byte) (id hash o : Nat) (l3 : Option Bool) (b : List Byte) : List Byte :=
  let ty := eType t
  let inner := fun at' b => match l3 with
    | some v6 => putBe b at' 2 (ipEther v6)
    | none => b
  if ty = 1 || ty = 2 then putBe b (o + 12) 3 (id % 2 ^ 24)
  else if ty = 3 then
    let f := be b o 2
    let k := o + 4 + if bit f 15 then 4 else 0
    let b := inner (o + 2) (if bit f 13 then putBe b k 4 id else b)
    if bit f 15 then
      let b := putBe b (o + 4) 2 0
      putBe b (o + 4) 2 (inetChecksum (sum16 (b.drop o)))
    else b
  else if ty = 4 then putBe b (o + 4) 4 (id % 2 ^ 24 * 256 + hash % 256)
  else b

/-- The outer UDP source port (R286). -/
def encapPort (t : List Byte) (hash : Nat) : Nat :=
  let h := (hash ^^^ hash / 65536) % 65536
  let m := le t 8 2
  (le t 6 2 &&& (65535 - m)) ||| (h &&& m)

/-- ENCAP with template t: the fields of R286. -/
def encapFill (pol t : List Byte) (id : Nat) (tos : Option Nat) (l3 : Option Bool) (p : Packet) (d : Dev) : Packet × Dev :=
  match bodyIp pol (eBody t) with
  | none => (p, d)
  | some (h, n, _) =>
    let v4 := byteAt p.bytes h / 16 == 4
    let o := h + n
    let i := if v4 then nextIpId p.pl d else (0, d)
    let b := if v4 then putBe p.bytes (h + 4) 2 i.1
      else if be p.bytes (h + 1) 3 % 2 ^ 20 = 0 then putBe p.bytes (h + 1) 3 (be p.bytes (h + 1) 3 + p.hash % 2 ^ 20) else p.bytes
    let b := if eType t = 5 then putBe b (h + if v4 then 9 else 6) 1 (if l3 == some true then 41 else 4) else b
    let b := if eType t = 1 || eType t = 2 then putBe b o 2 (encapPort t p.hash) else b
    let b := encapTunnel t id p.hash o l3 b
    let b := fixIpLen h (match tos with | some v => setTos h v b | none => b)
    let b := if eType t = 1 || eType t = 2 then fillUdp h o (bit (byteAt t 4) 1) b else b
    (addStack h (if eType t = 1 || eType t = 2 then some o else none) { p with bytes := b }, i.2)

def encapRun (s : Stage) (tpl : List Byte) (id : Nat) (p : Packet) (d : Dev) : Turn :=
  let h := p.ipHdr false
  let tos := if bit (byteAt tpl 4) 2 then h.map (fun x => tosOf p.bytes x.off) else none
  let l3 := if eL3 tpl then h.map (·.v6) else none
  let fill := fun q =>
    let r := encapFill s.rs.pol tpl id tos l3 q d
    ({ r.1 with lengthened := p.lengthened || p.bytes.length < r.1.bytes.length }, Fate.go, r.2)
  match eL3 tpl, h with
  | true, none => skipped p d
  | true, some x => fill (splice 0 x.off (eBody tpl) (cutAt (((ipAt p.bytes x.off).map (·.fin)).getD x.fin) p))
  | false, _ => fill (splice 0 0 (eBody tpl) p)

/-- ENCAP; its ID from the ARG of a slice-owned entry is refused (R240). -/
def encap (s : Stage) (t : Prim) (p : Packet) (d : Dev) : Turn :=
  let o := t.op
  operand t p (byteAt o 4) (byteAt o 5) 4 (bytesAt o 8 4) true (fun v d =>
    match mfind s.rs.templates (le o 2 2) with
    | none => skipped p d
    | some tpl => encapRun s tpl (le v 0 4) p d) d

/-- DECAP (R287). -/
def decap (s : Stage) (t : Prim) (p : Packet) (d : Dev) : Turn :=
  let o := t.op
  let present := le p.prv 8 4
  let kind := ((List.range 5).find? fun i => bit present (11 + i))
  let ok := bit p.flags fTunnel && (match kind with
    | some k => byteAt o 2 == 0 || bit (byteAt o 2) k
    | none => false)
  let eth := bit present 18
  match ok, p.anchor (if eth then 4 else 5), p.ipHdr false with
  | true, some inner, some x =>
    let k := kind.getD 0
    let e := p.stackEnd true
    let ecn := if bit (byteAt o 3) 0 then tosOf p.bytes x.off % 4 else 0
    let r := match p.anchor 5 with
      | none => (p.bytes, true)
      | some i =>
        if (ipAt p.bytes i).isNone then (p.bytes, true)
        else if ecn = 3 then ecnCe i p.bytes
        else if ecn = 1 then (ecnEct1 i p.bytes, true)
        else (p.bytes, true)
    if !r.2 then (p, .drop, plCount p 0x2308 d)
    else
      let q := cutAt e { p with bytes := r.1 }
      let q := if eth then splice 0 inner [] q else
        let l2 := etherTypeAt s.rs.pol q.bytes 0
        let v6 := byteAt q.bytes inner / 16 == 6
        let y := splice (l2 + 2) inner [] q
        { y with bytes := putBe y.bytes l2 2 (ipEther v6) }
      let id := if k = 2 then be p.prv 112 4 else be p.prv 109 3
      let m := byteAt o 4
      ({ q with pmeta := if m = 0xFF then q.pmeta else putLe q.pmeta m 4 id }, .go, d)
  | _, _, _ => skipped p d

/-! ### Ingress policing (R343-R348) -/

/-- Credit of k refill boundaries of a policer; a disabled one does not change. -/
def Policer.credit (x : Policer) (n : Nat) : Policer :=
  let k := n - x.refilled
  if !x.enable then { x with refilled := max n x.refilled }
  else { x with tc := min (x.tc + k * 128 * x.cir) (x.cbs * 1000), tp := min (x.tp + k * 128 * x.pir) (x.pbs * 1000)
                refilled := max n x.refilled }

/-- Staged settings at their boundary `n`: the old rate up to the boundary before, clamped or filled (R349). -/
def Policer.install (x : Policer) (l : List Nat) (n : Nat) : Policer :=
  let x := x.credit (n - 1)
  let y : Policer :=
    { x with enable := l.getD 0 0 == 1, profile := l.getD 1 0, cir := l.getD 2 0, pir := l.getD 3 0, cbs := l.getD 4 0
             pbs := l.getD 5 0, staged := none }
  let y := y.credit n
  if l.getD 6 0 == 1 then { y with tc := y.cbs * 1000, tp := y.pbs * 1000 }
  else { y with tc := min y.tc (y.cbs * 1000), tp := min y.tp (y.pbs * 1000) }

/-- A policer brought to device time: settings whose boundary has come are installed and answered, buckets refilled. -/
def policerSettle (i : Nat) (d : Dev) : Dev :=
  let x := d.policer i
  let d := match x.staged with
    | none => d
    | some (l, r) =>
      let due := l.getD 7 0
      if due ≤ d.time then d |> updPolicer i (fun x => x.install l (due / 1024)) |> reply r stOk 0 [i] else d
  updPolicer i (fun x => x.credit (d.time / 1024)) d

inductive Colour where
  | green | yellow | red
deriving DecidableEq, Repr

/-- The verdict, and the policer behind it (R347). -/
def judge (x : Policer) (pre : Colour) (b : Nat) : Colour × Policer :=
  if pre = .red || x.tp < b then (.red, x)
  else if pre = .yellow || x.tc < b then (.yellow, { x with tp := x.tp - b })
  else (.green, { x with tp := x.tp - b, tc := x.tc - b })

/-- The pre-colour that a profile takes from the packet (R346). -/
def preColour (pol prof : List Byte) (p : Packet) : Colour :=
  if byteAt prof 2 = 1 then
    (if isTpid pol (be p.bytes 12 2) && bit (byteAt p.bytes 14) 4 then .yellow else .green)
  else if byteAt prof 2 = 2 then
    let v := byteAt p.pmeta (byteAt prof 3)
    if v = 0 then .green else if v = 1 then .yellow else .red
  else .green

/-- The verdict's marks on the packet (R348). -/
def markColour (pol prof : List Byte) (c : Colour) (p : Packet) : Packet :=
  let m := byteAt prof 4
  let q := if m ≤ 15 then { p with pmeta := putLe p.pmeta m 1 (if c = .yellow then 1 else 0) } else p
  if c != .yellow then q
  else
    let q := if bit (byteAt prof 1) 1 && isTpid pol (be q.bytes 12 2) then
        { q with bytes := putLe q.bytes 14 1 (setBits (byteAt q.bytes 14) 4 4 1) } else q
    match bit (byteAt prof 1) 2, q.ipHdr false with
    | true, some h => { q with bytes := setTos h.off (4 * byteAt prof 5 + tosOf q.bytes h.off % 4) q.bytes }
    | _, _ => q

/-- The measured length in millibytes. -/
def policeBytes (prof : List Byte) (p : Packet) : Nat :=
  1000 * (max 1 ((p.bytes.length : Int) + signed 8 (byteAt prof 6))).toNat

/-- POLICE against instance i. -/
def policeRun (s : Stage) (i : Nat) (p : Packet) (d : Dev) : Turn :=
  let d := policerSettle i d
  let x := d.policer i
  match mfind s.rs.policers x.profile with
  | none => (p, .go, plCount p 0x2408 d)
  | some prof =>
    let r := if x.enable then judge x (preColour s.rs.pol prof p) (policeBytes prof p) else (.green, x)
    let d := updPolicer i (fun _ => r.2) d
    match r.1 with
    | .red => ({ p with red := true }, .drop, d |> plCount p 0x2404 |> meterOf p.billing 8 1 |> meterOf p.billing 9 p.bytes.length)
    | c => (markColour s.rs.pol prof c p, .go, when (c == .yellow) (plCount p 0x2400) d)

/-- A local number of the owning slice's block, or the number itself without an owner. -/
def ownedIndex (d : Dev) (owner : Option Nat) (v : Nat) (blk : Slice → Nat × Nat) (max : Nat) : Option Nat :=
  match owner with
  | none => if v < max then some v else none
  | some o => match d.slice o with
    | none => none
    | some x => if v < (blk x).2 then some ((blk x).1 + v) else none

/-- POLICE: at most two in a pass (R344). -/
def police (s : Stage) (t : Prim) (p : Packet) (d : Dev) : Turn :=
  let o := t.op
  if p.police ≥ 2 then skipped p d
  else
    let q := { p with police := p.police + 1 }
    if byteAt o 6 = 0 then policeRun s (le o 2 4) q d
    else match argBytes t (byteAt o 7) 3 with
      | none => skipped p d
      | some b => match ownedIndex d t.owner (le b 0 3) (fun x => (x.pBase, x.pLen)) 262144 with
        | some i => policeRun s i q d
        | none => if t.owner.isSome then denied p d else skipped p d

/-! ### The other primitives (R245) -/

def countPrim (t : Prim) (p : Packet) (d : Dev) : Turn :=
  let o := t.op
  operand t p (byteAt o 6) (byteAt o 7) 3 (bytesAt o 2 4) true (fun v d =>
    let i := leNat v
    if i ≥ 262144 then skipped p d
    else (p, .go, { d with counters := mupd (0, 0) d.counters i fun c => ((c.1 + 1) % 2 ^ 64, (c.2 + p.bytes.length) % 2 ^ 64) })) d

def meterClass (t : Prim) (p : Packet) (d : Dev) : Turn :=
  let v := le t.op 2 2
  match (if v = 0xFFFE then t.owner else some v) with
  | none => skipped p d
  | some s => ({ p with billing := some s, billSet := true }, .go, d)

/-- STEER; a queue beyond the owning slice's quota is refused (DEDUCED, log 34). -/
def steerPrim (t : Prim) (p : Packet) (d : Dev) : Turn :=
  let o := t.op
  let steer := fun (q s : Option Nat) => (({ p with steer := q, steerOwner := s, chosen := true }, .go, d) : Turn)
  if byteAt o 2 = 0 then steer none none
  else if byteAt o 2 = 1 then steer (some (le o 4 2)) none
  else match argBytes t (byteAt o 3) 2 with
    | none => skipped p d
    | some b =>
      let q := le b 0 2
      match t.owner with
      | some s => if q ≥ d.queueQuota (.slice (fin 4096 s)) then denied p d
        else steer (some q) (some s)
      | none => steer (some q) none

/-- The destination of FORWARD, MIRROR and of a multicast member. -/
def destOf (kind target : Nat) : Dest :=
  if kind = 0 then .line target else if kind = 1 then .function target else if kind = 2 then .slice target else .group target

def forward (t : Prim) (p : Packet) (d : Dev) : Turn :=
  let o := t.op
  operand t p (byteAt o 4) (byteAt o 5) 2 (bytesAt o 6 2) true
    (fun v d => ({ p with dest := destOf (byteAt o 2) (le v 0 2), cls := byteAt o 3, chosen := true }, .go, d)) d

def mirror (t : Prim) (p : Packet) (d : Dev) : Turn :=
  let o := t.op
  if p.mirrors ≥ 2 then (p, .go, plCount p 0x211C d)
  else operand t p (byteAt o 4) (byteAt o 5) 2 (bytesAt o 6 2) true
    (fun v d => ({ p with mirrors := p.mirrors + 1
                          mirrorReq := p.mirrorReq ++ [⟨destOf (byteAt o 2) (le v 0 2), byteAt o 3, le o 8 2⟩] }, .go, d)) d

/-- The context that a context primitive names. -/
def ctxOperand (t : Prim) (d : Dev) : Option Nat :=
  let o := t.op
  if byteAt o 5 = 0 then some (le o 2 3)
  else (argBytes t (byteAt o 6) 3).bind fun b => ownedIndex d t.owner (le b 0 3) (fun x => (x.cBase, x.cLen)) (2 ^ 24)

/-- A context primitive at the home pipeline, with the context in the cache. -/
def ctxRun (s : Stage) (t : Prim) (c : Nat) (p : Packet) (d : Dev) : Turn :=
  let r := readCtx c (cacheTouch c d)
  let p := { p with ctxUsed := true }
  let inner := bit (byteAt t.op 7) 0
  match byteAt t.op 0 with
  | 0x0A => encrypt s.rs.pol p c inner r.1 r.2.1 r.2.2
  | 0x0B => decrypt s.rs.pol p c inner r.1 r.2.1 r.2.2
  | _ => storageBind p c inner r.1 r.2.1 r.2.2

/-- The context must be fetched: one of the die's 128 misses in flight, or a wait for one (R295). -/
def ctxMissStart (c : Nat) (d : Dev) : Dev :=
  let l := mget [] d.ctxMiss (c % 4)
  if l.contains c || l.length ≥ 128 then d
  else { cacheMiss c d with ctxMiss := mset [] d.ctxMiss (c % 4) (l ++ [c]) }

/-- An earlier use of the context waits: a placement-table read, or a packet ahead in the line (R293, R295). -/
def Dev.ctxAhead (d : Dev) (c : Nat) (p : Packet) : Bool :=
  (d.pkts.any fun x => x.id != p.id && x.loc == .tableWait c) ||
  ((if p.loc == .ctxWait c then d.pkts.takeWhile (·.id != p.id) else d.pkts).any fun x => x.id != p.id && x.loc == .ctxWait c)

/-- ENCRYPT, DECRYPT, STORAGE_BIND (R242): steered to the home pipeline, at most one in a pass, behind earlier uses. -/
def ctxPrim (s : Stage) (t : Prim) (p : Packet) (d : Dev) : Turn :=
  if p.ctxUsed then skipped p d
  else match ctxOperand t d with
    | none => if byteAt t.op 5 = 1 && t.owner.isSome && (argBytes t (byteAt t.op 6) 3).isSome then denied p d else skipped p d
    | some c =>
      let h := homePl c
      if !d.plOn h || (byteAt t.op 0 != 0x0C && !d.cryptoOn h) then (p, .drop, domainDrop d)
      else if p.pl != h then (p, .wait (.steer (p.pl / 2) h), d)
      else if d.ctxCached c && !d.ctxAhead c p then ctxRun s t c p d
      else (p, .wait (.ctxWait c), if d.ctxCached c then d else ctxMissStart c d)

/-- One primitive. OP 0xFF stands for an undefined list (R237). -/
def runPrim (s : Stage) (t : Prim) (p : Packet) (d : Dev) : Turn :=
  match byteAt t.op 0 with
  | 0x01 => setField t p d
  | 0x02 => setMeta t p d
  | 0x03 => setSlice t p d
  | 0x04 => pushVlan t p d
  | 0x05 => popVlan s p d
  | 0x06 => pushMpls s t p d
  | 0x07 => popMpls s t p d
  | 0x08 => encap s t p d
  | 0x09 => decap s t p d
  | 0x0A => ctxPrim s t p d
  | 0x0B => ctxPrim s t p d
  | 0x0C => ctxPrim s t p d
  | 0x0D => police s t p d
  | 0x0E => countPrim t p d
  | 0x0F => meterClass t p d
  | 0x10 => steerPrim t p d
  | 0x11 => forward t p d
  | 0x12 => mirror t p d
  | 0x13 => ({ p with recirc := true, recircPl := p.pl }, .go, d)
  | 0x14 => (p, .exc (byteAt t.op 2), d)
  | 0x15 => (p, .drop, plCount p 0x2110 d)
  | 0xFF => (p, .go, plCount p 0x2108 d)
  | _ => (p, .go, d)

/-- The primitives of a list that lane data names (R237, R238); an undefined list is one entry of its own. -/
def laneTodo (rs : RuleSet) (data : List Byte) (owner : Option Nat) : List Prim :=
  let a := le data 0 2
  if a = 0xFFFF then []
  else match mfind rs.lists a with
    | none => [⟨leBytes 16 0xFF, [], none⟩]
    | some l => (listPrims l).map fun op => ⟨op, bytesAt data 2 6, owner⟩

/-- The primitives of a list that runs with no ARG and no owner (R246). -/
def listTodo (rs : RuleSet) (i : Nat) : List Prim :=
  if i = 0xFFFF then []
  else match mfind rs.lists i with
    | none => [⟨leBytes 16 0xFF, [], none⟩]
    | some l => (listPrims l).map fun op => ⟨op, [], none⟩

/-- Run what is left of the packet's action stage. A primitive that waits stays in front (R242, R295, R318). -/
def runTodo (s : Stage) : List Prim → Packet → Dev → Turn
  | [], p, d => ({ p with todo := [] }, .go, d)
  | t :: rest, p, d =>
    let r := runPrim s t p d
    match r.2.1 with
    | .go => runTodo s rest r.1 r.2.2
    | .wait l => ({ r.1 with todo := t :: rest, loc := l }, .wait l, r.2.2)
    | f => ({ r.1 with todo := [] }, f, r.2.2)

end Sys2Proof.Machine
end

