-- ==== Sys2Proof/Machine/Learning.lean ====
section
/-!
DEFINITION. Keys of lookups (09_tables.md, R205-R207) and address learning (11_learning.md).
-/
namespace Sys2Proof.Machine

/-! ### Keys (R205, R207) -/

/-- The key that a profile builds from a pass's PRV, slice and META. -/
def buildKey (prof prv : List Byte) (slice : Nat) (pmeta : List Byte) : List Byte :=
  let n := pKeyLen prof
  let k := (pExtractions prof).foldl (fun k x =>
    let src := if x.1 = 1 then prv else if x.1 = 2 then leBytes 2 slice else pmeta
    putBytes k x.2.2.2 (bytesAt src x.2.1 x.2.2.1)) (List.replicate n 0)
  (k.zipIdx).map fun b => b.1 &&& BitVec.ofNat 8 (pMask prof b.2)

/-- The built-in FJ-1240 key. -/
def fjKey (prv : List Byte) (line : Bool) : List Byte :=
  let v6 := bit (le prv 8 4) 5
  let a := fun o => if v6 then leBytes 4 0 else bytesAt prv o 4
  a 64 ++ a 80 ++ bytesAt prv 104 4 ++ bytesAt prv 96 2 ++ bytesAt prv 40 2 ++ bytesAt prv 44 2 ++ bytesAt prv 108 1 ++
  leBytes 1 (b2n line + 2 * (byteAt prv 99 % 2) + 4 * b2n v6)

/-- The key of table t for a pass. -/
def RuleSet.keyOf (r : RuleSet) (t : Nat) (prv : List Byte) (slice : Nat) (pmeta : List Byte) (line : Bool) : List Byte :=
  if tProfile (r.table t) = 0xFE then fjKey prv line else buildKey (r.profileOf t) prv slice pmeta

/-- The packet's slice as R205 has it: the sending slice, else the one assigned by an earlier pass. -/
def keySlice (p : Packet) : Nat := if p.srcSlice != 0xFFFF then p.srcSlice else p.slice

/-- A table as a lookup at device time t finds it (R234). -/
def Dev.tableAt (d : Dev) (t now : Nat) : Table := d.tableWith t fun u => u.apply ≤ now

/-! ### The learn filter (R271, R272) -/

/-- Fingerprint of a learn key. -/
def fingerprint (t : Nat) (key : List Byte) : Nat :=
  (crc32c (BitVec.ofNat 8 t :: 0x00 :: key)).toNat + 2 ^ 32 * (crc32c (BitVec.ofNat 8 t :: 0xFF :: key)).toNat

/-- Keys of the four ways of a set of pipeline pl's filter. -/
def filterWays (pl fp : Nat) : List Nat := (List.range 4).map fun w => pl * 4096 + fp % 1024 * 4 + w

def Learn.fresh (l : Learn) (now : Nat) (f : LearnFilter) : Bool := now - f.time < l.window * 1000

/-- The fresh entry of a fingerprint. -/
def Learn.find (l : Learn) (pl fp now : Nat) : Option (Nat × LearnFilter) :=
  (filterWays pl fp).findSome? fun k => match mfind l.filters k with
    | some f => if f.hash = fp && l.fresh now f then some (k, f) else none
    | none => none

/-- Where a new entry goes: the entry of the same fingerprint, a way that is not fresh, or the oldest. -/
def Learn.way (l : Learn) (pl fp now : Nat) : Nat :=
  let ways := filterWays pl fp
  match l.find pl fp now with
  | some (k, _) => k
  | none =>
    match ways.find? fun k => match mfind l.filters k with | some f => !l.fresh now f | none => true with
    | some k => k
    | none => (ways.foldl (fun (b : Nat × Nat) k => match mfind l.filters k with
        | some f => if f.time < b.2 then (k, f.time) else b
        | none => b) (ways.headD 0, 2 ^ 64)).1

/-! ### Detection (R267-R272) -/

/-- A notice of R274, phase 0. -/
def noticeBytes (time type pipe ingress old slice vlan table keyLen vni lost : Nat) (data key : List Byte) : List Byte :=
  leBytes 8 time ++ leBytes 1 type ++ leBytes 1 pipe ++ leBytes 2 ingress ++ leBytes 2 old ++ leBytes 2 slice ++
  leBytes 2 vlan ++ leBytes 1 table ++ leBytes 1 keyLen ++ leBytes 4 vni ++ leBytes 8 lost ++ padTo 8 data ++ padTo 48 key ++
  leBytes 40 0

/-- A pipeline's FIFO takes a notice, behind a LEARN_LOST of the same learn table when notices were lost; else it is lost
(R276). -/
def enqueueNotice (pl : Nat) (b : List Byte) (isMove : Bool) (wrote : Learn → Learn) (d : Dev) : Dev :=
  let l := d.learn
  let q := mget [] l.fifos pl
  let lost := mget 0 l.lost pl
  let extra := if lost = 0 then [] else [noticeBytes 0 3 pl 0 0 0 0 (byteAt b 18) (byteAt b 19) 0 lost [] []]
  if q.length + extra.length ≥ 512 then
    { d with learn := { l with lost := mset 0 l.lost pl (lost + 1) } } |> count (aPl pl + 0x220C) |> count 0xD80320C
  else
    { d with learn := wrote { l with fifos := mset [] l.fifos pl (q ++ extra ++ [b]), lost := mset 0 l.lost pl 0 } }
      |> count (aPl pl + if isMove then 0x2204 else 0x2200)

/-- A detection judged against the pipeline's filter (R272). -/
def judgeDetection (pl fp code : Nat) (moveFromTable : Bool) (mk : Bool → Option Nat → List Byte) (d : Dev) : Dev :=
  let l := d.learn
  let post := fun (isMove : Bool) (old : Option Nat) =>
    enqueueNotice pl (mk isMove old) isMove fun l =>
      { l with filters := mput l.filters (l.way pl fp d.time) ⟨fp, code, d.time⟩ }
  let quiet := count (aPl pl + 0x2208)
  match l.find pl fp d.time with
  | none => post moveFromTable none d
  | some (_, f) =>
    if f.port = code then quiet d
    else if moveFromTable then post true none d
    else if l.moves then post true (some f.port) d
    else d

/-- The learn lookup of a first pass on pipeline pl (R267-R272). -/
def learnLookup (rs : RuleSet) (p : Packet) (pl : Nat) (prv : List Byte) (d : Dev) : Dev :=
  let l := d.learn
  let kind := p.ingress / 4096
  let en := if kind = 0 then p.ingress % 4096 else 128 + p.ingress % 4096
  let mac := bytesAt prv 34 6
  if !(l.on && l.ring.enable && (kind == 0 || kind == 1) && bit l.portEn en && !(mac.all (· == 0)) &&
       !bit (byteAt mac 0) 0 && !bit p.flags fMalformed) then d
  else
    let prof := (mfind rs.profiles l.profile).getD []
    if !(exactKind (rs.kind l.table) && pKeyLen prof != 0 && pKeyLen prof == pKeyLen (rs.profileOf l.table)) then
      count (aPl pl + 0x2210) d
    else
      let sl := keySlice p
      let key := buildKey prof prv sl p.pmeta
      let r := lookupTable rs l.table (d.tableAt l.table (d.time + 160)) key
      let d := match r.found with | some k => touchEntry l.table k (pl / 2) d.time d | none => d
      let present := le prv 8 4
      let vlan := be prv 40 2 % 4096 + if bit present 0 || bit present 1 then 32768 else 0
      let vni := be prv 109 3 + if bit p.flags fTunnel then 2 ^ 31 else 0
      let stored := le r.data (2 + l.portOff) 2
      let fp := fingerprint l.table key
      let mk := fun (isMove : Bool) (old : Option Nat) =>
        noticeBytes p.time (if isMove then 2 else 1) (pl + if old.isSome then 64 else 0) p.ingress
          (if isMove then old.getD stored else 0) sl vlan l.table key.length vni 0 (if isMove && old.isNone then r.data else []) key
      if r.hit then
        if stored = p.ingress || stored / 4096 = 15 || !l.moves then d
        else judgeDetection pl fp p.ingress true mk d
      else judgeDetection pl fp p.ingress false mk d

/-! ### The learn ring (R274-R279) -/

/-- The writer on HD0 moves the oldest notice of pipeline n into the ring, once it may (R275, R277). -/
def learnNoticeWrite (n : Nat) (d : Dev) : Dev :=
  let l := d.learn
  let r := l.ring
  match mget [] l.fifos n with
  | [] => d
  | b :: q =>
    if !r.enable || r.full || !d.mgrMay then d
    else
      let b := if byteAt b 8 = 3 then putLe b 0 8 d.time else b
      let d := ringWrites mgrWrite r.base r.n r.wpos 128 b 127 d
      let tell := l.event && r.empty && !l.notified
      let d := { d with learn := { l with fifos := mset [] l.fifos n q, ring := r.step, notified := l.notified || tell } }
      when tell (raise 0x07 (posWord r.n r.step.wpos) 0 0) d

/-- LEARN_NOTICE_WRITE (R275). -/
def execLearnNoticeWrite (n : Fin 8) (s : State) : Host.Outcome State Fault Refusal :=
  .next (s.onDev fun _ d => learnNoticeWrite n d)

def learnHeadWrite (v : Word) (d : Dev) : Dev :=
  let r := d.learn.ring
  match headValid r.n r.head r.wpos (wbits v 16 0) with
  | some p => { d with learn := { d.learn with ring := { r with head := p }, notified := false } }
  | none => badAccess d

/-- LEARN_HEAD_WRITE (R279). -/
def execLearnHeadWrite (q : Requester) (v : Word) (s : State) : Host.Outcome State Fault Refusal :=
  .next (s.atRegAll q 0xD803200 fun _ d => learnHeadWrite v d)

def learnRingSet (r : Ring) (b : List Byte) (d : Dev) : Dev :=
  let on := bit (byteAt b 9) 0
  checks r [if on && d.learn.ring.enable then some (stExists, 0) else none, bad (le b 0 8 % 4096 != 0) 0,
             bad (byteAt b 8 < 8 || byteAt b 8 > 16) 8, bad (byteAt b 9 / 4 != 0) 9,
            bad (!zeroAt b 10 6) 10] (fun d =>
    let l := d.learn
    let ring : EvRing := { l.ring with base := le b 0 8, log2 := byteAt b 8 }
    { d with learn :=
        if on then { l with ring := ring.start, event := bit (byteAt b 9) 1, notified := false }
        else { l with ring := { ring with enable := false }, event := bit (byteAt b 9) 1, fifos := [] } }
      |> reply r stOk 0 []) d

/-- LEARN_RING_SET (R277). -/
def execLearnRingSet (r : Ring) (p : Read) (s : State) : Host.Outcome State Fault Refusal :=
  .next (s.onDev fun _ d => command r 0x0501 p (fun _ b => learnRingSet r b) d)

def learnFilterSet (r : Ring) (b : List Byte) (d : Dev) : Dev :=
  let rs := d.gens.rules
  let t := byteAt b 0
  let pr := byteAt b 1
  let on := bit (byteAt b 3) 0
  let prof := (mfind rs.profiles pr).getD []
  checks r [bad (t > 63 || (on && !exactKind (rs.kind t))) 0,
             bad (pr > 63 || (on && (pKeyLen prof == 0 || pKeyLen prof != pKeyLen (rs.profileOf t)))) 1,
             bad (byteAt b 2 > 4) 2, bad (byteAt b 3 / 8 != 0) 3, bad (le b 4 4 > 1000000) 4,
            bad (!zeroAt b 28 4) 28] (fun d =>
    let l := d.learn
    let w := le b 4 4
    let clear := bit (byteAt b 3) 2 || t != l.table || pr != l.profile || w != l.window
    { d with learn := { l with table := t, profile := pr, portOff := byteAt b 2, on := on, moves := bit (byteAt b 3) 1
                               window := w, portEn := le b 8 20, filters := if clear then [] else l.filters } }
      |> reply r stOk 0 []) d

/-- LEARN_FILTER_SET (R278). -/
def execLearnFilterSet (r : Ring) (p : Read) (s : State) : Host.Outcome State Fault Refusal :=
  .next (s.onDev fun _ d => command r 0x0502 p (fun _ b => learnFilterSet r b) d)

end Sys2Proof.Machine
end

