-- ==== Sys2Proof/Machine/Pipeline.lean ====
section
/-!
DEFINITION. A pass through a pipeline (R19, R22-R26, R177, R203, R237-R251): stamping, parsing, lookups, the action
stage, its waits for contexts and placement tables, and the close of the pass.
-/
namespace Sys2Proof.Machine

/-! ### Where packets go -/

/-- A packet's place in the order of R26: that of the packet it was copied from. -/
def Packet.ord (p : Packet) : Nat := p.origin.getD p.id

/-- Pipe die that owns an egress port (R350). -/
def dieOfPort (port : Nat) : Nat :=
  if port < 128 then port / 32 else if port < 160 then (port - 128) / 8 else if port < 168 then (port - 160) / 2 else port - 168

/-- Whole cells of a packet's bytes (R360). -/
def cells (n : Nat) : Nat := (n + 255) / 256 * 256

/-- The pipeline at an egress port's place: that of its port group, of its link, or its own. -/
def plOfPort (port : Nat) : Nat :=
  if port < 128 then plOfGroup (port / 4) else if port < 160 then plOfLink (port - 128)
  else if port < 168 then port - 160 else 2 * (port - 168)

/-- The transfer queue that a place lies in: from which pipe die to which (R13). -/
def inTransfer : Loc → Option (Nat × Nat)
  | .transfer a b _ => some (a, b)
  | .cross a b => some (a, b)
  | .steer a pl => if a = pl / 2 then none else some (a, pl / 2)
  | _ => none

/-- Bytes in the transfer queue from one pipe die to another (R13). -/
def Dev.transferBytes (d : Dev) (a b : Nat) : Nat :=
  d.pkts.foldl (fun n p => if inTransfer p.loc = some (a, b) then n + p.bytes.length else n) 0

/-- Whether the transfer queue of a place has room for a packet; a place in none has. -/
def Dev.transferRoom (d : Dev) (l : Loc) (n : Nat) : Bool := match inTransfer l with
  | some (a, b) => d.transferBytes a b + n ≤ 8 * 2 ^ 20
  | none => true

/-- The pipeline of a packet's ingress port. -/
def Packet.ingressPl (p : Packet) : Nat :=
  let v := p.ingress % 4096
  if p.ingress / 4096 = 1 then v / 4 else v % 128 / 16

/-- The packet moves to a place, behind everything already there. -/
def moveTo (p : Packet) (l : Loc) (d : Dev) : Dev :=
  { d with pkts := (d.pkts.filter fun x => x.id != p.id) ++ [{ p with loc := l }] }

/-- A packet ends here. -/
def endPacket (p : Packet) (d : Dev) : Dev := dropPacket p.id d

/-- The packet goes to a place, unless that is a transfer queue with no room for it (R13). `fresh` marks a copy, which gets
a number of its own. -/
def put (fresh : Bool) (p : Packet) (l : Loc) (d : Dev) : Dev :=
  if !d.transferRoom l p.bytes.length then d |> count (aPl p.ingressPl + 0x2500) |> when (!fresh) (endPacket p)
  else if fresh then addPacket { p with loc := l, origin := some p.ord } d
  else moveTo p l d

/-- Toward an egress port: into its traffic manager, or the transfer queue to its pipe die (R13, R22). -/
def toPort (fresh : Bool) (p : Packet) (port : Nat) (d : Dev) : Dev :=
  let a := p.pl / 2
  let b := dieOfPort port
  put fresh p (if a = b then .toTm port else .transfer a b port) d

/-- A packet that nothing takes: counted in its pipeline, and gone. -/
def noDest (fresh : Bool) (p : Packet) (d : Dev) : Dev := d |> plCount p 0x210C |> when (!fresh) (endPacket p)

/-- Toward a host link, unless its domain is off (R459). -/
def toHost (fresh : Bool) (p : Packet) (f : Nat) (d : Dev) : Dev :=
  if !d.hlOn f then d |> domainDrop |> when (!fresh) (endPacket p) else toPort fresh p (128 + f) d

/-- Toward a slice's host link: dropped for a CLOSING slice (R54), without destination where there is no slice. -/
def toSlice (fresh : Bool) (p : Packet) (s : Nat) (d : Dev) : Dev := match d.slice s with
  | none => noDest fresh p d
  | some x => if x.state = .closing then d |> plCount p 0x2508 |> when (!fresh) (endPacket p) else toHost fresh p x.fn d

/-- Members of a multicast group. -/
def RuleSet.members (r : RuleSet) (g : Nat) : List (List Byte) := chunks 8 ((mfind r.groups g).getD [])

/-- Send one packet or copy to its destination; groups are handled by `sendOut`. -/
def sendOne (fresh : Bool) (p : Packet) (d : Dev) : Dev := match p.dest with
  | .line port => if port < 128 then toPort fresh p port d else noDest fresh p d
  | .function f => if d.fnExists f then toHost fresh p f d else noDest fresh p d
  | .slice s => toSlice fresh p s d
  | .excFn f _ => if d.fnExists f then toHost fresh p f d else noDest fresh p d
  | .excSlice s _ => toSlice fresh p s d
  | .device => toPort fresh p (168 + p.pl / 2) d
  | _ => noDest fresh p d

/-- The copy that a member of a group takes (R247). -/
def memberCopy (p : Packet) (m : List Byte) : Packet :=
  let q := { p with dest := destOf (byteAt m 0) (le m 2 2), cls := byteAt m 1, copyList := le m 4 2, mcast := true }
  if byteAt m 0 = 2 then { q with slice := le m 2 2, billing := some (le m 2 2) } else q

/-- The egress port of a group's member; none where it names nothing. -/
def Dev.memberPort (d : Dev) (m : List Byte) : Option Nat := match destOf (byteAt m 0) (le m 2 2) with
  | .line port => if port < 128 then some port else none
  | .function f => if d.fnExists f then some (128 + f) else none
  | .slice s => (d.slice s).map fun x => 128 + x.fn
  | _ => none

/-- Replication on pipe die b: a copy for each member whose port the die owns (R13, R246). -/
def replicate (rs : RuleSet) (g b : Nat) (p : Packet) (d : Dev) : Dev :=
  each (rs.members g) (fun m e => match d.memberPort m with
    | some port => when (dieOfPort port == b) (sendOne true { memberCopy p m with pl := plOfPort port }) e
    | none => e) d

/-- Send a packet to its destination. A multicast packet is replicated on each pipe die that owns a member's port, and crosses
the welt to another die once; a member that names nothing has no destination. -/
def sendOut (rs : RuleSet) (p : Packet) (d : Dev) : Dev := match p.dest with
  | .group g =>
    let ms := rs.members g
    let a := p.pl / 2
    let dies := (List.range 4).filter fun b => b != a && ms.any fun m => (d.memberPort m).map dieOfPort == some b
    if ms.isEmpty then noDest false p d
    else d |> replicate rs g a p |> each (ms.filter fun m => (d.memberPort m).isNone) (fun m => sendOne true (memberCopy p m))
      |> each dies (fun b => put true p (.cross a b)) |> endPacket p
  | _ => sendOne false p d

/-! ### Exceptions (R193, R250, R251) -/

/-- Deliver a packet as an exception: to the owner's exception queue, or on the device exception path. -/
def deliverException (o : Option Owner) (reason : Nat) (p : Packet) (d : Dev) : Dev :=
  let p := { p with exception := reason, isExc := true }
  match o with
  | none => sendOne false { p with dest := .device } d
  | some o =>
    let q := (d.owner o).queue
    let d := match o with
      | .slice s => meter s 14 1 d
      | .function _ => d
    if q = 0xFFFF then sendOne false { p with dest := .device } d
    else match o with
      | .slice s => sendOne false { p with dest := .excSlice s q } d
      | .function f => sendOne false { p with dest := .excFn f q } d

/-- The owner of an exception that a primitive raises (R251). -/
def Packet.excOwner (p : Packet) : Option Owner :=
  if p.slice != 0xFFFF then some (.slice (fin 4096 p.slice))
  else if p.ingress / 4096 = 1 && p.srcSlice = 0xFFFF then some (.function (fin 32 (p.ingress % 32)))
  else none

/-- The owner under whose policy flags are judged (R192): of the destination that this pass, or the group's member, chose. -/
def Packet.flagOwner (p : Packet) : Option Owner :=
  if p.ingress / 4096 = 1 && !p.mcast then
    some (if p.srcSlice = 0xFFFF then .function (fin 32 (p.ingress % 32)) else .slice (fin 4096 p.srcSlice))
  else if !p.mcast && !p.chosen then none
  else match p.dest with
    | .function f => if f < 32 then some (.function (fin 32 f)) else none
    | .slice s => some (.slice (fin 4096 s))
    | _ => none

/-! ### The judgement of flags and length (R192-R195, R288) -/

/-- The flags in the order of R193: flag, policy of the owner or the default, drop counter, reason. -/
def flagRows (pol : List Byte) (o : Option OwnerSt) : List (Nat × Nat × Nat × Nat) :=
  let act := fun (f : OwnerSt → Nat) i => match o with | some x => f x | none => byteAt pol i
  [(fMalformed, act (·.malformed) 34, 0x2008, 3), (fLenOver, act (·.lenOver) 32, 0x2000, 1),
   (fDepth, act (·.depth) 35, 0x200C, 4), (fTrailer, act (·.trailer) 33, 0x2004, 2)]

/-- What the judgement decides. -/
inductive Verdict where
  | forward
  | drop
  | exc (reason : Nat)
deriving DecidableEq, Repr

/-- Parse flags judged under an owner's policy, counted at the pipeline whose pass raised them. -/
def judgeFlags (pol : List Byte) (o : Option Owner) (p : Packet) (d : Dev) : Verdict × Dev :=
  let p := { p with pl := p.passPl }
  let rows := (flagRows pol (o.map d.owner)).filter fun r => bit p.flags r.1
  if rows.isEmpty then (.forward, d)
  else match rows.find? fun r => r.2.1 == 0 with
    | some r => (.drop, plCount p r.2.2.1 d)
    | none => match rows.find? fun r => r.2.1 == 1 with
      | some r => (.exc r.2.2.2, plCount p 0x2010 d)
      | none => (.forward, plCount p 0x2014 d)

/-- MAX_FRAME of a line port; values below 1,518 are taken as 1,518 (LP_PORT_CTRL). -/
def Dev.maxFrame (d : Dev) (port : Nat) : Nat := max 1518 (d.fld (aLp (port / 4) + 0x10 + 4 * (port % 4)) 13 0)

/-- The longest packet that a destination takes (R288). -/
def Dev.lengthLimit (d : Dev) : Dest → Option Nat
  | .line port => some (d.maxFrame port - 4)
  | .function _ => some 16379
  | .slice _ => some 16379
  | _ => none

/-- A packet that ENCAP or ENCRYPT lengthened, beyond its destination's limit. -/
def Dev.oversize (d : Dev) (p : Packet) : Bool :=
  p.lengthened && (match d.lengthLimit p.dest with | some n => p.bytes.length > n | none => false)

/-- Oversize judged beside the flags' verdict, DROP over EXCEPTION (R288). -/
def judgeLength (o : Option Owner) (p : Packet) (v : Verdict) (d : Dev) : Verdict × Dev :=
  if v = .drop || !d.oversize p then (v, d)
  else if ((o.map fun o => (d.owner o).oversize).getD 0) = 0 then (.drop, plCount p 0x2300 d)
  else (match v with | .exc r => .exc r | _ => .exc 5, plCount p 0x2304 d)

/-! ### The close of a pass (R243) -/

/-- A mirror copy, cut (R249); to a host it is steered by RSS. -/
def cutMirror (p : Packet) (m : Mirror) (d : Dev) : Dev :=
  sendOne true { p with dest := m.dest, cls := m.cls, steer := none, steerOwner := none, recirc := false, mirrorReq := [],
                        lengthened := false, bytes := if m.trunc = 0 then p.bytes else p.bytes.take m.trunc } d

/-- The meters of the first pass that gives a billing slice (R56, R245). -/
def meterPass (p : Packet) (d : Dev) : Packet × Dev :=
  if p.metered || p.billing.isNone || p.ingress / 4096 > 1 then (p, d)
  else
    let q := { p with metered := true }
    if p.ingress / 4096 = 0 then (q, meterOf p.billing 5 p.lineLen d)
    else if p.red then (q, d)
    else (q, d |> meterOf p.billing 0 1 |> meterOf p.billing 1 p.lineLen)

/-- Whether the packet is headed for a multicast group. -/
def Packet.toGroup (p : Packet) : Bool := match p.dest with | .group _ => true | _ => false

/-- The outcome of a pass whose judgement let the packet through. -/
def closeOutcome (rs : RuleSet) (f : Fate) (p : Packet) (d : Dev) : Dev := match f with
  | .drop => endPacket p d
  | .exc r => deliverException p.excOwner r p d
  | _ =>
    if p.steerOwner.isSome && p.dest != .slice (p.steerOwner.getD 0) then d |> plCount p 0x2104 |> endPacket p
    else if p.recirc then
      if p.pass < 3 then toPort false { p with pl := p.recircPl } (160 + p.recircPl) d
      else d |> plCount p 0x2118 |> deliverException p.excOwner 7 p
    else sendOut rs p d

/-- Close the pass: mirrors, judgement, one outcome. A bad line frame goes to the device exception path (R375). -/
def closePass (rs : RuleSet) (f : Fate) (p : Packet) (d : Dev) : Dev :=
  if p.ingress / 4096 = 3 then deliverException none 0 p d
  else
    let m := meterPass p d
    let p := m.1
    let d := each p.mirrorReq (cutMirror p) m.2
    let p := { p with mirrorReq := [] }
    let onward := f = .go && !p.recirc && p.dest != .none
    if onward && p.toGroup then closeOutcome rs f p d
    else
      let o := p.flagOwner
      let v := judgeFlags rs.pol o p d
      let v := if onward then judgeLength o p v.1 v.2 else v
      match v.1 with
      | .drop => endPacket p v.2
      | .exc r => deliverException o r p v.2
      | .forward => closeOutcome rs f p v.2

/-! ### A pass -/

/-- Go on with the action stage: it ends in the close of the pass, or waits. -/
def goOn (rs : RuleSet) (r : Turn) (d' : Dev → Dev) : Dev := match r.2.1 with
  | .wait l =>
    if (r.2.2.packet r.1.id).any (·.loc == l) then r.2.2 |> updPacket r.1.id (fun _ => r.1) |> d'
    else r.2.2 |> put false r.1 l |> d'
  | f => r.2.2 |> closePass rs f r.1 |> d'

/-- The lanes of a pass in ascending order: lane and table (R203). -/
def RuleSet.lanes (r : RuleSet) (pass : Nat) : List (Nat × Nat) :=
  (List.range 8).flatMap fun l => (r.tables.filter fun t => tLane t.2 pass == l).map fun t => (l, t.1)

/-- One lane's lookup, counted; a row with an uncorrectable error gives miss data (R204, R219, R233, R236). -/
def laneLookup (rs : RuleSet) (p : Packet) (prv : List Byte) (pl : Nat) (badLanes : List Nat) (l t : Nat) (d : Dev) :
    LaneResult × Dev :=
  let line := p.ingress / 4096 == 0
  let x := lookupTable rs t (d.tableAt t (d.time + 160)) (rs.keyOf t prv (keySlice p) p.pmeta line)
  let r : LaneResult := if badLanes.contains l then { hit := false, data := tMiss (rs.table t) } else x
  let d := count64 (aTbl t + if r.hit then 0 else 8) d
  (r, match r.found with | some k => touchEntry t k (pl / 2) d.time d | none => d)

/-- All lanes of a pass: the primitives to run. -/
def passLookups (rs : RuleSet) (p : Packet) (prv : List Byte) (pl : Nat) (badLanes : List Nat) (d : Dev) : List Prim × Dev :=
  (rs.lanes p.pass).foldl (fun a e =>
    let r := laneLookup rs p prv pl badLanes e.1 e.2 a.2
    (a.1 ++ laneTodo rs r.1.data r.1.owner, r.2)) ([], d)

/-- The generation that is CURRENT 160 ns from now (R255). -/
def Dev.stampGen (d : Dev) : Nat :=
  if d.updates.any fun u => u.op == .commit && u.apply ≤ d.time + 160 then nextGen d.gens.current else d.gens.current

/-- TCAM rules emptied by then are gone from the rule set too (R233). -/
def Dev.rulesAt (d : Dev) (g now : Nat) : RuleSet :=
  d.updates.foldl (fun r u => match u.op with
    | .rule t i b => if u.apply ≤ now then emptyRule t i b r else r
    | _ => r) (d.rulesOf g)

/-- A pass of packet p enters pipeline pl now. -/
def runPass (p : Packet) (pl : Nat) (badLanes : List Nat) (d : Dev) : Dev :=
  let first := p.pass == 0
  let p := { p with pass := p.pass + 1, pl := pl, passPl := pl, chosen := false, recirc := false, ctxUsed := false, police := 0, mirrorReq := [], red := false
                    time := if first then d.time else p.time, gen := if first then d.stampGen else p.gen }
  let rs := d.rulesAt p.gen (d.time + 160)
  let bad := p.ingress / 4096 == 3
  let x := parsePacket rs.pol rs.patterns p.bytes p.ingress p.srcSlice (if p.hashed then some p.hash else none) p.macsec bad
  let p := { p with flags := x.flags, prv := x.prv, hash := x.hash, hashed := true, anchors := x.raw.anchors }
  let d := d |> when (!first) (count (aPl pl + 0x2114)) |> when (bit x.flags fPattern) (count (aPl pl + 0x2018))
  if bad then closePass rs .go p d
  else
    let d := if first then learnLookup rs p pl x.prv d else d
    let t := passLookups rs p x.prv pl badLanes d
    match (if first then p.bound else none) with
    | none => goOn rs (runTodo { rs := rs } t.1 p t.2) id
    | some c =>
      let h := homePl c
      let p := { p with ctxUsed := true, todo := t.1 }
      if !d.plOn h then endPacket p (domainDrop t.2)
      else if pl = h then goOn rs (runTodo { rs := rs } t.1 p t.2) id
      else put false p (.steer (pl / 2) h) t.2

/-- A steered packet enters its home pipeline, where the rest of its pass runs (R24, R242). -/
def runSteered (p : Packet) (pl : Nat) (d : Dev) : Dev :=
  let rs := d.rulesOf p.gen
  let q := { p with pl := pl }
  goOn rs (runTodo { rs := rs } q.todo q d) id

/-- The pipeline that a waiting packet enters. -/
def passPlace (p : Packet) : Option Nat := match p.loc with
  | .fifo g _ => some (plOfGroup g)
  | .hostIn f => some (plOfLink f)
  | .recirc pl => some pl
  | .steer _ pl => some pl
  | _ => none

/-- Whether two places are one line: a port group's FIFO, a host link, a recirculation port, a transfer queue, the slot wait
of packets steered inside a die. -/
def sameLine (a b : Loc) : Bool := match a, b with
  | .fifo g _, .fifo h _ => g == h
  | .hostIn f, .hostIn g => f == g
  | .recirc m, .recirc n => m == n
  | .steer x m, l => match inTransfer (.steer x m) with
    | some t => inTransfer l == some t
    | none => l == .steer x m
  | _, _ => false

/-- A first, recirculated or steered pass enters a pipeline. Packets of one line enter in order. -/
def pipelinePass (i : Nat) (badLanes : List Nat) (d : Dev) : Dev := match d.packet i with
  | none => d
  | some p => match passPlace p with
    | none => d
    | some pl =>
      if !d.plOn pl || ((d.pkts.takeWhile (·.id != i)).any fun x => sameLine p.loc x.loc) then d
      else match p.loc with
        | .steer _ h => runSteered p h d
        | _ => runPass p pl badLanes d

/-- PIPELINE_PASS (R19, R22). -/
def execPipelinePass (pkt : Nat) (badLanes : List Nat) (s : State) : Host.Outcome State Fault Refusal :=
  .next (s.onDev fun _ d => pipelinePass pkt badLanes d)

/-! ### Waiting uses of a context (R295, R318) -/

/-- Packets that wait for context c, in order. -/
def Dev.ctxWaiters (d : Dev) (c : Nat) : List Nat := (d.pkts.filter fun p => p.loc == .ctxWait c).map (·.id)

/-- One waiting packet goes on, if it still waits and nothing ahead of it does. -/
def resumeOne (c i : Nat) (d : Dev) : Dev := match d.packet i with
  | none => d
  | some p =>
    if p.loc != .ctxWait c || d.ctxAhead c p then d
    else
      let rs := d.rulesOf p.gen
      goOn rs (runTodo { rs := rs } p.todo p d) id

def resumeWaiters (c : Nat) (d : Dev) : Dev := each (d.ctxWaiters c) (resumeOne c) d

/-- The next miss of a die starts: the first waiting packet whose context is neither cached nor on its way. -/
def nextMiss (die : Nat) (d : Dev) : Dev :=
  let c := d.pkts.findSome? fun p => match p.loc with
    | .ctxWait c => if c % 4 == die && !d.ctxCached c && !(mget [] d.ctxMiss die).contains c then some c else none
    | _ => none
  match c with
  | some c => ctxMissStart c d
  | none => d

/-- CONTEXT_CACHE_FILL: a miss in flight completes. -/
def contextCacheFill (die c : Nat) (d : Dev) : Dev :=
  if !(mget [] d.ctxMiss die).contains c then d
  else
    { d with ctxMiss := mupd [] d.ctxMiss die fun l => l.filter (· != c) }
      |> cacheTouch c |> resumeWaiters c |> nextMiss die

/-- CONTEXT_CACHE_FILL (R295). -/
def execContextCacheFill (die : Fin 4) (c : Nat) (s : State) : Host.Outcome State Fault Refusal :=
  .next (s.onDev fun _ d => contextCacheFill die c d)

/-- Forget the placement-table read of a context. -/
def tableReadDrop (c : Nat) (x : Fn) : Fn :=
  let tags := (x.reads.filter fun r => r.purpose == .placement c).map (·.tag)
  { x with reads := x.reads.filter fun r => !tags.contains r.tag, xdenied := x.xdenied.filter fun t => !tags.contains t }

/-- The entry that packet p waits for, and its segment list: the suspended walk goes on, then later uses of the context. -/
def tableEntryDone (p : Packet) (c : Nat) (entry segs : Read) (d : Dev) : Dev :=
  let rs := d.rulesOf p.gen
  let denied := d.fns.any fun e => e.2.reads.any fun r => r.purpose == .placement c && e.2.xdenied.contains r.tag
  let d := { d with fns := mmap d.fns fun _ x => tableReadDrop c x }
  let t := (p.todo.headD ⟨[], [], none⟩)
  let r := storageResume p c (bit (byteAt t.op 7) 0) denied entry segs d
  match r.2.1 with
  | .go => goOn rs (runTodo { rs := rs } (p.todo.drop 1) r.1 r.2.2) (resumeWaiters c)
  | _ => goOn rs r id

/-- Where the segment list of an entry that was read lies: function, PASID, range; none where none is to be read. -/
def Dev.listRead (d : Dev) (c : Nat) (entry : Read) : Option (Nat × Nat × Nat × Nat) := match entry with
  | .ok e => (d.tableOf c (d.ctxRaw c)).bind fun t =>
    if le e 12 2 != 0 && le e 12 2 ≤ 256 && byteAt e 14 = 1 && byteAt e 20 = 0 then some (t.2.1, t.2.2, le e 0 8, 16 * le e 12 2)
    else none
  | _ => none

/-- The answer to a placement-table read; the segment list's own read passes the translation cache (R96). -/
def placementTableReadDone (c : Nat) (entry segs : Read) (d : Dev) : Dev :=
  match d.pkts.find? fun p => p.loc == .tableWait c with
  | none => d
  | some p => match d.listRead c entry with
    | none => tableEntryDone p c entry segs d
    | some (f, pasid, a, n) => withRead f (some pasid) [(a, n)] segs (tableEntryDone p c entry) d

/-- PLACEMENT_TABLE_READ_DONE (R322). -/
def execPlacementTableReadDone (c : Nat) (entry segs : Read) (s : State) : Host.Outcome State Fault Refusal :=
  .next (s.onDev fun _ d => placementTableReadDone c entry segs d)

end Sys2Proof.Machine
end

