-- ==== Sys2Proof/Machine/Receive.lean ====
section
/-!
DEFINITION. What a packet carries to its receiver: the RSS choice of a queue (R134, R135) and the receive metadata
(R125). Placement is in Machine/HostRx.lean, the device exception ring in Machine/Traffic.lean.
-/
namespace Sys2Proof.Machine

/-! ### RSS (R134, R135) -/

/-- The bytes that the Toeplitz hash reads: addresses and ports of the innermost IP header that FIELDS includes. -/
def rssInput (fields : Nat) (x : Parse) : List Byte := match x.innermost with
  | none => []
  | some h =>
    let o := if h.v6 then 3 else 0
    if !bit fields o then []
    else
      let ports := match h.l4 with
        | some a => if !h.frag && ((h.proto == 6 && bit fields (o + 1)) || (h.proto == 17 && bit fields (o + 2))) then
            bytesAt x.pkt a 4 else []
        | none => []
      h.src ++ h.dst ++ ports

/-- The packet as parsed when it is placed. -/
def placedParse (p : Packet) (d : Dev) : Parse :=
  (parsePacket (d.rulesOf p.gen).pol [] p.bytes p.ingress p.srcSlice (some p.hash) p.macsec false).raw

/-- The hash under an owner's key; 0 without an address. -/
def rssHash (o : Owner) (p : Packet) (d : Dev) : Nat :=
  let x := d.owner o
  let b := rssInput x.rssFields (placedParse p d)
  if b.isEmpty then 0 else (toeplitz x.rssKey b).toNat

/-- Where a packet goes inside the adapter's host side: its owner, and the queue chosen for it already. -/
def Packet.receiver (p : Packet) : Option (Owner × Option Nat) := match p.dest with
  | .function f => if f < 32 then some (.function (fin 32 f), p.steer) else none
  | .slice s => some (.slice (fin 4096 s), p.steer)
  | .excFn f q => some (.function (fin 32 f), some q)
  | .excSlice s q => some (.slice (fin 4096 s), some q)
  | _ => none

/-- The queue of a packet: STEER's or its exception queue, else through the owner's indirection table; and the hash. -/
def rxQueue (o : Owner) (q : Option Nat) (p : Packet) (d : Dev) : Option Nat × Nat := match q with
  | some q => (some q, 0)
  | none =>
    let h := rssHash o p d
    let e := mget 0 (d.owner o).rssTable (h % 256)
    (if bit e 15 then some (bits e 12 0) else none, h)

/-! ### Receive metadata (R125) -/

/-- RX_FLAGS; the checksum bits are those of the innermost headers that the last parse verified (DEDUCED, log 36). -/
def Packet.rxFlags (p : Packet) : Nat :=
  let o := if bit p.flags fTunnel then 2 else 0
  b2n p.vlanRemoved + 2 * b2n (bit p.flags (8 + o)) + 4 * b2n (bit p.flags (9 + o)) + 8 * b2n (bit p.flags (4 + o)) +
    16 * b2n (bit p.flags (5 + o)) + 32 * b2n p.isExc + 64 * b2n p.decrypted

/-- The 32 bytes of receive metadata. -/
def rxMetadata (p : Packet) (hash : Nat) : List Byte :=
  leBytes 4 hash ++ leBytes 4 p.flags ++ leBytes 8 p.time ++ leBytes 2 p.vlanTci ++ leBytes 1 p.rxFlags ++
    leBytes 1 p.exception ++ leBytes 2 p.ingress ++ leBytes 2 p.srcSlice ++ leBytes 8 0

end Sys2Proof.Machine
end

