-- ==== Sys2Proof/Machine/PortOps.lean ====
section
/-!
DEFINITION. Shared operations of the line ports (16_line_ports.md): which logical ports exist, their registers,
counters and events, and pauses.
-/
namespace Sys2Proof.Machine

/-! ### Logical ports (R366) -/

/-- Registers of logical port p = 4g + k. -/
def aCtrl (p : Nat) : Nat := aLp (p / 4) + 0x10 + 4 * (p % 4)
def aStat (p : Nat) : Nat := aLp (p / 4) + 0x20 + 4 * (p % 4)
def aAn (p : Nat) : Nat := aLp (p / 4) + 0x30 + 4 * (p % 4)
def aPfc (p : Nat) : Nat := aLp (p / 4) + 0x60 + 4 * (p % 4)

/-- The mode of a group; 6 and 7 are taken as 0. -/
def Dev.lpMode (d : Dev) (g : Nat) : Nat := let m := d.fld (aLp g) 2 0; if m ≥ 6 then 0 else m

/-- Lanes of port k in a mode; 0 where the port does not exist. -/
def modeLanes (m k : Nat) : Nat :=
  if m = 0 then 0 else if m = 1 then (if k = 0 then 4 else 0) else if m = 2 then (if k % 2 = 0 then 2 else 0) else 1

/-- The highest lane rate of a mode, as a RATES bit number. -/
def modeRate (m : Nat) : Nat := if m = 4 then 1 else if m = 5 then 0 else 2

def Dev.lanes (d : Dev) (p : Nat) : Nat := modeLanes (d.lpMode (p / 4)) (p % 4)
def Dev.portExists (d : Dev) (p : Nat) : Bool := p < 128 && d.lanes p != 0
def Dev.linkUp (d : Dev) (p : Nat) : Bool := d.portExists p && d.flag (aStat p) 31

/-- The port's speed in Gb/s, from its lanes and LANE_RATE; 0 while down. -/
def Dev.speed (d : Dev) (p : Nat) : Nat :=
  let r := d.fld (aStat p) 19 18
  if r = 0 then 0 else d.lanes p * 25 * 2 ^ r

/-- The levels that a group's status and counter bits drive (R395). -/
def lpSync (g : Nat) (d : Dev) : Dev :=
  d |> sourceLevel (96 + g) ((List.range 4).any fun k => d.fld (aStat (4 * g + k)) 7 0 != 0)
    |> sourceLevel (128 + g) ((List.range 12).any fun j => d.reg (aLp g + 0x200 + 0x10 * (j / 3) + 4 * (j % 3)) != 0)

/-! ### Counters (R384, R385) -/

/-- Counters of 48 bits; the others have 40. -/
def wideCounter (i : Nat) : Bool := i ≤ 1 || i = 41 || i ≥ 69

/-- Add to counter i of a port; a change of its top bit sets its CNT_HALF bit and raises LP_CNT_EVENT, which
coalesces until the bit is cleared. -/
def lpAdd (p i n : Nat) (d : Dev) : Dev :=
  let a := aLp (p / 4) + 0x1000 + 0x400 * (p % 4) + 8 * i
  let w := if wideCounter i then 48 else 40
  let old := d.reg64 a
  let new := (old + n) % 2 ^ w
  let h := aLp (p / 4) + 0x200 + 0x10 * (p % 4) + 4 * (i / 32)
  let d := setReg64 a new d
  if bit old (w - 1) = bit new (w - 1) || d.flag h (i % 32) then d
  else d |> setFlag h (i % 32) true |> raise 0x0C p 0 0 |> lpSync (p / 4)

def lpCount (p i : Nat) (d : Dev) : Dev := lpAdd p i 1 d

/-- Bin of a frame length, from 64 bytes on. -/
def sizeBin (n : Nat) : Nat :=
  if n ≤ 64 then 0 else if n ≤ 127 then 1 else if n ≤ 255 then 2 else if n ≤ 511 then 3 else if n ≤ 1023 then 4
  else if n ≤ 1518 then 5 else if n ≤ 2047 then 6 else if n ≤ 4095 then 7 else if n ≤ 9216 then 8 else 9

/-- 0 unicast, 1 multicast, 2 broadcast. -/
def castOf (b : List Byte) : Nat :=
  if (bytesAt b 0 6).all (· == 0xFF) then 2 else if byteAt b 0 % 2 = 1 then 1 else 0

/-! ### Events (R36, LP_PORT_STATUS) -/

/-- Set bit i (0-7) of LP_PORT_STATUS: LP_EVENT when it becomes 1. -/
def lpBit (p i : Nat) (d : Dev) : Dev :=
  if d.flag (aStat p) i then d
  else
    let d := setFlag (aStat p) i true d
    d |> raise 0x0B p (d.fld (aStat p) 7 0) (b2n (d.flag (aStat p) 25)) |> lpSync (p / 4)

/-! ### Pauses (R379, R380) -/

/-- Whether class c of a port is paused by the partner now. -/
def Dev.paused (d : Dev) (p c : Nat) : Bool :=
  let x := d.port p
  d.time < mget 0 x.pauseEnd c && !(d.time < mget 0 x.ignoreEnd c)

/-- The transmit queue that a packet takes (R377). -/
def Dev.macQueue (d : Dev) (port : Nat) (p : Packet) : Nat :=
  let r := d.reg (aLp (port / 4) + 0x50 + 4 * (port % 4))
  if p.ingress / 4096 = 2 && r.getLsbD 8 then 1 else if r.getLsbD (p.cls % 8) then 2 else 3

end Sys2Proof.Machine
end

