-- ==== Sys2Proof/Machine/Nodes.lean ====
section
/-!
DEFINITION. Policers and egress nodes (15_traffic_manager.md, R343-R358): credit, staged settings, POLICER_SET,
NODE_SET, NODE_QUERY and the refill boundaries.
-/
namespace Sys2Proof.Machine

/-! ### POLICER_SET (R349) -/

/-- The first multiple of `step` at or behind `t`. -/
def boundary (step t : Nat) : Nat := (t + step - 1) / step * step

def policerFaults (b : List Byte) : List (Option (Nat × Nat)) :=
  [bad (byteAt b 4 / 4 != 0) 4, bad (!zeroAt b 6 2) 6, bad (le b 8 4 > 800000) 8,
   bad (le b 12 4 < 1 || le b 12 4 > 800000 || le b 12 4 < le b 8 4) 12,
   bad (le b 16 4 < 64 || le b 16 4 > 268435456) 16, bad (le b 20 4 < 64 || le b 20 4 > 268435456) 20]

def policerSet (r : Ring) (e : Exec) (b : List Byte) (d : Dev) : Dev :=
  let n := le b 0 4
  let go := fun i d => checks r (policerFaults b) (fun d =>
    let t := drawStaging d
    let due := boundary 1024 (d.time + t.1)
    let l := [byteAt b 4 % 2, byteAt b 5, le b 8 4, le b 12 4, le b 16 4, le b 20 4, byteAt b 4 / 2 % 2, due]
    t.2 |> begin' r |> updPolicer i (fun x => { x with staged := some (l, r) })) d
  match d.slice e.slice with
  | some x => if n < x.pLen then go (x.pBase + n) d else d |> countDenied x.fn |> reply r stDenied 0 []
  | none => if n < 262144 then go n d else reply r stBadParam 0 [] d

/-- POLICER_SET (R349). -/
def execPolicerSet (r : Ring) (p : Read) (s : State) : Host.Outcome State Fault Refusal :=
  .next (s.onDev fun _ d => command r 0x0901 p (policerSet r) d)

/-- A refill boundary of policer i: device time reaches the one that staged settings wait for, else the next (R343). -/
def policerRefill (i : Nat) (d : Dev) : Dev :=
  let due := match (d.policer i).staged with
    | some (l, _) => l.getD 7 0
    | none => (d.time / 1024 + 1) * 1024
  d |> timeTo due |> policerSettle i

/-- POLICER_REFILL (R343). -/
def execPolicerRefill (p : Nat) (s : State) : Host.Outcome State Fault Refusal :=
  .next (s.onDev fun _ d => if p < 262144 then policerRefill p d else d)

/-! ### Credit of nodes (R343, R353, R357) -/

/-- Refill interval of a node in ns. -/
def nodeInterval : NodeId → Nat
  | .port _ => 128
  | _ => 1024

/-- Credit of the boundaries up to number n. -/
def Node.credit (step : Nat) (x : Node) (n : Nat) : Node :=
  let k : Int := ((n - x.refilled) * (step / 8) : Nat)
  { x with c := if x.cir = 0 then 0 else min (x.c + k * x.cir) (x.cbs * 1000)
           p := min (x.p + k * x.pir) (x.pbs * 1000), refilled := max n x.refilled }

/-- The settings that NODE_SET writes. -/
def Node.settings (b : List Byte) (x : Node) : Node :=
  let kind := byteAt b 0
  { x with cir := le b 8 4, pir := le b 12 4, cbs := le b 16 4, pbs := le b 20 4, weight := byteAt b 24
           strict := byteAt b 25, overhead := signed 8 (byteAt b 26), spillEn := bit (byteAt b 6) 2
           share := if kind = 1 then le b 28 4 else 0, limit := if kind = 2 then le b 28 4 else x.limit }

/-- Both buckets full; C stays 0 where CIR is 0. -/
def Node.full (x : Node) : Node := { x with c := if x.cir = 0 then 0 else x.cbs * 1000, p := x.pbs * 1000 }

/-- Staged settings at their boundary, number n: the interval that ends there is credited at the new rates (R357). -/
def Node.install (step : Nat) (x : Node) (b : List Byte) (r : Ring) (n : Nat) : Node :=
  let x := { x.credit step (n - 1) with staged := none }
  let fl := byteAt b 6
  if bit fl 1 then { x.credit step n with unbinding := some (some r, n * step) }
  else
    let y := (x.settings b).credit step n
    let y := if bit fl 0 then { y with bound := some (le b 2 2) } else y
    if bit fl 0 || bit fl 3 then y.full else y

/-- A node brought to device time: staged settings whose boundary has come are installed and, but for UNBIND,
answered with the boundary (R357); the parameters are followed by the boundary in 8 bytes. -/
def nodeSettle (n : NodeId) (d : Dev) : Dev :=
  let x := d.node n
  let st := nodeInterval n
  let d := match x.staged with
    | none => d
    | some (b, r) =>
      let due := le b 48 8
      if due ≤ d.time then
        d |> updNode n (fun x => x.install st b r (due / st))
          |> when (!bit (byteAt b 6) 1) (reply r stOk 0 [0, 0, 0, 0, lo32 due, hi32 due])
      else d
  updNode n (fun x => x.credit st (d.time / st)) d

/-- The node that a key names. -/
def keyNode (k : Nat) : NodeId :=
  if k < 256 then .port (fin 172 k)
  else if k < 2 ^ 20 then .dflt (fin 172 (k - 256))
  else if k < 2 ^ 22 then .slice (fin 4096 ((k - 2 ^ 20) / 256)) (fin 256 (k % 256))
  else if k < 2 ^ 24 then .dfltSvc (fin 172 ((k - 2 ^ 22) / 8)) (fin 8 (k % 8))
  else .sliceSvc (fin 4096 ((k - 2 ^ 24) / 2048)) (fin 256 (k / 8 % 256)) (fin 8 (k % 8))

/-- Staged settings whose boundary has come take effect before a packet meets the nodes (R357). -/
def nodesDue (d : Dev) : Dev :=
  each ((d.nodes.filter fun e => e.2.staged.any fun x => le x.1 48 8 ≤ d.time).map fun e => keyNode e.1) nodeSettle d

/-- A refill boundary of node n (R343, R357). -/
def nodeRefill (n : NodeId) (d : Dev) : Dev :=
  let due := match (d.node n).staged with
    | some (b, _) => le b 48 8
    | none => (d.time / (nodeInterval n) + 1) * (nodeInterval n)
  d |> timeTo due |> nodeSettle n

/-- NODE_REFILL (R343, R357). -/
def execNodeRefill (n : NodeId) (s : State) : Host.Outcome State Fault Refusal :=
  .next (s.onDev fun _ d => nodeRefill n d)

/-! ### The tree (R350-R352) -/

/-- The slice node of slice s that is bound to a port: slice-local number. -/
def Dev.boundNode (d : Dev) (s port : Nat) : Option Nat := match d.slice s with
  | none => none
  | some x => (List.range x.subNodes).find? fun n => (d.node (.slice (fin 4096 s) (fin 256 n))).bound == some port

/-- Slice nodes bound to ports of a pipe die. -/
def Dev.dieNodes (d : Dev) (die : Nat) : Nat :=
  (d.nodes.filter fun e => 2 ^ 20 ≤ e.1 && e.1 < 2 ^ 22 && (match e.2.bound with | some p => dieOfPort p == die | none => false)).length

/-- The service node of a subscriber node, and the subscriber of a service node. -/
def svcNode (n : NodeId) (c : Nat) : NodeId := match n with
  | .dflt p => .dfltSvc p (fin 8 c)
  | .slice s m => .sliceSvc s m (fin 8 c)
  | n => n
def subNode : NodeId → NodeId
  | .dfltSvc p _ => .dflt p
  | .sliceSvc s m _ => .slice s m
  | n => n
def clsNode : NodeId → Nat
  | .dfltSvc _ c => c
  | .sliceSvc _ _ c => c
  | _ => 0

/-- Subscriber nodes of a port: its default, then the slice nodes bound there. -/
def Dev.subsOf (d : Dev) (port : Nat) : List NodeId :=
  .dflt (fin 172 port) ::
    (d.nodes.filter fun e => 2 ^ 20 ≤ e.1 && e.1 < 2 ^ 22 && e.2.bound == some port).map fun e =>
      NodeId.slice (fin 4096 ((e.1 - 2 ^ 20) / 256)) (fin 256 (e.1 % 256))

/-- Whether a packet waits in a node, or in a service node below it. -/
def nodeHolds (n : NodeId) (p : Packet) : Bool := match p.loc with
  | .node m port _ => match n with
    | .port q => port == q.val
    | n => m == n || subNode m == n
  | _ => false

/-- Packets waiting in or below a node. -/
def Dev.waiting (d : Dev) (n : NodeId) : List Packet := d.pkts.filter (nodeHolds n)

def isSpilled (p : Packet) : Bool := match p.loc with | .node _ _ s => s | _ => false

/-- Bytes of whole cells that a node holds on die. -/
def Dev.onDie (d : Dev) (n : NodeId) : Nat :=
  (d.waiting n).foldl (fun a p => if isSpilled p then a else a + cells p.bytes.length) 0
def Dev.inSpill (d : Dev) (n : NodeId) : Nat :=
  (d.waiting n).foldl (fun a p => if isSpilled p then a + p.bytes.length else a) 0

/-! ### NODE_SET (R356, R357) -/

/-- The node that KIND, CLASS, PORT and NODE name. -/
def nodeNamed (s : Nat) (b : List Byte) : NodeId :=
  let p := le b 2 2
  if byteAt b 0 = 0 then .port (fin 172 p)
  else
    let sub : NodeId := if le b 4 2 = 0xFFFF then .dflt (fin 172 p) else .slice (fin 4096 s) (fin 256 (le b 4 2))
    if byteAt b 0 = 1 then sub else svcNode sub (byteAt b 1)

/-- Faults of the naming fields, which NODE_SET and NODE_QUERY share. -/
def nameFaults (e : Exec) (b : List Byte) : List (Option (Nat × Nat)) :=
  let k := byteAt b 0
  [bad (k > 2) 0, bad (if k = 2 then byteAt b 1 > 7 else byteAt b 1 != 0) 1, bad (le b 2 2 > 171) 2,
   bad (if k = 0 then le b 4 2 != 0 else (le b 4 2 == 0xFFFF) != (e.slice == 0xFFFF)) 4]

/-- Faults of the fields of NODE_SET; BIND and UNBIND belong to subscriber nodes, and UNBIND ignores the settings. -/
def nodeFaults (b : List Byte) : List (Option (Nat × Nat)) :=
  let k := byteAt b 0
  let fl := byteAt b 6
  let p := le b 2 2
  let set := fun (x : Option (Nat × Nat)) => if bit fl 1 then none else x
  let oh := signed 8 (byteAt b 26)
  [bad (fl / 16 != 0 || (fl % 4 != 0 && k != 1) || (bit fl 2 && !(k == 1 && 128 ≤ p && p < 160))) 6, bad (byteAt b 7 != 0) 7,
   set (bad (le b 8 4 > 800000 || (k == 0 && le b 8 4 != 0)) 8),
   set (bad (if le b 12 4 = 0 then le b 8 4 != 0 else le b 12 4 < le b 8 4 || le b 12 4 > 800000) 12),
   set (bad (le b 16 4 > 268435456 || (k == 0 && le b 16 4 != 0)) 16),
   set (bad (le b 20 4 > 268435456 || (le b 12 4 != 0 && le b 20 4 < 64)) 20), set (bad (byteAt b 24 == 0) 24),
   set (bad (k != 1 && byteAt b 25 != 0) 25), set (bad (if k = 0 then oh < -32 || oh > 64 else byteAt b 26 != 0) 26),
   bad (byteAt b 27 != 0) 27, set (bad (k == 0 && le b 28 4 != 0) 28), bad (!zeroAt b 32 16) 32]

/-- A port that a standing pair leaves without a function. -/
def Dev.pairedPort (d : Dev) (p : Nat) : Bool := 128 ≤ p && p < 160 && p % 2 == 1 && d.paired (p - 129)

/-- Where a slice node is bound, seen through its service nodes. -/
def Dev.boundAt (d : Dev) (s : Nat) (b : List Byte) : Option Nat :=
  (d.node (.slice (fin 4096 s) (fin 256 (le b 4 2)))).bound

/-- The answers of R356 to a slice node, behind the field faults. -/
def sliceNodeFault (s : Nat) (x : Slice) (b : List Byte) (d : Dev) : Option (Nat × Nat × List Nat) :=
  let bind := bit (byteAt b 6) 0
  let p := le b 2 2
  let n := le b 4 2
  let at' := d.boundAt s b
  if n ≥ x.subNodes then some (stDenied, 0, [])
  else if at'.isNone && !bind then some (stNotFound, 4, [])
  else if at'.isSome && at' != some p then some (stBadParam, 2, [])
  else if bind then
    match d.boundNode s p with
    | some m => if m != n then some (stExists, 0, [m]) else none
    | none => if d.dieNodes (dieOfPort p) ≥ 8192 then some (stNoResource, 3, []) else none
  else none

/-- What answers a node command that names its node, or nothing. -/
def nodeAnswer (e : Exec) (b : List Byte) (d : Dev) : Option (Nat × Nat × List Nat) :=
  if d.pairedPort (le b 2 2) then some (stBadParam, 2, [])
  else if byteAt b 0 = 0 || le b 4 2 = 0xFFFF then none
  else match d.slice e.slice with
    | none => none
    | some x => sliceNodeFault e.slice x b d

def replyNode (r : Ring) (e : Exec) (x : Nat × Nat × List Nat) (d : Dev) : Dev :=
  d |> when (x.1 == stDenied) (fun d => match d.slice e.slice with | some y => countDenied y.fn d | none => d)
    |> reply r x.1 x.2.1 x.2.2

def nodeSet (r : Ring) (e : Exec) (b : List Byte) (d : Dev) : Dev :=
  checks r (nameFaults e b ++ nodeFaults b) (fun d =>
    match nodeAnswer e b d with
    | some x => replyNode r e x d
    | none =>
      let fl := byteAt b 6
      if (fl % 4 != 0 && le b 4 2 == 0xFFFF) || fl % 4 == 3 then reply r stBadParam 6 [] d
      else
        let n := nodeNamed e.slice b
        let t := drawStaging d
        let due := boundary (nodeInterval n) (d.time + t.1)
        t.2 |> begin' r |> updNode n (fun x => { x with staged := some (padTo 48 b ++ leBytes 8 due, r) })) d

/-- NODE_SET (R356). -/
def execNodeSet (r : Ring) (p : Read) (s : State) : Host.Outcome State Fault Refusal :=
  .next (s.onDev fun _ d => command r 0x0902 p (nodeSet r) d)

/-- A node and its service nodes at their settings after Device Reset (R358). -/
def forgetNode (n : NodeId) (d : Dev) : Dev :=
  d |> updNode n (fun _ => {}) |> each (List.range 8) fun c => updNode (svcNode n c) fun _ => {}

/-- An unbinding node is empty: it returns to the slice, and the reply carries its boundary (R357). -/
def unbindDrained (n : NodeId) (d : Dev) : Dev := match (d.node n).unbinding with
  | none => d
  | some (r, due) =>
    if (d.waiting n).isEmpty then
      d |> forgetNode n |> (match r with | some r => reply r stOk 0 [0, 0, 0, 0, lo32 due, hi32 due] | none => id)
    else d

/-- NODE_UNBIND_DRAINED (R357). -/
def execNodeUnbindDrained (sl : Fin 4096) (n : Fin 256) (s : State) : Host.Outcome State Fault Refusal :=
  .next (s.onDev fun _ d => unbindDrained (.slice sl n) d)

/-! ### NODE_QUERY (R358) -/

/-- State of a node (R353): 0 COMMITTED, 1 EXCESS, 2 BLOCKED. -/
def Node.status (x : Node) : Nat := if x.pir != 0 && x.p ≤ 0 then 2 else if x.c > 0 then 0 else 1

/-- Credit in whole bytes, toward minus infinity, as 32 bits. -/
def creditWord (v : Int) : Nat := (v / 1000 % 2 ^ 32).toNat

def nodeWords (n : NodeId) (d : Dev) : List Nat :=
  let x := d.node n
  let bound := match subNode n with
    | .slice s m => (d.node (.slice s m)).bound.isSome
    | _ => false
  [creditWord x.c, if x.pir = 0 then 0x7FFFFFFF else creditWord x.p, lo32 (d.onDie n), lo32 (d.inSpill n / 1024),
   x.status + 256 * b2n bound + 65536 * min x.drops 65535, (d.waiting n).length]

def nodeQuery (r : Ring) (e : Exec) (b : List Byte) (d : Dev) : Dev :=
  checks r (nameFaults e b ++ [bad (!zeroAt b 6 2) 6]) (fun d =>
    match nodeAnswer e (padTo 48 (b.take 6)) d with
    | some x => replyNode r e x d
    | none =>
      let n := nodeNamed e.slice b
      let d := nodeSettle n d
      d |> updNode n (fun x => { x with drops := 0 }) |> reply r stOk 0 (nodeWords n d)) d

/-- NODE_QUERY (R358). -/
def execNodeQuery (r : Ring) (p : Read) (s : State) : Host.Outcome State Fault Refusal :=
  .next (s.onDev fun _ d => command r 0x0903 p (nodeQuery r) d)

end Sys2Proof.Machine
end

