-- ==== Sys2Proof/Machine/Traffic.lean ====
section
/-!
DEFINITION. The traffic manager (15_traffic_manager.md, R352-R361): admission, spill, aging, and the egress decision
with egress processing (R246) and the device exception ring (R252).
-/
namespace Sys2Proof.Machine

/-! ### Admission (R352, R360, R361) -/

/-- The slice that a packet is destined to. -/
def Packet.destSlice (p : Packet) : Option Nat := match p.dest with
  | .slice s => some s
  | .excSlice s _ => some s
  | _ => none

/-- The service node of a packet at a port (R352). -/
def Dev.nodeOf (d : Dev) (p : Packet) (port : Nat) : NodeId :=
  let s := if 128 ≤ port && port < 160 then p.destSlice else if p.slice < 4096 then some p.slice else none
  let sub := match s with
    | none => NodeId.dflt (fin 172 port)
    | some s => match d.boundNode s port with
      | none => NodeId.dflt (fin 172 port)
      | some n =>
        let m := NodeId.slice (fin 4096 s) (fin 256 n)
        if (d.node m).unbinding.isSome then NodeId.dflt (fin 172 port) else m
  svcNode sub p.cls

/-- A use of context c beyond its die's misses in flight waits in the packet buffer (R295). -/
def Dev.ctxBuffered (d : Dev) (c : Nat) : Bool := !d.ctxCached c && !(mget [] d.ctxMiss (c % 4)).contains c

/-- Whether a packet lies in the packet buffer of a pipe die: in a service node or a transfer queue, or waiting for a slot or
a context. -/
def Dev.buffered (d : Dev) (die : Nat) (p : Packet) : Bool := match p.loc with
  | .node _ port sp => !sp && dieOfPort port == die
  | .transfer a _ _ => a == die
  | .cross a _ => a == die
  | .steer a _ => a == die
  | .recirc pl => pl / 2 == die
  | .ctxWait c => c % 4 == die && d.ctxBuffered c
  | _ => false

/-- Whether two packets are copies of one multicast packet on one die: they share one stored body (R352). -/
def sharesBody (p x : Packet) : Bool := p.mcast && x.mcast && p.ord == x.ord

/-- Cells of a pipe die's packet buffer in use, a body shared by several copies counted once. -/
def Dev.bufUsed (d : Dev) (die : Nat) : Nat :=
  ((d.pkts.filter (d.buffered die)).foldl (fun (a : Nat × List Packet) p =>
    if a.2.any (sharesBody p) then a else (a.1 + cells p.bytes.length, p :: a.2)) (0, [])).1

/-- Cells that a packet takes from its die's buffer when it is stored: none where a copy of it lies there. -/
def Dev.newCells (d : Dev) (die : Nat) (p : Packet) : Nat :=
  if d.pkts.any fun x => x.id != p.id && d.buffered die x && sharesBody p x then 0 else cells p.bytes.length

/-- Bytes in the spill region of a die's stack. -/
def Dev.spillUsed (d : Dev) (die : Nat) : Nat :=
  d.pkts.foldl (fun n p => match p.loc with
    | .node _ port true => if dieOfPort port = die then n + p.bytes.length else n
    | _ => n) 0

/-- Bytes of one RX queue in spill. -/
def Dev.queueSpilled (d : Dev) (k : Nat) : Nat :=
  d.pkts.foldl (fun n p => if isSpilled p && p.spillQ == some k then n + p.bytes.length else n) 0

/-- The RX queue whose spill a packet may use, as its key: with the packet it holds no more than its limit (R136, R361). -/
def Dev.spillQueue (d : Dev) (p : Packet) : Option Nat := match p.receiver with
  | none => none
  | some (o, q) => match (rxQueue o q p d).1 with
    | none => none
    | some q => match d.queue o q with
      | none => none
      | some x =>
        let k := qKey o q
        if x.kind == .rx && x.spill && (x.spillLimit == 0 || d.queueSpilled k + p.bytes.length ≤ x.spillLimit * 2 ^ 20) then some k else none

/-- The first bound that refuses a packet, as its counter: SHARE, LIMIT or BUFFER (R360). -/
def Dev.refusedBy (d : Dev) (n : NodeId) (port : Nat) (p : Packet) : Option Nat :=
  let u := d.node (subNode n)
  let s := d.node n
  let l := cells p.bytes.length
  if u.share != 0 && d.onDie (subNode n) + l > u.share * 1024 then some 0x10
  else if s.limit != 0 && d.onDie n + l > s.limit * 1024 then some 0x14
  else if d.bufUsed (dieOfPort port) + d.newCells (dieOfPort port) p + 2 ^ 21 > 2 ^ 26 then some 0x18
  else none

/-- A packet for a slice that the traffic manager drops: RX_DROP_PKTS, or SLICE_CLOSED_DROP once CLOSING (R54). -/
def dropForSlice (p : Packet) (port : Nat) (d : Dev) : Dev := match p.destSlice with
  | none => d
  | some s => match d.slice s with
    | none => d
    | some x => if x.state = .closing then count (aPl (if port < 160 && 128 ≤ port then plOfLink (port - 128) else p.pl) + 0x2508) d
      else meter s 13 1 d

/-- The packet `x` waits where `p` enters, and is a later packet of `p`'s flow. -/
def laterOfFlow (p : Packet) (n : NodeId) (port : Nat) (x : Packet) : Bool :=
  (match x.loc with | .node m q _ => m == n && q == port | _ => false) &&
    x.hashed && p.hashed && x.ingress == p.ingress && x.hash == p.hash && p.ord < x.ord

/-- The packet enters a FIFO behind what waits there, but ahead of the first later packet of its own flow: behind it
the two would hold each other (R26, R355; DEDUCED, log 46). -/
def enterNodeFifo (p : Packet) (n : NodeId) (port : Nat) (spilled : Bool) (d : Dev) : Dev :=
  let l := d.pkts.filter fun x => x.id != p.id
  let ahead := l.takeWhile fun x => !laterOfFlow p n port x
  { d with pkts := ahead ++ [{ p with loc := .node n port spilled }] ++ l.drop ahead.length }

/-- Admit a packet to its service node: on die, spilled, or dropped. -/
def enterBuffer (p : Packet) (port : Nat) (d : Dev) : Dev :=
  let die := dieOfPort port
  let n := d.nodeOf p port
  match d.refusedBy n port p with
  | none => enterNodeFifo { p with spillQ := none } n port false d
  | some c =>
    let en := (d.node (subNode n)).spillEn
    match (if en && d.spillUsed die + p.bytes.length ≤ 14336 * 2 ^ 20 then d.spillQueue p else none) with
    | some k =>
      d |> enterNodeFifo { p with spillQ := some k } n port true |> count (aTm die + 0x24)
        |> meterOf p.destSlice 10 p.bytes.length
    | none =>
      let drop1 := fun (x : Node) => { x with drops := x.drops + 1 }
      d |> count (aTm die + c) |> when en (count (aTm die + 0x28)) |> dropForSlice p port
        |> updNode n drop1 |> updNode (subNode n) drop1 |> updNode (.port (fin 172 port)) drop1 |> endPacket p

/-- Packets leave a transfer queue in order. -/
def Dev.firstOut (d : Dev) (p : Packet) : Bool := match inTransfer p.loc with
  | some t => !(d.pkts.takeWhile (·.id != p.id)).any fun x => inTransfer x.loc == some t
  | none => true

/-- A packet on its way in enters the traffic manager of its port; a multicast packet that has crossed to its die is
replicated there. -/
def tmAdmit (i : Nat) (d : Dev) : Dev := match d.packet i with
  | none => d
  | some p =>
    if !d.firstOut p then d
    else match p.loc, p.dest with
      | .toTm port, _ => d |> nodesDue |> enterBuffer p port
      | .transfer _ _ port, _ => d |> nodesDue |> enterBuffer p port
      | .cross _ b, .group g => d |> replicate (d.rulesOf p.gen) g b p |> endPacket p
      | _, _ => d

/-- TM_ADMIT (R352, R360). -/
def execTmAdmit (pkt : Nat) (s : State) : Host.Outcome State Fault Refusal :=
  .next (s.onDev fun _ d => tmAdmit pkt d)

/-- A spilled packet is read back, with its place kept, where the buffer has room (R361). -/
def spillReadback (i : Nat) (d : Dev) : Dev := match d.packet i with
  | none => d
  | some p => match p.loc with
    | .node n port true =>
      if d.bufUsed (dieOfPort port) + d.newCells (dieOfPort port) p ≤ 2 ^ 26 then
        updPacket i (fun p => { p with loc := .node n port false, spillQ := none }) d
      else d
    | _ => d

/-- SPILL_READBACK (R361). -/
def execSpillReadback (pkt : Nat) (s : State) : Host.Outcome State Fault Refusal :=
  .next (s.onDev fun _ d => spillReadback pkt d)

/-! ### Aging (R359) -/

/-- The counter of a packet that ages out where it waits (R359, R295), and its port. -/
def Dev.ageCounter (d : Dev) (p : Packet) : Option (Nat × Nat) := match p.loc with
  | .node _ port _ => some (aTm (dieOfPort port) + 0x1C, port)
  | .transfer a _ port => some (aTm a + 0x20, port)
  | .cross a _ => some (aTm a + 0x20, 172)
  | .steer a pl => some (aTm a + (if a = pl / 2 then 0x1C else 0x20), 172)
  | .recirc pl => some (aTm (pl / 2) + 0x1C, 172)
  | .ctxWait c => if d.ctxBuffered c then some (aTm (c % 4) + 0x1C, 172) else none
  | _ => none

/-- A waiting packet's age reaches the limit: device time comes to that moment, and it is dropped. -/
def bufferAgeDrop (i : Nat) (d : Dev) : Dev := match d.packet i with
  | none => d
  | some p => match d.ageCounter p with
    | none => d
    | some (c, port) => d |> timeTo (p.time + d.ageLimit * 1000) |> count c |> dropForSlice p port |> endPacket p

/-- BUFFER_AGE_DROP (R359). -/
def execBufferAgeDrop (pkt : Nat) (s : State) : Host.Outcome State Fault Refusal :=
  .next (s.onDev fun _ d => bufferAgeDrop pkt d)

/-- The largest limit in force is remembered for CLOSING slices and for the draining generation (R54, R257). -/
def tmAgeLimitWrite (v : Nat) (d : Dev) : Dev :=
  let n := min 100000 (max 50 (bits v 19 0))
  let d := setFld 0xC000000 19 0 n d
  { d with gens := { d.gens with ageMax := max d.gens.ageMax n }
           slices := mmap d.slices fun _ x => if x.frozen.isSome then { x with ageMax := max x.ageMax n } else x }

/-- TM_AGE_LIMIT_WRITE (R359, R362). -/
def execTmAgeLimitWrite (q : Requester) (v : Word) (s : State) : Host.Outcome State Fault Refusal :=
  .next (s.atRegAll q 0xC000000 fun _ d => tmAgeLimitWrite v.toNat d)

/-! ### The device exception ring (R252) -/

/-- The 2,048 bytes of a record, phase 0. -/
def excRecord (p : Packet) : List Byte :=
  let n := p.bytes.length
  let cap := min n 1984
  padTo 2048 (rxMetadata p 0 ++ leBytes 2 n ++ leBytes 2 cap ++ leBytes 2 p.gen ++ leBytes 1 p.pl ++ leBytes 1 p.pass ++
    leBytes 24 0 ++ p.bytes.take cap)

/-- Write a packet into the ring, or drop it. -/
def excPut (p : Packet) (d : Dev) : Dev :=
  let x := d.exc
  if !x.enable || x.full || !d.mgrMay then count 0xD803024 d
  else { ringWrites mgrWrite x.base x.n x.wpos 2048 (excRecord p) 63 d with exc := x.step }

/-! ### Egress processing (R246, R288) -/

/-- Copy list, then egress list. -/
def egressLists (rs : RuleSet) (port : Nat) (p : Packet) (d : Dev) : Turn :=
  let p := if port < 160 then { p with pl := plOfPort port } else p
  let lead := if p.mcast then listTodo rs p.copyList else []
  runTodo { rs := rs } (lead ++ listTodo rs (mget 0xFFFF rs.egress port)) p d

/-- A multicast copy is judged under its own destination's owner before its lists run (R192). -/
def judgeCopy (rs : RuleSet) (p : Packet) (d : Dev) : Verdict × Dev :=
  if p.mcast then judgeFlags rs.pol p.flagOwner p d else (.forward, d)

/-- The shaping length of a packet at a port (R353): as it leaves egress processing, found without its effects. -/
def Dev.shaped (d : Dev) (port : Nat) (p : Packet) : Nat :=
  let q := (egressLists (d.rulesOf p.gen) port p d).1
  (max 1 ((q.bytes.length : Int) + (d.node (.port (fin 172 port))).overhead)).toNat

/-- The packet leaves the pipe die at a port (R252, R371, R377). -/
def release (port : Nat) (p : Packet) (d : Dev) : Dev :=
  if port < 128 then
    if !d.lpOn (port / 4) || !d.linkUp port then d |> lpCount port 67 |> endPacket p
    else moveTo p (.mac port (d.macQueue port p)) d
  else if port < 160 then moveTo p (.hostOut (port - 128)) d
  else if port < 168 then moveTo p (.recirc (port - 160)) d
  else d |> excPut p |> endPacket p

/-- Whether a packet is judged oversize at the end of egress processing: a multicast copy that was lengthened, `before` its
lists or by them, or a packet that an ENCAP of its lists has lengthened (R288). -/
def egressOversize (d : Dev) (before : Bool) (p : Packet) : Bool :=
  (p.mcast || p.lengthened) && d.oversize { p with lengthened := p.lengthened || before }

/-- Process one packet that the traffic manager releases. A recirculating packet and a record for the device ring leave
as they are but for an egress list of their port. -/
def egress (port : Nat) (p : Packet) (d : Dev) : Dev :=
  let rs := d.rulesOf p.gen
  let j := judgeCopy rs p d
  match j.1 with
  | .drop => endPacket p j.2
  | .exc r => deliverException p.flagOwner r { p with mcast := false } j.2
  | .forward =>
    let e := egressLists rs port { p with lengthened := false } j.2
    let q := { e.1 with mcast := false, copyList := 0xFFFF, lengthened := p.lengthened || e.1.lengthened }
    match e.2.1 with
    | .go =>
      if egressOversize d p.lengthened e.1 then e.2.2 |> plCount q 0x2300 |> endPacket q else release port q e.2.2
    | .exc r => deliverException q.excOwner r q e.2.2
    | _ => endPacket p e.2.2

/-! ### Which packets may leave (R26, R355) -/

/-- Whether a packet in flight may still reach egress port `port`: it goes there, or into a further pass, or has not ended
its pass. -/
def Dev.towards (d : Dev) (port : Nat) (p : Packet) : Bool :=
  let leads := fun q => q == port || (160 ≤ q && q < 168)
  match p.loc with
  | .recirc _ => true
  | .ctxWait _ => true
  | .tableWait _ => true
  | .steer _ _ => true
  | .toTm q => leads q
  | .transfer _ _ q => leads q
  | .cross _ _ => match p.dest with
    | .group g => ((d.rulesOf p.gen).members g).any fun m => d.memberPort m == some port
    | _ => false
  | .node _ q _ => leads q
  | .mac q _ => q == port
  | _ => false

/-- An earlier packet of the flow is in flight toward the port (R26). -/
def Dev.behindFlow (d : Dev) (port : Nat) (p : Packet) : Bool :=
  d.pkts.any fun x => x.hashed && x.ingress == p.ingress && x.hash == p.hash && x.ord < p.ord && d.towards port x

/-- Whether the port's die takes the packet now: a host link not while in L1, unless its function is parked and the
packet is only judged (R68, R102). -/
def Dev.portTakes (d : Dev) (port : Nat) (p : Packet) (c : Nat) : Bool :=
  if port < 128 then
    !d.paused port c && (!d.linkUp port || !(d.pkts.any fun x => x.loc == .mac port (d.macQueue port p)))
  else if port < 160 then d.fld (aHl (port - 128) + 4) 23 20 != 6 || (d.fn (port - 128)).parked
  else true

/-- The packet that a service node may send: the first of its FIFO, unless something holds it back. -/
def Dev.headOf (d : Dev) (n : NodeId) (port : Nat) : Option Packet :=
  match d.pkts.find? fun p => (match p.loc with | .node m q _ => m == n && q == port | _ => false) with
  | none => none
  | some p =>
    if isSpilled p || d.behindFlow port p || !d.portTakes port p (clsNode n) || (d.node n).status = 2 then none else some p

/-! ### The decision (R353, R354) -/

/-- A child that may send: node, weight key, the packet and its shaping length. -/
structure Offer where
  node : NodeId
  svc  : NodeId
  pkt  : Packet
  len  : Nat
deriving DecidableEq, Repr

/-- Deficit round robin among offers in ascending key: the child whose turn it is sends while its deficit covers the
packet, else the turn passes and the next child gains WEIGHT × 256 (R354). -/
def drr (parent : NodeId) (l : List Offer) : Nat → Dev → Option Offer × Dev
  | 0, d => (none, d)
  | k + 1, d =>
    let t := (d.node parent).turn
    match l.find? fun o => nodeKey o.node == t && o.len ≤ (d.node o.node).deficit with
    | some o => (some o, updNode o.node (fun x => { x with deficit := x.deficit - o.len }) d)
    | none =>
      match (l.find? fun o => nodeKey o.node > t) <|> l.head? with
      | none => (none, d)
      | some o =>
        d |> updNode parent (fun x => { x with turn := nodeKey o.node })
          |> updNode o.node (fun x => { x with deficit := x.deficit + 256 * x.weight })
          |> drr parent l k

/-- Visits that cover the longest packet from any deficit. -/
def drrFuel (l : List Offer) : Nat := 80 * l.length + 1

/-- One round among offers: strict classes first, highest first, at a subscriber node (R354). -/
def roundPick (parent : NodeId) (strict : Nat) (l : List Offer) (d : Dev) : Option Offer × Dev :=
  match ((List.range 8).reverse).findSome? fun c => if bit strict c then l.find? (fun o => clsNode o.node == c) else none with
  | some o => (some o, d)
  | none => drr parent l (drrFuel l) d

/-- Committed round, then excess round. -/
def twoRounds (parent : NodeId) (strict : Nat) (l : List Offer) (d : Dev) : Option Offer × Dev :=
  let c := l.filter fun o => (d.node o.node).status == 0
  let e := l.filter fun o => (d.node o.node).status == 1
  if c.isEmpty then roundPick parent strict e d else roundPick parent strict c d

/-- A child with nothing it may send loses its deficit. -/
def loseDeficit (children : List NodeId) (l : List Offer) (d : Dev) : Dev :=
  each children (fun n => if l.any (·.node == n) then id else updNode n fun x => { x with deficit := 0 }) d

/-- What a subscriber node may send, as an offer of the subscriber. -/
def subOffer (port : Nat) (n : NodeId) (d : Dev) : Option Offer × Dev :=
  let kids := (List.range 8).map (svcNode n)
  let l := kids.filterMap fun m => (d.headOf m port).map fun p => (⟨m, m, p, d.shaped port p⟩ : Offer)
  let d := loseDeficit kids l d
  if (d.node n).status = 2 then (none, d)
  else
    let r := twoRounds n (d.node n).strict l d
    (r.1.map fun o => { o with node := n }, r.2)

/-- Sending deducts the shaping length from the node's P, and from C where it was COMMITTED (R353). -/
def deduct (len : Nat) (n : NodeId) (d : Dev) : Dev :=
  updNode n (fun x =>
    let c := if x.status = 0 then x.c - len * 1000 else x.c
    { x with c := c, p := if x.pir = 0 then x.p else x.p - len * 1000 }) d

/-- A slice that takes no traffic: packets dequeued for it are dropped (R50, R355). -/
def Dev.closedTo (d : Dev) (p : Packet) : Bool := match p.destSlice with
  | none => false
  | some s => match d.slice s with
    | some x => x.state != .active
    | none => true

/-- The port's offers, each chosen by its subscriber; only the winner's subscriber keeps what its own rounds changed. -/
def portOffers (port : Nat) (d : Dev) : List Offer :=
  (d.subsOf port).filterMap fun n => (subOffer port n d).1

/-- One decision of a port. -/
def tmDequeue (port : Nat) (d : Dev) : Dev :=
  let root := NodeId.port (fin 172 port)
  let d := d |> nodesDue |> nodeSettle root
  let subs := d.subsOf port
  let d := each subs (fun n d => each ((List.range 8).map (svcNode n)) nodeSettle (nodeSettle n d)) d
  if (d.node root).status = 2 then d
  else
    let l := portOffers port d
    let d := loseDeficit subs l d
    let r := twoRounds root 0 l d
    match r.1 with
    | none => r.2
    | some o =>
      let d := (subOffer port o.node r.2).2
      if d.closedTo o.pkt then d |> dropForSlice o.pkt port |> endPacket o.pkt
      else d |> deduct o.len root |> deduct o.len o.node |> deduct o.len o.svc |> egress port o.pkt

/-- TM_DEQUEUE (R354, R246). -/
def execTmDequeue (p : Fin 172) (s : State) : Host.Outcome State Fault Refusal :=
  .next (s.onDev fun _ d => tmDequeue p d)

end Sys2Proof.Machine
end

