-- ==== Sys2Proof/Machine/HostOps.lean ====
section
/-!
DEFINITION. Shared operations of host links and functions (chapters 3 and 4): connector events, the link going down,
Host Link Reset and FLR, parking and wake, surprise removal.
-/
namespace Sys2Proof.Machine

/-! ### The link's registers -/

def aLinkStat (n : Nat) : Nat := aHl n + 4
def aConn (n : Nat) : Nat := aHl n + 0x10
def aConnCtrl (n : Nat) : Nat := aHl n + 0x14

/-- The source that a connector's enabled bits drive (R395). -/
def connSync (n : Nat) (d : Dev) : Dev := sourceLevel (64 + n) (d.fld (aConn n) 15 9 &&& d.fld (aConnCtrl n) 15 9 != 0) d

/-- CONN_STATUS bit i (9-15) is set: CONN_EVENT when it becomes 1 with its enable set (R69). -/
def connBit (n i : Nat) (d : Dev) : Dev :=
  if d.flag (aConn n) i then d
  else
    let d := setFlag (aConn n) i true d
    d |> when (d.flag (aConnCtrl n) i) (raise 0x02 n (d.fld (aConn n) 15 9) 0) |> connSync n

/-- The link's STATE. -/
def Dev.hlState (d : Dev) (n : Nat) : Nat := d.fld (aLinkStat n) 23 20
def setHlState (n st : Nat) (d : Dev) : Dev := setFld (aLinkStat n) 23 20 st d

/-- Counter of a link's block. -/
def hlCount (n off : Nat) (d : Dev) : Dev := count (aHl n + off) d

/-- The link goes down into a state: no speed, width or flit mode, DL_UP 0 with LINK_CHG. It trains again only through
Detect, so that failed speeds are tried again (R61). -/
def linkDown (n st : Nat) (d : Dev) : Dev :=
  let was := d.dlUp n
  d |> setFld (aLinkStat n) 23 11 0 |> setFlag (aLinkStat n) 8 false |> setHlState n st
    |> updLink n (fun x => { x with widenAt := none, excluded := [], eqFails := [] })
    |> when was (connBit n 9)

/-- What training needs: PERST# deasserted, PWR_ON and PRSNT (R72), on a pair both connectors (R65), the link neither
disabled nor held, its reference clock (R62, R473), and the adapter out of reset. -/
def Dev.mayTrain (d : Dev) (n : Nat) : Bool :=
  let live := fun m => d.flag (aConn m) 0 && d.flag (aConn m) 2
  !(d.link n).perst && live n && (!d.paired n || live (n + 1)) && !d.flag (aHl n) 8 && !d.flag (aLinkStat n) 7 && d.hlOn n &&
  d.flag 0xF800500 (1 + n / 16) && d.power.holds.isEmpty

/-- The link block is the second of a standing pair (R65). -/
def Dev.secondOf (d : Dev) (n : Nat) : Bool := n % 2 == 1 && d.paired (n - 1)

/-! ### Function-wide teardown -/

/-- A ring reset (R157): ENABLE and the bases are cleared, posted commands and replies discarded; the other fields keep their
values (R5). -/
def CmdRing.afterReset (x : CmdRing) : CmdRing :=
  { x with base := 0, rrBase := 0, enable := false, head := x.tail, exec := none, held := [], need := 1, waits := none }

/-- Forget what would still answer a command of a ring that is reset. -/
def forgetRing (r : Ring) (d : Dev) : Dev :=
  let no := fun (x : Option Ring) => if x = some r then none else x
  let keep := fun (l : UpdDone) => match l with
    | .reply q _ _ _ => q != r
    | .fence q => q != r
    | .regPath _ _ _ _ _ => true
  let rw := fun (w : Rewrite) => { w with ring := no w.ring }
  let en := fun (e : Ending) => { e with stop := no e.stop, destroy := no e.destroy }
  { d with
    rings := mupd {} d.rings (ringKey r) CmdRing.afterReset
    updates := d.updates.map fun u => { u with done := u.done.filter keep }
    slices := mmap d.slices fun _ x => { x with resetWaits := x.resetWaits.filter (· != r), destroyer := no x.destroyer }
    eyelets := mmap d.eyelets fun _ y => { y with rewrite := y.rewrite.map rw }
    queues := mmap d.queues fun _ q => { q with ending := q.ending.map en } }

/-- Whether a slice belongs to function f. -/
def Dev.sliceOfFn (d : Dev) (f s : Nat) : Bool := ((d.slice s).map (·.fn)) == some f

/-- Slices of a function. -/
def Dev.slicesOf (d : Dev) (f : Nat) : List Nat := (d.slices.filter fun e => e.2.fn == f).map (·.1)

/-- Placement tables of slices are no longer used; walks that wait for an entry go on without it (R325). -/
def tablesStop (sel : Nat → Bool) (d : Dev) : Dev :=
  let d := tablesOff sel d
  let w := d.pkts.filterMap fun p => match p.loc with | .tableWait c => some c | _ => none
  each w (fun c d => if ((d.ctxOwner c).map sel).getD false then placementTableReadDone c .denied .denied d else d) d

/-- Requests of a function stop: exporter-side segments and flushing reads end with a status (R339), placement tables
are left (R325). -/
def fnStop (f st : Nat) (d : Dev) : Dev :=
  let tags := (d.fn f).reads.filterMap fun r => match r.purpose with | .flush _ _ => some r.tag | _ => none
  d |> abortFlights (fun e _ => d.sliceOfFn f e.exporter) st
    |> each tags (fun t => flushEnd f t st)
    |> tablesStop (d.sliceOfFn f)

/-- What FLR and Host Link Reset leave of a function's own fields (R99, R104): quotas, weight, the AER sticky bits,
PME_En and PME_Status, and its place in the parking rules. -/
def Fn.afterReset (x : Fn) : Fn :=
  { weight := x.weight, qBase := x.qBase, qLen := x.qLen, nextTag := x.nextTag, uncStatus := x.uncStatus
    uncMask := x.uncMask, uncSev := x.uncSev, corStatus := x.corStatus, corMask := x.corMask
    hdrLog := x.hdrLog, firstErr := x.firstErr
    pmeEn := x.pmeEn, pmeStatus := x.pmeStatus, pmeAt := x.pmeAt, parked := x.parked, woken := x.woken, waking := x.waking }

/-- An owner's state that FLR, Host Link Reset and Slice Reset clear: RSS key and table; its policy stays (R140, R196). -/
def rssClear (o : Owner) (d : Dev) : Dev :=
  updOwner o (fun x => { x with rssFields := 0, rssKey := [], rssTable := [], round := 1, served := [] }) d

/-- R99 step 4 and R72: the state of a function and its slices after the reset. -/
def fnStateReset (f : Nat) (d : Dev) : Dev :=
  let ss := d.slicesOf f
  d |> clearQueues (.function (fin 32 f)) |> each ss (fun s => clearQueues (.slice (fin 4096 s)))
    |> forgetRing (.function (fin 32 f)) |> each ss (fun s => forgetRing (.slice (fin 4096 s)))
    |> sideReset ⟨.function (fin 32 f), false⟩ |> each ss (fun s => sideReset ⟨.slice (fin 4096 s), false⟩)
    |> rssClear (.function (fin 32 f)) |> each ss (fun s => rssClear (.slice (fin 4096 s)))
    |> each ss (fun s => updSlice s fun x => { x with vecBase := 0, vecCount := 0 })
    |> updFn f Fn.afterReset

/-- Host Link Reset of link n: the link goes down into a state, and its function is reset (R72). The second link of a
standing pair holds no function. -/
def hostLinkReset (n st : Nat) (d : Dev) : Dev :=
  if d.secondOf n then linkDown n st d
  else d |> linkDown n st |> updLink n (fun x => { x with resetting := true }) |> fnStop n stAborted |> fnStateReset n

/-! ### Parking and wake (R102, R103, R107) -/

/-- Wake-pattern slot n of a function. -/
def aWp (f n : Nat) : Nat := aHost f (0x3000 + n * 0x20)

/-- Frame bytes that a slot selects. -/
def wpSelected (d : Dev) (f n : Nat) : List Nat :=
  (List.range 128).filter fun i => d.flag (aWp f n + 4 * (i / 32)) (i % 32)

/-- R107. -/
def wpMatches (d : Dev) (f n : Nat) (slice : Option Nat) (b : List Byte) : Bool :=
  let c := aWp f n + 0x14
  let sel := wpSelected d f n
  let mine := match slice with
    | some s => ((d.slice s).map (·.lidx)) == some (d.fld c 25 16)
    | none => false
  d.flag c 0 && (!d.flag c 15 || mine) && !sel.isEmpty && sel.all (· < b.length) &&
    crc32 (sel.map fun i => b.getD i 0) == d.reg (aWp f n + 0x10)

/-- PM_PME leaves now. -/
def sendPme (f : Nat) (d : Dev) : Dev := d |> emit (.pme f) |> updFn f fun x => { x with pmeAt := d.time }

/-- A wake is signalled: by WAKE_N in D3cold, with PM_PME once the link reaches L0, else by PM_PME (R102, R75). The
first part is 1 for PM_PME, 2 for WAKE_N. -/
def wakeSignal (f : Nat) (d : Dev) : Nat × Dev :=
  let cold := d.hlState f == 7 || (d.link f).perst
  let d := updFn f (fun x => { x with pmeStatus := true, waking := true, woken := true }) d
  if cold then (2, d |> updLink f (fun x => { x with wakeSince := some d.time }) |> emit (.wakeN f true))
  else (1, when (d.dlUp f) (sendPme f) d)

/-- A packet for a parked function: dropped, and perhaps a wake (R102). -/
def parkedPacket (f : Nat) (slice : Option Nat) (b : List Byte) (d : Dev) : Dev :=
  if (List.range 16).any fun n => wpMatches d f n slice b then
    let d := count (aFn f 0x30) d
    let x := d.fn f
    if x.woken then d else if x.pmeEn then (wakeSignal f d).2 else count (aFn f 0x34) d
  else d |> count (aFn f 0x2C) |> meterOf slice 13 1

/-- The function is no longer parked (R102). -/
def unpark (f : Nat) (d : Dev) : Dev := updFn f (fun x => { x with parked := false, woken := false, waking := false }) d

/-! ### Held work once requests are allowed again -/

/-- Everything that waited for the function's requests: requests on their way, then replies, completion and HALT entries,
events, MSI-X. -/
def resumeHeld (f : Nat) (d : Dev) : Dev :=
  let os := d.ownersOf f
  let d := advance f d
  let d := each os (fun o d => each (d.cqsOf o) (cqRoom o) d) d
  let d := releaseHeld (.function (fin 32 f)) d
  let d := each (d.slicesOf f) (fun s => releaseHeld (.slice (fin 4096 s))) d
  d |> feqLostFirst f |> msixFlush f

/-! ### Surprise removal (R76) -/

/-- A packet of link f for a slice that is not ACTIVE is dropped (R50, R54): SLICE_CLOSED_DROP for a CLOSING slice, else
its RX_DROP_PKTS; none for a slice that exists no more. -/
def goneDrop (f s : Nat) (p : Packet) (d : Dev) : Dev := match d.slice s with
  | none => endPacket p d
  | some x => d |> when (x.state == .closing) (count (aPl (plOfLink f) + 0x2508)) |> meter s 13 1 |> endPacket p

/-- R76 step 5: a packet buffered toward a removed link. HL_LOST_DROP, or under R50 for a packet of a slice. -/
def lostPacket (f : Nat) (p : Packet) (d : Dev) : Dev := match p.destSlice with
  | some s => goneDrop f s p d
  | none => d |> hlCount f 0x40 |> endPacket p

/-- R76 steps 4 and 5: LOST, slices HOST_LOST (a RESETTING slice is HOST_LOST once its reset ends, R50), eyelet segments
against them end ABORTED, and buffered packets are dropped. -/
def declareLost (n : Nat) (d : Dev) : Dev :=
  let d := { d with slices := mmap d.slices fun _ x =>
    if x.fn != n then x
    else match x.state with
      | .active => { x with state := .hostLost }
      | .resetting => { x with fromLost := true, resumed := false }
      | _ => x }
  let d := updLink n (fun x => { x with downSince := none }) d
  let d := each (d.pkts.filter fun p => p.loc == .hostOut n) (lostPacket n) d
  connBit n 13 d

end Sys2Proof.Machine
end

