-- ==== Sys2Proof/Machine/HostRx.lean ====
section
/-!
DEFINITION. Receive placement (R123-R125): the checks of a packet for an RX queue in their order, the reservation of
posted buffers, the faulty descriptor consumed with its own entry, and the writes of data and completion entry.
-/
namespace Sys2Proof.Machine

/-- What R115 finds wrong with an RX_BUF descriptor: status and detail. -/
def rxBufFault (rxMeta : Bool) (b : List Byte) : Option (Nat × Nat) :=
  if dOp b != 2 then some (stBadOpcode, 0)
  else if !zeroAt b 16 16 then some (stBadParam, 16)
  else if dLen b = 0 || (rxMeta && dLen b < 64) then some (stBadLength, 2)
  else none

/-- The first buffers, of those read, whose lengths reach a need; none where they fall short, where a faulty one stands
before them, or where more than 64 are needed (R124). -/
def rxReserve (rxMeta : Bool) (need : Nat) : Nat → List (List Byte) → Option (List (List Byte))
  | 0, _ => none
  | _, [] => none
  | k + 1, b :: r =>
    if (rxBufFault rxMeta b).isSome then none
    else if need ≤ dLen b then some [b]
    else (rxReserve rxMeta (need - dLen b) k r).map (b :: ·)

/-- The pieces of data that go into buffers: address and bytes. -/
def rxFill : List (List Byte) → List Byte → List (Nat × List Byte)
  | [], _ => []
  | b :: r, data => (dAddr b, data.take (dLen b)) :: rxFill r (data.drop (dLen b))

/-- A packet is dropped, counted in a register of its function, and in RX_DROP_PKTS where the rules say so (R123, R95). -/
def rxDrop (o : Owner) (p : Packet) (off : Nat) (metered : Bool) (d : Dev) : Dev :=
  let d := count (aFn (d.fnOf o) off) d
  let d := match o with
    | .slice s => when metered (meter s 13 1) d
    | .function _ => d
  endPacket p d

/-- The ring has no entry to reserve. -/
def Dev.cqShut (d : Dev) (o : Owner) (c : Nat) : Bool := match d.cq o c with
  | some x => x.full || !x.held.isEmpty
  | none => true

/-- Place a packet into reserved buffers, and complete it (R124, R125). -/
def rxPlace (o : Owner) (q : Nat) (x : Queue) (hash : Nat) (bufs : List (List Byte)) (p : Packet) (d : Dev) : Dev :=
  let n := bufs.length
  let last := (x.fetch + n - 1) % x.n
  let data := (if x.rxMeta then rxMetadata p hash else []) ++ p.bytes
  let i := newData (d.fnOf o) d
  let d := each (rxFill bufs data) (fun w => hostWriteAs (.data i.1) (d.fnOf o) (d.pasidOf o) w.1 w.2 true p.poisoned) i.2
  let d := updQueue o q (fun x => { x with fetch := ringAdd x.n x.fetch n }) d
  let d := complete o x.cq { tag := dTag (bufs.headD []), index := last, queue := q, len := p.bytes.length
                             status := if p.poisoned then stPoisoned else stOk, bufs := n, type := 1, run := x.run, data := some i.1 } d
  let d := match o with
    | .slice s => d |> meter s 2 1 |> meter s 3 p.bytes.length
    | .function _ => d
  endPacket p d

/-- Faulty descriptors at the front of a queue are consumed, each with its own entry, while the ring has room (R124). -/
def rxFaulty (o : Owner) (q : Nat) : List (List Byte) → Dev → List (List Byte) × Dev
  | [], d => ([], d)
  | b :: r, d => match d.queue o q with
    | none => (b :: r, d)
    | some x => match rxBufFault x.rxMeta b with
      | none => (b :: r, d)
      | some (st, det) =>
        if d.cqShut o x.cq then (b :: r, d)
        else
          rxFaulty o q r (d |> updQueue o q (fun x => { x with fetch := ringAdd x.n x.fetch 1 })
            |> complete o x.cq { tag := dTag b, index := x.fetch % x.n, queue := q, len := 0, status := st
                                 bufs := 1, detail := det, type := 1, run := x.run })

/-- The checks on the ring and the buffers, with the descriptors read; a faulty one behind those that the packet took is
consumed at once. -/
def rxBuffers (o : Owner) (q hash : Nat) (descs : List (List Byte)) (p : Packet) (d : Dev) : Dev :=
  let r := rxFaulty o q descs d
  match r.2.queue o q with
  | none => r.2
  | some x =>
    if r.2.cqShut o x.cq then
      r.2 |> updQueue o q (fun x => { x with cqFull := min (x.cqFull + 1) 0xFFFF }) |> rxDrop o p 0x4104 true
    else match rxReserve x.rxMeta (p.bytes.length + (if x.rxMeta then 32 else 0)) 64 r.1 with
      | none => r.2 |> updQueue o q (fun x => { x with noBuf := min (x.noBuf + 1) 0xFFFF }) |> rxDrop o p 0x4100 true
      | some bufs => (rxFaulty o q (r.1.drop bufs.length) (rxPlace o q x hash bufs p r.2)).2

/-- A queue that is not RUNNING takes no packet. -/
def rxHalted (o : Owner) (q : Nat) (p : Packet) (d : Dev) : Dev :=
  d |> updQueue o q (fun x => { x with haltedDrops := min (x.haltedDrops + 1) 0xFFFF }) |> rxDrop o p 0x4108 false

/-- The checks of R123 behind those on the function: the queue, its ring, its buffers. Its descriptors are read
through the translation cache (R96); a read that fails halts the queue (R129). -/
def rxToQueue (o : Owner) (q : Option Nat) (descs : Read) (p : Packet) (d : Dev) : Dev :=
  let h := rxQueue o q p d
  let none' := rxDrop o p 0x410C false
  match h.1 with
  | none => none' d
  | some q => match d.queue o q with
    | none => none' d
    | some x =>
      if x.kind != .rx then none' d
      else if x.reason.isSome then rxHalted o q p d
      else if d.cqShut o x.cq then
        d |> updQueue o q (fun x => { x with cqFull := min (x.cqFull + 1) 0xFFFF }) |> rxDrop o p 0x4104 true
      else
        withRead (d.fnOf o) (d.pasidOf o) (ringRange x.base 32 x.n x.fetch (min 64 x.unread)) descs (fun descs d =>
          match descs with
          | .ok b => rxBuffers o q h.2 ((chunks 32 b).take x.unread) p d
          | .poisoned _ => d |> dmaFail (d.fnOf o) descs |> haltQueue o q 2 stPoisoned |> rxHalted o q p
          | r => d |> dmaFail (d.fnOf o) r |> haltQueue o q 3 (readStatus r) |> rxHalted o q p) d

/-- Whether a packet's slice still takes packets (R50, R54). -/
def Dev.sliceTakes (d : Dev) : Owner → Bool
  | .function _ => true
  | .slice s => ((d.slice s).map (·.state)) == some .active

/-- A packet for a slice that is not ACTIVE (R50, R54), or exists no more. -/
def rxSliceGone (f : Nat) (o : Owner) (p : Packet) (d : Dev) : Dev := match o with
  | .function _ => endPacket p d
  | .slice s => goneDrop f s p d

/-- The order of R123. -/
def rxChecks (f : Nat) (o : Owner) (q : Option Nat) (descs : Read) (p : Packet) (d : Dev) : Dev :=
  let x := d.fn f
  let slice := match o with | .slice s => some s.val | .function _ => none
  if x.parked then d |> parkedPacket f slice p.bytes |> endPacket p
  else if !d.sliceTakes o then rxSliceGone f o p d
  else if !d.dlUp f || (d.link f).resetting then d |> hlCount f 0x40 |> endPacket p
  else if x.flr || !x.bme then rxDrop o p 0x4108 false d
  else if slice.isSome && !x.pasidEn then rxDrop o p 0x38 true d
  else rxToQueue o q descs p d

/-- The packet is the oldest that waits for its host link, and its receiver is there. -/
def rxPlacement (i : Nat) (descs : Read) (d : Dev) : Dev := match d.packet i with
  | none => d
  | some p => match p.loc with
    | .hostOut f =>
      if (d.pkts.takeWhile (·.id != i)).any fun x => x.loc == .hostOut f then d
      else if !d.hlOn f then d |> domainDrop |> endPacket p
      else match p.receiver with
        | none => endPacket p d
        | some (o, q) => rxChecks f o q descs p d
    | _ => d

/-- RX_PLACEMENT (R123, R124). -/
def execRxPlacement (pkt : Nat) (descs : Read) (s : State) : Host.Outcome State Fault Refusal :=
  .next (s.onDev fun _ d => rxPlacement pkt descs d)

end Sys2Proof.Machine
end

