-- ==== Sys2Proof/Machine/HostTx.lean ====
section
/-!
DEFINITION. Transmit jobs (R116): VLAN insertion, checksums, segmentation, the storage binding of a job (R315-R317), and
the packets that enter the pipeline.
-/
namespace Sys2Proof.Machine

/-! ### Checksums and segments (R116) -/

/-- CSUM: the IPv4 header checksum and the TCP or UDP checksum of the innermost headers. -/
def txCsum (x : Parse) (b : List Byte) : List Byte := match x.innermost with
  | none => b
  | some h =>
    let b := if h.v6 then b else fixIp4 h.off b
    match x.l4s.reverse.find? fun s => s.inner == x.ipI.isSome && !h.frag with
    | none => b
    | some s =>
      let a := s.off + if s.udp then 6 else 16
      let b := putBe b a 2 0
      let v := inetChecksum (pseudoSum h (if s.udp then 17 else 6) (s.fin - s.off) + sum16 (bytesAt b s.off (s.fin - s.off)))
      putBe b a 2 (if s.udp && v = 0 then 0xFFFF else v)

/-- The innermost TCP header. -/
def Parse.tcpHdr (x : Parse) : Option L4Seen := x.l4s.reverse.find? (!·.udp)

/-- Where the payload of a TCP header begins. -/
def tcpEnd (b : List Byte) (t : L4Seen) : Nat := t.off + byteAt b (t.off + 12) / 16 * 4

/-- An IP header of segment i: identification and length. -/
def segIp (i : Nat) (h : IpSeen) (b : List Byte) : List Byte :=
  fixIpLen h.off (if h.v6 then b else putBe b (h.off + 4) 2 ((be b (h.off + 4) 2 + i) % 65536))

/-- The TCP header of a segment: sequence number, CWR, PSH and FIN, checksum. -/
def segTcp (t : L4Seen) (ip : IpSeen) (skip : Nat) (first last : Bool) (b : List Byte) : List Byte :=
  let f := byteAt b (t.off + 13)
  let f := if last then f else setBits (setBits f 0 0 0) 3 3 0
  let f := if first then f else setBits f 7 7 0
  let b := putBe b (t.off + 4) 4 ((be b (t.off + 4) 4 + skip) % 2 ^ 32)
  let b := putBe (putBe b (t.off + 13) 1 f) (t.off + 16) 2 0
  let n := b.length - t.off
  putBe b (t.off + 16) 2 (inetChecksum (pseudoSum ip 6 n + sum16 (b.drop t.off)))

/-- A UDP header ahead of the TCP header: its length, and its checksum unless the job has 0 there. -/
def segUdp (outer : Option IpSeen) (s : L4Seen) (b : List Byte) : List Byte :=
  let n := b.length - s.off
  let b := putBe b (s.off + 4) 2 n
  match outer with
  | none => b
  | some h =>
    if be b (s.off + 6) 2 = 0 then b
    else
      let b := putBe b (s.off + 6) 2 0
      let v := inetChecksum (pseudoSum h 17 n + sum16 (b.drop s.off))
      putBe b (s.off + 6) 2 (if v = 0 then 0xFFFF else v)

/-- Segment i of n. -/
def txSegment (x : Parse) (t : L4Seen) (job : List Byte) (mss n i : Nat) : List Byte :=
  let e := tcpEnd job t
  let b := job.take e ++ ((job.drop e).drop (i * mss)).take mss
  let b := ([x.ipO, x.ipI].filterMap id).foldl (fun b h => if h.off < t.off then segIp i h b else b) b
  let b := match (if t.inner then x.ipI else x.ipO) with
    | some ip => segTcp t ip (i * mss) (i == 0) (i + 1 == n) b
    | none => b
  (x.l4s.filter fun s => s.udp && s.off < t.off).reverse.foldl (fun b s => segUdp (if s.inner then x.ipI else x.ipO) s b) b

/-- The packets of a job: its segments, or the frame itself. -/
def txPackets (x : Parse) (desc job : List Byte) : List (List Byte) :=
  match (if bit (byteAt desc 1) 3 then x.tcpHdr else none) with
  | some t =>
    let mss := max 1 (le desc 16 2)
    let n := max 1 ((job.length - tcpEnd job t + mss - 1) / mss)
    (List.range n).map (txSegment x t job mss n)
  | none => [if bit (byteAt desc 1) 2 then txCsum x job else job]

/-- VLAN_INS: a tag behind the source MAC address. -/
def txVlan (desc job : List Byte) : List Byte :=
  if bit (byteAt desc 1) 4 then job.take 12 ++ beBytes 2 0x8100 ++ beBytes 2 (le desc 18 2) ++ job.drop 12 else job

/-! ### Packets enter (R19, R125) -/

/-- A packet of an owner's TX queue, as it enters. -/
def txPacket (o : Owner) (f cls : Nat) (poisoned : Bool) (bound : Option Nat) (b : List Byte) : Packet :=
  let s := match o with | .slice s => s.val | .function _ => 0xFFFF
  { id := 0, loc := .hostIn f, bytes := b, ingress := 0x1000 + f, srcSlice := s, slice := s
    billing := if s = 0xFFFF then none else some s, cls := cls, poisoned := poisoned
    lineLen := b.length, bound := bound }

/-- The job's data is fetched and all of its packets are accepted; `data` names digests written back. -/
def txAccept (data : Option Nat) (o : Owner) (q cls len : Nat) (poisoned : Bool) (bound : Option Nat) (st : Nat)
    (l : List (List Byte)) (d : Dev) : Dev :=
  let f := d.fnOf o
  d |> each l (fun b => addPacket (txPacket o f cls poisoned bound b)) |> endJobData data o q st 0 len

/-! ### The storage binding of a job (R315-R317) -/

/-- Digests by their place in the job: (offset, byte). -/
def digestBytes (start : Nat) (w : List (Byte × Bool)) : List (Nat × Byte) :=
  (w.zipIdx.filter fun x => x.1.2).map fun x => (start + x.2, x.1.1)

/-- The bytes that lie in one buffer of the job, which covers [lo, lo + len): runs of (address, bytes). -/
def bufferRuns (addr lo len : Nat) : List (Nat × Byte) → List (Nat × List Byte)
  | [] => []
  | (p, b) :: r =>
    let rest := bufferRuns addr lo len r
    if p < lo || lo + len ≤ p then rest
    else match rest with
      | (a, bs) :: t => if a = addr + (p - lo) + 1 then (addr + (p - lo), b :: bs) :: t else (addr + (p - lo), [b]) :: rest
      | [] => [(addr + (p - lo), [b])]

/-- Every digest goes back into the job's buffers, ahead of the entry that translation may still fail (R96, R317). -/
def writeBack (s : XFor) (o : Owner) (descs : List (List Byte)) (w : List (Nat × Byte)) (d : Dev) : Dev :=
  (descs.foldl (fun (a : Nat × Dev) b =>
    (a.1 + dLen b, each (bufferRuns (dAddr b) a.1 (dLen b) w) (fun x d => hostWriteAs s (d.fnOf o) (d.pasidOf o) x.1 x.2 false false d) a.2))
    (0, d)).2

/-- The payload of the innermost TCP header: from where, its sequence number, its bytes. -/
def boundPayload (x : Parse) (tso : Bool) (job : List Byte) : Option (Nat × Nat × List Byte) := x.tcpHdr.map fun t =>
  let e := tcpEnd job t
  (e, be job (t.off + 4) 4, if tso then job.drop e else (job.take t.fin).drop e)

/-- A bound job that fails: ABORTED; the frame faults as R300 lays down. -/
def boundFault (o : Owner) (q c reason ctr len : Nat) (x job desc : List Byte) (d : Dev) : Dev :=
  let p := { txPacket o (d.fnOf o) (byteAt desc 24 % 8) false none job with id := d.nextPkt, pl := homePl c }
  let t := ctxFault p c x reason ctr d
  let d := endJob o q stAborted 0 len t.2.2
  match t.2.1 with
  | .exc r => d |> addPacket p |> deliverException p.excOwner r p
  | _ => d

/-- A job bound to context c: judged whole, its digests filled, the context advanced. -/
def txBound (o : Owner) (q c : Nat) (descs : List (List Byte)) (x : Parse) (job : List Byte) (len : Nat) (d : Dev) : Dev :=
  let desc := descs.headD []
  let cls := byteAt desc 24 % 8
  if !d.plOn (homePl c) then txAccept none o q cls len false (some c) stDomainDown (txPackets x desc job) d
  else
    let r := readCtx c (ctxUse c d)
    let d := r.2.2
    let y := boundPayload x (bit (byteAt desc 1) 3) job
    match txBind r.1 r.2.1 (y.map (·.2)) with
    | .none => txAccept none o q cls len false (some c) stOk (txPackets x desc job) d
    | .fault reason ctr => boundFault o q c reason ctr len r.1 job desc (when r.2.1 (cryCount c 0x1C) d)
    | .filled w z pdus =>
      let vlan := if bit (byteAt desc 1) 4 then 4 else 0
      let e := (y.map (·.1)).getD 0
      let job := putBytes job e (w.map (·.1))
      let i := newData (d.fnOf o) d
      i.2 |> writeBack (.data i.1) o descs (digestBytes (e - vlan) w) |> writeCtx c z |> meterOf (d.ctxOwner c) 7 pdus
        |> txAccept (some i.1) o q cls len false (some c) stOk (txPackets x desc job)

/-! ### The job -/

/-- The context that a job names, as an adapter-wide number. -/
def Dev.jobCtx (d : Dev) (o : Owner) (desc : List Byte) : Option Nat :=
  let c := le desc 20 4
  match o with
  | .function _ => none
  | .slice s => if bit c 31 then (d.slice s).map fun x => x.cBase + bits c 19 0 else none

/-- The data of the job has arrived: TSO without a TCP header fails; poisoned data is sent on with its mark. -/
def txRun (o : Owner) (q : Nat) (descs : List (List Byte)) (poisoned : Bool) (data : List Byte) (d : Dev) : Dev :=
  let desc := descs.headD []
  let job := txVlan desc data
  let x := (parsePacket d.gens.rules.pol [] job (0x1000 + d.fnOf o) 0xFFFF none false false).raw
  if bit (byteAt desc 1) 3 && x.tcpHdr.isNone then endJob o q stBadParam 1 data.length d
  else
    let c := d.jobCtx o desc
    if poisoned then txAccept none o q (byteAt desc 24 % 8) data.length true c stPoisoned (txPackets x desc job) d
    else match c with
      | none => txAccept none o q (byteAt desc 24 % 8) data.length false none stOk (txPackets x desc job) d
      | some c => txBound o q c descs x job data.length d

/-- The oldest job of a queue, whose data a read through the translation cache has brought (R96); one bound to a context waits behind earlier uses of it. -/
def txJob (o : Owner) (q : Nat) (data : Read) (d : Dev) : Dev := match d.queue o q with
  | none => d
  | some x => match x.jobs with
    | [] => d
    | j :: _ =>
      if x.kind != .tx || j.fault.isSome || dOp (j.descs.headD []) != 1 || !d.ownerMay o then d
      else if ((d.jobCtx o (j.descs.headD [])).map d.ctxHeld).getD false then d
      else
        withRead (d.fnOf o) (d.pasidOf o) (j.descs.map fun b => (dAddr b, dLen b)) data (fun data d =>
          let len := jobLen j.descs
          let d := d |> dmaFail (d.fnOf o) data
          (match data with
            | .ok b => txRun o q j.descs false (padTo len b) d
            | .poisoned b => txRun o q j.descs true (padTo len b) d
            | r => endJob o q (readStatus r) 0 0 d) |> settleQueue o q) d

/-- TX_JOB (R116). -/
def execTxJob (o : Owner) (q : Nat) (data : Read) (s : State) : Host.Outcome State Fault Refusal :=
  .next (s.onDev fun _ d => txJob o q data d)

end Sys2Proof.Machine
end

