-- ==== Sys2Proof/Machine/HostFunction.lean ====
section
/-!
DEFINITION. The host function (04_host_function.md): Bus Master Enable, FLR, power states, PASID and ATS enables,
invalidations, and the completions of the adapter's own reads.
-/
namespace Sys2Proof.Machine

/-! ### Configuration writes -/

/-- The queues of function f and its slices, by owner and number. -/
def Dev.fnQueues (d : Dev) (f : Nat) : List (Owner × Nat) := (d.ownersOf f).flatMap fun o => (d.queuesOf o).map fun q => (o, q)

/-- A started segment of queue (o, q) can still end: its read stands or its writes wait. -/
def Dev.segsOpen (d : Dev) (o : Owner) (q : Nat) : Bool :=
  ((d.queue o q).bind (·.xfer)).any fun x =>
    let src := if x.write then d.fnOf o else d.fnOf (expOwner (x.exporter.getD 0))
    x.segs.any fun g => g.status.isNone && (g.landing.isSome || (d.fn src).reads.any (·.purpose == .segment o q g.idx))

/-- A closing function waits no longer: of a Bus Master Enable clear, the segments already started and the data of packets
being placed have finished their writes (R98 step 3); of a D3hot entry, every segment in flight has ended, with its
flushing read, and what it wrote has left (R100). -/
def Dev.settled (d : Dev) (f : Nat) (d3 : Bool) : Bool :=
  let qs := d.fnQueues f
  if d3 then
    (d.fn f).xq.isEmpty && qs.all fun k => ((d.queue k.1 k.2).bind (·.xfer)).all fun x => x.open_ == 0 && !x.flushing
  else
    qs.all (fun k => !d.segsOpen k.1 k.2) && !(d.fn f).xq.any fun r => match r.serves with | .data _ => true | _ => false

/-- R101: a moderation-pending ring leaves its interrupt as a pending bit. -/
def moderationPark (o : Owner) (c : Nat) (d : Dev) : Dev := match d.cq o c with
  | none => d
  | some x =>
    if x.mcount = 0 then d
    else d |> updCq o c (fun x => { x with mcount := 0, due := none }) |> when x.intEn (ownerVector o x.vector)

/-- Steps 4 and 5 of R98: data that could not be written is given up, with the entry that describes it; reads whose
translation has not come are not sent any more; every queue halts. -/
def bmeHalted (f : Nat) (d : Dev) : Dev :=
  let ids := (d.fn f).xq.filterMap fun r => match r.serves with | .data i => some i | _ => none
  d |> updFn f (fun x => { x with
        closing := none, bmeHalt := true
        xq := (x.xq.filter fun r => match r.serves with | .data _ => false | _ => true).map fun r => { r with wait := none }
        reads := [], xbad := x.xbad ++ ids.map fun i => (.data i, stAborted) })
    |> each (d.ownersOf f) (fun o => haltOwner o 1 stAborted)

/-- The end of R100: interrupts that moderation held become pending, and the function is in D3hot, its link in L1 (R68). -/
def d3Entered (f : Nat) (d : Dev) : Dev :=
  d |> each (d.ownersOf f) (fun o d => each (d.cqsOf o) (moderationPark o) d)
    |> updFn f (fun x => { x with closing := none, d3 := true, parked := true, woken := false, waking := false })
    |> setHlState f 6

/-- What a closing function waited for is over, or its bound is: the configuration write takes full effect, and its
completion is sent (R98, R100). -/
def closeNow (f : Nat) (d : Dev) : Dev := match (d.fn f).closing with
  | none => d
  | some c => d |> (if c.d3 then d3Entered f else bmeHalted f) |> emit (.completion f 0 [] false)

/-- Whether it is over. -/
def Dev.closes (d : Dev) (f : Nat) : Bool := match (d.fn f).closing with
  | none => false
  | some c => d.settled f c.d3 || c.due ≤ d.time

/-- Configuration writes whose wait is over are completed. -/
def closeDue (d : Dev) : Dev := each ((List.range 32).filter d.closes) closeNow d

/-- The requests of function f go on, and configuration writes that waited for them are completed. -/
def proceed (f : Nat) (d : Dev) : Dev := d |> advance f |> closeDue

/-! ### Rows that let requests go on -/

/-- XFER_SEGMENT_END (R337). -/
def execXferSegmentEnd (o : Owner) (q seg : Nat) (res : SegEnd) (s : State) : Host.Outcome State Fault Refusal :=
  .next (s.onDev fun _ d => d |> segmentEnd o q seg res |> proceed (d.fnOf o))

/-- DESCRIPTOR_FETCH_DONE (R115). -/
def execDescriptorFetchDone (o : Owner) (q : Nat) (data : List Byte) (s : State) : Host.Outcome State Fault Refusal :=
  .next (s.onDev fun _ d => match (d.queue o q).bind fun x => x.fetching.head? with
    | some g => d |> descsArrive o q g.tag data |> proceed (d.fnOf o)
    | none => d)

/-- EYELET_FLUSH_READ_DONE (R338). -/
def execEyeletFlushReadDone (f : Fin 32) (tag : Nat) (s : State) : Host.Outcome State Fault Refusal :=
  .next (s.onDev fun _ d => d |> flushDone f tag (.ok []) |> proceed f)

/-! ### Configuration writes that are completed at once, and later -/

/-- Whether a configuration request of function f is answered Request Retry Status (R73, R90). -/
def Dev.retries (d : Dev) (f : Nat) : Bool := !d.ready || (d.fn f).flr

/-- A Bus Master Enable clear or D3hot entry that an FLR supersedes goes no further; its write is completed (R99, log 136). -/
def closeDrop (f : Nat) (d : Dev) : Dev :=
  d |> when (d.fn f).closing.isSome (emit (.completion f 0 [] false)) |> updFn f fun x => { x with closing := none }

/-- A configuration write of function f: served with a completion, or answered Request Retry Status before the device
is ready and during FLR (R73, R90). One that still waits for its completion is completed first (log 136), unless this one
is an FLR; and the completion waits where the write begins what R98 or R100 let end first. -/
def cfgWrite (f : Nat) (flr : Bool) (go : Dev → Dev) (d : Dev) : Dev :=
  if !d.fnExists f || !d.dlUp f then d
  else if d.retries f then emit (.completion f 2 [] false) d
  else
    let d := d |> (if flr then closeDrop f else closeNow f) |> go
    if (d.fn f).closing.isSome then when (d.closes f) (closeNow f) d else emit (.completion f 0 [] false) d

/-- Outstanding reads and waiting requests of a function are abandoned: what still arrives matches nothing. -/
def readsDrop (f : Nat) (d : Dev) : Dev :=
  updFn f (fun x => { x with reads := [], xq := [], xdenied := [], xbad := [], xnone := [] }) d

/-- Everything in flight on the queues of a function is forgotten; its queues are not fetched again (R99). -/
def queuesStop (f : Nat) (d : Dev) : Dev :=
  let ks := (d.ownersOf f).map ownerKey
  let d := forgetQueues (fun k => ks.contains (k / 8192)) d
  { d with queues := mmap d.queues fun k q =>
      if ks.contains (k / 8192) then { q with fetching := [], chain := [], jobs := [], xfer := none } else q }

/-! ### Bus Master Enable (R98) -/

/-- Messages that have not left become pending bits (R89, R101). -/
def msixPark (f : Nat) (d : Dev) : Dev :=
  let vs := (d.fn f).xq.filterMap fun r => match r.out with | .msix _ v => some v | _ => none
  d |> updFn f (fun x => { x with xq := x.xq.filter fun r => match r.out with | .msix _ _ => false | _ => true })
    |> each vs (msixPend f)

/-- Steps 1 to 3: nothing more is asked for, and reads outstanding are forgotten, but for the translations of writes already
started; those writes finish within 2 µs. What else waits to be written is kept until Bus Master Enable returns. -/
def bmeClear (f : Nat) (d : Dev) : Dev :=
  if !(d.fn f).bme then d
  else
    d |> updFn f (fun x => { x with bme := false, closing := some { d3 := false, due := d.time + 2000 } })
      |> fnStop f stAborted
      |> updFn f (fun x => { x with
          reads := x.reads.filter (·.purpose == .translation), xdenied := [], xnone := []
          xq := x.xq.filter fun r => match r.out with | .memRead _ _ _ _ _ => false | _ => true })
      |> msixPark f |> advance f

def bmeSet (f : Nat) (d : Dev) : Dev := if (d.fn f).bme then d else d |> updFn f (fun x => { x with bme := true }) |> resumeHeld f

/-- BUS_MASTER_DISABLE (R98). -/
def execBusMasterDisable (f : Fin 32) (s : State) : Host.Outcome State Fault Refusal :=
  .next (s.onDev fun _ d => cfgWrite f false (bmeClear f) d)

/-- BUS_MASTER_ENABLE (R98). -/
def execBusMasterEnable (f : Fin 32) (s : State) : Host.Outcome State Fault Refusal :=
  .next (s.onDev fun _ d => cfgWrite f false (bmeSet f) d)

/-! ### Function Level Reset (R99) -/

/-- Steps 1 to 3: the function falls silent; parking ends (R102). -/
def flrBegin (f : Nat) (d : Dev) : Dev :=
  d |> updFn f (fun x => { x with flr := true, invals := [] }) |> fnStop f stAborted |> queuesStop f |> readsDrop f
    |> unpark f

/-- FLR (R99). -/
def execFlr (f : Fin 32) (s : State) : Host.Outcome State Fault Refusal :=
  .next (s.onDev fun _ d => cfgWrite f true (flrBegin f) d)

/-- Steps 4 and 5; an FLR that has joined a Slice Reset waits for its end (R52). -/
def flrEnd (f : Nat) (d : Dev) : Dev :=
  if !(d.fn f).flr || (d.slicesOf f).any (fun s => ((d.slice s).map (·.state)) == some .resetting) then d
  else fnStateReset f d

/-- FLR_DONE (R99). -/
def execFlrDone (f : Fin 32) (s : State) : Host.Outcome State Fault Refusal :=
  .next (s.onDev fun _ d => flrEnd f d)

/-! ### Power states (R100-R102) -/

/-- A D3hot entry begins: fetch stops and nothing starts, exporter-side segments end ABORTED (R339), those of the function's
own queues end within 100 µs (R100). -/
def d3Enter (f : Nat) (d : Dev) : Dev :=
  if (d.fn f).d3 then d
  else
    let tags := (d.fn f).reads.filterMap fun r => match r.purpose with | .flush _ _ => some r.tag | _ => none
    d |> updFn f (fun x => { x with closing := some { d3 := true, due := d.time + 100000 } })
      |> abortFlights (fun e _ => d.sliceOfFn f e.exporter) stAborted
      |> each tags (fun t => flushEnd f t stAborted)
      |> msixPark f |> advance f

/-- D0: parking ends, what waited is sent, fetch resumes. -/
def d0Enter (f : Nat) (d : Dev) : Dev :=
  if !(d.fn f).d3 then d
  else
    let st := if d.hlState f = 6 then 4 else d.hlState f
    d |> updFn f (fun x => { x with d3 := false }) |> unpark f |> setHlState f st |> resumeHeld f

/-- D3HOT_ENTRY (R100). -/
def execD3hotEntry (f : Fin 32) (s : State) : Host.Outcome State Fault Refusal :=
  .next (s.onDev fun _ d => cfgWrite f false (d3Enter f) d)

/-- D0_RETURN (R101). -/
def execD0Return (f : Fin 32) (s : State) : Host.Outcome State Fault Refusal :=
  .next (s.onDev fun _ d => cfgWrite f false (d0Enter f) d)

/-- PM_PME is sent again 100 ms after it was last sent (R102). -/
def pmeResend (f : Nat) (d : Dev) : Dev :=
  let x := d.fn f
  if x.d3 && x.pmeStatus && d.dlUp f then d |> timeTo (x.pmeAt + 100000000) |> sendPme f else d

/-- PME_RESEND (R102). -/
def execPmeResend (f : Fin 32) (s : State) : Host.Outcome State Fault Refusal :=
  .next (s.onDev fun _ d => pmeResend f d)

/-- WAKE_N is released 5 s after it was driven, and the next match signals again (R75, R102). -/
def wakeTimeout (f : Nat) (d : Dev) : Dev := match (d.link f).wakeSince with
  | none => d
  | some t =>
    d |> timeTo (t + 5000000000) |> updLink f (fun x => { x with wakeSince := none }) |> emit (.wakeN f false)
      |> updFn f (fun x => { x with waking := false, woken := false }) |> connBit f 15

/-- WAKE_TIMEOUT (R75). -/
def execWakeTimeout (f : Fin 32) (s : State) : Host.Outcome State Fault Refusal :=
  .next (s.onDev fun _ d => wakeTimeout f d)

/-! ### PASID and ATS enables (R95, R96) -/

def pasidWrite (f : Nat) (on' : Bool) (d : Dev) : Dev :=
  if (d.fn f).pasidEn == on' then d
  else if on' then d |> updFn f (fun x => { x with pasidEn := true }) |> resumeHeld f
  else d |> updFn f (fun x => { x with pasidEn := false }) |> fnStop f stAborted

/-- PASID_ENABLE_WRITE (R95). -/
def execPasidEnableWrite (f : Fin 32) (on' : Bool) (s : State) : Host.Outcome State Fault Refusal :=
  .next (s.onDev fun _ d => cfgWrite f false (pasidWrite f on') d)

/-- ATS off empties the ATC, and what waited for a translation leaves untranslated. -/
def atsWrite (f : Nat) (on' : Bool) (d : Dev) : Dev :=
  if on' then updFn f (fun x => { x with atsEn := true }) d
  else
    d |> updFn f (fun x => { x with atsEn := false, atc := [], xnone := [], xq := x.xq.map fun r => { r with wait := none }
                                    reads := x.reads.filter (·.purpose != .translation) })
      |> advance f

/-- ATS_ENABLE_WRITE (R96). -/
def execAtsEnableWrite (f : Fin 32) (on' : Bool) (s : State) : Host.Outcome State Fault Refusal :=
  .next (s.onDev fun _ d => cfgWrite f false (atsWrite f on') d)

/-! ### MSI-X masks (R89) -/

def vectorMask (f v : Nat) (m : Bool) (d : Dev) : Dev :=
  d |> updFn f (fun x => { x with vecs := mupd {} x.vecs v fun e => { e with masked := m } }) |> when (!m) (msixFlush f)

def functionMask (f : Nat) (m : Bool) (d : Dev) : Dev :=
  d |> updFn f (fun x => { x with msixMask := m }) |> when (!m) (msixFlush f)

/-- A vector's mask lies in BAR4, the function's in configuration space. -/
def msixUnmask (f : Nat) (v : Option (Fin 2048)) (d : Dev) : Dev := match v with
  | none => cfgWrite f false (functionMask f false) d
  | some v => if d.fnExists f && d.dlUp f && (d.fn f).mse && !(d.fn f).flr then vectorMask f v false d else d

/-- MSIX_UNMASK (R89). -/
def execMsixUnmask (f : Fin 32) (v : Option (Fin 2048)) (s : State) : Host.Outcome State Fault Refusal :=
  .next (s.onDev fun _ d => msixUnmask f v d)

/-! ### Completions of the adapter's reads (R92, R93) -/

/-- How a segment's read ends. -/
def segEnd (onExp : Bool) : Read → SegEnd
  | .ok b => .ok b
  | .poisoned b => .poisoned b
  | .denied => .failed onExp false
  | .aborted => .failed onExp false
  | .timeout => .failed onExp true
  | .internal _ => .failed onExp true

/-- An XFER queue's job writes its eyelet. -/
def Dev.xferWrites (d : Dev) (o : Owner) (q : Nat) : Bool := (((d.queue o q).bind (·.xfer)).map (·.write)).getD false

/-- A descriptor read of a queue ends. -/
def descsEnd (f : Nat) (o : Owner) (q tag : Nat) (res : Read) (d : Dev) : Dev := match res with
  | .ok b => descsArrive o q tag b d
  | r => d |> dropTag f tag |> dmaFail f r |> fetchFailed o q r

/-- The read of a tag that serves a transfer ends. A placement read brings the entry and, behind it, the segment list
that the entry points to (log 37). -/
def serveRead (f tag : Nat) (res : Read) (d : Dev) : Dev := match (d.fn f).readOf tag with
  | none => d
  | some r => match r.purpose with
    | .descriptors o q => descsEnd f o q tag res d
    | .jobData o q => txJob o q res d
    | .flush _ _ => flushDone f tag res d
    | .segment o q k => segmentEnd o q k (segEnd (!d.xferWrites o q) res) d
    | .placement c => match res with
      | .ok b => placementTableReadDone c (.ok (b.take 32)) (.ok (b.drop 32)) d
      | r => placementTableReadDone c r r d
    | .translation => d

/-- A Translation Request ends with entries for the ATC; the requests that waited for it go on (R96). -/
def translated (f tag : Nat) (e : List AtcEntry) (d : Dev) : Dev :=
  d |> updFn f (fun x => { x with
        reads := x.reads.filter (·.tag != tag), atc := (e ++ x.atc).take 8192
        xq := x.xq.map fun r => if r.wait = some tag then { r with wait := none } else r })
    |> proceed f

/-- The Translation Request that tag names, while it is outstanding. -/
def Dev.translation (d : Dev) (f tag : Nat) : Option OutRead :=
  ((d.fn f).readOf tag).bind fun r => if r.purpose == .translation then some r else none

/-- TRANSLATION_COMPLETION (R96): the ATC is filled, and the waiting requests go on. -/
def execTranslationCompletion (f : Fin 32) (tag base len xlat : Nat) (rd wr : Bool) (s : State) :
    Host.Outcome State Fault Refusal :=
  .next (s.onDev fun _ d => match d.translation f tag with
    | some r => translated f tag [{ pasid := r.pasid, base := base, len := len, xlat := xlat, rd := rd, wr := wr }] d
    | none => d)

/-- A Translation Request failed: so does the request that waited for it, a read or a write, and those behind it go on. A
read whose data is an operand fails when its row runs next. -/
def translationFail (f tag : Nat) (res : Read) (d : Dev) : Dev := match d.translation f tag with
  | none => d
  | some t =>
    let w := (d.fn f).xq.find? (·.wait == some tag)
    let d := updFn f (fun x => { x with reads := x.reads.filter (·.tag != tag), xq := x.xq.filter (·.wait != some tag) }) d
    (match w with
      | some r => match (xKey r.out).bind fun k => k.2.2.2.2 with
        | some t => serveRead f t res d
        | none => d |> dmaFail f res |> when (r.serves != .other) (updFn f fun x => { x with xbad := x.xbad ++ [(r.serves, readStatus res)] })
      | none => updFn f (fun x => { x with xnone := x.xnone ++ t.sent.map fun p => (t.pasid, p.1, res) }) d) |> proceed f

/-- A read of the adapter ends (R92, R93): one that matches nothing is discarded. -/
def readEnd (f tag : Nat) (res : Read) (d : Dev) : Dev := match (d.fn f).readOf tag with
  | none => d |> count (aFn f 0x14) |> aerUnc f erUnexpected true
  | some r => match r.purpose with
    | .translation => match res with
      | .ok _ => d
      | _ => translationFail f tag res d
    | _ => d |> serveRead f tag res |> proceed f

/-- READ_COMPLETION (R93). -/
def execReadCompletion (f : Fin 32) (tag : Nat) (res : Read) (s : State) : Host.Outcome State Fault Refusal :=
  .next (s.onDev fun _ d => if d.fnExists f && d.dlUp f then readEnd f tag res d else d)

/-- The completion timeout in ns (R93): 40 ms for value 0, within the range that the base specification gives the value
otherwise (PRESUMED, log 135), and 1 s with Completion Timeout Disable set. -/
def Fn.cplLimit (x : Fn) (tag : Nat) : Nat :=
  let within := fun lo hi => lo + Config.cplTimeout (wbits x.devCtl2 3 0) tag % (hi - lo + 1)
  if x.devCtl2.getLsbD 4 then 1000000000
  else match wbits x.devCtl2 3 0 with
    | 1 => within 50000 100000
    | 2 => within 1000000 10000000
    | 5 => within 16000000 55000000
    | 6 => within 65000000 210000000
    | 9 => within 260000000 900000000
    | 10 => within 1000000000 3500000000
    | 13 => within 4000000000 13000000000
    | 14 => within 17000000000 64000000000
    | _ => 40000000

/-- A read goes unanswered past its timeout, which runs from when it was sent. -/
def completionTimeout (f tag : Nat) (d : Dev) : Dev := match (d.fn f).readOf tag with
  | none => d
  | some r => if r.sent.isEmpty then d else d |> timeTo (r.start + (d.fn f).cplLimit tag) |> readEnd f tag .timeout

/-- COMPLETION_TIMEOUT (R93). -/
def execCompletionTimeout (f : Fin 32) (tag : Nat) (s : State) : Host.Outcome State Fault Refusal :=
  .next (s.onDev fun _ d => completionTimeout f tag d)

/-! ### Invalidations (R97) -/

/-- Whether an ATC entry matches an invalidation. -/
def invalHits (pasid : Option Nat) (base len : Nat) (e : AtcEntry) : Bool :=
  e.pasid == pasid && e.base < base + len && base < e.base + e.len

/-- Steps 1 and 2; reads of which a request was sent with a barred translation stay open. -/
def invalBegin (f itag : Nat) (pasid : Option Nat) (base len : Nat) (d : Dev) : Dev :=
  let x := d.fn f
  let sent := x.reads.filter fun r => r.purpose != .translation && r.pasid == pasid &&
    r.sent.any fun p => x.atc.any fun e => invalHits pasid base len e && e.base ≤ p.1 && p.1 < e.base + e.len
  d |> count (aFn f 0x24)
    |> updFn f fun x => { x with
        atc := x.atc.filter fun e => !invalHits pasid base len e
        invals := x.invals.filter (·.itag != itag) ++ [{ itag := itag, start := d.time, open_ := sent.map (·.tag) }] }

/-- The function answers invalidations: link up, no FLR. -/
def Dev.invalsOk (d : Dev) (f : Nat) : Bool := d.fnExists f && d.dlUp f && !(d.fn f).flr

/-- ATS_INVALIDATION (R97). -/
def execAtsInvalidation (f : Fin 32) (itag : Nat) (pasid : Option Nat) (base len : Nat) (s : State) :
    Host.Outcome State Fault Refusal :=
  .next (s.onDev fun _ d => if d.invalsOk f then invalBegin f itag pasid base len d else d)

/-- Steps 3 and 4: reads still open are abandoned at 40 µs, and the Invalidation Completion is sent. -/
def invalEnd (f itag : Nat) (d : Dev) : Dev := match (d.fn f).invals.find? (·.itag == itag) with
  | none => d
  | some v =>
    let left := v.open_.filter fun t => ((d.fn f).readOf t).isSome
    d |> when (!left.isEmpty) (timeTo (v.start + 40000))
      |> each left (fun t d => d |> count (aFn f 0x28) |> serveRead f t .timeout) |> proceed f
      |> updFn f (fun x => { x with invals := x.invals.filter (·.itag != itag) })
      |> emit (.invalidated f itag)

/-- ATS_INVALIDATION_DONE (R97). -/
def execAtsInvalidationDone (f : Fin 32) (itag : Nat) (s : State) : Host.Outcome State Fault Refusal :=
  .next (s.onDev fun _ d => if d.invalsOk f then invalEnd f itag d else d)

end Sys2Proof.Machine
end

