-- ==== Sys2Proof/Machine/ConfigSpace.lean ====
section
/-!
DEFINITION. Configuration space of the host functions (R80-R82) and of the manager function (R34), which has number
32: what a dword reads as, and what a write does. Bits that the manual leaves to the PCI Express specification are
free (log 10).
-/
namespace Sys2Proof.Machine

/-- The BARs: writable address bits, and the type bits below. -/
def barShape (mgr : Bool) (off : Nat) : Option (Word × Word) :=
  if off = 0x14 || off = 0x1C || off = 0x24 then some (0xFFFFFFFF, 0)
  else if off = 0x10 then some (if mgr then 0xF0000000 else 0xFC000000, 4)
  else if off = 0x18 then some (if mgr then 0xC0000000 else 0xFFC00000, 0xC)
  else if off = 0x20 then some (if mgr then 0xFFFFE000 else 0xFFFE0000, 4)
  else none

/-- Extended capabilities beyond AER and the serial number: offset, ID, next (R82, R34). -/
def extCaps (mgr : Bool) : List (Nat × Nat × Nat) :=
  if mgr then [(0x158, 0x19, 0x178), (0x178, 0x26, 0x1A8), (0x1A8, 0x2A, 0x1E0), (0x1E0, 0x27, 0)]
  else [(0x158, 0x1B, 0x160), (0x160, 0x0F, 0x168), (0x168, 0x22, 0x178), (0x178, 0x2F, 0x188), (0x188, 0x25, 0x198),
        (0x198, 0x19, 0x1C8), (0x1C8, 0x26, 0x1F8), (0x1F8, 0x2A, 0x230), (0x230, 0x31, 0x250), (0x250, 0x27, 0x2A0),
        (0x2A0, 0x32, 0)]

/-- Header dwords: the bits that are fixed, and their values. -/
def cfgHeader (f off : Nat) (d : Dev) : Option (Word × Word) :=
  let mgr := f = 32
  let x := d.fn f
  let b := d.board.getD (0xF0A7, 0)
  if off = 0x00 then some (0xFFFFFFFF, if mgr then 0x3281F0A7 else 0x3280F0A7)
  else if off = 0x04 then some (0x00110007, word (0x100000 + 2 * b2n x.mse + 4 * b2n x.bme))
  else if off = 0x08 then some (0xFFFFFFFF, if mgr then 0x02800000 else 0x02000000)
  else if off = 0x0C then some (0x00FF0000, 0)
  else if off = 0x2C then some (0xFFFFFFFF, word (b.1 + 65536 * b.2))
  else if off = 0x34 then some (0xFF, 0x40)
  else if off = 0x3C then some (0xFF00, 0)
  else (barShape mgr off).map fun s => (0xFFFFFFFF, ((mget 0 x.cfg off) &&& s.1) ||| s.2)

/-- The capabilities at 0x40, 0x50 and 0x70. -/
def cfgCaps (f off : Nat) (d : Dev) : Option (Word × Word) :=
  let mgr := f = 32
  let x := d.fn f
  if off = 0x40 then some (0xFFC7FFFF, if mgr then 0x00035001 else 0xC0035001)
  else if off = 0x44 then some (0x810B, word ((if x.d3 then 3 else 0) + 8 + 256 * b2n x.pmeEn + 32768 * b2n x.pmeStatus))
  else if off = 0x50 then
    some (0xFFFFFFFF, word (0x7011 + 65536 * ((if mgr then 63 else 2047) + 2 ^ 14 * b2n x.msixMask + 2 ^ 15 * b2n x.msixEn)))
  else if off = 0x54 then some (0xFFFFFFFF, 4)
  else if off = 0x58 then some (0xFFFFFFFF, if mgr then 0x1004 else 0x10004)
  else if off = 0x70 then some (0x00FFFFFF, 0x00020010)
  else if off = 0x74 then some (0x10000007, if mgr then 2 else 0x10000002)
  else if off = 0x78 then some (0xFFFF, x.devCtl &&& 0x7FFF)
  else if off = 0x7C then
    some (if mgr then (0xFFF, 0x845) else (0x38FFF, if d.paired f then 0x10906 else 0x10886))
  else if off = 0x80 then some (2, if x.aspm then 2 else 0)
  else if off = 0x94 then some (0x2001F, 0x2001E)
  else if off = 0x9C then some (0xFE, if mgr then 0x3E else 0x7E)
  else if off = 0x98 then some (0xFFFF, x.devCtl2 &&& 0xFFFF)
  else none

/-- A time in ns as Readiness Time Reporting encodes it: 9 bits times a power of 32, the finest that holds it, rounded up
(log 9). -/
def readiness (t : Nat) : Nat :=
  match (List.range 8).find? fun s => (t + 32 ^ s - 1) / 32 ^ s < 512 with
  | some s => 512 * s + (t + 32 ^ s - 1) / 32 ^ s
  | none => 0

/-- The extended capabilities: AER with its Header Log, the serial number, PASID, ATS, readiness times, 14-bit Tag
Requester and L0p, Scaled Flow Control, Modified TS not used; for the rest their headers. -/
def cfgExt (f off : Nat) (d : Dev) : Option (Word × Word) :=
  let mgr := f = 32
  let x := d.fn f
  if off = 0x100 then some (0xFFF0FFFF, 0x14800001)
  else if off = 0x104 then some (0xFFFFFFFF, x.uncStatus)
  else if off = 0x108 then some (0xFFFFFFFF, x.uncMask)
  else if off = 0x10C then some (0xFFFFFFFF, aerSeverity x)
  else if off = 0x110 then some (0xFFFFFFFF, x.corStatus)
  else if off = 0x114 then some (0xFFFFFFFF, x.corMask)
  else if off = 0x118 then some (0xABF, word (0x800 + x.firstErr % 32))
  else if 0x11C ≤ off && off < 0x12C then some (0xFFFFFFFF, x.hdrLog.getD ((off - 0x11C) / 4) 0)
  else if off = 0x148 then some (0xFFF0FFFF, 0x15800003)
  else if off = 0x14C then some (0xFFFFFFFF, Config.serial.setWidth 32)
  else if off = 0x150 then some (0xFFFFFFFF, (Config.serial >>> 32).setWidth 32)
  else if off = 0x15C && !mgr then some (0x11F06, word (0x1400 + 65536 * b2n x.pasidEn))
  else if off = 0x164 && !mgr then some (0x8000007F, word (0x20 + 2 ^ 31 * b2n x.atsEn))
  else if off = 0x16C && !mgr then some (0x80FFFFFF, word (2 ^ 31 + 4096 * readiness 1000000 + readiness 850000000))
  else if off = 0x170 && !mgr then some (0xFFFFFF, word (4096 * readiness 1000000 + readiness 10000000))
  else if off = 0x17C && !mgr then some (0xC, 0xC)
  else if off = 0x18C && !mgr then some (1, 1)
  else if off = (if mgr then 0x1AC else 0x1FC) then some (0x600, 0)
  else ((extCaps mgr).find? (·.1 == off)).map fun c => (0xFFF0FFFF, word (c.2.1 + 2 ^ 20 * c.2.2))

/-- The fixed bits of a dword and their values. -/
def cfgFixed (f off : Nat) (d : Dev) : Word × Word :=
  ((cfgHeader f off d).orElse fun _ => (cfgCaps f off d).orElse fun _ => cfgExt f off d).getD (0, 0)

/-- What a configuration read returns. -/
def Dev.cfgRead (d : Dev) (f off : Nat) : Word :=
  let x := cfgFixed f off d
  (x.1 &&& x.2) ||| (~~~x.1 &&& Config.cfgRest f off (mfind (d.fn f).cfg off))

/-- The bits of the enabled bytes. -/
def beMask (be : BitVec 4) : Word :=
  word (((List.range 4).map fun i => if be.getLsbD i then 255 * 256 ^ i else 0).sum)

/-- The manager function may issue requests again: held replies, lost events, pending vectors (R34). -/
def mgrResume (d : Dev) : Dev := d |> releaseHeld .manager |> mevLostFirst |> msixFlush 32

/-- Bus Master Enable is written. -/
def bmeWrite (f : Nat) (b : Bool) (d : Dev) : Dev :=
  if f = 32 then
    let was := (d.fn 32).bme
    d |> updFn 32 (fun x => { x with bme := b }) |> when (b && !was) mgrResume
  else if b then bmeSet f d else bmeClear f d

/-- PowerState is written: D1 and D2 are ignored. -/
def powerWrite (f st : Nat) (d : Dev) : Dev :=
  if st = 3 then (if f = 32 then updFn 32 (fun x => { x with d3 := true }) d else d3Enter f d)
  else if st = 0 then
    if f = 32 then
      let was := (d.fn 32).d3
      d |> updFn 32 (fun x => { x with d3 := false }) |> when was mgrResume
    else d0Enter f d
  else d

/-- A write to the header and the capabilities at 0x40, 0x50 and 0x70; `w` holds the merged value, `one` the bits
written as 1. -/
def cfgSetLow (f off : Nat) (w one : Word) (be : BitVec 4) (d : Dev) : Dev :=
  if off = 0x04 && be.getLsbD 0 then d |> updFn f (fun x => { x with mse := w.getLsbD 1 }) |> bmeWrite f (w.getLsbD 2)
  else if off = 0x44 then
    d |> updFn f (fun x => { x with pmeEn := f != 32 && w.getLsbD 8, pmeStatus := x.pmeStatus && !one.getLsbD 15 })
      |> when (be.getLsbD 0) (powerWrite f (wbits w 1 0))
  else if off = 0x50 && be.getLsbD 3 then
    d |> updFn f (fun x => { x with msixEn := w.getLsbD 31 }) |> functionMask f (w.getLsbD 30) |> msixFlush f
  else if off = 0x78 then
    d |> updFn f (fun x => { x with devCtl := w &&& 0x7FFF }) |> when (f != 32 && one.getLsbD 15) (flrBegin f)
  else if off = 0x80 then updFn f (fun x => { x with aspm := w.getLsbD 1 }) d
  else if off = 0x98 then updFn f (fun x => { x with devCtl2 := w &&& 0xFFFF }) d
  else d

/-- A write to the extended capabilities. -/
def cfgSetExt (f off : Nat) (w one : Word) (d : Dev) : Dev :=
  if off = 0x104 then updFn f (fun x => { x with uncStatus := x.uncStatus &&& ~~~one }) d
  else if off = 0x108 then updFn f (fun x => { x with uncMask := w }) d
  else if off = 0x10C then updFn f (fun x => { x with uncSev := some w }) d
  else if off = 0x110 then updFn f (fun x => { x with corStatus := x.corStatus &&& ~~~one }) d
  else if off = 0x114 then updFn f (fun x => { x with corMask := w }) d
  else if off = 0x15C && f != 32 then pasidWrite f (w.getLsbD 16) d
  else if off = 0x164 && f != 32 then atsWrite f (w.getLsbD 31) d
  else d

/-- A configuration write to function f. -/
def cfgSet (f off : Nat) (v : Word) (be : BitVec 4) (d : Dev) : Dev :=
  let m := beMask be
  let w := (d.cfgRead f off &&& ~~~m) ||| (v &&& m)
  d |> updFn f (fun x => { x with cfg := mput x.cfg off w })
    |> (if off < 0x100 then cfgSetLow f off w (v &&& m) be else cfgSetExt f off w (v &&& m))

/-- A configuration request of a host. -/
def configRequest (f : Nat) (write : Bool) (off : Nat) (v : Word) (be : BitVec 4) (d : Dev) : Dev :=
  let o := off % 4096 / 4 * 4
  if write then cfgWrite f (o == 0x78 && be.getLsbD 1 && v.getLsbD 15) (cfgSet f o v be) d
  else if !d.fnExists f || !d.dlUp f then d
  else if !d.ready || (d.fn f).flr then emit (.completion f 2 [] false) d
  else emit (.completion f 0 (leBytes 4 (d.cfgRead f o).toNat) false) d

/-- A configuration request to the manager function: Request Retry Status until start-up step 2 ends (R34). -/
def mgrConfigRequest (write : Bool) (off : Nat) (v : Word) (be : BitVec 4) (d : Dev) : Dev :=
  let o := off % 4096 / 4 * 4
  if !d.power.holds.isEmpty || !d.cpUp then d
  else if d.fld 0x14 3 0 < 2 then emit (.completion 32 2 [] false) d
  else if write then d |> cfgSet 32 o v be |> emit (.completion 32 0 [] false)
  else emit (.completion 32 0 (leBytes 4 (d.cfgRead 32 o).toNat) false) d

/-- CONFIG_REQUEST (R34, R73, R90): to host function f, or to the manager function as 32. -/
def execConfigRequest (f : Fin 33) (write : Bool) (off : Nat) (v : Word) (be : BitVec 4) (s : State) :
    Host.Outcome State Fault Refusal :=
  .next (s.onDev fun _ d => if f.val = 32 then mgrConfigRequest write off v be d else configRequest f write off v be d)

/-- MANAGER_FUNCTION_CONFIG_WRITE (R34). -/
def execManagerFunctionConfigWrite (off : Nat) (v : Word) (s : State) : Host.Outcome State Fault Refusal :=
  .next (s.onDev fun _ d => mgrConfigRequest true off v 15 d)

end Sys2Proof.Machine
end

