-- ==== Sys2Proof/Machine/HostLinks.lean ====
section
/-!
DEFINITION. Host links and their connectors (03_host_links.md): pairing, training, planned and unplanned downs, removal
and return, widths and L1, and what partners do wrong.
-/
namespace Sys2Proof.Machine

/-! ### Pairing and HL_LINK_CTRL (R64, R65) -/

/-- MAX_SPEED as taken: values other than 1-6 are 6. -/
def maxSpeed (v : Nat) : Nat := if 1 ≤ v && v ≤ 6 then v else 6

/-- Whether a write of PAIR takes effect: both links disabled and down, and for pairing nothing on function 2k+1. -/
def Dev.mayPair (d : Dev) (n : Nat) (pair : Bool) : Bool :=
  d.flag (aHl n) 8 && d.flag (aHl (n + 1)) 8 && !d.dlUp n && !d.dlUp (n + 1) &&
  (!pair || ((d.slicesOf (n + 1)).isEmpty && (d.fn (n + 1)).qLen == 0))

/-- Drive a connector's power; PWR_ON follows. -/
def setPower (n : Nat) (p : Bool) (d : Dev) : Dev :=
  if d.flag (aConn n) 2 == p then d else d |> setFlag (aConn n) 2 p |> emit (.pwrEn n p)

/-- PWR_EN of a connector and of the second one of its pair. -/
def setPowers (n : Nat) (p : Bool) (d : Dev) : Dev := d |> setPower n p |> when (d.paired n && n % 2 == 0) (setPower (n + 1) p)

/-- A fault with AUTO_OFF cuts the power and clears PWR_EN, in both blocks of a pair (R65, R70). -/
def cutPower (n : Nat) (d : Dev) : Dev :=
  d |> setFlag (aConnCtrl n) 0 false |> when (d.paired n) (setFlag (aConnCtrl (n + 1)) 0 false) |> setPowers n false

/-- PAIR written with another value than it has. When the pair is dissolved, HL2k+1_PWR_EN follows at once the PWR_EN that
block 2k+1 holds; a fault that stands on either connector with AUTO_OFF cuts both when it is formed (DESIGN CHOICE,
log 144). -/
def pairWrite (n : Nat) (pair : Bool) (d : Dev) : Dev :=
  if d.mayPair n pair then
    d |> setFlag (aHl n) 9 pair |> setFlag (aLinkStat n) 10 pair |> setFlag (aLinkStat (n + 1)) 10 pair
      |> setPower (n + 1) (if pair then d.flag (aConnCtrl n) 0 else d.flag (aConnCtrl (n + 1)) 0)
      |> when (pair && d.flag (aConnCtrl n) 3 && (d.flag (aConn n) 1 || d.flag (aConn (n + 1)) 1)) (cutPower n)
  else setFlag (aLinkStat n) 9 true d

/-- LINK_DISABLE changes: down as planned, or back to Detect. -/
def disableWrite (n : Nat) (dis : Bool) (d : Dev) : Dev := if dis then linkDown n 8 d else setHlState n 0 d

/-- A write to HL_LINK_CTRL. A refused PAIR leaves the write's other fields in force (DESIGN CHOICE, log 144). -/
def hlLinkCtrlWrite (n : Nat) (v : Word) (d : Dev) : Dev :=
  if d.secondOf n then d
  else
    let pair := v.getLsbD 9
    let dis := v.getLsbD 8
    d |> when (n % 2 == 0 && pair != d.flag (aHl n) 9) (pairWrite n pair)
      |> setFld (aHl n) 15 12 (maxSpeed (wbits v 15 12)) |> setFld (aHl n) 11 10 (wbits v 11 10)
      |> when (dis != d.flag (aHl n) 8) (fun d => d |> setFlag (aHl n) 8 dis |> disableWrite n dis)
      |> when (v.getLsbD 7 && !dis && d.dlUp n) (fun d => d |> emit (.link n 1) |> setHlState n 3)

/-- HL_LINK_CTRL_WRITE (R64). -/
def execHlLinkCtrlWrite (q : Requester) (n : Fin 32) (v : Word) (s : State) : Host.Outcome State Fault Refusal :=
  .next (s.atRegAll q (aHl n) fun _ d => hlLinkCtrlWrite n v d)

/-! ### The connector (R69-R71) -/

/-- RESUME: HOST_LOST slices become ACTIVE with no queue; a Slice Reset begun on one ends ACTIVE (R50). -/
def resumeSlices (n : Nat) (d : Dev) : Dev :=
  each (d.slicesOf n) (fun s d => match d.slice s with
    | none => d
    | some x =>
      if x.state = .hostLost then d |> clearQueues (.slice (fin 4096 s)) |> updSlice s fun x => { x with state := .active }
      else if x.state = .resetting && x.fromLost then updSlice s (fun x => { x with resumed := true }) d
      else d) d

/-- A write to CONN_CTRL. -/
def connCtrlWrite (n : Nat) (v : Word) (d : Dev) : Dev :=
  if d.secondOf n then d
  else
    let flt := d.flag (aConn n) 1 || (d.paired n && d.flag (aConn (n + 1)) 1)
    let refused := v.getLsbD 0 && flt && v.getLsbD 3
    let p := if refused then d.flag (aConnCtrl n) 0 else v.getLsbD 0
    d |> setFld (aConnCtrl n) 15 9 (wbits v 15 9) |> setFld (aConnCtrl n) 5 4 (wbits v 5 4)
      |> setFlag (aConnCtrl n) 3 (v.getLsbD 3) |> setFlag (aConnCtrl n) 0 p |> setPowers n p
      |> when (!v.getLsbD 0) (fun d => d |> setFlag (aConn n) 1 false |> when (d.paired n) (setFlag (aConn (n + 1)) 1 false))
      |> connSync n |> when (v.getLsbD 8 && d.dlUp n) (resumeSlices n)

/-- CONN_CTRL_WRITE (R69). -/
def execConnCtrlWrite (q : Requester) (n : Fin 32) (v : Word) (s : State) : Host.Outcome State Fault Refusal :=
  .next (s.atRegAll q (aHl n + 0x14) fun _ d => connCtrlWrite n v d)

/-- A down that is not planned: counted, Host Link Reset, flap protection (R74). -/
def unplannedDown (n : Nat) (d : Dev) : Dev :=
  let t := d.time
  let downs := t :: (d.link n).downs.filter (t < · + 1000000000)
  let hold := downs.length > 8
  d |> hlCount n 0x20 |> hostLinkReset n 0
    |> updLink n (fun x => { x with downSince := some t, downs := if hold then [] else downs
                                    holdSince := if hold then t else x.holdSince })
    |> when hold (fun d => d |> setFlag (aLinkStat n) 7 true |> hlCount n 0x28)

/-- Steps 2 and 3 of a removal (R76): a link that is up goes down unplanned; the function of one that LINK_DISABLE or L2
took down is reset now (R77, R450); a reset that began with the down stands. -/
def removalReset (n : Nat) (d : Dev) : Dev :=
  if d.dlUp n then unplannedDown n d
  else if (d.link n).resetting then d
  else hostLinkReset n (d.hlState n) d

/-- PRSNT changes. A loss declares surprise removal (R76, R77); a connector present at the end of the first debounce is
powered (R69). -/
def presenceChange (n : Nat) (p : Bool) (d : Dev) : Dev :=
  if d.flag (aConn n) 0 == p then d
  else
    let d := d |> setFlag (aConn n) 0 p |> connBit n 10
    if p then
      when (d.time ≤ 10000000 && !d.secondOf n) (fun d => d |> setFlag (aConnCtrl n) 0 true |> setPowers n true) d
    else
      let d := setFlag (aConn n) 1 false d
      if d.secondOf n then d else d |> removalReset n |> declareLost n

/-- PRESENCE_CHANGE (R69). -/
def execPresenceChange (n : Fin 32) (p : Bool) (s : State) : Host.Outcome State Fault Refusal :=
  .next (s.onDev fun _ d => presenceChange n p d)

/-- A power fault; with AUTO_OFF the power is cut, on both connectors of a pair (R65, R70). -/
def powerFault (n : Nat) (d : Dev) : Dev :=
  let m := if d.secondOf n then n - 1 else n
  d |> setFlag (aConn n) 1 true |> connBit n 12
    |> when (d.flag (aConnCtrl m) 3) (cutPower m)

/-- POWER_FAULT (R70). -/
def execPowerFault (n : Fin 32) (s : State) : Host.Outcome State Fault Refusal :=
  .next (s.onDev fun _ d => powerFault n d)

/-- ATTENTION_PRESS (R71). -/
def execAttentionPress (n : Fin 32) (s : State) : Host.Outcome State Fault Refusal :=
  .next (s.onDev fun _ d => if d.secondOf n then d else connBit n 11 d)

/-! ### PERST#, training, downs (R61, R72, R74, R76, R78) -/

/-- HLnn_PERST_N as CONN_STATUS reports it. -/
def setPerst (n : Nat) (p : Bool) (d : Dev) : Dev := d |> setFlag (aConn n) 3 p |> updLink n fun x => { x with perst := p }

/-- PERST# or a hot reset: a planned down and Host Link Reset. On the second link of a pair PERST# only shows in
CONN_STATUS (R65). Until training ends, STATE reads Detect after PERST# and Hot Reset after a hot reset (DESIGN CHOICE,
log 144). -/
def perstAssert (n : Nat) (hot : Bool) (d : Dev) : Dev :=
  let d := when (!hot) (setPerst n true) d
  if d.secondOf n || (hot && !d.dlUp n) then d else hostLinkReset n (if hot then 9 else 0) d

/-- PERST_ASSERT (R72). -/
def execPerstAssert (n : Fin 32) (hot : Bool) (s : State) : Host.Outcome State Fault Refusal :=
  .next (s.onDev fun _ d => perstAssert n hot d)

/-- PERST_DEASSERT (R72). -/
def execPerstDeassert (n : Fin 32) (s : State) : Host.Outcome State Fault Refusal :=
  .next (s.onDev fun _ d => setPerst n false d)

/-- The code of the widest width that a number of lanes allows. -/
def widthOf (lanes : Nat) : Nat :=
  if lanes ≥ 16 then 5 else if lanes ≥ 8 then 4 else if lanes ≥ 4 then 3 else if lanes ≥ 2 then 2 else if lanes = 1 then 1 else 0

/-- The width that HL_LINK_CTRL permits. -/
def Dev.widthLimit (d : Dev) (n : Nat) : Nat :=
  let m := d.fld (aHl n) 11 10
  if m = 0 then (if d.paired n then 5 else 4) else 4 - m

/-- The highest speed up to a bound that equalization has not excluded. -/
def bestSpeed (excluded : List Nat) : Nat → Nat
  | 0 => 1
  | s + 1 => if excluded.contains (s + 1) && s > 0 then bestSpeed excluded s else s + 1

/-- WAKE_N is released, and PM_PME follows, once the link is in L0 (R75, R102). -/
def wakeInL0 (n : Nat) (d : Dev) : Dev :=
  d |> when (d.link n).wakeSince.isSome (fun d => d |> updLink n (fun x => { x with wakeSince := none }) |> emit (.wakeN n false))
    |> when ((d.fn n).waking && (d.fn n).pmeStatus) (sendPme n)

/-- Training ends in L0 at the best speed and width (R61), no earlier than 30 ms after power good (R69; device time counts
from the release of the reset, log 1). -/
def trainingDone (n ps pw lanes : Nat) (flit : Bool) (d : Dev) : Dev :=
  let w := min (min pw (widthOf lanes)) (d.widthLimit n)
  if d.secondOf n || !d.mayTrain n || (d.dlUp n && d.hlState n != 3) || w = 0 || ps = 0 then d
  else
    let both := min ps (d.fld (aHl n) 15 12)
    let sp := bestSpeed (d.link n).excluded both
    let deg := sp < both || w < min pw (d.widthLimit n)
    d |> timeTo 30000000 |> setHlState n 4 |> setFld (aLinkStat n) 19 16 sp |> setFld (aLinkStat n) 15 13 w
      |> setFlag (aLinkStat n) 12 (sp == 6 || flit) |> setFlag (aLinkStat n) 8 deg |> when deg (hlCount n 0x24)
      |> updLink n (fun x => { x with fullWidth := w }) |> wakeInL0 n

/-- LINK_TRAINING_DONE (R61). -/
def execLinkTrainingDone (n : Fin 32) (ps pw lanes : Nat) (flit : Bool) (s : State) : Host.Outcome State Fault Refusal :=
  .next (s.onDev fun _ d => trainingDone n (min ps 6) (min pw 5) lanes flit d)

/-- Equalization fails; the third time, the speed is excluded until the next Detect. -/
def equalizationFail (n sp : Nat) (d : Dev) : Dev :=
  let k := mget 0 (d.link n).eqFails sp + 1
  if d.secondOf n then d
  else updLink n (fun x => { x with
    eqFails := mset 0 x.eqFails sp (if k ≥ 3 then 0 else k)
    excluded := if k ≥ 3 && !x.excluded.contains sp then x.excluded ++ [sp] else x.excluded }) d

/-- EQUALIZATION_FAIL (R61). -/
def execEqualizationFail (n : Fin 32) (sp : Nat) (s : State) : Host.Outcome State Fault Refusal :=
  .next (s.onDev fun _ d => equalizationFail n sp d)

/-- The link reaches DL_Active: a Host Link Reset ends, and with it parking (R102); RETURNED for HOST_LOST slices. -/
def dlActive (n : Nat) (d : Dev) : Dev :=
  if d.dlUp n || d.hlState n != 4 || d.secondOf n then d
  else
    let was := (d.link n).resetting
    let lost := (d.slicesOf n).any fun s => ((d.slice s).map (·.state)) == some .hostLost
    d |> setFlag (aLinkStat n) 11 true
      |> updLink n (fun x => { x with resetting := false, downSince := none })
      |> connBit n 9 |> when lost (connBit n 14) |> when was (unpark n) |> resumeHeld n

/-- DL_ACTIVE (R78). -/
def execDlActive (n : Fin 32) (s : State) : Host.Outcome State Fault Refusal :=
  .next (s.onDev fun _ d => dlActive n d)

/-- UNPLANNED_LINK_DOWN (R74). -/
def execUnplannedLinkDown (n : Fin 32) (s : State) : Host.Outcome State Fault Refusal :=
  .next (s.onDev fun _ d => if d.dlUp n then unplannedDown n d else d)

/-- FLAP_HOLD_END (R74): 1 s after the hold began. -/
def execFlapHoldEnd (n : Fin 32) (s : State) : Host.Outcome State Fault Refusal :=
  .next (s.onDev fun _ d =>
    if d.flag (aLinkStat n) 7 then d |> timeTo ((d.link n).holdSince + 1000000000) |> setFlag (aLinkStat n) 7 false else d)

/-- An unplanned down that no DL_Active follows within 10 ms (R76). -/
def surpriseRemoval (n : Nat) (d : Dev) : Dev := match (d.link n).downSince with
  | none => d
  | some t => if d.flag (aConn n) 0 && !d.dlUp n then d |> timeTo (t + 10000000) |> declareLost n else d

/-- SURPRISE_REMOVAL (R76). -/
def execSurpriseRemoval (n : Fin 32) (s : State) : Host.Outcome State Fault Refusal :=
  .next (s.onDev fun _ d => surpriseRemoval n d)

/-! ### Widths and L1 (R66-R68) -/

/-- The link carries traffic: L0 or L0p. -/
def Dev.inL0 (d : Dev) (n : Nat) : Bool := d.dlUp n && (d.hlState n == 4 || d.hlState n == 5)

/-- The width changes. -/
def setWidth (n w : Nat) (d : Dev) : Dev :=
  d |> setFld (aLinkStat n) 15 13 w |> setHlState n (if w = (d.link n).fullWidth then 4 else 5) |> hlCount n 0x44

/-- L0P_NARROW (R66): one step, not below MIN_WIDTH. -/
def l0pNarrow (n : Nat) (d : Dev) : Dev :=
  let w := d.fld (aLinkStat n) 15 13
  let least := min (d.fld (aHl n + 8) 9 8) 2 + 1
  if d.inL0 n && d.flag (aLinkStat n) 12 && d.flag (aHl n + 8) 16 && least < w then setWidth n (w - 1) d else d

/-- L0P_NARROW (R66). -/
def execL0pNarrow (n : Fin 32) (s : State) : Host.Outcome State Fault Refusal :=
  .next (s.onDev fun _ d => l0pNarrow n d)

/-- Full width is requested, again every 10 µs until granted (R67, R79). -/
def l0pWiden (n : Nat) (granted : Bool) (d : Dev) : Dev :=
  if !d.inL0 n || d.hlState n != 5 then d
  else
    let d := match (d.link n).widenAt with | some t => timeTo (t + 10000) d | none => d
    d |> emit (.link n 2) |> updLink n (fun x => { x with widenAt := if granted then none else some d.time })
      |> when granted (setWidth n (d.link n).fullWidth)

/-- L0P_WIDEN_REQUEST (R67). -/
def execL0pWidenRequest (n : Fin 32) (granted : Bool) (s : State) : Host.Outcome State Fault Refusal :=
  .next (s.onDev fun _ d => l0pWiden n granted d)

/-- The partner's request is accepted. -/
def partnerL0p (n w : Nat) (d : Dev) : Dev :=
  if !d.inL0 n || !d.flag (aLinkStat n) 12 || w = 0 || w > (d.link n).fullWidth then d
  else d |> emit (.link n 3) |> when (w != d.fld (aLinkStat n) 15 13) (setWidth n w)
         |> when (w == (d.link n).fullWidth) (updLink n fun x => { x with widenAt := none })

/-- PARTNER_L0P_REQUEST (R67). -/
def execPartnerL0pRequest (n : Fin 32) (w : Nat) (s : State) : Host.Outcome State Fault Refusal :=
  .next (s.onDev fun _ d => partnerL0p n w d)

/-- A TLP of the link waits to be sent: a packet, or a request of its function. -/
def Dev.pendingTlp (d : Dev) (n : Nat) : Bool := d.pkts.any (fun p => p.loc == .hostOut n) || !(d.fn n).xq.isEmpty

/-- L1_ENTRY (R68): ASPM is on and nothing is pending. -/
def execL1Entry (n : Fin 32) (s : State) : Host.Outcome State Fault Refusal :=
  .next (s.onDev fun _ d => if d.inL0 n && (d.fn n).aspm && !d.pendingTlp n then d |> emit (.link n 4) |> setHlState n 6 else d)

/-- L1_EXIT (R68). -/
def execL1Exit (n : Fin 32) (s : State) : Host.Outcome State Fault Refusal :=
  .next (s.onDev fun _ d =>
    if d.hlState n = 6 then setHlState n (if d.fld (aLinkStat n) 15 13 = (d.link n).fullWidth then 4 else 5) d else d)

/-- PME_TURN_OFF (R100): answered, then L2 as a planned down. -/
def execPmeTurnOff (n : Fin 32) (s : State) : Host.Outcome State Fault Refusal :=
  .next (s.onDev fun _ d =>
    if d.dlUp n then d |> emit (.pmeToAck n) |> linkDown n 7 else d)

/-! ### What partners do wrong (R79) -/

/-- FLIT_ERROR (R79): corrected and accepted, or discarded with a replay request. -/
def execFlitError (n : Fin 32) (corrected : Bool) (s : State) : Host.Outcome State Fault Refusal :=
  .next (s.onDev fun _ d =>
    if !d.dlUp n then d
    else if corrected then hlCount n 0x2C d
    else d |> hlCount n 0x30 |> emit (.link n 0) |> aerCor n (if d.flag (aLinkStat n) 12 then 0 else 6))

/-- BAD_DLLP (R79). -/
def execBadDllp (n : Fin 32) (s : State) : Host.Outcome State Fault Refusal :=
  .next (s.onDev fun _ d => if d.dlUp n then d |> hlCount n 0x3C |> aerCor n 7 else d)

/-- REPLAY_ROLLOVER (R79). -/
def execReplayRollover (n : Fin 32) (s : State) : Host.Outcome State Fault Refusal :=
  .next (s.onDev fun _ d =>
    if d.dlUp n then d |> hlCount n 0x34 |> aerCor n 8 |> emit (.link n 1) |> setHlState n 3 else d)

/-- RECEIVER_OVERFLOW (R79). -/
def execReceiverOverflow (n : Fin 32) (s : State) : Host.Outcome State Fault Refusal :=
  .next (s.onDev fun _ d => if d.dlUp n then d |> hlCount n 0x38 |> aerUnc n erOverflow false else d)

end Sys2Proof.Machine
end

