-- ==== Sys2Proof/Machine/Slices.lean ====
section
/-!
DEFINITION. Slices (02_slices.md): SLICE_CREATE and SLICE_QUOTA_SET over the pools of R43, Slice Reset, Slice Destroy,
METER_SNAPSHOT and the freeing of slices.
-/
namespace Sys2Proof.Machine

/-! ### Pools (R43) -/

/-- The quotas of the 280-byte parameter block. -/
structure Quotas where
  queues : Nat
  policers : Nat
  contexts : Nat
  eyelets : Nat
  subNodes : Nat
  wake : Nat
  weight : Nat
  caps : List Nat
deriving DecidableEq, Repr

def quotasOf (b : List Byte) : Quotas :=
  { queues := le b 8 2, policers := le b 10 2, contexts := le b 12 4, eyelets := le b 16 2, subNodes := le b 18 2
    wake := byteAt b 20, weight := byteAt b 1, caps := (List.range 64).map fun t => le b (24 + 4 * t) 4 }

/-- The field faults of the block, in ascending offset (R46): `own` is the slice of SLICE_QUOTA_SET. -/
def sliceFaults (own : Option Slice) (b : List Byte) (d : Dev) : List (Option (Nat × Nat)) :=
  let q := quotasOf b
  let f := byteAt b 0
  let same := fun v (g : Slice → Nat) => (own.map fun x => v != g x).getD false
  [bad (f ≥ 32) 0, if d.fnExists f then none else some (stBadParam, 0x200), bad (same f (·.fn)) 0, bad (q.weight == 0) 1,
   bad ((le b 2 2 > 511 && le b 2 2 != 0xFFFF) || same (le b 2 2) (·.lidx)) 2,
   bad (le b 4 4 ≥ 2 ^ 20 || same (le b 4 4) (·.pasid)) 4, bad (q.queues > 8192) 8, bad (q.policers > 4096) 10,
   bad (q.contexts > 1048576) 12, bad (q.eyelets > 4096) 16, bad (q.subNodes > 256) 18, bad (q.wake > 16) 20,
   bad (!zeroAt b 21 3) 21]

/-- Context and policer blocks of the other slices, and the sums of the counted pools. -/
def Dev.ctxBlocks (d : Dev) (s : Nat) : List (Nat × Nat) :=
  (d.slices.filter fun e => e.1 != s).map fun e => (e.2.cBase, e.2.cLen)
def Dev.polBlocks (d : Dev) (s : Nat) : List (Nat × Nat) :=
  (d.slices.filter fun e => e.1 != s).map fun e => (e.2.pBase, e.2.pLen)
def Dev.sumSlices (d : Dev) (s : Nat) (g : Slice → Nat) : Nat :=
  (d.slices.filter fun e => e.1 != s).foldl (fun n e => n + g e.2) 0

/-- Wake slots of a function that are free for slices, and those that a slice owns, highest-numbered first (R105). -/
def Dev.wakeFree (d : Dev) (f : Nat) : List Nat :=
  (List.range 16).reverse.filter fun n => !d.flag (aWp f n + 0x14) 15 && !d.flag (aWp f n + 0x14) 0
def Dev.wakeOwned (d : Dev) (f lidx : Nat) : List Nat :=
  (List.range 16).reverse.filter fun n => d.flag (aWp f n + 0x14) 15 && d.fld (aWp f n + 0x14) 25 16 == lidx

/-- A wake slot set to Init. -/
def wakeInit (f n : Nat) (d : Dev) : Dev := each (List.range 6) (fun i => setReg (aWp f n + 4 * i) 0) d
/-- A wake slot handed to a slice. -/
def wakeHand (f lidx n : Nat) (d : Dev) : Dev :=
  d |> wakeInit f n |> setFld (aWp f n + 0x14) 25 16 lidx |> setFlag (aWp f n + 0x14) 15 true

/-- The pools that fall short, in the order of R43, with the bases of the blocks; `x` is the slice before the change. -/
def poolFaults (s : Nat) (x : Slice) (q : Quotas) (d : Dev) : List (Option (Nat × Nat)) :=
  let short := fun (c : Bool) code => if c then some (stNoResource, code) else none
  [short (q.queues > x.qLen && (resize 1048576 (d.queueBlocks (some s) none) x.qBase x.qLen q.queues).isNone) 1,
   short (q.contexts > x.cLen && (resize 16777216 (d.ctxBlocks s) x.cBase x.cLen q.contexts).isNone) 2,
   short (q.subNodes > x.subNodes && d.sumSlices s (·.subNodes) + q.subNodes > 32768) 3,
   short (q.policers > x.pLen && (resize 262144 (d.polBlocks s) x.pBase x.pLen q.policers).isNone) 4,
   short (q.eyelets > x.eyelets && d.sumSlices s (·.eyelets) + q.eyelets > 65536) 5,
   short (q.wake > x.wake && (d.wakeFree x.fn).length < q.wake - x.wake) 6]

/-- The slice with its quotas set. -/
def applyQuotas (s : Nat) (q : Quotas) (d : Dev) (x : Slice) : Slice :=
  let base := fun (o : Option Nat) => o.getD 0
  { x with
    weight := q.weight, qLen := q.queues, cLen := q.contexts, pLen := q.policers, subNodes := q.subNodes
    eyelets := q.eyelets, wake := q.wake, caps := q.caps
    qBase := base (resize 1048576 (d.queueBlocks (some s) none) x.qBase x.qLen q.queues)
    cBase := base (resize 16777216 (d.ctxBlocks s) x.cBase x.cLen q.contexts)
    pBase := base (resize 262144 (d.polBlocks s) x.pBase x.pLen q.policers) }

/-- The result words of SLICE_CREATE and SLICE_QUOTA_SET (R46). -/
def sliceWords (s : Nat) (d : Dev) : List Nat := match d.slice s with
  | some x => [s + x.lidx * 65536, x.qBase, x.cBase, 0]
  | none => []

/-! ### SLICE_CREATE (R46) -/

/-- Take what a new slice needs; its numbers are chosen where the command leaves them to the adapter. -/
def sliceMake (r : Ring) (s lidx : Nat) (b : List Byte) (d : Dev) : Dev :=
  let f := byteAt b 0
  let q := quotasOf b
  let x : Slice := { state := .active, fn := f, pasid := le b 4 4, lidx := lidx, weight := q.weight }
  checks r (poolFaults s x q d) (fun d =>
    let o : Owner := .slice (fin 4096 s)
    let y := applyQuotas s q d x
    let free := (d.wakeFree f).take q.wake
    { d with slices := mput d.slices s y, owners := mdel d.owners (ownerKey o), rings := mdel d.rings (ringKey (.slice (fin 4096 s))) }
      |> each free (wakeHand f lidx) |> fun d => reply r stOk 0 (sliceWords s d) d) d

/-- A local index of a function is in use. -/
def Dev.lidxUsed (d : Dev) (f i : Nat) : Bool := d.slices.any fun e => e.2.fn == f && e.2.lidx == i

def sliceCreate (r : Ring) (e : Exec) (b : List Byte) (d : Dev) : Dev :=
  let f := byteAt b 0
  let l := le b 2 2
  checks r ([if e.slice ≥ 4096 && e.slice != 0xFFFF then some (stBadParam, 0x8008) else none] ++ sliceFaults none b d ++
            [if (d.slice e.slice).isSome then some (stExists, 0) else none,
             if l != 0xFFFF && d.lidxUsed f l then some (stExists, 2) else none,
             if d.slices.any (fun x => x.2.fn == f && x.2.pasid == le b 4 4) then some (stExists, 0x100) else none]) (fun d =>
    let n := if e.slice = 0xFFFF then pickFree 4096 (fun s => (d.slice s).isSome) d else (some e.slice, d)
    let i := if l = 0xFFFF then pickFree 512 (d.lidxUsed f) n.2 else (some l, n.2)
    match n.1, i.1 with
    | none, _ => reply r stNoResource 8 [] d
    | _, none => reply r stNoResource 9 [] d
    | some s, some lidx => sliceMake r s lidx b i.2) d

/-- SLICE_CREATE (R46). -/
def execSliceCreate (r : Ring) (p : Read) (s : State) : Host.Outcome State Fault Refusal :=
  .next (s.onDev fun _ d => command r 0x0101 p (sliceCreate r) d)

/-! ### SLICE_QUOTA_SET (R46, R47) -/

/-- The context whose home cell a key of the memories is. -/
def ctxOfKey (k : Nat) : Option Nat :=
  if 8 * 2 ^ 40 ≤ k && k < 12 * 2 ^ 40 && k % 2 ^ 40 < 2 ^ 30 then some (k % 2 ^ 40 / 256 * 4 + (k / 2 ^ 40 - 8)) else none

/-- Contexts [b, b + n) cleared to zero. -/
def clearContexts (b n : Nat) (d : Dev) : Dev :=
  let hit := fun k => ((ctxOfKey k).map fun c => decide (b ≤ c ∧ c < b + n)).getD false
  { d with mem := mkeep d.mem fun k _ => !hit k
           chk := mkeep d.chk fun k _ => !hit (k * 8)
           ctxCache := mmap d.ctxCache fun _ l => l.filter fun c => !(b ≤ c && c < b + n)
           placing := mkeep d.placing fun c _ => !(b ≤ c && c < b + n) }

/-- The highest slice-local number of a context that is not empty or has a VALID placement table, plus 1. -/
def Dev.ctxTop (d : Dev) (x : Slice) : Nat :=
  topOf (d.mem.filterMap fun e => match ctxOfKey e.1 with
    | some c =>
      let used := if e.1 % 256 = 0 then e.2.toNat != 0 else e.1 % 256 == 105 && e.2.getLsbD 0 && !d.ptOff.contains c
      if used && x.cBase ≤ c && c < x.cBase + x.cLen then some (c - x.cBase) else none
    | none => none)

/-- The highest slice-local policer with ENABLE, and the highest bound node, plus 1. -/
def Dev.polTop (d : Dev) (x : Slice) : Nat :=
  topOf (d.policers.filterMap fun e =>
    if e.2.enable && x.pBase ≤ e.1 && e.1 < x.pBase + x.pLen then some (e.1 - x.pBase) else none)
def Dev.nodeTop (d : Dev) (s : Nat) (x : Slice) : Nat :=
  topOf ((List.range x.subNodes).filter fun n => (d.node (.slice (fin 4096 s) (fin 256 n))).bound.isSome)

/-- Lowered quotas below the items in use (R47), in ascending offset. -/
def lowerFaults (s : Nat) (x : Slice) (q : Quotas) (d : Dev) : List (Option (Nat × Nat)) :=
  let idle := (d.wakeOwned x.fn x.lidx).filter fun n => !d.flag (aWp x.fn n + 0x14) 0
  [bad (q.queues < x.qLen && q.queues < topOf (d.queuesOf (.slice (fin 4096 s)))) 8,
   bad (q.policers < x.pLen && q.policers < d.polTop x) 10, bad (q.contexts < x.cLen && q.contexts < d.ctxTop x) 12,
   bad (q.eyelets < x.eyelets && q.eyelets < (d.eyeletsOf s).length) 16,
   bad (q.subNodes < x.subNodes && q.subNodes < d.nodeTop s x) 18,
   bad (q.wake < x.wake && idle.length < x.wake - q.wake) 20]

/-- Policers [b, b + n) as after Device Reset. -/
def clearPolicers (b n : Nat) (d : Dev) : Dev :=
  { d with policers := mkeep d.policers fun i _ => !(b ≤ i && i < b + n) }

/-- Nodes of a slice from number n on, as after Device Reset. -/
def clearNodes (s n len : Nat) (d : Dev) : Dev :=
  each ((List.range len).filter (n ≤ ·)) (fun i => forgetNode (.slice (fin 4096 s) (fin 256 i))) d

/-- Everything a quota change gives back or takes. -/
def quotaApply (s : Nat) (x : Slice) (q : Quotas) (d : Dev) : Dev :=
  let y := applyQuotas s q d x
  let idle := (d.wakeOwned x.fn x.lidx).reverse.filter fun n => !d.flag (aWp x.fn n + 0x14) 0
  d |> clearContexts (x.cBase + q.contexts) (x.cLen - q.contexts)
    |> clearPolicers (x.pBase + q.policers) (x.pLen - q.policers)
    |> clearNodes s q.subNodes x.subNodes
    |> each (idle.take (x.wake - q.wake)) (wakeInit x.fn)
    |> each ((d.wakeFree x.fn).take (q.wake - x.wake)) (wakeHand x.fn x.lidx)
    |> updSlice s fun _ => y

def sliceQuotaSet (r : Ring) (e : Exec) (b : List Byte) (d : Dev) : Dev := match d.slice e.slice with
  | none => reply r stNotFound 0 [] d
  | some x =>
    let q := quotasOf b
    checks r (sliceFaults (some x) b d ++ lowerFaults e.slice x q d ++ poolFaults e.slice x q d) (fun d =>
      d |> quotaApply e.slice x q |> fun d => reply r stOk 0 (sliceWords e.slice d) d) d

/-- SLICE_QUOTA_SET (R46, R47). -/
def execSliceQuotaSet (r : Ring) (p : Read) (s : State) : Host.Outcome State Fault Refusal :=
  .next (s.onDev fun _ d => command r 0x0102 p (sliceQuotaSet r) d)

/-! ### Slice Reset (R51, R52) -/

/-- Rings that execute a command for slice s. -/
def Dev.ringsFor (d : Dev) (s : Nat) : List Ring :=
  (d.rings.filter fun e => (e.2.exec.map (·.slice)) == some s).map fun e => ringOfKey e.1

/-- The reset begins: fetch stops, and commands for the slice that have changed nothing end with SLICE_RESET. -/
def resetBegin (r : Ring) (s : Nat) (x : Slice) (d : Dev) : Dev :=
  let lost := x.state == .hostLost
  let idle := (d.ringsFor s).filter fun q => q != r && !(((d.ring q).exec.map (·.begun)).getD false)
  d |> updSlice s (fun x => { x with state := .resetting, fromLost := lost, resumed := false, resetWaits := x.resetWaits ++ [r] })
    |> begin' r |> each idle fun q => reply q stSliceReset 0 []

/-- What SLICE_RESET starts. A header SLICE of 0xFFFF names no slice and is answered NOT_FOUND (DESIGN CHOICE, log 150). -/
def sliceReset (r : Ring) (e : Exec) (d : Dev) : Dev := match d.slice e.slice with
  | none => reply r stNotFound 0 [] d
  | some x =>
    if x.state = .resetting then d |> updSlice e.slice (fun x => { x with resetWaits := x.resetWaits ++ [r] }) |> begin' r
    else resetBegin r e.slice x d

/-- SLICE_RESET (R51). -/
def execSliceReset (r : Ring) (p : Read) (s : State) : Host.Outcome State Fault Refusal :=
  .next (s.onDev fun _ d => command r 0x0103 p (fun e _ => sliceReset r e) d)

/-- Device time reaches the last staged update. -/
def settleUpdates (d : Dev) : Dev := match d.updates.getLast? with
  | some u => timeTo u.apply d
  | none => d

/-- Steps 2 and 3 of R51: jobs end with SLICE_RESET, segments into its eyelets with ABORTED; owned entries, contexts and
eyelets go. Quotas stay. -/
def sliceTeardown (s : Nat) (x : Slice) (d : Dev) : Dev :=
  let o : Owner := .slice (fin 4096 s)
  d |> each (d.queuesOf o) (fun q d => abortJobs o q stSliceReset (((d.queue o q).map (·.jobs.length)).getD 0) d)
    |> abortFlights (fun y _ => y.exporter == s) stAborted
    |> tablesStop (· == s) |> deleteOwned s
    |> (fun d => each (d.eyeletsOf s) (fun h d =>
        if ((d.eyelet h).bind (·.rewrite)).isSome then d else stageWindow h none none d) d)
    |> settleUpdates |> clearContexts x.cBase x.cLen |> clearQueues o |> rssClear o

/-- Commands for the slice that have begun elsewhere reply before step 3. -/
def Dev.sliceBusy (d : Dev) (s : Nat) (x : Slice) : Bool :=
  (d.ringsFor s).any fun q => !x.resetWaits.contains q && x.destroyer != some q && ((d.ring q).exec.map (·.begun)).getD false

/-- The destroy that froze the slice replies with its freeze point. -/
def destroyReply (s : Nat) (d : Dev) : Dev := match d.slice s with
  | none => d
  | some x =>
    let d := updSlice s (fun x => { x with destroyer := none, tearing := false }) d
    match x.destroyer, x.frozen with
    | some r, some a => reply r stOk 0 [lo32 a, hi32 a] d
    | _, _ => d

/-- Step 4: the state, and the replies of every reset that joined; a destroy that froze the slice meanwhile replies too. -/
def resetEnd (s : Nat) (x : Slice) (d : Dev) : Dev :=
  let st := fun (y : Slice) => if y.state = .closing then .closing else if y.fromLost && !y.resumed then .hostLost else .active
  let closing := x.state == .closing
  d |> sliceTeardown s x |> (if closing then pairReset (.slice (fin 4096 s)) else sideReset ⟨.slice (fin 4096 s), false⟩)
    |> updSlice s (fun y => { y with state := st y, fromLost := false, resumed := false, resetWaits := [] })
    |> each x.resetWaits (fun r => reply r stOk 0 [])
    |> when closing (fun d => d |> destroyReply s |> forgetRing (.slice (fin 4096 s)))

def sliceResetDone (s : Nat) (d : Dev) : Dev := match d.slice s with
  | none => d
  | some x =>
    if (x.state = .resetting || (x.state = .closing && !x.resetWaits.isEmpty)) && !d.sliceBusy s x then resetEnd s x d else d

/-- SLICE_RESET_DONE (R51). -/
def execSliceResetDone (sl : Fin 4096) (s : State) : Host.Outcome State Fault Refusal :=
  .next (s.onDev fun _ d => sliceResetDone sl d)

/-! ### Slice Destroy (R53) -/

/-- The freeze point is assigned. A header SLICE of 0xFFFF is answered as in SLICE_RESET (DESIGN CHOICE, log 150). -/
def sliceDestroy (r : Ring) (e : Exec) (d : Dev) : Dev := match d.slice e.slice with
  | none => reply r stNotFound 0 [] d
  | some _ => d |> updSlice e.slice (fun x => { x with destroyer := some r }) |> begin' r |> stage (.freeze e.slice) []

/-- SLICE_DESTROY (R53). -/
def execSliceDestroy (r : Ring) (p : Read) (s : State) : Host.Outcome State Fault Refusal :=
  .next (s.onDev fun _ d => command r 0x0104 p (fun e _ => sliceDestroy r e) d)

def sliceDestroyDone (s : Nat) (d : Dev) : Dev := match d.slice s with
  | none => d
  | some x =>
    if x.state = .closing && x.tearing && x.resetWaits.isEmpty && !d.sliceBusy s x then
      d |> sliceTeardown s x |> pairReset (.slice (fin 4096 s)) |> destroyReply s |> forgetRing (.slice (fin 4096 s))
    else d

/-- SLICE_DESTROY_DONE (R53). -/
def execSliceDestroyDone (sl : Fin 4096) (s : State) : Host.Outcome State Fault Refusal :=
  .next (s.onDev fun _ d => sliceDestroyDone sl d)

/-! ### METER_SNAPSHOT and the freeing of slices (R54, R57, R58) -/

/-- METER_SNAPSHOT (R57): the bank is written once the apply point is reached. Its header SLICE is judged as any other
command's: R45 asks for 0xFFFF and answers nothing else (DESIGN CHOICE, log 150). -/
def execMeterSnapshot (r : Ring) (p : Read) (s : State) : Host.Outcome State Fault Refusal :=
  .next (s.onDev fun _ d => command r 0x0110 p (fun _ b =>
    checks r [bad (byteAt b 0 > 1) 0] fun d => d |> begin' r |> stage (.snapshot (bit (byteAt b 0) 0) r) []) d)

/-- STATUS of a slice (R58). -/
def statusByte (x : Slice) : Nat := match x.state with
  | .active => 1
  | .resetting => 2
  | .hostLost => 3
  | .closing => 4

/-- Whether a snapshot at A frees the slice (R54). -/
def Slice.frees (x : Slice) (a : Nat) : Bool := match x.frozen with
  | some f => x.state == .closing && a ≥ f + x.ageMax * 1000 + 10000
  | none => false

/-- The 8 bytes of STATUS and the 128 of METER for a slice number. -/
def statusBytes (m : Map Slice) (a s : Nat) : List Byte := match mfind m s with
  | none => leBytes 8 0
  | some x => leBytes 1 (statusByte x) ++ leBytes 1 (b2n (x.frees a)) ++ leBytes 2 x.fn ++ leBytes 4 x.pasid
def meterBytes (m : Map Slice) (s : Nat) : List Byte :=
  (List.range 16).flatMap fun i => leBytes 8 (((mfind m s).map fun x => mget 0 x.meters i).getD 0)

/-- Free a slice: its items return to their pools, its number and index are free (R54, R55). -/
def freeSlice (s : Nat) (d : Dev) : Dev := match d.slice s with
  | none => d
  | some x =>
    let o : Owner := .slice (fin 4096 s)
    let d := d |> clearContexts x.cBase x.cLen |> clearPolicers x.pBase x.pLen |> clearNodes s 0 x.subNodes
      |> each (d.wakeOwned x.fn x.lidx) (wakeInit x.fn) |> clearQueues o |> pairReset (.slice (fin 4096 s)) |> forgetImporter s
    { d with slices := mdel d.slices s, owners := mdel d.owners (ownerKey o), rings := mdel d.rings (ringKey (.slice (fin 4096 s))) }

/-- Write the bank of a snapshot in the order of R57. -/
def writeBank (bank : Bool) (a : Nat) (m : Map Slice) (d : Dev) : Dev :=
  let at' := bankBase bank
  d |> writeHbm (at' + 0x3F) (leBytes 1 0) false
    |> writeHbm (at' + 0x1000) ((List.range 4096).flatMap (statusBytes m a)) false
    |> writeHbm (at' + 0x9000) ((List.range 4096).flatMap (meterBytes m)) false
    |> writeHbm at' (leBytes 8 d.snapSeq ++ leBytes 8 a ++ leBytes 4 4096 ++ leBytes 4 (b2n bank) ++ leBytes 39 0) false
    |> writeHbm (at' + 0x40) (leBytes 0xFC0 0) false
    |> writeHbm (at' + 0x3F) (leBytes 1 1) false

def snapshotBankWrite (d : Dev) : Dev := match d.snap with
  | none => d
  | some (bank, a, r, m) =>
    let gone := (m.filter fun e => e.2.frees a).map (·.1)
    let d := { d with snap := none, snapSeq := d.snapSeq + 1 }
    let h := bankBase bank
    d |> writeBank bank a m |> each gone freeSlice |> reply r stOk 0 [lo32 a, hi32 a, lo32 h, hi32 h, gone.length]

/-- SNAPSHOT_BANK_WRITE (R57). -/
def execSnapshotBankWrite (s : State) : Host.Outcome State Fault Refusal :=
  .next (s.onDev fun _ d => snapshotBankWrite d)

end Sys2Proof.Machine
end

