-- ==== Sys2Proof/Machine/Macsec.lean ====
section
/-!
DEFINITION. MACsec on line ports (R304-R308): the SecTAG and the GCM ciphers of IEEE Std 802.1AE-2018 (PRESUMED, log 38),
protection on transmit, validation on receive, and the SA commands.
-/
namespace Sys2Proof.Machine

/-! ### SA records and registers (R305, R306) -/

def aMsCtrl (p : Nat) : Nat := aLp (p / 4) + 0x8000 + 4 * (p % 4)
def aMsWindow (p : Nat) : Nat := aLp (p / 4) + 0x8010 + 4 * (p % 4)
def aMsCmd (g : Nat) : Nat := aLp g + 0x8020
def aMsStatus (g : Nat) : Nat := aLp g + 0x8024
def aMsData (g i : Nat) : Nat := aLp g + 0x8040 + 4 * i
def msCount (p off : Nat) (d : Dev) : Dev := count (aLp (p / 4) + 0x8100 + 0x40 * (p % 4) + off) d

def saValid (r : List Byte) : Bool := bit (byteAt r 4) 0
def saSci (r : List Byte) : List Byte := bytesAt r 8 8
def saPn (r : List Byte) : Nat := le r 16 8
def saKey (r : List Byte) : List Byte := bytesAt r 40 32
def Dev.xpn (d : Dev) (p : Nat) : Bool := d.flag (aMsCtrl p) 30

/-- The 96-bit nonce of a packet number. -/
def msIv (xpn : Bool) (r : List Byte) (pn : Nat) : Nat :=
  if xpn then beNat (bytesAt r 28 12) ^^^ (beNat (bytesAt r 24 4) * 2 ^ 64 + pn) else beNat (saSci r) * 2 ^ 32 + pn % 2 ^ 32

/-! ### Transmit (R304, R307) -/

/-- The SecTAG: EtherType, TCI and AN, SL, the low half of PN, and the SCI when it is included. -/
def secTag (protect sci : Bool) (an len pn : Nat) (r : List Byte) : List Byte :=
  let tci := an + (if protect then 12 else 0) + (if sci then 32 else 0)
  beBytes 2 0x88E5 ++ beBytes 1 tci ++ beBytes 1 (if len < 48 then len else 0) ++ beBytes 4 (pn % 2 ^ 32) ++ if sci then saSci r else []

/-- Protect a frame without FCS: its SecTAG, its data encrypted or only authenticated, and the ICV. -/
def msSeal (xpn protect sci : Bool) (an : Nat) (r b : List Byte) : List Byte :=
  let user := b.drop 12
  let head := b.take 12 ++ secTag protect sci an user.length (saPn r) r
  if protect then
    let x := gcmSeal (saKey r) (msIv xpn r (saPn r)) head user
    head ++ x.1 ++ x.2
  else head ++ user ++ (gcmSeal (saKey r) (msIv xpn r (saPn r)) (head ++ user) []).2

/-- MS_PN is raised when the PN passes its threshold (R307). -/
def msPn (p an pn : Nat) (d : Dev) : Dev :=
  let past := if d.xpn p then pn > 2 ^ 62 else pn > 0xC0000000
  when (past && !(d.port p).msWarned.contains an)
    (fun d => d |> updPort p (fun x => { x with msWarned := x.msWarned ++ [an] }) |> raise 0x09 p an 0) d

/-- Whether a frame is MACsec's to protect on a port. -/
def Dev.msProtects (d : Dev) (p : Nat) (b : List Byte) : Bool := d.flag (aMsCtrl p) 31 && be b 12 2 != 0x888E

/-- The protected frame; none when the SA is exhausted or there is no valid SA for TX_AN (log 39). -/
def msTransmit (p : Nat) (b : List Byte) (d : Dev) : Option (List Byte) × Dev :=
  let c := d.reg (aMsCtrl p)
  let an := wbits c 17 16
  match mfind (d.port p).msTx an with
  | none => (none, d)
  | some r =>
    let pn := saPn r
    if !saValid r then (none, d)
    else if pn ≥ (if d.xpn p then 2 ^ 64 - 1 else 0xFFFFFFFF) then (none, msCount p 4 d)
    else
      (some (msSeal (d.xpn p) (c.getLsbD 29) (c.getLsbD 28) an r b),
       d |> updPort p (fun x => { x with msTx := mput x.msTx an (putLe r 16 8 (pn + 1)) }) |> msCount p 0 |> msPn p an pn)

/-! ### Receive (R307) -/

/-- What MACsec leaves of a received frame without FCS: dropped, or delivered, with MACSEC_OK or not. -/
inductive MsRx where
  | drop
  | pass (b : List Byte) (ok : Bool)
deriving DecidableEq, Repr

/-- A received SecTAG: the secure data and ICV begin at `start`. -/
structure RxTag where
  tci : Nat
  sl  : Nat
  pn  : Nat
  start : Nat
deriving DecidableEq, Repr

def rxTagOf (b : List Byte) : RxTag :=
  let t := byteAt b 14
  { tci := t, sl := byteAt b 15, pn := be b 16 4, start := if bit t 5 then 28 else 20 }

/-- The SecTAG keeps the rules of IEEE Std 802.1AE-2018, 9.12. A PN field of 0 breaks them but for an extended PN, whose low
half it is. -/
def RxTag.good (t : RxTag) (xpn : Bool) (n : Nat) : Bool :=
  let data := n - t.start - 16
  !bit t.tci 7 && (xpn || t.pn != 0) && t.start + 16 ≤ n && t.sl < 48 && !(bit t.tci 5 && (bit t.tci 6 || bit t.tci 4)) &&
  !(bit t.tci 3 && !bit t.tci 2) && (if t.sl = 0 then data ≥ 48 else data ≥ t.sl)

/-- End of the secure data: SL bytes, or all but the ICV. -/
def RxTag.fin (t : RxTag) (n : Nat) : Nat := if t.sl = 0 then n - 16 else t.start + t.sl

/-- The SCI that a SecTAG stands for, none when it leaves it to the one peer. -/
def RxTag.sci (t : RxTag) (b : List Byte) : Option (List Byte) :=
  if bit t.tci 5 then some (bytesAt b 20 8)
  else if bit t.tci 6 then some (bytesAt b 6 6 ++ beBytes 2 (if bit t.tci 4 then 0 else 1))
  else none

/-- The receive SA of a frame: its slot and record. -/
def rxSa (m : Map (List Byte)) (t : RxTag) (b : List Byte) : Option (Nat × List Byte) :=
  m.find? fun e => e.1 % 4 == t.tci % 4 && saValid e.2 && (match t.sci b with | some s => saSci e.2 == s | none => true)

/-- The packet number in full: with XPN, the high half is recovered from the lowest acceptable one. -/
def fullPn (xpn : Bool) (low pn : Nat) : Nat :=
  if !xpn then pn
  else
    let h := low / 2 ^ 32
    let l := low % 2 ^ 32
    (if pn < l && bit l 31 && !bit pn 31 then h + 1 else h) * 2 ^ 32 + pn

/-- A frame with a good SecTAG and a valid SA. -/
def msOpen (p : Nat) (k : Nat) (r b : List Byte) (t : RxTag) (d : Dev) : MsRx × Dev :=
  let xpn := d.xpn p
  let pn := fullPn xpn (saPn r) t.pn
  let strict := d.fld (aMsCtrl p) 27 26 != 1
  let fin := t.fin b.length
  let head := b.take t.start
  let data := (b.take fin).drop t.start
  let icv := bytesAt b fin 16
  let enc := bit t.tci 3
  let x := if enc then gcmOpen (saKey r) (msIv xpn r pn) head data icv
    else (data, (gcmOpen (saKey r) (msIv xpn r pn) (head ++ data) [] icv).2)
  if d.flag (aMsCtrl p) 25 && pn < saPn r then (.drop, msCount p 0x18 d)
  else if !x.2 then
    if strict || enc then (.drop, msCount p 0x14 d) else (.pass (b.take 12 ++ data) false, msCount p 0x1C d)
  else
    let low := max (saPn r) (pn - (d.reg (aMsWindow p)).toNat)
    (.pass (b.take 12 ++ x.1) true,
     d |> updPort p (fun y => { y with msRx := mput y.msRx k (putLe r 16 8 low) }) |> msCount p 8)

/-- R307 for a received frame without FCS. -/
def msReceive (p : Nat) (b : List Byte) (d : Dev) : MsRx × Dev :=
  let v := d.fld (aMsCtrl p) 27 26
  if !d.flag (aMsCtrl p) 31 || v = 0 then (.pass b false, d)
  else if be b 12 2 != 0x88E5 then
    if be b 12 2 = 0x888E then (.pass b false, d)
    else if v = 1 then (.pass b false, msCount p 0xC d) else (.drop, msCount p 0xC d)
  else
    let t := rxTagOf b
    if !t.good (d.flag (aMsCtrl p) 30) b.length then (.drop, msCount p 0x20 d)
    else match rxSa (d.port p).msRx t b with
      | none => (if v = 1 && !bit t.tci 3 then .pass b false else .drop, msCount p 0x10 d)
      | some (k, r) => msOpen p k r b t d

/-! ### SA commands (R305, R306) -/

/-- The record in MS_DATA. -/
def msRecord (g : Nat) (d : Dev) : List Byte := (List.range 20).flatMap fun i => leBytes 4 (d.reg (aMsData g i)).toNat

/-- The first of the record's fields that is at fault. -/
def saFault (whole : Bool) (r : List Byte) : Option Nat :=
  if byteAt r 0 > 1 then some 0
  else if byteAt r 1 > 3 then some 1
  else if byteAt r 2 > 7 || (byteAt r 0 = 0 && byteAt r 2 != 0) then some 2
  else if byteAt r 3 > 3 then some 3
  else if !whole then none
  else if byteAt r 4 > 1 then some 4
  else if !zeroAt r 5 3 then some 5
  else if !zeroAt r 72 8 then some 72 else none

def msResult (g st det : Nat) (d : Dev) : Dev := setReg (aMsStatus g) (word (st + det * 256)) d

/-- The slot that a record names, and its record. -/
def saSlot (g : Nat) (r : List Byte) (d : Dev) : Option (List Byte) :=
  let x := d.port (4 * g + byteAt r 1)
  if byteAt r 0 = 0 then mfind x.msTx (byteAt r 3) else mfind x.msRx (4 * byteAt r 2 + byteAt r 3)

/-- Change the slot. -/
def saStore (g : Nat) (r : List Byte) (v : Option (List Byte)) (d : Dev) : Dev :=
  let put := fun (m : Map (List Byte)) k => match v with | some x => mput m k x | none => mdel m k
  updPort (4 * g + byteAt r 1) (fun x =>
    if byteAt r 0 = 0 then { x with msTx := put x.msTx (byteAt r 3), msWarned := x.msWarned.filter (· != byteAt r 3) }
    else { x with msRx := put x.msRx (4 * byteAt r 2 + byteAt r 3) }) d

/-- Run an SA operation: the record's fields are judged first. -/
def msRun (g : Nat) (whole : Bool) (go : List Byte → Dev → Dev) (d : Dev) : Dev :=
  let r := msRecord g d
  match saFault whole r with
  | some o => msResult g stBadParam o d
  | none => go r d

/-- Store the record; one without VALID invalidates its slot. -/
def msWrite (g : Nat) (d : Dev) : Dev :=
  msRun g true (fun r d => d |> saStore g r (if saValid r then some r else none) |> msResult g stOk 0) d

/-- The record as it stands, its key read as 0. -/
def msRead (g : Nat) (d : Dev) : Dev :=
  msRun g false (fun r d => match saSlot g r d with
    | none => msResult g stNotFound 0 d
    | some x =>
      let y := putBytes x 40 (leBytes 32 0)
      d |> each (List.range 20) (fun i => setReg (aMsData g i) (word (le y (4 * i) 4))) |> msResult g stOk 0) d

def msInvalidate (g : Nat) (d : Dev) : Dev :=
  msRun g false (fun r d => match saSlot g r d with
    | none => msResult g stNotFound 0 d
    | some _ => d |> saStore g r none |> msResult g stOk 0) d

/-- Whether an operation is in progress. -/
def Dev.msBusy (d : Dev) (g : Nat) : Bool := d.flag (aMsCmd g) 31

/-- GO starts an operation; while one is in progress the write is ignored and counted (R305). -/
def msGo (g op : Nat) (d : Dev) : Dev :=
  if d.msBusy g then badAccess d
  else d |> setFlag (aMsCmd g) 31 true |> setFld (aMsCmd g) 1 0 op |> msResult g stPending 0

/-- The operation in progress takes effect between two frames of the port (R306): ahead of the group's next frame, or when time
passes with no command waiting (DESIGN CHOICE, log 146). OP 0 is answered BAD_PARAM. -/
def msSettle (g : Nat) (d : Dev) : Dev :=
  if !d.msBusy g then d
  else
    let op := d.fld (aMsCmd g) 1 0
    d |> setFlag (aMsCmd g) 31 false
      |> (if op = 1 then msWrite g else if op = 2 then msRead g else if op = 3 then msInvalidate g else msResult g stBadParam 0)

/-- MS_WRITE_SA (R306). -/
def execMsWriteSa (q : Requester) (g : Fin 32) (s : State) : Host.Outcome State Fault Refusal :=
  .next (s.atRegAll q (aLp g + 0x8020) fun _ d => msGo g 1 d)
/-- MS_READ_SA (R306). -/
def execMsReadSa (q : Requester) (g : Fin 32) (s : State) : Host.Outcome State Fault Refusal :=
  .next (s.atRegAll q (aLp g + 0x8020) fun _ d => msGo g 2 d)
/-- MS_INVALIDATE_SA (R306). -/
def execMsInvalidateSa (q : Requester) (g : Fin 32) (s : State) : Host.Outcome State Fault Refusal :=
  .next (s.atRegAll q (aLp g + 0x8020) fun _ d => msGo g 3 d)

end Sys2Proof.Machine
end

