-- ==== Sys2Proof/Machine/LineLinks.lean ====
section
/-!
DEFINITION. Bringing line ports up and down (16_line_ports.md, R366-R372): group modes, negotiation and training, faults,
FEC degradation.
-/
namespace Sys2Proof.Machine

/-! ### Link state (R370, R371) -/

/-- Bits of RATES that a port may use: the mode's highest rate bounds them. -/
def Dev.offeredRates (d : Dev) (p : Nat) : Nat := d.fld (aCtrl p) 24 22 % 2 ^ (modeRate (d.lpMode (p / 4)) + 1)

/-- The allowed rates of R368, excluded ones left out. -/
def Dev.allowedRates (d : Dev) (p : Nat) : Nat := d.offeredRates p &&& (7 - d.fld (aAn p) 18 16)

/-- The highest rate bit of a set. -/
def topRate (r : Nat) : Option Nat := if bit r 2 then some 2 else if bit r 1 then some 1 else if bit r 0 then some 0 else none

def setLpState (p st : Nat) (d : Dev) : Dev := setFld (aStat p) 30 28 st d
def Dev.lpState (d : Dev) (p : Nat) : Nat := d.fld (aStat p) 30 28

/-- MEDIUM is C2M. -/
def Dev.c2m (d : Dev) (p : Nat) : Bool := d.fld (aCtrl p) 26 25 == 2

/-- Bring-up begins, or negotiation restarts: by Clause 73, or at the highest allowed rate at once (R368). -/
def bringUp (p : Nat) (d : Dev) : Dev :=
  if !d.lpOn (p / 4) then setLpState p 0 d
  else
  let skip := d.flag (aCtrl p) 21 || d.c2m p
  let d := d |> setFld (aAn p) 15 10 0 |> updPort p fun x =>
    { x with nonce := 0, since := d.time, anFailed := false, restart := false, skipAn := skip, aligned := false }
  match skip, topRate (d.allowedRates p) with
  | true, some r => d |> updPort p (fun x => { x with lastRate := r }) |> setLpState p (if d.c2m p then 3 else 2)
  | _, _ => setLpState p 1 d

/-- Negotiation waits 1 s before it restarts. -/
def holdNegotiation (p : Nat) (d : Dev) : Dev :=
  d |> updPort p (fun x => { x with restart := true, since := d.time }) |> setLpState p 1

/-- What waits to be sent by a port that goes down is lost: packets are counted, control frames forgotten (R371). -/
def macFlush (p : Nat) (d : Dev) : Dev :=
  let here := fun (x : Packet) => match x.loc with | .mac q _ => q == p | _ => false
  let d := lpAdd p 67 (d.pkts.filter here).length d
  { d with pkts := d.pkts.filter (!here ·) } |> updPort p fun x => { x with ctrl := [], xoffAt := [] }

/-- LINK_UP follows alignment and faults (R371). -/
def linkJudge (p : Nat) (d : Dev) : Dev :=
  let was := d.flag (aStat p) 31
  let up := (d.port p).aligned && d.fld (aStat p) 27 26 == 0
  if up = was then d
  else if up then
    let r := (d.port p).lastRate + 1
    d |> setFlag (aStat p) 31 true |> setLpState p 4 |> setFld (aStat p) 19 18 r
      |> setFld (aStat p) 23 20 (d.lanes p / 2 + r) |> lpBit p 0
  else
    d |> setFlag (aStat p) 31 false |> setLpState p 3 |> setFld (aStat p) 23 18 0 |> count (aLp (p / 4) + 0x80 + 4 * (p % 4))
      |> macFlush p |> lpBit p 0

/-- A port is taken down by the adapter, toward STATE `st`. -/
def portDown (p st : Nat) (d : Dev) : Dev :=
  d |> updPort p (fun x => { x with aligned := false }) |> linkJudge p |> setLpState p st

/-- A down that the partner caused: more than 8 within 1 s hold the port down (R370). True when held. -/
def flapCount (p : Nat) (d : Dev) : Bool × Dev :=
  let l := ((d.port p).downs.filter fun t => t + oneSecond > d.time) ++ [d.time]
  if l.length > 8 then
    (true, d |> updPort p (fun x => { x with downs := [], since := d.time, aligned := false }) |> setLpState p 5 |> lpBit p 5)
  else (false, updPort p (fun x => { x with downs := l }) d)

/-! ### Register writes -/

/-- The counters of R384 of a port return to 0. -/
def lpClear (p : Nat) (d : Dev) : Dev :=
  each (List.range 75) (fun i => setReg64 (aLp (p / 4) + 0x1000 + 0x400 * (p % 4) + 8 * i) 0) d

def clearExclusions (p : Nat) (d : Dev) : Dev := d |> setFld (aAn p) 18 16 0 |> updPort p fun x => { x with fails := [] }

/-- A write of LP_MODE (R366). -/
def lpModeWrite (g : Nat) (v : Word) (d : Dev) : Dev :=
  if (List.range 4).any fun k => d.portExists (4 * g + k) && d.flag (aCtrl (4 * g + k)) 31 then setFlag (aLp g + 4) 0 true d
  else
    let old := d.lpMode g
    let d := setFld (aLp g) 2 0 (wbits v 2 0) d
    let new := d.lpMode g
    if new = old then d
    else
      each (List.range 4) (fun k d =>
        d |> when (modeLanes old k != modeLanes new k) (lpClear (4 * g + k)) |> clearExclusions (4 * g + k)) d

/-- LP_MODE_WRITE (R366). -/
def execLpModeWrite (q : Requester) (g : Fin 32) (v : Word) (s : State) : Host.Outcome State Fault Refusal :=
  .next (s.atRegAll q (aLp g) fun _ d => lpModeWrite g v d)

/-- A write of LP_PORT_CTRL of a port that exists (R368, R371). -/
def lpPortCtrlWrite (p : Nat) (v : Word) (d : Dev) : Dev :=
  if !d.portExists p then d
  else
    let was := d.flag (aCtrl p) 31
    let d := setReg (aCtrl p) (v &&& 0xBFE03FFF) d
    match was, v.getLsbD 31 with
    | true, false => portDown p 0 d
    | false, true => d |> clearExclusions p |> bringUp p
    | true, true => when (v.getLsbD 30) (fun d => d |> clearExclusions p |> portDown p 1 |> bringUp p) d
    | false, false => when (v.getLsbD 30) (clearExclusions p) d

/-- LP_PORT_CTRL_WRITE (R368). -/
def execLpPortCtrlWrite (q : Requester) (g : Fin 32) (k : Fin 4) (v : Word) (s : State) : Host.Outcome State Fault Refusal :=
  .next (s.atRegAll q (aLp g + 0x10) fun _ d => lpPortCtrlWrite (portKey g k) v d)

/-! ### Negotiation and training (R368, R370) -/

/-- A port negotiates: not waiting for its restart timer. -/
def Dev.negotiating (d : Dev) (p : Nat) : Bool :=
  d.portExists p && d.lpState p == 1 && !(d.port p).skipAn && !(d.port p).restart

/-- No base page within 1 s of the start of negotiation. -/
def anBasePageTimeout (p : Nat) (d : Dev) : Dev :=
  let x := d.port p
  if !d.negotiating p || d.flag (aAn p) 15 || x.anFailed then d
  else d |> timeTo (x.since + oneSecond) |> updPort p (fun x => { x with anFailed := true }) |> lpBit p 1

/-- AN_BASE_PAGE_TIMEOUT (R370). -/
def execAnBasePageTimeout (g : Fin 32) (k : Fin 4) (s : State) : Host.Outcome State Fault Refusal :=
  .next (s.onDev fun _ d => anBasePageTimeout (portKey g k) d)

/-- The 1 s pause of negotiation ends. -/
def anRestart (p : Nat) (d : Dev) : Dev :=
  let x := d.port p
  if !d.portExists p || d.lpState p != 1 || !x.restart then d else d |> timeTo (x.since + oneSecond) |> bringUp p

/-- AN_RESTART_TIMER (R370). -/
def execAnRestartTimer (g : Fin 32) (k : Fin 4) (s : State) : Host.Outcome State Fault Refusal :=
  .next (s.onDev fun _ d => anRestart (portKey g k) d)

/-- A base page of the partner, or the port's own come back (R368, R370). -/
def basePage (p rates pause : Nat) (own : Bool) (d : Dev) : Dev :=
  if !d.negotiating p then d
  else if own then
    let n := (d.port p).nonce + 1
    if n = 8 then d |> lpBit p 4 |> holdNegotiation p else updPort p (fun x => { x with nonce := n }) d
  else
    let d := d |> setFld (aAn p) 15 10 (32 + 4 * rates + pause) |> updPort p fun x => { x with nonce := 0 }
    match topRate (d.allowedRates p &&& rates) with
    | none => d |> lpBit p 3 |> holdNegotiation p
    | some r => d |> updPort p (fun x => { x with lastRate := r }) |> setLpState p 2

/-- BASE_PAGE_RECEIVE (R370). -/
def execBasePageReceive (g : Fin 32) (k : Fin 4) (rates : BitVec 3) (pause : BitVec 2) (own : Bool) (s : State) : Host.Outcome State Fault Refusal :=
  .next (s.onDev fun _ d => basePage (portKey g k) rates.toNat pause.toNat own d)

/-- Link training does not converge: after three failures in a row a rate is excluded. -/
def trainingFail (p : Nat) (d : Dev) : Dev :=
  if !d.portExists p || d.lpState p != 2 then d
  else
    let r := (d.port p).lastRate
    let n := mget 0 (d.port p).fails r + 1
    let d := d |> lpBit p 2 |> updPort p (fun x => { x with fails := if n ≥ 3 then [] else [(r, n)] })
    let d := when (n ≥ 3) (setFlag (aAn p) (16 + r) true) d
    if d.allowedRates p = 0 && d.offeredRates p != 0 then d |> clearExclusions p |> holdNegotiation p else bringUp p d

/-- LINK_TRAINING_FAIL (R370). -/
def execLinkTrainingFail (g : Fin 32) (k : Fin 4) (s : State) : Host.Outcome State Fault Refusal :=
  .next (s.onDev fun _ d => trainingFail (portKey g k) d)

/-! ### Up, down, faults, FEC -/

/-- The reference clock of the port's line die is present (R473). -/
def Dev.lrefOn (d : Dev) (p : Nat) : Bool := d.flag 0xF800500 (3 + p / 64)

/-- Training, FEC and PCS alignment are done. -/
def lineUp (p : Nat) (d : Dev) : Dev :=
  if !d.portExists p || !d.lrefOn p || (d.lpState p != 2 && d.lpState p != 3) then d
  else d |> updPort p (fun x => { x with aligned := true, fails := [] }) |> setLpState p 3 |> linkJudge p

/-- LINE_LINK_UP (R371). -/
def execLineLinkUp (g : Fin 32) (k : Fin 4) (s : State) : Host.Outcome State Fault Refusal :=
  .next (s.onDev fun _ d => lineUp (portKey g k) d)

/-- FEC or PCS alignment is lost: negotiation restarts, or the port is held down. -/
def lineDown (p : Nat) (d : Dev) : Dev :=
  if !(d.port p).aligned then d
  else
    let up := d.flag (aStat p) 31
    let d := portDown p 1 d
    let f := if up then flapCount p d else (false, d)
    if f.1 then f.2 else bringUp p f.2

/-- LINE_LINK_DOWN (R370). -/
def execLineLinkDown (g : Fin 32) (k : Fin 4) (s : State) : Host.Outcome State Fault Refusal :=
  .next (s.onDev fun _ d => lineDown (portKey g k) d)

/-- LINE_FLAP_HOLD_END (R370). -/
def execLineFlapHoldEnd (g : Fin 32) (k : Fin 4) (s : State) : Host.Outcome State Fault Refusal :=
  .next (s.onDev fun _ d =>
    let p := portKey g k
    if d.portExists p && d.lpState p == 5 then d |> timeTo ((d.port p).since + oneSecond) |> bringUp p else d)

/-- LOCAL_FAULT and REMOTE_FAULT change, and LINK_UP with them. -/
def faultChange (p : Nat) (lf rf : Bool) (d : Dev) : Dev :=
  if !d.portExists p then d
  else
    let was := d.flag (aStat p) 31
    let d := d |> setFlag (aStat p) 27 lf |> setFlag (aStat p) 26 rf |> linkJudge p
    if was && !d.flag (aStat p) 31 then (flapCount p d).2 else d

/-- LINE_FAULT_CHANGE (R371). -/
def execLineFaultChange (g : Fin 32) (k : Fin 4) (lf rf : Bool) (s : State) : Host.Outcome State Fault Refusal :=
  .next (s.onDev fun _ d => faultChange (portKey g k) lf rf d)

/-- FEC_DEGRADED changes: LP_EVENT each time. -/
def fecChange (p : Nat) (x : Bool) (d : Dev) : Dev :=
  if !d.portExists p || d.flag (aStat p) 25 == x then d
  else
    let d := setFlag (aStat p) 25 x d
    raise 0x0B p (d.fld (aStat p) 7 0) (b2n x) d

/-- FEC_DEGRADED_CHANGE (R372). -/
def execFecDegradedChange (g : Fin 32) (k : Fin 4) (x : Bool) (s : State) : Host.Outcome State Fault Refusal :=
  .next (s.onDev fun _ d => fecChange (portKey g k) x d)

end Sys2Proof.Machine
end

