-- ==== Sys2Proof/Machine/LinePorts.lean ====
section
/-!
DEFINITION. Frames on line ports (16_line_ports.md, R373-R384): receive checks, flow control, PTP timestamps, transmit.
-/
namespace Sys2Proof.Machine

/-! ### PTP (R382, R383) -/

def aPtp (p : Nat) : Nat := aLp (p / 4) + 0x100 + 0x20 * (p % 4)

/-- Offset of a frame's EtherType behind up to `n` tags. -/
def behindTags (pol b : List Byte) : Nat → Nat → Nat
  | 0, o => o
  | n + 1, o => if isTpid pol (be b o 2) then behindTags pol b n (o + 4) else o

/-- Where the PTP header of an event message starts, and its UDP header when it has one. -/
def ptpAt (pol : List Byte) (l4 : Bool) (b : List Byte) : Option (Nat × Option Nat) :=
  let o := behindTags pol b 2 12
  let t := be b o 2
  let h := o + 2
  let u := h + 4 * (byteAt b h % 16)
  let found : Option (Nat × Option Nat) :=
    if t = 0x88F7 then some (h, none)
    else if !l4 then none
    else if t = 0x800 && byteAt b h / 16 = 4 && byteAt b (h + 9) = 17 && be b (h + 6) 2 % 8192 = 0 && be b (u + 2) 2 = 319 then
      some (u + 8, some u)
    else if t = 0x86DD && byteAt b h / 16 = 6 && byteAt b (h + 6) = 17 && be b (h + 42) 2 = 319 then some (h + 48, some (h + 40))
    else none
  found.filter fun x => x.1 + 34 ≤ b.length && byteAt b x.1 % 16 < 4

/-- Device time plus TIME_OFFSET, modulo 2^64. -/
def Dev.ptpTime (d : Dev) : Nat := (d.time + d.reg64 0x100010) % 2 ^ 64

/-- An event message enters a FIFO, or is lost. -/
def ptpPush (tx : Bool) (p : Nat) (b : List Byte) (h : Nat) (d : Dev) : Dev :=
  let x := d.port p
  let e : PtpEntry := { time := d.ptpTime, type := byteAt b h % 16, domain := byteAt b (h + 4), seq := be b (h + 30) 2 }
  if (if tx then x.ptpTx else x.ptpRx).length ≥ 64 then
    d |> updPort p (fun x => if tx then { x with ptpTxOvf := true } else { x with ptpRxOvf := true }) |> lpBit p 6
  else updPort p (fun x => if tx then { x with ptpTx := x.ptpTx ++ [e] } else { x with ptpRx := x.ptpRx ++ [e] }) d

/-- The frame with its timestamp in originTimestamp, and the UDP checksum adjusted. -/
def ptpInsert (v h : Nat) (udp : Option Nat) (b : List Byte) : List Byte :=
  let ts := beBytes 6 (v / 1000000000) ++ beBytes 4 (v % 1000000000)
  let new := putBytes b (h + 34) ts
  match udp with
  | some u =>
    let c := be b (u + 6) 2
    if c = 0 then new
    else
      let ch := (List.range 10).map fun i => (h + 34 + i, byteAt b (h + 34 + i), byteAt new (h + 34 + i))
      putBe new (u + 6) 2 (let s := adjustSum c (fun i => byteWeight (i - u)) ch; if s = 0 then 0xFFFF else s)
  | none => new

/-- The oldest entry of a FIFO leaves, its timestamp captured for the reader (R383). -/
def ptpInfoRead (tx : Bool) (q : Requester) (p : Nat) (d : Dev) : Nat × Dev :=
  let x := d.port p
  match (if tx then x.ptpTx else x.ptpRx) with
  | [] => (0, d)
  | e :: r =>
    let ovf := if tx then x.ptpTxOvf else x.ptpRxOvf
    (2 ^ 31 + 2 ^ 30 * b2n ovf + 2 ^ 24 * e.type + 2 ^ 16 * e.domain + e.seq,
     d |> capture q (aPtp p + (if tx then 0x14 else 8)) e.time
       |> updPort p fun x => if tx then { x with ptpTx := r, ptpTxOvf := false } else { x with ptpRx := r, ptpRxOvf := false })

/-- A read of PTP_RX_INFO or PTP_TX_INFO; the registers of a port that does not exist read 0 (R8, R367). -/
def ptpInfoAnswer (tx : Bool) (q : Requester) (p : Nat) (d : Dev) : Dev :=
  if !d.portExists p then emit (.value q (aPtp p + (if tx then 0x10 else 4)) 0) d
  else
    let r := ptpInfoRead tx q p d
    emit (.value q (aPtp p + (if tx then 0x10 else 4)) (word r.1)) r.2

/-- PTP_RX_INFO_READ (R383). -/
def execPtpRxInfoRead (q : Requester) (g : Fin 32) (k : Fin 4) (s : State) : Host.Outcome State Fault Refusal :=
  .next (s.atRead q (aPtp (portKey g k) + 4) fun _ d => ptpInfoAnswer false q (portKey g k) d)
/-- PTP_TX_INFO_READ (R383). -/
def execPtpTxInfoRead (q : Requester) (g : Fin 32) (k : Fin 4) (s : State) : Host.Outcome State Fault Refusal :=
  .next (s.atRead q (aPtp (portKey g k) + 0x10) fun _ d => ptpInfoAnswer true q (portKey g k) d)

/-! ### Pauses (R378, R379, R380) -/

/-- FLOW: 0 none, 1 PAUSE, 2 PFC. -/
def Dev.flow (d : Dev) (p : Nat) : Nat := let f := d.fld (aCtrl p) 28 27; if f = 3 then 0 else f

/-- Class c is paused for its quanta, of 512 bit times each; 0 ends the pause. -/
def pauseClass (p q c : Nat) (d : Dev) : Dev :=
  let x := d.port p
  if q = 0 then
    updPort p (fun x => { x with pauseEnd := mdel x.pauseEnd c, pauseSince := mdel x.pauseSince c, ignoreEnd := mdel x.ignoreEnd c }) d
  else if d.time < mget 0 x.ignoreEnd c then d
  else
    let fin := d.time + (q * 512 + d.speed p - 1) / d.speed p
    let since := if d.paused p c then mget 0 x.pauseSince c else d.time
    updPort p (fun x => { x with pauseEnd := mset 0 x.pauseEnd c fin, pauseSince := mset 0 x.pauseSince c since }) d

/-- A good MAC control frame is consumed (R379). -/
def macControl (p : Nat) (b : List Byte) (n : Nat) (d : Dev) : Dev :=
  let op := be b 14 2
  if n ≠ 64 || be b 0 6 ≠ 0x0180C2000001 then lpCount p 31 d
  else if d.flow p = 1 && op = 1 then d |> lpCount p 22 |> each (List.range 8) (pauseClass p (be b 16 2))
  else if d.flow p = 2 && op = 0x0101 then
    each (List.range 8) (fun c d =>
      if bit (be b 16 2) c then
        d |> lpCount p (23 + c) |> when (d.flag (aPfc p) c) (pauseClass p (be b (18 + 2 * c) 2) c)
      else d) d
  else lpCount p 31 d

/-- The pause of a class runs out. -/
def pauseExpiry (p c : Nat) (d : Dev) : Dev :=
  let e := mget 0 (d.port p).pauseEnd c
  if e = 0 then d
  else d |> timeTo e |> updPort p fun x => { x with pauseEnd := mdel x.pauseEnd c, pauseSince := mdel x.pauseSince c }

/-- PAUSE_EXPIRY (R379). -/
def execPauseExpiry (g : Fin 32) (k : Fin 4) (c : Fin 8) (s : State) : Host.Outcome State Fault Refusal :=
  .next (s.onDev fun _ d => pauseExpiry (portKey g k) c d)

/-- A class has stayed paused for WD ms: its pauses are ignored for 100 ms. -/
def pfcWatchdog (p c : Nat) (d : Dev) : Dev :=
  let wd := d.fld (aPfc p) 15 8
  let due := mget 0 (d.port p).pauseSince c + wd * 1000000
  if wd = 0 || mget 0 (d.port p).pauseEnd c = 0 || mget 0 (d.port p).pauseEnd c < due then d
  else
    let d := timeTo due d
    d |> updPort p (fun x => { x with pauseEnd := mdel x.pauseEnd c, pauseSince := mdel x.pauseSince c
                                      ignoreEnd := mset 0 x.ignoreEnd c (d.time + 100000000) })
      |> lpBit p 7

/-- PFC_WATCHDOG (R380). -/
def execPfcWatchdog (g : Fin 32) (k : Fin 4) (c : Fin 8) (s : State) : Host.Outcome State Fault Refusal :=
  .next (s.onDev fun _ d => pfcWatchdog (portKey g k) c d)

/-- PFC_WATCHDOG_END (R380): the 100 ms are over. -/
def execPfcWatchdogEnd (g : Fin 32) (k : Fin 4) (c : Fin 8) (s : State) : Host.Outcome State Fault Refusal :=
  .next (s.onDev fun _ d =>
    let e := mget 0 (d.port (portKey g k)).ignoreEnd c
    if e = 0 then d else d |> timeTo e |> updPort (portKey g k) fun x => { x with ignoreEnd := mdel x.ignoreEnd c })

/-! ### Receive (R373-R375) -/

/-- Bytes of a port, or of one of its classes, in the ingress FIFO. -/
def Dev.fifoBytes (d : Dev) (sel : Packet → Nat → Nat → Bool) : Nat :=
  (d.pkts.filter fun x => match x.loc with | .fifo g c => sel x g c | _ => false).foldl (fun n x => n + x.bytes.length) 0

/-- The priority class of a frame (R373 step 4). -/
def Dev.frameClass (d : Dev) (p : Nat) (b : List Byte) : Nat :=
  let m := d.reg (aLp (p / 4) + 0x40 + 4 * (p % 4))
  if isTpid d.gens.rules.pol (be b 12 2) then let pcp := byteAt b 14 / 32; wbits m (3 * pcp + 2) (3 * pcp) else wbits m 26 24

/-- A packet enters its group's ingress FIFO of 512 KiB, or is dropped whole (R29, R443). -/
def enterFifo (p ingress len : Nat) (ok : Bool) (b : List Byte) (d : Dev) : Dev :=
  let c := d.frameClass p b
  if d.fifoBytes (fun _ g _ => g == p / 4) + b.length > 524288 then
    d |> lpCount p (33 + c) |> when (d.flag 0xF800100 31) (count 0xF80010C)
  else addPacket { id := 0, loc := .fifo (p / 4) c, bytes := b, ingress := ingress, lineLen := len, macsec := ok } d

/-- How R374 judges a frame of n bytes: the counter of the first row that applies, none for a good frame. -/
def frameFault (n max : Nat) (code fcs : Bool) : Option Nat :=
  if code then some 21
  else if n < 64 then some (if fcs then 17 else 18)
  else if n > 16383 || (n > max && !fcs) then some 20
  else if n > max then some 19
  else if !fcs then some 16 else none

/-- A bad frame: counted, and passed when PASS_BAD is set (R375). -/
def badFrame (p row n : Nat) (code fcs : Bool) (b : List Byte) (d : Dev) : Dev :=
  let d := lpCount p row d
  let info := 0x3000 + 2048 * b2n (n > 16384) + 1024 * b2n code + 512 * b2n (n > d.maxFrame p) + 256 * b2n (n < 64) +
    128 * b2n (!fcs || row == 20) + p
  if d.flag (aCtrl p) 29 then d |> lpCount p 32 |> enterFifo p info 0 false b else d

/-- A good frame that is no MAC control frame: counted, through MACsec, timestamped, and into the FIFO. -/
def goodFrame (p n : Nat) (b : List Byte) (d : Dev) : Dev :=
  let d := d |> lpAdd p 1 n |> lpCount p 2 |> lpCount p (3 + castOf b)
  let sec := d.flag (aMsCtrl p) 31 && d.fld (aMsCtrl p) 27 26 != 0 && be b 12 2 == 0x88E5
  let m := msReceive p b (msSettle (p / 4) d)
  match m.1 with
  | .drop => m.2
  | .pass f ok =>
    let d := m.2
    let d := match ptpAt d.gens.rules.pol (d.flag (aPtp p) 3) f with
      | some (h, _) => when (d.flag (aPtp p) 0) (ptpPush false p f h) d
      | none => d
    enterFifo p p (if sec then 0 else n) ok f d

/-- A frame of a port that is up, from its destination address to its FCS. At most 16,384 bytes are stored. -/
def frameReceive (p : Nat) (frame : List Byte) (code : Bool) (d : Dev) : Dev :=
  let n := frame.length
  let b := frame.take 16384
  let body := b.take (b.length - 4)
  let fcs := n ≤ 16384 && 4 ≤ n && b.drop (b.length - 4) == fcsBytes body
  let d := lpAdd p 0 n d
  match frameFault n (d.maxFrame p) code fcs with
  | some row => d |> when (64 ≤ n) (lpCount p (6 + sizeBin n)) |> badFrame p row n code fcs b
  | none => if be b 12 2 = 0x8808 then macControl p b n d else d |> lpCount p (6 + sizeBin n) |> goodFrame p n body

/-- LINE_FRAME_RECEIVE (R373). -/
def execLineFrameReceive (g : Fin 32) (k : Fin 4) (frame : List Byte) (code : Bool) (s : State) : Host.Outcome State Fault Refusal :=
  .next (s.onDev fun _ d =>
    let p := portKey g k
    if d.linkUp p && d.lpOn g then frameReceive p frame code d else d)

/-- PAUSE_FRAME_RECEIVE (R379): a frame whose EtherType is MAC control's. -/
def execPauseFrameReceive (g : Fin 32) (k : Fin 4) (frame : List Byte) (s : State) : Host.Outcome State Fault Refusal :=
  .next (s.onDev fun _ d =>
    let p := portKey g k
    if d.linkUp p && d.lpOn g && be frame 12 2 == 0x8808 then frameReceive p frame false d else d)

/-! ### Generated flow control (R381) -/

/-- Bytes of the port that flow control measures for class c, all of them with PAUSE. -/
def Dev.flowBytes (d : Dev) (p c : Nat) : Nat :=
  d.fifoBytes fun x g k => g == p / 4 && x.ingress % 128 == p && (d.flow p == 1 || k == c)

/-- Whether flow control acts for class c; PAUSE acts for all at once, under key 8. -/
def Dev.flowOn (d : Dev) (p c : Nat) : Bool := d.linkUp p && (d.flow p == 1 || (d.flow p == 2 && d.flag (aPfc p) c))
def Dev.flowKey (d : Dev) (p c : Nat) : Nat := if d.flow p = 1 then 8 else c

def Dev.xoff (d : Dev) (p : Nat) : Nat := max 1 (d.fld (aLp (p / 4) + 0x70 + 4 * (p % 4)) 24 16)
def Dev.xon (d : Dev) (p : Nat) : Nat := min (d.fld (aLp (p / 4) + 0x70 + 4 * (p % 4)) 8 0) (d.xoff p - 1)

/-- A PAUSE or PFC frame, without FCS, waits in transmit queue 0; its source address is the port's own, which the
manual does not state (log 40). -/
def sendFlow (p c q : Nat) (d : Dev) : Dev :=
  let sa := drawBytes 6 d
  let head := beBytes 6 0x0180C2000001 ++ sa.1 ++ beBytes 2 0x8808
  let f := if d.flow p = 1 then head ++ beBytes 2 1 ++ beBytes 2 q
    else head ++ beBytes 2 0x0101 ++ beBytes 2 (2 ^ c) ++ (List.range 8).flatMap fun i => beBytes 2 (if i = c then q else 0)
  updPort p (fun x => { x with ctrl := x.ctrl ++ [padTo 60 f] }) sa.2

/-- XOFF is sent, or sent again. -/
def sendXoff (p c : Nat) (d : Dev) : Dev :=
  d |> sendFlow p c 0xFFFF |> updPort p fun x => { x with xoffAt := mput x.xoffAt (d.flowKey p c) d.time }

def xoffReached (p c : Nat) (d : Dev) : Dev :=
  if d.flowOn p c && d.flowBytes p c ≥ d.xoff p * 1024 && (mfind (d.port p).xoffAt (d.flowKey p c)).isNone then sendXoff p c d
  else d

/-- XOFF_REACHED (R381). -/
def execXoffReached (g : Fin 32) (k : Fin 4) (c : Fin 8) (s : State) : Host.Outcome State Fault Refusal :=
  .next (s.onDev fun _ d => xoffReached (portKey g k) c d)

/-- Half of the pause time, 65,535 quanta, has passed while the bytes stay above XON. -/
def xoffRefresh (p c : Nat) (d : Dev) : Dev :=
  match mfind (d.port p).xoffAt (d.flowKey p c) with
  | none => d
  | some t =>
    if d.flowOn p c && d.flowBytes p c > d.xon p * 1024 then
      d |> timeTo (t + (65535 * 256 + d.speed p - 1) / d.speed p) |> sendXoff p c
    else d

/-- XOFF_REFRESH (R381). -/
def execXoffRefresh (g : Fin 32) (k : Fin 4) (c : Fin 8) (s : State) : Host.Outcome State Fault Refusal :=
  .next (s.onDev fun _ d => xoffRefresh (portKey g k) c d)

def xonReached (p c : Nat) (d : Dev) : Dev :=
  if d.flowOn p c && d.flowBytes p c < d.xon p * 1024 && (mfind (d.port p).xoffAt (d.flowKey p c)).isSome then
    d |> sendFlow p c 0 |> updPort p fun x => { x with xoffAt := mdel x.xoffAt (d.flowKey p c) }
  else d

/-- XON_REACHED (R381). -/
def execXonReached (g : Fin 32) (k : Fin 4) (c : Fin 8) (s : State) : Host.Outcome State Fault Refusal :=
  .next (s.onDev fun _ d => xonReached (portKey g k) c d)

/-! ### Transmit (R376, R377, R383) -/

/-- A frame leaves: padded, its FCS added, inverted for a poisoned packet. -/
def frameOut (poison : Bool) (b : List Byte) : List Byte :=
  let b := b ++ List.replicate (60 - b.length) 0
  b ++ (fcsBytes b).map fun x => if poison then x ^^^ 0xFF else x

/-- A control frame leaves queue 0: counted only in its own counters (R384). -/
def sendCtrl (p : Nat) (b : List Byte) (d : Dev) : Dev :=
  let d := emit (.frame p (frameOut false b)) d
  if be b 14 2 = 1 then lpCount p 57 d
  else each (List.range 8) (fun c => when (bit (be b 16 2) c) (lpCount p (58 + c))) d

/-- The event message of a frame that leaves: a TX entry, and the timestamp inserted in a one-step Sync that is not
protected. -/
def ptpSend (p : Nat) (sealed : Bool) (b : List Byte) (d : Dev) : List Byte × Dev :=
  match ptpAt d.gens.rules.pol (d.flag (aPtp p) 3) b with
  | none => (b, d)
  | some (h, u) =>
    let one := d.flag (aPtp p) 1 && d.flag (aPtp p) 2 && byteAt b h % 16 == 0 && !bit (byteAt b (h + 6)) 1 && !sealed
    (if one then ptpInsert d.ptpTime h u b else b, when (d.flag (aPtp p) 1) (ptpPush true p b h) d)

/-- One packet of queues 1-3 leaves, or is dropped. -/
def sendPacket (p q : Nat) (x : Packet) (d : Dev) : Dev :=
  if x.bytes.length > d.maxFrame p - 4 then d |> lpCount p 68 |> endPacket x
  else
    let sealed := d.msProtects p x.bytes
    let m := if sealed then msTransmit p x.bytes d else (some x.bytes, d)
    match m.1 with
    | none => endPacket x m.2
    | some b =>
      let t := ptpSend p sealed x.bytes m.2
      let f := frameOut x.poisoned (if sealed then b else t.1)
      t.2 |> emit (.frame p f) |> lpAdd p 41 f.length |> lpCount p 42 |> lpCount p (43 + castOf f)
        |> lpCount p (46 + sizeBin f.length) |> when x.poisoned (lpCount p 56) |> when (q == 1) (lpCount p 66)
        |> when (!sealed) (meterOf x.billing 4 f.length) |> endPacket x

/-- The port sends the next frame, by strict priority of its queues. -/
def macTransmit (p : Nat) (d : Dev) : Dev :=
  if !d.linkUp p then d
  else
    let d := msSettle (p / 4) d
    match (d.port p).ctrl with
    | b :: r => d |> updPort p (fun x => { x with ctrl := r }) |> sendCtrl p b
    | [] =>
      match [1, 2, 3].findSome? fun q => (d.pkts.find? fun x => x.loc == .mac p q).map fun x => (q, x) with
      | some (q, x) => sendPacket p q x d
      | none => d

/-- MAC_TRANSMIT (R377). -/
def execMacTransmit (g : Fin 32) (k : Fin 4) (s : State) : Host.Outcome State Fault Refusal :=
  .next (s.onDev fun _ d => macTransmit (portKey g k) d)

end Sys2Proof.Machine
end

