-- ==== Sys2Proof/Machine/Control.lean ====
section
/-!
DEFINITION. The control complex (17_control_complex.md): core control and watchdogs, the interrupt controller, lock
registers, I2C masters.
-/
namespace Sys2Proof.Machine

/-! ### Refused accesses (R389, R391, R397) -/

/-- A register that does not take a requester's write: an access fault on a core 4-15, else ignored and counted. -/
def refuseWrite (q : Requester) (d : Dev) : Dev := match q with
  | .core c => if 4 ≤ (c : Nat) then coreDenied c d else badAccess d
  | _ => badAccess d

/-! ### Cores (R391-R393) -/

/-- The master ID of a requester at the locks (R401); hosts have none. -/
def masterId : Requester → Option Nat
  | .core c => some c
  | .stitch e _ => some (16 + e)
  | .manager => some 32
  | .host _ => none

/-- The locks of a master are freed. -/
def freeLocks (m : Nat) (d : Dev) : Dev := { d with locks := d.locks.filter fun e => e.2 != some m }

/-- RUNNING and HELD follow HOLD. -/
def coreHeld (c : Nat) (held : Bool) (d : Dev) : Dev :=
  d |> setFlag (aCore c) 31 held |> setFlag (aCore c + 8) 1 held |> setFlag (aCore c + 8) 0 (!held)

/-- What a reset of core c does to its private interrupt state and its locks (R392). -/
def coreClear (c : Nat) (d : Dev) : Dev := d |> updCore c (fun _ => { wdogStart := d.time }) |> freeLocks c

/-- A core that starts at a BOOT outside the customer region takes an access fault at its first fetch (R391). -/
def coreStart (c : Nat) (d : Dev) : Dev :=
  let b := (d.reg (aCore c + 4)).toNat
  when (!(0x10400000 ≤ b && b < 0x11000000)) (emit (.coreFault c)) d

/-- A core reset (R392). -/
def coreReset (c : Nat) (d : Dev) : Dev := d |> coreClear c |> sideReset ⟨.core (fin 16 c), false⟩

/-- A write of CORE_CTRL by the manager. -/
def coreCtrlWrite (c : Nat) (hold reset : Bool) (d : Dev) : Dev :=
  let held := d.flag (aCore c) 31
  d |> when (hold || reset) (coreReset c) |> coreHeld c hold |> when (!hold && (held || reset)) (coreStart c)

/-- Only the manager writes the core control registers, and cores 0-3 have none (R391). -/
def coreGate (q : Requester) (c : Nat) (go : Dev → Dev) (d : Dev) : Dev :=
  if q = .manager && 4 ≤ c then go d else refuseWrite q d

/-- CORE_HOLD (R391). -/
def execCoreHold (q : Requester) (c : Fin 16) (hold : Bool) (s : State) : Host.Outcome State Fault Refusal :=
  .next (s.atReg q (aCore c) fun _ d => coreGate q c (coreCtrlWrite c hold false) d)

/-- CORE_RESET (R392); HOLD stays as it is. -/
def execCoreReset (q : Requester) (c : Fin 16) (s : State) : Host.Outcome State Fault Refusal :=
  .next (s.atReg q (aCore c) fun _ d => coreGate q c (coreCtrlWrite c (d.flag (aCore c) 31) true) d)

/-- A write of CORE_WDOG: one that sets EN restarts the count. -/
def coreWdogWrite (c : Nat) (v : Word) (d : Dev) : Dev :=
  d |> setReg (aCore c + 0xC) (v &&& 0xC000FFFF) |> when (v.getLsbD 31) (updCore c fun x => { x with wdogStart := d.time })

/-- CORE_WDOG_WRITE (R391). -/
def execCoreWdogWrite (q : Requester) (c : Fin 16) (v : Word) (s : State) : Host.Outcome State Fault Refusal :=
  .next (s.atReg q (aCore c + 0xC) fun _ d => coreGate q c (coreWdogWrite c v) d)

/-- A write of CORE_KICK, taken from core c itself only. -/
def coreKick (q : Requester) (c : Nat) (d : Dev) : Dev :=
  if q = .core (fin 16 c) && 4 ≤ c then updCore c (fun x => { x with wdogStart := d.time }) d else refuseWrite q d

/-- CORE_KICK (R393). -/
def execCoreKick (q : Requester) (c : Fin 16) (s : State) : Host.Outcome State Fault Refusal :=
  .next (s.atReg q (aCore c + 0x10) fun _ d => coreKick q c d)

/-- TIMEOUT ms have passed without a kick. -/
def watchdogExpiry (c : Nat) (d : Dev) : Dev :=
  let w := d.reg (aCore c + 0xC)
  if c < 4 || !w.getLsbD 31 then d
  else
    d |> timeTo ((d.core c).wdogStart + max 1 (wbits w 15 0) * 1000000)
      |> setFlag (aCore c + 8) 2 true |> raise 0x0D c 0 0
      |> (fun d => updCore c (fun x => { x with wdogStart := d.time }) d)
      |> when (w.getLsbD 30) (fun d => d |> coreReset c |> when (!d.flag (aCore c) 31) (coreStart c))

/-- WATCHDOG_EXPIRY (R393). -/
def execWatchdogExpiry (c : Fin 16) (s : State) : Host.Outcome State Fault Refusal :=
  .next (s.onDev fun _ d => watchdogExpiry c d)

/-- Core c's machine timer interrupt is pending: MTIME ≥ MTIMECMP (R390). -/
def Dev.timerPending (d : Dev) (c : Nat) : Bool := (d.core c).mtimecmp ≤ d.time

/-- MTIMECMP_REACHED (R390): device time reaches MTIMECMP, from which on the interrupt is pending. -/
def execMtimecmpReached (c : Fin 16) (s : State) : Host.Outcome State Fault Refusal :=
  .next (s.onDev fun _ d => timeTo (d.core c).mtimecmp d)

/-! ### The interrupt controller (R394-R400) -/

def aIc (c off : Nat) : Nat := 0xE800000 + c * 0x1000 + off

/-- Core c's external interrupt line, machine or supervisor (`smode`): some private source, or some shared source routed to
the core, is pending and enabled with that SMODE (R394). -/
def Dev.extLine (d : Dev) (c : Nat) (smode : Bool) : Bool :=
  let x := d.core c
  (x.pend &&& x.en &&& (if smode then x.smode else ~~~ x.smode)) != 0 ||
    d.ic.any fun e => e.2.target == c && e.2.pending && e.2.enable && e.2.smode == smode

/-- A write of IC_CLAIM, taken from core c only. -/
def icClaimWrite (q : Requester) (c : Nat) (v : Word) (d : Dev) : Dev :=
  if q = .core (fin 16 c) then updCore c (fun x => { x with claim := some (wbits v 11 0) }) d
  else match q with
    | .core k => if 4 ≤ (k : Nat) then coreDenied k d else count (aIc c 0x200) d
    | .manager => count (aIc c 0x200) d
    | _ => badAccess d

/-- IC_CLAIM_WRITE (R399). -/
def execIcClaimWrite (q : Requester) (c : Fin 16) (v : Word) (s : State) : Host.Outcome State Fault Refusal :=
  .next (s.atReg q (aIc c 0) fun _ d => icClaimWrite q c v d)

/-- Core c claims source n: whether it gets it (R399 step 2). -/
def icClaim (c n : Nat) (d : Dev) : Bool × Dev :=
  if n < 64 then
    if (d.core c).pend.getLsbD n then
      (true, updCore c (fun x => { x with pend := x.pend &&& ~~~ BitVec.ofNat 64 (2 ^ n) }) d)
    else (false, d)
  else
    let x := mget {} d.ic n
    if n > 1087 || x.target ≠ c then (false, count (aIc c 0x200) d)
    else if x.pending then
      (true, { d with ic := mset {} d.ic n { x with pending := false, armed := x.armed && !x.withdraw } })
    else (false, d)

/-- A read of IC_CLAIM (R397, R399). -/
def icClaimRead (q : Requester) (c : Nat) (d : Dev) : Nat × Dev :=
  if q ≠ .core (fin 16 c) then (0xFFF, d)
  else match (d.core c).claim with
    | none => (0xFFF, d)
    | some n =>
      let r := icClaim c n (updCore c (fun x => { x with claim := none }) d)
      (if r.1 then n else 0xFFF, r.2)

/-- IC_CLAIM_READ (R399). -/
def execIcClaimRead (q : Requester) (c : Fin 16) (s : State) : Host.Outcome State Fault Refusal :=
  .next (s.atRead q (aIc c 0) fun _ d => let r := icClaimRead q c d; emit (.value q (aIc c 0) (word r.1)) r.2)

/-- A write of IC_PSW raises private sources 0-7. -/
def icPsw (c : Nat) (v : Word) (d : Dev) : Dev :=
  updCore c (fun x => { x with pend := x.pend ||| BitVec.ofNat 64 (wbits v 7 0) }) d

/-- IC_PSW (R397): any requester may write it. -/
def execIcPsw (q : Requester) (c : Fin 16) (v : Word) (s : State) : Host.Outcome State Fault Refusal :=
  .next (s.atReg q (aIc c 0x30) fun _ d => icPsw c v d)

/-- A write of IC_SW_SET raises a software source. -/
def icSwSet (v : Word) (d : Dev) : Dev := sourcePulse (576 + wbits v 8 0) d

/-- IC_SW_SET (R396): any requester may write it. -/
def execIcSwSet (q : Requester) (v : Word) (s : State) : Host.Outcome State Fault Refusal :=
  .next (s.atReg q 0xE882000 fun _ d => icSwSet v d)

/-- A write of IC_CFG of shared source n (R396, R398). Pulse sources keep WITHDRAW at 0. -/
def icCfgWrite (q : Requester) (n : Nat) (v : Word) (d : Dev) : Dev :=
  let takes := match q with | .manager => true | .core c => (c : Nat) < 4 | _ => false
  if !takes then refuseWrite q d
  else
    let w := v.getLsbD 30 && (n ≤ 200 || (208 ≤ n && n < 576))
    { d with ic := mupd {} d.ic n fun s =>
        { s with enable := v.getLsbD 31, smode := v.getLsbD 29, target := wbits v 3 0, withdraw := w
                 pending := if w && !s.withdraw && s.armed then s.level else s.pending } }

/-- IC_CFG_WRITE (R396). -/
def execIcCfgWrite (q : Requester) (n : Fin 1024) (v : Word) (s : State) : Host.Outcome State Fault Refusal :=
  .next (s.atReg q 0xE880000 fun _ d => icCfgWrite q (64 + n) v d)

/-! ### Locks (R401-R404) -/

/-- The place of a master in the rotating order. -/
def masterPos (m : Nat) : Nat := if m = 32 then 18 else m

/-- The reader that an arbitration picks first: the least distance behind the first position of the cycle. -/
def lockWinner (cycle : Nat) (l : List (Requester × Nat)) : Option (Requester × Nat) :=
  l.foldl (fun w x =>
    let dist := fun (y : Requester × Nat) => (masterPos y.2 + 19 - cycle % 19) % 19
    match w with
    | none => some x
    | some y => if dist x < dist y then some x else w) none

/-- The value that one read of a lock returns, given the owner before the cycle and the winner. -/
def lockValue (owner : Option Nat) (winner : Option (Requester × Nat)) (x : Requester × Nat) : Nat := match owner with
  | some o => o
  | none => if winner = some x then 2 ^ 31 + x.2 else 0xFF

/-- All reads of one lock in one cycle: their values, and the lock after them (R402). -/
def lockRead (readers : List Requester) (i cycle : Nat) (d : Dev) : List (Requester × Nat) × Dev :=
  let l := readers.filterMap fun q => (masterId q).map fun m => (q, m)
  let o := mget none d.locks i
  let w := lockWinner cycle l
  (l.map fun x => (x.1, lockValue o w x),
   if o.isSome then d else { d with locks := mset none d.locks i (w.map (·.2)) })

def aLock (i : Nat) : Nat := 0xE900000 + 4 * i

/-- LOCK_READ (R402): `cycle` counts lock arbiter cycles since the release of Device Reset. -/
def execLockRead (readers : List Requester) (i : Fin 256) (cycle : Nat) (s : State) : Host.Outcome State Fault Refusal :=
  .next (s.through none fun _ d =>
    let r := lockRead (readers.eraseDups.filter d.admits) i cycle d
    each r.1 (fun x => emit (.value x.1 (aLock i) (word x.2))) r.2)

/-- A write of a lock register: released by its owner, else counted (R403). -/
def lockWrite (q : Requester) (i : Nat) (d : Dev) : Dev := match masterId q with
  | none => d
  | some m =>
    if mget none d.locks i = some m then { d with locks := mdel d.locks i }
    else d |> count 0xE900800 |> setReg 0xE900804 (word (m * 256 + i))

/-- LOCK_WRITE (R403). -/
def execLockWrite (q : Requester) (i : Fin 256) (s : State) : Host.Outcome State Fault Refusal :=
  .next (s.atReg q (aLock i) fun _ d => lockWrite q i d)

/-! ### I2C masters (R405-R407) -/

def Dev.i2cBusy (d : Dev) (n : Nat) : Bool := d.flag (aI2c n + 4) 31

/-- DONE drives source 192 + n. -/
def i2cSync (n : Nat) (d : Dev) : Dev := sourceLevel (192 + n) (d.flag (aI2c n + 8) 7) d

/-- The buffer of a master, 64 bytes. -/
def Dev.i2cBuffer (d : Dev) (n : Nat) : List Byte :=
  (List.range 16).flatMap fun i => leBytes 4 (d.reg (aI2c n + 0x40 + 4 * i)).toNat

/-- The transaction ends: bytes read are stored, a status bit tells a fault, DONE is set as BUSY falls. -/
def i2cEnd (n : Nat) (fault : Option Nat) (moved : Nat) (rd : List Byte) (d : Dev) : Dev :=
  let b := putBytes (d.i2cBuffer n) 0 rd
  d |> each (List.range 16) (fun i => setReg (aI2c n + 0x40 + 4 * i) (word (le b (4 * i) 4)))
    |> setFld (aI2c n + 8) 15 8 moved |> (match fault with | some i => setFlag (aI2c n + 8) i true | none => id)
    |> setFlag (aI2c n + 8) 7 true |> setFlag (aI2c n + 4) 31 false |> i2cSync n

/-- A write of I2C_CMD; with GO it starts the transaction of R407. A GO that is refused changes nothing. -/
def i2cCmdWrite (n : Nat) (v : Word) (sdaLow : Bool) (d : Dev) : Dev :=
  if d.i2cBusy n then badAccess d
  else if !v.getLsbD 30 then setReg (aI2c n + 4) (v &&& 0x23FFFFFF) d
  else if !d.flag (aI2c n) 31 || wbits v 15 8 > 64 || wbits v 7 0 > 64 then badAccess d
  else
    let d := d |> setReg (aI2c n + 4) ((v &&& 0x23FFFFFF) ||| 0x80000000) |> setFld (aI2c n + 8) 15 2 0 |> i2cSync n
    if sdaLow then i2cEnd n (some 2) 0 [] d
    else emit (.i2c n (d.reg (aI2c n + 4)) ((d.i2cBuffer n).take (wbits v 7 0))) d

/-- I2C_GO (R407). -/
def execI2cGo (q : Requester) (n : Fin 8) (v : Word) (sdaLow : Bool) (s : State) : Host.Outcome State Fault Refusal :=
  .next (s.atReg q (aI2c n + 4) fun _ d => i2cCmdWrite n v sdaLow d)

/-- RECOVER: 9 SCL pulses and a STOP, when the master drives the bus and is not busy. -/
def i2cRecover (n : Nat) (d : Dev) : Dev := when (!d.i2cBusy n && d.flag (aI2c n) 31) (emit (.i2cRecover n)) d

/-- I2C_RECOVER (R406). -/
def execI2cRecover (q : Requester) (n : Fin 8) (s : State) : Host.Outcome State Fault Refusal :=
  .next (s.atReg q (aI2c n) fun _ d => i2cRecover n d)

/-- A transaction ends, other than by timeout. -/
def i2cDone (n : Nat) (res : I2cEnd) (d : Dev) : Dev :=
  if !d.i2cBusy n then d
  else
    let rl := d.fld (aI2c n + 4) 15 8
    match res with
    | .ok rd => i2cEnd n none (d.fld (aI2c n + 4) 7 0 + rl) (padTo rl rd) d
    | .nackAddr m => i2cEnd n (some 6) m [] d
    | .nackData m => i2cEnd n (some 5) m [] d
    | .arbLost m => i2cEnd n (some 4) m [] d

/-- I2C_DONE (R407). -/
def execI2cDone (n : Fin 8) (res : I2cEnd) (s : State) : Host.Outcome State Fault Refusal :=
  .next (s.onDev fun _ d => i2cDone n res d)

/-- I2C_TIMEOUT (R407): SCL held low for more than 25 ms, after `acked` bytes written and the bytes read so far. -/
def execI2cTimeout (n : Fin 8) (acked : Nat) (rd : List Byte) (s : State) : Host.Outcome State Fault Refusal :=
  .next (s.onDev fun _ d => if d.i2cBusy n then i2cEnd n (some 3) (acked + rd.length) rd d else d)

end Sys2Proof.Machine
end

