-- ==== Sys2Proof/Machine/Flash.lean ====
section
/-!
DEFINITION. The SPI NOR (22_firmware_field_lock.md): reading, programming and erasing it, the image slots and their
check, the board record, the event log.
-/
namespace Sys2Proof.Machine

/-! ### The flash (R480, R481) -/

/-- Bytes of the flash; erased bytes read 0xFF. -/
def flashAt (nv : Nv) (o : Nat) : Byte := mget 0xFF nv.flash o
def flashRead (nv : Nv) (o n : Nat) : List Byte := (List.range n).map fun i => flashAt nv (o + i)

/-- Program bytes: a NOR device only clears bits (PRESUMED, log 42). -/
def flashProgram (o : Nat) (b : List Byte) (nv : Nv) : Nv :=
  { nv with flash := (b.zipIdx).foldl (fun f x => mset 0xFF f (o + x.2) (mget 0xFF f (o + x.2) &&& x.1)) nv.flash }

/-- Erase a range. -/
def flashErase (o n : Nat) (nv : Nv) : Nv := { nv with flash := nv.flash.filter fun c => !(o ≤ c.1 && c.1 < o + n) }

/-- Give a range arbitrary contents. -/
def flashStore (o : Nat) (b : List Byte) (nv : Nv) : Nv :=
  { nv with flash := (b.zipIdx).foldl (fun f x => mset 0xFF f (o + x.2) x.1) nv.flash }

/-! ### The event log (R485, R486) -/

def aLog := 0x900000

/-- Log sectors that are not blank. -/
def logSectors (nv : Nv) : List Nat :=
  nv.flash.foldl (fun l c =>
    let s := (c.1 - aLog) / 65536
    if c.1 < aLog || s ≥ 880 || l.contains s then l else l ++ [s]) []

/-- Record slots of a sector up to its last byte that is not blank. -/
def logUsed (nv : Nv) (s : Nat) : Nat :=
  nv.flash.foldl (fun n c => if aLog + 65536 * s ≤ c.1 && c.1 < aLog + 65536 * (s + 1) then max n ((c.1 - aLog) % 65536 / 64 + 1) else n) 0

/-- The committed record of a slot. -/
def logRecord (nv : Nv) (s i : Nat) : Option (List Byte) :=
  let b := flashRead nv (aLog + 65536 * s + 64 * i) 64
  if byteAt b 63 = 0x3C then some b else none

/-- Every committed record. -/
def logRecords (nv : Nv) : List (List Byte) :=
  (logSectors nv).flatMap fun s => (List.range (logUsed nv s)).filterMap (logRecord nv s)

/-- The newest sector: the one whose first record has the highest SEQ. -/
def logNewest (nv : Nv) : Option (Nat × Nat) :=
  (logSectors nv).foldl (fun w s => match logRecord nv s 0, w with
    | none, _ => w
    | some b, none => some (s, le b 0 8)
    | some b, some (_, q) => if q < le b 0 8 then some (s, le b 0 8) else w) none

/-- The next SEQ: one more than the highest of the newest sector. -/
def logNextSeq (nv : Nv) : Nat := match logNewest nv with
  | none => 1
  | some (s, _) => ((List.range (logUsed nv s)).filterMap (logRecord nv s)).foldl (fun m b => max m (le b 0 8)) 0 + 1

/-- Where the next record goes: behind the newest, in the next sector when that one is full; a sector that is not blank is
erased first. -/
def logPlace (nv : Nv) : Nat × Nv :=
  let fresh := fun s => (aLog + 65536 * s, flashErase (aLog + 65536 * s) 65536 nv)
  match logNewest nv with
  | none => fresh 0
  | some (s, _) =>
    let i := logUsed nv s
    if i < 1024 then (aLog + 65536 * s + 64 * i, nv) else fresh ((s + 1) % 880)

/-- Write one record. -/
def logAppend (code a0 a1 time : Nat) (nv : Nv) : Nv :=
  let b := leBytes 8 (logNextSeq nv) ++ leBytes 8 time ++ leBytes 2 code ++ leBytes 2 0 ++ leBytes 4 a0 ++ leBytes 4 a1 ++
    leBytes 35 0 ++ [0x3C]
  flashProgram (logPlace nv).1 b (logPlace nv).2

/-- A record whose writing the device failed: its place holds any bytes (log 155). -/
def logTorn (b : List Byte) (nv : Nv) : Nv := flashStore (logPlace nv).1 b (logPlace nv).2

/-- The slot to be activated: that of the committed selection record with the highest SEQ, else 0 (R486). -/
def selectedSlot (nv : Nv) : Nat :=
  ((logRecords nv).foldl (fun (w : Nat × Nat) b =>
    if le b 16 2 = 5 && w.1 < le b 0 8 then (le b 0 8, le b 20 4 % 2) else w) (0, 0)).2

/-! ### Images (R482, R483) -/

def aSlot (s : Nat) : Nat := 0x100000 + 0x400000 * s

/-- Step 1 of the check: COMMIT, MAGIC and LENGTH. -/
def headerGood (h : List Byte) : Bool :=
  byteAt h 4095 == 0x3C && bytesAt h 0 4 == [0x46, 0x4A, 0x49, 0x4D] && 1 ≤ le h 8 4 && le h 8 4 ≤ 0x300000

/-- The first step of the check that a slot fails. -/
def slotFault (nv : Nv) (s : Nat) : Option Nat :=
  let h := flashRead nv (aSlot s) 4096
  if !headerGood h then some 1
  else if Config.sha384 (bytesAt h 16 97) != Config.keyHash then some 2
  else if !Config.ecdsaVerifies (bytesAt h 16 97) (bytesAt h 128 96) (h.take 128 ++ flashRead nv (aSlot s + 4096) (le h 8 4)) then
    some 3
  else none

/-- VERSION as stored in a slot's header. -/
def slotVersion (nv : Nv) (s : Nat) : Nat := leNat (flashRead nv (aSlot s + 4) 4)

/-! ### Board configuration record (R484) -/

/-- SSVID and SSID of the record, none when it is absent. -/
def boardRecord (nv : Nv) : Option (Nat × Nat) :=
  let b := flashRead nv 0 64
  if byteAt b 63 = 0x3C && bytesAt b 0 4 = [0x46, 0x4A, 0x42, 0x43] then some (le b 4 2, le b 6 2) else none

end Sys2Proof.Machine
end

