-- ==== Sys2Proof/Machine/Integrity.lean ====
section
/-!
DEFINITION. Memory integrity (19_memory_integrity.md): scrubbing, checker tests, the flip mask, spares and field repair.
The check code and the checked reads themselves are in Machine/Ops.lean.
-/
namespace Sys2Proof.Machine

/-! ### The MEM block (R426) -/

def aMemErr := 0xE001004

/-- Only the manager and cores 0-3 write the block. -/
def managerOr03 : Requester → Bool
  | .manager => true
  | .core c => (c : Nat) < 4
  | _ => false

def mgrGate (q : Requester) (go : Dev → Dev) (d : Dev) : Dev := if managerOr03 q then go d else refuseWrite q d

/-- FLIP_CTRL, SPARE_CMD and the like: refused inside the block. -/
def memRefused (d : Dev) : Dev := count aMemErr d

/-! ### Scrubbing (R429-R431) -/

/-- The offsets of words in a range that may be other than clean zeros, outside the test window, in ascending order. -/
def Dev.dirtyWords (d : Dev) (m lo len : Nat) : List Nat :=
  let inside := fun o => lo ≤ o && o < lo + len && !inTest m o
  let base := memKey m 0
  let a := d.mem.filterMap fun e => if base ≤ e.1 && e.1 < memKey (m + 1) 0 && inside (e.1 - base) then some ((e.1 - base) / 8 * 8) else none
  let b := d.chk.filterMap fun e =>
    if base / 8 ≤ e.1 && e.1 < memKey (m + 1) 0 / 8 && inside (8 * e.1 - base) then some (8 * e.1 - base) else none
  (a ++ b).foldl (fun l o => if l.contains o then l else l.takeWhile (· < o) ++ [o] ++ l.dropWhile (· < o)) []

/-- Words of a range, those of the test window left out. -/
def scrubWords (m lo len : Nat) : Nat :=
  let cut := min (lo + len) (testHi m) - max lo (testLo m)
  (len - cut) / 8

/-- What a scrub finds: words corrected, words uncorrectable or poisoned, the lowest offset of one. -/
structure ScrubSum where
  corrected : Nat := 0
  bad : Nat := 0
  first : Nat := 2 ^ 64 - 1
deriving DecidableEq, Repr

def scrubWalk (m : Nat) (l : List Nat) (d : Dev) : ScrubSum × Dev :=
  l.foldl (fun a o =>
    let r := readWord m o a.2
    let s := a.1
    (if r.1.outcome = 1 then { s with corrected := s.corrected + 1 }
     else if r.1.outcome ≥ 2 then { s with bad := s.bad + 1, first := min s.first o } else s, r.2)) ({}, d)

/-- The faults of a scrub's range, in the order of the fields. -/
def scrubFault (m start len : Nat) : Option Nat :=
  if m > 11 then some 0
  else if start % 8 != 0 then some 8
  else if len = 0 || len % 8 != 0 || start + len > memSize m then some 16 else none

/-- The shortest time that a scrub of n bytes takes (R429). -/
def scrubTime (m n : Nat) : Nat := if m < 8 then (n + 99) / 100 else (n + 59) / 60

/-- SCRUB (R429). -/
def scrubCmd (r : Ring) (e : Exec) (b : List Byte) (d : Dev) : Dev :=
  let m := byteAt b 0
  let fault := if m > 11 then some 0 else if !zeroAt b 1 7 then some 1 else scrubFault m (le b 8 8) (le b 16 8)
  match fault with
  | some o => reply r stBadParam o [] d
  | none =>
    if (mfind d.scrubs m).isSome then (if bit e.flags 0 then d else reply r stNoResource (0x200 + m) [] d)
    else begin' r { d with scrubs := mput d.scrubs m { start := le b 8 8, len := le b 16 8, began := d.time, ring := some r } }

/-- SCRUB (R429). -/
def execScrub (r : Ring) (p : Read) (s : State) : Host.Outcome State Fault Refusal :=
  .next (s.onDev fun _ d => command r 0x0B01 p (scrubCmd r) d)

def Dev.scrubBusy (d : Dev) : Bool := d.flag 0xE002004 31

/-- The register path ends with a status. -/
def scrubEnd (st : Nat) (d : Dev) : Dev := d |> setReg 0xE002004 (word st) |> memEvent 24 (d.fld 0xE002000 3 0)

/-- A write of SCRUB_CTRL. -/
def scrubCtrlWrite (v : Word) (d : Dev) : Dev :=
  if d.scrubBusy then memRefused d
  else
    let m := wbits v 3 0
    let d := setReg 0xE002000 (word m) d
    if !v.getLsbD 31 then d
    else
      let d := d |> setReg 0xE002018 0 |> setReg 0xE00201C 0 |> setReg 0xE002020 0 |> setReg64 0xE002024 (2 ^ 64 - 1) |> setReg 0xE00202C 0
      match scrubFault m (d.reg64 0xE002008) (d.reg64 0xE002010) with
      | some _ => scrubEnd stBadParam d
      | none =>
        if (mfind d.scrubs m).isSome then scrubEnd stNoResource d
        else
          let x : Scrub := { start := d.reg64 0xE002008, len := d.reg64 0xE002010, began := d.time, ring := none }
          { setReg 0xE002004 (word (2 ^ 31 + stPending)) d with scrubs := mput d.scrubs m x }

/-- SCRUB_GO (R430). -/
def execScrubGo (q : Requester) (v : Word) (s : State) : Host.Outcome State Fault Refusal :=
  .next (s.atReg q 0xE002000 fun _ d => mgrGate q (scrubCtrlWrite v) d)

/-- A scrub ends: its words are read, and its summary answers. -/
def scrubDone (m : Nat) (d : Dev) : Dev := match mfind d.scrubs m with
  | none => d
  | some x =>
    let n := scrubWords m x.start x.len
    let d := timeTo (x.began + scrubTime m (8 * n)) d
    let w := scrubWalk m (d.dirtyWords m x.start x.len) { d with scrubs := mdel d.scrubs m }
    let us := (d.time - x.began) / 1000
    match x.ring with
    | some r => reply r stOk 0 [n, w.1.corrected, w.1.bad, lo32 w.1.first, hi32 w.1.first, us] w.2
    | none =>
      w.2 |> setReg 0xE002018 (word n) |> setReg 0xE00201C (word w.1.corrected) |> setReg 0xE002020 (word w.1.bad)
        |> setReg64 0xE002024 w.1.first |> setReg 0xE00202C (word us) |> scrubEnd stOk

/-- SCRUB_DONE (R430). -/
def execScrubDone (m : Fin 12) (s : State) : Host.Outcome State Fault Refusal :=
  .next (s.onDev fun _ d => scrubDone m d)

/-! ### Checker tests (R432) -/

def aTestStatus := 0xE00301C

/-- An operation of the test registers: refused misaligned, beyond the memory, or outside the window under the lock. -/
def testOp (nv : Nv) (go : Nat → Nat → Dev → Dev) (d : Dev) : Dev :=
  let m := d.fld 0xE003000 3 0
  let o := d.reg64 0xE003004
  if o % 8 != 0 || o ≥ memSize m then d |> setReg aTestStatus (word stBadParam) |> memRefused
  else if nv.fieldLock && !inTest m o then d |> setReg aTestStatus (word stDenied) |> memRefused
  else go m o d

/-- Raw write: DATA and CHECK stored as given. -/
def rawWrite (m o : Nat) (d : Dev) : Dev :=
  d |> storeRaw m o (d.reg64 0xE00300C) (d.fld 0xE003014 7 0) |> when (8 ≤ m) (hbmTouched ((m - 8) * 2 ^ 34 + o))
    |> setReg aTestStatus (word stOk)

/-- Raw read: the stored data and check bits. -/
def rawRead (m o : Nat) (d : Dev) : Dev :=
  let w := d.rawWord m o
  d |> setReg64 0xE00300C w.1 |> setReg 0xE003014 (word w.2) |> setReg aTestStatus (word stOk)

/-- Checked read: the data as R422 returns it, the stored check bits, and the judgement. -/
def checkedRead (m o : Nat) (d : Dev) : Dev :=
  let w := d.rawWord m o
  let r := eccJudge w.1 w.2
  d |> when (d.flag 0xE003000 31) (eccReport m o r) |> eccRewrite m o w.2 r
    |> setReg64 0xE00300C r.data |> setReg 0xE003014 (word w.2)
    |> setReg aTestStatus (word (2 ^ 24 * r.bit + 2 ^ 16 * r.syndrome + 2 ^ 8 * r.outcome + stOk))

/-- A write of TEST_OP. -/
def testOpWrite (nv : Nv) (op : Nat) (d : Dev) : Dev :=
  if op = 1 then testOp nv rawWrite d else if op = 2 then testOp nv rawRead d else if op = 3 then testOp nv checkedRead d else d

/-- TEST_RAW_WRITE (R432). -/
def execTestRawWrite (q : Requester) (s : State) : Host.Outcome State Fault Refusal :=
  .next (s.atReg q 0xE003018 fun nv d => mgrGate q (testOpWrite nv 1) d)
/-- TEST_RAW_READ (R432). -/
def execTestRawRead (q : Requester) (s : State) : Host.Outcome State Fault Refusal :=
  .next (s.atReg q 0xE003018 fun nv d => mgrGate q (testOpWrite nv 2) d)
/-- TEST_CHECKED_READ (R432). -/
def execTestCheckedRead (q : Requester) (s : State) : Host.Outcome State Fault Refusal :=
  .next (s.atReg q 0xE003018 fun nv d => mgrGate q (testOpWrite nv 3) d)

/-- A write of FLIP_CTRL (R433): ANYWHERE is refused under the lock. -/
def flipCtrlWrite (nv : Nv) (v : Word) (d : Dev) : Dev :=
  if nv.fieldLock && v.getLsbD 30 then d |> setReg 0xE00310C (v &&& 0x8000000F) |> memRefused
  else setReg 0xE00310C (v &&& 0xC000000F) d

/-- FLIP_CTRL_WRITE (R433). -/
def execFlipCtrlWrite (q : Requester) (v : Word) (s : State) : Host.Outcome State Fault Refusal :=
  .next (s.atReg q 0xE00310C fun nv d => mgrGate q (flipCtrlWrite nv v) d)

/-! ### Spares (R434-R437) -/

/-- Whether a unit is repaired, and whether that repair is committed. -/
def repaired (nv : Nv) (d : Dev) (m u : Nat) : Bool :=
  d.repairs.any (fun r => r.mem == m && r.unit == u) || nv.slots.any fun s => s.mem == m && s.unit == u && s.committed
def committedAt (nv : Nv) (d : Dev) (m u : Nat) : Bool :=
  d.repairs.any (fun r => r.mem == m && r.unit == u && r.committed) || nv.slots.any fun s => s.mem == m && s.unit == u && s.committed

def volatileCap (m : Nat) : Nat := if m < 8 then 8 else 64
def Dev.volatileUsed (d : Dev) (m : Nat) : Nat := (d.repairs.filter (·.mem == m)).length
def slotsUsed (nv : Nv) (m : Nat) : Nat := (nv.slots.filter (·.mem == m)).length

/-- A unit's 128 words are copied, through the checker. -/
def copyUnit (m u : Nat) (d : Dev) : Dev := each (List.range 128) (fun i d => (readWord m (u + 8 * i) d).2) d

def spareResult (st : Nat) (d : Dev) : Dev := setReg 0xE00400C (word st) d

/-- Add a volatile repair of the unit. -/
def spareAdd (nv : Nv) (m : Nat) (d : Dev) : Dev :=
  let u := d.reg64 0xE004004
  if u ≥ memSize m then spareResult stBadParam d
  else if repaired nv d m u then spareResult stExists d
  else if d.volatileUsed m ≥ volatileCap m then spareResult stNoResource d
  else
    let d := copyUnit m u d
    spareResult stOk { d with repairs := d.repairs ++ [{ mem := m, unit := u }] }

/-- End an uncommitted repair of the unit. -/
def spareRemove (nv : Nv) (m : Nat) (d : Dev) : Dev :=
  let u := d.reg64 0xE004004
  if u ≥ memSize m then spareResult stBadParam d
  else if !repaired nv d m u then spareResult stNotFound d
  else if committedAt nv d m u then spareResult stDenied d
  else
    let d := copyUnit m u d
    spareResult stOk { d with repairs := d.repairs.filter fun r => !(r.mem == m && r.unit == u) }

/-- A write of SPARE_CMD. -/
def spareCmdWrite (nv : Nv) (v : Word) (d : Dev) : Dev :=
  let m := wbits v 3 0
  let d := setReg 0xE004000 (v &&& 0x30F) d
  if !v.getLsbD 31 then d
  else if wbits v 9 8 = 1 then spareAdd nv m d
  else if wbits v 9 8 = 2 then spareRemove nv m d
  else spareResult stBadParam d

/-- SPARE_ADD (R435). -/
def execSpareAdd (q : Requester) (m : Fin 16) (s : State) : Host.Outcome State Fault Refusal :=
  .next (s.atReg q 0xE004000 fun nv d => mgrGate q (spareCmdWrite nv (word (2 ^ 31 + 0x100 + m))) d)
/-- SPARE_REMOVE (R435). -/
def execSpareRemove (q : Requester) (m : Fin 16) (s : State) : Host.Outcome State Fault Refusal :=
  .next (s.atReg q 0xE004000 fun nv d => mgrGate q (spareCmdWrite nv (word (2 ^ 31 + 0x200 + m))) d)

/-- Commit the repairs of a list in order, until one fails: status and detail, and how many were committed. `bad`
lists the slots whose read-back differs. -/
def commitAll (m : Nat) (bad : List Nat) : List Repair → Nat → Nv × Dev → (Nat × Nat × Nat) × Nv × Dev
  | [], n, x => ((stOk, 0, n), x)
  | r :: l, n, (nv, d) =>
    let k := slotsUsed nv m
    if k ≥ 16 then ((stNoResource, 0x300 + m, n), nv, d)
    else if bad.contains k then
      ((stMediaError, k, n), { nv with slots := nv.slots ++ [{ mem := m, unit := r.unit, committed := false }] }, d)
    else
      commitAll m bad l (n + 1)
        ({ nv with slots := nv.slots ++ [{ mem := m, unit := r.unit, committed := true }] },
         { d with repairs := d.repairs.map fun x => if x.mem = m ∧ x.unit = r.unit then { x with committed := true } else x })

/-- SPARE_COMMIT (R436). -/
def spareCommit (nv : Nv) (r : Ring) (bad : List Nat) (b : List Byte) (d : Dev) : Nv × Dev :=
  let m := byteAt b 0
  if m > 11 then (nv, reply r stBadParam 0 [] d)
  else if !zeroAt b 1 3 then (nv, reply r stBadParam 1 [] d)
  else
    let x := commitAll m bad (d.repairs.filter fun y => y.mem == m && !y.committed) 0 (nv, d)
    let a := x.1
    (logAppend 6 m a.2.2 d.time x.2.1, reply r a.1 a.2.1 [a.2.2, 16 - slotsUsed x.2.1 m] x.2.2)

/-- SPARE_COMMIT (R436). -/
def execSpareCommit (r : Ring) (p : Read) (bad : List Nat) (s : State) : Host.Outcome State Fault Refusal :=
  .next (s.onBoth fun nv d => commandTo (fun d => (nv, d)) r 0x0B02 p (fun _ b d => spareCommit nv r bad b d) d)

end Sys2Proof.Machine
end

