-- ==== Sys2Proof/Machine/Firmware.lean ====
section
/-!
DEFINITION. Firmware images and the field lock (22_firmware_field_lock.md): activation, FW_SELECT and FW_QUERY, flash
access by the manager, the lock fuse.
-/
namespace Sys2Proof.Machine

/-! ### Activation (R176, R483) -/

/-- CMD_STATUS.SLOT. -/
def Dev.slot (d : Dev) : Nat := d.fld 0xD801004 4 4

/-- An image starts: copied into the Onatar region, and named as running. -/
def startImage (nv : Nv) (s : Nat) (failed : Bool) (d : Dev) : Dev :=
  d |> writeMem 4 0 (flashRead nv (aSlot s + 4096) (leNat (flashRead nv (aSlot s + 8) 4))) false
    |> setFld 0xD801004 4 4 s |> setFlag 0xD801004 1 failed |> updPower fun x => { x with noImage := false }

/-- The selected slot is checked and started, else the other one; `record` is what firmware logs of the reset once it
runs: code and argument. The order of its records is the model's (log 43). -/
def activate (record : Nat × Nat) (nv : Nv) (d : Dev) : Nv × Dev :=
  let s := selectedSlot nv
  let started := fun k (nv : Nv) => logAppend 3 k (slotVersion nv k) d.time nv
  let begun := logAppend record.1 record.2 0 d.time
  match slotFault nv s with
  | none => (nv |> begun |> started s, startImage nv s false d)
  | some f =>
    match slotFault nv (1 - s) with
    | none => (nv |> begun |> logAppend 2 s f d.time |> started (1 - s), startImage nv (1 - s) true d)
    | some _ => (nv, d |> setFlag 0xD801004 1 true |> updPower fun x => { x with noImage := true })

/-! ### Commands (R488, R489) -/

/-- An operation of the SPI registers waits or runs. -/
def Dev.spiBusy (d : Dev) : Bool := d.flag 0x200 30

/-- FW_SELECT: it waits for an SPI operation in progress (R487). Whether the log record reads back is free (log 155). -/
def fwSelect (r : Ring) (b : List Byte) (nv : Nv) (d : Dev) : Nv × Dev :=
  let s := byteAt b 0
  let fault := if s > 1 then some 0 else if byteAt b 1 > 1 then some 1 else if !zeroAt b 2 2 then some 2 else none
  if d.spiBusy then (nv, d)
  else match fault with
    | some o => (nv, reply r stBadParam o [] d)
    | none =>
      match (if byteAt b 1 = 1 then slotFault nv s else none) with
      | some f => (nv, reply r stBadParam (0x100 + f) [] d)
      | none =>
        let x := drawWord d
        if x.1.getLsbD 0 then
          let y := drawBytes 64 x.2
          (logTorn y.1 nv, reply r stMediaError 0 [] y.2)
        else (logAppend 5 s 0 d.time nv, reply r stOk 0 [] x.2)

/-- FW_SELECT (R488). -/
def execFwSelect (r : Ring) (p : Read) (s : State) : Host.Outcome State Fault Refusal :=
  .next (s.onBoth fun nv d => commandTo (fun d => (nv, d)) r 0x0010 p (fun _ b d => fwSelect r b nv d) d)

/-- The result words of FW_QUERY. -/
def fwWords (nv : Nv) (d : Dev) : List Nat :=
  let v := fun s => if headerGood (flashRead nv (aSlot s) 4096) then slotVersion nv s else 0
  [slotVersion nv d.slot, d.slot + 2 * selectedSlot nv + 4 * d.fld 0xD801004 1 1, v 0, v 1, lo32 (logNextSeq nv), b2n nv.fieldLock]

/-- FW_QUERY (R489). -/
def execFwQuery (r : Ring) (p : Read) (s : State) : Host.Outcome State Fault Refusal :=
  .next (s.onDev fun nv d => command r 0x0011 p (fun _ _ d => reply r stOk 0 (fwWords nv d) d) d)

/-! ### Flash access by the manager (R487) -/

/-- The manager writes; any other requester is refused as R391 lays down. -/
def managerGate (q : Requester) (go : Dev → Dev) (d : Dev) : Dev := if q = .manager then go d else refuseWrite q d

/-- A write of SPI_CTRL: GO starts OP, which runs or waits (SPI_OP_DONE). -/
def spiCtrlWrite (v : Word) (d : Dev) : Dev :=
  if d.spiBusy then badAccess d
  else if v.getLsbD 31 then d |> setReg 0x200 (word (2 ^ 30 + wbits v 1 0)) |> setReg 0x20C (word stPending)
  else setReg 0x200 (word (wbits v 1 0)) d

/-- SPI_READ (R487). -/
def execSpiRead (q : Requester) (s : State) : Host.Outcome State Fault Refusal :=
  .next (s.atReg q 0x200 fun _ d => managerGate q (spiCtrlWrite (word (2 ^ 31 + 1))) d)
/-- SPI_PROGRAM (R487). -/
def execSpiProgram (q : Requester) (s : State) : Host.Outcome State Fault Refusal :=
  .next (s.atReg q 0x200 fun _ d => managerGate q (spiCtrlWrite (word (2 ^ 31 + 2))) d)
/-- SPI_ERASE (R487). -/
def execSpiErase (q : Requester) (s : State) : Host.Outcome State Fault Refusal :=
  .next (s.atReg q 0x200 fun _ d => managerGate q (spiCtrlWrite (word (2 ^ 31 + 3))) d)

/-- Why an operation is refused: a bad range, or what program and erase may not touch. -/
def spiFault (op addr len : Nat) (d : Dev) : Option Nat :=
  let meets := fun lo hi => addr < hi && lo < addr + len
  if op = 0 || len = 0 || len > 0x400000 || addr + len > 0x4000000 || (op = 3 && (addr % 65536 != 0 || len % 65536 != 0)) then
    some stBadParam
  else if op ≥ 2 && (meets aLog 0x4000000 || meets 0x10000 0x100000 || meets (aSlot d.slot) (aSlot d.slot + 0x400000)) then
    some stDenied
  else none

def spiEnd (st det : Nat) (d : Dev) : Dev := d |> setReg 0x20C (word (st + 256 * det)) |> setFlag 0x200 30 false

/-- The first offset at which the flash differs from what was programmed. -/
def spiDiffers (nv : Nv) (addr : Nat) (b : List Byte) : Option Nat :=
  (b.zipIdx.find? fun x => flashAt nv (addr + x.2) != x.1).map fun x => addr + x.2

/-- Program or erase ends where the device reports a failure: what lies from there on is open (log 44). -/
def spiBroken (op addr len off : Nat) (b : List Byte) (nv : Nv) (d : Dev) : Nv × Dev :=
  let k := min (off - addr) len
  let x := drawBytes (len - k) d
  let nv := if op = 2 then flashProgram addr (b.take k) nv else flashErase addr k nv
  (flashStore (addr + k) x.1 nv, spiEnd stMediaError off x.2)

/-- A flash operation runs once the adapter is ready, and ends; `fault` is the offset at which the device failed. -/
def spiOpDone (fault : Option Nat) (nv : Nv) (d : Dev) : Nv × Dev :=
  let op := d.fld 0x200 1 0
  let addr := d.fld 0x204 25 0
  let len := d.fld 0x208 22 0
  if !d.spiBusy || !d.ready then (nv, d)
  else match spiFault op addr len d with
    | some st => (nv, spiEnd st 0 d)
    | none =>
      if op = 1 then
        match fault with
        | some off => (nv, spiEnd stMediaError off d)
        | none => (nv, d |> writeHbm stagingBase (flashRead nv addr len) false |> spiEnd stOk 0)
      else
        let r := if op = 2 then readHbm stagingBase len d else ([], false, d)
        match fault with
        | some off => spiBroken op addr len off r.1 nv r.2.2
        | none =>
          if op = 3 then (flashErase addr len nv, spiEnd stOk 0 d)
          else
            let nv' := flashProgram addr r.1 nv
            match spiDiffers nv' addr r.1 with
            | some off => (nv', spiEnd stMediaError off r.2.2)
            | none => (nv', spiEnd stOk 0 r.2.2)

/-- SPI_OP_DONE (R487). -/
def execSpiOpDone (fault : Option Nat) (s : State) : Host.Outcome State Fault Refusal :=
  .next (s.onBoth fun nv d => spiOpDone fault nv d)

/-! ### The field lock (R491) -/

/-- A write of FUSE_LOCK_CMD: the first key, the second key behind it, or a cancellation. -/
def fuseLockCmdWrite (v : Word) (d : Dev) : Dev :=
  updPower (fun x =>
    if v = 0x4C4F434B then { x with lockArmed := true }
    else if v = 1 && x.lockArmed then { x with lockArmed := false, lockBusy := true, lockFail := false }
    else { x with lockArmed := false }) d

/-- FUSE_LOCK_CMD_WRITE (R491). -/
def execFuseLockCmdWrite (q : Requester) (v : Word) (s : State) : Host.Outcome State Fault Refusal :=
  .next (s.atReg q 0x134 fun _ d => managerGate q (fuseLockCmdWrite v) d)

/-- The fuse is burned and read back. -/
def fieldLockDone (readBack : Bool) (nv : Nv) (d : Dev) : Nv × Dev :=
  if !d.power.lockBusy then (nv, d)
  else if readBack then
    let nv := { nv with fieldLock := true }
    (if d.power.noImage then nv else logAppend 7 0 0 d.time nv, updPower (fun x => { x with lockBusy := false }) d)
  else (nv, updPower (fun x => { x with lockBusy := false, lockFail := true }) d)

/-- FIELD_LOCK_BURN_DONE (R491). -/
def execFieldLockBurnDone (readBack : Bool) (s : State) : Host.Outcome State Fault Refusal :=
  .next (s.onBoth fun nv d => fieldLockDone readBack nv d)

end Sys2Proof.Machine
end

