-- ==== Sys2Proof/Machine/Channels.lean ====
section
/-!
DEFINITION. Stitch channels (18_stitch_engine.md): CH_CTRL and the other channel registers, the start queue, disabling.
What a running program does is in Machine/Stitch.lean.
-/
namespace Sys2Proof.Machine

/-! ### Interrupts and ends (R414, R418) -/

/-- The level of a channel's interrupt source. -/
def Chan.level (x : Chan) : Bool := (x.done && bit x.intEn 0) || (x.err && bit x.intEn 1) || (x.sig && bit x.intEn 2)

/-- CH_STATUS bits 2:0. -/
def Chan.bits3 (x : Chan) : Nat := b2n x.done + 2 * b2n x.err + 4 * b2n x.sig

/-- Change a channel; its interrupt level follows, and each rise raises STITCH_EVENT. -/
def setChan (e ch : Nat) (f : Chan → Chan) (d : Dev) : Dev :=
  let was := (d.chan e ch).level
  let d := updChan e ch f d
  let x := d.chan e ch
  d |> sourceLevel (160 + 16 * e + ch) x.level |> when (x.level && !was) (raise 0x0E e ch x.bits3)

/-- The engine is free again. -/
def engineFree (e ch : Nat) (d : Dev) : Dev := updEngine e (fun x => if x.running = some ch then { x with running := none } else x) d

/-- A program ends in a fault: ERR and its code, CH_PC as it stands. -/
def chFault (e ch code : Nat) (d : Dev) : Dev :=
  d |> setChan e ch (fun x => { x with state := 0, err := true, errCode := code, waiting := none }) |> engineFree e ch

/-- A program ends by END: without fault, or with POISONED when it moved poisoned data (R415). -/
def chEnd (e ch : Nat) (d : Dev) : Dev :=
  if (d.chan e ch).poison then chFault e ch stPoisoned d
  else d |> setChan e ch (fun x => { x with state := 0, done := true, waiting := none }) |> engineFree e ch

/-! ### Who may write (R408) -/

def aStErr (e : Nat) : Nat := 0xF001004 + 0x10000 * e
def stErr (e : Nat) (d : Dev) : Dev := count (aStErr e) d

/-- A write to a channel's registers under R408. A refused write to channel 0 counts in DEV_BAD_ACCESS and, as any write
that these rules refuse, in ST_ERR. -/
def chGate (q : Requester) (e ch : Nat) (go : Dev → Dev) (d : Dev) : Dev := match q with
  | .core c =>
    if (c : Nat) < 4 then go d
    else if ch = 0 then d |> badAccess |> stErr e |> coreDenied c
    else if (d.chan e ch).customer then go d
    else coreDenied c (stErr e d)
  | .manager => if ch = 0 then d |> badAccess |> stErr e else go d
  | _ => badAccess d

/-- Whether a requester may change CUSTOMER. -/
def mayCustomer : Requester → Bool
  | .core c => (c : Nat) < 4
  | .manager => true
  | _ => false

/-! ### CH_CTRL (R409, R416, R417) -/

/-- START on an idle channel: to the tail of the engine's queue. -/
def chStart (e ch : Nat) (d : Dev) : Dev :=
  d |> setChan e ch (fun x => { x with state := 1, done := false, err := false, sig := false, errCode := 0, bytes := 0
                                       poison := false, waiting := none, levels := List.replicate 4 (false, 0) })
    |> updEngine e fun x => { x with queue := x.queue ++ [ch] }

/-- DISABLE takes the channel out of the queue, or stops it issuing. -/
def chStop (e ch : Nat) (d : Dev) : Dev :=
  d |> setChan e ch (fun x => { x with state := 3, disable := true, waiting := none })
    |> updEngine e fun x => { x with queue := x.queue.filter (· != ch) }

/-- The new CUSTOMER; a change while QUEUED or RUNNING is ignored and counted. -/
def chCustomer (q : Requester) (e ch : Nat) (v : Bool) (d : Dev) : Dev :=
  let x := d.chan e ch
  if x.customer = v || ch = 0 || !mayCustomer q then d
  else if x.state = 1 || x.state = 2 then stErr e d
  else setChan e ch (fun x => { x with customer := v }) d

/-- A write of CH_CTRL. -/
def chCtrlWrite (q : Requester) (e ch : Nat) (v : Word) (d : Dev) : Dev :=
  let d := d |> chCustomer q e ch (v.getLsbD 29) |> setChan e ch fun x => { x with intEn := wbits v 2 0 }
  let s := (d.chan e ch).state
  let start := v.getLsbD 31
  if v.getLsbD 30 then d |> when (s < 3) (chStop e ch) |> when start (stErr e)
  else
    let d := when (s == 4) (setChan e ch fun x => { x with state := 0, disable := false, disDone := false }) d
    if !start then d else if s = 0 then chStart e ch d else stErr e d

/-- CH_START (R409). -/
def execChStart (q : Requester) (e : Fin 2) (ch : Fin 16) (v : Word) (s : State) : Host.Outcome State Fault Refusal :=
  .next (s.atReg q 0xF000000 fun _ d => chGate q e ch (chCtrlWrite q e ch v) d)
/-- CH_DISABLE (R416). -/
def execChDisable (q : Requester) (e : Fin 2) (ch : Fin 16) (v : Word) (s : State) : Host.Outcome State Fault Refusal :=
  .next (s.atReg q 0xF000000 fun _ d => chGate q e ch (chCtrlWrite q e ch v) d)
/-- CH_ENABLE (R416). -/
def execChEnable (q : Requester) (e : Fin 2) (ch : Fin 16) (v : Word) (s : State) : Host.Outcome State Fault Refusal :=
  .next (s.atReg q 0xF000000 fun _ d => chGate q e ch (chCtrlWrite q e ch v) d)

/-- A write of CH_PROG, ignored while QUEUED or RUNNING; the low five bits read 0. -/
def chProgWrite (e ch prog : Nat) (d : Dev) : Dev :=
  let x := d.chan e ch
  if x.state = 1 || x.state = 2 then stErr e d else setChan e ch (fun x => { x with prog := prog / 32 * 32 }) d

/-- The end of a disable: CH_BYTES, CH_PC and the loop state are undefined from then on (R416 step 3). -/
def chDisabled (e ch : Nat) (d : Dev) : Dev :=
  let b := drawBytes 64 d
  let lv := (List.range 4).map fun i => (bit (byteAt b.1 (32 + i)) 0, le b.1 (40 + 4 * i) 4)
  b.2 |> setChan e ch (fun x => { x with state := 4, disDone := true, err := true, errCode := stAborted
                                         pc := le b.1 0 8, bytes := le b.1 8 8, levels := lv })
    |> engineFree e ch

end Sys2Proof.Machine
end

