-- ==== Sys2Proof/Machine/Power.lean ====
section
/-!
DEFINITION. Power, reset and start-up (20_power_reset_startup.md), the reference clocks (R473) and device time's own
events (R14, R15).
-/
namespace Sys2Proof.Machine

/-! ### Device Reset and power-on (R441, R450-R453) -/

/-- What is not state of the adapter but of the world around it: reset pins, power faults, clocks, rail
and temperature readings. -/
def worldRegs (d : Dev) : List (Nat × Nat × Nat) :=
  ((List.range 15).map fun r => (0xF800000 + 0x10 * r, 11, 0)) ++ ((List.range 8).map fun i => (0xF800300 + 4 * i, 11, 0)) ++
  [(0xF800500, 5, 1)] ++ ((List.range 32).flatMap fun n => [(aConn n, 3, 3), (aConn n, 1, 1)]) |>.filter fun x => d.fld x.1 x.2.1 x.2.2 != wbits (initAt x.1) x.2.1 x.2.2

/-- Everything but fuses, flash and the cause returns to its reset value (R450, R452); `holds` keep the adapter in reset. -/
def deviceReset (cause rail : Nat) (holds : List Hold) (d : Dev) : Dev :=
  let fresh : Dev := { out := d.out, free := d.free, power := { holds := holds, cpPerst := d.power.cpPerst }
                       links := d.links.filterMap fun e => if e.2.perst then some (e.1, { perst := true }) else none }
  fresh |> each (worldRegs d) (fun x => setFld x.1 x.2.1 x.2.2 (d.fld x.1 x.2.1 x.2.2)) |> setReg 0x18 (word (16 * rail + cause))

/-- One more thing holds the adapter in reset. -/
def addHold (h : Hold) (l : List Hold) : List Hold := if l.contains h then l else l ++ [h]

/-- POWER_GOOD_FALL (R441). -/
def execPowerGoodFall (s : State) : Host.Outcome State Fault Refusal :=
  .next (s.onDev fun _ d => deviceReset 1 0 (addHold .powerOn d.power.holds) d)

/-- RESET_N_ASSERT (R441); during power-on reset it only holds the adapter longer. -/
def execResetNAssert (s : State) : Host.Outcome State Fault Refusal :=
  .next (s.onDev fun _ d =>
    let h := addHold .resetN d.power.holds
    if d.power.holds.contains .powerOn || d.power.holds.contains .sysclk then updPower (fun x => { x with holds := h }) d
    else deviceReset 2 0 h d)

/-- RESET_RELEASE (R454): PWR_GOOD and RESET_N are high; start-up begins unless something else holds the adapter. -/
def execResetRelease (s : State) : Host.Outcome State Fault Refusal :=
  .next (s.onDev fun _ d => updPower (fun x => { x with holds := x.holds.filter fun h => h != .powerOn && h != .resetN }) d)

/-- A write of DEV_CTRL by the manager. -/
def devCtrlWrite (v : Word) (d : Dev) : Dev := when (v.getLsbD 0) (deviceReset 3 0 []) d

/-- DEV_CTRL_RESET (R450). -/
def execDevCtrlReset (q : Requester) (s : State) : Host.Outcome State Fault Refusal :=
  .next (s.atReg q 0x10 fun _ d => managerGate q (devCtrlWrite 1) d)

/-! ### Rails (R442-R444) -/

def aRail (r : Nat) : Nat := 0xF800000 + 0x10 * r
def Dev.setpoint (d : Dev) (r : Nat) : Nat := d.fld (aRail r + 4) 11 0
def Dev.railNow (d : Dev) (r : Nat) : Nat := d.fld (aRail r) 11 0
def Dev.railBelow (d : Dev) (r mv pct : Nat) : Bool := mv * 100 < d.setpoint r * pct

/-- A level is measured: NOW_MV, MIN_MV, and WARN. -/
def railLevel (r mv : Nat) (d : Dev) : Dev :=
  d |> setFld (aRail r) 11 0 mv |> setFld (aRail r) 27 16 (min mv (d.fld (aRail r) 27 16))
    |> setFlag (aRail r) 31 (d.railBelow r mv 95 || d.power.throttling.contains r)

/-- A rail below 95 %: throttling; a further warning meanwhile records nothing new. -/
def railWarning (r mv : Nat) (d : Dev) : Dev :=
  if !d.railBelow r mv 95 then d
  else
    let first := !d.flag 0xF800100 31
    let d := updPower (fun x => { x with throttling := if x.throttling.contains r then x.throttling else x.throttling ++ [r] }) d
    let d := railLevel r mv d
    if first then
      d |> setReg 0xF800100 (word (2 ^ 31 + r)) |> setReg64 0xF800104 d.time |> setFlag (aRail r) 30 true
        |> count (aRail r + 8) |> raise 0x10 r 0 0 |> sourcePulse 207
    else d

/-- RAIL_WARNING (R442, R443). -/
def execRailWarning (r : Fin 15) (mv : Nat) (s : State) : Host.Outcome State Fault Refusal :=
  .next (s.onDev fun _ d => railWarning r (mv % 4096) d)

/-- A rail recovers to 96 %, or is between, or a dip below 90 % to `mv` has ended in under 1 µs: the rail then stands at
90 % again (R442). -/
def railRecovery (r mv : Nat) (d : Dev) : Dev :=
  if d.railBelow r mv 90 then
    d |> setFlag (aRail r) 29 true |> railLevel r mv |> railLevel r ((d.setpoint r * 90 + 99) / 100)
  else
    let rose := d.railBelow r (d.railNow r) 96 && !d.railBelow r mv 96
    d |> railLevel r mv |> when (rose && d.power.throttling.contains r) (updPower fun x => { x with liftFrom := d.time })

/-- RAIL_RECOVERY (R442). -/
def execRailRecovery (r : Fin 15) (mv : Nat) (s : State) : Host.Outcome State Fault Refusal :=
  .next (s.onDev fun _ d => railRecovery r (mv % 4096) d)

/-- Throttling lifts 20 µs after the last throttling rail rose, while all stay at 96 %. -/
def throttleLift (d : Dev) : Dev :=
  let l := d.power.throttling
  if l.isEmpty || l.any (fun r => d.railBelow r (d.railNow r) 96) then d
  else
    d |> timeTo (d.power.liftFrom + 20000) |> setFlag 0xF800100 31 false |> updPower (fun x => { x with throttling := [] })
      |> each l (fun r => setFlag (aRail r) 31 false)

/-- THROTTLE_LIFT (R443). -/
def execThrottleLift (s : State) : Host.Outcome State Fault Refusal := .next (s.onDev fun _ d => throttleLift d)

/-- BROWNOUT (R442): below 90 % for 1 µs. -/
def execBrownout (r : Fin 15) (mv : Nat) (s : State) : Host.Outcome State Fault Refusal :=
  .next (s.onDev fun _ d =>
    if d.railBelow r (mv % 4096) 90 then d |> deviceReset 4 r d.power.holds |> setFld (aRail r) 11 0 (mv % 4096) else d)

/-! ### Calibration and temperature (R445-R449) -/

def aCal (i : Nat) : Nat := 0xF800200 + 0x10 * i
def Dev.vset (d : Dev) (i : Nat) : Nat := d.fld (aCal i) 11 0
def setVset (i mv : Nat) (d : Dev) : Dev := d |> setFld (aCal i) 11 0 mv |> setFld (aRail i + 4) 11 0 mv

/-- Excess droop on a die at full frequency: it steps down, and a recalibration is scheduled. -/
def droopExcess (i : Nat) (d : Dev) : Dev :=
  if d.flag (aCal i) 31 then d
  else
    d |> setFlag (aCal i) 31 true |> setFld (aCal i) 23 12 (min (d.fld (aCal i) 23 12 + 1) 0xFFF)
      |> updPower (fun x => { x with recal := x.recal ++ [i] }) |> raise 0x11 i 0 0 |> sourcePulse 207

/-- DROOP_EXCESS (R446). -/
def execDroopExcess (i : Fin 8) (s : State) : Host.Outcome State Fault Refusal :=
  .next (s.onDev fun _ d => droopExcess i d)

/-- One step of a recalibration: 5 mV more, 1 ms to settle and 10 ms of watch. -/
def recalStep (i : Nat) (excess : Bool) (d : Dev) : Dev :=
  let stop := fun d => updPower (fun x => { x with recal := x.recal.filter (· != i) }) d
  let limit := fun d => d |> setFlag (aCal i) 30 true |> stop
  if !d.power.recal.contains i then d
  else if d.vset i ≥ 800 then limit d
  else
    let d := d |> setVset i (d.vset i + 5) |> timeTo (d.time + 11000000)
    if !excess then d |> setFlag (aCal i) 31 false |> stop else when (d.vset i ≥ 800) limit d

/-- RECALIBRATION_STEP (R447). -/
def execRecalibrationStep (i : Fin 8) (excess : Bool) (s : State) : Host.Outcome State Fault Refusal :=
  .next (s.onDev fun _ d => recalStep i excess d)

def aTemp (i : Nat) : Nat := 0xF800300 + 4 * i

/-- THERMAL_WARNING (R449): the die's reading, and THERM_EVENT when it reaches WARN. -/
def execThermalWarning (i : Fin 8) (temp : BitVec 12) (s : State) : Host.Outcome State Fault Refusal :=
  .next (s.onDev fun _ d =>
    d |> setFld (aTemp i) 11 0 temp.toNat |> when (temp.toNat ≥ 8 * d.fld 0xF800320 7 0) (raise 0x12 i temp.toNat 0))

/-- THERMAL_TRIP (R449). -/
def execThermalTrip (i : Fin 8) (s : State) : Host.Outcome State Fault Refusal :=
  .next (s.onDev fun _ d => d |> setFld (aTemp i) 11 0 920 |> deviceReset 5 0 (addHold .thermal d.power.holds))

/-- THERMAL_RELEASE (R449): every die reads below 95 °C. -/
def execThermalRelease (temps : List (BitVec 12)) (s : State) : Host.Outcome State Fault Refusal :=
  .next (s.onDev fun _ d =>
    if temps.length = 8 && temps.all fun t => t.toNat < 760 then
      d |> each temps.zipIdx (fun t => setFld (aTemp t.2) 11 0 t.1.toNat)
        |> updPower (fun x => { x with holds := x.holds.filter (· != .thermal) })
    else d)

/-! ### Start-up (R454, R455) -/

/-- Steps at which start-up can stop. -/
def mayFail (n : Nat) : Bool := n == 2 || n == 3 || n == 5 || n == 7

/-- What step n brings, beside its number. -/
def startupEffect (n : Nat) (sp : List Nat) (nv : Nv) (d : Dev) : Nv × Dev :=
  if n = 5 then (nv, each sp.zipIdx (fun x => setVset x.2 x.1) d)
  else if n = 6 then activate (1, d.fld 0x18 7 0) nv { d with board := boardRecord nv }
  else if n = 7 then (nv, d |> setFlag 0x10001C 0 true |> updPower fun x => { x with aligned := true })
  else if n = 8 then
    (nv, d |> setFlag 0x14 31 true |> setFlag 0xD801004 0 (!d.power.noImage) |> setReg 0x20 (word (d.time / 1000000)))
  else (nv, d)

/-- The next step is reached, or start-up stops at it for good. -/
def startupStep (fail : Option Nat) (sp : List Nat) (nv : Nv) (d : Dev) : Nv × Dev :=
  let n := d.fld 0x14 3 0 + 1
  if !d.power.holds.isEmpty || d.flag 0x14 30 || n > 8 then (nv, d)
  else
    let d := setFld 0x14 3 0 n d
    match fail with
    | some i => if mayFail n then (nv, d |> setFlag 0x14 30 true |> setFld 0x14 23 16 i) else startupEffect n sp nv d
    | none => startupEffect n sp nv d

/-- STARTUP_STEP_DONE (R454). -/
def execStartupStepDone (fail : Option Nat) (sp : List Nat) (s : State) : Host.Outcome State Fault Refusal :=
  .next (s.onBoth fun nv d => startupStep fail sp nv d)

/-! ### Clocks and the control port (R473) -/

def aClk := 0xF800500

/-- A clock's OK bit falls, its LOSS bit is set, CLK_EVENT is raised. -/
def clkLost (ok loss : Nat) (d : Dev) : Dev :=
  let d := d |> setFlag aClk ok false |> setFlag aClk loss true
  d |> raise 0x14 (d.reg aClk).toNat 0 0 |> sourcePulse 207

/-- The line ports of a line die that run. -/
def Dev.enabledPorts (d : Dev) (die : Nat) : List Nat :=
  ((List.range 64).map (· + 64 * die)).filter fun p => d.portExists p && d.flag (aCtrl p) 31

def clockLoss (c : Clock) (d : Dev) : Dev := match c with
  | .sys => deviceReset 1 0 (addHold .sysclk d.power.holds) d
  | .href i =>
    if !d.flag aClk (1 + i) then d
    else d |> clkLost (1 + i) (17 + i) |> each ((List.range 16).map (· + 16 * (i : Nat))) (fun n d => when (d.dlUp n) (unplannedDown n) d)
  | .lref i =>
    if !d.flag aClk (3 + i) then d else d |> clkLost (3 + i) (19 + i) |> each (d.enabledPorts i) (fun p => portDown p 1)
  | .cp => if !d.flag aClk 5 then d else clkLost 5 21 d

/-- CLOCK_LOSS (R473). -/
def execClockLoss (c : Clock) (s : State) : Host.Outcome State Fault Refusal := .next (s.onDev fun _ d => clockLoss c d)

def clockReturn (c : Clock) (d : Dev) : Dev := match c with
  | .sys => updPower (fun x => { x with holds := x.holds.filter (· != .sysclk) }) d
  | .href i => setFlag aClk (1 + i) true d
  | .lref i => if d.flag aClk (3 + i) then d else d |> setFlag aClk (3 + i) true |> each (d.enabledPorts i) bringUp
  | .cp => setFlag aClk 5 true d

/-- CLOCK_RETURN (R473). -/
def execClockReturn (c : Clock) (s : State) : Host.Outcome State Fault Refusal := .next (s.onDev fun _ d => clockReturn c d)

/-- CP_PERST (R473): the control port link goes down and the manager function returns to its defaults (R34). -/
def execCpPerst (s : State) : Host.Outcome State Fault Refusal :=
  .next (s.onDev fun _ d => d |> updFn 32 (fun _ => {}) |> updPower fun x => { x with cpPerst := true })

/-- CP_PERST_RELEASE (R473). -/
def execCpPerstRelease (s : State) : Host.Outcome State Fault Refusal :=
  .next (s.onDev fun _ d => updPower (fun x => { x with cpPerst := false }) d)

/-! ### Device time (R14, R15) -/

/-- SKEW_ERR drives source 200. -/
def timeSync (d : Dev) : Dev := sourceLevel 200 (d.flag 0x10001C 1) d

/-- A die other than the reference HD0 measures its difference, in eighths of a nanosecond; its copy of device time is then
slewed back. -/
def timeSkew (i n : Nat) (d : Dev) : Dev :=
  if i = 4 then d
  else
    let d := d |> updPower (fun x => { x with skews := mput x.skews i (n, d.time) }) |> skewSync
    let d := setFld 0x10001C 23 16 (max (d.fld 0x10001C 23 16) (min n 255)) d
    if n ≤ 8 then d
    else d |> setFlag 0x10001C 1 true |> setFld 0x10001C 10 8 i |> raise 0x01 i 0 0 |> timeSync

/-- TIME_SKEW (R15). -/
def execTimeSkew (i : Fin 8) (n : Nat) (s : State) : Host.Outcome State Fault Refusal :=
  .next (s.onDev fun _ d => timeSkew i n d)

/-- A write of TIME_RATE_ADJ, clamped to 100,000 ppb either way. -/
def timeRateWrite (v : Word) (d : Dev) : Dev :=
  let x := signed 18 (wbits v 17 0)
  let y := max (-100000) (min 100000 x)
  d |> setReg 0x100018 (word ((y % 2 ^ 18).toNat)) |> when (x != y) (setFlag 0x10001C 2 true)

/-- TIME_RATE_ADJ_WRITE (R14). -/
def execTimeRateAdjWrite (q : Requester) (v : Word) (s : State) : Host.Outcome State Fault Refusal :=
  .next (s.atRegAll q 0x100018 fun _ d => timeRateWrite v d)

/-! ### Power domains (R457-R460) -/

/-- Register and bit of a domain. -/
def domainBit (kind i : Nat) : Nat × Nat :=
  if kind = 0 then (0xF800400, i) else if kind = 1 then (0xF800400, 8 + i) else if kind = 2 then (0xF800404, i) else (0xF800408, i)
def Dev.domainOn (d : Dev) (kind i : Nat) : Bool := d.flag (domainBit kind i).1 (domainBit kind i).2
def domainCount (kind : Nat) : Nat := if kind < 2 then 8 else 32

/-- The pipeline that a domain other than a pipeline depends on. -/
def pipelineOf (kind i : Nat) : Nat := if kind = 1 then i else i / 4

/-- Whether anything that hangs on pipeline n is on. -/
def Dev.pipelineUsed (d : Dev) (n : Nat) : Bool :=
  d.domainOn 1 n || (List.range 4).any fun k => d.domainOn 2 (4 * n + k) || d.domainOn 3 (4 * n + k)

/-- The faults of DOMAIN_SET in the table's order. -/
def domainFault (k i st rsv : Nat) (d : Dev) : Option Nat :=
  if k > 3 then some 0
  else if i ≥ domainCount k then some 1
  else if st > 1 then some 2
  else if rsv != 0 then some 3
  else if k = 3 && d.secondOf i then some 1
  else if k = 0 && st = 0 && d.pipelineUsed i then some 0x100
  else if k != 0 && st = 1 && !d.domainOn 0 (pipelineOf k i) then some 0x101 else none

def domainSet (r : Ring) (b : List Byte) (d : Dev) : Dev :=
  let k := byteAt b 0
  let i := byteAt b 1
  let on' := byteAt b 2 = 1
  match domainFault k i (byteAt b 2) (byteAt b 3) d with
  | some o => reply r stBadParam o [] d
  | none =>
    if d.domainOn k i = on' then reply r stOk 0 [0xFFFFFFFF] d
    else d |> begin' r |> setReg 0xF80040C (word (2 ^ 31 + 256 * k + i)) |> updPower fun x => { x with domain := some (k, i, on', r) }

/-- DOMAIN_SET (R458). -/
def execDomainSet (r : Ring) (p : Read) (s : State) : Host.Outcome State Fault Refusal :=
  .next (s.onDev fun _ d => command r 0x0C01 p (fun _ b => domainSet r b) d)

/-- The domain's change is done: its bit, DOMAIN_EVENT, the reply. -/
def domainDone (k i : Nat) (on' : Bool) (r : Ring) (words : List Nat) (d : Dev) : Dev :=
  d |> setFlag (domainBit k i).1 (domainBit k i).2 on' |> setReg 0xF80040C 0 |> updPower (fun x => { x with domain := none })
    |> raise 0x13 k i (b2n on') |> sourcePulse 207 |> reply r stOk 0 words

/-- Packets that a test selects are dropped; how many they were. -/
def dropPackets (sel : Packet → Bool) (d : Dev) : Nat × Dev :=
  ((d.pkts.filter sel).length, { d with pkts := d.pkts.filter (!sel ·) })

/-- A suspended packet of context c's home pipeline n: waiting at a cipher's primitive, or at any. -/
def suspendedAt (n : Nat) (cipher : Bool) (p : Packet) : Bool := match p.loc with
  | .ctxWait c => homePl c == n && (!cipher || byteAt ((p.todo.head?.map (·.op)).getD []) 0 != 0x0C)
  | .tableWait c => homePl c == n && !cipher
  | .recirc m => m == n && !cipher
  | .steer _ m => m == n && !cipher
  | _ => false

/-- Step 3 for a host link: what remains ends with DOMAIN_DOWN, and the link goes down as planned. Answers the transfers
aborted and the packets dropped. -/
def linkBindOff (n : Nat) (d : Dev) : (Nat × Nat) × Dev :=
  if d.secondOf n then ((0, 0), hostLinkReset n 0 d)
  else
    let os := d.ownersOf n
    let jobs := (os.flatMap fun o => (d.queuesOf o).map fun q => ((d.queue o q).map (·.jobs.length)).getD 0).sum
    let segs := (d.eyelets.map fun e => if d.sliceOfFn n e.2.exporter then e.2.flight.length else 0).sum
    let rings := Ring.function (fin 32 n) :: (d.slicesOf n).map fun s => Ring.slice (fin 4096 s)
    let d := fnStop n stDomainDown d
    let d := each os (fun o d => each (d.queuesOf o) (fun q d =>
      d |> abortJobs o q stDomainDown (((d.queue o q).map (·.jobs.length)).getD 0) |> updQueue o q fun x => { x with ending := none }) d) d
    let d := each os (fun o => haltOwner o 5 stDomainDown) d
    let d := each rings (fun r d => when (d.ring r).exec.isSome (reply r stDomainDown 0 []) d) d
    let p := dropPackets (fun p => p.loc == .hostOut n) d
    ((jobs + segs, p.1), p.2 |> hostLinkReset n 0)

/-- Step 3 for a port group: MAC queues are dropped, links and PTP FIFOs lost. -/
def groupBindOff (g : Nat) (d : Dev) : (Nat × Nat) × Dev :=
  let ps := (List.range 4).map (4 * g + ·)
  let n := (d.pkts.filter fun x => match x.loc with | .mac p _ => p / 4 == g | _ => false).length
  ((0, n), each ps (fun p d =>
    d |> macFlush p |> portDown p 0 |> updPort p fun x => { x with ptpRx := [], ptpTx := [], ptpRxOvf := false, ptpTxOvf := false }) d)

/-- Packets lost with a pipeline or a crypto unit. -/
def unitBindOff (n : Nat) (cipher : Bool) (d : Dev) : (Nat × Nat) × Dev :=
  let p := dropPackets (suspendedAt n cipher) d
  ((0, p.1), countBy 0xF800410 p.1 p.2)

/-- A bind-off ends (R459). -/
def bindOff (d : Dev) : Dev := match d.power.domain with
  | some (k, i, false, r) =>
    let x := if k = 3 then linkBindOff i d else if k = 2 then groupBindOff i d else unitBindOff i (k == 1) d
    x.2 |> when (k == 3) (countBy 0xF800410 x.1.2) |> countBy 0xF800414 x.1.1 |> domainDone k i false r [x.1.1, x.1.2]
  | _ => d

/-- BIND_OFF (R459). -/
def execBindOff (s : State) : Host.Outcome State Fault Refusal := .next (s.onDev fun _ d => bindOff d)

/-- A domain turned on is powered and reinitialized (R458). -/
def domainPowerUp (d : Dev) : Dev := match d.power.domain with
  | some (k, i, true, r) =>
    let d := domainDone k i true r [] d
    if k = 2 then each ((List.range 4).map (4 * i + ·)) (fun p d => when (d.portExists p && d.flag (aCtrl p) 31) (bringUp p) d) d else d
  | _ => d

/-- DOMAIN_POWER_UP_DONE (R458). -/
def execDomainPowerUpDone (s : State) : Host.Outcome State Fault Refusal := .next (s.onDev fun _ d => domainPowerUp d)

end Sys2Proof.Machine
end

