-- ==== Sys2Proof/Machine/Polsum.lean ====
section
/-!
DEFINITION. The remaining opcodes of the Polsum protocol (NOP, IDENTIFY, WAKE, WAKE_SLOT_SET) and Control Reset
(07_polsum_commands.md, R167-R176).
-/
namespace Sys2Proof.Machine

/-! ### NOP and IDENTIFY (R167, R168) -/

/-- The reply waits for the update accepted last. -/
def fenceLast (r : Ring) (l : List Update) : List Update := match l.reverse with
  | [] => []
  | u :: rest => (({ u with done := u.done ++ [.fence r] } : Update) :: rest).reverse

def nop (r : Ring) (d : Dev) : Dev :=
  if d.updates.isEmpty then updFinish (.fence r) d else begin' r { d with updates := fenceLast r d.updates }

/-- NOP (R167). -/
def execNop (r : Ring) (p : Read) (s : State) : Host.Outcome State Fault Refusal :=
  .next (s.onDev fun _ d => command r 0x0001 p (fun _ _ => nop r) d)

/-- IDENTIFY (R168); the stepping is A0. -/
def execIdentify (r : Ring) (p : Read) (s : State) : Host.Outcome State Fault Refusal :=
  .next (s.onDev fun nv d => command r 0x0002 p (fun _ _ d =>
    reply r stOk 0 [1, slotVersion nv d.slot, 0, ringKind r, ringNumber r] d) d)

/-! ### Wake (R103, R169, R170) -/

/-- A wake already signalled since parking is not signalled again: word 0 names its means. -/
def wake (r : Ring) (b : List Byte) (d : Dev) : Dev :=
  let f := byteAt b 0
  checks r [bad (f > 31 || !d.fnExists f) 0, bad (!zeroAt b 1 3) 1] (fun d =>
    let x := d.fn f
    if !x.parked then reply r stOk 0 [0] d
    else if !x.pmeEn then reply r stDenied 1 [] d
    else if x.woken then reply r stOk 0 [if (d.link f).wakeSince.isSome then 2 else 1] d
    else
      let w := wakeSignal f d
      reply r stOk 0 [w.1] w.2) d

/-- WAKE (R169). -/
def execWake (r : Ring) (p : Read) (s : State) : Host.Outcome State Fault Refusal :=
  .next (s.onDev fun _ d => command r 0x0003 p (fun _ b => wake r b) d)

/-- Whether slice s owns wake slot n of function f. -/
def Dev.ownsWake (d : Dev) (s f n : Nat) : Bool := match d.slice s with
  | none => false
  | some x => x.fn == f && (d.wakeOwned f x.lidx).contains n

def wakeSlotSet (r : Ring) (e : Exec) (b : List Byte) (d : Dev) : Dev :=
  let f := byteAt b 0
  let n := byteAt b 1
  let other := match r with | .slice s => d.fnOf (.slice s) != f | _ => false
  checks r [bad (f > 31 || !d.fnExists f || other) 0, bad (n > 15) 1, bad (byteAt b 2 > 1) 2, bad (byteAt b 3 != 0) 3] (fun d =>
    if e.slice < 4096 && !d.ownsWake e.slice f n then d |> countDenied f |> reply r stDenied 1 []
    else
      d |> each (List.range 4) (fun k => setReg (aWp f n + 4 * k) (word (le b (4 + 4 * k) 4)))
        |> setReg (aWp f n + 0x10) (word (le b 20 4)) |> setFlag (aWp f n + 0x14) 0 (bit (byteAt b 2) 0) |> reply r stOk 0 []) d

/-- WAKE_SLOT_SET (R170). -/
def execWakeSlotSet (r : Ring) (p : Read) (s : State) : Host.Outcome State Fault Refusal :=
  .next (s.onDev fun _ d => command r 0x0004 p (wakeSlotSet r) d)

/-! ### Control Reset (R174, R451) -/

/-- The node that a key names. -/
def nodeOfKey (k : Nat) : NodeId :=
  if k < 256 then .port (fin 172 k)
  else if k < 2 ^ 20 then .dflt (fin 172 (k - 256))
  else if k < 2 ^ 22 then .slice (fin 4096 ((k - 2 ^ 20) / 256)) (fin 256 (k % 256))
  else if k < 2 ^ 24 then .dfltSvc (fin 172 ((k - 2 ^ 22) / 8)) (fin 8 (k % 8))
  else .sliceSvc (fin 4096 ((k - 2 ^ 24) / 2048)) (fin 256 (k / 8 % 256)) (fin 8 (k % 8))

/-- Step 1: no ring executes anything; what had not begun is dropped, and what had begun replies to nobody. -/
def dropCommands (d : Dev) : Dev :=
  { d with rings := mmap d.rings fun _ x => { x with exec := none }
           updates := d.updates.map fun u => { u with done := [] }
           slices := mmap d.slices fun _ x => { x with resetWaits := [], destroyer := none }
           eyelets := mmap d.eyelets fun _ y => { y with rewrite := y.rewrite.map fun w => { w with ring := none } }
           nodes := mmap d.nodes fun _ x => { x with unbinding := x.unbinding.map fun u => (none, u.2) }
           scrubs := mkeep d.scrubs fun _ x => x.ring.isNone
           tblRegs := mmap d.tblRegs fun _ x => if x.busy then { x with busy := false, waiting := none, status := stAborted, detail := 0 } else x }

/-- A QUEUE_STOP or QUEUE_DESTROY under way is brought to its end: what is still in flight ends with ABORTED. -/
def finishEnding (k : Nat) (d : Dev) : Dev :=
  let o : Owner := if k / 8192 < 64 then .function (fin 32 (k / 8192)) else .slice (fin 4096 (k / 8192 - 64))
  let q := k % 8192
  match d.queue o q with
  | none => d
  | some x =>
    if x.ending.any fun e => e.stop.isSome || e.destroy.isSome then
      d |> abortJobs o q stAborted x.jobs.length |> updQueue o q (fun x => { x with xfer := none }) |> endIfIdle o q
    else d

/-- Step 2: everything that has begun to change state takes its effect, the resets and destructions of slices too. -/
def finishBegun (d : Dev) : Dev :=
  d |> settleUpdates
    |> (fun d => each d.slices (fun e d => d |> sliceResetDone e.1 |> sliceDestroyDone e.1) d) |> snapshotBankWrite
    |> (fun d => each (d.policers.filter fun e => e.2.staged.isSome) (fun e => policerRefill e.1) d)
    |> (fun d => each (d.nodes.filter fun e => e.2.staged.isSome) (fun e => nodeRefill (nodeOfKey e.1)) d)
    |> (fun d => each d.queues (fun e => finishEnding e.1) d)
    |> bindOff |> domainPowerUp |> discardShadow

/-- Channel 0 of an engine is disabled, and idle again (R419). -/
def stopChannel0 (e : Nat) (d : Dev) : Dev :=
  d |> chStop e 0 |> chDisabled e 0 |> setChan e 0 fun x => { x with state := 0, disable := false, disDone := false }

/-- Step 3: the cores and the core sides of the core pairs are reset, posted commands are discarded. -/
def resetCores (d : Dev) : Dev :=
  { d with rings := mmap d.rings fun _ x => if x.enable then { x with head := x.tail, need := 1 } else x }
    |> each (List.range 16) coreClear |> each ((List.range 12).map (· + 4)) (fun c d =>
        d |> sideReset ⟨.core (fin 16 c), false⟩ |> setFlag (aCore c + 8) 1 true |> setFlag (aCore c + 8) 0 false)
    |> stopChannel0 0 |> stopChannel0 1

/-- A Control Reset begins, unless one runs (CMD_CTRL). -/
def controlReset (d : Dev) : Dev :=
  if d.power.ctlReset.isSome || !d.ready then d
  else
    d |> setFlag 0xD801004 0 false |> updPower (fun x => { x with ctlReset := some d.time })
      |> dropCommands |> finishBegun |> resetCores

/-- CONTROL_RESET (R174): a write of CMD_CTRL by the manager. -/
def execControlReset (q : Requester) (s : State) : Host.Outcome State Fault Refusal :=
  .next (s.atReg q 0xD801000 fun _ d => managerGate q controlReset d)

/-- Cores 4-15 start unless held. -/
def startCores (d : Dev) : Dev :=
  each ((List.range 12).map (· + 4)) (fun c d =>
    d |> coreHeld c (d.flag (aCore c) 31) |> when (!d.flag (aCore c) 31) (coreStart c)) d

/-- Steps 4 and 5. After a failure of both images only a Device Reset brings the engine back (R176). -/
def controlResetDone (nv : Nv) (d : Dev) : Nv × Dev :=
  if d.power.ctlReset.isNone then (nv, d)
  else
    let n := min (d.fld 0xD801004 31 16 + 1) 0xFFFF
    let a := if d.power.noImage then (nv, d) else activate (4, n) nv d
    let e := updPower (fun x => { x with ctlReset := none }) a.2
    let e := if e.power.noImage then startCores e
      else
        let e := e |> setFld 0xD801004 31 16 n |> setFlag 0xD801004 0 true |> startCores
        raise 5 (e.reg 0xD801004).toNat 0 0 e
    (a.1, e)

/-- CONTROL_RESET_DONE (R174, R176). -/
def execControlResetDone (s : State) : Host.Outcome State Fault Refusal :=
  .next (s.onBoth fun nv d => controlResetDone nv d)

end Sys2Proof.Machine
end

