-- ==== Sys2Proof/Machine/Registers.lean ====
section
/-!
DEFINITION. Accesses to the register space of the manager function (00_scope.md R5-R9; 01_rack_adapter.md, Register
space): what a register reads as, what a write does to it, who may write it, 64-bit values, the HBM aperture.
-/
namespace Sys2Proof.Machine

/-! ### 64-bit values (R9) -/

def halfOf (l : List Half) (q : Requester) (key : Nat) : Option Word := (l.find? fun h => h.who == q && h.off == key).map (·.v)
def dropHalf (q : Requester) (key : Nat) (l : List Half) : List Half := l.filter fun h => !(h.who == q && h.off == key)

/-- Read one half of the 64-bit value v that `key` names: the low half latches the high half for this requester, whose
next read of the high half returns it. -/
def read64 (q : Requester) (key : Nat) (high : Bool) (v : Nat) (d : Dev) : Word × Dev :=
  if high then ((halfOf d.latches q key).getD (word (hi32 v)), { d with latches := dropHalf q key d.latches })
  else (word v, { d with latches := dropHalf q key d.latches ++ [⟨q, key, word (hi32 v)⟩] })

/-- Write one half: a low half is held, a high half takes effect with the held low half, or alone; `cur` is the present
value. -/
def write64 (q : Requester) (key : Nat) (high : Bool) (w : Word) (cur : Nat) (set : Nat → Dev → Dev) (d : Dev) : Dev :=
  if high then
    let lo := ((halfOf d.held q key).map (·.toNat)).getD (lo32 cur)
    set (lo + 2 ^ 32 * w.toNat) { d with held := dropHalf q key d.held }
  else { d with held := dropHalf q key d.held ++ [⟨q, key, w⟩] }

/-! ### Register sets that a requester of any kind may reach -/

/-- Bases lose bits 11:0. -/
def base12 (v : Nat) : Nat := v / 4096 * 4096

/-- A register of a command ring (R157). -/
def Dev.ringValue (d : Dev) (r : Ring) (o : Nat) : Word :=
  let x := d.ring r
  if o = 0x08 then word (2 ^ 31 * b2n x.enable + 2 ^ 30 * b2n x.intEn + 2 ^ 24 * x.crRaw + 2 ^ 16 * x.rrRaw + x.vector)
  else if o = 0x10 then word (posWord (crN x) x.head)
  else if o = 0x14 then
    word (2 ^ 31 * b2n x.halted + 2 ^ 30 * b2n (!rrRoom x) + 2 ^ 29 * b2n d.engineReady + (if x.halted then x.haltReason else 0))
  else if o = 0x24 then word (posWord (rrN x) x.rrWrite)
  else if o = 0x28 then word x.err
  else if o = 0x2C then word (2 ^ 30 * ringKind r + ringNumber r)
  else 0

def ringHas (o : Nat) : Bool := o % 4 == 0 && o ≤ 0x2C

/-- Read a ring's register; `key` is where its set lies. -/
def ringRead (q : Requester) (key : Nat) (r : Ring) (o : Nat) (d : Dev) : Word × Dev :=
  if o = 0x00 || o = 0x04 then read64 q key (o == 0x04) (d.ring r).base d
  else if o = 0x18 || o = 0x1C then read64 q (key + 0x18) (o == 0x1C) (d.ring r).rrBase d
  else (d.ringValue r o, when (o == 0x28) (updRing r fun x => { x with err := 0 }) d)

/-- Write a ring's register: a write of either half of a base is ignored while ENABLE is 1. -/
def ringSet (q : Requester) (key : Nat) (r : Ring) (o : Nat) (v : Word) (d : Dev) : Dev :=
  if o = 0x00 || o = 0x04 then
    when (!(d.ring r).enable) (write64 q key (o == 0x04) v (d.ring r).base fun n => updRing r fun x => { x with base := base12 n }) d
  else if o = 0x18 || o = 0x1C then
    when (!(d.ring r).enable)
      (write64 q (key + 0x18) (o == 0x1C) v (d.ring r).rrBase fun n => updRing r fun x => { x with rrBase := base12 n }) d
  else if o = 0x08 then crCtrlWrite r v d
  else if o = 0x0C then crTailWrite r v d
  else if o = 0x20 then rrHeadWrite r v d
  else d

/-- Read a mailbox side's register; MB_PAGE is read under R9. -/
def sideRead (q : Requester) (key : Nat) (x : Side) (o : Nat) (d : Dev) : Word × Dev :=
  if o = 0x28 || o = 0x2C then read64 q (key + 0x28) (o == 0x2C) (if x.mgr then sidePage { x with mgr := false } else 0) d
  else mbRead x o d

/-- A write of a half of an event ring's base: ignored while ENABLE is 1. -/
def ringBase (q : Requester) (key : Nat) (high : Bool) (v : Word) (x : EvRing) (set : (EvRing → EvRing) → Dev → Dev) (d : Dev) :
    Dev :=
  when (!x.enable) (write64 q key high v x.base fun n => set fun y => { y with base := base12 n }) d

/-! ### Which offsets hold a register -/

/-- The port k whose registers lie at offset o of an LP block. -/
def lpPortAt (o : Nat) : Option Nat :=
  if 0x10 ≤ o && o < 0x90 then some (o % 16 / 4)
  else if 0x100 ≤ o && o < 0x180 then some ((o - 0x100) / 0x20)
  else if 0x200 ≤ o && o < 0x240 then some ((o - 0x200) / 0x10)
  else if 0x1000 ≤ o && o < 0x2000 then some ((o - 0x1000) / 0x400)
  else if 0x8000 ≤ o && o < 0x8020 then some (o % 16 / 4)
  else if 0x8100 ≤ o && o < 0x8200 then some ((o - 0x8100) / 0x40)
  else none

def inHl (off : Nat) : Bool := 0x1000000 ≤ off && off < 0x1200000
def inLp (off : Nat) : Bool := 0x2000000 ≤ off && off < 0x2200000
def hlOf (off : Nat) : Nat := (off - 0x1000000) / 0x10000
def lpOf (off : Nat) : Nat := (off - 0x2000000) / 0x10000

/-- Whether the offset holds a register now (R8): a standing pair's second block has no function registers (R85), a
logical port that does not exist has none, nor has the mailbox side of an absent slice (R144). -/
def Dev.hasReg (d : Dev) (off : Nat) : Bool :=
  match sideAt off with
  | some x => d.pairExists x.pair && mbHas (off % 0x400)
  | none =>
    (regAt off).isSome &&
    !(inHl off && off % 0x10000 ≥ 0x8000 && d.secondOf (hlOf off)) &&
    !(inLp off && (match lpPortAt (off % 0x10000) with | some k => !d.portExists (4 * lpOf off + k) | none => false))

/-- CRY_CACHE_MISS is one count per context die, seen in the blocks of both its pipelines; every other offset is its
own (R309). -/
def canon (off : Nat) : Nat :=
  if 0xD000000 ≤ off && off < 0xD000800 && off % 0x100 = 0x20 && off / 0x100 % 2 = 1 then off - 0x100 else off

/-! ### Values that other structures hold -/

def evCtrl (x : EvRing) : Word := word (2 ^ 31 * b2n x.enable + 2 ^ 24 * x.rawLog + x.vector)
def evStatus (x : EvRing) : Word := word (2 ^ 31 * b2n x.overflow + posWord x.n x.wpos)

/-- The value captured for a requester. -/
def Dev.captured (d : Dev) (q : Requester) (off : Nat) : Nat :=
  ((d.captures.find? fun c => c.who == q && c.off == off).map (·.v)).getD 0

/-- 64-bit values outside the register file, by the offset of the low half. -/
def Dev.value64 (d : Dev) (q : Requester) (lo : Nat) : Option Nat :=
  if lo = 0x8 then some Config.serial.toNat
  else if lo = 0x210 then some stagingBase
  else if lo = 0x300 then some d.mev.base
  else if lo = 0x100000 then some d.time
  else if lo = 0xD800008 then some (mget {} d.tblRegs (reqKey q)).apply
  else if lo = 0xD803010 then some d.exc.base
  else if lo = 0xD803108 || lo = 0xD803110 then some (d.captured q lo)
  else if lo = 0xE981000 then some custBase
  else if inLp lo && 0x100 ≤ lo % 0x10000 && lo % 0x10000 < 0x180 then some (d.captured q lo)
  else if 0xF000000 ≤ lo && lo < 0xF020000 then
    let x := d.chan (lo / 0x10000 % 2) (lo % 0x10000 / 0x100)
    if lo % 0x100 = 0x08 then some x.prog else if lo % 0x100 = 0x10 then some x.pc else some x.bytes
  else none

/-- DEV block, function registers, PTP_CTRL, TM occupancy. -/
def Dev.viewLow (d : Dev) (nv : Nv) (off : Nat) : Option Word :=
  let o := off % 0x10000
  let f := hlOf off
  let x := d.fn f
  if 0x100 ≤ off && off < 0x130 then some (word (le Config.keyHash (off - 0x100) 4))
  else if off = 0x130 then some (word (b2n nv.fieldLock + 2 + 4 * b2n d.power.lockBusy + 8 * b2n d.power.lockFail))
  else if off = 0x308 then some (evCtrl d.mev)
  else if off = 0x310 then some (evStatus d.mev)
  else if inHl off && o = 0x4 && d.secondOf f then some 0x400
  else if inHl off && o = 0x8000 then some (word (128 * b2n (d.paired f) + f))
  else if inHl off && o = 0x8004 then some (word (d.slicesOf f).length)
  else if inHl off && o = 0x8008 then
    some (word (b2n (!x.d3) + 2 * b2n x.pasidEn + 4 * b2n x.atsEn + 8 * b2n x.parked + 16 * b2n x.waking + 32 * b2n x.bmeHalt +
      64 * b2n x.flr))
  else if inLp off && 0x100 ≤ o && o < 0x180 && o % 0x20 = 0 then
    let p := d.port (4 * lpOf off + (o - 0x100) / 0x20)
    some ((d.reg off &&& 0xF) ||| word (2 ^ 24 * p.ptpRx.length + 2 ^ 16 * p.ptpTx.length))
  else if 0xC001000 ≤ off && off < 0xC001400 && off % 0x100 = 0 then some (word (d.bufUsed (off / 0x100 % 4) / 1024))
  else if 0xC001000 ≤ off && off < 0xC001400 && off % 0x100 = 4 then some (word (d.spillUsed (off / 0x100 % 4) / 2 ^ 20))
  else none

/-- TBL block; the table command registers are those of the requester (R171). -/
def Dev.viewTbl (d : Dev) (q : Requester) (off : Nat) : Option Word :=
  let x := mget {} d.tblRegs (reqKey q)
  let g := d.gens
  let t := (off - 0xD804000) / 0x40
  if off = 0xD800000 then some (x.cmd ||| word (2 ^ 31 * b2n x.busy))
  else if off = 0xD800004 then some (word (x.status + 256 * x.detail))
  else if off = 0xD800010 then some (word x.err)
  else if 0xD800040 ≤ off && off < 0xD800078 then some (mget 0 x.key ((off - 0xD800040) / 4))
  else if 0xD800080 ≤ off && off < 0xD8000C0 then some (mget 0 x.data ((off - 0xD800080) / 4))
  else if off = 0xD803000 then some (word (65536 * d.drainingGen + g.current))
  else if off = 0xD803004 then some (word (2 ^ 31 * b2n g.shadow.isSome + 2 ^ 30 * b2n g.committing.isSome + g.base))
  else if off = 0xD803018 then some (word (2 ^ 31 * b2n d.exc.enable + d.exc.rawLog))
  else if off = 0xD803020 then some (word (posWord d.exc.n d.exc.wpos))
  else if off = 0xD803204 then some (word (posWord d.learn.ring.n d.learn.ring.wpos))
  else if off = 0xD803208 then some (word (2 ^ 31 * b2n d.learn.ring.enable + 2 ^ 30 * b2n (d.learn.on && d.learn.ring.enable)))
  else if 0xD804000 ≤ off && off < 0xD805000 && off % 0x40 = 0x28 then some (word (d.tableInUse t))
  else if 0xD804000 ≤ off && off < 0xD805000 && off % 0x40 = 0x2C then some (word (stashCount (d.table t).ents))
  else none

/-- 32 pending bits from shared source 64 + 32j on, of the sources that a test selects. -/
def Dev.pendingBits (d : Dev) (j : Nat) (sel : Source → Bool) : Word :=
  word (((List.range 32).map fun b =>
    let s := mget {} d.ic (64 + 32 * j + b)
    if s.pending && sel s then 2 ^ b else 0).sum)

/-- Interrupt controller and locks (R396, R397, R401). -/
def Dev.viewIc (d : Dev) (off : Nat) : Option Word :=
  let c := (off - 0xE800000) / 0x1000
  let o := off % 0x1000
  let x := d.core c
  let half := fun (v : BitVec 64) (high : Bool) => if high then (v >>> 32).setWidth 32 else v.setWidth 32
  if 0xE800000 ≤ off && off < 0xE810000 then
    if o = 0x10 || o = 0x14 then some (half x.pend (o == 0x14))
    else if o = 0x20 || o = 0x24 then some (half x.en (o == 0x24))
    else if o = 0x28 || o = 0x2C then some (half x.smode (o == 0x2C))
    else if 0x100 ≤ o && o < 0x180 then some (d.pendingBits ((o - 0x100) / 4) fun s => s.target == c)
    else none
  else if 0xE880000 ≤ off && off < 0xE881000 then
    let s := mget {} d.ic (64 + (off - 0xE880000) / 4)
    some (word (2 ^ 31 * b2n s.enable + 2 ^ 30 * b2n s.withdraw + 2 ^ 29 * b2n s.smode + 512 * b2n s.level + 256 * b2n s.pending +
      s.target % 16))
  else if 0xE881000 ≤ off && off < 0xE881080 then some (d.pendingBits ((off - 0xE881000) / 4) fun _ => true)
  else if 0xE900400 ≤ off && off < 0xE900800 then
    some (match mget none d.locks ((off - 0xE900400) / 4) with | some m => word (2 ^ 31 + m) | none => 0)
  else none

/-- SPARE_AVAIL and the stitch channels. -/
def Dev.viewHigh (d : Dev) (nv : Nv) (off : Nat) : Option Word :=
  let m := (off - 0xE004100) / 4
  let e := off / 0x10000 % 2
  let x := d.chan e (off % 0x10000 / 0x100)
  if 0xE004100 ≤ off && off < 0xE004130 then
    some (word (2 ^ 24 * d.volatileUsed m + 2 ^ 16 * volatileCap m + 256 * slotsUsed nv m + (Config.factoryLeft m).toNat))
  else if 0xF000000 ≤ off && off < 0xF020000 then
    if off % 0x10000 = 0x1000 then
      let g := d.engine e
      some (word (2 ^ 31 * b2n g.running.isSome + 2 ^ 16 * g.running.getD 0 + g.queue.length))
    else if off % 0x10000 ≥ 0x1000 then none
    else if off % 0x100 = 0 then some (word (2 ^ 30 * b2n x.disable + 2 ^ 29 * b2n x.customer + x.intEn))
    else if off % 0x100 = 4 then some (word (2 ^ 31 * b2n x.disDone + 2 ^ 28 * x.state + 2 ^ 16 * x.errCode + x.bits3))
    else if off % 0x100 = 0x20 then some x.sigval
    else none
  else none

/-! ### Reads -/

/-- Reads with an effect of their own: IC_CLAIM, a lock, the PTP FIFOs. -/
def readSpecial (q : Requester) (off : Nat) (d : Dev) : Option (Nat × Dev) :=
  let o := off % 0x10000
  if 0xE800000 ≤ off && off < 0xE810000 && off % 0x1000 = 0 then some (icClaimRead q ((off - 0xE800000) / 0x1000) d)
  else if 0xE900000 ≤ off && off < 0xE900400 then
    let r := lockRead [q] ((off - 0xE900000) / 4) 0 d
    some (((r.1.head?).map (·.2)).getD 0, r.2)
  else if inLp off && 0x100 ≤ o && o < 0x180 && (o % 0x20 = 4 || o % 0x20 = 0x10) then
    some (ptpInfoRead (o % 0x20 == 0x10) q (4 * lpOf off + (o - 0x100) / 0x20) d)
  else none

/-- Every view in turn. -/
def Dev.view (d : Dev) (nv : Nv) (q : Requester) (off : Nat) : Option Word :=
  (d.viewLow nv off).orElse fun _ => (d.viewTbl q off).orElse fun _ => (d.viewIc off).orElse fun _ => d.viewHigh nv off

/-- A register of the register file: its value by its field types, RC fields cleared. -/
def fileRead (r : RegDef) (off : Nat) (d : Dev) : Word × Dev :=
  let v := d.reg off
  (r.readValue v, setReg off (r.afterRead v) d)

/-- MEM_UE of a memory: the read that clears it re-arms MEM_FIRST_UE, which then holds no address (R426, log 149). -/
def memUeAt (off : Nat) : Bool := 0xE000000 ≤ off && off < 0xE000C00 && off % 0x100 == 4

/-- A read of BAR0 at an offset that is served; 0 where no register lies (R8). -/
def regRead (nv : Nv) (q : Requester) (off' : Nat) (d : Dev) : Word × Dev :=
  let off := canon off'
  if !d.hasReg off then (0, d)
  else if 0xD800000 ≤ off && off < 0xD801000 && !hasTblRegs q then (0, badAccess d)
  else match sideAt off with
  | some x => sideRead q (off / 0x400 * 0x400) x (off % 0x400) d
  | none =>
    if 0xD802000 ≤ off && off < 0xD802030 then ringRead q 0xD802000 .manager (off - 0xD802000) d
    else match readSpecial q off d with
    | some r => (word r.1, r.2)
    | none => match regAt off with
      | none => (0, d)
      | some r =>
        if r.half = 0 then
          match d.view nv q off with
          | some v => (v, when (off == 0xD800010) (fun d => { d with tblRegs := mupd {} d.tblRegs (reqKey q) fun x => { x with err := 0 } }) d)
          | none =>
            let x := fileRead r off (when (off == 0x10001C) skewSync d)
            (x.1, when (memUeAt off) (setReg64 (off + 0xC) (2 ^ 64 - 1)) x.2)
        else
          let lo := if r.half = 2 then off - 4 else off
          read64 q lo (r.half == 2) ((d.value64 q lo).getD (d.reg64 lo)) d

/-! ### Writes -/

/-- A register of the register file: RW and RW1C fields. -/
def fileWrite (off : Nat) (v : Word) (d : Dev) : Dev := match regAt off with
  | some r => setReg off (r.afterWrite (d.reg off) v) d
  | none => d

/-- A 64-bit value of the register file. -/
def fileWrite64 (q : Requester) (lo : Nat) (high : Bool) (v : Word) (d : Dev) : Dev :=
  write64 q lo high v (d.reg64 lo) (fun n d => d |> fileWrite lo (word n) |> fileWrite (lo + 4) (word (hi32 n))) d

/-- DEV block (R33, R35, R487, R491). -/
def writeDev (q : Requester) (off : Nat) (v : Word) (d : Dev) : Dev :=
  if off = 0x10 then managerGate q (devCtrlWrite v) d
  else if off = 0x40 || off = 0x44 then managerGate q (fileWrite64 q 0x40 (off == 0x44) v) d
  else if off = 0x134 then managerGate q (fuseLockCmdWrite v) d
  else if off = 0x200 then managerGate q (spiCtrlWrite v) d
  else if off = 0x204 || off = 0x208 then managerGate q (fun d => if d.spiBusy then badAccess d else fileWrite off v d) d
  else if off = 0x300 || off = 0x304 then
    ringBase q 0x300 (off == 0x304) v d.mev (fun g d => { d with mev := g d.mev }) d
  else if off = 0x308 then mevCtrlWrite v d
  else if off = 0x30C then mevHeadWrite v d
  else if off = 0x310 then { d with mev := { d.mev with overflow := d.mev.overflow && !v.getLsbD 31 } }
  else fileWrite off v d

/-- TIME block. -/
def writeTime (q : Requester) (off : Nat) (v : Word) (d : Dev) : Dev :=
  if off = 0x100010 || off = 0x100014 then fileWrite64 q 0x100010 (off == 0x100014) v d
  else if off = 0x100018 then timeRateWrite v d
  else if off = 0x10001C then d |> fileWrite off v |> timeSync
  else fileWrite off v d

/-- HL blocks: in a pair's second block the control registers ignore writes (R65). -/
def writeHl (off : Nat) (v : Word) (d : Dev) : Dev :=
  let n := hlOf off
  let o := off % 0x10000
  if o = 0 then hlLinkCtrlWrite n v d
  else if o = 0x14 then connCtrlWrite n v d
  else if o = 0x08 && d.secondOf n then d
  else if o = 0x10 then d |> fileWrite off v |> connSync n
  else fileWrite off v d

/-- MS_CMD: GO starts OP on the record. -/
def msCmdWrite (g : Nat) (v : Word) (d : Dev) : Dev :=
  if v.getLsbD 30 then msGo g (wbits v 1 0) d else setFld (aMsCmd g) 1 0 (wbits v 1 0) d

/-- LP blocks. -/
def writeLp (off : Nat) (v : Word) (d : Dev) : Dev :=
  let g := lpOf off
  let o := off % 0x10000
  if o = 0 then lpModeWrite g v d
  else if 0x10 ≤ o && o < 0x20 then lpPortCtrlWrite (4 * g + o % 16 / 4) v d
  else if d.msBusy g && (o = 0x8020 || (0x8040 ≤ o && o < 0x8090)) then badAccess d
  else if o = 0x8020 then msCmdWrite g v d
  else if (0x20 ≤ o && o < 0x30) || (0x200 ≤ o && o < 0x240) then d |> fileWrite off v |> lpSync g
  else fileWrite off v d

/-- The table command registers of a requester (R171-R173). -/
def writeTblRegs (q : Requester) (off : Nat) (v : Word) (d : Dev) : Dev :=
  let x := mget {} d.tblRegs (reqKey q)
  let set := fun (f : TblRegs → TblRegs) => { d with tblRegs := mupd {} d.tblRegs (reqKey q) f }
  if !hasTblRegs q then badAccess d
  else if off = 0xD800000 || (0xD800040 ≤ off && off < 0xD8000C0) then
    if x.busy then tblErr q d
    else if off = 0xD800000 then
      if v.getLsbD 30 then tblGo q (wbits v 3 0) (wbits v 27 16) (v.getLsbD 15) (wbits v 11 6) d
      else set fun x => { x with cmd := v &&& 0x0FFF8FCF }
    else if off < 0xD800080 then set fun x => { x with key := mset 0 x.key ((off - 0xD800040) / 4) v }
    else set fun x => { x with data := mset 0 x.data ((off - 0xD800080) / 4) v }
  else d

/-- TBL block. -/
def writeTbl (q : Requester) (off : Nat) (v : Word) (d : Dev) : Dev :=
  if off < 0xD801000 then writeTblRegs q off v d
  else if off = 0xD801000 then managerGate q (when (v.getLsbD 0) controlReset) d
  else if 0xD802000 ≤ off && off < 0xD802030 then ringSet q 0xD802000 .manager (off - 0xD802000) v d
  else if off = 0xD803010 || off = 0xD803014 then
    ringBase q 0xD803010 (off == 0xD803014) v d.exc (fun g d => { d with exc := g d.exc }) d
  else if off = 0xD803018 then excCtrlWrite v d
  else if off = 0xD80301C then excHeadWrite v d
  else if off = 0xD803100 then actCntIndexWrite q v d
  else if off = 0xD803200 then learnHeadWrite v d
  else fileWrite off v d

/-- MEM block (R428-R435). -/
def writeMem' (nv : Nv) (q : Requester) (off : Nat) (v : Word) (d : Dev) : Dev :=
  if off = 0xE002000 then scrubCtrlWrite v d
  else if 0xE002004 ≤ off && off < 0xE002030 && d.scrubBusy then memRefused d
  else if 0xE002008 ≤ off && off < 0xE002018 then fileWrite64 q (off / 8 * 8) (off % 8 == 4) v d
  else if 0xE003004 ≤ off && off < 0xE003014 then fileWrite64 q ((off - 4) / 8 * 8 + 4) ((off - 4) % 8 == 4) v d
  else if off = 0xE003018 then testOpWrite nv (wbits v 1 0) d
  else if off = 0xE00310C then flipCtrlWrite nv v d
  else if off = 0xE004000 then spareCmdWrite nv v d
  else if off = 0xE004004 || off = 0xE004008 then fileWrite64 q 0xE004004 (off == 0xE004008) v d
  else fileWrite off v d

/-- Replace one half of a private register. -/
def setHalf (v : BitVec 64) (high : Bool) (w : Word) : BitVec 64 :=
  BitVec.ofNat 64 (if high then v.toNat % 2 ^ 32 + 2 ^ 32 * w.toNat else v.toNat / 2 ^ 32 * 2 ^ 32 + w.toNat)

/-- IC_EN_P and IC_SMODE_P of core c (R397). -/
def writeIcSet (c o : Nat) (v : Word) (d : Dev) : Dev :=
  if o = 0x20 || o = 0x24 then updCore c (fun x => { x with en := setHalf x.en (o == 0x24) v }) d
  else if o = 0x28 || o = 0x2C then updCore c (fun x => { x with smode := setHalf x.smode (o == 0x2C) v }) d
  else d

/-- I2C masters (R406). -/
def writeI2c (n o : Nat) (v : Word) (d : Dev) : Dev :=
  if o = 0 then d |> fileWrite (aI2c n) v |> when (v.getLsbD 30) (i2cRecover n)
  else if o = 4 then
    if v.getLsbD 30 then
      let r := drawWord d
      i2cCmdWrite n v (r.1.getLsbD 0) r.2
    else i2cCmdWrite n v false d
  else if o = 8 then d |> fileWrite (aI2c n + 8) v |> i2cSync n
  else if d.i2cBusy n then badAccess d
  else fileWrite (aI2c n + o) v d

/-- CTL block (R391-R407). -/
def writeCtl (q : Requester) (off : Nat) (v : Word) (d : Dev) : Dev :=
  let c := (off - 0xE800000) / 0x1000
  let k := (off - 0xE980000) / 0x100
  let o := off % 0x100
  if off < 0xE810000 then
    if off % 0x1000 = 0 then icClaimWrite q c v d
    else if off % 0x1000 = 0x30 then icPsw c v d
    else writeIcSet c (off % 0x1000) v d
  else if 0xE880000 ≤ off && off < 0xE881000 then icCfgWrite q (64 + (off - 0xE880000) / 4) v d
  else if off = 0xE882000 then icSwSet v d
  else if 0xE900000 ≤ off && off < 0xE900400 then lockWrite q ((off - 0xE900000) / 4) d
  else if 0xE980000 ≤ off && off < 0xE981000 then
    if o = 0x10 then coreKick q k d
    else if o = 0 then coreGate q k (coreCtrlWrite k (v.getLsbD 31) (v.getLsbD 30)) d
    else if o = 0xC then coreGate q k (coreWdogWrite k v) d
    else coreGate q k (fileWrite off v) d
  else if 0xEA00000 ≤ off && off < 0xEA00800 then writeI2c ((off - 0xEA00000) / 0x100) o v d
  else d

/-- STITCH block (R408, R409, R416). -/
def writeStitch (q : Requester) (off : Nat) (v : Word) (d : Dev) : Dev :=
  let e := off / 0x10000 % 2
  let ch := off % 0x10000 / 0x100
  let o := off % 0x100
  if off % 0x10000 ≥ 0x1000 then (match q with | .core c => if 4 ≤ (c : Nat) then coreDenied c d else d | _ => d)
  else chGate q e ch (fun d =>
    if o = 0 then chCtrlWrite q e ch v d
    else if o = 4 then setChan e ch (fun x => { x with done := x.done && !v.getLsbD 0, err := x.err && !v.getLsbD 1,
                                                       sig := x.sig && !v.getLsbD 2, errCode := if v.getLsbD 1 then 0 else x.errCode }) d
    else if o = 8 || o = 12 then write64 q (off / 16 * 16 + 8) (o == 12) v (d.chan e ch).prog (chProgWrite e ch) d
    else d) d

/-- The blocks in turn. -/
def writeBlock (nv : Nv) (q : Requester) (off : Nat) (v : Word) (d : Dev) : Dev :=
  if off < 0x100000 then writeDev q off v d
  else if off < 0x200000 then writeTime q off v d
  else if inHl off then writeHl off v d
  else if inLp off then writeLp off v d
  else if off = 0xC000000 then tmAgeLimitWrite v.toNat d
  else if 0xD800000 ≤ off && off < 0xE000000 then writeTbl q off v d
  else if 0xE000000 ≤ off && off < 0xE800000 then mgrGate q (writeMem' nv q off v) d
  else if 0xE800000 ≤ off && off < 0xF000000 then writeCtl q off v d
  else if 0xF000000 ≤ off && off < 0xF800000 then writeStitch q off v d
  else fileWrite off v d

/-- What cores 4-15 may write (R389); the STITCH block judges for itself. -/
def customerMay (c off : Nat) : Bool :=
  (0xE800000 + c * 0x1000 ≤ off && off < 0xE801000 + c * 0x1000) ||
  (0xE800000 ≤ off && off < 0xE810000 && off % 0x1000 == 0x30) || off == 0xE882000 ||
  (0xE900000 ≤ off && off < 0xE900400) || (0xEB20000 + c * 0x400 ≤ off && off < 0xEB20400 + c * 0x400) ||
  (0xD800000 ≤ off && off < 0xD801000) || (0xEA00000 ≤ off && off < 0xEA00800) || off == aCore c + 0x10 ||
  (0xF000000 ≤ off && off < 0xF800000)

/-- Registers that a channel may write (R411). -/
def stMayWrite (cust : Bool) (off : Nat) : Bool :=
  if cust then
    (0xE900000 ≤ off && off < 0xE900400) || off == 0xE882000 || (0xE804000 ≤ off && off < 0xE810000 && off % 0x1000 == 0x30)
  else
    !([0x10, 0x40, 0x44, 0x134, 0x200, 0x204, 0x208, 0xD801000].contains off ||
      (0xD800000 ≤ off && off < 0xD801000) || (0xE000000 ≤ off && off < 0xE800000) ||
      (0xE800000 ≤ off && off < 0xE810000 && [0, 0x20, 0x24, 0x28, 0x2C].contains (off % 0x1000)) || (0xE880000 ≤ off && off < 0xE881000) ||
      (0xE980000 ≤ off && off < 0xE981000) || (0xF000000 ≤ off && off < 0xF800000))

/-- A write of BAR0 at an offset that is served. -/
def regWrite (nv : Nv) (q : Requester) (off : Nat) (v : Word) (d : Dev) : Dev :=
  let refused := match q with
    | .core c => 4 ≤ (c : Nat) && !customerMay c off
    | .stitch e c => !stMayWrite (d.chan e c).customer off
    | .manager | .host _ => false
  match q, refused with
  | .core c, true => coreDenied c d
  | .stitch _ _, true => badAccess d
  | _, _ =>
    if !d.hasReg off then badAccess d
    else match sideAt off with
    | some x => mbWrite x (off % 0x400) v d
    | none => writeBlock nv q off v d

/-! ### The manager function's BAR4 (R34, log 45) -/

/-- Offsets from 2^28 on stand for BAR4 of the manager function. -/
def bar4At : Nat := 2 ^ 28

/-- One dword of an MSI-X table or Pending Bit Array of n vectors. -/
def Dev.msixDword (d : Dev) (f pba n o : Nat) : Word :=
  let x := d.fn f
  let e := mget {} x.vecs (o / 16)
  if o < 16 * n then
    (if o % 16 / 4 = 0 then word e.addr else if o % 16 / 4 = 1 then word (hi32 e.addr)
     else if o % 16 / 4 = 2 then e.data else word (b2n e.masked))
  else if pba ≤ o && o < pba + n / 8 then
    word (((List.range 32).map fun b => if x.pba.contains (8 * (o - pba) / 32 * 32 + b) then 2 ^ b else 0).sum)
  else 0

/-- Write one dword of an MSI-X table. -/
def msixSet (f o : Nat) (v : Word) (d : Dev) : Dev :=
  let k := o / 16
  let part := o % 16 / 4
  if part = 3 then vectorMask f k (v.getLsbD 0) d
  else updFn f (fun x => { x with vecs := mupd {} x.vecs k fun e =>
    if part = 0 then { e with addr := e.addr / 2 ^ 32 * 2 ^ 32 + v.toNat / 4 * 4 }
    else if part = 1 then { e with addr := lo32 e.addr + 2 ^ 32 * v.toNat }
    else { e with data := v } }) d

/-- Whether a BAR4 offset of the manager function holds anything. -/
def mgrBar4 (o : Nat) : Bool := o % 4 == 0 && (o < 1024 || (0x1000 ≤ o && o < 0x1008))

/-- Reads and writes of BAR0, and of BAR4 by the manager. -/
def spaceRead (nv : Nv) (q : Requester) (off : Nat) (d : Dev) : Word × Dev :=
  if off < bar4At then regRead nv q off d
  else if q = .manager && mgrBar4 (off - bar4At) then (d.msixDword 32 0x1000 64 (off - bar4At), d)
  else (0, d)
def spaceWrite (nv : Nv) (q : Requester) (off : Nat) (v : Word) (d : Dev) : Dev :=
  if off < bar4At then regWrite nv q off v d
  else if q = .manager && mgrBar4 (off - bar4At) then when (off - bar4At < 1024) (msixSet 32 (off - bar4At) v) d
  else badAccess d

end Sys2Proof.Machine
end

