-- ==== Sys2Proof/Machine/Accesses.lean ====
section
/-!
DEFINITION. Requests that reach a BAR: the register rows, the manager's HBM aperture (R32, R33), and the host
functions' BAR0, BAR2 and BAR4 (R83-R92).
-/
namespace Sys2Proof.Machine

/-! ### Bytes of a write -/

/-- The bytes whose enables are set, with their offsets. -/
def enabledBytes (off : Nat) (data : List Byte) (be : List Bool) : List (Nat × Byte) :=
  data.zipIdx.filterMap fun x => if be.getD x.2 true then some (off + x.2, x.1) else none

/-- Runs of adjacent bytes. -/
def byteRuns : List (Nat × Byte) → List (Nat × List Byte)
  | [] => []
  | (a, b) :: r => match byteRuns r with
    | (c, l) :: t => if a + 1 = c then (a, b :: l) :: t else (a, [b]) :: (c, l) :: t
    | [] => [(a, [b])]

/-! ### The HBM aperture (R32, R33) -/

/-- HBM address of BAR2 byte 0. -/
def Dev.aperture (d : Dev) : Nat := d.reg64 0x40

/-- The manager's side whose page an HBM address lies in. -/
def Dev.mgrPage (d : Dev) (a : Nat) : Option Side := (arenaSide a).filter fun x => x.mgr && d.pairExists x.pair

/-- The regions besides arena pages that BAR2 writes reach. -/
def apertureWritable (a : Nat) : Bool :=
  (custBase ≤ a && a < custBase + 2 ^ 28) || (stagingBase ≤ a && a < stagingBase + 2 ^ 22) || inTest (hbmMem a) (hbmOff a)

/-- One BAR2 write: the page of its first byte decides for all of it. -/
def apertureWrite (a : Nat) (data : List Byte) (be : List Bool) (ep : Bool) (d : Dev) : Dev := match d.mgrPage a with
  | some m => arenaWrite m true (byteRuns (enabledBytes ((a - arenaBase) % 4096) data be)) ep d
  | none =>
    if apertureWritable a then each (byteRuns (enabledBytes a data be)) (fun x => writeHbm x.1 x.2 ep) d else badAccess d

/-- What a page of the arena reads as, at an offset, with the poison mark: a page that `torn` names is the reader's to
receive from (R147). -/
def pageRead (a len : Nat) (torn : Option (Side × Nat)) (d : Dev) : List Byte × Bool × Dev :=
  let r := readHbm a len d
  match torn with
  | some (x, off) => let t := receiverBytes x off r.1 r.2.2
    (t.1, r.2.1, t.2)
  | none => r

/-- A BAR2 read: the context home and spill regions read 0. -/
def apertureRead (a len : Nat) (d : Dev) : List Byte × Bool × Dev :=
  if hbmOff a < 15 * 2 ^ 30 then (List.replicate len 0, false, badAccess d)
  else pageRead a len (((arenaSide a).filter fun x => !x.mgr).map fun x => (x, (a - arenaBase) % 4096)) d

/-- A BAR2 request of the manager. -/
def bar2Access (a : Access) (d : Dev) : Dev :=
  let live := d.power.holds.isEmpty && 4 ≤ d.fld 0x14 3 0
  if !d.sees 32 then
    match a with
    | .read _ _ _ => unseenRead 32 d
    | .write _ _ _ _ => unseen 32 d
  else match a with
    | .read off len _ =>
      if live then
        let r := apertureRead (d.aperture + off % 2 ^ 30) len d
        emit (.completion 32 0 r.1 r.2.1) r.2.2
      else emit (.completion 32 0 (List.replicate len 0) false) d
    | .write off data be ep => when live (apertureWrite (d.aperture + off % 2 ^ 30) data be ep) d

/-- BAR2_ACCESS (R33). -/
def execBar2Access (a : Access) (s : State) : Host.Outcome State Fault Refusal :=
  .next (s.onDev fun _ d => bar2Access a d)

/-! ### A host function's BAR0 (R83-R86) -/

/-- The slice of function f whose doorbell page holds an offset. -/
def Dev.pageSlice (d : Dev) (f off : Nat) : Option Nat :=
  if off < 0x1000000 || 0x3000000 ≤ off then none
  else (d.slices.find? fun e => e.2.fn == f && e.2.lidx == (off - 0x1000000) / 0x10000).map (·.1)

/-- Whether an offset of BAR0 holds a register. -/
def Dev.hostHas (d : Dev) (f off : Nat) : Bool :=
  if off % 4 != 0 then false
  else if off < 0x1000 then off ≤ 0x38 && off != 0xC
  else if off < 0x2000 then ringHas (off - 0x1000)
  else if off < 0x3000 then mbHas (off - 0x2000)
  else if off < 0x3200 then off % 0x20 ≤ 0x14
  else if off < 0x8000 then (0x4000 ≤ off && off ≤ 0x4010) || (0x4100 ≤ off && off ≤ 0x411C)
  else if off < 0xE000 then true
  else (d.pageSlice f off).isSome &&
    (let o := off % 0x10000
     if o < 0xC000 then true else if o < 0xD000 then ringHas (o - 0xC000) else if o < 0xE000 then mbHas (o - 0xD000) else false)

/-- A slice's ring and mailbox registers. -/
def hostSliceRead (f off s : Nat) (d : Dev) : Word × Dev :=
  let o := off % 0x10000
  let sl := fin 4096 s
  if 0xC000 ≤ o && o < 0xD000 then ringRead (.host (fin 32 f)) (aHost f off / 0x1000 * 0x1000) (.slice sl) (o - 0xC000) d
  else if 0xD000 ≤ o && o < 0xE000 then sideRead (.host (fin 32 f)) (aHost f off / 0x1000 * 0x1000) ⟨.slice sl, false⟩ (o - 0xD000) d
  else (0, d)

/-- The function event queue's registers (R137). -/
def feqRead (f o : Nat) (d : Dev) : Word × Dev :=
  let x := (d.fn f).feq
  if o ≤ 4 then read64 (.host (fin 32 f)) (aHost f 0x4000) (o == 4) x.base d
  else (if o = 8 then evCtrl x else if o = 0x10 then evStatus x else 0, d)

/-- Read a register of BAR0. Doorbells read 0. -/
def hostRegRead (nv : Nv) (f off : Nat) (d : Dev) : Word × Dev :=
  let q : Requester := .host (fin 32 f)
  if off < 0x1000 || (0x4100 ≤ off && off < 0x4120) then regRead nv q (aFn f off) d
  else if off < 0x2000 then ringRead q (aHost f 0x1000) (.function (fin 32 f)) (off - 0x1000) d
  else if off < 0x3000 then sideRead q (aHost f 0x2000) ⟨.function (fin 32 f), false⟩ (off - 0x2000) d
  else if off < 0x3200 then (d.reg (aHost f off), d)
  else if 0x4000 ≤ off && off ≤ 0x4010 then feqRead f (off - 0x4000) d
  else match d.pageSlice f off with
    | some s => hostSliceRead f off s d
    | none => (0, d)

/-- Write a wake-pattern slot (R106): one that a slice owns takes no write. -/
def wakeWrite (f off : Nat) (v : Word) (d : Dev) : Dev :=
  let n := (off - 0x3000) / 0x20
  if d.flag (aWp f n + 0x14) 15 then count (aFn f 0x10) d
  else if off % 0x20 = 0x14 then setFlag (aWp f n + 0x14) 0 (v.getLsbD 0) d
  else setReg (aHost f off) v d

def feqSet (f o : Nat) (v : Word) (d : Dev) : Dev :=
  if o ≤ 4 then
    ringBase (.host (fin 32 f)) (aHost f 0x4000) (o == 4) v (d.fn f).feq (fun g => updFn f fun x => { x with feq := g x.feq }) d
  else if o = 8 then feqCtrlWrite f v d
  else if o = 0xC then feqHeadWrite f v d
  else updFn f (fun x => { x with feq := { x.feq with overflow := x.feq.overflow && !v.getLsbD 31 } }) d

def hostSliceWrite (f off s : Nat) (v : Word) (d : Dev) : Dev :=
  let o := off % 0x10000
  let sl := fin 4096 s
  if o < 0x8000 then sqDbWrite (.slice sl) (o / 4) v d
  else if o < 0xC000 then cqHeadWrite (.slice sl) ((o - 0x8000) / 4) v d
  else if o < 0xD000 then ringSet (.host (fin 32 f)) (aHost f off / 0x1000 * 0x1000) (.slice sl) (o - 0xC000) v d
  else mbWrite ⟨.slice sl, false⟩ (o - 0xD000) v d

/-- Write a register of BAR0. -/
def hostRegWrite (f off : Nat) (v : Word) (d : Dev) : Dev :=
  let o : Owner := .function (fin 32 f)
  if off < 0x1000 then d
  else if off < 0x2000 then ringSet (.host (fin 32 f)) (aHost f 0x1000) (.function (fin 32 f)) (off - 0x1000) v d
  else if off < 0x3000 then mbWrite ⟨.function (fin 32 f), false⟩ (off - 0x2000) v d
  else if off < 0x3200 then wakeWrite f off v d
  else if off < 0x4100 then feqSet f (off - 0x4000) v d
  else if off < 0x8000 then d
  else if off < 0xC000 then sqDbWrite o ((off - 0x8000) / 4) v d
  else if off < 0xE000 then cqHeadWrite o ((off - 0xC000) / 4) v d
  else match d.pageSlice f off with
    | some s => hostSliceWrite f off s v d
    | none => d

/-! ### How a host's requests are answered (R86-R92) -/

def fnBadAccess (f : Nat) (d : Dev) : Dev := count (aFn f 0x10) d

/-- A completion to the host of function f. -/
def complete' (f st : Nat) (data : List Byte) (ep : Bool) (d : Dev) : Dev := emit (.completion f st data ep) d

/-- An access that breaks R86 or R88. -/
def aborted (f : Nat) (read : Bool) (d : Dev) : Dev :=
  d |> fnBadAccess f |> aerUnc f erAbort read |> when read (complete' f 4 [] false)

/-- A request answered with Unsupported Request. -/
def unsupported (f : Nat) (read : Bool) (d : Dev) : Dev :=
  d |> aerUnc f erUnsupported read |> when read (complete' f 1 [] false)

/-- The arena page that a window of BAR0 or BAR2 shows: the side that sends from it. -/
def Dev.windowSide (d : Dev) (f : Nat) (bar2 : Bool) (off : Nat) : Option Side :=
  let up := off / 0x1000 % 2 == 1
  if bar2 then
    ((d.slices.find? fun e => e.2.fn == f && e.2.lidx == off / 0x2000).map fun e => ⟨.slice (fin 4096 e.1), up⟩)
  else if 0xE000 ≤ off && off < 0x10000 then some ⟨.function (fin 32 f), up⟩ else none

/-- Messages from the manager are hidden from the host of a HOST_LOST slice: its page reads 0 (R149, log 141). -/
def Dev.hidden (d : Dev) (x : Side) : Bool := x.mgr && (match x.pair with
  | .slice s => ((d.slice s).map (·.state)) == some .hostLost
  | _ => false)

/-- Read a window: bytes as stored, with EP over poisoned HBM. -/
def windowRead (f : Nat) (x : Option Side) (off len : Nat) (d : Dev) : Dev := match x.filter (!d.hidden ·) with
  | none => complete' f 0 (List.replicate len 0) false d
  | some x =>
    let r := pageRead (sidePage x + off % 4096) len (if x.mgr then some (x, off % 4096) else none) d
    complete' f 0 r.1 r.2.1 r.2.2

/-- One write into a window: the host sends from its own sides' pages; a page of an unused local index ignores it. -/
def windowWrite (f : Nat) (x : Option Side) (off : Nat) (data : List Byte) (be : List Bool) (ep : Bool) (d : Dev) : Dev :=
  match x with
  | none => when ep (hostPoisonIn f) d
  | some y => arenaWrite { y with mgr := false } y.mgr (byteRuns (enabledBytes (off % 4096) data be)) ep d

/-- BAR0 (R86). -/
def bar0Request (nv : Nv) (f : Nat) (a : Access) (d : Dev) : Dev := match a with
  | .read off len be =>
    match d.windowSide f false off with
    | some x => windowRead f (some x) off len d
    | none =>
      if len != 4 || off % 4 != 0 || be.any (!·) then aborted f true d
      else if !d.hostHas f off then d |> fnBadAccess f |> complete' f 0 (List.replicate 4 0) false
      else
        let r := hostRegRead nv f off d
        complete' f 0 (leBytes 4 r.1.toNat) false r.2
  | .write off data be ep =>
    if (d.windowSide f false off).isSome then windowWrite f (d.windowSide f false off) off data be ep d
    else if ep then hostPoisonIn f d
    else if data.length != 4 || off % 4 != 0 || be.any (!·) || !d.hostHas f off then aborted f false d
    else hostRegWrite f off (word (le data 0 4)) d

/-- BAR2 (R87): a page of an unused local index reads 0 and ignores writes. -/
def bar2Request (f : Nat) (a : Access) (d : Dev) : Dev := match a with
  | .read off len _ => windowRead f (d.windowSide f true off) off len d
  | .write off data be ep => windowWrite f (d.windowSide f true off) off data be ep d

/-- Accesses of BAR4 that R88 accepts: one DWORD, or one aligned QWORD, of the table or the Pending Bit Array. -/
def bar4Ok (off len : Nat) : Bool :=
  ((len == 4 && off % 4 == 0) || (len == 8 && off % 8 == 0)) && (off < 0x8000 || (0x10000 ≤ off && off < 0x10100))

/-- BAR4 (R88). Offsets that hold nothing are treated as R86 treats those of BAR0: a full DWORD read there returns 0, a
QWORD read is answered Completer Abort (DESIGN CHOICE, log 142). -/
def bar4Request (f : Nat) (a : Access) (d : Dev) : Dev := match a with
  | .read off len be =>
    let v := ((List.range (len / 4)).map fun i => leBytes 4 (d.msixDword f 0x10000 2048 (off + 4 * i)).toNat).flatten
    if bar4Ok off len && be.all id then complete' f 0 v false d
    else if len = 4 && off % 4 = 0 && be.all id then d |> fnBadAccess f |> complete' f 0 (List.replicate 4 0) false
    else aborted f true d
  | .write off data be ep =>
    if ep then hostPoisonIn f d
    else if !bar4Ok off data.length || be.any (!·) then aborted f false d
    else if 0x10000 ≤ off then fnBadAccess f d
    else each (List.range (data.length / 4)) (fun i => msixSet f (off + 4 * i) (word (le data (4 * i) 4))) d

/-- Whether an access is a read. -/
def accessReads : Access → Bool
  | .read _ _ _ => true
  | .write _ _ _ _ => false

/-- A request of a host to its function (R90, R92); a memory request needs Memory Space Enable and no FLR. -/
def barRequest (nv : Nv) (f : Nat) (a : HostReq) (d : Dev) : Dev :=
  let mem := fun (a : Access) (go : Dev → Dev) => if d.sees f then go d else unsupported f (accessReads a) d
  if !(d.power.holds.isEmpty && d.fnExists f && d.dlUp f) then d
  else match a with
    | .bar0 a => mem a (bar0Request nv f a)
    | .bar2 a => mem a (bar2Request f a)
    | .bar4 a => mem a (bar4Request f a)
    | .unsupported => unsupported f true d
    | .translated posted => unsupported f (!posted) d
    | .message => aerUnc f erUnsupported false d
    | .vendorType1 => d
    | .malformed => aerUnc f erMalformed false d

/-- BAR_REQUEST (R90). -/
def execBarRequest (f : Fin 32) (a : HostReq) (s : State) : Host.Outcome State Fault Refusal :=
  .next (s.onDev fun nv d => barRequest nv f a d)

/-! ### Register rows (R6, R8, R9) -/

/-- A 32-bit write of a requester: a host's goes to its own function's BAR0. -/
def State.write32 (s : State) (q : Requester) (off : Nat) (v : Word) : State := match q with
  | .host f => s.onDev fun nv d => barRequest nv f (.bar0 (.write off (leBytes 4 v.toNat) [] false)) d
  | _ => s.atReg q off fun nv d => spaceWrite nv q off v d

/-- The answer to a read of a requester: a completion to the manager, the value to the others. -/
def State.read32 (s : State) (q : Requester) (off : Nat) : State := match q with
  | .host f => s.onDev fun nv d => barRequest nv f (.bar0 (.read off 4 [])) d
  | _ => s.atRead q off fun nv d =>
    let r := spaceRead nv q off d
    emit (.value q off r.1) r.2

/-! ### Core-local addresses (R31, R388-R390) -/

/-- Offsets of a core from 2^32 on stand for core-local addresses. -/
def coreAt : Nat := 2 ^ 32

/-- What lies at a core-local address. -/
inductive Local where
  | rom | timer
  | onatar (o : Nat)
  | customer (o : Nat)
  /-- Its mailbox pages: toward the manager, or from it. -/
  | page (upper : Bool) (o : Nat)
  | window (o : Nat)
  | registers (o : Nat)
  | nothing
deriving DecidableEq, Repr

/-- The map of R388 for core c. Cores 0-3 have no mailbox pair, so no pages; they may access every other address of the map
(R389; log 143). -/
def localOf (c a : Nat) : Local :=
  if a < 0x10000 then .rom
  else if 0x2000000 ≤ a && a < 0x2000010 then .timer
  else if 0x10000000 ≤ a && a < 0x10400000 then .onatar (a - 0x10000000)
  else if 0x10400000 ≤ a && a < 0x11000000 then .customer (a - 0x10000000)
  else if 0x20000000 ≤ a && a < 0x20002000 && 4 ≤ c then .page (a / 0x1000 % 2 == 1) (a % 0x1000)
  else if 0x40000000 ≤ a && a < 0x50000000 then .registers (a - 0x40000000)
  else if 0x80000000 ≤ a && a < 0x90000000 then .window (a - 0x80000000)
  else .nothing

/-- The 16 bytes at 0x0200_0000: MTIME, MTIMECMP. -/
def Dev.timerBytes (d : Dev) (c : Nat) : List Byte := leBytes 8 d.time ++ leBytes 8 (d.core c).mtimecmp

/-- A load of memory 4 or 8-11: a word that is uncorrectable or poisoned raises an access fault instead (R427). -/
def loadMem (c a m o len : Nat) (d : Dev) : Dev :=
  let r := readMem m o len d
  emit (if r.2.1 then .coreFault c else .load c a r.1) r.2.2

/-- A load of `len` bytes by core c from a core-local address outside the register space. -/
def coreLoad (c a len : Nat) (d : Dev) : Dev := match localOf c a with
  | .rom => emit (.load c a ((List.range len).map fun i => Config.bootRom (a + i))) d
  | .timer => emit (.load c a (bytesAt (d.timerBytes c) (a - 0x2000000) len)) d
  | .onatar o =>
    if 4 ≤ c then coreDenied c d
    else
      let r := readMem 4 o len d
      if r.2.1 then controlReset r.2.2 else emit (.load c a r.1) r.2.2
  | .customer o => loadMem c a 4 o len d
  | .window o => loadMem c a (hbmMem (custBase + o)) (hbmOff (custBase + o)) len d
  | .page up o =>
    let x : Side := ⟨.core (fin 16 c), up⟩
    let r := pageRead (sidePage x + o) len (if up then some (x, o) else none) d
    emit (.load c a r.1) r.2.2
  | .registers _ => emit (.coreFault c) d
  | .nothing => emit (.coreFault c) d

/-- A store into memory 4 or 8-11. -/
def coreStore (c a : Nat) (b : List Byte) (d : Dev) : Dev := match localOf c a with
  | .rom => if 4 ≤ c then coreDenied c d else emit (.coreFault c) d
  | .timer =>
    let cmp := leNat ((putBytes (d.timerBytes c) (a - 0x2000000) b).drop 8)
    updCore c (fun x => { x with mtimecmp := cmp }) d
  | .onatar o =>
    if 4 ≤ c then coreDenied c d
    else
      let bad := (readMem 4 o b.length d).2.1 && (b.length < 8)
      d |> writeMem 4 o b false |> when bad controlReset
  | .customer o => writeMem 4 o b false d
  | .window o => writeHbm (custBase + o) b false d
  | .page up o => arenaWrite ⟨.core (fin 16 c), false⟩ up [(o, b)] false d
  | .registers _ => emit (.coreFault c) d
  | .nothing => emit (.coreFault c) d

/-- The offset in the register space that a core's offset names, if it does. -/
def coreSpace (off : Nat) : Option Nat :=
  if off < coreAt then some off else match localOf 0 (off - coreAt) with | .registers o => some o | _ => none

/-! ### Accesses of any width (R8) -/

/-- Whether a write of a requester has the width that the registers at an offset take: 32 bits, aligned; BAR4 of the manager
function takes aligned QWORDs too. -/
def fullWidth (q : Requester) (off len : Nat) : Bool :=
  off % 4 == 0 && (len == 4 || (len == 8 && off % 8 == 0 && q == .manager && bar4At ≤ off))

/-- A write of `len` bytes: one of a width that R8 does not allow is ignored and counted, or denied to a core that could
not write there at all (R389). -/
def State.writeSpace (s : State) (q : Requester) (off : Nat) (v : BitVec 64) (len : Nat) : State :=
  if len = 8 && fullWidth q off len then (s.write32 q off (v.setWidth 32)).write32 q (off + 4) ((v >>> 32).setWidth 32)
  else if fullWidth q off len then s.write32 q off (v.setWidth 32)
  else s.atReg q off fun _ d => match q with
    | .core c => if 4 ≤ (c : Nat) && !customerMay c (off / 4 * 4) then coreDenied c d else badAccess d
    | _ => badAccess d

/-- A read of `len` bytes: 0 for a width that R8 does not allow. -/
def State.readSpace (s : State) (q : Requester) (off len : Nat) : State :=
  if len = 8 && fullWidth q off len then (s.read32 q off).read32 q (off + 4)
  else if fullWidth q off len then s.read32 q off
  else s.atRead q off fun _ d => emit (.value q off 0) d

/-- A write by any requester. -/
def State.writeSpan (s : State) (q : Requester) (off : Nat) (v : BitVec 64) (len : Nat) : State := match q with
  | .host f => s.onDev fun nv d => barRequest nv f (.bar0 (.write off (leBytes len v.toNat) [] false)) d
  | .core c => match coreSpace off with
    | some o => s.writeSpace q o v len
    | none => if s.dev.power.holds.isEmpty then s.onDev fun _ d => coreStore c (off - coreAt) (leBytes len v.toNat) d else s
  | _ => s.writeSpace q off v len

/-- A read by any requester. -/
def State.readSpan (s : State) (q : Requester) (off len : Nat) : State := match q with
  | .host f => s.onDev fun nv d => barRequest nv f (.bar0 (.read off len [])) d
  | .core c => match coreSpace off with
    | some o => s.readSpace q o len
    | none => if s.dev.power.holds.isEmpty then s.onDev fun _ d => coreLoad c (off - coreAt) len d else s
  | _ => s.readSpace q off len

/-- REGISTER_WRITE (R6, R7, R8); a core's may name any address of its map (R31, R388). -/
def execRegisterWrite (q : Requester) (a : Span) (v : BitVec 64) (s : State) : Host.Outcome State Fault Refusal :=
  .next (s.writeSpan q a.off v a.len)

/-- RC_REGISTER_READ (R6); a read of any other register, or of a core's map, is the same access. -/
def execRcRegisterRead (q : Requester) (a : Span) (s : State) : Host.Outcome State Fault Refusal :=
  .next (s.readSpan q a.off a.len)

/-- REG64_LOW_READ (R9). -/
def execReg64LowRead (q : Requester) (off : Nat) (s : State) : Host.Outcome State Fault Refusal :=
  .next (s.read32 q off)

/-- REG64_HIGH_WRITE (R9). -/
def execReg64HighWrite (q : Requester) (off : Nat) (v : Word) (s : State) : Host.Outcome State Fault Refusal :=
  .next (s.write32 q off v)

/-- HBM_APERTURE_WRITE (R33). -/
def execHbmApertureWrite (q : Requester) (high : Bool) (v : Word) (s : State) : Host.Outcome State Fault Refusal :=
  .next (s.write32 q (if high then 0x44 else 0x40) v)

/-- What a step does when no command waits: time passes, and what waited only for its moment takes place (log 1). -/
def tick (s : State) : State :=
  { s with dev := s.dev |> tickDev |> closeDue |> tblSettle |> each (List.range 32) msSettle }

end Sys2Proof.Machine
end

