-- ==== Sys2Proof/Machine/Stitch.lean ====
section
/-!
DEFINITION. What a running stitch program does (18_stitch_engine.md, R409-R416): fetching an instruction, the four
kinds, faults, the end of a disable.
-/
namespace Sys2Proof.Machine

/-! ### Addresses (R411) -/

def stSpace (a : Nat) : Nat := a / 2 ^ 60 % 16
def stOff (a : Nat) : Nat := a % 2 ^ 60

/-- Where each space ends. -/
def stLimit (sp : Nat) : Nat := if sp = 0 then 2 ^ 24 else if sp = 1 then 2 ^ 36 else if sp = 2 then 2 ^ 60 else 2 ^ 28

/-- What part of a space a channel may reach: from the first number to before the second. -/
def Dev.stPermitted (d : Dev) (cust : Bool) (sp : Nat) : Nat × Nat :=
  if sp = 2 && (cust || !d.mgrMay) then (0, 0)
  else if !cust then (0, stLimit sp)
  else if sp = 0 then (0x400000, 2 ^ 24)
  else if sp = 1 then (custBase, custBase + 2 ^ 28)
  else (0, stLimit sp)

/-- The status of an access to `len` bytes at a: OK, BAD_PARAM for a reserved space, DENIED outside what is permitted. -/
def Dev.stRange (d : Dev) (cust : Bool) (a len : Nat) : Nat :=
  let p := d.stPermitted cust (stSpace a)
  if 4 ≤ stSpace a then stBadParam
  else if stLimit (stSpace a) < stOff a + len then stDenied
  else if stOff a < p.1 || p.2 < stOff a + len then stDenied
  else stOk

/-! ### Memories with their poison marks (R415) -/

/-- The memory and offset of a word of SPACE 0 or 1. -/
def stWordMem (sp w : Nat) : Nat × Nat := if sp = 0 then (4, w) else (hbmMem w, hbmOff w)

/-- Read n words of SPACE 0 or 1 from w on: each byte with the mark of its word. -/
def stReadWords (sp : Nat) : Nat → Nat → Dev → List (Byte × Bool) × Dev
  | 0, _, d => ([], d)
  | n + 1, w, d =>
    let x := readWord (stWordMem sp w).1 (stWordMem sp w).2 d
    let r := stReadWords sp n (w + 8) x.2
    ((leBytes 8 x.1.data).map (fun b => (b, decide (x.1.outcome ≥ 2))) ++ r.1, r.2)

/-- Read a range of SPACE 0 or 1: each byte with the mark of its word. -/
def stReadMem (sp o len : Nat) (d : Dev) : List (Byte × Bool) × Dev :=
  let r := stReadWords sp (wordsOf o len).length (o / 8 * 8) d
  ((r.1.drop (o % 8)).take len, r.2)

/-- Write bytes into one word of SPACE 0 or 1: a word that takes a marked byte becomes poisoned. -/
def stWriteWord (sp a : Nat) (l : List (Byte × Bool)) (d : Dev) : Dev :=
  let m := stWordMem sp (a / 8 * 8)
  let b := l.map (·.1)
  if b.isEmpty then d
  else if b.length = 8 then storeWord m.1 m.2 (leNat b) (l.any (·.2)) true d
  else mergeWord m.1 (m.2 + a % 8) b (l.any (·.2)) true d

def stWriteWords (sp w : Nat) : List (Byte × Bool) → Dev → Dev
  | b0 :: b1 :: b2 :: b3 :: b4 :: b5 :: b6 :: b7 :: r, d =>
    stWriteWords sp (w + 8) r (stWriteWord sp w [b0, b1, b2, b3, b4, b5, b6, b7] d)
  | l, d => stWriteWord sp w l d

/-- Write a range of SPACE 0 or 1. -/
def stWriteMem (sp o : Nat) (data : List (Byte × Bool)) (d : Dev) : Dev :=
  let h := (8 - o % 8) % 8
  d |> stWriteWord sp o (data.take h) |> stWriteWords sp (o + h) (data.drop h)
    |> when (sp == 1) (each (wordsOf o data.length) hbmTouched)

/-- Runs of bytes of one mark, each with its offset. -/
def markRuns (data : List (Byte × Bool)) : List (Nat × List Byte × Bool) :=
  data.foldl (fun acc b =>
    match acc.getLast? with
    | some r => if r.2.2 = b.2 then acc.dropLast ++ [(r.1, r.2.1 ++ [b.1], b.2)] else acc ++ [(r.1 + r.2.1.length, [b.1], b.2)]
    | none => [(0, [b.1], b.2)]) []

/-- Write bytes with their marks at an address of SPACE 0, 1 or 2. -/
def stWrite (a : Nat) (data : List (Byte × Bool)) (d : Dev) : Dev :=
  if stSpace a = 2 then
    each (markRuns data) (fun r => when d.cpUp (emit (.memWrite .manager (stOff a + r.1) r.2.1 false r.2.2))) d
  else stWriteMem (stSpace a) (stOff a) data d

/-- What a read brought: a status, the bytes with their marks. -/
structure StRead where
  st   : Nat
  data : List (Byte × Bool)
  dev  : Dev

def StRead.bytes (r : StRead) : List Byte := r.data.map (·.1)
def StRead.poisoned (r : StRead) : Bool := r.data.any (·.2)

/-- Aligned words of the register space; the table command registers bring nothing (R411). -/
def stReadRegs (nv : Nv) (e : Fin 2) (ch o n : Nat) (d : Dev) : StRead :=
  (List.range n).foldl (fun (r : StRead) i =>
    let off := o + 4 * i
    if r.st ≠ stOk then r
    else if 0xD800000 ≤ off && off < 0xD801000 then ⟨stDenied, [], badAccess r.dev⟩
    else if !r.dev.serves off then { r with data := r.data ++ (leBytes 4 0).map fun b => (b, false) }
    else
      let x := regRead nv (.stitch e (fin 16 ch)) off r.dev
      ⟨stOk, r.data ++ (leBytes 4 x.1.toNat).map (fun b => (b, false)), x.2⟩) ⟨stOk, [], d⟩

/-- Read `len` bytes at an address; manager memory answers with `op`. -/
def stRead (nv : Nv) (e : Fin 2) (ch a len : Nat) (op : Read) (d : Dev) : StRead :=
  let st := d.stRange (d.chan e ch).customer a len
  if st ≠ stOk then ⟨st, [], d⟩
  else if stSpace a = 2 then
    let marked := readStatus op == stPoisoned
    let st := if marked then stOk else readStatus op
    ⟨st, (padTo len (op.bytes.take len)).map (fun b => (b, marked)), dmaFail 32 op d⟩
  else if stSpace a = 3 then stReadRegs nv e ch (stOff a) (len / 4) d
  else
    let r := stReadMem (stSpace a) (stOff a) len d
    ⟨stOk, r.1, r.2⟩

/-! ### Instructions (R412) -/

def stOp (b : List Byte) : Nat := byteAt b 0
def stEndFlag (b : List Byte) : Bool := bit (byteAt b 1) 0
def stAddr (b : List Byte) : Nat := le b 8 8
def stLen (b : List Byte) : Nat := le b 4 4

def zeroFrom (b : List Byte) (i n : Nat) : Bool := (List.range n).all fun k => byteAt b (i + k) == 0
def stWordAddr (a : Nat) : Bool := a % 4 == 0 && stSpace a < 4

/-- Reserved fields and the limits of the others (R414); the two ranges of a MOVE are judged apart. -/
def stFieldsOk (prog pc : Nat) (b : List Byte) : Bool :=
  byteAt b 1 < 2 &&
  (if stOp b = 1 then byteAt b 3 == 0 && (byteAt b 2 < 4 || byteAt b 2 == 0xFF) && stLen b != 0
   else if stOp b = 2 then byteAt b 2 < 4 && byteAt b 3 != 0 && prog + 32 * byteAt b 3 ≤ pc && zeroFrom b 8 24
   else if stOp b = 3 then byteAt b 2 < 3 && byteAt b 3 == 0 && zeroFrom b 24 8 && (byteAt b 2 == 2 || stWordAddr (stAddr b))
   else byteAt b 2 < 4 && zeroFrom b 3 5 && zeroFrom b 20 12 &&
     (if bit (byteAt b 2) 0 then stWordAddr (stAddr b) else stAddr b == 0))

/-- A signed 32-bit value. -/
def signed32 (v : Nat) : Int := if v < 2 ^ 31 then v else (v : Int) - 2 ^ 32

/-- An address of a MOVE: stepped by the iteration number of level IDX. -/
def stStepped (x : Chan) (b : List Byte) (addr step : Nat) : Nat :=
  let n := if byteAt b 2 < 4 then (x.levels.getD (byteAt b 2) (false, 0)).2 else 0
  (((le b addr 8 : Nat) + (n : Int) * signed32 (le b step 4)) % 2 ^ 64).toNat

def stSrc (x : Chan) (b : List Byte) : Nat := stStepped x b 8 24
def stDst (x : Chan) (b : List Byte) : Nat := stStepped x b 16 28

/-! ### Faults (R414) -/

/-- The contents of the permitted part of a range become undefined. -/
def stSpoil (cust : Bool) (a len : Nat) (d : Dev) : Dev :=
  let p := d.stPermitted cust (stSpace a)
  let lo := max (stOff a) p.1
  let hi := min (stOff a + len) p.2
  if 3 ≤ stSpace a || hi ≤ lo then d
  else
    let r := drawBytes (2 * (hi - lo)) d
    let whole := fun i => lo ≤ (lo + i) / 8 * 8 && (lo + i) / 8 * 8 + 8 ≤ hi
    let data := (List.range (hi - lo)).map fun i => (r.1.getD i 0, whole i && bit (byteAt r.1 (hi - lo + i)) 0)
    stWrite (stSpace a * 2 ^ 60 + lo) data r.2

/-- A MOVE that ends in a fault, or is disabled, leaves its destination range undefined; other kinds leave nothing. -/
def stMoveLost (e ch : Nat) (b : List Byte) (d : Dev) : Dev :=
  let x := d.chan e ch
  when (stOp b == 1) (stSpoil x.customer (stDst x b) (stLen b)) d

def stFault (e ch code : Nat) (b : List Byte) (d : Dev) : Dev := d |> stMoveLost e ch b |> chFault e ch code

/-- What fetching the instruction at CH_PC finds: a fault code with the instruction, or the instruction. -/
def stFetch (nv : Nv) (e : Fin 2) (ch : Nat) (fetch : Read) (d : Dev) : Option Nat × List Byte × Dev :=
  let x := d.chan e ch
  let r := stRead nv e ch x.pc 32 fetch d
  if r.st ≠ stOk then (some r.st, [], r.dev)
  else if r.poisoned then (some stPoisoned, [], r.dev)
  else if stOp r.bytes = 0 || 4 < stOp r.bytes then (some stBadOpcode, r.bytes, r.dev)
  else if !stFieldsOk x.prog x.pc r.bytes then (some stBadParam, r.bytes, r.dev)
  else (none, r.bytes, r.dev)

/-- Run the instruction at CH_PC of the running channel when it is of this kind; a faulty one ends the program. -/
def stRun (nv : Nv) (e : Fin 2) (kind : Nat) (fetch : Read) (go : Nat → List Byte → Dev → Dev) (d : Dev) : Dev :=
  match (d.engine e).running with
  | none => d
  | some ch =>
    if (d.chan e ch).waiting.isSome || (d.chan e ch).state != 2 then d
    else match stFetch nv e ch fetch d with
      | (some code, b, d') => stFault e ch code b d'
      | (none, b, d') => if stOp b = kind then go ch b d' else d

/-- The instruction has completed: END ends the program. -/
def stNext (e ch : Nat) (b : List Byte) (d : Dev) : Dev :=
  if stEndFlag b then chEnd e ch d
  else updChan e ch (fun x => { x with pc := (x.pc + 32) % 2 ^ 64, waiting := none }) d

/-! ### The four kinds (R413) -/

/-- The fault of a MOVE's ranges; OK when both are as R411 and R414 ask. -/
def Dev.stMoveCheck (d : Dev) (x : Chan) (src dst len : Nat) : Nat :=
  if 3 ≤ stSpace src || 3 ≤ stSpace dst then stBadParam
  else if stSpace src = stSpace dst && stOff src < stOff dst + len && stOff dst < stOff src + len then stBadParam
  else if d.stRange x.customer src len ≠ stOk then stDenied
  else d.stRange x.customer dst len

def stMoveGo (nv : Nv) (e : Fin 2) (data : Read) (ch : Nat) (b : List Byte) (d : Dev) : Dev :=
  let x := d.chan e ch
  let c := d.stMoveCheck x (stSrc x b) (stDst x b) (stLen b)
  if c ≠ stOk then stFault e ch c b d
  else
    let r := stRead nv e ch (stSrc x b) (stLen b) data d
    if r.st ≠ stOk then
      let w := drawWord r.dev
      w.2 |> updChan e ch (fun x => { x with bytes := (x.bytes + w.1.toNat % stLen b) % 2 ^ 64 }) |> stFault e ch r.st b
    else
      r.dev |> stWrite (stDst x b) r.data
        |> updChan e ch (fun x => { x with bytes := (x.bytes + stLen b) % 2 ^ 64, poison := x.poison || r.poisoned })
        |> stNext e ch b

/-- ST_MOVE. -/
def execStMove (e : Fin 2) (fetch data : Read) (s : State) : Host.Outcome State Fault Refusal :=
  .next (s.onDev fun nv d => stRun nv e 1 fetch (stMoveGo nv e data) d)

def stLoopGo (e ch : Nat) (b : List Byte) (d : Dev) : Dev :=
  let l := (d.chan e ch).levels.getD (byteAt b 2) (false, 0)
  let n := if l.1 then l.2 else 0
  if n < le b 4 4 then
    updChan e ch (fun x => { x with levels := x.levels.set (byteAt b 2) (true, n + 1), pc := x.pc - 32 * byteAt b 3 }) d
  else d |> updChan e ch (fun x => { x with levels := x.levels.set (byteAt b 2) (false, 0) }) |> stNext e ch b

/-- ST_LOOP. -/
def execStLoop (e : Fin 2) (fetch : Read) (s : State) : Host.Outcome State Fault Refusal :=
  .next (s.onDev fun nv d => stRun nv e 2 fetch (stLoopGo e) d)

/-- Whether a word meets a WAIT of mode 0 or 1. -/
def stHolds (b : List Byte) (w : Nat) : Bool :=
  let same := BitVec.ofNat 32 w &&& BitVec.ofNat 32 (le b 16 4) == BitVec.ofNat 32 (le b 20 4)
  if byteAt b 2 = 0 then same else !same

/-- A WAIT that began at `began` looks at its word, or at device time. -/
def stLook (nv : Nv) (e : Fin 2) (began : Nat) (word : Read) (ch : Nat) (b : List Byte) (d : Dev) : Dev :=
  let stay := updChan e ch fun x => { x with waiting := some (b, began) }
  if byteAt b 2 = 2 then (if le b 8 8 ≤ d.time then stNext e ch b d else stay d)
  else
    let r := stRead nv e ch (stAddr b) 4 word d
    if r.st ≠ stOk then chFault e ch r.st r.dev
    else if r.poisoned then chFault e ch stPoisoned r.dev
    else if stHolds b (leNat r.bytes) then stNext e ch b r.dev
    else stay r.dev

/-- ST_WAIT: the word is read at once on arrival. -/
def execStWait (e : Fin 2) (fetch word : Read) (s : State) : Host.Outcome State Fault Refusal :=
  .next (s.onDev fun nv d => stRun nv e 3 fetch (fun ch b d => stLook nv e d.time word ch b d) d)

/-- The next look of a waiting channel, a whole number of µs after the first, or the end of TIMEOUT. -/
def stPoll (nv : Nv) (e : Fin 2) (word : Read) (d : Dev) : Dev :=
  match (d.engine e).running with
  | none => d
  | some ch => match (d.chan e ch).waiting with
    | none => d
    | some (b, began) =>
      let at' := began + 1000 * ((d.time - began) / 1000 + 1)
      let limit := began + 1000 * le b 4 4
      if le b 4 4 ≠ 0 && limit ≤ at' then d |> timeTo limit |> chFault e ch stTimeout
      else d |> timeTo at' |> stLook nv e began word ch b

/-- ST_WAIT_POLL. -/
def execStWaitPoll (e : Fin 2) (word : Read) (s : State) : Host.Outcome State Fault Refusal :=
  .next (s.onDev fun nv d => stPoll nv e word d)

/-- The write of a SIGNAL: its status. -/
def stPut (nv : Nv) (e : Fin 2) (ch a : Nat) (v : Nat) (d : Dev) : Nat × Dev :=
  let cust := (d.chan e ch).customer
  let st := d.stRange cust a 4
  if st ≠ stOk then (st, d)
  else if stSpace a = 3 then
    if !stMayWrite cust (stOff a) then (stDenied, badAccess d)
    else (stOk, when (d.serves (stOff a)) (regWrite nv (.stitch e (fin 16 ch)) (stOff a) (word v)) d)
  else (stOk, stWrite a ((leBytes 4 v).map fun b => (b, false)) d)

def stSignalGo (nv : Nv) (e : Fin 2) (ch : Nat) (b : List Byte) (d : Dev) : Dev :=
  let r := if bit (byteAt b 2) 0 then stPut nv e ch (stAddr b) (le b 16 4) d else (stOk, d)
  if r.1 ≠ stOk then chFault e ch r.1 r.2
  else r.2 |> when (bit (byteAt b 2) 1) (setChan e ch fun x => { x with sigval := word (le b 16 4), sig := true }) |> stNext e ch b

/-- ST_SIGNAL. -/
def execStSignal (e : Fin 2) (fetch : Read) (s : State) : Host.Outcome State Fault Refusal :=
  .next (s.onDev fun nv d => stRun nv e 4 fetch (stSignalGo nv e) d)

/-! ### Service (R409, R416) -/

/-- The channel at the head of the queue runs; its first fetch may end it. -/
def stStart (nv : Nv) (e : Fin 2) (fetch : Read) (d : Dev) : Dev :=
  let g := d.engine e
  match g.running, g.queue with
  | none, ch :: rest =>
    let d := d |> updEngine e (fun _ => { queue := rest, running := some ch })
               |> setChan e ch fun x => { x with state := 2, pc := x.prog }
    match stFetch nv e ch fetch d with
    | (some code, b, d') => stFault e ch code b d'
    | (none, _, _) => d
  | _, _ => d

/-- CH_RUN (R409). -/
def execChRun (e : Fin 2) (fetch : Read) (s : State) : Host.Outcome State Fault Refusal :=
  .next (s.onDev fun nv d => stStart nv e fetch d)

/-- The end of a disable: a MOVE that was running leaves its destination range undefined. -/
def stDisableDone (nv : Nv) (e : Fin 2) (ch : Nat) (fetch : Read) (d : Dev) : Dev :=
  if (d.chan e ch).state != 3 then d
  else
    let d := if (d.engine e).running = some ch then
        (match stFetch nv e ch fetch d with
         | (none, b, _) => stMoveLost e ch b d
         | (some _, _, _) => d)
      else d
    chDisabled e ch d

/-- CH_DISABLE_DONE (R416). -/
def execChDisableDone (e : Fin 2) (ch : Fin 16) (fetch : Read) (s : State) : Host.Outcome State Fault Refusal :=
  .next (s.onDev fun nv d => stDisableDone nv e ch fetch d)

end Sys2Proof.Machine
end

