-- ==== Sys2Proof/Machine/Dispatch.lean ====
section
/-!
DEFINITION. One arm per command of spec/opcode_table.json, in the table's order: a direct call of its meaning.
-/
namespace Sys2Proof.Machine

def exec (i : Instr) (s : State) : Host.Outcome State Fault Refusal :=
  match i with
  | .nop r p => Sys2Proof.Machine.execNop r p s
  | .identify r p => Sys2Proof.Machine.execIdentify r p s
  | .wake r p => Sys2Proof.Machine.execWake r p s
  | .wakeSlotSet r p => Sys2Proof.Machine.execWakeSlotSet r p s
  | .fwSelect r p => Sys2Proof.Machine.execFwSelect r p s
  | .fwQuery r p => Sys2Proof.Machine.execFwQuery r p s
  | .sliceCreate r p => Sys2Proof.Machine.execSliceCreate r p s
  | .sliceQuotaSet r p => Sys2Proof.Machine.execSliceQuotaSet r p s
  | .sliceReset r p => Sys2Proof.Machine.execSliceReset r p s
  | .sliceResetDone k => Sys2Proof.Machine.execSliceResetDone k s
  | .sliceDestroy r p => Sys2Proof.Machine.execSliceDestroy r p s
  | .meterSnapshot r p => Sys2Proof.Machine.execMeterSnapshot r p s
  | .snapshotBankWrite => Sys2Proof.Machine.execSnapshotBankWrite s
  | .functionQueuesSet r p => Sys2Proof.Machine.execFunctionQueuesSet r p s
  | .queueCreate r p => Sys2Proof.Machine.execQueueCreate r p s
  | .queueDestroy r p => Sys2Proof.Machine.execQueueDestroy r p s
  | .queueStop r p => Sys2Proof.Machine.execQueueStop r p s
  | .queueStopAbort o q => Sys2Proof.Machine.execQueueStopAbort o q s
  | .queueStart r p => Sys2Proof.Machine.execQueueStart r p s
  | .queueQuery r p => Sys2Proof.Machine.execQueueQuery r p s
  | .cqModerate r p => Sys2Proof.Machine.execCqModerate r p s
  | .rssSet r p => Sys2Proof.Machine.execRssSet r p s
  | .sliceVectors r p => Sys2Proof.Machine.execSliceVectors r p s
  | .entryInsert r p => Sys2Proof.Machine.execEntryInsert r p s
  | .entryInsertIfAbsent r p => Sys2Proof.Machine.execEntryInsertIfAbsent r p s
  | .entryModify r p => Sys2Proof.Machine.execEntryModify r p s
  | .entryDelete r p => Sys2Proof.Machine.execEntryDelete r p s
  | .entryLookup r p => Sys2Proof.Machine.execEntryLookup r p s
  | .ageScan r p => Sys2Proof.Machine.execAgeScan r p s
  | .lpmInsert r p => Sys2Proof.Machine.execLpmInsert r p s
  | .lpmDelete r p => Sys2Proof.Machine.execLpmDelete r p s
  | .tableQuery r p => Sys2Proof.Machine.execTableQuery r p s
  | .rsOpen r p => Sys2Proof.Machine.execRsOpen r p s
  | .rsKeyProfile r p => Sys2Proof.Machine.execRsKeyProfile r p s
  | .rsTableBind r p => Sys2Proof.Machine.execRsTableBind r p s
  | .rsTcamWrite r p => Sys2Proof.Machine.execRsTcamWrite r p s
  | .rsActionWrite r p => Sys2Proof.Machine.execRsActionWrite r p s
  | .rsEncapWrite r p => Sys2Proof.Machine.execRsEncapWrite r p s
  | .rsParsePolicy r p => Sys2Proof.Machine.execRsParsePolicy r p s
  | .rsPatternWrite r p => Sys2Proof.Machine.execRsPatternWrite r p s
  | .rsPolicerProfile r p => Sys2Proof.Machine.execRsPolicerProfile r p s
  | .genCommit r p => Sys2Proof.Machine.execGenCommit r p s
  | .genQuery r p => Sys2Proof.Machine.execGenQuery r p s
  | .sliceExceptionSet r p => Sys2Proof.Machine.execSliceExceptionSet r p s
  | .learnRingSet r p => Sys2Proof.Machine.execLearnRingSet r p s
  | .learnFilterSet r p => Sys2Proof.Machine.execLearnFilterSet r p s
  | .contextWrite r p => Sys2Proof.Machine.execContextWrite r p s
  | .contextRead r p => Sys2Proof.Machine.execContextRead r p s
  | .saKeyRotate r p => Sys2Proof.Machine.execSaKeyRotate r p s
  | .placementSet r p => Sys2Proof.Machine.execPlacementSet r p s
  | .placementClear r p => Sys2Proof.Machine.execPlacementClear r p s
  | .eyeletExport r p => Sys2Proof.Machine.execEyeletExport r p s
  | .eyeletRewrite r p => Sys2Proof.Machine.execEyeletRewrite r p s
  | .eyeletWithdraw r p => Sys2Proof.Machine.execEyeletWithdraw r p s
  | .eyeletQuery r p => Sys2Proof.Machine.execEyeletQuery r p s
  | .eyeletRewriteReply h => Sys2Proof.Machine.execEyeletRewriteReply h s
  | .policerSet r p => Sys2Proof.Machine.execPolicerSet r p s
  | .nodeSet r p => Sys2Proof.Machine.execNodeSet r p s
  | .nodeUnbindDrained k n => Sys2Proof.Machine.execNodeUnbindDrained k n s
  | .nodeQuery r p => Sys2Proof.Machine.execNodeQuery r p s
  | .scrub r p => Sys2Proof.Machine.execScrub r p s
  | .spareCommit r p badSlots => Sys2Proof.Machine.execSpareCommit r p badSlots s
  | .domainSet r p => Sys2Proof.Machine.execDomainSet r p s
  | .commandFetch r hdr => Sys2Proof.Machine.execCommandFetch r hdr s
  | .crCtrlWrite r v => Sys2Proof.Machine.execCrCtrlWrite r v s
  | .crTailWrite r v => Sys2Proof.Machine.execCrTailWrite r v s
  | .rrHeadWrite r v => Sys2Proof.Machine.execRrHeadWrite r v s
  | .controlReset q => Sys2Proof.Machine.execControlReset q s
  | .controlResetDone => Sys2Proof.Machine.execControlResetDone s
  | .tblInsert q owner ownerValid table => Sys2Proof.Machine.execTblInsert q owner ownerValid table s
  | .tblInsertIfAbsent q owner ownerValid table => Sys2Proof.Machine.execTblInsertIfAbsent q owner ownerValid table s
  | .tblModify q owner ownerValid table => Sys2Proof.Machine.execTblModify q owner ownerValid table s
  | .tblDelete q owner ownerValid table => Sys2Proof.Machine.execTblDelete q owner ownerValid table s
  | .tblLookup q owner ownerValid table => Sys2Proof.Machine.execTblLookup q owner ownerValid table s
  | .coherentUpdateApply => Sys2Proof.Machine.execCoherentUpdateApply s
  | .genRetire => Sys2Proof.Machine.execGenRetire s
  | .tableEccRepair t place good => Sys2Proof.Machine.execTableEccRepair t place good s
  | .ageVisit t => Sys2Proof.Machine.execAgeVisit t s
  | .sqDbWrite o q v => Sys2Proof.Machine.execSqDbWrite o q v s
  | .cqHeadWrite o c v => Sys2Proof.Machine.execCqHeadWrite o c v s
  | .fetchTurn f => Sys2Proof.Machine.execFetchTurn f s
  | .descriptorFetchDone o q data => Sys2Proof.Machine.execDescriptorFetchDone o q data s
  | .txJob o q data => Sys2Proof.Machine.execTxJob o q data s
  | .moderationTimer o c => Sys2Proof.Machine.execModerationTimer o c s
  | .rxPlacement pkt descs => Sys2Proof.Machine.execRxPlacement pkt descs s
  | .feqCtrlWrite f v => Sys2Proof.Machine.execFeqCtrlWrite f v s
  | .feqHeadWrite f v => Sys2Proof.Machine.execFeqHeadWrite f v s
  | .mevCtrlWrite q v => Sys2Proof.Machine.execMevCtrlWrite q v s
  | .mevHeadWrite q v => Sys2Proof.Machine.execMevHeadWrite q v s
  | .excCtrlWrite q v => Sys2Proof.Machine.execExcCtrlWrite q v s
  | .excHeadWrite q v => Sys2Proof.Machine.execExcHeadWrite q v s
  | .learnHeadWrite q v => Sys2Proof.Machine.execLearnHeadWrite q v s
  | .actCntIndexWrite q v => Sys2Proof.Machine.execActCntIndexWrite q v s
  | .configRequest f write off v be => Sys2Proof.Machine.execConfigRequest f write off v be s
  | .barRequest f a => Sys2Proof.Machine.execBarRequest f a s
  | .busMasterDisable f => Sys2Proof.Machine.execBusMasterDisable f s
  | .busMasterEnable f => Sys2Proof.Machine.execBusMasterEnable f s
  | .flr f => Sys2Proof.Machine.execFlr f s
  | .flrDone f => Sys2Proof.Machine.execFlrDone f s
  | .d3hotEntry f => Sys2Proof.Machine.execD3hotEntry f s
  | .d0Return f => Sys2Proof.Machine.execD0Return f s
  | .pasidEnableWrite f on => Sys2Proof.Machine.execPasidEnableWrite f on s
  | .atsEnableWrite f on => Sys2Proof.Machine.execAtsEnableWrite f on s
  | .msixUnmask f v => Sys2Proof.Machine.execMsixUnmask f v s
  | .atsInvalidation f itag pasid base len => Sys2Proof.Machine.execAtsInvalidation f itag pasid base len s
  | .atsInvalidationDone f itag => Sys2Proof.Machine.execAtsInvalidationDone f itag s
  | .translationCompletion f tag base len xlat rd wr => Sys2Proof.Machine.execTranslationCompletion f tag base len xlat rd wr s
  | .readCompletion f tag res => Sys2Proof.Machine.execReadCompletion f tag res s
  | .completionTimeout f tag => Sys2Proof.Machine.execCompletionTimeout f tag s
  | .pmeResend f => Sys2Proof.Machine.execPmeResend f s
  | .wakeTimeout f => Sys2Proof.Machine.execWakeTimeout f s
  | .hlLinkCtrlWrite q n v => Sys2Proof.Machine.execHlLinkCtrlWrite q n v s
  | .connCtrlWrite q n v => Sys2Proof.Machine.execConnCtrlWrite q n v s
  | .presenceChange n present => Sys2Proof.Machine.execPresenceChange n present s
  | .powerFault n => Sys2Proof.Machine.execPowerFault n s
  | .attentionPress n => Sys2Proof.Machine.execAttentionPress n s
  | .perstAssert n hotReset => Sys2Proof.Machine.execPerstAssert n hotReset s
  | .perstDeassert n => Sys2Proof.Machine.execPerstDeassert n s
  | .linkTrainingDone n partnerSpeed partnerWidth workingLanes partnerFlit => Sys2Proof.Machine.execLinkTrainingDone n partnerSpeed partnerWidth workingLanes partnerFlit s
  | .equalizationFail n speed => Sys2Proof.Machine.execEqualizationFail n speed s
  | .dlActive n => Sys2Proof.Machine.execDlActive n s
  | .unplannedLinkDown n => Sys2Proof.Machine.execUnplannedLinkDown n s
  | .flapHoldEnd n => Sys2Proof.Machine.execFlapHoldEnd n s
  | .surpriseRemoval n => Sys2Proof.Machine.execSurpriseRemoval n s
  | .l0pNarrow n => Sys2Proof.Machine.execL0pNarrow n s
  | .l0pWidenRequest n granted => Sys2Proof.Machine.execL0pWidenRequest n granted s
  | .partnerL0pRequest n width => Sys2Proof.Machine.execPartnerL0pRequest n width s
  | .l1Entry n => Sys2Proof.Machine.execL1Entry n s
  | .flitError n corrected => Sys2Proof.Machine.execFlitError n corrected s
  | .badDllp n => Sys2Proof.Machine.execBadDllp n s
  | .replayRollover n => Sys2Proof.Machine.execReplayRollover n s
  | .receiverOverflow n => Sys2Proof.Machine.execReceiverOverflow n s
  | .mbDbSet x v => Sys2Proof.Machine.execMbDbSet x v s
  | .mbClaim x v => Sys2Proof.Machine.execMbClaim x v s
  | .mbRxAck x n v => Sys2Proof.Machine.execMbRxAck x n v s
  | .mbSideReset x v => Sys2Proof.Machine.execMbSideReset x v s
  | .mbMaskWrite x ack v => Sys2Proof.Machine.execMbMaskWrite x ack v s
  | .arenaPageWrite x upper off data ep => Sys2Proof.Machine.execArenaPageWrite x upper off data ep s
  | .lineFrameReceive g k frame codeErr => Sys2Proof.Machine.execLineFrameReceive g k frame codeErr s
  | .pauseFrameReceive g k frame => Sys2Proof.Machine.execPauseFrameReceive g k frame s
  | .pauseExpiry g k c => Sys2Proof.Machine.execPauseExpiry g k c s
  | .pfcWatchdog g k c => Sys2Proof.Machine.execPfcWatchdog g k c s
  | .pfcWatchdogEnd g k c => Sys2Proof.Machine.execPfcWatchdogEnd g k c s
  | .xoffReached g k c => Sys2Proof.Machine.execXoffReached g k c s
  | .xoffRefresh g k c => Sys2Proof.Machine.execXoffRefresh g k c s
  | .xonReached g k c => Sys2Proof.Machine.execXonReached g k c s
  | .pipelinePass pkt badLanes => Sys2Proof.Machine.execPipelinePass pkt badLanes s
  | .contextCacheFill d c => Sys2Proof.Machine.execContextCacheFill d c s
  | .policerRefill p => Sys2Proof.Machine.execPolicerRefill p s
  | .nodeRefill n => Sys2Proof.Machine.execNodeRefill n s
  | .tmAdmit pkt => Sys2Proof.Machine.execTmAdmit pkt s
  | .tmDequeue p => Sys2Proof.Machine.execTmDequeue p s
  | .spillReadback pkt => Sys2Proof.Machine.execSpillReadback pkt s
  | .bufferAgeDrop pkt => Sys2Proof.Machine.execBufferAgeDrop pkt s
  | .tmAgeLimitWrite q v => Sys2Proof.Machine.execTmAgeLimitWrite q v s
  | .macTransmit g k => Sys2Proof.Machine.execMacTransmit g k s
  | .learnNoticeWrite n => Sys2Proof.Machine.execLearnNoticeWrite n s
  | .xferSegmentStart o q => Sys2Proof.Machine.execXferSegmentStart o q s
  | .xferSegmentEnd o q seg res => Sys2Proof.Machine.execXferSegmentEnd o q seg res s
  | .eyeletFlushReadDone f tag => Sys2Proof.Machine.execEyeletFlushReadDone f tag s
  | .placementTableReadDone c entry segs => Sys2Proof.Machine.execPlacementTableReadDone c entry segs s
  | .lpModeWrite q g v => Sys2Proof.Machine.execLpModeWrite q g v s
  | .lpPortCtrlWrite q g k v => Sys2Proof.Machine.execLpPortCtrlWrite q g k v s
  | .anBasePageTimeout g k => Sys2Proof.Machine.execAnBasePageTimeout g k s
  | .anRestartTimer g k => Sys2Proof.Machine.execAnRestartTimer g k s
  | .linkTrainingFail g k => Sys2Proof.Machine.execLinkTrainingFail g k s
  | .lineLinkUp g k => Sys2Proof.Machine.execLineLinkUp g k s
  | .lineLinkDown g k => Sys2Proof.Machine.execLineLinkDown g k s
  | .lineFlapHoldEnd g k => Sys2Proof.Machine.execLineFlapHoldEnd g k s
  | .fecDegradedChange g k degraded => Sys2Proof.Machine.execFecDegradedChange g k degraded s
  | .ptpRxInfoRead q g k => Sys2Proof.Machine.execPtpRxInfoRead q g k s
  | .ptpTxInfoRead q g k => Sys2Proof.Machine.execPtpTxInfoRead q g k s
  | .msWriteSa q g => Sys2Proof.Machine.execMsWriteSa q g s
  | .msReadSa q g => Sys2Proof.Machine.execMsReadSa q g s
  | .msInvalidateSa q g => Sys2Proof.Machine.execMsInvalidateSa q g s
  | .coreHold q c hold => Sys2Proof.Machine.execCoreHold q c hold s
  | .coreReset q c => Sys2Proof.Machine.execCoreReset q c s
  | .coreKick q c => Sys2Proof.Machine.execCoreKick q c s
  | .coreWdogWrite q c v => Sys2Proof.Machine.execCoreWdogWrite q c v s
  | .watchdogExpiry c => Sys2Proof.Machine.execWatchdogExpiry c s
  | .mtimecmpReached c => Sys2Proof.Machine.execMtimecmpReached c s
  | .icClaimWrite q c v => Sys2Proof.Machine.execIcClaimWrite q c v s
  | .icClaimRead q c => Sys2Proof.Machine.execIcClaimRead q c s
  | .icPsw q c v => Sys2Proof.Machine.execIcPsw q c v s
  | .icSwSet q v => Sys2Proof.Machine.execIcSwSet q v s
  | .icCfgWrite q n v => Sys2Proof.Machine.execIcCfgWrite q n v s
  | .lockRead readers j cycle => Sys2Proof.Machine.execLockRead readers j cycle s
  | .lockWrite q j => Sys2Proof.Machine.execLockWrite q j s
  | .i2cGo q n v sdaLow => Sys2Proof.Machine.execI2cGo q n v sdaLow s
  | .i2cRecover q n => Sys2Proof.Machine.execI2cRecover q n s
  | .i2cDone n res => Sys2Proof.Machine.execI2cDone n res s
  | .i2cTimeout n acked rd => Sys2Proof.Machine.execI2cTimeout n acked rd s
  | .chStart q e ch v => Sys2Proof.Machine.execChStart q e ch v s
  | .chRun e fetch => Sys2Proof.Machine.execChRun e fetch s
  | .chDisable q e ch v => Sys2Proof.Machine.execChDisable q e ch v s
  | .chDisableDone e ch fetch => Sys2Proof.Machine.execChDisableDone e ch fetch s
  | .chEnable q e ch v => Sys2Proof.Machine.execChEnable q e ch v s
  | .stMove e fetch data => Sys2Proof.Machine.execStMove e fetch data s
  | .stLoop e fetch => Sys2Proof.Machine.execStLoop e fetch s
  | .stWait e fetch word => Sys2Proof.Machine.execStWait e fetch word s
  | .stWaitPoll e word => Sys2Proof.Machine.execStWaitPoll e word s
  | .stSignal e fetch => Sys2Proof.Machine.execStSignal e fetch s
  | .scrubGo q v => Sys2Proof.Machine.execScrubGo q v s
  | .scrubDone m => Sys2Proof.Machine.execScrubDone m s
  | .testRawWrite q => Sys2Proof.Machine.execTestRawWrite q s
  | .testRawRead q => Sys2Proof.Machine.execTestRawRead q s
  | .testCheckedRead q => Sys2Proof.Machine.execTestCheckedRead q s
  | .flipCtrlWrite q v => Sys2Proof.Machine.execFlipCtrlWrite q v s
  | .spareAdd q m => Sys2Proof.Machine.execSpareAdd q m s
  | .spareRemove q m => Sys2Proof.Machine.execSpareRemove q m s
  | .powerGoodFall => Sys2Proof.Machine.execPowerGoodFall s
  | .resetNAssert => Sys2Proof.Machine.execResetNAssert s
  | .resetRelease => Sys2Proof.Machine.execResetRelease s
  | .devCtrlReset q => Sys2Proof.Machine.execDevCtrlReset q s
  | .startupStepDone fail setpoints => Sys2Proof.Machine.execStartupStepDone fail setpoints s
  | .railWarning r mv => Sys2Proof.Machine.execRailWarning r mv s
  | .brownout r mv => Sys2Proof.Machine.execBrownout r mv s
  | .throttleLift => Sys2Proof.Machine.execThrottleLift s
  | .droopExcess d => Sys2Proof.Machine.execDroopExcess d s
  | .recalibrationStep d excess => Sys2Proof.Machine.execRecalibrationStep d excess s
  | .thermalWarning d temp => Sys2Proof.Machine.execThermalWarning d temp s
  | .thermalTrip d => Sys2Proof.Machine.execThermalTrip d s
  | .thermalRelease temps => Sys2Proof.Machine.execThermalRelease temps s
  | .clockLoss c => Sys2Proof.Machine.execClockLoss c s
  | .clockReturn c => Sys2Proof.Machine.execClockReturn c s
  | .cpPerst => Sys2Proof.Machine.execCpPerst s
  | .timeSkew d eighths => Sys2Proof.Machine.execTimeSkew d eighths s
  | .timeRateAdjWrite q v => Sys2Proof.Machine.execTimeRateAdjWrite q v s
  | .bindOff => Sys2Proof.Machine.execBindOff s
  | .domainPowerUpDone => Sys2Proof.Machine.execDomainPowerUpDone s
  | .spiRead q => Sys2Proof.Machine.execSpiRead q s
  | .spiProgram q => Sys2Proof.Machine.execSpiProgram q s
  | .spiErase q => Sys2Proof.Machine.execSpiErase q s
  | .spiOpDone fault => Sys2Proof.Machine.execSpiOpDone fault s
  | .fuseLockCmdWrite q v => Sys2Proof.Machine.execFuseLockCmdWrite q v s
  | .fieldLockBurnDone readBack => Sys2Proof.Machine.execFieldLockBurnDone readBack s
  | .hbmApertureWrite q high v => Sys2Proof.Machine.execHbmApertureWrite q high v s
  | .bar2Access a => Sys2Proof.Machine.execBar2Access a s
  | .reg64LowRead q off => Sys2Proof.Machine.execReg64LowRead q off s
  | .reg64HighWrite q off v => Sys2Proof.Machine.execReg64HighWrite q off v s
  | .rcRegisterRead q a => Sys2Proof.Machine.execRcRegisterRead q a s
  | .registerWrite q a v => Sys2Proof.Machine.execRegisterWrite q a v s
  | .pmeTurnOff n => Sys2Proof.Machine.execPmeTurnOff n s
  | .l1Exit n => Sys2Proof.Machine.execL1Exit n s
  | .managerFunctionConfigWrite off v => Sys2Proof.Machine.execManagerFunctionConfigWrite off v s
  | .cpPerstRelease => Sys2Proof.Machine.execCpPerstRelease s
  | .basePageReceive g k rates pause ownNonce => Sys2Proof.Machine.execBasePageReceive g k rates pause ownNonce s
  | .lineFaultChange g k localFault remoteFault => Sys2Proof.Machine.execLineFaultChange g k localFault remoteFault s
  | .railRecovery r mv => Sys2Proof.Machine.execRailRecovery r mv s
  | .sliceDestroyDone k => Sys2Proof.Machine.execSliceDestroyDone k s

end Sys2Proof.Machine
end

