-- ==== Sys2Proof/Safety.lean ====
section
/-!
DEFINITION. The terms that the statements use: the canonical form of a memory and of the flash, when a ring runs a
command, and when an access reaches what it is meant for.
-/
namespace Sys2Proof.Machine

/-- The canonical form of a memory: addresses strictly rising, and no entry equal to what an unlisted address
reads as. -/
def Memory.wf (dflt : Byte) (c : List Host.Cell) : Bool := Map.rising c && c.all fun e => e.2 != dflt

/-- What survives power-on is well kept: the flash in canonical form. -/
def Nv.wf (nv : Nv) : Bool := Memory.wf 0xFF nv.flash

/-- The state with another device. -/
def State.withDev (s : State) (d : Dev) : State := { s with dev := d }

/-- Reads of function f at these places ask no translation cache: ATS is off, or nothing is read (R96). -/
def Dev.direct (d : Dev) (f : Nat) (l : List (Nat × Nat)) : Bool := !(d.fn f).atsEn || (readPieces (d.fn f) l).isEmpty

/-- What runs when the parameters p of a command of length `plen` have been read (R154): nothing that the adapter
fails over (R165), and nothing when they could not be read. -/
def paramsOf (plen : Nat) : Read → Option (List Byte)
  | .internal _ => none
  | .ok b => some (if plen = 0 then [] else padTo plen b)
  | _ => if plen = 0 then some [] else none

/-- The command of opcode `op` that ring r executes and has not begun, with its parameters: they could be read
(R154) untranslated, no update accepted earlier keeps it waiting (R164), and no state of the slice it names keeps it
from running (R50). -/
def State.runs (s : State) (r : Ring) (op : Nat) (p : Read) : Option (Exec × List Byte) :=
  match (s.dev.ring r).exec with
  | none => none
  | some e =>
    if e.opcode != op || e.begun || ((op == 1 || updOps.contains op) && s.dev.ahead e.seq) || (sliceGate e s.dev).isSome ||
      !s.dev.direct (s.dev.readFn r) (s.dev.paramRanges r e) then none
    else (paramsOf e.plen p).map fun b => (e, b)

/-- No check of a list finds a fault. -/
def clean (l : List (Option (Nat × Nat))) : Bool := (l.findSome? id).isNone

/-- A requester's access to a register reaches it: the way there is open and its block is served (R32, R90, R456). -/
def State.reaches (s : State) (q : Requester) (off : Nat) : Bool := s.dev.admits q && s.dev.serves off

/-- Cores 4-15 are the customer's (R389); everybody else is trusted with the registers. -/
def trusted : Requester → Bool
  | .core c => c.val < 4
  | _ => true

/-- An owner's access reaches it through function f, 32 for the manager. -/
def State.comes (s : State) (f : Option Nat) : Bool :=
  (match f with | some f => s.dev.sees f | none => true) && s.dev.serves (2 ^ 32)

end Sys2Proof.Machine
end

