-- ==== Sys2Proof/Certificates/Slice0/Obligations.lean ====
section
/-!
DEFINITION. The statements for the provers. Every meaning of this model answers a next state; a statement here says
which one, on exactly the states and operands that the manual names, so each equation is both what the command
completes with and what it leaves alone.
-/
open Sys2Proof Sys2Proof.Machine

/-! ### The machine -/

/-- A step executes the command at the front of the queue with the queue's rest; with none waiting the block idles and one
nanosecond of device time passes (the model's choice, log 1), at whose end what had waited for its moment, a
configuration write, a table operation or a MACsec operation, is done, and with nothing waiting nothing else changes;
no word spells a command, since the table gives its rows no bits (R14). -/
def Obligations.StepRunsTheFrontCommand : Prop :=
  (∀ s c l, s.pending = c :: l → step s = exec c { s with pending := l }) ∧
  (∀ s, s.pending = [] →
    step s = .next (s.withDev (each (List.range 32) msSettle (tblSettle (closeDue (tickDev s.dev)))))) ∧
  (∀ d, d.power.holds = [] → d.updates = [] → tickDev d = { d with time := d.time + 1 }) ∧
  (∀ d, d.power.holds ≠ [] → tickDev d = d) ∧
  (∀ d, (∀ f < 32, d.closes f = false) → closeDue d = d) ∧
  (∀ d, (∀ e ∈ d.tblRegs, e.2.waiting = none) → tblSettle d = d) ∧
  (∀ g d, d.msBusy g = false → msSettle g d = d) ∧
  (∀ (s : State) n w, s.withFetchWord n w = s)

/-- Every command answers a next state from every state, with the queue as it was; and only FW_SELECT, an end of a flash
operation or of a fuse burn, SPARE_COMMIT, the end of a Control Reset and a step of start-up change the flash or the
fuses (R434, R480, R485). -/
def Obligations.EveryCommandCompletes : Prop :=
  ∀ c s, ∃ t, exec c s = .next t ∧ t.pending = s.pending ∧
    match c with
    | .fwSelect _ _ => True
    | .spiOpDone _ => True
    | .fieldLockBurnDone _ => True
    | .spareCommit _ _ _ => True
    | .controlResetDone => True
    | .startupStepDone _ _ => True
    | _ => t.nv = s.nv

/-- Every step keeps the flash in its canonical form, never frees a burned field lock, and only adds fuse slots, behind
those that are there (R434, R437, R491). -/
def Obligations.FusesOnlyGrowAndFlashStaysCanonical : Prop :=
  ∀ s t, step s = .next t → s.nv.wf = true →
    t.nv.wf = true ∧ (s.nv.fieldLock = true → t.nv.fieldLock = true) ∧ ∃ l, t.nv.slots = s.nv.slots ++ l

/-- The reset state: nothing waits, device time is 0, start-up has reached step 1, nothing holds the adapter, and flash
and memories are in canonical form (R14, R454). -/
def Obligations.ResetStateIsWellKept : Prop :=
  State.reset.pending = [] ∧ State.reset.dev.time = 0 ∧ State.reset.dev.fld 0x14 3 0 = 1 ∧
  State.reset.dev.power.holds = [] ∧ State.reset.dev.ready = false ∧ State.reset.nv.wf = true ∧
  Memory.wf 0 State.reset.dev.mem = true ∧ Memory.wf 0 State.reset.dev.chk = true

/-! ### Rules stated whole -/

/-- IDENTIFY takes PLEN = 0 and replies OK with the format version, VERSION of the running image, the stepping, and the
kind and number of the ring (R168). -/
def Obligations.IdentifyReplies : Prop :=
  (∀ s r p e b, s.runs r 0x0002 p = some (e, b) →
    exec (.identify r p) s = .next (s.withDev
      (reply r stOk 0 [1, slotVersion s.nv s.dev.slot, 0, ringKind r, ringNumber r] s.dev))) ∧
  (∀ r h d, byteAt h 3 = 1 → (execOf h).opcode = 0x0002 → hdrReserved h = none → d.ringOwns r (execOf h).slice = true →
    ((hdrCheck r h d = none ↔ (execOf h).plen = 0) ∧
     ((execOf h).plen ≠ 0 → hdrCheck r h d = some (stBadLength, 0, false))))

/-- FW_QUERY takes PLEN = 0 and replies OK with VERSION of the running image, the running and the selected slot and
FW_FAIL, VERSION of both slots where step 1 of the check passes, the next log SEQ, and FIELD_LOCK (R489). -/
def Obligations.FirmwareQueryReplies : Prop :=
  (∀ s p e b (v : Nat → Nat), s.runs .manager 0x0011 p = some (e, b) →
    (∀ k, v k = if headerGood (flashRead s.nv (aSlot k) 4096) then slotVersion s.nv k else 0) →
    exec (.fwQuery .manager p) s = .next (s.withDev (reply .manager stOk 0
      [slotVersion s.nv s.dev.slot,
       s.dev.slot + 2 * selectedSlot s.nv + 4 * s.dev.fld 0xD801004 1 1,
       v 0, v 1, lo32 (logNextSeq s.nv), b2n s.nv.fieldLock] s.dev))) ∧
  (∀ h d, byteAt h 3 = 1 → (execOf h).opcode = 0x0011 → hdrReserved h = none →
    ((hdrCheck .manager h d = none ↔ (execOf h).plen = 0) ∧
     ((execOf h).plen ≠ 0 → hdrCheck .manager h d = some (stBadLength, 0, false))))

/-- The level of source 160 + 16e + ch is (DONE and INT_EN bit 0) or (ERR and INT_EN bit 1) or (SIG and INT_EN bit 2),
whatever changes the channel, and each rise of it raises STITCH_EVENT with the engine and the channel (R418). -/
def Obligations.StitchLevelsRaiseEvents : Prop :=
  ∀ e ch f d x (lv : Chan → Bool), e < 2 → ch < 16 → x = f (d.chan e ch) →
    (∀ y, lv y = ((y.done && bit y.intEn 0) || (y.err && bit y.intEn 1) || (y.sig && bit y.intEn 2))) →
    (lv x = true → lv (d.chan e ch) = false →
      setChan e ch f d = raise 0x0E e ch (b2n x.done + 2 * b2n x.err + 4 * b2n x.sig)
        (sourceLevel (160 + 16 * e + ch) true (updChan e ch (fun _ => x) d))) ∧
    ((lv x = false ∨ lv (d.chan e ch) = true) →
      setChan e ch f d = sourceLevel (160 + 16 * e + ch) (lv x) (updChan e ch (fun _ => x) d))

/-- Each rise of a MEM_EVT bit raises MEM_EVENT with the memory and pulses source 206; while the bit stands, further
events coalesce (R428). -/
def Obligations.MemoryEventsRiseOnce : Prop :=
  (∀ i m d, d.flag 0xE001000 i = false → memEvent i m d = sourcePulse 206
    (raise 0x0F m ((setFlag 0xE001000 i true d).reg 0xE001000).toNat 0 (setFlag 0xE001000 i true d))) ∧
  (∀ i m d, d.flag 0xE001000 i = true → memEvent i m d = d)

/-! ### Commands and rings (chapter 7) -/

/-- NOP replies with TIME_APPLIED at once when no coherent update is staged, and else with the update accepted last
(R167). WAKE on a function that is not parked replies 0 and does nothing; with PME disabled it is DENIED with detail
1; else it wakes as a matching packet does and replies how (R103, R169). WAKE_SLOT_SET writes the slot's mask, CRC and
enable, and nothing else, on an existing function for the manager (R106, R170). -/
def Obligations.NopAndWakeCommandsAnswer : Prop :=
  ((∀ s r p e b, s.runs r 0x0001 p = some (e, b) → s.dev.updates = [] →
     exec (.nop r p) s = .next (s.withDev
       (reply r stOk 0 [(s.dev.reg 0x100008).toNat, (s.dev.reg 0x10000C).toNat] s.dev))) ∧
   (∀ s r p e b, s.runs r 0x0001 p = some (e, b) → s.dev.updates ≠ [] →
     exec (.nop r p) s = .next (s.withDev
       (updRing r (fun x => { x with exec := some { e with begun := true } }) { s.dev with updates := fenceLast r s.dev.updates })))) ∧
  ((∀ s r p e b, s.runs r 0x0003 p = some (e, b) → byteAt b 0 < 32 → s.dev.fnExists (byteAt b 0) = true →
     zeroAt b 1 3 = true → (s.dev.fn (byteAt b 0)).parked = false →
     exec (.wake r p) s = .next (s.withDev (reply r stOk 0 [0] s.dev))) ∧
   (∀ s r p e b, s.runs r 0x0003 p = some (e, b) → byteAt b 0 < 32 → s.dev.fnExists (byteAt b 0) = true →
     zeroAt b 1 3 = true → (s.dev.fn (byteAt b 0)).parked = true → (s.dev.fn (byteAt b 0)).pmeEn = false →
     exec (.wake r p) s = .next (s.withDev (reply r stDenied 1 [] s.dev))) ∧
   (∀ s r p e b, s.runs r 0x0003 p = some (e, b) → byteAt b 0 < 32 → s.dev.fnExists (byteAt b 0) = true →
     zeroAt b 1 3 = true → (s.dev.fn (byteAt b 0)).parked = true → (s.dev.fn (byteAt b 0)).pmeEn = true →
     (s.dev.fn (byteAt b 0)).woken = false →
     exec (.wake r p) s = .next (s.withDev
       (reply r stOk 0 [(wakeSignal (byteAt b 0) s.dev).1] (wakeSignal (byteAt b 0) s.dev).2)))) ∧
  (∀ s p e b, s.runs .manager 0x0004 p = some (e, b) → byteAt b 0 < 32 → s.dev.fnExists (byteAt b 0) = true →
     byteAt b 1 < 16 → byteAt b 2 < 2 → byteAt b 3 = 0 → e.slice ≥ 4096 →
     exec (.wakeSlotSet .manager p) s = .next (s.withDev (reply .manager stOk 0 []
       (setFlag (aWp (byteAt b 0) (byteAt b 1) + 0x14) 0 (bit (byteAt b 2) 0)
         (setReg (aWp (byteAt b 0) (byteAt b 1) + 0x10) (word (le b 20 4))
           (each (List.range 4) (fun k => setReg (aWp (byteAt b 0) (byteAt b 1) + 4 * k) (word (le b (4 + 4 * k) 4)))
             s.dev))))))

/-- A packet whose header is good is taken: the head passes its slots, and the ring executes the command that the header
gives, with its place in the order of acceptance; nothing else changes (R153, R154, R164). A read that a translation
cache stands before goes when all that it asks for is permitted there, and what follows then acts on the cache as its
use has left it: a command on its parameters, and the same of every other read (R96). CR_CTRL: a write of ENABLE from
0 to 1 starts both rings at position 0 with the sizes written; while ENABLE is 1 the sizes stay; ENABLE 0 stops the
ring and keeps its positions (R157, R158). CR_TAIL and RR_HEAD move only to a valid position, by R112 and R113; any
other value is ignored and counts in CR_ERR (R159, R160). A reply ends the command that its ring executes: it is
written while the ring's owner may receive writes and none is held before it, and is held otherwise; over a command in
which the adapter failed it says INTERNAL and raises INTERNAL_FAULT; nothing that packets, tables, queues or memories
hold changes (R98, R155, R156). -/
def Obligations.CommandRingsWork : Prop :=
  (∀ s r h, s.dev.startable r = true → s.dev.ringTurn r = true → (execOf (padTo 32 h)).plen ≤ 4064 →
     slotsOf (execOf (padTo 32 h)).plen ≤ ringCount (crN (s.dev.ring r)) (s.dev.ring r).head (s.dev.ring r).tail →
     s.dev.sliceWaits (execOf (padTo 32 h)) = false → hdrCheck r (padTo 32 h) s.dev = none →
     s.dev.direct (s.dev.readFn r) (s.dev.slotRanges r (s.dev.ring r).head 1) = true →
     exec (.commandFetch r (.ok h)) s = .next (s.withDev
       { updRing r (fun x => { x with head := ringAdd (crN x) x.head (slotsOf (execOf (padTo 32 h)).plen), need := 1,
                                      waits := none,
                                      exec := some { execOf (padTo 32 h) with seq := s.dev.accepted } }) s.dev with
         served := if r = .manager then s.dev.served else ringKey r
         accepted := s.dev.accepted + 1 })) ∧
  ((∀ (f : Nat) a l res go d d', xlatRead f a (readPieces (d.fn f) l) d = (.ready, d') → withRead f a l res go d = go res d') ∧
   (∀ r op p f d d' e b, (d.ring r).exec = some e → e.opcode = op → e.begun = false →
     ((op = 1 ∨ op ∈ updOps) → d.ahead e.seq = false) →
     xlatRead (d.readFn r) (d.ringPasid r) (readPieces (d.fn (d.readFn r)) (d.paramRanges r e)) d = (.ready, d') →
     sliceGate e d' = none → paramsOf e.plen p = some b → command r op p f d = f e b d') ∧
   (∀ f a n p d e rest, (d.fn f).atsEn = true → (∀ x ∈ (d.fn f).xnone, ¬(x.1 = p ∧ x.2.1 = a)) →
     atcHit (d.fn f) p a n = some e → e.rd = true →
     xlatRead f p ((a, n) :: rest) d = xlatRead f p rest (atcUse f e d)) ∧
   (∀ f p d, xlatRead f p [] d = (.ready, d))) ∧
  ((∀ s r v, s.comes (s.dev.readFn r) = true → s.dev.ringExists r = true → (s.dev.ring r).enable = false →
     v.getLsbD 31 = true →
     exec (.crCtrlWrite r v) s = .next (s.withDev (updRing r (fun x =>
       { x with crLog2 := ringLog 7 7 (wbits v 28 24), rrLog2 := ringLog 6 6 (wbits v 20 16)
                crRaw := wbits v 28 24, rrRaw := wbits v 20 16, intEn := v.getLsbD 30
                vector := if r = .manager then x.vector else wbits v 10 0
                enable := true, head := 0, tail := 0, rrHead := 0, rrWrite := 0, halted := false, haltReason := 0
                need := 1, waits := none }) s.dev))) ∧
   (∀ s r v, s.comes (s.dev.readFn r) = true → s.dev.ringExists r = true → (s.dev.ring r).enable = true →
     v.getLsbD 31 = true →
     exec (.crCtrlWrite r v) s = .next (s.withDev (updRing r (fun x =>
       { x with intEn := v.getLsbD 30, vector := if r = .manager then x.vector else wbits v 10 0 }) s.dev))) ∧
   (∀ s r v, s.comes (s.dev.readFn r) = true → s.dev.ringExists r = true → (s.dev.ring r).enable = true →
     v.getLsbD 31 = false →
     exec (.crCtrlWrite r v) s = .next (s.withDev (updRing r (fun x =>
       { x with intEn := v.getLsbD 30, vector := if r = .manager then x.vector else wbits v 10 0, enable := false
                need := 1, waits := none }) s.dev)))) ∧
  ((∀ s r v q, s.comes (s.dev.readFn r) = true → s.dev.ringExists r = true → (s.dev.ring r).enable = true →
     s.dev.engineReady = true →
     tailValid (crN (s.dev.ring r)) (s.dev.ring r).head (s.dev.ring r).tail (wbits v 16 0) = some q →
     exec (.crTailWrite r v) s = .next (s.withDev (updRing r (fun x => { x with tail := q }) s.dev))) ∧
   (∀ s r v, s.comes (s.dev.readFn r) = true → s.dev.ringExists r = true →
     ((s.dev.ring r).enable = false ∨ s.dev.engineReady = false ∨
       tailValid (crN (s.dev.ring r)) (s.dev.ring r).head (s.dev.ring r).tail (wbits v 16 0) = none) →
     exec (.crTailWrite r v) s = .next (s.withDev (updRing r (fun x => { x with err := sat32 (x.err + 1) }) s.dev))) ∧
   (∀ s r v q, s.comes (s.dev.readFn r) = true → s.dev.ringExists r = true →
     headValid (rrN (s.dev.ring r)) (s.dev.ring r).rrHead (s.dev.ring r).rrWrite (wbits v 16 0) = some q →
     exec (.rrHeadWrite r v) s = .next (s.withDev (updRing r (fun x => { x with rrHead := q, notified := false }) s.dev))) ∧
   (∀ s r v, s.comes (s.dev.readFn r) = true → s.dev.ringExists r = true →
     headValid (rrN (s.dev.ring r)) (s.dev.ring r).rrHead (s.dev.ring r).rrWrite (wbits v 16 0) = none →
     exec (.rrHeadWrite r v) s = .next (s.withDev (updRing r (fun x => { x with err := sat32 (x.err + 1) }) s.dev)))) ∧
  ((∀ r st det ws d, (d.ring r).exec = none → reply r st det ws d = d) ∧
   (∀ r st det ws d e d0 d' p, (d.ring r).exec = some e →
     d0 = (if e.internal then raise 0x15 e.opcode (2 ^ 30 * ringKind r + ringNumber r) e.tag d else d) →
     d' = updRing r (fun x => { x with exec := none }) (if e.opcode = 0x0101 then d0 else meter e.slice 15 1 d0) →
     p = (if e.internal then { tag := e.tag, status := stInternal, detail := 0, words := [], quiet := bit e.flags 1 }
          else { tag := e.tag, status := st, detail := det, words := ws, quiet := bit e.flags 1, data := e.data }) →
     (d'.ringMay r = true → (d.ring r).held = [] → reply r st det ws d = replyOut r p d') ∧
     ((d'.ringMay r = false ∨ (d.ring r).held ≠ []) →
       reply r st det ws d = updRing r (fun x => { x with held := x.held ++ [p] }) d')) ∧
   (∀ r st det ws d, ((reply r st det ws d).ring r).exec = none ∧ (reply r st det ws d).pkts = d.pkts ∧
     (reply r st det ws d).tables = d.tables ∧ (reply r st det ws d).queues = d.queues ∧
     (reply r st det ws d).mem = d.mem ∧ (reply r st det ws d).time = d.time))

/-- Control Reset: the engine stops being ready from the write of the manager on, for as long as the reset runs; its end
gives READY back, counts the reset and raises CTL_READY, with an image that runs (R174, R451). FW_SELECT writes one
record to the log in the flash and replies (R488). -/
def Obligations.EngineResetsAndSelectsImages : Prop :=
  ((∀ s, s.reaches .manager 0xD801000 = true → s.dev.ready = true → s.dev.power.ctlReset = none →
     exec (.controlReset .manager) s = .next (s.withDev
       (resetCores (finishBegun (dropCommands
         (updPower (fun x => { x with ctlReset := some s.dev.time }) (setFlag 0xD801004 0 false s.dev))))))) ∧
   (∀ s a, s.dev.power.ctlReset.isSome = true → s.dev.power.noImage = false →
     activate (4, min (s.dev.fld 0xD801004 31 16 + 1) 0xFFFF) s.nv s.dev = a → a.2.power.noImage = false →
     ∃ t, exec (.controlResetDone) s = .next t ∧ t.nv = a.1 ∧
       t.dev = (let d := startCores (setFlag 0xD801004 0 true (setFld 0xD801004 31 16
           (min (s.dev.fld 0xD801004 31 16 + 1) 0xFFFF) (updPower (fun x => { x with ctlReset := none }) a.2)))
         raise 5 (d.reg 0xD801004).toNat 0 0 d))) ∧
  (∀ s r p e b, s.runs r 0x0010 p = some (e, b) → s.dev.spiBusy = false → byteAt b 0 ≤ 1 → byteAt b 1 = 0 →
     zeroAt b 2 2 = true →
     exec (.fwSelect r p) s = .next (
       let x := drawWord s.dev
       let y := drawBytes 64 x.2
       if x.1.getLsbD 0 = true then { s with nv := logTorn y.1 s.nv, dev := reply r stMediaError 0 [] y.2 }
       else { s with nv := logAppend 5 (byteAt b 0) 0 s.dev.time s.nv, dev := reply r stOk 0 [] x.2 }))

/-! ### Slices and queues (chapters 2 and 5) -/

/-- SLICE_CREATE takes a free slice number and local index (the header's and the parameter's, or ones the adapter picks
where they hold 0xFFFF), the pools' blocks and its wake slots, and replies with them. SLICE_QUOTA_SET gives back and
takes what the quotas changed (R43, R46, R47). SLICE_RESET stops an ACTIVE or HOST_LOST slice and waits; other rings'
commands for the slice that have changed nothing end with SLICE_RESET. A second reset joins the first. When it is
done, the slice is torn down, its mailbox side reset, its state ACTIVE again (HOST_LOST where it came from there and
its link did not return), and every joined command replies (R51, R52). SLICE_DESTROY stages the slice's freeze for the
next apply point; when the frozen slice is torn down, its mailbox pair is reset and the command replies with the
freeze point (R53). -/
def Obligations.SlicesAreCreatedResetAndDestroyed : Prop :=
  ((∀ s p e b n i d1 d2 x, s.runs .manager 0x0101 p = some (e, b) →
     clean (sliceFaults none b s.dev) = true → (e.slice < 4096 ∨ e.slice = 0xFFFF) → s.dev.slice e.slice = none →
     (le b 2 2 ≠ 0xFFFF → s.dev.lidxUsed (byteAt b 0) (le b 2 2) = false) →
     (∀ y ∈ s.dev.slices, ¬(y.2.fn = byteAt b 0 ∧ y.2.pasid = le b 4 4)) →
     (if e.slice = 0xFFFF then pickFree 4096 (fun k => (s.dev.slice k).isSome) s.dev else (some e.slice, s.dev)) = (some n, d1) →
     (if le b 2 2 = 0xFFFF then pickFree 512 (s.dev.lidxUsed (byteAt b 0)) d1 else (some (le b 2 2), d1)) = (some i, d2) →
     x = { state := .active, fn := byteAt b 0, pasid := le b 4 4, lidx := i, weight := byteAt b 1 } →
     clean (poolFaults n x (quotasOf b) d2) = true →
     ∃ d3, d3 = each ((d2.wakeFree (byteAt b 0)).take (byteAt b 20)) (wakeHand (byteAt b 0) i)
         { d2 with slices := mput d2.slices n (applyQuotas n (quotasOf b) d2 x),
                   owners := mdel d2.owners (ownerKey (.slice (fin 4096 n))),
                   rings := mdel d2.rings (ringKey (.slice (fin 4096 n))) } ∧
       exec (.sliceCreate .manager p) s = .next (s.withDev (reply .manager stOk 0 (sliceWords n d3) d3))) ∧
   (∀ s p e b x, s.runs .manager 0x0102 p = some (e, b) → s.dev.slice e.slice = some x →
     clean (sliceFaults (some x) b s.dev) = true → clean (lowerFaults e.slice x (quotasOf b) s.dev) = true →
     clean (poolFaults e.slice x (quotasOf b) s.dev) = true →
     exec (.sliceQuotaSet .manager p) s = .next (s.withDev (reply .manager stOk 0
       (sliceWords e.slice (quotaApply e.slice x (quotasOf b) s.dev)) (quotaApply e.slice x (quotasOf b) s.dev))))) ∧
  ((∀ s r p e b x, s.runs r 0x0103 p = some (e, b) → s.dev.slice e.slice = some x → x.state ≠ .resetting →
     exec (.sliceReset r p) s = .next (s.withDev
       (each ((s.dev.ringsFor e.slice).filter fun q => q != r && !(((s.dev.ring q).exec.map (·.begun)).getD false))
         (fun q => reply q stSliceReset 0 [])
         (begin' r (updSlice e.slice (fun y =>
           { y with state := .resetting, fromLost := x.state == .hostLost, resumed := false,
                    resetWaits := y.resetWaits ++ [r] }) s.dev))))) ∧
   (∀ s r p e b x, s.runs r 0x0103 p = some (e, b) → s.dev.slice e.slice = some x → x.state = .resetting →
     exec (.sliceReset r p) s = .next (s.withDev
       (begin' r (updSlice e.slice (fun y => { y with resetWaits := y.resetWaits ++ [r] }) s.dev)))) ∧
   (∀ s k x, s.dev.slice (Fin.val k) = some x → x.state = .resetting → s.dev.sliceBusy k x = false →
     exec (.sliceResetDone k) s = .next (s.withDev
       (each x.resetWaits (fun r => reply r stOk 0 [])
         (updSlice k (fun y => { y with
             state := if y.state = .closing then .closing else if y.fromLost && !y.resumed then .hostLost else .active
             fromLost := false, resumed := false, resetWaits := [] })
           (sideReset ⟨.slice (fin 4096 k), false⟩ (sliceTeardown k x s.dev))))))) ∧
  ((∀ s p e b x, s.runs .manager 0x0104 p = some (e, b) → s.dev.slice e.slice = some x →
     exec (.sliceDestroy .manager p) s = .next (s.withDev
       (stage (.freeze e.slice) [] (begin' .manager (updSlice e.slice (fun y => { y with destroyer := some .manager }) s.dev))))) ∧
   (∀ s k x, s.dev.slice (Fin.val k) = some x → x.state = .closing → x.tearing = true → x.resetWaits = [] →
     s.dev.sliceBusy k x = false →
     exec (.sliceDestroyDone k) s = .next (s.withDev
       (forgetRing (.slice (fin 4096 k)) (destroyReply k (pairReset (.slice (fin 4096 k)) (sliceTeardown k x s.dev)))))))

/-- METER_SNAPSHOT names a bank and waits for its apply point; the write of the bank then puts STATUS and METER of all
4,096 slices and the header there, frees each slice whose time has come, and replies with A, the bank's address and
the number freed (R54, R57, R58). FUNCTION_QUEUES_SET gives a function its weight and its block of the queue pool, in
place or at the first fit, and replies with the base (R110). SLICE_VECTORS gives a slice its vectors, which may meet
no other slice's (R133). -/
def Obligations.SnapshotsAndFunctionShares : Prop :=
  ((∀ s p e b, s.runs .manager 0x0110 p = some (e, b) → byteAt b 0 ≤ 1 →
     exec (.meterSnapshot .manager p) s = .next (s.withDev
       (stage (.snapshot (bit (byteAt b 0) 0) .manager) [] (begin' .manager s.dev)))) ∧
   (∀ s bank a r m gone, s.dev.snap = some (bank, a, r, m) → gone = (m.filter fun e => e.2.frees a).map (·.1) →
     exec .snapshotBankWrite s = .next (s.withDev
       (reply r stOk 0 [lo32 a, hi32 a, lo32 (bankBase bank), hi32 (bankBase bank), gone.length]
         (each gone freeSlice
           (writeHbm (bankBase bank + 0x3F) (leBytes 1 1) false
           (writeHbm (bankBase bank + 0x40) (leBytes 0xFC0 0) false
           (writeHbm (bankBase bank) (leBytes 8 (s.dev.snapSeq + 1) ++ leBytes 8 a ++ leBytes 4 4096 ++
               leBytes 4 (b2n bank) ++ leBytes 39 0) false
           (writeHbm (bankBase bank + 0x9000) ((List.range 4096).flatMap (meterBytes m)) false
           (writeHbm (bankBase bank + 0x1000) ((List.range 4096).flatMap (statusBytes m a)) false
           (writeHbm (bankBase bank + 0x3F) (leBytes 1 0) false
             { s.dev with snap := none, snapSeq := s.dev.snapSeq + 1 }))))))))))) ∧
  ((∀ s p e b base, s.runs .manager 0x0120 p = some (e, b) → byteAt b 0 < 32 → s.dev.fnExists (byteAt b 0) = true →
     byteAt b 1 ≠ 0 → le b 2 2 ≤ 4096 → topOf (s.dev.queuesOf (.function (fin 32 (byteAt b 0)))) ≤ le b 2 2 →
     resize 1048576 (s.dev.queueBlocks none (some (byteAt b 0))) (s.dev.fn (byteAt b 0)).qBase
       (s.dev.fn (byteAt b 0)).qLen (le b 2 2) = some base →
     exec (.functionQueuesSet .manager p) s = .next (s.withDev (reply .manager stOk 0 [0, base]
       (updFn (byteAt b 0) (fun x => { x with weight := byteAt b 1, qBase := base, qLen := le b 2 2 }) s.dev)))) ∧
   (∀ s f p e b k x, s.runs (.function f) 0x0208 p = some (e, b) → s.dev.sliceAt f (le b 0 2) = some (k, x) →
     x.state ≠ .closing → zeroAt b 6 2 = true → le b 4 2 ≤ 2048 → le b 2 2 + le b 4 2 ≤ 2048 →
     (∀ i < 512, ∀ t y, s.dev.sliceAt f i = some (t, y) → t ≠ k → le b 4 2 ≠ 0 → y.vecCount ≠ 0 →
       ¬(le b 2 2 < y.vecBase + y.vecCount ∧ y.vecBase < le b 2 2 + le b 4 2)) →
     exec (.sliceVectors (.function f) p) s = .next (s.withDev (reply (.function f) stOk 0 []
       (updSlice k (fun x => { x with vecBase := le b 2 2, vecCount := le b 4 2 }) s.dev)))))

/-- QUEUE_CREATE makes a queue, RUNNING and empty, and its completion ring; QUEUE_QUERY answers the queue's state and
clears its counts; CQ_MODERATE gives the ring the moderation that its next entry takes up; RSS_SET sets the owner's
hashing and indirection (R132, R134). QUEUE_STOP and QUEUE_DESTROY end a running queue's fetching and wait for its
jobs; on a halted queue they answer at once; 100 µs after a stop began the jobs left are aborted; QUEUE_START starts a
halted queue at a position (R130, R131, R132). -/
def Obligations.QueuesAreSetUpAndStopped : Prop :=
  ((∀ s r p e b o, s.runs r 0x0201 p = some (e, b) → cmdOwner r e = some o → le b 0 2 < s.dev.queueQuota o →
     clean (createFaults o (le b 0 2) b s.dev) = true → s.dev.queue o (le b 0 2) = none →
     exec (.queueCreate r p) s = .next (s.withDev (reply r stOk 0 []
       { s.dev with queues := mput s.dev.queues (qKey o (le b 0 2)) (newQueue (le b 0 2) b),
                    cqs := if bit (byteAt b 3) 0 then mput s.dev.cqs (qKey o (le b 0 2)) (newCq b) else s.dev.cqs }))) ∧
   (∀ s r p e b o x, s.runs r 0x0205 p = some (e, b) → cmdOwner r e = some o → le b 0 2 < s.dev.queueQuota o →
     zeroAt b 2 2 = true → s.dev.queue o (le b 0 2) = some x →
     exec (.queueQuery r p) s = .next (s.withDev (reply r stOk 0 (queueWords s.dev o (le b 0 2) x)
       (updQueue o (le b 0 2) (fun x => { x with noBuf := 0, cqFull := 0, haltedDrops := 0, stalls := 0 }) s.dev)))) ∧
   (∀ s r p e b o c, s.runs r 0x0206 p = some (e, b) → cmdOwner r e = some o → le b 0 2 < s.dev.queueQuota o →
     byteAt b 3 < 2 → le b 4 2 ≤ 2047 → s.dev.vectorOk o (le b 6 2) = true → mayOwnCq o (le b 0 2) = true →
     s.dev.cq o (le b 0 2) = some c →
     exec (.cqModerate r p) s = .next (s.withDev (reply r stOk 0 []
       (updCq o (le b 0 2) (fun x => { x with staged := some (byteAt b 2, le b 4 2, le b 6 2, bit (byteAt b 3) 0) })
         s.dev)))) ∧
   (∀ s r p e b o, s.runs r 0x0207 p = some (e, b) → cmdOwner r e = some o → le b 0 2 < 64 → zeroAt b 2 2 = true →
     zeroAt b 44 4 = true → (∀ i < 256, rssEntryFault s.dev o b i = none) →
     exec (.rssSet r p) s = .next (s.withDev (reply r stOk 0 []
       (updOwner o (fun x => { x with
         rssFields := le b 0 2, rssKey := bytesAt b 4 40
         rssTable := (List.range 256).foldl (fun m i => mset 0 m i (le b (48 + 2 * i) 2)) [] }) s.dev))))) ∧
  ((∀ s r p e b o x, s.runs r 0x0202 p = some (e, b) → cmdOwner r e = some o → le b 0 2 < s.dev.queueQuota o →
     zeroAt b 2 2 = true → s.dev.queue o (le b 0 2) = some x → s.dev.cqShared o (le b 0 2) = false →
     (x.halted.isSome = true →
       exec (.queueDestroy r p) s = .next (s.withDev (reply r stOk 0 [] (removeQueue o (le b 0 2) s.dev)))) ∧
     (x.halted = none → x.ending = none →
       exec (.queueDestroy r p) s = .next (s.withDev (endQueue o (le b 0 2)
         { reason := 4, status := stOk, since := s.dev.time, destroy := some r } (begin' r s.dev))))) ∧
   (∀ s r p e b o x, s.runs r 0x0203 p = some (e, b) → cmdOwner r e = some o → le b 0 2 < s.dev.queueQuota o →
     zeroAt b 2 2 = true → s.dev.queue o (le b 0 2) = some x →
     (x.reason.isSome = true →
       exec (.queueStop r p) s = .next (s.withDev (reply r stOk 0 [posWord x.n x.head] s.dev))) ∧
     (x.reason = none →
       exec (.queueStop r p) s = .next (s.withDev (endQueue o (le b 0 2)
         { reason := 4, status := stOk, since := s.dev.time, stop := some r } (begin' r s.dev))))) ∧
   (∀ s o q x w, s.dev.queue o q = some x → x.ending = some w →
     exec (.queueStopAbort o q) s = .next (s.withDev
       (endIfIdle o q (abortJobs o q stAborted x.jobs.length (timeTo (w.since + 100000) s.dev))))) ∧
   (∀ s r p e b o x h, s.runs r 0x0204 p = some (e, b) → cmdOwner r e = some o → le b 0 2 < s.dev.queueQuota o →
     zeroAt b 2 2 = true → s.dev.queue o (le b 0 2) = some x → x.ending = none → x.halted.isSome = true →
     le b 4 4 < 2 ^ 17 → posOf x.n (le b 4 4) = some h → (x.halted = some 1 → (s.dev.fn (s.dev.fnOf o)).bme = true) →
     exec (.queueStart r p) s = .next (s.withDev (bmeHaltUpdate (s.dev.fnOf o) (reply r stOk 0 []
       (updQueue o (le b 0 2) (fun x => { x with halted := none, head := h, tail := h, fetch := h, run := x.run + 1 }) s.dev))))))

/-- The CTRL registers of the three event rings: a write of ENABLE = 1 starts the ring at position 0 with the size
written, and while it is enabled its size stays; that such a write starts a running ring anew is the model's reading
(R35, R137, R264; log 131). The HEAD registers of the event rings move the head to a valid position, by R113; any
other value is ignored and counted: in FN_BAD_ACCESS for a function's ring, in DEV_BAD_ACCESS for the device's (R35,
R137, R264). -/
def Obligations.EventRingsRun : Prop :=
  ((∀ s f v, s.comes (some (Fin.val f)) = true → s.dev.fnExists f = true → (s.dev.fn f).feq.enable = false →
     v.getLsbD 31 = true →
     exec (.feqCtrlWrite f v) s = .next (s.withDev (feqLostFirst f (updFn f (fun x => { x with
       feq := { x.feq with vector := wbits v 10 0, log2 := ringLog 6 6 (wbits v 28 24), rawLog := wbits v 28 24,
                           enable := true, head := 0, wpos := 0 } }) s.dev)))) ∧
   (∀ s q v, s.reaches q 0x308 = true → trusted q = true → s.dev.mev.enable = false → v.getLsbD 31 = true →
     exec (.mevCtrlWrite q v) s = .next (s.withDev (mevLostFirst { s.dev with
       mev := { s.dev.mev with vector := wbits v 5 0, log2 := ringLog 6 8 (wbits v 28 24), rawLog := wbits v 28 24,
                               enable := true, head := 0, wpos := 0 } }))) ∧
   (∀ s q v, s.reaches q 0x308 = true → trusted q = true → s.dev.mev.enable = true → v.getLsbD 31 = true →
     exec (.mevCtrlWrite q v) s = .next (s.withDev (mevLostFirst { s.dev with
       mev := { s.dev.mev with vector := wbits v 5 0, head := 0, wpos := 0 } }))) ∧
   (∀ s q v, s.reaches q 0x308 = true → trusted q = true → s.dev.mev.enable = true → v.getLsbD 31 = false →
     exec (.mevCtrlWrite q v) s = .next (s.withDev (mevLostFirst { s.dev with
       mev := { s.dev.mev with vector := wbits v 5 0, enable := false } }))) ∧
   (∀ s q v, s.reaches q 0xD803018 = true → trusted q = true → s.dev.exc.enable = false → v.getLsbD 31 = true →
     exec (.excCtrlWrite q v) s = .next (s.withDev { s.dev with
       exc := { s.dev.exc with log2 := if wbits v 3 0 = 15 then 6 else ringLog 6 6 (wbits v 3 0), rawLog := wbits v 3 0,
                               enable := true, head := 0, wpos := 0 } }))) ∧
  ((∀ s f v, s.comes (some (Fin.val f)) = true → s.dev.fnExists f = true →
     (∀ p, headValid (s.dev.fn f).feq.n (s.dev.fn f).feq.head (s.dev.fn f).feq.wpos (wbits v 16 0) = some p →
       exec (.feqHeadWrite f v) s = .next (s.withDev (feqLostFirst f
         (updFn f (fun x => { x with feq := { x.feq with head := p } }) s.dev)))) ∧
     (headValid (s.dev.fn f).feq.n (s.dev.fn f).feq.head (s.dev.fn f).feq.wpos (wbits v 16 0) = none →
       exec (.feqHeadWrite f v) s = .next (s.withDev (count (aFn f 0x4114) s.dev)))) ∧
   (∀ s q v, s.reaches q 0x30C = true → trusted q = true →
     (∀ p, headValid s.dev.mev.n s.dev.mev.head s.dev.mev.wpos (wbits v 16 0) = some p →
       exec (.mevHeadWrite q v) s = .next (s.withDev (mevLostFirst { s.dev with mev := { s.dev.mev with head := p } }))) ∧
     (headValid s.dev.mev.n s.dev.mev.head s.dev.mev.wpos (wbits v 16 0) = none →
       exec (.mevHeadWrite q v) s = .next (s.withDev (badAccess s.dev)))) ∧
   (∀ s q v, s.reaches q 0xD80301C = true → trusted q = true →
     (∀ p, headValid s.dev.exc.n s.dev.exc.head s.dev.exc.wpos (wbits v 16 0) = some p →
       exec (.excHeadWrite q v) s = .next (s.withDev { s.dev with exc := { s.dev.exc with head := p } })) ∧
     (headValid s.dev.exc.n s.dev.exc.head s.dev.exc.wpos (wbits v 16 0) = none →
       exec (.excHeadWrite q v) s = .next (s.withDev (badAccess s.dev)))))

/-! ### Tables (chapter 9) -/

/-- ENTRY_INSERT, ENTRY_INSERT_IF_ABSENT, ENTRY_MODIFY, ENTRY_DELETE and ENTRY_LOOKUP on the manager ring, with clean
parameters, carry out the plan of their operation for the key and owner given: an evicted entry is written to the host
first, the writes are staged, and the reply follows them (R214-R222). A slice's entry command acts on the key with the
slice's number in it, and only on entries that the slice owns (R221). -/
def Obligations.EntryCommandsChangeTables : Prop :=
  (∀ (op : EntryOp) (c : Ring → Read → Instr) (code : Nat),
     (op = .insert ∧ c = .entryInsert ∧ code = 0x0301) ∨ (op = .ifAbsent ∧ c = .entryInsertIfAbsent ∧ code = 0x0302) ∨
     (op = .modify ∧ c = .entryModify ∧ code = 0x0303) ∨ (op = .delete ∧ c = .entryDelete ∧ code = 0x0304) ∨
     (op = .lookup ∧ c = .entryLookup ∧ code = 0x0305) →
     ∀ s p e b plan, s.runs .manager code p = some (e, b) → clean (entryFaults op .manager b s.dev) = true →
       (op ≠ .lookup → s.dev.tableHeld (byteAt b 0) = false) →
       plan = planEntry op (byteAt b 0) (bytesAt b 16 (pKeyLen (s.dev.gens.rules.profileOf (byteAt b 0)))) (bytesAt b 64 8)
         (if bit (byteAt b 1) 0 then some (le b 2 2) else none) none s.dev →
       (plan.evicted = none →
         exec (c .manager p) s = .next (s.withDev
           (runPlan (byteAt b 0) plan (fun ws => .reply .manager plan.status plan.detail ws) (begin' .manager s.dev)))) ∧
       (∀ v age, plan.evicted = some (v, age) →
         exec (c .manager p) s = .next (s.withDev
           (runPlan (byteAt b 0) plan (fun ws => .reply .manager plan.status plan.detail ws) (begin' .manager
             (ringData .manager [(le b 8 8, entryRecord (byteAt b 0) (s.dev.gens.rules.kind (byteAt b 0)) age false v)] s.dev)))))) ∧
  ((∀ (op : EntryOp) (c : Ring → Read → Instr) (code : Nat),
     (op = .insert ∧ c = .entryInsert ∧ code = 0x0301) ∨ (op = .ifAbsent ∧ c = .entryInsertIfAbsent ∧ code = 0x0302) ∨
     (op = .modify ∧ c = .entryModify ∧ code = 0x0303) ∨ (op = .delete ∧ c = .entryDelete ∧ code = 0x0304) ∨
     (op = .lookup ∧ c = .entryLookup ∧ code = 0x0305) →
     ∀ s r p e b o plan, r ≠ .manager → s.runs r code p = some (e, b) → clean (entryFaults op r b s.dev) = true →
       e.slice < 4096 → pSlice (s.dev.gens.rules.profileOf (byteAt b 0)) = some o →
       (op ≠ .lookup → s.dev.tableHeld (byteAt b 0) = false) →
       plan = planEntry op (byteAt b 0)
         (putLe (bytesAt b 16 (pKeyLen (s.dev.gens.rules.profileOf (byteAt b 0)))) o 2 e.slice) (bytesAt b 64 8)
         (some e.slice) (some e.slice) s.dev →
       plan.evicted = none →
       exec (c r p) s = .next (s.withDev
         (runPlan (byteAt b 0) plan (fun ws => .reply r plan.status plan.detail ws) (begin' r s.dev)))) ∧
   (∀ op t key data owner k d q x,
     findKey (if op = EntryOp.lookup then d.table t else d.tableWith t fun _ => true).ents
       (tKind (d.gens.rules.table t)) (buckets t (tSize (d.gens.rules.table t)) key) key = some (q, x) →
     x.owner ≠ some k → (planEntry op t key data owner (some k) d).writes = []))

/-- An absent key whose bucket A or B has a free slot goes to the lowest one of A, else of B, in one write, and a lookup
then finds it there with its data and owner; every other key is found as before (R213, R214). -/
def Obligations.InsertedKeyIsFound : Prop :=
  ∀ t df now draw m (e : Entry) p, findKey m (tKind df) (buckets t (tSize df) e.key) e.key = none →
    ((freeSlot m (tKind df) (buckets t (tSize df) e.key).1).orElse fun _ =>
      freeSlot m (tKind df) (buckets t (tSize df) e.key).2) = some p →
    (planNew t df now draw m e).status = stOk ∧ (planNew t df now draw m e).writes = [[(p, some e)]] ∧
    (∃ x, findKey (putSlot now m (p, some e)) (tKind df) (buckets t (tSize df) e.key) e.key = some (p, x) ∧
      x.key = e.key ∧ x.data = e.data ∧ x.owner = e.owner) ∧
    (∀ key, key ≠ e.key →
      (findKey (putSlot now m (p, some e)) (tKind df) (buckets t (tSize df) key) key).map (·.1) =
      (findKey m (tKind df) (buckets t (tSize df) key) key).map (·.1))

/-- The register path: with GO and a requester that has the registers, not BUSY, the operation's plan is carried out, and
its outcome returns in the registers (R172, R222); without the engine it ends with ABORTED. A coherent update takes
effect at its apply point, which device time reaches and TIME_APPLIED records; what waits for it follows. A damaged
row is rewritten from a good replica, or taken out of its table with TABLE_ECC raised (R17, R20, R233). -/
def Obligations.RegisterPathAndUpdatesRun : Prop :=
  (∀ (op : EntryOp) (c : Requester → BitVec 12 → Bool → Fin 64 → Instr) (code : Nat),
     (op = .insert ∧ c = .tblInsert ∧ code = 1) ∨ (op = .ifAbsent ∧ c = .tblInsertIfAbsent ∧ code = 2) ∨
     (op = .modify ∧ c = .tblModify ∧ code = 3) ∨ (op = .delete ∧ c = .tblDelete ∧ code = 4) ∨
     (op = .lookup ∧ c = .tblLookup ∧ code = 5) →
     ∀ s q ow ov t x key go,
       s.reaches q 0xD800000 = true → hasTblRegs q = true → x = mget {} s.dev.tblRegs (reqKey q) → x.busy = false →
       (op ≠ .lookup → s.dev.tableHeld (Fin.val t) = false ∧ s.dev.ahead s.dev.accepted = false) →
       key = ((List.range 14).map fun i => leBytes 4 (mget 0 x.key i).toNat).flatten →
       go = { s.dev with accepted := s.dev.accepted + 1, tblRegs := mupd {} s.dev.tblRegs (reqKey q) fun x =>
         { x with cmd := word (BitVec.toNat ow * 2 ^ 16 + b2n ov * 2 ^ 15 + Fin.val t * 2 ^ 6 + code)
                  busy := true, waiting := none, status := stPending, detail := 0 } } →
       (s.dev.engineReady = false → exec (c q ow ov t) s = .next (s.withDev (regReturn q stAborted 0 [] [] go))) ∧
       (s.dev.engineReady = true → exactKind (s.dev.gens.rules.kind t) = true →
         keyBad (s.dev.gens.rules.profileOf t) key = false →
         ((op = .insert ∨ op = .ifAbsent) → s.dev.redefining t = false) →
         ∀ plan, plan = planEntry op t (key.take (pKeyLen (s.dev.gens.rules.profileOf t)))
             ((List.range 2).map fun i => leBytes 4 (mget 0 x.data i).toNat).flatten
             (if ov then some (BitVec.toNat ow) else none) none s.dev →
         exec (c q ow ov t) s = .next (s.withDev (runPlan t plan (fun ws => .regPath q plan.status plan.detail ws
           (match plan.evicted with | some (v, _) => padTo 56 v.key | none => [])) go)))) ∧
  ((∀ s u, s.dev.updates = [u] →
     exec .coherentUpdateApply s = .next (s.withDev (tblSettle (each u.done updFinish (setReg64 0x100008 u.apply
       (updEffect u.apply u.op { s.dev with updates := [], time := max s.dev.time u.apply })))))) ∧
   (∀ s (t : Fin 64) place, s.dev.gens.rules.kind (Fin.val t) ≠ 0 →
     exec (.tableEccRepair t place true) s = .next (s.withDev
       (stageTable [.slots t false []] (freeTable t (count (aTbl t + 0x24) s.dev))))) ∧
   (∀ s (t : Fin 64) place, s.dev.gens.rules.kind (Fin.val t) ≠ 0 →
     exec (.tableEccRepair t place false) s = .next (s.withDev
       (raise 0x0A t (if exactKind (s.dev.gens.rules.kind t) then place / 2 else place) 0
         (loseRow t place (count (aTbl t + 0x24) s.dev))))) ∧
   (∀ d e t place y, exactKind (d.gens.rules.kind t) = true → mfind (d.table t).ents place = some y → e = freeTable t d →
     loseRow t place d =
       if (mfind (e.table t).ents place).map (·.key) = some y.key then deleteKey t y.key e else e))

/-- LPM_INSERT replaces the data of a present prefix, or places the new one behind every longer one, in steps of at most
4,096 rows; LPM_DELETE takes one out; a full table answers TABLE_FULL (R229-R231). -/
def Obligations.LpmInsertAndDelete : Prop :=
  (∀ s p e b t l x, s.runs .manager 0x0307 p = some (e, b) → t = byteAt b 0 → clean (lpmFaults b s.dev) = true →
    s.dev.redefining t = false → s.dev.tableHeld t = false → l = (s.dev.tableWith t fun _ => true).prefixes →
    x = prefixOf (tKind (s.dev.gens.rules.table t)) b →
    (l.any (samePrefix x) = true →
      exec (.lpmInsert .manager p) s = .next (s.withDev
        (runLpm .manager t [l.map fun y => if samePrefix x y then x else y] 1 0 s.dev))) ∧
    (l.any (samePrefix x) = false →
      (l.length + 1) * lpmRows (tKind (s.dev.gens.rules.table t)) ≤ tSize (s.dev.gens.rules.table t) * 1024 →
      ∀ up down, up = l.takeWhile (fun y => y.len ≥ x.len) → down = l.drop up.length →
      exec (.lpmInsert .manager p) s = .next (s.withDev
        (runLpm .manager t (List.replicate (shiftChunks (down.length * lpmRows (tKind (s.dev.gens.rules.table t)))) l ++
            [up ++ x :: down]) 0 (down.length * lpmRows (tKind (s.dev.gens.rules.table t)))
          (count (aTbl t + 0x10) s.dev)))) ∧
    (l.any (samePrefix x) = false →
      tSize (s.dev.gens.rules.table t) * 1024 < (l.length + 1) * lpmRows (tKind (s.dev.gens.rules.table t)) →
      exec (.lpmInsert .manager p) s = .next (s.withDev (reply .manager stTableFull 0 [] (count (aTbl t + 0x20) s.dev))))) ∧
  (∀ s p e b t l x i, s.runs .manager 0x0308 p = some (e, b) → t = byteAt b 0 → clean (lpmFaults b s.dev) = true →
    s.dev.tableHeld t = false → l = (s.dev.tableWith t fun _ => true).prefixes →
    x = prefixOf (s.dev.gens.rules.kind t) b → l.findIdx? (samePrefix x) = some i →
    exec (.lpmDelete .manager p) s = .next (s.withDev
      (runLpm .manager t (List.replicate (shiftChunks ((l.length - i - 1) * lpmRows (s.dev.gens.rules.kind t)) + 1)
        (l.eraseIdx i)) 0 ((l.length - i - 1) * lpmRows (s.dev.gens.rules.kind t)) s.dev)))

/-- AGE_SCAN writes records of entries old enough to the host and answers how many and where the walk goes on; AGE_VISIT
pulls every age of 32,768 s or more forward to that age; TABLE_QUERY answers a table's definition and use (R219, R224,
R225). -/
def Obligations.AgingAndTableQuery : Prop :=
  (∀ s p e b t nb w l x, s.runs .manager 0x0306 p = some (e, b) → t = byteAt b 0 → t ≤ 63 →
    exactKind (s.dev.gens.rules.kind t) = true → byteAt b 1 ≤ 1 → le b 2 2 ≤ 4095 → 1 ≤ le b 4 2 → le b 4 2 ≤ 32767 →
    2 ≤ le b 6 2 → le b 6 2 ≤ 4096 → nb = tSize (s.dev.gens.rules.table t) * 1024 → le b 8 4 < nb + 1024 →
    zeroAt b 12 4 = true → le b 16 8 % 64 = 0 → w = min (nb + 1024) (le b 8 4 + 65536) →
    l = (s.dev.table t).ents.filter (fun x => le b 8 4 ≤ walkPos nb x.1 && walkPos nb x.1 < w &&
      entryAge s.dev.time x.2 ≥ le b 4 2 && (!bit (byteAt b 1) 0 || x.2.owner == some (le b 2 2))) →
    x = takeWalk nb (le b 6 2) ((l.map fun x => walkPos nb x.1).eraseDups) l 0 →
    exec (.ageScan .manager p) s = .next (s.withDev (reply .manager stOk 0
      [x.1.length, match x.2 with | some w => w | none => if w ≥ nb + 1024 then 0xFFFFFFFF else w]
      (ringData .manager (x.1.zipIdx.map fun e => (le b 16 8 + 64 * e.2,
        entryRecord t (tKind (s.dev.gens.rules.table t)) (entryAge s.dev.time e.1.2) (inStash e.1.1) e.1.2)) s.dev)))) ∧
  (∀ s t, ∃ d, exec (.ageVisit t) s = .next (s.withDev d) ∧
    d = updTable t (fun x => { x with ents := (d.table t).ents }) s.dev ∧
    ∀ k, mfind (d.table t).ents k = (mfind (s.dev.table t).ents k).map fun e =>
      if entryAge s.dev.time e ≥ 32768 then { e with hit := List.replicate 4 (second s.dev.time - 32768) } else e) ∧
  (∀ s p e b t df, s.runs .manager 0x0309 p = some (e, b) → t = byteAt b 0 → t ≤ 63 → byteAt b 1 = 0 → byteAt b 2 = 0 →
    byteAt b 3 = 0 → df = s.dev.gens.rules.table t →
    (s.dev.slice e.slice = none →
      exec (.tableQuery .manager p) s = .next (s.withDev (reply .manager stOk 0
        [tKind df + tProfile df * 2 ^ 8 + tEvict df * 2 ^ 16 + b2n (s.dev.redefining t) * 2 ^ 24, capacity df,
         s.dev.tableInUse t, if exactKind (tKind df) then stashCount (s.dev.table t).ents else 0, tBase df, tSize df] s.dev))) ∧
    (∀ x, s.dev.slice e.slice = some x →
      exec (.tableQuery .manager p) s = .next (s.withDev (reply .manager stOk 0
        [tKind df + tProfile df * 2 ^ 8 + tEvict df * 2 ^ 16 + b2n (s.dev.redefining t) * 2 ^ 24, capacity df,
         if exactKind (tKind df) then ownedBy (s.dev.table t).ents e.slice else 0, x.caps.getD t 0, tBase df, tSize df] s.dev))))

/-! ### Rule sets and learning (chapters 8, 10, 11) -/

/-- RS_OPEN gives the SHADOW bank the CURRENT rules, or none with EMPTY; DISCARD drops it (R254, R259). GEN_COMMIT stages
the SHADOW bank as the next generation at an apply point at least 4 µs off; at it the bank is CURRENT and the previous
generation DRAINING; GEN_QUERY reports the banks; a DRAINING generation that no packet carries retires, with
GEN_RETIRED raised (R254-R257, R261, R262). -/
def Obligations.GenerationsOpenCommitAndRetire : Prop :=
  ((∀ s p e b, s.runs .manager 0x0401 p = some (e, b) → byteAt b 0 = 0 → badBytes b 1 3 = none →
     s.dev.gens.shadow = none → s.dev.gens.committing = none →
     exec (.rsOpen .manager p) s = .next (s.withDev (reply .manager stOk 0 [s.dev.gens.current] { s.dev with
       gens := { s.dev.gens with shadow := some s.dev.gens.rules, base := s.dev.gens.current } }))) ∧
   (∀ s p e b, s.runs .manager 0x0401 p = some (e, b) → byteAt b 0 = 1 → badBytes b 1 3 = none →
     s.dev.gens.shadow = none → s.dev.gens.committing = none →
     exec (.rsOpen .manager p) s = .next (s.withDev (reply .manager stOk 0 [0] { s.dev with
       gens := { s.dev.gens with shadow := some {}, base := 0 } }))) ∧
   (∀ s p e b x, s.runs .manager 0x0401 p = some (e, b) → byteAt b 0 = 2 → badBytes b 1 3 = none →
     s.dev.gens.shadow = some x →
     exec (.rsOpen .manager p) s = .next (s.withDev (reply .manager stOk 0 [] { s.dev with
       gens := { s.dev.gens with shadow := none, base := 0, redef := [] } })))) ∧
  ((∀ s p e b x a, s.runs .manager 0x0410 p = some (e, b) → s.dev.gens.shadow = some x →
     (le b 0 2 = 0 ∨ le b 0 2 = s.dev.gens.current) → badBytes b 2 6 = none → commitFault x = none →
     s.dev.gens.draining = none → a = s.dev.applyPoint 4000 →
     exec (.genCommit .manager p) s = .next (s.withDev (stageAt a .commit
       [.reply .manager stOk 0 [nextGen s.dev.gens.current, s.dev.gens.current, lo32 a, hi32 a]]
       (begin' .manager { s.dev with gens := { s.dev.gens with shadow := none, committing := some x, base := 0 } })))) ∧
   (∀ a d x, d.gens.committing = some x →
     (updEffect a .commit d).gens.rules = x ∧ (updEffect a .commit d).gens.current = nextGen d.gens.current ∧
     (updEffect a .commit d).gens.draining = some (d.gens.current, d.gens.rules) ∧
     (updEffect a .commit d).gens.committing = none ∧ (updEffect a .commit d).gens.applied = a) ∧
   (∀ s p e b, s.runs .manager 0x0411 p = some (e, b) →
     exec (.genQuery .manager p) s = .next (s.withDev (reply .manager stOk 0
       [s.dev.gens.current + 65536 * s.dev.drainingGen, b2n s.dev.gens.shadow.isSome + 2 * b2n s.dev.gens.committing.isSome,
        lo32 s.dev.gens.applied, hi32 s.dev.gens.applied,
        match s.dev.gens.draining with | some (i, _) => sat32 (s.dev.stamped i) | none => 0, s.dev.gens.base] s.dev))) ∧
   (∀ s n x a d, s.dev.gens.draining = some (n, x) → s.dev.stamped n = 0 →
     a = max ((s.dev.time + 255) / 256 * 256) (s.dev.gens.applied + 256) → d = timeTo a s.dev →
     exec .genRetire s = .next (s.withDev (raise 0x06 n (lo32 a) (hi32 a)
       { d with gens := { d.gens with draining := none, redefDrain := [] } }))))

/-- The rule-set commands write the SHADOW bank alone, and nothing in effect: key profiles, table definitions, TCAM rules,
action lists, groups, egress bindings, encap templates, the parse policy, patterns and policer profiles (R206, R208,
R226, R260, R283, R190, R197, R346). -/
def Obligations.RuleSetCommandsWriteTheShadow : Prop :=
  ∀ s p e b x (set : RuleSet → State), s.dev.gens.shadow = some x →
    (∀ y, set y = s.withDev (reply .manager stOk 0 [] { s.dev with gens := { s.dev.gens with shadow := some y } })) →
    (s.runs .manager 0x0402 p = some (e, b) → clean (profileFaults b) = true →
      mfind s.dev.gens.rules.profiles (byteAt b 0) = some b →
      exec (.rsKeyProfile .manager p) s = .next (set { x with profiles := mput x.profiles (byteAt b 0) b })) ∧
    (s.runs .manager 0x0403 p = some (e, b) → clean (bindFields b) = true → clean (bindFaults b x) = true →
      s.dev.gens.rules.kind (byteAt b 0) = 0 →
      exec (.rsTableBind .manager p) s = .next (set { x with
        tcam := keepRules b x
        tables := if tKind b = 0 then mdel x.tables (byteAt b 0) else mput x.tables (byteAt b 0) b })) ∧
    (s.runs .manager 0x0404 p = some (e, b) → tcamKind (x.kind (byteAt b 0)) = true → byteAt b 1 = 0 →
      le b 2 2 < perUnit (x.kind (byteAt b 0)) * tSize (x.table (byteAt b 0)) → byteAt b 4 < 2 → zeroAt b 5 3 = true →
      (x.kind (byteAt b 0) = 3 → zeroAt b 28 20 = true ∧ zeroAt b 68 20 = true) →
      exec (.rsTcamWrite .manager p) s = .next (set { x with
        tcam := if bit (byteAt b 4) 0 then mput x.tcam (byteAt b 0 * 65536 + le b 2 2) (ruleBytes b)
                else mdel x.tcam (byteAt b 0 * 65536 + le b 2 2) })) ∧
    (s.runs .manager 0x0405 p = some (e, b) → (∀ n, actionLen b = some n → e.plen = n) → clean (actionFaults b) = true →
      exec (.rsActionWrite .manager p) s = .next (set (
        if byteAt b 0 = 0 then { x with lists := if bit (byteAt b 1) 0 then mput x.lists (le b 2 2) (bytesAt b 8 128)
                                                 else mdel x.lists (le b 2 2) }
        else if byteAt b 0 = 1 then { x with groups := mset [] x.groups (le b 2 2) (bytesAt b 8 (8 * le b 4 2)) }
        else { x with egress := mset 0xFFFF x.egress (le b 2 2) (le b 8 2) }))) ∧
    (s.runs .manager 0x0406 p = some (e, b) → clean (encapFaults x b) = true →
      exec (.rsEncapWrite .manager p) s = .next (set { x with
        templates := if eType b = 0 then mdel x.templates (le b 0 2) else mput x.templates (le b 0 2) b })) ∧
    (s.runs .manager 0x0407 p = some (e, b) → portTwice b = none → (∀ i < 4, byteAt b (32 + i) ≤ 2) → byteAt b 36 < 64 →
      byteAt b 37 = 0 → le b 38 2 ≤ 1024 → zeroAt b 40 8 = true →
      exec (.rsParsePolicy .manager p) s = .next (set { x with policy := if b = policyDefault then none else some b })) ∧
    (s.runs .manager 0x0408 p = some (e, b) → clean (patternFaults b) = true →
      exec (.rsPatternWrite .manager p) s = .next (set { x with
        patterns := if bit (byteAt b 2) 0 then mput x.patterns (le b 0 2) b else mdel x.patterns (le b 0 2) })) ∧
    (s.runs .manager 0x0409 p = some (e, b) → clean (policerProfileFaults b) = true →
      exec (.rsPolicerProfile .manager p) s = .next (set { x with
        policers := if bit (byteAt b 1) 0 then mput x.policers (byteAt b 0) b else mdel x.policers (byteAt b 0) }))

/-- SLICE_EXCEPTION_SET writes an owner's exception policy, and nothing else (R195). ACT_CNT_INDEX captures one counter
pair for its requester (R265). -/
def Obligations.ExceptionPolicyAndCounterCapture : Prop :=
  (∀ s r p e b o, s.runs r 0x0420 p = some (e, b) → cmdOwner r e = some o → clean (excFaults b) = true →
    (r = .manager → e.slice ≠ 0xFFFF) → (le b 2 2 = 0xFFFF ∨ le b 2 2 < s.dev.queueQuota o) →
    exec (.sliceExceptionSet r p) s = .next (s.withDev (reply r stOk 0 [] (updOwner o (fun x =>
      { x with queue := le b 2 2, lenOver := byteAt b 4, trailer := byteAt b 5, malformed := byteAt b 6,
               depth := byteAt b 7, oversize := byteAt b 8 }) s.dev)))) ∧
  (∀ s q v, s.reaches q 0xD803100 = true → trusted q = true →
    exec (.actCntIndexWrite q v) s = .next (s.withDev
      (capture q 0xD803110 (mget (0, 0) s.dev.counters (wbits v 17 0)).2
        (capture q 0xD803108 (mget (0, 0) s.dev.counters (wbits v 17 0)).1
          (setReg 0xD803100 (word (wbits v 17 0)) s.dev)))))

/-- LEARN_RING_SET starts or stops the learn ring, LEARN_FILTER_SET sets what is learned, LEARN_HEAD moves the ring's
head, and the writer moves the oldest notice of a pipeline into the ring (R275, R277-R279). -/
def Obligations.LearningRingWorks : Prop :=
  (∀ s p e b, s.runs .manager 0x0501 p = some (e, b) → le b 0 8 % 4096 = 0 → 8 ≤ byteAt b 8 → byteAt b 8 ≤ 16 →
    (∀ i < 6, byteAt b (10 + i) = 0) → byteAt b 9 < 4 →
    (bit (byteAt b 9) 0 = true → s.dev.learn.ring.enable = false →
      exec (.learnRingSet .manager p) s = .next (s.withDev (reply .manager stOk 0 [] { s.dev with learn := { s.dev.learn with
        ring := { s.dev.learn.ring with base := le b 0 8, log2 := byteAt b 8, enable := true, head := 0, wpos := 0 }
        event := bit (byteAt b 9) 1, notified := false } }))) ∧
    (bit (byteAt b 9) 0 = false →
      exec (.learnRingSet .manager p) s = .next (s.withDev (reply .manager stOk 0 [] { s.dev with learn := { s.dev.learn with
        ring := { s.dev.learn.ring with base := le b 0 8, log2 := byteAt b 8, enable := false }
        event := bit (byteAt b 9) 1, fifos := [] } })))) ∧
  (∀ s p e b, s.runs .manager 0x0502 p = some (e, b) → byteAt b 0 ≤ 63 → byteAt b 1 ≤ 63 → bit (byteAt b 3) 0 = false →
    byteAt b 2 ≤ 4 → byteAt b 3 < 8 → le b 4 4 ≤ 1000000 → (∀ i < 4, byteAt b (28 + i) = 0) →
    exec (.learnFilterSet .manager p) s = .next (s.withDev (reply .manager stOk 0 [] { s.dev with learn := { s.dev.learn with
      table := byteAt b 0, profile := byteAt b 1, portOff := byteAt b 2, on := false, moves := bit (byteAt b 3) 1
      window := le b 4 4, portEn := le b 8 20
      filters := if bit (byteAt b 3) 2 || byteAt b 0 != s.dev.learn.table || byteAt b 1 != s.dev.learn.profile ||
        le b 4 4 != s.dev.learn.window then [] else s.dev.learn.filters } }))) ∧
  (∀ s q v, s.reaches q 0xD803200 = true → trusted q = true →
    (∀ p, headValid s.dev.learn.ring.n s.dev.learn.ring.head s.dev.learn.ring.wpos (wbits v 16 0) = some p →
      exec (.learnHeadWrite q v) s = .next (s.withDev { s.dev with learn := { s.dev.learn with
        ring := { s.dev.learn.ring with head := p }, notified := false } })) ∧
    (headValid s.dev.learn.ring.n s.dev.learn.ring.head s.dev.learn.ring.wpos (wbits v 16 0) = none →
      exec (.learnHeadWrite q v) s = .next (s.withDev (badAccess s.dev)))) ∧
  (∀ s (n : Fin 8) x l d, mget [] s.dev.learn.fifos n = x :: l → s.dev.learn.ring.enable = true →
    s.dev.learn.ring.full = false → s.dev.mgrMay = true → byteAt x 8 ≠ 3 →
    d = ringWrites mgrWrite s.dev.learn.ring.base s.dev.learn.ring.n s.dev.learn.ring.wpos 128 x 127 s.dev →
    exec (.learnNoticeWrite n) s = .next (s.withDev
      (when (s.dev.learn.event && s.dev.learn.ring.empty && !s.dev.learn.notified)
        (raise 0x07 (posWord s.dev.learn.ring.n s.dev.learn.ring.step.wpos) 0 0)
        { d with learn := { s.dev.learn with
            fifos := mset [] s.dev.learn.fifos n l, ring := s.dev.learn.ring.step
            notified := s.dev.learn.notified || (s.dev.learn.event && s.dev.learn.ring.empty && !s.dev.learn.notified) } })))

/-! ### Contexts and eyelets (chapters 12 to 14) -/

/-- CONTEXT_WRITE stores a context (keeping the mutable state with KEEP_STATE) and answers the time; CONTEXT_READ hands
its bytes over with the keys of an ESP context blanked; SA_KEY_ROTATE puts the new key into the idle slot and starts
the switch. Each acts once the context's pipeline is on and earlier uses of the context are over (R291, R292, R293,
R302). PLACEMENT_SET gives an NVMe/TCP context its placement table, and PLACEMENT_CLEAR takes it away; on a slice's
context number (R324). -/
def Obligations.ContextsAndPlacementTables : Prop :=
  (∀ s p e b c o, c = le b 0 3 → byteAt b 3 = 0 → s.dev.plOn (homePl c) = true → s.dev.ctxHeld c = false →
     o = readCtx c (ctxUse c s.dev) →
     (s.runs .manager 0x0601 p = some (e, b) → clean (contextFaults b) = true →
       (bit (byteAt b 4) 0 = true → o.2.1 = false ∧ cxType o.1 = cxType (bytesAt b 8 256)) →
       ∀ d y, d = (if bit (byteAt b 4) 0 then o.2.2 else stopPlacement c o.1 o.2.2) →
       y = ctxAfterWrite o.1 (bytesAt b 8 256) (bit (byteAt b 4) 0) (o.2.2.ctxOwner c) →
       exec (.contextWrite .manager p) s = .next (s.withDev (reply .manager stOk 0 [lo32 d.time, hi32 d.time]
         (when (cxType y == 3 &&
             (cxType o.1 != 3 || bytesAt y 44 1 != bytesAt o.1 44 1 || bytesAt y 108 8 != bytesAt o.1 108 8))
           (ptHeader c y) (writeCtx c y d))))) ∧
     (s.runs .manager 0x0602 p = some (e, b) → (∀ i < 4, byteAt b (4 + i) = 0) → le b 8 8 % 64 = 0 → o.2.1 = false →
       exec (.contextRead .manager p) s = .next (s.withDev (reply .manager stOk 0 []
         (ringData .manager [(le b 8 8, if cxType o.1 = 3 then o.1 else putLe o.1 32 72 0)] o.2.2)))) ∧
     (s.runs .manager 0x0603 p = some (e, b) → (∀ i < 4, byteAt b (4 + i) = 0) → (∀ i < 4, byteAt b (52 + i) = 0) →
       o.2.1 = false → (cxType o.1 = 1 ∨ cxType o.1 = 2) → cxSeq o.1 < le b 8 8 → cxSwitching o.1 = false →
       ∀ k, k = 1 - byteAt o.1 24 % 2 →
       exec (.saKeyRotate .manager p) s = .next (s.withDev (reply .manager stOk 0 [] (writeCtx c
         (putLe (putBytes (putBytes (putBytes o.1 (32 + 32 * k) (bytesAt b 16 32)) (96 + 4 * k) (bytesAt b 48 4))
           16 (bytesAt b 8 8)) 24 1 (2 + (1 - k))) o.2.2))))) ∧
  (∀ s r p e b x c o, r ≠ .manager → s.dev.slice e.slice = some x → byteAt b 3 = 0 → le b 0 3 < x.cLen →
     c = x.cBase + le b 0 3 → s.dev.plOn (homePl c) = true → s.dev.ctxHeld c = false →
     o = readCtx c (ctxUse c s.dev) → o.2.1 = false → cxType o.1 = 3 → (∀ i < 4, byteAt b (4 + i) = 0) →
     (s.runs r 0x0701 p = some (e, b) → o.2.2.ptValid c o.1 = false → le b 8 8 % 64 = 0 → byteAt b 16 ≤ 16 →
       (∀ i < 7, byteAt b (17 + i) = 0) →
       exec (.placementSet r p) s = .next (s.withDev (reply r stOk 0 []
         (writeCtx c (nxByte 105 1 (putBytes (putBytes o.1 96 (bytesAt b 8 8)) 104 (bytesAt b 16 1)))
           { o.2.2 with ptOff := o.2.2.ptOff.filter (· != c) })))) ∧
     (s.runs r 0x0702 p = some (e, b) → o.2.2.ptValid c o.1 = true →
       exec (.placementClear r p) s = .next (s.withDev (reply r stOk 0 []
         (writeCtx c (nxByte 105 0 o.1) { o.2.2 with placing := mdel o.2.2.placing c })))))

/-- EYELET_EXPORT takes a free handle for the slice and stages its window; EYELET_REWRITE stages another window,
EYELET_WITHDRAW none; EYELET_QUERY hands the window over with its use; a rewrite replies once the old segments and the
flush behind them are done, and a withdrawn handle is free from then on (R330-R333). -/
def Obligations.EyeletCommandsRewriteWindows : Prop :=
  (∀ s r p e b h d, s.runs r 0x0801 p = some (e, b) → e.slice < 4096 → clean (windowFaults true b) = true →
    clean (importerFaults b s.dev) = true → (s.dev.eyeletsOf e.slice).length < ((s.dev.slice e.slice).map (·.eyelets)).getD 0 →
    nextHandle s.dev = (some h, d) →
    exec (.eyeletExport r p) s = .next (s.withDev (begin' r (stageWindow h (some (windowOf b)) (some r)
      { d with eyelets := mput d.eyelets h { exporter := e.slice }, freed := d.freed.filter (·.1 != h) })))) ∧
  (∀ s r p e b y, s.runs r 0x0802 p = some (e, b) → e.slice < 4096 → s.dev.eyelet (le b 18 2) = some y →
    y.exporter = e.slice → y.rewrite = none → clean (windowFaults false b) = true → clean (importerFaults b s.dev) = true →
    exec (.eyeletRewrite r p) s = .next (s.withDev
      (begin' r (stageWindow (le b 18 2) (some (windowOf b)) (some r) s.dev)))) ∧
  (∀ s r p e b y, s.runs r 0x0803 p = some (e, b) → e.slice < 4096 → s.dev.eyelet (le b 0 2) = some y →
    y.exporter = e.slice → y.rewrite = none → zeroAt b 2 2 = true →
    exec (.eyeletWithdraw r p) s = .next (s.withDev (begin' r (stageWindow (le b 0 2) none (some r) s.dev)))) ∧
  (∀ s r p e b y w, s.runs r 0x0804 p = some (e, b) → e.slice < 4096 → s.dev.eyelet (le b 0 2) = some y →
    y.exporter = e.slice → zeroAt b 2 6 = true → le b 8 8 % 64 = 0 →
    w = y.win.getD { base := 0, len := 0, perm := 0, importers := [] } →
    exec (.eyeletQuery r p) s = .next (s.withDev (reply r stOk 0
      [y.exporter + w.perm * 2 ^ 16 + w.importers.length * 2 ^ 24, y.flight.length, lo32 y.apply, hi32 y.apply,
       lo32 y.moved, hi32 y.moved] (ringData r [(le b 8 8, windowBytes (le b 0 2) w)] s.dev)))) ∧
  (∀ s (h : Fin 65536) y w r, s.dev.eyelet h = some y → y.rewrite = some w → w.applied = true → w.flush = false →
    (∀ x ∈ y.flight, x.old = false) → w.ring = some r →
    (w.withdraw = false → exec (.eyeletRewriteReply h) s = .next (s.withDev (updEyelet h (fun y => { y with rewrite := none })
      (reply r stOk 0 [h.val, 0, 0, 0, lo32 y.apply, hi32 y.apply] s.dev)))) ∧
    (w.withdraw = true → ∀ d, d = reply r stOk 0 [h.val, 0, 0, 0, lo32 y.apply, hi32 y.apply] s.dev →
      exec (.eyeletRewriteReply h) s = .next (s.withDev
        { d with eyelets := mdel d.eyelets h, freed := d.freed ++ [(h.val, d.time)] })))

/-- A segment of an eyelet job that passes the checks of R336 enters flight with its read; one that fails a check ends
with that status at once. A good end writes the data to the other side, a poisoned one with EP set, and each is
counted; the flushing read behind an XFER_WRITE lets its job complete (R334-R341). -/
def Obligations.EyeletSegmentsRun : Prop :=
  (∀ s (k : Fin 4096) q y x st n, s.dev.queue (.slice k) q = some y → y.job = some x → s.dev.mayStart (.slice k) y = true →
    x.failed = false → x.flushing = false → x.next < x.count → x.open_ < 16 →
    s.dev.segsOnDie (dieOfLink (s.dev.fnOf (.slice k))) < 1024 →
    n = { x with next := x.next + 1, segs := x.segs ++ [
      { idx := x.next, bytes := x.hi x.next - x.lo x.next, base := (((s.dev.eyelet x.handle).bind (·.win)).map (·.base)).getD 0 }] } →
    segCheck k n x.next s.dev = some st →
    exec (.xferSegmentStart (.slice k) q) s = .next (s.withDev
      (segSettle (.slice k) q x.next st (updQueue (.slice k) q (fun y => { y with xfer := some n }) s.dev)))) ∧
  (∀ s (k : Fin 4096) q y x n eye w src at' t d, s.dev.queue (.slice k) q = some y → y.job = some x →
    s.dev.mayStart (.slice k) y = true → x.failed = false → x.flushing = false → x.next < x.count → x.open_ < 16 →
    s.dev.segsOnDie (dieOfLink (s.dev.fnOf (.slice k))) < 1024 → s.dev.eyelet x.handle = some eye → eye.win = some w →
    n = { x with next := x.next + 1, segs := x.segs ++ [{ idx := x.next, bytes := x.hi x.next - x.lo x.next, base := w.base }] } →
    segCheck k n x.next s.dev = none →
    src = (if x.write then .slice k else .slice (fin 4096 eye.exporter)) →
    at' = (if x.write then localPieces (y.jobs.headD { descs := [], last := 0 }).descs (x.lo x.next - x.offset)
                            (x.hi x.next - x.lo x.next)
           else [(w.base + x.lo x.next, x.hi x.next - x.lo x.next)]) →
    t = (s.dev.fn (s.dev.fnOf src)).nextTag →
    d = each at' (fun a => hostRead (s.dev.fnOf src) (s.dev.pasidOf src) a.1 a.2 t)
      (newTag (s.dev.fnOf src) (.segment (.slice k) q x.next) (s.dev.pasidOf src)
        (updEyelet x.handle (fun e => { e with flight := e.flight ++ [{ q := qKey (.slice k) q, seg := x.next, write := x.write }] })
          (updQueue (.slice k) q (fun y => { y with xfer := some { n with exporter := some eye.exporter } }) s.dev))) →
    takeDenied (s.dev.fnOf src) t d = none →
    exec (.xferSegmentStart (.slice k) q) s = .next (s.withDev d)) ∧
  (∀ s o q k y x sg src, s.dev.queue o q = some y → y.xfer = some x →
    x.segs.find? (fun s => s.idx == k && s.status.isNone && s.landing.isNone) = some sg →
    src = (if x.write then s.dev.fnOf o else s.dev.fnOf (.slice (fin 4096 (x.exporter.getD 0)))) →
    (s.dev.fn src).reads.any (·.purpose == .segment o q k) = true →
    (∀ data, exec (.xferSegmentEnd o q k (.ok data)) s = .next (s.withDev (proceed (s.dev.fnOf o) (segLand o q k stOk
      (segWrite o q (y.jobs.headD { descs := [], last := 0 }).descs x k sg.base (x.exporter.getD 0) data false
        (dropReads src (.segment o q k) s.dev)))))) ∧
    (∀ data, exec (.xferSegmentEnd o q k (.poisoned data)) s = .next (s.withDev (proceed (s.dev.fnOf o) (segLand o q k stPoisoned
      (segWrite o q (y.jobs.headD { descs := [], last := 0 }).descs x k sg.base (x.exporter.getD 0) data true
        (dmaFail src (.poisoned data) (dropReads src (.segment o q k) s.dev))))))) ∧
    (∀ d, d = dropReads src (.segment o q k) s.dev → exec (.xferSegmentEnd o q k (.failed false true)) s =
      .next (s.withDev (proceed (s.dev.fnOf o) (segSettle o q k stTimeout (dmaFail (d.fnOf o) .timeout d)))))) ∧
  (∀ o q k st d x f, (d.queue o q).bind (·.xfer) = some x →
    f = (if x.write then d.fnOf (.slice (fin 4096 (x.exporter.getD 0))) else d.fnOf o) →
    (d.fn f).waits (.seg (qKey o q) k) = false →
    segLand o q k st d = segSettle o q k (((d.fn f).xbad.find? (·.1 == .seg (qKey o q) k)).elim st (·.2)) d) ∧
  (∀ s (f : Fin 32) tag, s.dev.flushOpen f tag = true →
    exec (.eyeletFlushReadDone f tag) s = .next (s.withDev (proceed f (flushEnd f tag stOk s.dev))))

/-! ### Credit, integrity, domains (chapters 15, 19, 20) -/

/-- POLICER_SET stages settings that take effect, and are answered, at the first refill boundary behind their staging; a
refill boundary brings the policer to that moment (R343, R349). NODE_SET stages a node's settings for its refill
boundary; the boundary installs them; a node that is unbinding returns to its slice once it is empty; NODE_QUERY
answers its credit, its bytes and its drops, which it clears (R356-R358). -/
def Obligations.CreditSettingsTakeEffectAtBoundaries : Prop :=
  ((∀ s p e b k d i l, s.runs .manager 0x0901 p = some (e, b) → clean (policerFaults b) = true →
     drawStaging s.dev = (k, d) →
     ((s.dev.slice e.slice = none ∧ le b 0 4 < 262144 ∧ i = le b 0 4) ∨
      (∃ x, s.dev.slice e.slice = some x ∧ le b 0 4 < x.pLen ∧ i = x.pBase + le b 0 4)) →
     l = [byteAt b 4 % 2, byteAt b 5, le b 8 4, le b 12 4, le b 16 4, le b 20 4, byteAt b 4 / 2 % 2,
       boundary 1024 (s.dev.time + k)] →
     exec (.policerSet .manager p) s = .next (s.withDev (updPolicer i (fun x => { x with staged := some (l, .manager) })
       (begin' .manager d)))) ∧
   (∀ s p l r, p < 262144 → (s.dev.policer p).staged = some (l, r) →
     exec (.policerRefill p) s = .next (s.withDev (policerSettle p (timeTo (l.getD 7 0) s.dev)))) ∧
   (∀ s p, p < 262144 → (s.dev.policer p).staged = none →
     exec (.policerRefill p) s = .next (s.withDev (policerSettle p (timeTo ((s.dev.time / 1024 + 1) * 1024) s.dev)))) ∧
   (∀ p d l r, (d.policer p).staged = some (l, r) → l.getD 7 0 ≤ d.time →
     policerSettle p d = (let d' := reply r stOk 0 [p] (updPolicer p (fun x => x.install l (l.getD 7 0 / 1024)) d)
       updPolicer p (fun x => x.credit (d'.time / 1024)) d'))) ∧
  ((∀ s p e b k d n l, s.runs .manager 0x0902 p = some (e, b) → clean (nameFaults e b) = true → clean (nodeFaults b) = true →
     nodeAnswer e b s.dev = none → (byteAt b 6 % 4 ≠ 0 → le b 4 2 ≠ 0xFFFF ∧ byteAt b 6 % 4 ≠ 3) → n = nodeNamed e.slice b →
     drawStaging s.dev = (k, d) →
     l = padTo 48 b ++ leBytes 8 (boundary (nodeInterval n) (s.dev.time + k)) →
     exec (.nodeSet .manager p) s = .next (s.withDev (updNode n (fun x => { x with staged := some (l, .manager) })
       (begin' .manager d)))) ∧
   (∀ s n b r, (s.dev.node n).staged = some (b, r) →
     exec (.nodeRefill n) s = .next (s.withDev (nodeSettle n (timeTo (le b 48 8) s.dev)))) ∧
   (∀ s n, (s.dev.node n).staged = none →
     exec (.nodeRefill n) s = .next (s.withDev
       (nodeSettle n (timeTo ((s.dev.time / nodeInterval n + 1) * nodeInterval n) s.dev)))) ∧
   (∀ s k n r t, (s.dev.node (.slice k n)).unbinding = some (some r, t) → s.dev.waiting (.slice k n) = [] →
     exec (.nodeUnbindDrained k n) s = .next (s.withDev
       (reply r stOk 0 [0, 0, 0, 0, lo32 t, hi32 t] (forgetNode (.slice k n) s.dev)))) ∧
   (∀ s p e b n d, s.runs .manager 0x0903 p = some (e, b) → clean (nameFaults e b) = true → badBytes b 6 2 = none →
     nodeAnswer e (padTo 48 (b.take 6)) s.dev = none → n = nodeNamed e.slice b → d = nodeSettle n s.dev →
     exec (.nodeQuery .manager p) s = .next (s.withDev (reply .manager stOk 0 (nodeWords n d)
       (updNode n (fun x => { x with drops := 0 }) d)))))

/-- A scrub starts on a memory that none runs on, from the ring or from its registers; its end reads every word of its
range, those of the test window left out, and reports the words corrected, the bad ones and the first of them (R429,
R430). The checker's test registers act on the word they name, anywhere without the field lock and inside the test
window with it: a raw write stores data and check bits as given, a raw read returns them, a checked read judges the
word and rewrites it (R432, R480). -/
def Obligations.ScrubsAndTestRegistersActOnWords : Prop :=
  ((∀ s p e b m (x : Scrub), s.runs .manager 0x0B01 p = some (e, b) → m = byteAt b 0 → zeroAt b 1 7 = true →
     scrubFault m (le b 8 8) (le b 16 8) = none → mfind s.dev.scrubs m = none →
     x = { start := le b 8 8, len := le b 16 8, began := s.dev.time, ring := some .manager } →
     exec (.scrub .manager p) s = .next (s.withDev (begin' .manager { s.dev with scrubs := mput s.dev.scrubs m x }))) ∧
   (∀ s q v m d, s.reaches q 0xE002000 = true → managerOr03 q = true → s.dev.scrubBusy = false → v.getLsbD 31 = true →
     m = wbits v 3 0 →
     d = setReg 0xE00202C 0 (setReg64 0xE002024 (2 ^ 64 - 1) (setReg 0xE002020 0 (setReg 0xE00201C 0 (setReg 0xE002018 0
       (setReg 0xE002000 (word m) s.dev))))) →
     scrubFault m (d.reg64 0xE002008) (d.reg64 0xE002010) = none → mfind d.scrubs m = none →
     exec (.scrubGo q v) s = .next (s.withDev { setReg 0xE002004 (word (2 ^ 31 + stPending)) d with
       scrubs := mput d.scrubs m { start := d.reg64 0xE002008, len := d.reg64 0xE002010, began := d.time, ring := none } })) ∧
   (∀ s (m : Fin 12) x r n d w, mfind s.dev.scrubs m = some x → x.ring = some r → n = scrubWords m x.start x.len →
     d = timeTo (x.began + scrubTime m (8 * n)) s.dev →
     w = scrubWalk m (d.dirtyWords m x.start x.len) { d with scrubs := mdel d.scrubs m } →
     exec (.scrubDone m) s = .next (s.withDev (reply r stOk 0
       [n, w.1.corrected, w.1.bad, lo32 w.1.first, hi32 w.1.first, (d.time - x.began) / 1000] w.2)))) ∧
  (∀ s q m o, s.reaches q 0xE003018 = true → managerOr03 q = true → m = s.dev.fld 0xE003000 3 0 → o = s.dev.reg64 0xE003004 →
     o % 8 = 0 → o < memSize m → (s.nv.fieldLock = true → inTest m o = true) →
     exec (.testRawWrite q) s = .next (s.withDev (setReg aTestStatus (word stOk)
       (when (decide (8 ≤ m)) (hbmTouched ((m - 8) * 2 ^ 34 + o))
         (storeRaw m o (s.dev.reg64 0xE00300C) (s.dev.fld 0xE003014 7 0) s.dev)))) ∧
     exec (.testRawRead q) s = .next (s.withDev (setReg aTestStatus (word stOk)
       (setReg 0xE003014 (word (s.dev.rawWord m o).2) (setReg64 0xE00300C (s.dev.rawWord m o).1 s.dev)))) ∧
     (∀ r, r = eccJudge (s.dev.rawWord m o).1 (s.dev.rawWord m o).2 →
       exec (.testCheckedRead q) s = .next (s.withDev (setReg aTestStatus
         (word (2 ^ 24 * r.bit + 2 ^ 16 * r.syndrome + 2 ^ 8 * r.outcome + stOk))
         (setReg 0xE003014 (word (s.dev.rawWord m o).2) (setReg64 0xE00300C r.data
           (eccRewrite m o (s.dev.rawWord m o).2 r (when (s.dev.flag 0xE003000 31) (eccReport m o r) s.dev))))))))

/-- FLIP_CTRL keeps its fields, ANYWHERE only without the field lock; SPARE_ADD and SPARE_REMOVE make and end a volatile
repair of the unit named, its words read through the checker (R433, R435). SPARE_COMMIT burns the memory's uncommitted
repairs in order until one fails, writes one record to the log, and answers how many were burnt and how many fuse
slots are left (R436). -/
def Obligations.FlipSpareAndCommitRepair : Prop :=
  ((∀ s q v, s.reaches q 0xE00310C = true → managerOr03 q = true → (s.nv.fieldLock = true → v.getLsbD 30 = false) →
     exec (.flipCtrlWrite q v) s = .next (s.withDev (setReg 0xE00310C (v &&& 0xC000000F) s.dev))) ∧
   (∀ s q v, s.reaches q 0xE00310C = true → managerOr03 q = true → s.nv.fieldLock = true → v.getLsbD 30 = true →
     exec (.flipCtrlWrite q v) s = .next (s.withDev (count aMemErr (setReg 0xE00310C (v &&& 0x8000000F) s.dev)))) ∧
   (∀ s q (m : Fin 16) u d, s.reaches q 0xE004000 = true → managerOr03 q = true →
     d = setReg 0xE004000 (word (2 ^ 31 + 0x100 + m) &&& 0x30F) s.dev → u = d.reg64 0xE004004 → u < memSize m →
     repaired s.nv d m u = false → d.volatileUsed m < volatileCap m →
     exec (.spareAdd q m) s = .next (s.withDev (setReg 0xE00400C (word stOk) { copyUnit m u d with
       repairs := (copyUnit m u d).repairs ++ [{ mem := m, unit := u }] }))) ∧
   (∀ s q (m : Fin 16) u d, s.reaches q 0xE004000 = true → managerOr03 q = true →
     d = setReg 0xE004000 (word (2 ^ 31 + 0x200 + m) &&& 0x30F) s.dev → u = d.reg64 0xE004004 → u < memSize m →
     repaired s.nv d m u = true → committedAt s.nv d m u = false →
     exec (.spareRemove q m) s = .next (s.withDev (setReg 0xE00400C (word stOk) { copyUnit m u d with
       repairs := (copyUnit m u d).repairs.filter fun r => !(r.mem == m.val && r.unit == u) })))) ∧
  (∀ s p bads e b m x, s.runs .manager 0x0B02 p = some (e, b) → m = byteAt b 0 → m ≤ 11 → zeroAt b 1 3 = true →
     x = commitAll m bads (s.dev.repairs.filter fun y => y.mem == m && !y.committed) 0 (s.nv, s.dev) →
     exec (.spareCommit .manager p bads) s = .next { s with
       nv := logAppend 6 m x.1.2.2 s.dev.time x.2.1
       dev := reply .manager x.1.1 x.1.2.1 [x.1.2.2, 16 - slotsUsed x.2.1 m] x.2.2 })

/-- The check code: what a fresh check byte protects reads back clean; one bit inverted anywhere in the word is corrected,
and named; two bits inverted in the data are never read as good (R421, R422). A word stored through the checker reads
back as it was stored, unharmed, unless the flip mask was armed for it; a poisoned store reads back as poisoned; and
every byte outside the word stays (R422, R423). -/
def Obligations.StoredWordsAreCheckedAndCorrected : Prop :=
  (∀ w < 2 ^ 64,
     eccJudge w (eccCheck w) = ⟨0, 0, w, 0⟩ ∧
     (∀ i < 64, (eccJudge (w ^^^ 2 ^ i) (eccCheck w)).outcome = 1 ∧ (eccJudge (w ^^^ 2 ^ i) (eccCheck w)).data = w ∧
       (eccJudge (w ^^^ 2 ^ i) (eccCheck w)).bit = i) ∧
     (∀ j < 8, (eccJudge w (eccCheck w ^^^ 2 ^ j)).outcome = 1 ∧ (eccJudge w (eccCheck w ^^^ 2 ^ j)).data = w ∧
       (eccJudge w (eccCheck w ^^^ 2 ^ j)).bit = 64 + j) ∧
     (∀ i < 64, ∀ k < 64, i ≠ k → 2 ≤ (eccJudge (w ^^^ 2 ^ i ^^^ 2 ^ k) (eccCheck w)).outcome) ∧
     (eccJudge w (eccCheck w ^^^ 0xA5)).outcome = 3) ∧
  (∀ m o v p f d, o % 8 = 0 → v < 2 ^ 64 → d.flag 0xE00310C 31 = false →
     ((storeWord m o v p f d).rawWord m o).1 = v ∧
     (readWord m o (storeWord m o v p f d)).1.data = v ∧
     (readWord m o (storeWord m o v p f d)).1.outcome = (if p then 3 else 0) ∧
     (∀ k, (∀ i < 8, k ≠ memKey m (o + i)) → cellAt (storeWord m o v p f d).mem k = cellAt d.mem k) ∧
     (∀ k, k ≠ memKey m o / 8 → cellAt (storeWord m o v p f d).chk k = cellAt d.chk k))

/-- DOMAIN_SET begins a domain's change, which its end reports with the domain's bit, DOMAIN_EVENT and the reply; a domain
already there replies at once with all ones (R458, R459). -/
def Obligations.DomainsTurnOffAndOn : Prop :=
  (∀ s p e b, s.runs .manager 0x0C01 p = some (e, b) →
    domainFault (byteAt b 0) (byteAt b 1) (byteAt b 2) (byteAt b 3) s.dev = none →
    (s.dev.domainOn (byteAt b 0) (byteAt b 1) = decide (byteAt b 2 = 1) →
      exec (.domainSet .manager p) s = .next (s.withDev (reply .manager stOk 0 [0xFFFFFFFF] s.dev))) ∧
    (s.dev.domainOn (byteAt b 0) (byteAt b 1) ≠ decide (byteAt b 2 = 1) →
      exec (.domainSet .manager p) s = .next (s.withDev (updPower (fun x =>
        { x with domain := some (byteAt b 0, byteAt b 1, decide (byteAt b 2 = 1), .manager) })
        (setReg 0xF80040C (word (2 ^ 31 + 256 * byteAt b 0 + byteAt b 1)) (begin' .manager s.dev)))))) ∧
  (∀ s k i r x, s.dev.power.domain = some (k, i, false, r) → k < 3 →
    x = (if k = 2 then groupBindOff i s.dev else unitBindOff i (k == 1) s.dev) →
    exec .bindOff s = .next (s.withDev (reply r stOk 0 [x.1.1, x.1.2] (sourcePulse 207 (raise 0x13 k i 0
      (updPower (fun x => { x with domain := none }) (setReg 0xF80040C 0
        (setFlag (domainBit k i).1 (domainBit k i).2 false (countBy 0xF800414 x.1.1 x.2))))))))) ∧
  (∀ s i r x, s.dev.power.domain = some (3, i, false, r) → x = linkBindOff i s.dev →
    exec .bindOff s = .next (s.withDev (reply r stOk 0 [x.1.1, x.1.2] (sourcePulse 207 (raise 0x13 3 i 0
      (updPower (fun x => { x with domain := none }) (setReg 0xF80040C 0
        (setFlag (domainBit 3 i).1 (domainBit 3 i).2 false (countBy 0xF800414 x.1.1 (countBy 0xF800410 x.1.2 x.2)))))))))) ∧
  (∀ s k i r, s.dev.power.domain = some (k, i, true, r) → k ≠ 2 →
    exec .domainPowerUpDone s = .next (s.withDev (reply r stOk 0 [] (sourcePulse 207 (raise 0x13 k i 1
      (updPower (fun x => { x with domain := none }) (setReg 0xF80040C 0
        (setFlag (domainBit k i).1 (domainBit k i).2 true s.dev))))))))

/-! ### Queues at work, the host function (chapters 4 and 5) -/

/-- SQ_DB moves the tail of a running queue to a valid position, is without effect on a halted one, and counts and reports
any other value; CQ_HEAD moves the head and lets what waits for room go on; the moderation timer triggers the ring's
interrupt at its due time (R112, R113, R127, R128). A fetch turn goes to the owner and the queue that weighted round
robin chooses, and asks for up to BURST of that queue's descriptors (R122); descriptors that have all come make up
chains and jobs in their order (R115, R117). -/
def Obligations.QueueDoorbellsAndFetches : Prop :=
  ((∀ s o q v x t, s.comes (some (s.dev.fnOf o)) = true → s.dev.ownerExists o = true → s.dev.queue o q = some x →
     x.reason = none → tailValid x.n x.head x.tail (wbits v 16 0) = some t →
     exec (.sqDbWrite o q v) s = .next (s.withDev (updQueue o q (fun x => { x with tail := t }) s.dev))) ∧
   (∀ s o q v x, s.comes (some (s.dev.fnOf o)) = true → s.dev.ownerExists o = true → s.dev.queue o q = some x →
     x.reason.isSome = true → exec (.sqDbWrite o q v) s = .next s) ∧
   (∀ s o q v x, s.comes (some (s.dev.fnOf o)) = true → s.dev.ownerExists o = true → s.dev.queue o q = some x →
     x.reason = none → tailValid x.n x.head x.tail (wbits v 16 0) = none →
     exec (.sqDbWrite o q v) s = .next (s.withDev (fnEvent (s.dev.fnOf o) 3 (s.dev.localIdx o) q v.toNat
       (count (aFn (s.dev.fnOf o) 0x4114) s.dev)))) ∧
   (∀ s o c v x h, s.comes (some (s.dev.fnOf o)) = true → s.dev.ownerExists o = true → s.dev.cq o c = some x →
     headValid x.n x.head x.wpos (wbits v 16 0) = some h →
     exec (.cqHeadWrite o c v) s = .next (s.withDev (cqRoom o c (updCq o c (fun y =>
       { y with head := h, stalled := y.stalled && h == x.head }) s.dev)))) ∧
   (∀ s o c x t, s.dev.cq o c = some x → x.due = some t →
     exec (.moderationTimer o c) s = .next (s.withDev (cqTrigger o c (timeTo t s.dev))))) ∧
  ((∀ s (f : Fin 32) os l1 k rd ps o d l2 q rd' ps', os = s.dev.ownersOf f →
     l1 = os.map (fun o => (⟨ownerKey o, s.dev.ownerWeight o, s.dev.eligibleOwner o⟩ : Part)) →
     wrr l1 (maxWeight l1) (maxWeight l1 + 1) (s.dev.fn f).round (s.dev.fn f).served = some (k, rd, ps) →
     os.find? (fun o => ownerKey o == k) = some o → d = updFn f (fun x => { x with round := rd, served := ps }) s.dev →
     l2 = (d.queuesOf o).map (fun q => (⟨q, ((d.queue o q).map (·.weight)).getD 0, d.eligible o q⟩ : Part)) →
     wrr l2 (maxWeight l2) (maxWeight l2 + 1) (d.owner o).round (d.owner o).served = some (q, rd', ps') →
     exec (.fetchTurn f) s = .next (s.withDev (fetchDescs o q (((d.queue o q).map (·.burst)).getD 0)
       (updOwner o (fun y => { y with round := rd', served := ps' }) d)))) ∧
   (∀ s o q data x g d1 d2, s.dev.queue o q = some x → x.fetching = [g] → g.got = [] → data.length = 32 * g.n →
     d1 = each (List.range g.n) (fun j d => updQueue o q (fun x =>
         { takeDesc o x.kind (x.fetch % x.n) (bytesAt data (32 * j) 32) d x with fetch := ringAdd x.n x.fetch 1 }) d)
       (updQueue o q (fun x => { x with fetching := [{ g with got := data }] }) s.dev) →
     d2 = dropTag (s.dev.fnOf o) g.tag (updQueue o q (fun x => { x with fetching := x.fetching.tail }) d1) →
     exec (.descriptorFetchDone o q data) s = .next (s.withDev (proceed (s.dev.fnOf o) (settleQueue o q
       (when (match d2.queue o q with | some x => !x.chain.isEmpty && x.unread > 0 && x.fetching.isEmpty | none => false)
         (fetchDescs o q 1) d2))))))

/-- The oldest TX job's data, once it has come, is sent as the packets its descriptor makes of it, and the job completes;
a job bound to a context is judged and filled for it first; poisoned data is sent on with its mark; a read that failed
ends the job with its status (R92, R93, R116, R315). The oldest packet waiting for a host link is placed into the
buffers reserved for it: its data and, behind it, its completion entry are written and its meters counted; a packet
that no buffers hold, or whose ring has no room, is dropped and counted (R123-R125). -/
def Obligations.PacketsLeaveAndReachHostMemory : Prop :=
  (∀ s o q x j js ds f, s.dev.queue o q = some x → x.jobs = j :: js → x.kind = .tx → j.fault = none →
     ds = j.descs.headD [] → dOp ds = 1 → s.dev.ownerMay o = true → f = s.dev.fnOf o →
     ((s.dev.jobCtx o ds).map s.dev.ctxHeld).getD false = false →
     s.dev.direct f (j.descs.map fun b => (dAddr b, dLen b)) = true →
     (∀ b data job y, data = padTo (jobLen j.descs) b → job = txVlan ds data →
       y = (parsePacket s.dev.gens.rules.pol [] job (0x1000 + f) 0xFFFF none false false).raw →
       (bit (byteAt ds 1) 3 = true → y.tcpHdr.isSome = true) →
       (s.dev.jobCtx o ds = none →
         exec (.txJob o q (.ok b)) s = .next (s.withDev (settleQueue o q (endJob o q stOk 0 data.length
           (each (txPackets y ds job) (fun b => addPacket (txPacket o f (byteAt ds 24 % 8) false none b)) s.dev))))) ∧
       (∀ c, s.dev.jobCtx o ds = some c →
         exec (.txJob o q (.ok b)) s = .next (s.withDev (settleQueue o q (txBound o q c j.descs y job data.length s.dev)))) ∧
       exec (.txJob o q (.poisoned b)) s = .next (s.withDev (settleQueue o q (endJob o q stPoisoned 0 data.length
         (each (txPackets y ds job) (fun b => addPacket (txPacket o f (byteAt ds 24 % 8) true (s.dev.jobCtx o ds) b))
           (dmaFail f (.poisoned b) s.dev)))))) ∧
     (∀ b data job, data = padTo (jobLen j.descs) b → job = txVlan ds data → bit (byteAt ds 1) 3 = true →
       (parsePacket s.dev.gens.rules.pol [] job (0x1000 + f) 0xFFFF none false false).raw.tcpHdr = none →
       exec (.txJob o q (.ok b)) s = .next (s.withDev (settleQueue o q (endJob o q stBadParam 1 data.length s.dev)))) ∧
     (∀ r, r = .denied ∨ r = .aborted ∨ r = .timeout →
       exec (.txJob o q r) s = .next (s.withDev (settleQueue o q (endJob o q (readStatus r) 0 0 (dmaFail f r s.dev)))))) ∧
  (∀ s i p f o q q' h x b l, s.dev.packet i = some p → p.loc = .hostOut f →
     (s.dev.pkts.takeWhile (·.id != i)).any (fun x => x.loc == .hostOut f) = false → s.dev.hlOn f = true →
     p.receiver = some (o, q) → (s.dev.fn f).parked = false → s.dev.sliceTakes o = true → s.dev.dlUp f = true →
     (s.dev.link f).resetting = false → (s.dev.fn f).flr = false → (s.dev.fn f).bme = true →
     (∀ k, o = .slice k → (s.dev.fn f).pasidEn = true) → rxQueue o q p s.dev = (some q', h) →
     s.dev.queue o q' = some x → x.kind = .rx → x.reason = none → l = (chunks 32 b).take x.unread →
     (s.dev.cqShut o x.cq = true → exec (.rxPlacement i (.ok b)) s = .next (s.withDev (rxDrop o p 0x4104 true
       (updQueue o q' (fun x => { x with cqFull := min (x.cqFull + 1) 0xFFFF }) s.dev)))) ∧
     (s.dev.cqShut o x.cq = false →
       s.dev.direct (s.dev.fnOf o) (ringRange x.base 32 x.n x.fetch (min 64 x.unread)) = true →
       rxFaulty o q' l s.dev = (l, s.dev) →
       (∀ bufs, rxReserve x.rxMeta (p.bytes.length + (if x.rxMeta then 32 else 0)) 64 l = some bufs →
         ∀ i' d1 d2 d3, i' = newData (s.dev.fnOf o) s.dev →
         d1 = each (rxFill bufs ((if x.rxMeta then rxMetadata p h else []) ++ p.bytes)) (fun w =>
           hostWriteAs (.data i'.1) (s.dev.fnOf o) (s.dev.pasidOf o) w.1 w.2 true p.poisoned) i'.2 →
         d2 = complete o x.cq
           { tag := dTag (bufs.headD []), index := (x.fetch + bufs.length - 1) % x.n, queue := q', len := p.bytes.length,
             status := if p.poisoned then stPoisoned else stOk, bufs := bufs.length, type := 1, run := x.run,
             data := some i'.1 } (updQueue o q' (fun x => { x with fetch := ringAdd x.n x.fetch bufs.length }) d1) →
         d3 = endPacket p (match o with | .slice s => meter s 3 p.bytes.length (meter s 2 1 d2) | .function _ => d2) →
         exec (.rxPlacement i (.ok b)) s = .next (s.withDev (rxFaulty o q' (l.drop bufs.length) d3).2)) ∧
       (rxReserve x.rxMeta (p.bytes.length + (if x.rxMeta then 32 else 0)) 64 l = none →
         exec (.rxPlacement i (.ok b)) s = .next (s.withDev (rxDrop o p 0x4100 true
           (updQueue o q' (fun x => { x with noBuf := min (x.noBuf + 1) 0xFFFF }) s.dev))))))

/-- A configuration write to a function that exists, with the link up, the device ready and no FLR running, has its effect
and is completed, at once or, where it clears Bus Master Enable or enters D3hot, when what R98 and R100 let end first
has ended: Bus Master Enable to 0 stops the function, ends its exporter segments, drops its reads and, once closed,
halts its queues with reason 1; to 1 it lets what is held go on; the power state, PASID Enable and ATS Enable change
as their rules say (R95, R96, R98, R100, R101). -/
def Obligations.FunctionEnablesTakeEffect : Prop :=
  (∀ s (f : Fin 32) (done : Dev → State), s.dev.fnExists f = true → s.dev.dlUp f = true → s.dev.ready = true →
    (s.dev.fn f).flr = false → (s.dev.fn f).closing = none →
    (∀ d, done d = s.withDev (if (d.fn f).closing.isSome then when (d.closes f) (closeNow f) d
                              else emit (.completion f 0 [] false) d)) →
    ((s.dev.fn f).bme = true → exec (.busMasterDisable f) s = .next (done (advance f (msixPark f
      (updFn f (fun x => { x with
          reads := x.reads.filter (·.purpose == .translation), xdenied := [], xnone := []
          xq := x.xq.filter fun r => match r.out with | .memRead _ _ _ _ _ => false | _ => true })
        (fnStop f stAborted (updFn f (fun x => { x with
          bme := false, closing := some { d3 := false, due := s.dev.time + 2000 } }) s.dev))))))) ∧
    ((s.dev.fn f).bme = false → exec (.busMasterEnable f) s = .next (done
      (resumeHeld f (updFn f (fun x => { x with bme := true }) s.dev)))) ∧
    ((s.dev.fn f).d3 = false → exec (.d3hotEntry f) s = .next (done (advance f (msixPark f
      (each ((s.dev.fn f).reads.filterMap fun r => match r.purpose with | .flush _ _ => some r.tag | _ => none)
        (fun t => flushEnd f t stAborted)
        (abortFlights (fun e _ => s.dev.sliceOfFn f e.exporter) stAborted
          (updFn f (fun x => { x with closing := some { d3 := true, due := s.dev.time + 100000 } }) s.dev))))))) ∧
    ((s.dev.fn f).d3 = true → exec (.d0Return f) s = .next (done (resumeHeld f
      (setHlState f (if s.dev.hlState f = 6 then 4 else s.dev.hlState f)
        (unpark f (updFn f (fun x => { x with d3 := false }) s.dev)))))) ∧
    ((s.dev.fn f).pasidEn = false → exec (.pasidEnableWrite f true) s = .next (done
      (resumeHeld f (updFn f (fun x => { x with pasidEn := true }) s.dev)))) ∧
    ((s.dev.fn f).pasidEn = true → exec (.pasidEnableWrite f false) s = .next (done
      (fnStop f stAborted (updFn f (fun x => { x with pasidEn := false }) s.dev)))) ∧
    exec (.atsEnableWrite f true) s = .next (done (updFn f (fun x => { x with atsEn := true }) s.dev)) ∧
    exec (.atsEnableWrite f false) s = .next (done (advance f (updFn f (fun x => { x with
      atsEn := false, atc := [], xnone := [], xq := x.xq.map fun r => { r with wait := none }
      reads := x.reads.filter (·.purpose != .translation) }) s.dev))) ∧
    exec (.msixUnmask f none) s = .next (done (msixFlush f (updFn f (fun x => { x with msixMask := false }) s.dev)))) ∧
  (∀ d f c, (d.fn f).closing = some c →
    (c.d3 = false → closeNow f d = emit (.completion f 0 [] false) (bmeHalted f d)) ∧
    (c.d3 = true → closeNow f d = emit (.completion f 0 [] false) (setHlState f 6
      (updFn f (fun x => { x with closing := none, d3 := true, parked := true, woken := false, waking := false })
        (each (d.ownersOf f) (fun o d => each (d.cqsOf o) (moderationPark o) d) d)))))

/-- FLR completes its configuration write, and the function falls silent; its end resets the function and its slices,
unless one of them still runs a Slice Reset. MSI-X vectors are unmasked in BAR4 (R89, R99). PM_PME is sent again 100
ms after it was last sent, while the function is in D3hot with PME_Status 1 and its link up; WAKE_N is released 5 s
after it was driven (R75, R102). -/
def Obligations.FunctionResetsAndWakes : Prop :=
  ((∀ s (f : Fin 32) d, s.dev.fnExists f = true → s.dev.dlUp f = true → s.dev.ready = true → (s.dev.fn f).flr = false →
     d = unpark f (readsDrop f (queuesStop f (fnStop f stAborted
       (updFn f (fun x => { x with flr := true, invals := [] }) (closeDrop f s.dev))))) →
     exec (.flr f) s = .next (s.withDev (if (d.fn f).closing.isSome then when (d.closes f) (closeNow f) d
                                         else emit (.completion f 0 [] false) d))) ∧
   (∀ s (f : Fin 32), (s.dev.fn f).flr = true →
     (∀ k ∈ s.dev.slicesOf f, ∀ x, s.dev.slice k = some x → x.state ≠ .resetting) →
     exec (.flrDone f) s = .next (s.withDev (fnStateReset f s.dev))) ∧
   (∀ f d, ((fnStateReset f d).fn f).flr = false ∧ ((fnStateReset f d).fn f).bme = false ∧
     ((fnStateReset f d).fn f).mse = false ∧ ((fnStateReset f d).fn f).msixEn = false ∧
     ((fnStateReset f d).fn f).pasidEn = false ∧ ((fnStateReset f d).fn f).atsEn = false ∧
     ((fnStateReset f d).fn f).feq = {}) ∧
   (∀ s (f : Fin 32) (v : Fin 2048), s.dev.fnExists f = true → s.dev.dlUp f = true → (s.dev.fn f).mse = true →
     (s.dev.fn f).flr = false →
     exec (.msixUnmask f (some v)) s = .next (s.withDev (msixFlush f
       (updFn f (fun x => { x with vecs := mupd {} x.vecs v fun e => { e with masked := false } }) s.dev))))) ∧
  ((∀ s (f : Fin 32), (s.dev.fn f).d3 = true → (s.dev.fn f).pmeStatus = true → s.dev.dlUp f = true →
     exec (.pmeResend f) s = .next (s.withDev (sendPme f (timeTo ((s.dev.fn f).pmeAt + 100000000) s.dev)))) ∧
   (∀ s (f : Fin 32) t, (s.dev.link f).wakeSince = some t →
     exec (.wakeTimeout f) s = .next (s.withDev (connBit f 15 (updFn f (fun x => { x with waking := false, woken := false })
       (emit (.wakeN f false) (updLink f (fun x => { x with wakeSince := none }) (timeTo (t + 5000000000) s.dev))))))))

/-- A translation that comes fills the ATC and lets the waiting requests go; a completion that matches no tag counts and
is an Unexpected Completion; one that matches serves its read: descriptors, job data, a segment's data, a flushing
read; a timeout runs from when the read was sent, and is reported with its transfer's end (R92, R93, R96). An
invalidation bars the translations it names and notes the reads already sent with them; once they are over, or after
40 µs, the Invalidation Completion is sent (R97). -/
def Obligations.ReadsAndInvalidationsEnd : Prop :=
  ((∀ s (f : Fin 32) tag base len xlat rd wr r, (s.dev.fn f).readOf tag = some r → r.purpose = .translation →
     exec (.translationCompletion f tag base len xlat rd wr) s = .next (s.withDev (proceed f
       (updFn f (fun x => { x with
         reads := x.reads.filter (·.tag != tag)
         atc := (AtcEntry.mk r.pasid base len xlat rd wr :: x.atc).take 8192
         xq := x.xq.map fun r => if r.wait = some tag then { r with wait := none } else r }) s.dev)))) ∧
   (∀ s (f : Fin 32) tag res, s.dev.fnExists f = true → s.dev.dlUp f = true → (s.dev.fn f).readOf tag = none →
     exec (.readCompletion f tag res) s = .next (s.withDev (aerUnc f erUnexpected true (count (aFn f 0x14) s.dev)))) ∧
   (∀ s (f : Fin 32) tag r, s.dev.fnExists f = true → s.dev.dlUp f = true → (s.dev.fn f).readOf tag = some r →
     (∀ o q b, r.purpose = .descriptors o q →
       exec (.readCompletion f tag (.ok b)) s = .next (s.withDev (proceed f (descsArrive o q tag b s.dev)))) ∧
     (∀ o q res, r.purpose = .jobData o q →
       exec (.readCompletion f tag res) s = .next (s.withDev (proceed f (txJob o q res s.dev)))) ∧
     (∀ o q k b, r.purpose = .segment o q k →
       exec (.readCompletion f tag (.ok b)) s = .next (s.withDev (proceed f (segmentEnd o q k (.ok b) s.dev)))) ∧
     (∀ h js, r.purpose = .flush h js →
       exec (.readCompletion f tag (.ok [])) s = .next (s.withDev (proceed f (flushEnd f tag stOk s.dev)))) ∧
     (r.purpose = .translation → ∀ b, exec (.readCompletion f tag (.ok b)) s = .next s)) ∧
   (∀ s (f : Fin 32) tag r o q d, (s.dev.fn f).readOf tag = some r → r.sent.isEmpty = false →
     d = timeTo (r.start + (s.dev.fn f).cplLimit tag) s.dev → (d.fn f).readOf tag = some r → r.purpose = .descriptors o q →
     exec (.completionTimeout f tag) s = .next (s.withDev (proceed f (fetchFailed o q .timeout
       (dmaFail f .timeout (dropTag f tag d))))))) ∧
  ((∀ s (f : Fin 32) itag pasid base len sent, s.dev.fnExists f = true → s.dev.dlUp f = true → (s.dev.fn f).flr = false →
     sent = (s.dev.fn f).reads.filter (fun r => r.purpose != .translation && r.pasid == pasid &&
       r.sent.any fun p => (s.dev.fn f).atc.any fun e => invalHits pasid base len e && e.base ≤ p.1 && p.1 < e.base + e.len) →
     exec (.atsInvalidation f itag pasid base len) s = .next (s.withDev (updFn f (fun x => { x with
       atc := x.atc.filter fun e => !invalHits pasid base len e
       invals := x.invals.filter (·.itag != itag) ++ [{ itag := itag, start := s.dev.time, open_ := sent.map (·.tag) }] })
       (count (aFn f 0x24) s.dev)))) ∧
   (∀ s (f : Fin 32) itag v, s.dev.fnExists f = true → s.dev.dlUp f = true → (s.dev.fn f).flr = false →
     (s.dev.fn f).invals.find? (·.itag == itag) = some v →
     ((∀ t ∈ v.open_, (s.dev.fn f).readOf t = none) →
       exec (.atsInvalidationDone f itag) s = .next (s.withDev (emit (.invalidated f itag)
         (updFn f (fun x => { x with invals := x.invals.filter (·.itag != itag) }) (proceed f s.dev))))) ∧
     (∀ l, l = v.open_.filter (fun t => ((s.dev.fn f).readOf t).isSome) → l ≠ [] →
       exec (.atsInvalidationDone f itag) s = .next (s.withDev (emit (.invalidated f itag)
         (updFn f (fun x => { x with invals := x.invals.filter (·.itag != itag) }) (proceed f
           (each l (fun t d => serveRead f t .timeout (count (aFn f 0x28) d)) (timeTo (v.start + 40000) s.dev)))))))))

/-- A configuration read answers the register, a configuration write changes it, for a host's function and for the
manager's; before the device is ready and during FLR both answer Request Retry Status; a write that starts an FLR
completes the one still waiting, and one that closes the function is completed when it has closed (R34, R73, R81, R90,
R98-R100). A request of a host reaches its function's BARs with Memory Space Enable, and is an Unsupported Request
without: a register of BAR0 is read and written as one aligned DWORD, anything else there is aborted and a hole reads
0; the windows of BAR0 and BAR2 show mailbox pages; BAR4 shows the MSI-X table (its holes: log 142); requests of other
kinds are answered by their kind (R86-R92). -/
def Obligations.HostsReachTheirFunction : Prop :=
  ((∀ s (g : Fin 33) f off v be o, g.val = f → f < 32 → s.dev.fnExists f = true → s.dev.dlUp f = true → o = off % 4096 / 4 * 4 →
     (s.dev.ready = true → (s.dev.fn f).flr = false →
       exec (.configRequest g false off v be) s = .next (s.withDev
         (emit (.completion f 0 (leBytes 4 (s.dev.cfgRead f o).toNat) false) s.dev))) ∧
     (s.dev.ready = true → (s.dev.fn f).flr = false → (s.dev.fn f).closing = none →
       (o == 0x78 && be.getLsbD 1 && v.getLsbD 15) = false → ∀ d, d = cfgSet f o v be s.dev →
       exec (.configRequest g true off v be) s = .next (s.withDev
         (if (d.fn f).closing.isSome then when (d.closes f) (closeNow f) d else emit (.completion f 0 [] false) d))) ∧
     (s.dev.ready = true → (s.dev.fn f).flr = false → o = 0x78 → be.getLsbD 1 = true → v.getLsbD 15 = true →
       ∀ d, d = cfgSet f o v be (closeDrop f s.dev) →
       exec (.configRequest g true off v be) s = .next (s.withDev
         (if (d.fn f).closing.isSome then when (d.closes f) (closeNow f) d else emit (.completion f 0 [] false) d))) ∧
     (s.dev.ready = false ∨ (s.dev.fn f).flr = true → ∀ w,
       exec (.configRequest g w off v be) s = .next (s.withDev (emit (.completion f 2 [] false) s.dev)))) ∧
   (∀ s off v be o, s.dev.power.holds = [] → s.dev.cpUp = true → o = off % 4096 / 4 * 4 →
     (2 ≤ s.dev.fld 0x14 3 0 →
       exec (.configRequest 32 false off v be) s = .next (s.withDev
         (emit (.completion 32 0 (leBytes 4 (s.dev.cfgRead 32 o).toNat) false) s.dev)) ∧
       exec (.configRequest 32 true off v be) s = .next (s.withDev
         (emit (.completion 32 0 [] false) (cfgSet 32 o v be s.dev))) ∧
       exec (.managerFunctionConfigWrite off v) s = .next (s.withDev
         (emit (.completion 32 0 [] false) (cfgSet 32 o v 15 s.dev)))) ∧
     (s.dev.fld 0x14 3 0 < 2 →
       (∀ w, exec (.configRequest 32 w off v be) s = .next (s.withDev (emit (.completion 32 2 [] false) s.dev))) ∧
       exec (.managerFunctionConfigWrite off v) s = .next (s.withDev (emit (.completion 32 2 [] false) s.dev))))) ∧
  ((∀ s (f : Fin 32) d, d = s.dev → d.power.holds = [] → d.sees f = true →
     (∀ off be, d.windowSide f false off = none → (∀ x ∈ be, x = true) → off % 4 = 0 →
       (d.hostHas f off = true → ∀ r, r = hostRegRead s.nv f off d →
         exec (.barRequest f (.bar0 (.read off 4 be))) s =
           .next (s.withDev (emit (.completion f 0 (leBytes 4 r.1.toNat) false) r.2))) ∧
       (d.hostHas f off = false → exec (.barRequest f (.bar0 (.read off 4 be))) s =
         .next (s.withDev (emit (.completion f 0 [0, 0, 0, 0] false) (count (aFn f 0x10) d)))) ∧
       (∀ v, d.hostHas f off = true → exec (.barRequest f (.bar0 (.write off (leBytes 4 v) be false))) s =
         .next (s.withDev (hostRegWrite f off (word (le (leBytes 4 v) 0 4)) d)))) ∧
     (∀ off len be, d.windowSide f false off = none → (len ≠ 4 ∨ off % 4 ≠ 0 ∨ false ∈ be) →
       exec (.barRequest f (.bar0 (.read off len be))) s =
         .next (s.withDev (emit (.completion f 4 [] false) (aerUnc f erAbort true (count (aFn f 0x10) d))))) ∧
     (∀ off data be, d.windowSide f false off = none → (data.length ≠ 4 ∨ off % 4 ≠ 0 ∨ false ∈ be ∨ d.hostHas f off = false) →
       exec (.barRequest f (.bar0 (.write off data be false))) s =
         .next (s.withDev (aerUnc f erAbort false (count (aFn f 0x10) d)))) ∧
     (∀ off data be, d.windowSide f false off = none → exec (.barRequest f (.bar0 (.write off data be true))) s =
       .next (s.withDev (hostPoisonIn f d))) ∧
     (∀ off data be ep x, d.windowSide f false off = some x → exec (.barRequest f (.bar0 (.write off data be ep))) s =
       .next (s.withDev (arenaWrite { x with mgr := false } x.mgr (byteRuns (enabledBytes (off % 4096) data be)) ep d))) ∧
     (∀ off data be ep x, d.windowSide f true off = some x → exec (.barRequest f (.bar2 (.write off data be ep))) s =
       .next (s.withDev (arenaWrite { x with mgr := false } x.mgr (byteRuns (enabledBytes (off % 4096) data be)) ep d))) ∧
     (∀ off len be, d.windowSide f true off = none → exec (.barRequest f (.bar2 (.read off len be))) s =
       .next (s.withDev (emit (.completion f 0 (List.replicate len 0) false) d))) ∧
     (∀ off len be x, d.windowSide f true off = some x → d.hidden x = false → x.mgr = false →
       exec (.barRequest f (.bar2 (.read off len be))) s = .next (s.withDev (emit (.completion f 0
         (readHbm (sidePage x + off % 4096) len d).1 (readHbm (sidePage x + off % 4096) len d).2.1)
         (readHbm (sidePage x + off % 4096) len d).2.2))) ∧
     (∀ off be, off % 4 = 0 → off < 0x8000 → (∀ x ∈ be, x = true) →
       exec (.barRequest f (.bar4 (.read off 4 be))) s = .next (s.withDev
         (emit (.completion f 0 (leBytes 4 (d.msixDword f 0x10000 2048 off).toNat) false) d)) ∧
       (∀ v, exec (.barRequest f (.bar4 (.write off (leBytes 4 v) be false))) s =
         .next (s.withDev (msixSet f off (word (le (leBytes 4 v) 0 4)) d))))) ∧
   (∀ s (f : Fin 32), s.dev.power.holds = [] → s.dev.fnExists f = true → s.dev.dlUp f = true →
     (s.dev.sees f = false → (∀ off len be, exec (.barRequest f (.bar0 (.read off len be))) s =
         .next (s.withDev (emit (.completion f 1 [] false) (aerUnc f erUnsupported true s.dev)))) ∧
       ∀ off data be ep, exec (.barRequest f (.bar0 (.write off data be ep))) s =
         .next (s.withDev (aerUnc f erUnsupported false s.dev))) ∧
     exec (.barRequest f .unsupported) s =
       .next (s.withDev (emit (.completion f 1 [] false) (aerUnc f erUnsupported true s.dev))) ∧
     exec (.barRequest f (.translated true)) s = .next (s.withDev (aerUnc f erUnsupported false s.dev)) ∧
     exec (.barRequest f .message) s = .next (s.withDev (aerUnc f erUnsupported false s.dev)) ∧
     exec (.barRequest f .vendorType1) s = .next s ∧
     exec (.barRequest f .malformed) s = .next (s.withDev (aerUnc f erMalformed false s.dev))))

/-- A register access of 32 bits by the manager, with its link up and Memory Space Enable, or by a core reaches the
register space where the block is served: a write has the register's effect, a read answers on its way out; the
aperture and the 64-bit pairs are such registers; an access of another width reads 0, and a write is counted (R6-R9,
R32, R33). A core's load or store outside the register space reaches what its map shows there: the customer's control
SRAM, its timer, its HBM window, read through the checker; cores 4-15 do not reach Onatar's, and a place of no meaning
faults (R31, R388-R390, R427). The manager's BAR2 shows a window of HBM from the aperture's base on: a read answers
what the memory holds, and a write reaches the regions that the aperture may write, one refused counts once in
DEV_BAD_ACCESS, and so does a read of the regions kept from it (R33, R142). -/
def Obligations.RegistersAndHbmAreReached : Prop :=
  ((∀ s q off, s.reaches q off = true → off < 2 ^ 32 →
     (∀ v, off % 4 = 0 → exec (.registerWrite q ⟨off, 4⟩ v) s = .next (s.withDev (spaceWrite s.nv q off (v.setWidth 32) s.dev))) ∧
     (∀ v, exec (.reg64HighWrite q off v) s = .next (s.withDev (spaceWrite s.nv q off v s.dev))) ∧
     (off % 4 = 0 → exec (.rcRegisterRead q ⟨off, 4⟩) s = .next (s.withDev
       (emit (.value q off (spaceRead s.nv q off s.dev).1) (spaceRead s.nv q off s.dev).2))) ∧
     exec (.reg64LowRead q off) s = .next (s.withDev
       (emit (.value q off (spaceRead s.nv q off s.dev).1) (spaceRead s.nv q off s.dev).2)) ∧
     (∀ len, fullWidth q off len = false → exec (.rcRegisterRead q ⟨off, len⟩) s = .next (s.withDev (emit (.value q off 0) s.dev))) ∧
     (∀ v len, fullWidth q off len = false → trusted q = true →
       exec (.registerWrite q ⟨off, len⟩ v) s = .next (s.withDev (badAccess s.dev)))) ∧
   (∀ s q v, s.reaches q 0x40 = true → exec (.hbmApertureWrite q false v) s = .next (s.withDev (spaceWrite s.nv q 0x40 v s.dev))) ∧
   (∀ s q v, s.reaches q 0x44 = true → exec (.hbmApertureWrite q true v) s = .next (s.withDev (spaceWrite s.nv q 0x44 v s.dev))) ∧
   (∀ s off v, s.dev.cpUp = true → (s.dev.fn 32).mse = false → s.dev.power.holds = [] →
     exec (.registerWrite .manager ⟨off, 4⟩ v) s = .next (s.withDev (aerUnc 32 erUnsupported false s.dev)))) ∧
  (∀ s (c : Fin 16) a, s.dev.power.holds = [] →
     (0x10400000 ≤ a → a < 0x11000000 →
       (∀ v len, exec (.registerWrite (.core c) ⟨2 ^ 32 + a, len⟩ v) s =
         .next (s.withDev (writeMem 4 (a - 0x10000000) (leBytes len v.toNat) false s.dev))) ∧
       (∀ len r, r = readMem 4 (a - 0x10000000) len s.dev → exec (.rcRegisterRead (.core c) ⟨2 ^ 32 + a, len⟩) s =
         .next (s.withDev (emit (if r.2.1 then .coreFault c.val else .load c.val a r.1) r.2.2)))) ∧
     (0x10000000 ≤ a → a < 0x10400000 → 4 ≤ c.val →
       (∀ v len, exec (.registerWrite (.core c) ⟨2 ^ 32 + a, len⟩ v) s = .next (s.withDev (coreDenied c.val s.dev))) ∧
       (∀ len, exec (.rcRegisterRead (.core c) ⟨2 ^ 32 + a, len⟩) s = .next (s.withDev (coreDenied c.val s.dev)))) ∧
     (0x80000000 ≤ a → a < 0x90000000 → ∀ v len,
       exec (.registerWrite (.core c) ⟨2 ^ 32 + a, len⟩ v) s =
         .next (s.withDev (writeHbm (custBase + (a - 0x80000000)) (leBytes len v.toNat) false s.dev))) ∧
     (0x2000000 ≤ a → a < 0x2000010 → ∀ len, exec (.rcRegisterRead (.core c) ⟨2 ^ 32 + a, len⟩) s =
       .next (s.withDev (emit (.load c.val a (bytesAt (s.dev.timerBytes c) (a - 0x2000000) len)) s.dev))) ∧
     (0x3000000 ≤ a → a < 0x10000000 → ∀ v len,
       exec (.registerWrite (.core c) ⟨2 ^ 32 + a, len⟩ v) s = .next (s.withDev (emit (.coreFault c.val) s.dev)))) ∧
  (∀ s off a, s.dev.sees 32 = true → s.dev.power.holds = [] → 4 ≤ s.dev.fld 0x14 3 0 →
     a = s.dev.aperture + off % 2 ^ 30 →
     (∀ len be, 15 * 2 ^ 30 ≤ hbmOff a → (arenaSide a).filter (!·.mgr) = none →
       exec (.bar2Access (.read off len be)) s = .next (s.withDev
         (emit (.completion 32 0 (readHbm a len s.dev).1 (readHbm a len s.dev).2.1) (readHbm a len s.dev).2.2))) ∧
     (∀ len be, hbmOff a < 15 * 2 ^ 30 → exec (.bar2Access (.read off len be)) s = .next (s.withDev
       (emit (.completion 32 0 (List.replicate len 0) false) (badAccess s.dev)))) ∧
     (∀ data be ep, s.dev.mgrPage a = none → apertureWritable a = true →
       exec (.bar2Access (.write off data be ep)) s = .next (s.withDev
         (each (byteRuns (enabledBytes a data be)) (fun x => writeHbm x.1 x.2 ep) s.dev))) ∧
     (∀ data be ep, s.dev.mgrPage a = none → apertureWritable a = false →
       exec (.bar2Access (.write off data be ep)) s = .next (s.withDev (badAccess s.dev))) ∧
     (∀ data be ep m, s.dev.mgrPage a = some m → exec (.bar2Access (.write off data be ep)) s = .next (s.withDev
       (arenaWrite m true (byteRuns (enabledBytes ((a - arenaBase) % 4096) data be)) ep s.dev))))

/-! ### Host links and mailboxes (chapters 3 and 6) -/

/-- HL_LINK_CTRL takes MAX_SPEED and MAX_WIDTH, takes the link down as planned or back to Detect with LINK_DISABLE, and
retrains it; PAIR forms a pair only on disabled links that are down, else PAIR_ERR; in the second block of a pair it
is ignored (a refused PAIR's other fields: log 144). CONN_CTRL drives the connector's power, not against a fault with
AUTO_OFF, and RESUME returns HOST_LOST slices (R64, R65, R70, R78). A connector's inputs: presence is reported and its
loss takes the link down, resets the function once and declares surprise removal; a power fault is reported and, with
AUTO_OFF, cuts the power and clears PWR_EN; the attention button is only reported; PERST# and a hot reset are planned
downs with Host Link Reset; the second connector of a pair reports its own inputs (R65, R70-R72, R76, R77; what STATE
reads until training: log 144). -/
def Obligations.ConnectorsAndLinkControlsAct : Prop :=
  ((∀ s q (n : Fin 32) v d, s.reaches q (aHl n) = true → trusted q = true → s.dev.secondOf n = false →
     d = setFld (aHl n) 11 10 (wbits v 11 10) (setFld (aHl n) 15 12 (maxSpeed (wbits v 15 12)) s.dev) →
     ((v.getLsbD 9 = s.dev.flag (aHl n) 9 ∨ n.val % 2 = 1) →
       (v.getLsbD 8 = s.dev.flag (aHl n) 8 → (v.getLsbD 7 && !v.getLsbD 8 && s.dev.dlUp n) = false →
         exec (.hlLinkCtrlWrite q n v) s = .next (s.withDev d)) ∧
       (v.getLsbD 8 = true → s.dev.flag (aHl n) 8 = false →
         exec (.hlLinkCtrlWrite q n v) s = .next (s.withDev (linkDown n 8 (setFlag (aHl n) 8 true d)))) ∧
       (v.getLsbD 8 = false → s.dev.flag (aHl n) 8 = true → v.getLsbD 7 = false →
         exec (.hlLinkCtrlWrite q n v) s = .next (s.withDev (setHlState n 0 (setFlag (aHl n) 8 false d)))) ∧
       (v.getLsbD 8 = false → s.dev.flag (aHl n) 8 = false → v.getLsbD 7 = true → s.dev.dlUp n = true →
         exec (.hlLinkCtrlWrite q n v) s = .next (s.withDev (setHlState n 3 (emit (.link n 1) d))))) ∧
     (n.val % 2 = 0 → v.getLsbD 9 ≠ s.dev.flag (aHl n) 9 → v.getLsbD 8 = true → s.dev.flag (aHl n) 8 = true →
       (s.dev.mayPair n (v.getLsbD 9) = false → exec (.hlLinkCtrlWrite q n v) s = .next (s.withDev
         (setFld (aHl n) 11 10 (wbits v 11 10) (setFld (aHl n) 15 12 (maxSpeed (wbits v 15 12))
           (setFlag (aLinkStat n) 9 true s.dev))))) ∧
       (s.dev.mayPair n (v.getLsbD 9) = true → v.getLsbD 9 = false → exec (.hlLinkCtrlWrite q n v) s = .next (s.withDev
         (setFld (aHl n) 11 10 (wbits v 11 10) (setFld (aHl n) 15 12 (maxSpeed (wbits v 15 12))
           (setPower (n + 1) (s.dev.flag (aConnCtrl (n + 1)) 0) (setFlag (aLinkStat (n + 1)) 10 false
             (setFlag (aLinkStat n) 10 false (setFlag (aHl n) 9 false s.dev))))))))) ) ∧
   (∀ s q (n : Fin 32) v, s.reaches q (aHl n) = true → trusted q = true → s.dev.secondOf n = true →
     exec (.hlLinkCtrlWrite q n v) s = .next s) ∧
   (∀ n p (d : Dev), d.flag (aHl n) 8 = true → d.flag (aHl (n + 1)) 8 = true → d.dlUp n = false → d.dlUp (n + 1) = false →
     (p = true → (d.slicesOf (n + 1)).isEmpty = true ∧ (d.fn (n + 1)).qLen = 0) → d.mayPair n p = true) ∧
   (∀ n p (d : Dev), (d.flag (aHl n) 8 = false ∨ d.flag (aHl (n + 1)) 8 = false ∨ d.dlUp n = true ∨ d.dlUp (n + 1) = true ∨
       (p = true ∧ ((d.slicesOf (n + 1)).isEmpty = false ∨ (d.fn (n + 1)).qLen ≠ 0))) → d.mayPair n p = false) ∧
   (∀ s q (n : Fin 32) v p, s.reaches q (aHl n + 0x14) = true → trusted q = true → s.dev.secondOf n = false →
     s.dev.paired n = false → (v.getLsbD 8 = false ∨ s.dev.dlUp n = false) →
     p = (if v.getLsbD 0 && s.dev.flag (aConn n) 1 && v.getLsbD 3 then s.dev.flag (aConnCtrl n) 0 else v.getLsbD 0) →
     exec (.connCtrlWrite q n v) s = .next (s.withDev (connSync n (when (!v.getLsbD 0) (setFlag (aConn n) 1 false)
       (setPower n p (setFlag (aConnCtrl n) 0 p (setFlag (aConnCtrl n) 3 (v.getLsbD 3)
         (setFld (aConnCtrl n) 5 4 (wbits v 5 4) (setFld (aConnCtrl n) 15 9 (wbits v 15 9) s.dev))))))))) ∧
   (∀ s q (n : Fin 32) v, s.reaches q (aHl n + 0x14) = true → trusted q = true → s.dev.secondOf n = true →
     exec (.connCtrlWrite q n v) s = .next s) ∧
   (∀ n d k x, d.slices = [(k, x)] → x.fn = n → x.state = .hostLost →
     resumeSlices n d = updSlice k (fun x => { x with state := .active }) (clearQueues (.slice (fin 4096 k)) d))) ∧
  ((∀ s (n : Fin 32) p, s.dev.flag (aConn n) 0 = p → exec (.presenceChange n p) s = .next s) ∧
   (∀ s (n : Fin 32) d, s.dev.flag (aConn n) 0 = false → d = connBit n 10 (setFlag (aConn n) 0 true s.dev) →
     (10000000 < d.time ∨ d.secondOf n = true → exec (.presenceChange n true) s = .next (s.withDev d)) ∧
     (d.time ≤ 10000000 → d.secondOf n = false → exec (.presenceChange n true) s = .next (s.withDev
       (setPowers n true (setFlag (aConnCtrl n) 0 true d))))) ∧
   (∀ s (n : Fin 32) d, s.dev.flag (aConn n) 0 = true →
     d = setFlag (aConn n) 1 false (connBit n 10 (setFlag (aConn n) 0 false s.dev)) →
     (d.secondOf n = true → exec (.presenceChange n false) s = .next (s.withDev d)) ∧
     (d.secondOf n = false → d.dlUp n = true →
       exec (.presenceChange n false) s = .next (s.withDev (declareLost n (unplannedDown n d)))) ∧
     (d.secondOf n = false → d.dlUp n = false → (d.link n).resetting = true →
       exec (.presenceChange n false) s = .next (s.withDev (declareLost n d))) ∧
     (d.secondOf n = false → d.dlUp n = false → (d.link n).resetting = false →
       exec (.presenceChange n false) s = .next (s.withDev (declareLost n (hostLinkReset n (d.hlState n) d))))) ∧
   (∀ s (n : Fin 32) m d, m = (if s.dev.secondOf n then n.val - 1 else n.val) →
     d = connBit n 12 (setFlag (aConn n) 1 true s.dev) →
     (s.dev.flag (aConnCtrl m) 3 = false → exec (.powerFault n) s = .next (s.withDev d)) ∧
     (s.dev.flag (aConnCtrl m) 3 = true → d.paired m = false → exec (.powerFault n) s = .next (s.withDev
       (setPower m false (setFlag (aConnCtrl m) 0 false d)))) ∧
     (s.dev.flag (aConnCtrl m) 3 = true → d.paired m = true → exec (.powerFault n) s = .next (s.withDev
       (setPowers m false (setFlag (aConnCtrl (m + 1)) 0 false (setFlag (aConnCtrl m) 0 false d)))))) ∧
   (∀ s (n : Fin 32), s.dev.secondOf n = false → exec (.attentionPress n) s = .next (s.withDev (connBit n 11 s.dev))) ∧
   (∀ s (n : Fin 32) d, d = updLink n (fun x => { x with perst := true }) (setFlag (aConn n) 3 true s.dev) →
     (d.secondOf n = false → exec (.perstAssert n false) s = .next (s.withDev (hostLinkReset n 0 d))) ∧
     (d.secondOf n = true → exec (.perstAssert n false) s = .next (s.withDev d))) ∧
   (∀ s (n : Fin 32), s.dev.secondOf n = false → s.dev.dlUp n = true →
     exec (.perstAssert n true) s = .next (s.withDev (hostLinkReset n 9 s.dev))) ∧
   (∀ s (n : Fin 32), exec (.perstDeassert n) s = .next (s.withDev
     (updLink n (fun x => { x with perst := false }) (setFlag (aConn n) 3 false s.dev)))) ∧
   (∀ n st d, d.secondOf n = false → d.dlUp n = false → hostLinkReset n st d = fnStateReset n (fnStop n stAborted
     (updLink n (fun x => { x with resetting := true })
       (updLink n (fun x => { x with widenAt := none, excluded := [], eqFails := [] })
         (setHlState n st (setFlag (aLinkStat n) 8 false (setFld (aLinkStat n) 23 11 0 d))))))))

/-- A link trains to the best speed that both ends and HL_LINK_CTRL allow and equalization has not excluded, and to the
widest width that its working lanes and both ends allow, not before 30 ms; below what was advertised it is DEGRADED. A
speed whose equalization fails three times is excluded (R61, R69). -/
def Obligations.LinksTrain : Prop :=
  (∀ s (n : Fin 32) ps pw lanes flit w both sp d, s.dev.secondOf n = false → s.dev.mayTrain n = true → s.dev.dlUp n = false →
    0 < ps → ps ≤ 6 → pw ≤ 5 → w = min (min pw (widthOf lanes)) (s.dev.widthLimit n) → 0 < w →
    both = min ps (s.dev.fld (aHl n) 15 12) → sp = bestSpeed (s.dev.link n).excluded both →
    d = setFlag (aLinkStat n) 12 (sp == 6 || flit) (setFld (aLinkStat n) 15 13 w (setFld (aLinkStat n) 19 16 sp
      (setHlState n 4 (timeTo 30000000 s.dev)))) →
    (sp = both → w = min pw (s.dev.widthLimit n) → exec (.linkTrainingDone n ps pw lanes flit) s = .next (s.withDev
      (wakeInL0 n (updLink n (fun x => { x with fullWidth := w })
        (setFlag (aLinkStat n) 8 false d))))) ∧
    ((sp < both ∨ w < min pw (s.dev.widthLimit n)) → exec (.linkTrainingDone n ps pw lanes flit) s = .next (s.withDev
      (wakeInL0 n (updLink n (fun x => { x with fullWidth := w })
        (hlCount n 0x24 (setFlag (aLinkStat n) 8 true d))))))) ∧
  (∀ ex n, bestSpeed ex n ≤ max n 1 ∧ (2 ≤ bestSpeed ex n → bestSpeed ex n ∉ ex) ∧
    ∀ m, bestSpeed ex n < m → m ≤ n → m ∈ ex) ∧
  (∀ s (n : Fin 32) sp k x, s.dev.secondOf n = false → k = mget 0 (s.dev.link n).eqFails sp + 1 → x = s.dev.link n →
    (k < 3 → exec (.equalizationFail n sp) s = .next (s.withDev
      (updLink n (fun y => { y with eqFails := mset 0 x.eqFails sp k }) s.dev))) ∧
    (3 ≤ k → sp ∉ x.excluded → exec (.equalizationFail n sp) s = .next (s.withDev
      (updLink n (fun y => { y with eqFails := mdel x.eqFails sp, excluded := x.excluded ++ [sp] }) s.dev))))

/-- A link in L0 reaches DL_Active: DL_UP, LINK_CHG, RETURNED where slices are HOST_LOST, and what was held goes on. An
unplanned down counts and resets the function; flap protection ends after its second; without DL_Active for 10 ms,
surprise removal is declared; PME_Turn_Off is acknowledged and is a planned down (R74, R76, R78, R100). -/
def Obligations.LinksComeUpAndGoDown : Prop :=
  (∀ s (n : Fin 32) d, s.dev.dlUp n = false → s.dev.hlState n = 4 → s.dev.secondOf n = false →
    d = connBit n 9 (updLink n (fun x => { x with resetting := false, downSince := none })
      (setFlag (aLinkStat n) 11 true s.dev)) →
    ((∀ k ∈ s.dev.slicesOf n, ∀ x, s.dev.slice k = some x → x.state ≠ .hostLost) → (s.dev.link n).resetting = false →
      exec (.dlActive n) s = .next (s.withDev (resumeHeld n d))) ∧
    ((∃ k ∈ s.dev.slicesOf n, ∃ x, s.dev.slice k = some x ∧ x.state = .hostLost) → (s.dev.link n).resetting = true →
      exec (.dlActive n) s = .next (s.withDev (resumeHeld n (unpark n (connBit n 14 d)))))) ∧
  (∀ s (n : Fin 32), s.dev.dlUp n = true → exec (.unplannedLinkDown n) s = .next (s.withDev (unplannedDown n s.dev))) ∧
  (∀ n d t, t = d.time :: (d.link n).downs.filter (d.time < · + 1000000000) →
    (t.length ≤ 8 → unplannedDown n d = updLink n (fun x => { x with downSince := some d.time, downs := t })
      (hostLinkReset n 0 (hlCount n 0x20 d))) ∧
    (8 < t.length → unplannedDown n d = hlCount n 0x28 (setFlag (aLinkStat n) 7 true
      (updLink n (fun x => { x with downSince := some d.time, downs := [], holdSince := d.time })
        (hostLinkReset n 0 (hlCount n 0x20 d)))))) ∧
  (∀ s (n : Fin 32), s.dev.flag (aLinkStat n) 7 = true → exec (.flapHoldEnd n) s = .next (s.withDev
    (setFlag (aLinkStat n) 7 false (timeTo ((s.dev.link n).holdSince + 1000000000) s.dev)))) ∧
  (∀ s (n : Fin 32) t, (s.dev.link n).downSince = some t → s.dev.flag (aConn n) 0 = true → s.dev.dlUp n = false →
    exec (.surpriseRemoval n) s = .next (s.withDev (declareLost n (timeTo (t + 10000000) s.dev)))) ∧
  (∀ n d k x, d.slices = [(k, x)] → x.fn = n → x.state = .active → d.pkts = [] →
    (declareLost n d).slices = [(k, { x with state := .hostLost })]) ∧
  (∀ s (n : Fin 32), s.dev.dlUp n = true → exec (.pmeTurnOff n) s = .next (s.withDev
    (linkDown n 7 (emit (.pmeToAck n) s.dev))))

/-- Widths in L0p and the L1 state: the link narrows by one step, not below MIN_WIDTH, asks for its full width again every
10 µs until it is granted, and accepts every request of the partner; each change counts (R66-R68, R79). What a partner
does wrong counts on its own link, is answered there, and is reported where it is an AER error; with the link down
nothing happens (R63, R79). -/
def Obligations.WidthsAndPartnerFaults : Prop :=
  ((∀ s (n : Fin 32) w, s.dev.inL0 n = true → s.dev.flag (aLinkStat n) 12 = true → s.dev.flag (aHl n + 8) 16 = true →
     w = s.dev.fld (aLinkStat n) 15 13 → min (s.dev.fld (aHl n + 8) 9 8) 2 + 1 < w →
     exec (.l0pNarrow n) s = .next (s.withDev (setWidth n (w - 1) s.dev))) ∧
   (∀ s (n : Fin 32), s.dev.fld (aLinkStat n) 15 13 ≤ min (s.dev.fld (aHl n + 8) 9 8) 2 + 1 →
     exec (.l0pNarrow n) s = .next s) ∧
   (∀ s (n : Fin 32), s.dev.inL0 n = true → s.dev.hlState n = 5 → (s.dev.link n).widenAt = none →
     exec (.l0pWidenRequest n true) s = .next (s.withDev (setWidth n (s.dev.link n).fullWidth
       (updLink n (fun x => { x with widenAt := none }) (emit (.link n 2) s.dev)))) ∧
     exec (.l0pWidenRequest n false) s = .next (s.withDev
       (updLink n (fun x => { x with widenAt := some s.dev.time }) (emit (.link n 2) s.dev)))) ∧
   (∀ s (n : Fin 32) t, s.dev.inL0 n = true → s.dev.hlState n = 5 → (s.dev.link n).widenAt = some t →
     exec (.l0pWidenRequest n false) s = .next (s.withDev
       (updLink n (fun x => { x with widenAt := some (timeTo (t + 10000) s.dev).time })
         (emit (.link n 2) (timeTo (t + 10000) s.dev))))) ∧
   (∀ s (n : Fin 32) w, s.dev.inL0 n = true → s.dev.flag (aLinkStat n) 12 = true → 0 < w → w < (s.dev.link n).fullWidth →
     w ≠ s.dev.fld (aLinkStat n) 15 13 →
     exec (.partnerL0pRequest n w) s = .next (s.withDev (setWidth n w (emit (.link n 3) s.dev)))) ∧
   (∀ s (n : Fin 32) w, s.dev.inL0 n = true → s.dev.flag (aLinkStat n) 12 = true → 0 < w → w = (s.dev.link n).fullWidth →
     w ≠ s.dev.fld (aLinkStat n) 15 13 →
     exec (.partnerL0pRequest n w) s = .next (s.withDev (updLink n (fun x => { x with widenAt := none })
       (setWidth n w (emit (.link n 3) s.dev))))) ∧
   (∀ s (n : Fin 32) w, s.dev.inL0 n = true → s.dev.flag (aLinkStat n) 12 = true → 0 < w → w < (s.dev.link n).fullWidth →
     w = s.dev.fld (aLinkStat n) 15 13 →
     exec (.partnerL0pRequest n w) s = .next (s.withDev (emit (.link n 3) s.dev))) ∧
   (∀ s (n : Fin 32), s.dev.inL0 n = true → (s.dev.fn n).aspm = true → s.dev.pendingTlp n = false →
     exec (.l1Entry n) s = .next (s.withDev (setHlState n 6 (emit (.link n 4) s.dev)))) ∧
   (∀ s (n : Fin 32), s.dev.hlState n = 6 → exec (.l1Exit n) s = .next (s.withDev
     (setHlState n (if s.dev.fld (aLinkStat n) 15 13 = (s.dev.link n).fullWidth then 4 else 5) s.dev)))) ∧
  ((∀ s (n : Fin 32), s.dev.dlUp n = true →
     exec (.flitError n true) s = .next (s.withDev (hlCount n 0x2C s.dev)) ∧
     exec (.flitError n false) s = .next (s.withDev
       (aerCor n (if s.dev.flag (aLinkStat n) 12 then 0 else 6) (emit (.link n 0) (hlCount n 0x30 s.dev)))) ∧
     exec (.badDllp n) s = .next (s.withDev (aerCor n 7 (hlCount n 0x3C s.dev))) ∧
     exec (.replayRollover n) s = .next (s.withDev
       (setHlState n 3 (emit (.link n 1) (aerCor n 8 (hlCount n 0x34 s.dev))))) ∧
     exec (.receiverOverflow n) s = .next (s.withDev (aerUnc n erOverflow false (hlCount n 0x38 s.dev)))) ∧
   (∀ s (n : Fin 32) c, s.dev.dlUp n = false → c ∈ [Instr.flitError n true, .flitError n false, .badDllp n,
     .replayRollover n, .receiverOverflow n] → exec c s = .next s) ∧
   (∀ (n m : Fin 32) s t c, n ≠ m → c ∈ [Instr.flitError n true, .flitError n false, .badDllp n,
     .replayRollover n, .receiverOverflow n] → exec c s = .next t →
     t.dev.link m = s.dev.link m ∧ t.dev.fn m = s.dev.fn m ∧ ∀ off < 0x10000, t.dev.reg (aHl m + off) = s.dev.reg (aHl m + off)))

/-- Posting a message copies its range to the receiver; claiming, acknowledging and a side's reset move it on with the
codes of R148, and interrupt the other side where no mask stands; a side writes its own page only; the set of a pair
that does not exist behaves as a region with no register (R143-R151; bytes written under a posted message: log 140; a
function's pair: log 137). A post of one message sets the sender's MB_DB_OUT and the receiver's MB_DB_IN bit with the
range of MB_PTR, clears MB_ACK, and is refused and counted while the message is posted or leaves the page; a claim
moves MB_DB_IN to MB_CLAIMED with the range (a withdrawn claim of the same message gives way: log 139); a reset of the
sender leaves a claimed message withdrawn, and of the receiver acknowledges with RECEIVER_RESET (R145, R146, R148,
R149). The arena's 8,280 pages lie in HB0's reserved region; each side has the page of the table, the manager's above
the other's, and every byte of that page is that side's (R142). -/
def Obligations.MailboxesCarryMessages : Prop :=
  ((∀ s x, s.comes (s.dev.sideFn x) = true → s.dev.pairExists x.pair = true →
     (∀ v, exec (.mbDbSet x v) s = .next (s.withDev
       (when (((List.range 32).filter v.getLsbD).any fun n =>
           mbPostOk (s.dev.side x) n && !(s.dev.side (Side.other x)).dbMask.getLsbD n) (mbInterrupt (Side.other x) false)
         (each ((List.range 32).filter v.getLsbD)
           (fun n d => if mbPostOk (s.dev.side x) n then mbPost x n d else mbErr x d) s.dev)))) ∧
     (∀ v, exec (.mbClaim x v) s = .next (s.withDev
       (each ((List.range 32).filter fun n => v.getLsbD n && (s.dev.side x).dbIn.getLsbD n) (mbClaimOne x)
         (updSide x (fun m => { m with toldIn := false }) s.dev)))) ∧
     (∀ (n : Fin 32) v d, (s.dev.side x).claimed.getLsbD n = true → (wbits v 15 0 < 0xE000 ∨ 0xEFFF < wbits v 15 0) →
       d = updSide x (fun m => { m with claimed := clrBit m.claimed n, rxPtr := mset 0 m.rxPtr n 0,
                                        rxStat := mset 0 m.rxStat n 0 }) s.dev →
       (mget 0 (s.dev.side x).rxStat n ≠ 0xE002 →
         exec (.mbRxAck x n v) s = .next (s.withDev (mbAck x n (wbits v 15 0) d))) ∧
       (mget 0 (s.dev.side x).rxStat n = 0xE002 → exec (.mbRxAck x n v) s = .next (s.withDev d))) ∧
     (∀ (n : Fin 32) v, ((s.dev.side x).claimed.getLsbD n = false ∨ (0xE000 ≤ wbits v 15 0 ∧ wbits v 15 0 ≤ 0xEFFF)) →
       exec (.mbRxAck x n v) s = .next (s.withDev (mbErr x s.dev))) ∧
     (∀ v, v.getLsbD 31 = true → (∀ c, x.pair ≠ .core c) → x.mgr = false →
       exec (.mbSideReset x v) s = .next (s.withDev (updSide x (fun m => { m with vector := 0 }) (sideReset x s.dev)))) ∧
     (∀ v, v.getLsbD 31 = false → (∀ c, x.pair ≠ .core c) → x.mgr = false →
       exec (.mbSideReset x v) s = .next (s.withDev (updSide x (fun m => { m with vector := wbits v 10 0 }) s.dev))) ∧
     (∀ v, (x.mgr = true ∨ ∃ c, x.pair = .core c) →
       exec (.mbSideReset x v) s = .next (s.withDev (when (v.getLsbD 31) (sideReset x) s.dev))) ∧
     (∀ v m, m = s.dev.side x →
       exec (.mbMaskWrite x false v) s = .next (s.withDev (when (m.dbIn &&& m.dbMask &&& ~~~v != 0) (mbInterrupt x false)
         (updSide x (fun m => { m with dbMask := v }) s.dev))) ∧
       exec (.mbMaskWrite x true v) s = .next (s.withDev (when (m.ackSum &&& m.ackMask &&& ~~~v != 0) (mbInterrupt x true)
         (updSide x (fun m => { m with ackMask := v }) s.dev)))) ∧
     (∀ u off data, u ≠ x.mgr → exec (.arenaPageWrite x u off data false) s = .next (s.withDev (arenaRefused x s.dev))) ∧
     (∀ off data l, l = (List.range data.length).map (off + ·) →
       exec (.arenaPageWrite x x.mgr off data false) s = .next (s.withDev (mbRefresh (Side.other x)
         (updSide x (fun m => { m with torn := m.torn.filter (fun o => !l.contains o) ++ l.filter (s.dev.postedAt x) })
           (writeHbm (sidePage x + off) data false s.dev))))) ∧
     (∀ off data, x.mgr = false → (∃ f, x.pair = .function f) →
       exec (.arenaPageWrite x false off data true) s = .next (s.withDev (hostPoisoned x s.dev)))) ∧
   (∀ s x c, s.comes (s.dev.sideFn x) = true → s.dev.pairExists x.pair = false →
     (∃ v n u off data ep, c = Instr.mbDbSet x v ∨ c = .mbClaim x v ∨ c = .mbRxAck x n v ∨ c = .mbSideReset x v ∨
       c = .mbMaskWrite x u v ∨ c = .arenaPageWrite x u off data ep) →
     exec c s = .next (s.withDev (if x.mgr then badAccess s.dev else s.dev)))) ∧
  ((∀ x n d, ((mbPost x n d).side (Side.other x)).dbIn = setBit (d.side (Side.other x)).dbIn n ∧
     mget 0 ((mbPost x n d).side (Side.other x)).inPtr n = mget 0 (d.side x).ptr n &&& 0x1FFF0FFF ∧
     ((mbPost x n d).side x).dbOut = setBit (d.side x).dbOut n ∧ mget 0 ((mbPost x n d).side x).ack n = 0 ∧
     ((mbPost x n d).side (Side.other x)).claimed = (d.side (Side.other x)).claimed) ∧
   (∀ x n d, n < 32 → mbPostOk (d.side x) n = false → (mbDbSet x (word (2 ^ n)) d).side x =
     { d.side x with err := sat32 ((d.side x).err + 1) }) ∧
   (∀ x n d p, n < 32 → (d.side x).dbIn.getLsbD n = true → p = mget 0 (d.side x).inPtr n →
     (mbClaim x (word (2 ^ n)) d).side x = { d.side x with
       toldIn := false, dbIn := clrBit (d.side x).dbIn n, inPtr := mset 0 (d.side x).inPtr n 0
       claimed := setBit (d.side x).claimed n, rxPtr := mset 0 (d.side x).rxPtr n p
       rxStat := mset 0 (d.side x).rxStat n (if d.msgPoisoned x p then 0xE003 else 0) }) ∧
   (∀ x n c d, n < 32 → ((mbAck x n c d).side (Side.other x)).dbOut = clrBit (d.side (Side.other x)).dbOut n ∧
     mget 0 ((mbAck x n c d).side (Side.other x)).ack n = word (2 ^ 31 + c) ∧
     ((mbAck x n c d).side (Side.other x)).ackSum = setBit (d.side (Side.other x)).ackSum n) ∧
   (∀ x d, (sideReset x d).side x = {}) ∧
   (∀ x d n, n < 32 → (d.side x).dbIn = 0 → (d.side x).claimed = 0 → (d.side (Side.other x)).claimed.getLsbD n = true →
     mget 0 ((sideReset x d).side (Side.other x)).rxStat n = 0xE002 ∧ ((sideReset x d).side (Side.other x)).dbIn = 0)) ∧
  ((15 * 2 ^ 30 ≤ arenaBase ∧ arenaBase + 8280 * 4096 ≤ 2 ^ 34 ∧ arenaBase % 4096 = 0) ∧
   (∀ (s : Fin 4096), sidePage ⟨.slice s, false⟩ = arenaBase + 4096 * (2 * s.val)) ∧
   (∀ (f : Fin 32), sidePage ⟨.function f, false⟩ = arenaBase + 4096 * (8192 + 2 * f.val)) ∧
   (∀ (c : Fin 16), 4 ≤ c.val → sidePage ⟨.core c, false⟩ = arenaBase + 4096 * (8256 + 2 * (c.val - 4))) ∧
   (∀ p, sidePage ⟨p, true⟩ = sidePage ⟨p, false⟩ + 4096) ∧
   (∀ x o, (∀ c, x.pair = .core c → 4 ≤ c.val) → o < 4096 → arenaSide (sidePage x + o) = some x))

/-! ### Line ports (chapters 12 and 16) -/

/-- LP_MODE is refused with MODE_ERR while a port of the group is enabled, else it sets the mode, and ports whose lanes
change start their counters anew; LP_PORT_CTRL brings a port up from Detect of its rates, takes it down, and restarts
it with its exclusions cleared; of a port that does not exist it is ignored (R366, R368, R371). -/
def Obligations.LinePortsAreSet : Prop :=
  (∀ s q (g : Fin 32) v k, s.reaches q (aLp g) = true → trusted q = true → k < 4 → s.dev.portExists (4 * g + k) = true →
    s.dev.flag (aCtrl (4 * g + k)) 31 = true →
    exec (.lpModeWrite q g v) s = .next (s.withDev (setFlag (aLp g + 4) 0 true s.dev))) ∧
  (∀ s q (g : Fin 32) v d, s.reaches q (aLp g) = true → trusted q = true →
    (∀ k < 4, s.dev.portExists (4 * g + k) = true → s.dev.flag (aCtrl (4 * g + k)) 31 = false) →
    d = setFld (aLp g) 2 0 (wbits v 2 0) s.dev →
    (d.lpMode g = s.dev.lpMode g → exec (.lpModeWrite q g v) s = .next (s.withDev d)) ∧
    (d.lpMode g ≠ s.dev.lpMode g → exec (.lpModeWrite q g v) s = .next (s.withDev (each (List.range 4)
      (fun k x => clearExclusions (4 * g + k)
        (when (modeLanes (s.dev.lpMode g) k != modeLanes (d.lpMode g) k) (lpClear (4 * g + k)) x)) d)))) ∧
  (∀ s q (g : Fin 32) k v p d, s.reaches q (aLp g + 0x10) = true → trusted q = true → p = portKey g k →
    s.dev.portExists p = true → d = setReg (aCtrl p) (v &&& 0xBFE03FFF) s.dev →
    (s.dev.flag (aCtrl p) 31 = true → v.getLsbD 31 = false →
      exec (.lpPortCtrlWrite q g k v) s = .next (s.withDev (portDown p 0 d))) ∧
    (s.dev.flag (aCtrl p) 31 = false → v.getLsbD 31 = true →
      exec (.lpPortCtrlWrite q g k v) s = .next (s.withDev (bringUp p (clearExclusions p d)))) ∧
    (s.dev.flag (aCtrl p) 31 = true → v.getLsbD 31 = true → v.getLsbD 30 = true →
      exec (.lpPortCtrlWrite q g k v) s = .next (s.withDev (bringUp p (portDown p 1 (clearExclusions p d))))) ∧
    (s.dev.flag (aCtrl p) 31 = v.getLsbD 31 → v.getLsbD 30 = false →
      exec (.lpPortCtrlWrite q g k v) s = .next (s.withDev d)) ∧
    (s.dev.flag (aCtrl p) 31 = false → v.getLsbD 31 = false → v.getLsbD 30 = true →
      exec (.lpPortCtrlWrite q g k v) s = .next (s.withDev (clearExclusions p d)))) ∧
  (∀ s q (g : Fin 32) k v, s.reaches q (aLp g + 0x10) = true → trusted q = true → s.dev.portExists (portKey g k) = false →
    exec (.lpPortCtrlWrite q g k v) s = .next s)

/-- Negotiation reports a missing base page after 1 s and restarts after its pause; base pages settle the highest common
rate, none in common and the port's own pages are reported; a rate whose training fails three times in a row is
excluded (R368, R370). -/
def Obligations.LinePortsNegotiate : Prop :=
  ∀ s (g : Fin 32) (k : Fin 4) p x, p = portKey g k → x = s.dev.port p →
    (s.dev.negotiating p = true → s.dev.flag (aAn p) 15 = false → x.anFailed = false →
      exec (.anBasePageTimeout g k) s = .next (s.withDev (lpBit p 1 (updPort p (fun x => { x with anFailed := true })
        (timeTo (x.since + 1000000000) s.dev))))) ∧
    (s.dev.portExists p = true → s.dev.lpState p = 1 → x.restart = true →
      exec (.anRestartTimer g k) s = .next (s.withDev (bringUp p (timeTo (x.since + 1000000000) s.dev)))) ∧
    (∀ rates pause d, s.dev.negotiating p = true →
      d = updPort p (fun x => { x with nonce := 0 }) (setFld (aAn p) 15 10 (32 + 4 * rates.toNat + pause.toNat) s.dev) →
      (∀ r, topRate (d.allowedRates p &&& rates.toNat) = some r → exec (.basePageReceive g k rates pause false) s =
        .next (s.withDev (setLpState p 2 (updPort p (fun x => { x with lastRate := r }) d)))) ∧
      (topRate (d.allowedRates p &&& rates.toNat) = none → exec (.basePageReceive g k rates pause false) s =
        .next (s.withDev (holdNegotiation p (lpBit p 3 d))))) ∧
    (∀ rates pause, s.dev.negotiating p = true → x.nonce < 7 → exec (.basePageReceive g k rates pause true) s =
      .next (s.withDev (updPort p (fun y => { y with nonce := x.nonce + 1 }) s.dev))) ∧
    (∀ rates pause, s.dev.negotiating p = true → x.nonce = 7 → exec (.basePageReceive g k rates pause true) s =
      .next (s.withDev (holdNegotiation p (lpBit p 4 s.dev)))) ∧
    (∀ n d, s.dev.portExists p = true → s.dev.lpState p = 2 → n = mget 0 x.fails x.lastRate + 1 →
      d = updPort p (fun y => { y with fails := if n ≥ 3 then [] else [(x.lastRate, n)] }) (lpBit p 2 s.dev) →
      (n < 3 → d.allowedRates p ≠ 0 → exec (.linkTrainingFail g k) s = .next (s.withDev (bringUp p d))) ∧
      (∀ d', 3 ≤ n → d' = setFlag (aAn p) (16 + x.lastRate) true d → d'.allowedRates p ≠ 0 →
        exec (.linkTrainingFail g k) s = .next (s.withDev (bringUp p d'))) ∧
      (∀ d', 3 ≤ n → d' = setFlag (aAn p) (16 + x.lastRate) true d → d'.allowedRates p = 0 → d'.offeredRates p ≠ 0 →
        exec (.linkTrainingFail g k) s = .next (s.withDev (holdNegotiation p (clearExclusions p d')))))

/-- LINK_UP stands while the port is aligned and no fault stands: alignment, its loss, and changes of the faults are
judged so; more than eight downs that the partner caused within 1 s hold the port down for 1 s; FEC_DEGRADED is
reported each time it changes (R370-R372). -/
def Obligations.LinePortsComeUpAndGoDown : Prop :=
  ∀ s (g : Fin 32) (k : Fin 4) p, p = portKey g k →
    (s.dev.portExists p = true → s.dev.lrefOn p = true → (s.dev.lpState p = 2 ∨ s.dev.lpState p = 3) →
      exec (.lineLinkUp g k) s = .next (s.withDev (linkJudge p (setLpState p 3
        (updPort p (fun x => { x with aligned := true, fails := [] }) s.dev))))) ∧
    (∀ d, (s.dev.port p).aligned = true → d = portDown p 1 s.dev →
      (s.dev.flag (aStat p) 31 = false → exec (.lineLinkDown g k) s = .next (s.withDev (bringUp p d))) ∧
      (s.dev.flag (aStat p) 31 = true → (flapCount p d).1 = false →
        exec (.lineLinkDown g k) s = .next (s.withDev (bringUp p (flapCount p d).2))) ∧
      (s.dev.flag (aStat p) 31 = true → (flapCount p d).1 = true →
        exec (.lineLinkDown g k) s = .next (s.withDev (flapCount p d).2))) ∧
    (∀ d, (flapCount p d).1 = decide (8 ≤ ((d.port p).downs.filter fun t => d.time < t + 1000000000).length)) ∧
    (s.dev.portExists p = true → s.dev.lpState p = 5 →
      exec (.lineFlapHoldEnd g k) s = .next (s.withDev (bringUp p (timeTo ((s.dev.port p).since + 1000000000) s.dev)))) ∧
    (∀ lf rf d, s.dev.portExists p = true → d = linkJudge p (setFlag (aStat p) 26 rf (setFlag (aStat p) 27 lf s.dev)) →
      ((s.dev.flag (aStat p) 31 = false ∨ d.flag (aStat p) 31 = true) →
        exec (.lineFaultChange g k lf rf) s = .next (s.withDev d)) ∧
      (s.dev.flag (aStat p) 31 = true → d.flag (aStat p) 31 = false →
        exec (.lineFaultChange g k lf rf) s = .next (s.withDev (flapCount p d).2))) ∧
    (∀ x d, s.dev.portExists p = true → s.dev.flag (aStat p) 25 ≠ x → d = setFlag (aStat p) 25 x s.dev →
      exec (.fecDegradedChange g k x) s = .next (s.withDev (raise 0x0B p (d.fld (aStat p) 7 0) (b2n x) d)))

/-- A frame of a port that is up is counted and checked in the order of R374, MAC control is consumed, and a good frame
passes MACsec, takes its timestamp and enters the ingress FIFO; on a port that is down it is ignored (R373-R375,
R379). A port sends its control frames first, then the first packet of the lowest queue that holds one, once a MACsec
operation in progress has taken effect; a packet longer than MAX_FRAME allows is dropped and counted. A PTP FIFO
answers its oldest entry, captures its time for the reader, and answers 0 when it is empty (R377, R382-R384; log 146). -/
def Obligations.FramesComeAndGo : Prop :=
  ((∀ s (g : Fin 32) (k : Fin 4) f code p, p = portKey g k → s.dev.linkUp p = true → s.dev.lpOn g = true →
     exec (.lineFrameReceive g k f code) s = .next (s.withDev (frameReceive p f code s.dev)) ∧
     (be f 12 2 = 0x8808 → exec (.pauseFrameReceive g k f) s = .next (s.withDev (frameReceive p f false s.dev)))) ∧
   (∀ s (g : Fin 32) (k : Fin 4) f code, s.dev.linkUp (portKey g k) = false →
     exec (.lineFrameReceive g k f code) s = .next s ∧ exec (.pauseFrameReceive g k f) s = .next s) ∧
   (∀ s (g : Fin 32) (k : Fin 4) p b n, p = portKey g k → s.dev.linkUp p = true → s.dev.lpOn g = true → n = b.length + 4 →
     64 ≤ n → n ≤ s.dev.maxFrame p → n ≤ 16383 → be b 12 2 ≠ 0x8808 →
     exec (.lineFrameReceive g k (b ++ fcsBytes b) false) s = .next (s.withDev
       (goodFrame p n b (lpCount p (6 + sizeBin n) (lpAdd p 0 n s.dev))))) ∧
   (∀ s (g : Fin 32) (k : Fin 4) p b f, p = portKey g k → s.dev.linkUp p = true → s.dev.lpOn g = true →
     f = b ++ fcsBytes b → b.length = 60 → 64 ≤ s.dev.maxFrame p → be f 12 2 = 0x8808 → be f 14 2 = 1 →
     be f 0 6 = 0x0180C2000001 → s.dev.flow p = 1 →
     exec (.pauseFrameReceive g k f) s = .next (s.withDev
       (each (List.range 8) (pauseClass p (be f 16 2)) (lpCount p 22 (lpAdd p 0 64 s.dev))))) ∧
   (∀ n max code fcs, max ≤ 16383 → (frameFault n max code fcs = none ↔ code = false ∧ fcs = true ∧ 64 ≤ n ∧ n ≤ max)) ∧
   (∀ p b d, d.flow p = 1 → be b 14 2 = 1 → be b 0 6 = 0x0180C2000001 →
     macControl p b 64 d = each (List.range 8) (pauseClass p (be b 16 2)) (lpCount p 22 d))) ∧
  ((∀ s (g : Fin 32) (k : Fin 4) p d, p = portKey g k → s.dev.linkUp p = true → d = msSettle (p / 4) s.dev →
     (∀ b r, (d.port p).ctrl = b :: r →
       exec (.macTransmit g k) s = .next (s.withDev (sendCtrl p b (updPort p (fun x => { x with ctrl := r }) d)))) ∧
     (∀ q x, (d.port p).ctrl = [] → q ∈ [1, 2, 3] → d.pkts.find? (fun y => y.loc == .mac p q) = some x →
       (∀ q' < q, ∀ y ∈ d.pkts, q' ≠ 0 → y.loc ≠ .mac p q') →
       exec (.macTransmit g k) s = .next (s.withDev (sendPacket p q x d)) ∧
       (d.maxFrame p - 4 < x.bytes.length →
         exec (.macTransmit g k) s = .next (s.withDev (endPacket x (lpCount p 68 d)))))) ∧
   (∀ s q (g : Fin 32) (k : Fin 4) p, p = portKey g k → s.dev.portExists p = true →
     (s.reaches q (aPtp p + 4) = true → ∀ r, r = ptpInfoRead false q p s.dev →
       exec (.ptpRxInfoRead q g k) s = .next (s.withDev (emit (.value q (aPtp p + 4) (word r.1)) r.2))) ∧
     (s.reaches q (aPtp p + 0x10) = true → ∀ r, r = ptpInfoRead true q p s.dev →
       exec (.ptpTxInfoRead q g k) s = .next (s.withDev (emit (.value q (aPtp p + 0x10) (word r.1)) r.2)))) ∧
   (∀ q p d e r, (d.port p).ptpRx = e :: r → (d.port p).ptpRxOvf = false → ptpInfoRead false q p d =
     (2 ^ 31 + 2 ^ 24 * e.type + 2 ^ 16 * e.domain + e.seq,
      updPort p (fun x => { x with ptpRx := r, ptpRxOvf := false }) (capture q (aPtp p + 8) e.time d))) ∧
   (∀ q p d, (d.port p).ptpTx = [] → ptpInfoRead true q p d = (0, d)))

/-- A pause ends when its quanta run out; a class paused for the watchdog's time is freed for 100 ms; XOFF leaves when the
FIFO reaches its threshold, again after half its time, and XON when it falls below (R379-R381). A MACsec command sets
BUSY and PENDING, and one while another is in progress is ignored and counted. The operation judges its record, then
stores it, answers it with its key read as 0, or frees its slot (R305, R306; the moment: log 146). -/
def Obligations.FlowControlAndMacsec : Prop :=
  (∀ s (g : Fin 32) (k : Fin 4) (c : Fin 8) p x, p = portKey g k → x = s.dev.port p →
     (mget 0 x.pauseEnd c ≠ 0 → exec (.pauseExpiry g k c) s = .next (s.withDev
       (updPort p (fun x => { x with pauseEnd := mdel x.pauseEnd c, pauseSince := mdel x.pauseSince c })
         (timeTo (mget 0 x.pauseEnd c) s.dev)))) ∧
     (∀ due d, 0 < s.dev.fld (aPfc p) 15 8 → mget 0 x.pauseEnd c ≠ 0 →
       due = mget 0 x.pauseSince c + s.dev.fld (aPfc p) 15 8 * 1000000 → due ≤ mget 0 x.pauseEnd c → d = timeTo due s.dev →
       exec (.pfcWatchdog g k c) s = .next (s.withDev (lpBit p 7 (updPort p (fun x => { x with
         pauseEnd := mdel x.pauseEnd c, pauseSince := mdel x.pauseSince c,
         ignoreEnd := mset 0 x.ignoreEnd c (d.time + 100000000) }) d)))) ∧
     (mget 0 x.ignoreEnd c ≠ 0 → exec (.pfcWatchdogEnd g k c) s = .next (s.withDev
       (updPort p (fun x => { x with ignoreEnd := mdel x.ignoreEnd c }) (timeTo (mget 0 x.ignoreEnd c) s.dev)))) ∧
     (s.dev.flowOn p c = true → s.dev.xoff p * 1024 ≤ s.dev.flowBytes p c → mfind x.xoffAt (s.dev.flowKey p c) = none →
       exec (.xoffReached g k c) s = .next (s.withDev (sendXoff p c s.dev))) ∧
     (∀ t, mfind x.xoffAt (s.dev.flowKey p c) = some t → s.dev.flowOn p c = true → s.dev.xon p * 1024 < s.dev.flowBytes p c →
       exec (.xoffRefresh g k c) s = .next (s.withDev
         (sendXoff p c (timeTo (t + (65535 * 256 + s.dev.speed p - 1) / s.dev.speed p) s.dev)))) ∧
     (∀ t, mfind x.xoffAt (s.dev.flowKey p c) = some t → s.dev.flowOn p c = true → s.dev.flowBytes p c < s.dev.xon p * 1024 →
       exec (.xonReached g k c) s = .next (s.withDev
         (updPort p (fun x => { x with xoffAt := mdel x.xoffAt (s.dev.flowKey p c) }) (sendFlow p c 0 s.dev))))) ∧
  ((∀ s q (g : Fin 32), s.reaches q (aLp g + 0x8020) = true → trusted q = true →
     (s.dev.msBusy g = false →
       exec (.msWriteSa q g) s = .next (s.withDev (msResult g stPending 0 (setFld (aMsCmd g) 1 0 1
         (setFlag (aMsCmd g) 31 true s.dev)))) ∧
       exec (.msReadSa q g) s = .next (s.withDev (msResult g stPending 0 (setFld (aMsCmd g) 1 0 2
         (setFlag (aMsCmd g) 31 true s.dev)))) ∧
       exec (.msInvalidateSa q g) s = .next (s.withDev (msResult g stPending 0 (setFld (aMsCmd g) 1 0 3
         (setFlag (aMsCmd g) 31 true s.dev))))) ∧
     (s.dev.msBusy g = true → ∀ c ∈ [Instr.msWriteSa q g, .msReadSa q g, .msInvalidateSa q g],
       exec c s = .next (s.withDev (badAccess s.dev)))) ∧
   (∀ g d e r, d.msBusy g = true → e = setFlag (aMsCmd g) 31 false d → r = msRecord g e →
     (d.fld (aMsCmd g) 1 0 = 1 → saFault true r = none →
       msSettle g d = msResult g stOk 0 (saStore g r (if saValid r then some r else none) e)) ∧
     (∀ o, d.fld (aMsCmd g) 1 0 = 1 → saFault true r = some o → msSettle g d = msResult g stBadParam o e) ∧
     (∀ o, d.fld (aMsCmd g) 1 0 ∈ [2, 3] → saFault false r = some o → msSettle g d = msResult g stBadParam o e) ∧
     (∀ x, d.fld (aMsCmd g) 1 0 = 2 → saFault false r = none → saSlot g r e = some x →
       msSettle g d = msResult g stOk 0 (each (List.range 20)
         (fun i => setReg (aMsData g i) (word (le (putBytes x 40 (leBytes 32 0)) (4 * i) 4))) e)) ∧
     (∀ x, d.fld (aMsCmd g) 1 0 = 3 → saFault false r = none → saSlot g r e = some x →
       msSettle g d = msResult g stOk 0 (saStore g r none e)) ∧
     (d.fld (aMsCmd g) 1 0 ∈ [2, 3] → saFault false r = none → saSlot g r e = none →
       msSettle g d = msResult g stNotFound 0 e)))

/-- What GCM seals, GCM opens: the same key, nonce and additional data give the plaintext back, and the tag verifies. The
ciphers are those of IEEE Std 802.1AE, which the manual names (R304; log 38). -/
def Obligations.GcmOpensWhatItSealed : Prop :=
  ∀ key iv aad plain, gcmOpen key iv aad (gcmSeal key iv aad plain).1 (gcmSeal key iv aad plain).2 = (plain, true)

/-! ### Pipelines and the traffic manager (chapters 8, 10, 15) -/

/-- The oldest packet of a line enters its pipeline with the domain on: a first or recirculated pass starts, a steered
packet runs the rest of its pass; a younger one waits, and with the domain off nothing moves. A context that arrives
in the cache lets its packets go on and starts the next miss. The answer to a placement-table read ends that read and
lets the walk of the packet that waits go on, then the packets behind it; with no packet waiting it changes nothing
(R19, R22, R24, R26, R295, R322). A decision of a port settles the credit of its nodes, and a port node without credit
sends nothing; the offer that wins its two rounds is charged at its port, subscriber and service node and leaves, or
is dropped where its slice takes no traffic; a committed child goes before an excess one (R353-R355). A packet whose
age reaches TM_AGE_LIMIT is dropped at that moment and counted where it waits; a write of the limit is bounded to
50-100,000 µs (R359, R362). -/
def Obligations.PassesRunAndPortsDecide : Prop :=
  ((∀ s i l p pl, s.dev.packet i = some p → passPlace p = some pl → s.dev.plOn pl = true →
     (∀ x ∈ s.dev.pkts.takeWhile (·.id != i), sameLine p.loc x.loc = false) →
     ((∀ a h, p.loc ≠ .steer a h) → exec (.pipelinePass i l) s = .next (s.withDev (runPass p pl l s.dev))) ∧
     (∀ a, p.loc = .steer a pl → exec (.pipelinePass i l) s = .next (s.withDev
       (goOn (s.dev.rulesOf p.gen) (runTodo { rs := s.dev.rulesOf p.gen } p.todo { p with pl := pl } s.dev) id)))) ∧
   (∀ s i l p x, s.dev.packet i = some p → x ∈ s.dev.pkts.takeWhile (·.id != i) → sameLine p.loc x.loc = true →
     exec (.pipelinePass i l) s = .next s) ∧
   (∀ s i l p pl, s.dev.packet i = some p → passPlace p = some pl → s.dev.plOn pl = false →
     exec (.pipelinePass i l) s = .next s) ∧
   (∀ s (k : Fin 4) c, c ∈ mget [] s.dev.ctxMiss k →
     exec (.contextCacheFill k c) s = .next (s.withDev (nextMiss k (resumeWaiters c (cacheTouch c
       { s.dev with ctxMiss := mupd [] s.dev.ctxMiss k fun l => l.filter (· != c) }))))) ∧
   (∀ s c e g, (∀ x ∈ s.dev.pkts, x.loc ≠ .tableWait c) → exec (.placementTableReadDone c e g) s = .next s) ∧
   (∀ s c e g p d r, s.dev.pkts.find? (fun p => p.loc == .tableWait c) = some p →
     (s.dev.listRead c e = none ∨
       ∃ f a b n, s.dev.listRead c e = some (f, a, b, n) ∧ s.dev.direct f [(b, n)] = true) →
     d = { s.dev with fns := mmap s.dev.fns fun _ x => tableReadDrop c x } →
     r = storageResume p c (bit (byteAt (p.todo.headD ⟨[], [], none⟩).op 7) 0)
       (s.dev.fns.any fun x => x.2.reads.any fun r => r.purpose == .placement c && x.2.xdenied.contains r.tag) e g d →
     exec (.placementTableReadDone c e g) s = .next (s.withDev (if r.2.1 = .go then goOn (s.dev.rulesOf p.gen)
       (runTodo { rs := s.dev.rulesOf p.gen } (p.todo.drop 1) r.1 r.2.2) (resumeWaiters c)
       else goOn (s.dev.rulesOf p.gen) r id)))) ∧
  ((∀ s (p : Fin 172) root subs d l, root = NodeId.port p → subs = (nodeSettle root (nodesDue s.dev)).subsOf p →
     d = each subs (fun n d => each ((List.range 8).map (svcNode n)) nodeSettle (nodeSettle n d))
       (nodeSettle root (nodesDue s.dev)) →
     l = portOffers p d →
     ((d.node root).status = 2 → exec (.tmDequeue p) s = .next (s.withDev d)) ∧
     (∀ r, (d.node root).status ≠ 2 → r = twoRounds root 0 l (loseDeficit subs l d) →
       (r.1 = none → exec (.tmDequeue p) s = .next (s.withDev r.2)) ∧
       (∀ o e, r.1 = some o → e = (subOffer p o.node r.2).2 →
         (e.closedTo o.pkt = true →
           exec (.tmDequeue p) s = .next (s.withDev (endPacket o.pkt (dropForSlice o.pkt p e)))) ∧
         (e.closedTo o.pkt = false → exec (.tmDequeue p) s = .next (s.withDev
           (egress p o.pkt (deduct o.len o.svc (deduct o.len o.node (deduct o.len root e))))))))) ∧
   (∀ n st l d o, (twoRounds n st l d).1 = some o → (∃ c ∈ l, (d.node c.node).status = 0) → (d.node o.node).status = 0) ∧
   (∀ n st l d o c, (roundPick n st l d).1 = some o → c ∈ l → bit st (clsNode c.node) = true → clsNode c.node < 8 →
     clsNode c.node ≤ clsNode o.node)) ∧
  ((∀ s i p c port, s.dev.packet i = some p → s.dev.ageCounter p = some (c, port) → exec (.bufferAgeDrop i) s = .next (s.withDev
     (endPacket p (dropForSlice p port (count c (timeTo (p.time + s.dev.ageLimit * 1000) s.dev)))))) ∧
   (∀ s q v n d, s.reaches q 0xC000000 = true → trusted q = true → n = min 100000 (max 50 (wbits v 19 0)) →
     d = setFld 0xC000000 19 0 n s.dev →
     exec (.tmAgeLimitWrite q v) s = .next (s.withDev { d with
       gens := { d.gens with ageMax := max d.gens.ageMax n },
       slices := mmap d.slices fun _ x => if x.frozen.isSome then { x with ageMax := max x.ageMax n } else x }) ∧
     d.ageLimit = n))

/-- A packet at its port, the first of its transfer queue, is admitted on die, goes to spill where its queue may, or is
dropped and counted at its service, subscriber and port node; the first bound in the order SHARE, LIMIT, BUFFER names
the counter. A multicast packet that has crossed to its die is replicated there. A spilled packet is read back where
the buffer has room (R13, R26, R352, R360, R361). -/
def Obligations.PacketsAreAdmitted : Prop :=
  (∀ s i p port n d, s.dev.packet i = some p → (p.loc = .toTm port ∨ ∃ a b, p.loc = .transfer a b port) →
    s.dev.firstOut p = true → d = nodesDue s.dev → n = d.nodeOf p port →
    (d.refusedBy n port p = none →
      exec (.tmAdmit i) s = .next (s.withDev (enterNodeFifo { p with spillQ := none } n port false d))) ∧
    (∀ c k, d.refusedBy n port p = some c → (d.node (subNode n)).spillEn = true →
      d.spillUsed (dieOfPort port) + p.bytes.length ≤ 14336 * 2 ^ 20 → d.spillQueue p = some k →
      exec (.tmAdmit i) s = .next (s.withDev (meterOf p.destSlice 10 p.bytes.length (count (aTm (dieOfPort port) + 0x24)
        (enterNodeFifo { p with spillQ := some k } n port true d))))) ∧
    (∀ c (up : Node → Node), d.refusedBy n port p = some c → (∀ x, up x = { x with drops := x.drops + 1 }) →
      ((d.node (subNode n)).spillEn = false →
        exec (.tmAdmit i) s = .next (s.withDev (endPacket p (updNode (.port (fin 172 port)) up (updNode (subNode n) up
          (updNode n up (dropForSlice p port (count (aTm (dieOfPort port) + c) d)))))))) ∧
      ((d.node (subNode n)).spillEn = true →
        (d.spillQueue p = none ∨ 14336 * 2 ^ 20 < d.spillUsed (dieOfPort port) + p.bytes.length) →
        exec (.tmAdmit i) s = .next (s.withDev (endPacket p (updNode (.port (fin 172 port)) up (updNode (subNode n) up
          (updNode n up (dropForSlice p port (count (aTm (dieOfPort port) + 0x28)
            (count (aTm (dieOfPort port) + c) d)))))))))) ∧
    (∀ c, d.refusedBy n port p = some c →
      (c = 0x10 ↔ (d.node (subNode n)).share ≠ 0 ∧
        (d.node (subNode n)).share * 1024 < d.onDie (subNode n) + cells p.bytes.length))) ∧
  (∀ s i p a b g, s.dev.packet i = some p → p.loc = .cross a b → p.dest = .group g → s.dev.firstOut p = true →
    exec (.tmAdmit i) s = .next (s.withDev (endPacket p (replicate (s.dev.rulesOf p.gen) g b p s.dev)))) ∧
  (∀ s i p, s.dev.packet i = some p → s.dev.firstOut p = false → exec (.tmAdmit i) s = .next s) ∧
  (∀ s i p n port, s.dev.packet i = some p → p.loc = .node n port true →
    s.dev.bufUsed (dieOfPort port) + s.dev.newCells (dieOfPort port) p ≤ 2 ^ 26 → exec (.spillReadback i) s = .next (s.withDev
      (updPacket i (fun p => { p with loc := .node n port false, spillQ := none }) s.dev))) ∧
  (∀ s i p n port, s.dev.packet i = some p → p.loc = .node n port true →
    2 ^ 26 < s.dev.bufUsed (dieOfPort port) + s.dev.newCells (dieOfPort port) p → exec (.spillReadback i) s = .next s)

/-! ### The control complex (chapters 17 and 18) -/

/-- Only the manager writes the core control registers of cores 4-15: HOLD holds and resets the core, a write without it
lets it run, RESET resets it; a core that starts at a BOOT outside the customer region faults at its first fetch. A
reset frees the core's locks, clears its private sources and resets its mailbox side. Any other write is refused: a
fault on a customer's core, counted otherwise (R391, R392, R397). A write of CORE_WDOG is taken and restarts the count
when it sets EN; CORE_KICK restarts it from the core itself only; TIMEOUT later the watchdog reports, and resets the
core if it may. device time reaches MTIMECMP at MTIMECMP_REACHED (R390, R391, R393). -/
def Obligations.CoresAndWatchdogs : Prop :=
  ((∀ s (c : Fin 16), 4 ≤ c.val → s.reaches .manager (aCore c) = true →
     exec (.coreHold .manager c true) s = .next (s.withDev (coreHeld c true (coreReset c s.dev))) ∧
     (s.dev.flag (aCore c) 31 = false →
       exec (.coreHold .manager c false) s = .next (s.withDev (coreHeld c false s.dev))) ∧
     (s.dev.flag (aCore c) 31 = true →
       exec (.coreReset .manager c) s = .next (s.withDev (coreHeld c true (coreReset c s.dev)))) ∧
     (∀ d b, b = (d.reg (aCore c + 4)).toNat →
       (s.dev.flag (aCore c) 31 = true → d = coreHeld c false s.dev →
         (0x10400000 ≤ b ∧ b < 0x11000000 → exec (.coreHold .manager c false) s = .next (s.withDev d)) ∧
         (¬ (0x10400000 ≤ b ∧ b < 0x11000000) →
           exec (.coreHold .manager c false) s = .next (s.withDev (emit (.coreFault c) d)))) ∧
       (s.dev.flag (aCore c) 31 = false → d = coreHeld c false (coreReset c s.dev) →
         (0x10400000 ≤ b ∧ b < 0x11000000 → exec (.coreReset .manager c) s = .next (s.withDev d)) ∧
         (¬ (0x10400000 ≤ b ∧ b < 0x11000000) →
           exec (.coreReset .manager c) s = .next (s.withDev (emit (.coreFault c) d)))))) ∧
   (∀ s q (c : Fin 16) h, (q ≠ .manager ∨ c.val < 4) → s.reaches q (aCore c) = true →
     exec (.coreHold q c h) s = .next (s.withDev (refuseWrite q s.dev)) ∧
     exec (.coreReset q c) s = .next (s.withDev (refuseWrite q s.dev))) ∧
   (∀ c d, c < 16 → ((coreReset c d).core c).pend = 0 ∧ ((coreReset c d).core c).claim = none ∧
     (∀ e ∈ (coreReset c d).locks, e.2 ≠ some c) ∧ (coreReset c d).side ⟨.core (fin 16 c), false⟩ = {})) ∧
  ((∀ s (c : Fin 16) v d, 4 ≤ c.val → s.reaches .manager (aCore c + 0xC) = true →
     d = setReg (aCore c + 0xC) (v &&& 0xC000FFFF) s.dev →
     (v.getLsbD 31 = false → exec (.coreWdogWrite .manager c v) s = .next (s.withDev d)) ∧
     (v.getLsbD 31 = true → exec (.coreWdogWrite .manager c v) s = .next (s.withDev
       (updCore c (fun x => { x with wdogStart := s.dev.time }) d)))) ∧
   (∀ s (c : Fin 16), 4 ≤ c.val → s.reaches (.core c) (aCore c + 0x10) = true → exec (.coreKick (.core c) c) s =
     .next (s.withDev (updCore c (fun x => { x with wdogStart := s.dev.time }) s.dev))) ∧
   (∀ s q (c : Fin 16), q ≠ .core c → s.reaches q (aCore c + 0x10) = true →
     exec (.coreKick q c) s = .next (s.withDev (refuseWrite q s.dev))) ∧
   (∀ s (c : Fin 16) w d d', 4 ≤ c.val → w = s.dev.reg (aCore c + 0xC) → w.getLsbD 31 = true →
     d = raise 0x0D c 0 0 (setFlag (aCore c + 8) 2 true
       (timeTo ((s.dev.core c).wdogStart + max 1 (wbits w 15 0) * 1000000) s.dev)) →
     d' = updCore c (fun x => { x with wdogStart := d.time }) d →
     (w.getLsbD 30 = false → exec (.watchdogExpiry c) s = .next (s.withDev d')) ∧
     (∀ r, w.getLsbD 30 = true → r = coreReset c d' →
       (r.flag (aCore c) 31 = true → exec (.watchdogExpiry c) s = .next (s.withDev r)) ∧
       (r.flag (aCore c) 31 = false → exec (.watchdogExpiry c) s = .next (s.withDev (coreStart c r))))) ∧
   (∀ s (c : Fin 16), (c.val < 4 ∨ (s.dev.reg (aCore c + 0xC)).getLsbD 31 = false) →
     exec (.watchdogExpiry c) s = .next s) ∧
   (∀ s (c : Fin 16), exec (.mtimecmpReached c) s = .next (s.withDev
     (timeTo (s.dev.core c).mtimecmp s.dev)) ∧ (timeTo (s.dev.core c).mtimecmp s.dev).time = max s.dev.time (s.dev.core c).mtimecmp))

/-- A core claims a source by writing its number to IC_CLAIM and reading it back: it gets a pending source once, 0xFFF
otherwise, and a source that another core is the target of counts. Software sources are raised by any requester; the
configuration of a source is the manager's and cores 0-3's (R396-R399). -/
def Obligations.InterruptsAreClaimed : Prop :=
  (∀ s (c : Fin 16) v, s.reaches (.core c) (aIc c 0) = true → exec (.icClaimWrite (.core c) c v) s = .next (s.withDev
    (updCore c (fun x => { x with claim := some (wbits v 11 0) }) s.dev))) ∧
  (∀ s (c : Fin 16) v, s.reaches .manager (aIc c 0) = true → exec (.icClaimWrite .manager c v) s = .next (s.withDev
    (count (aIc c 0x200) s.dev))) ∧
  (∀ s (c : Fin 16) n d, s.reaches (.core c) (aIc c 0) = true → (s.dev.core c).claim = some n →
    d = updCore c (fun x => { x with claim := none }) s.dev →
    ((icClaim c n d).1 = true → exec (.icClaimRead (.core c) c) s = .next (s.withDev
      (emit (.value (.core c) (aIc c 0) (word n)) (icClaim c n d).2))) ∧
    ((icClaim c n d).1 = false → exec (.icClaimRead (.core c) c) s = .next (s.withDev
      (emit (.value (.core c) (aIc c 0) 0xFFF) (icClaim c n d).2)))) ∧
  (∀ s q (c : Fin 16), s.reaches q (aIc c 0) = true → (q ≠ .core c ∨ (s.dev.core c).claim = none) →
    exec (.icClaimRead q c) s = .next (s.withDev (emit (.value q (aIc c 0) 0xFFF) s.dev))) ∧
  (∀ c n d, 64 ≤ n → n ≤ 1087 → (mget {} d.ic n).target = c → ((icClaim c n d).1 = (mget {} d.ic n).pending) ∧
    (mget {} (icClaim c n d).2.ic n).pending = false) ∧
  (∀ c n d, 64 ≤ n → (1087 < n ∨ (mget {} d.ic n).target ≠ c) → icClaim c n d = (false, count (aIc c 0x200) d)) ∧
  (∀ s q (c : Fin 16) v, s.reaches q (aIc c 0x30) = true → exec (.icPsw q c v) s = .next (s.withDev
    (updCore c (fun x => { x with pend := x.pend ||| BitVec.ofNat 64 (wbits v 7 0) }) s.dev))) ∧
  (∀ s q v, s.reaches q 0xE882000 = true →
    exec (.icSwSet q v) s = .next (s.withDev (sourcePulse (576 + wbits v 8 0) s.dev))) ∧
  (∀ s q (n : Fin 1024) v, s.reaches q 0xE880000 = true → managerOr03 q = true → (v.getLsbD 30 = false ∨ (137 ≤ n.val ∧ n.val < 144) ∨ 512 ≤ n.val) →
    exec (.icCfgWrite q n v) s = .next (s.withDev { s.dev with ic := mupd {} s.dev.ic (64 + n) fun x =>
      { x with enable := v.getLsbD 31, smode := v.getLsbD 29, target := wbits v 3 0, withdraw := false } })) ∧
  (∀ s q (n : Fin 1024) v, s.reaches q 0xE880000 = true → managerOr03 q = true → v.getLsbD 30 = true → (n.val ≤ 136 ∨ (144 ≤ n.val ∧ n.val < 512)) →
    exec (.icCfgWrite q n v) s = .next (s.withDev { s.dev with ic := mupd {} s.dev.ic (64 + n) fun x =>
      { x with enable := v.getLsbD 31, smode := v.getLsbD 29, target := wbits v 3 0, withdraw := true,
               pending := if !x.withdraw && x.armed then x.level else x.pending } })) ∧
  (∀ s q (n : Fin 1024) v, s.reaches q 0xE880000 = true → managerOr03 q = false →
    exec (.icCfgWrite q n v) s = .next (s.withDev (refuseWrite q s.dev)))

/-- A lock is given to exactly one of the masters that read it free in one cycle, the one least far behind the cycle's
first; readers of a lock that is owned see its owner, and it stays with it. Its owner's write frees it, any other
write counts and names the writer (R401-R403). GO starts a transaction of a master that is on and not busy, which
finds SDA low at once or reports its end by its status bits; a GO while busy, off or longer than the buffer is
refused; RECOVER sends its pulses; every end sets DONE and frees the master (R405-R407). -/
def Obligations.LocksAndI2cMasters : Prop :=
  ((∀ s l (i : Fin 256) k r, s.dev.serves (2 ^ 32) = true → r = lockRead (l.eraseDups.filter s.dev.admits) i k s.dev →
     exec (.lockRead l i k) s = .next (s.withDev (each r.1 (fun x => emit (.value x.1 (aLock i) (word x.2))) r.2))) ∧
   (∀ l i k d o, mget none d.locks i = some o → (lockRead l i k d).2 = d ∧ ∀ x ∈ (lockRead l i k d).1, x.2 = o) ∧
   (∀ l i k d, mget none d.locks i = none → (∃ q ∈ l, masterId q ≠ none) → ∃ q m, q ∈ l ∧ masterId q = some m ∧
     mget none (lockRead l i k d).2.locks i = some m ∧ (q, 2 ^ 31 + m) ∈ (lockRead l i k d).1 ∧
     ∀ x ∈ (lockRead l i k d).1, x.1 ≠ q → x.2 = 0xFF) ∧
   (∀ s q (i : Fin 256) m, s.reaches q (aLock i) = true → masterId q = some m →
     (mget none s.dev.locks i = some m →
       exec (.lockWrite q i) s = .next (s.withDev { s.dev with locks := mdel s.dev.locks i })) ∧
     (mget none s.dev.locks i ≠ some m →
       exec (.lockWrite q i) s = .next (s.withDev (setReg 0xE900804 (word (m * 256 + i)) (count 0xE900800 s.dev)))))) ∧
  ((∀ s q (n : Fin 8) v d, s.reaches q (aI2c n + 4) = true → s.dev.i2cBusy n = false → v.getLsbD 30 = true →
     s.dev.flag (aI2c n) 31 = true → wbits v 15 8 ≤ 64 → wbits v 7 0 ≤ 64 →
     d = i2cSync n (setFld (aI2c n + 8) 15 2 0 (setReg (aI2c n + 4) ((v &&& 0x23FFFFFF) ||| 0x80000000) s.dev)) →
     exec (.i2cGo q n v true) s = .next (s.withDev (i2cEnd n (some 2) 0 [] d)) ∧
     exec (.i2cGo q n v false) s = .next (s.withDev
       (emit (.i2c n (d.reg (aI2c n + 4)) ((d.i2cBuffer n).take (wbits v 7 0))) d))) ∧
   (∀ s q (n : Fin 8) v b, s.reaches q (aI2c n + 4) = true →
     (s.dev.i2cBusy n = true ∨
       (v.getLsbD 30 = true ∧ (s.dev.flag (aI2c n) 31 = false ∨ 64 < wbits v 15 8 ∨ 64 < wbits v 7 0))) →
     exec (.i2cGo q n v b) s = .next (s.withDev (badAccess s.dev))) ∧
   (∀ s q (n : Fin 8), s.reaches q (aI2c n) = true → s.dev.i2cBusy n = false → s.dev.flag (aI2c n) 31 = true →
     exec (.i2cRecover q n) s = .next (s.withDev (emit (.i2cRecover n) s.dev))) ∧
   (∀ s q (n : Fin 8), s.reaches q (aI2c n) = true → (s.dev.i2cBusy n = true ∨ s.dev.flag (aI2c n) 31 = false) →
     exec (.i2cRecover q n) s = .next s) ∧
   (∀ s (n : Fin 8) rl wl, s.dev.i2cBusy n = true → rl = s.dev.fld (aI2c n + 4) 15 8 → wl = s.dev.fld (aI2c n + 4) 7 0 →
     (∀ rd, exec (.i2cDone n (.ok rd)) s = .next (s.withDev (i2cEnd n none (wl + rl) (padTo rl rd) s.dev))) ∧
     (∀ m, exec (.i2cDone n (.nackAddr m)) s = .next (s.withDev (i2cEnd n (some 6) m [] s.dev))) ∧
     (∀ m, exec (.i2cDone n (.nackData m)) s = .next (s.withDev (i2cEnd n (some 5) m [] s.dev))) ∧
     (∀ m, exec (.i2cDone n (.arbLost m)) s = .next (s.withDev (i2cEnd n (some 4) m [] s.dev))) ∧
     (∀ k rd, exec (.i2cTimeout n k rd) s = .next (s.withDev (i2cEnd n (some 3) (k + rd.length) rd s.dev)))) ∧
   (∀ n f m rd d, n < 8 → (i2cEnd n f m rd d).i2cBusy n = false ∧ (i2cEnd n f m rd d).flag (aI2c n + 8) 7 = true ∧
     (i2cEnd n f m rd d).time = d.time))

/-- START queues an idle channel, and on any other is counted; the head of an engine's queue runs when the engine is free
and its first instruction can be fetched; DISABLE takes the channel from the queue and, when what it issued has
settled, ends it ABORTED; clearing it makes the channel idle (R408, R409, R416, R417). -/
def Obligations.ChannelsStartAndStop : Prop :=
  (∀ s q (e : Fin 2) (ch : Fin 16) v d, s.reaches q 0xF000000 = true → managerOr03 q = true → (ch.val ≠ 0 ∨ q ≠ .manager) →
    (v.getLsbD 29 = (s.dev.chan e ch).customer ∨ ch.val = 0) →
    d = setChan e ch (fun x => { x with intEn := wbits v 2 0 }) s.dev →
    ((d.chan e ch).state = 0 → v.getLsbD 31 = true → v.getLsbD 30 = false →
      exec (.chStart q e ch v) s = .next (s.withDev (chStart e ch d))) ∧
    ((d.chan e ch).state ∈ [1, 2, 3] → v.getLsbD 31 = true → v.getLsbD 30 = false →
      exec (.chStart q e ch v) s = .next (s.withDev (stErr e d))) ∧
    ((d.chan e ch).state < 3 → v.getLsbD 31 = false → v.getLsbD 30 = true →
      exec (.chDisable q e ch v) s = .next (s.withDev (chStop e ch d))) ∧
    ((d.chan e ch).state = 4 → v.getLsbD 31 = false → v.getLsbD 30 = false →
      exec (.chEnable q e ch v) s = .next (s.withDev
        (setChan e ch (fun x => { x with state := 0, disable := false, disDone := false }) d)))) ∧
  (∀ s (e : Fin 2) f ch rest d r, s.dev.engine e = { queue := ch :: rest, running := none } →
    d = setChan e ch (fun x => { x with state := 2, pc := x.prog })
      (updEngine e (fun _ => { queue := rest, running := some ch }) s.dev) → r = stFetch s.nv e ch f d →
    (r.1 = none → exec (.chRun e f) s = .next (s.withDev d)) ∧
    (∀ k, r.1 = some k → exec (.chRun e f) s = .next (s.withDev (stFault e ch k r.2.1 r.2.2)))) ∧
  (∀ s (e : Fin 2) f ch, (s.dev.engine e).running = some ch → exec (.chRun e f) s = .next s) ∧
  (∀ s (e : Fin 2) (ch : Fin 16) f, (s.dev.chan e ch).state = 3 →
    ((s.dev.engine e).running ≠ some ch.val → exec (.chDisableDone e ch f) s = .next (s.withDev (chDisabled e ch s.dev))) ∧
    (∀ r, (s.dev.engine e).running = some ch.val → r = stFetch s.nv e ch f s.dev → r.1 = none →
      exec (.chDisableDone e ch f) s = .next (s.withDev (chDisabled e ch (stMoveLost e ch r.2.1 s.dev))))) ∧
  (∀ e ch d, e < 2 → ch < 16 → ((chDisabled e ch d).chan e ch).state = 4 ∧ ((chDisabled e ch d).chan e ch).err = true ∧
    ((chDisabled e ch d).chan e ch).errCode = stAborted)

/-- The running channel executes the instruction at CH_PC: a MOVE copies its bytes with their poison marks, a LOOP jumps
back COUNT times, a WAIT looks at its word or the time at once and every microsecond until it holds or TIMEOUT ends, a
SIGNAL writes and interrupts; a faulty instruction ends the program with its code (R412-R415). -/
def Obligations.StitchProgramsRun : Prop :=
  (∀ s (e : Fin 2) ch f b d, (s.dev.engine e).running = some ch → (s.dev.chan e ch).waiting = none →
    (s.dev.chan e ch).state = 2 → stFetch s.nv e ch f s.dev = (none, b, d) →
    (∀ x r data, stOp b = 1 → x = d.chan e ch → d.stMoveCheck x (stSrc x b) (stDst x b) (stLen b) = stOk →
      r = stRead s.nv e ch (stSrc x b) (stLen b) data d → r.st = stOk →
      exec (.stMove e f data) s = .next (s.withDev (stNext e ch b
        (updChan e ch (fun x => { x with bytes := (x.bytes + stLen b) % 2 ^ 64, poison := x.poison || r.poisoned })
          (stWrite (stDst x b) r.data r.dev))))) ∧
    (∀ l n, stOp b = 2 → l = (d.chan e ch).levels.getD (byteAt b 2) (false, 0) → n = (if l.1 then l.2 else 0) →
      (n < le b 4 4 → exec (.stLoop e f) s = .next (s.withDev (updChan e ch (fun x => { x with
        levels := x.levels.set (byteAt b 2) (true, n + 1), pc := x.pc - 32 * byteAt b 3 }) d))) ∧
      (le b 4 4 ≤ n → exec (.stLoop e f) s = .next (s.withDev (stNext e ch b
        (updChan e ch (fun x => { x with levels := x.levels.set (byteAt b 2) (false, 0) }) d))))) ∧
    (∀ w, stOp b = 3 → byteAt b 2 = 2 → le b 8 8 ≤ d.time →
      exec (.stWait e f w) s = .next (s.withDev (stNext e ch b d))) ∧
    (∀ w r, stOp b = 3 → byteAt b 2 < 2 → r = stRead s.nv e ch (stAddr b) 4 w d → r.st = stOk → r.poisoned = false →
      (stHolds b (leNat r.bytes) = true → exec (.stWait e f w) s = .next (s.withDev (stNext e ch b r.dev))) ∧
      (stHolds b (leNat r.bytes) = false → exec (.stWait e f w) s = .next (s.withDev
        (updChan e ch (fun x => { x with waiting := some (b, d.time) }) r.dev)))) ∧
    (∀ r, stOp b = 4 → r = (if bit (byteAt b 2) 0 then stPut s.nv e ch (stAddr b) (le b 16 4) d else (stOk, d)) →
      (r.1 = stOk → exec (.stSignal e f) s = .next (s.withDev (stNext e ch b (when (bit (byteAt b 2) 1)
        (setChan e ch fun x => { x with sigval := word (le b 16 4), sig := true }) r.2)))) ∧
      (r.1 ≠ stOk → exec (.stSignal e f) s = .next (s.withDev (chFault e ch r.1 r.2))))) ∧
  (∀ s (e : Fin 2) ch w b t k, (s.dev.engine e).running = some ch → (s.dev.chan e ch).waiting = some (b, t) →
    k = t + 1000 * ((s.dev.time - t) / 1000 + 1) →
    ((le b 4 4 = 0 ∨ k < t + 1000 * le b 4 4) → exec (.stWaitPoll e w) s = .next (s.withDev
      (stLook s.nv e t w ch b (timeTo k s.dev)))) ∧
    (le b 4 4 ≠ 0 → t + 1000 * le b 4 4 ≤ k → exec (.stWaitPoll e w) s = .next (s.withDev
      (chFault e ch stTimeout (timeTo (t + 1000 * le b 4 4) s.dev))))) ∧
  (∀ s (e : Fin 2) ch f b d k data w, (s.dev.engine e).running = some ch → (s.dev.chan e ch).waiting = none →
    (s.dev.chan e ch).state = 2 → stFetch s.nv e ch f s.dev = (some k, b, d) →
    ∀ c ∈ [Instr.stMove e f data, .stLoop e f, .stWait e f w, .stSignal e f],
      exec c s = .next (s.withDev (stFault e ch k b d))) ∧
  (∀ e ch k d, e < 2 → ch < 16 → ((chFault e ch k d).chan e ch).state = 0 ∧ ((chFault e ch k d).chan e ch).errCode = k ∧
    ((chFault e ch k d).engine e).running ≠ some ch)

/-! ### Flash, power, reset and clocks (chapters 1, 19 to 22) -/

/-- The manager's writes of SPI_CTRL start an operation when none runs; its end judges the range, then reads the flash
into HBM, programs it from there, or erases it, and MEDIA_ERROR tells where the device failed (R487). The field lock
is burned by its two keys, written one behind the other by the manager; anything between cancels; the fuse is set once
it reads back, else LOCK_FAIL (R491). -/
def Obligations.FlashAndFieldLock : Prop :=
  ((∀ s (d : Nat → Dev), s.reaches .manager 0x200 = true → s.dev.spiBusy = false →
     (∀ k, d k = setReg 0x20C (word stPending) (setReg 0x200 (word (2 ^ 30 + k)) s.dev)) →
     exec (.spiRead .manager) s = .next (s.withDev (d 1)) ∧ exec (.spiProgram .manager) s = .next (s.withDev (d 2)) ∧
     exec (.spiErase .manager) s = .next (s.withDev (d 3))) ∧
   (∀ s, s.reaches .manager 0x200 = true → s.dev.spiBusy = true → ∀ c ∈ [Instr.spiRead .manager, .spiProgram .manager,
     .spiErase .manager], exec c s = .next (s.withDev (badAccess s.dev))) ∧
   (∀ s q, q ≠ .manager → s.reaches q 0x200 = true → ∀ c ∈ [Instr.spiRead q, .spiProgram q, .spiErase q],
     exec c s = .next (s.withDev (refuseWrite q s.dev))) ∧
   (∀ s op a n, s.dev.spiBusy = true → s.dev.ready = true → op = s.dev.fld 0x200 1 0 → a = s.dev.fld 0x204 25 0 →
     n = s.dev.fld 0x208 22 0 →
     (∀ f st, spiFault op a n s.dev = some st → exec (.spiOpDone f) s = .next (s.withDev (spiEnd st 0 s.dev))) ∧
     (op = 1 → spiFault op a n s.dev = none → exec (.spiOpDone none) s = .next (s.withDev
       (spiEnd stOk 0 (writeHbm stagingBase (flashRead s.nv a n) false s.dev)))) ∧
     (∀ o, op = 1 → spiFault op a n s.dev = none →
       exec (.spiOpDone (some o)) s = .next (s.withDev (spiEnd stMediaError o s.dev))) ∧
     (op = 3 → spiFault op a n s.dev = none → exec (.spiOpDone none) s = .next
       { s with nv := flashErase a n s.nv, dev := spiEnd stOk 0 s.dev }) ∧
     (∀ r, op = 2 → spiFault op a n s.dev = none → r = readHbm stagingBase n s.dev →
       spiDiffers (flashProgram a r.1 s.nv) a r.1 = none → exec (.spiOpDone none) s = .next
         { s with nv := flashProgram a r.1 s.nv, dev := spiEnd stOk 0 r.2.2 }) ∧
     (∀ o, (op = 2 ∨ op = 3) → spiFault op a n s.dev = none → ∃ nv d,
       exec (.spiOpDone (some o)) s = .next { s with nv := nv, dev := spiEnd stMediaError o d }))) ∧
  ((∀ s, s.reaches .manager 0x134 = true →
     exec (.fuseLockCmdWrite .manager 0x4C4F434B) s = .next (s.withDev (updPower (fun x => { x with lockArmed := true }) s.dev)) ∧
     (s.dev.power.lockArmed = true → exec (.fuseLockCmdWrite .manager 1) s = .next (s.withDev
       (updPower (fun x => { x with lockArmed := false, lockBusy := true, lockFail := false }) s.dev))) ∧
     (∀ v, v ≠ 0x4C4F434B → (v ≠ 1 ∨ s.dev.power.lockArmed = false) → exec (.fuseLockCmdWrite .manager v) s =
       .next (s.withDev (updPower (fun x => { x with lockArmed := false }) s.dev)))) ∧
   (∀ s q v, q ≠ .manager → s.reaches q 0x134 = true →
     exec (.fuseLockCmdWrite q v) s = .next (s.withDev (refuseWrite q s.dev))) ∧
   (∀ s, s.dev.power.lockBusy = true → ∃ nv, nv.fieldLock = true ∧
     exec (.fieldLockBurnDone true) s = .next { s with nv := nv, dev := updPower (fun x => { x with lockBusy := false }) s.dev } ∧
     exec (.fieldLockBurnDone false) s = .next (s.withDev
       (updPower (fun x => { x with lockBusy := false, lockFail := true }) s.dev))))

/-- Power-on, RESET_N, a write of DEV_CTRL, a brownout and a thermal trip reset the device with their causes, and hold it
in reset while they last; RESET_RELEASE and THERMAL_RELEASE lift their holds. A Device Reset keeps what was put out
and nothing else but the world's inputs (R441, R449, R450, R452). Start-up goes from step to step, stops for good at a
step that may fail, and brings at each step what R454 lists; at step 8 the device is ready (R454, R455). -/
def Obligations.ResetsAndStartUp : Prop :=
  ((∀ s, exec .powerGoodFall s = .next (s.withDev (deviceReset 1 0 (addHold .powerOn s.dev.power.holds) s.dev))) ∧
   (∀ s, Hold.powerOn ∉ s.dev.power.holds → Hold.sysclk ∉ s.dev.power.holds →
     exec .resetNAssert s = .next (s.withDev (deviceReset 2 0 (addHold .resetN s.dev.power.holds) s.dev))) ∧
   (∀ s, (Hold.powerOn ∈ s.dev.power.holds ∨ Hold.sysclk ∈ s.dev.power.holds) → exec .resetNAssert s = .next (s.withDev
     (updPower (fun x => { x with holds := addHold .resetN x.holds }) s.dev))) ∧
   (∀ s, exec .resetRelease s = .next (s.withDev
     (updPower (fun x => { x with holds := x.holds.filter fun h => h != .powerOn && h != .resetN }) s.dev))) ∧
   (∀ s, s.reaches .manager 0x10 = true →
     exec (.devCtrlReset .manager) s = .next (s.withDev (deviceReset 3 0 [] s.dev))) ∧
   (∀ s q, q ≠ .manager → s.reaches q 0x10 = true → exec (.devCtrlReset q) s = .next (s.withDev (refuseWrite q s.dev))) ∧
   (∀ s (r : Fin 15) mv, mv < 4096 → s.dev.railBelow r mv 90 = true → exec (.brownout r mv) s = .next (s.withDev
     (setFld (aRail r) 11 0 mv (deviceReset 4 r s.dev.power.holds s.dev)))) ∧
   (∀ s (i : Fin 8), exec (.thermalTrip i) s = .next (s.withDev
     (deviceReset 5 0 (addHold .thermal s.dev.power.holds) (setFld (aTemp i) 11 0 920 s.dev)))) ∧
   (∀ s l, l.length = 8 → (∀ t ∈ l, t.toNat < 760) → exec (.thermalRelease l) s = .next (s.withDev
     (updPower (fun x => { x with holds := x.holds.filter (· != .thermal) })
       (each l.zipIdx (fun t => setFld (aTemp t.2) 11 0 t.1.toNat) s.dev)))) ∧
   (∀ c r h d, (deviceReset c r h d).out = d.out ∧ (deviceReset c r h d).slices = [] ∧ (deviceReset c r h d).mem = [] ∧
     (deviceReset c r h d).pkts = [] ∧ (deviceReset c r h d).queues = [] ∧ (deviceReset c r h d).power.holds = h ∧
     (deviceReset c r h d).time = 0 ∧ (deviceReset c r h d).reg 0x18 = word (16 * r + c))) ∧
  ((∀ s sp n d, s.dev.power.holds = [] → s.dev.flag 0x14 30 = false → n = s.dev.fld 0x14 3 0 + 1 → n ≤ 8 →
     d = setFld 0x14 3 0 n s.dev →
     (n ≤ 4 → exec (.startupStepDone none sp) s = .next (s.withDev d)) ∧
     (n = 5 → exec (.startupStepDone none sp) s = .next (s.withDev (each sp.zipIdx (fun x => setVset x.2 x.1) d))) ∧
     (∀ r, n = 6 → r = activate (1, d.fld 0x18 7 0) s.nv { d with board := boardRecord s.nv } →
       exec (.startupStepDone none sp) s = .next { s with nv := r.1, dev := r.2 }) ∧
     (n = 7 → exec (.startupStepDone none sp) s = .next (s.withDev
       (updPower (fun x => { x with aligned := true }) (setFlag 0x10001C 0 true d)))) ∧
     (n = 8 → exec (.startupStepDone none sp) s = .next (s.withDev (setReg 0x20 (word (s.dev.time / 1000000))
       (setFlag 0xD801004 0 (!s.dev.power.noImage) (setFlag 0x14 31 true d))))) ∧
     (∀ i, n ∈ [2, 3, 5, 7] → exec (.startupStepDone (some i) sp) s = .next (s.withDev
       (setFld 0x14 23 16 i (setFlag 0x14 30 true d))))) ∧
   (∀ s f sp, (s.dev.power.holds ≠ [] ∨ s.dev.flag 0x14 30 = true ∨ 8 ≤ s.dev.fld 0x14 3 0) →
     exec (.startupStepDone f sp) s = .next s))

/-- A rail below 95 % throttles the adapter and is reported once until throttling lifts, 20 µs after every rail is back at
96 %; droop beyond what was calibrated makes a die step down and recalibrate by 5 mV a step; a die at its warning
temperature is reported (R442-R449). A reference clock that is lost takes its links or ports down and is reported,
SYSCLK holds the adapter in reset; its return lets them train. CP_PERST returns the manager function to its defaults
while it is asserted. Device time's skew is kept and reported, its rate adjustment clamped (R14, R15, R34, R473). -/
def Obligations.RailsTemperaturesClocksAndTime : Prop :=
  ((∀ s (r : Fin 15) mv l d, mv < 4096 → s.dev.railBelow r mv 95 = true →
     l = (if s.dev.power.throttling.contains r.val then s.dev.power.throttling else s.dev.power.throttling ++ [r.val]) →
     d = railLevel r mv (updPower (fun x => { x with throttling := l }) s.dev) →
     (s.dev.flag 0xF800100 31 = true → exec (.railWarning r mv) s = .next (s.withDev d)) ∧
     (s.dev.flag 0xF800100 31 = false → exec (.railWarning r mv) s = .next (s.withDev
       (sourcePulse 207 (raise 0x10 r 0 0 (count (aRail r + 8) (setFlag (aRail r) 30 true
         (setReg64 0xF800104 d.time (setReg 0xF800100 (word (2 ^ 31 + r)) d)))))))) ) ∧
   (∀ s (r : Fin 15) mv, mv < 4096 →
     (s.dev.railBelow r mv 90 = true → exec (.railRecovery r mv) s = .next (s.withDev (railLevel r
       ((s.dev.setpoint r * 90 + 99) / 100) (railLevel r mv (setFlag (aRail r) 29 true s.dev))))) ∧
     (s.dev.railBelow r mv 96 = false → s.dev.railBelow r (s.dev.railNow r) 96 = true → r.val ∈ s.dev.power.throttling →
       s.dev.railBelow r mv 90 = false → exec (.railRecovery r mv) s = .next (s.withDev
         (updPower (fun x => { x with liftFrom := s.dev.time }) (railLevel r mv s.dev))))) ∧
   (∀ s l, l = s.dev.power.throttling → l ≠ [] → (∀ r ∈ l, s.dev.railBelow r (s.dev.railNow r) 96 = false) →
     exec .throttleLift s = .next (s.withDev (each l (fun r => setFlag (aRail r) 31 false)
       (updPower (fun x => { x with throttling := [] }) (setFlag 0xF800100 31 false
         (timeTo (s.dev.power.liftFrom + 20000) s.dev)))))) ∧
   (∀ s (i : Fin 8), s.dev.flag (aCal i) 31 = false → exec (.droopExcess i) s = .next (s.withDev
     (sourcePulse 207 (raise 0x11 i 0 0 (updPower (fun x => { x with recal := x.recal ++ [i.val] })
       (setFld (aCal i) 23 12 (min (s.dev.fld (aCal i) 23 12 + 1) 0xFFF) (setFlag (aCal i) 31 true s.dev))))))) ∧
   (∀ s (i : Fin 8) d (stop : Dev → Dev), i.val ∈ s.dev.power.recal → s.dev.vset i < 800 →
     d = timeTo (s.dev.time + 11000000) (setVset i (s.dev.vset i + 5) s.dev) →
     (∀ d, stop d = updPower (fun x => { x with recal := x.recal.filter (· != i.val) }) d) →
     exec (.recalibrationStep i false) s = .next (s.withDev (stop (setFlag (aCal i) 31 false d))) ∧
     (d.vset i < 800 → exec (.recalibrationStep i true) s = .next (s.withDev d)) ∧
     (800 ≤ d.vset i → exec (.recalibrationStep i true) s = .next (s.withDev (stop (setFlag (aCal i) 30 true d))))) ∧
   (∀ s (i : Fin 8) (t : BitVec 12), exec (.thermalWarning i t) s = .next (s.withDev
     (when (t.toNat ≥ 8 * s.dev.fld 0xF800320 7 0) (raise 0x12 i t.toNat 0) (setFld (aTemp i) 11 0 t.toNat s.dev))))) ∧
  ((∀ s, exec (.clockLoss .sys) s = .next (s.withDev (deviceReset 1 0 (addHold .sysclk s.dev.power.holds) s.dev)) ∧
     exec (.clockReturn .sys) s = .next (s.withDev
       (updPower (fun x => { x with holds := x.holds.filter (· != .sysclk) }) s.dev)) ∧
     (s.dev.flag aClk 5 = true → exec (.clockLoss .cp) s = .next (s.withDev (clkLost 5 21 s.dev))) ∧
     exec (.clockReturn .cp) s = .next (s.withDev (setFlag aClk 5 true s.dev)) ∧
     exec .cpPerst s = .next (s.withDev (updPower (fun x => { x with cpPerst := true }) (updFn 32 (fun _ => {}) s.dev))) ∧
     exec .cpPerstRelease s = .next (s.withDev (updPower (fun x => { x with cpPerst := false }) s.dev))) ∧
   (∀ s i, s.dev.flag aClk (1 + i) = true → exec (.clockLoss (.href i)) s = .next (s.withDev
     (each ((List.range 16).map (· + 16 * i.val)) (fun n d => when (d.dlUp n) (unplannedDown n) d)
       (clkLost (1 + i) (17 + i) s.dev)))) ∧
   (∀ s i, s.dev.flag aClk (3 + i) = true → exec (.clockLoss (.lref i)) s = .next (s.withDev
     (each (s.dev.enabledPorts i) (fun p => portDown p 1) (clkLost (3 + i) (19 + i) s.dev)))) ∧
   (∀ s i, exec (.clockReturn (.href i)) s = .next (s.withDev (setFlag aClk (1 + i) true s.dev))) ∧
   (∀ s i, s.dev.flag aClk (3 + i) = false → exec (.clockReturn (.lref i)) s = .next (s.withDev
     (each (s.dev.enabledPorts i) bringUp (setFlag aClk (3 + i) true s.dev)))) ∧
   (∀ s n, exec (.timeSkew 4 n) s = .next s) ∧
   (∀ s (i : Fin 8) n e d, i.val ≠ 4 →
     e = skewSync (updPower (fun x => { x with skews := mput x.skews i.val (n, s.dev.time) }) s.dev) →
     d = setFld 0x10001C 23 16 (max (e.fld 0x10001C 23 16) (min n 255)) e →
     (n ≤ 8 → exec (.timeSkew i n) s = .next (s.withDev d)) ∧
     (8 < n → exec (.timeSkew i n) s = .next (s.withDev (timeSync (raise 0x01 i 0 0
       (setFld 0x10001C 10 8 i (setFlag 0x10001C 1 true d))))))) ∧
   (∀ s q v x, s.reaches q 0x100018 = true → trusted q = true → x = signed 18 (wbits v 17 0) →
     (-100000 ≤ x → x ≤ 100000 → exec (.timeRateAdjWrite q v) s = .next (s.withDev
       (setReg 0x100018 (word ((x % 2 ^ 18).toNat)) s.dev))) ∧
     (100000 < x → exec (.timeRateAdjWrite q v) s = .next (s.withDev
       (setFlag 0x10001C 2 true (setReg 0x100018 (word 100000) s.dev)))) ∧
     (x < -100000 → exec (.timeRateAdjWrite q v) s = .next (s.withDev
       (setFlag 0x10001C 2 true (setReg 0x100018 (word (2 ^ 18 - 100000)) s.dev))))))
end

