-- ==== Sys2Proof/Laws/Maps.lean ====
section
/-!
SUPPORT. The laws of the sparse tables: what a lookup finds after each operation, and that every operation keeps
the canonical form (keys strictly rising, the default not listed).
-/
namespace Sys2Proof.Laws
open Sys2Proof Sys2Proof.Machine

variable {α : Type}

@[simp] theorem mfind_mput (m : Map α) (n k : Nat) (x : α) :
    mfind (mput m n x) k = if k = n then some x else mfind m k := by
  induction m with
  | nil => simp [mput, mfind, eq_comm]
  | cons e r ih =>
    obtain ⟨a, v⟩ := e
    simp only [mput]
    split
    · simp [mfind, eq_comm]
    · split
      · by_cases h : k = n
        · subst h; simp [mfind]
        · simp_all [mfind, eq_comm]
      · simp only [mfind, ih]
        by_cases h : k = n <;> by_cases h' : a = k <;> simp_all

@[simp] theorem mfind_mdel (m : Map α) (n k : Nat) :
    mfind (mdel m n) k = if k = n then none else mfind m k := by
  induction m with
  | nil => simp [mdel, mfind]
  | cons e r ih =>
    obtain ⟨a, v⟩ := e
    simp only [mdel]
    split <;> simp only [mfind, ih] <;> by_cases h : k = n <;> by_cases h' : a = k <;> simp_all

@[simp] theorem mget_mset [DecidableEq α] (d : α) (m : Map α) (n k : Nat) (x : α) :
    mget d (mset d m n x) k = if k = n then x else mget d m k := by
  unfold mget mset
  split <;> by_cases h : k = n <;> simp_all

@[simp] theorem mget_mupd [DecidableEq α] (d : α) (m : Map α) (n k : Nat) (f : α → α) :
    mget d (mupd d m n f) k = if k = n then f (mget d m k) else mget d m k := by
  unfold mupd
  rw [mget_mset]
  split <;> simp_all

@[simp] theorem mfind_mmod (m : Map α) (n k : Nat) (f : α → α) :
    mfind (mmod m n f) k = if k = n then (mfind m k).map f else mfind m k := by
  induction m with
  | nil => simp [mmod, mfind]
  | cons e r ih =>
    obtain ⟨a, v⟩ := e
    simp only [mmod, List.map_cons] at ih ⊢
    by_cases h : k = n <;> by_cases h' : a = k <;> by_cases h'' : a = n <;> simp_all [mfind]

@[simp] theorem mfind_mmap (m : Map α) (k : Nat) (f : Nat → α → α) :
    mfind (mmap m f) k = (mfind m k).map (f k) := by
  induction m with
  | nil => simp [mmap, mfind]
  | cons e r ih =>
    obtain ⟨a, v⟩ := e
    simp only [mmap, List.map_cons] at ih ⊢
    by_cases h : a = k <;> simp_all [mfind]

/-! ### The canonical form -/

/-- The keys of a table, as a strictly rising list. -/
theorem rising_iff (m : Map α) : Map.rising m = true ↔ (m.map Prod.fst).Pairwise (· < ·) := by
  induction m with
  | nil => simp [Map.rising]
  | cons e r ih =>
    obtain ⟨a, v⟩ := e
    cases r with
    | nil => simp [Map.rising]
    | cons e' r' =>
      obtain ⟨b, w⟩ := e'
      simp only [Map.rising, Bool.and_eq_true, decide_eq_true_eq, ih, List.map_cons, List.pairwise_cons]
      constructor
      · rintro ⟨h, h1, h2⟩
        refine ⟨?_, h1, h2⟩
        intro x hx
        rcases List.mem_cons.1 hx with rfl | hx
        · exact h
        · exact Nat.lt_trans h (h1 x hx)
      · rintro ⟨h, h1, h2⟩
        exact ⟨h b (by simp), h1, h2⟩

theorem mput_keys (m : Map α) (n : Nat) (x : α) (k : Nat) :
    k ∈ (mput m n x).map Prod.fst → k = n ∨ k ∈ m.map Prod.fst := by
  induction m with
  | nil => simp [mput]
  | cons e r ih =>
    obtain ⟨a, v⟩ := e
    simp only [mput]
    split
    · intro h
      rcases List.mem_cons.1 h with h | h
      · exact .inl h
      · exact .inr h
    · split
      · intro h
        rcases List.mem_cons.1 h with h | h
        · exact .inl h
        · exact .inr (List.mem_cons_of_mem _ h)
      · intro h
        rcases List.mem_cons.1 h with h | h
        · exact .inr (by simpa using .inl h)
        · rcases ih h with h | h
          · exact .inl h
          · exact .inr (List.mem_cons_of_mem _ h)

theorem rising_mput (m : Map α) (n : Nat) (x : α) (h : Map.rising m = true) : Map.rising (mput m n x) = true := by
  rw [rising_iff] at h ⊢
  induction m with
  | nil => simp [mput]
  | cons e r ih =>
    obtain ⟨a, v⟩ := e
    simp only [List.map_cons, List.pairwise_cons] at h
    simp only [mput]
    split
    · rename_i hl
      simp only [List.map_cons, List.pairwise_cons]
      refine ⟨?_, h⟩
      intro k hk
      rcases List.mem_cons.1 hk with rfl | hk
      · exact hl
      · exact Nat.lt_trans hl (h.1 k hk)
    · split
      · rename_i heq
        subst heq
        simpa only [List.map_cons, List.pairwise_cons] using h
      · rename_i h1 h2
        simp only [List.map_cons, List.pairwise_cons]
        refine ⟨?_, ih h.2⟩
        intro k hk
        rcases mput_keys r n x k hk with rfl | hk
        · omega
        · exact h.1 k hk

theorem mdel_eq_filter (m : Map α) (n : Nat) : mdel m n = m.filter (fun e => e.1 != n) := by
  induction m with
  | nil => rfl
  | cons e r ih =>
    obtain ⟨a, v⟩ := e
    by_cases h : a = n <;> simp_all [mdel]

theorem rising_filter (m : Map α) (p : Nat × α → Bool) (h : Map.rising m = true) : Map.rising (m.filter p) = true := by
  rw [rising_iff] at h ⊢
  exact h.sublist (List.filter_sublist.map _)

theorem rising_mdel (m : Map α) (n : Nat) (h : Map.rising m = true) : Map.rising (mdel m n) = true := by
  rw [mdel_eq_filter]; exact rising_filter _ _ h

theorem rising_mset [DecidableEq α] (d : α) (m : Map α) (n : Nat) (x : α) (h : Map.rising m = true) :
    Map.rising (mset d m n x) = true := by
  unfold mset
  split
  · exact rising_mdel _ _ h
  · exact rising_mput _ _ _ h

theorem rising_mkeep (m : Map α) (p : Nat → α → Bool) (h : Map.rising m = true) : Map.rising (mkeep m p) = true :=
  rising_filter _ _ h

theorem mem_mput (m : Map α) (n : Nat) (x : α) (e : Nat × α) (h : e ∈ mput m n x) : e = (n, x) ∨ e ∈ m := by
  induction m with
  | nil => exact .inl (by simpa [mput] using h)
  | cons a r ih =>
    obtain ⟨k, v⟩ := a
    simp only [mput] at h
    split at h
    · exact (List.mem_cons.1 h).imp id id
    · split at h
      · rcases List.mem_cons.1 h with h | h
        · exact .inl h
        · exact .inr (List.mem_cons_of_mem _ h)
      · rcases List.mem_cons.1 h with h | h
        · exact .inr (by simp [h])
        · exact (ih h).imp id (List.mem_cons_of_mem _)

end Sys2Proof.Laws
end

