-- ==== Sys2Proof/Laws/State.lean ====
section
/-!
SUPPORT. What each update of the device leaves alone: one lemma per field and per reader, and what a reader finds
after an update of the table it reads.
-/
namespace Sys2Proof.Laws
open Sys2Proof Sys2Proof.Machine

/-! ### emit -/

@[simp] theorem emit_time (o : Output) (d : Dev) : (emit o d).time = d.time := rfl
@[simp] theorem emit_regs (o : Output) (d : Dev) : (emit o d).regs = d.regs := rfl
@[simp] theorem emit_latches (o : Output) (d : Dev) : (emit o d).latches = d.latches := rfl
@[simp] theorem emit_held (o : Output) (d : Dev) : (emit o d).held = d.held := rfl
@[simp] theorem emit_captures (o : Output) (d : Dev) : (emit o d).captures = d.captures := rfl
@[simp] theorem emit_free (o : Output) (d : Dev) : (emit o d).free = d.free := rfl
@[simp] theorem emit_updates (o : Output) (d : Dev) : (emit o d).updates = d.updates := rfl
@[simp] theorem emit_lastApply (o : Output) (d : Dev) : (emit o d).lastApply = d.lastApply := rfl
@[simp] theorem emit_mev (o : Output) (d : Dev) : (emit o d).mev = d.mev := rfl
@[simp] theorem emit_rings (o : Output) (d : Dev) : (emit o d).rings = d.rings := rfl
@[simp] theorem emit_served (o : Output) (d : Dev) : (emit o d).served = d.served := rfl
@[simp] theorem emit_accepted (o : Output) (d : Dev) : (emit o d).accepted = d.accepted := rfl
@[simp] theorem emit_tblRegs (o : Output) (d : Dev) : (emit o d).tblRegs = d.tblRegs := rfl
@[simp] theorem emit_snap (o : Output) (d : Dev) : (emit o d).snap = d.snap := rfl
@[simp] theorem emit_snapSeq (o : Output) (d : Dev) : (emit o d).snapSeq = d.snapSeq := rfl
@[simp] theorem emit_fns (o : Output) (d : Dev) : (emit o d).fns = d.fns := rfl
@[simp] theorem emit_links (o : Output) (d : Dev) : (emit o d).links = d.links := rfl
@[simp] theorem emit_owners (o : Output) (d : Dev) : (emit o d).owners = d.owners := rfl
@[simp] theorem emit_slices (o : Output) (d : Dev) : (emit o d).slices = d.slices := rfl
@[simp] theorem emit_queues (o : Output) (d : Dev) : (emit o d).queues = d.queues := rfl
@[simp] theorem emit_cqs (o : Output) (d : Dev) : (emit o d).cqs = d.cqs := rfl
@[simp] theorem emit_mail (o : Output) (d : Dev) : (emit o d).mail = d.mail := rfl
@[simp] theorem emit_eyelets (o : Output) (d : Dev) : (emit o d).eyelets = d.eyelets := rfl
@[simp] theorem emit_freed (o : Output) (d : Dev) : (emit o d).freed = d.freed := rfl
@[simp] theorem emit_tables (o : Output) (d : Dev) : (emit o d).tables = d.tables := rfl
@[simp] theorem emit_gens (o : Output) (d : Dev) : (emit o d).gens = d.gens := rfl
@[simp] theorem emit_counters (o : Output) (d : Dev) : (emit o d).counters = d.counters := rfl
@[simp] theorem emit_exc (o : Output) (d : Dev) : (emit o d).exc = d.exc := rfl
@[simp] theorem emit_learn (o : Output) (d : Dev) : (emit o d).learn = d.learn := rfl
@[simp] theorem emit_pkts (o : Output) (d : Dev) : (emit o d).pkts = d.pkts := rfl
@[simp] theorem emit_nextPkt (o : Output) (d : Dev) : (emit o d).nextPkt = d.nextPkt := rfl
@[simp] theorem emit_ipId (o : Output) (d : Dev) : (emit o d).ipId = d.ipId := rfl
@[simp] theorem emit_ctxCache (o : Output) (d : Dev) : (emit o d).ctxCache = d.ctxCache := rfl
@[simp] theorem emit_ctxMiss (o : Output) (d : Dev) : (emit o d).ctxMiss = d.ctxMiss := rfl
@[simp] theorem emit_placing (o : Output) (d : Dev) : (emit o d).placing = d.placing := rfl
@[simp] theorem emit_ptOff (o : Output) (d : Dev) : (emit o d).ptOff = d.ptOff := rfl
@[simp] theorem emit_policers (o : Output) (d : Dev) : (emit o d).policers = d.policers := rfl
@[simp] theorem emit_nodes (o : Output) (d : Dev) : (emit o d).nodes = d.nodes := rfl
@[simp] theorem emit_ports (o : Output) (d : Dev) : (emit o d).ports = d.ports := rfl
@[simp] theorem emit_cores (o : Output) (d : Dev) : (emit o d).cores = d.cores := rfl
@[simp] theorem emit_ic (o : Output) (d : Dev) : (emit o d).ic = d.ic := rfl
@[simp] theorem emit_locks (o : Output) (d : Dev) : (emit o d).locks = d.locks := rfl
@[simp] theorem emit_chans (o : Output) (d : Dev) : (emit o d).chans = d.chans := rfl
@[simp] theorem emit_engines (o : Output) (d : Dev) : (emit o d).engines = d.engines := rfl
@[simp] theorem emit_mem (o : Output) (d : Dev) : (emit o d).mem = d.mem := rfl
@[simp] theorem emit_chk (o : Output) (d : Dev) : (emit o d).chk = d.chk := rfl
@[simp] theorem emit_repairs (o : Output) (d : Dev) : (emit o d).repairs = d.repairs := rfl
@[simp] theorem emit_scrubs (o : Output) (d : Dev) : (emit o d).scrubs = d.scrubs := rfl
@[simp] theorem emit_board (o : Output) (d : Dev) : (emit o d).board = d.board := rfl
@[simp] theorem emit_power (o : Output) (d : Dev) : (emit o d).power = d.power := rfl
@[simp] theorem emit_tap (o : Output) (d : Dev) : (emit o d).tap = d.tap := rfl

/-! ### updFn -/

@[simp] theorem updFn_time (f : Nat) (g : Fn → Fn) (d : Dev) : (updFn f g d).time = d.time := rfl
@[simp] theorem updFn_regs (f : Nat) (g : Fn → Fn) (d : Dev) : (updFn f g d).regs = d.regs := rfl
@[simp] theorem updFn_latches (f : Nat) (g : Fn → Fn) (d : Dev) : (updFn f g d).latches = d.latches := rfl
@[simp] theorem updFn_held (f : Nat) (g : Fn → Fn) (d : Dev) : (updFn f g d).held = d.held := rfl
@[simp] theorem updFn_captures (f : Nat) (g : Fn → Fn) (d : Dev) : (updFn f g d).captures = d.captures := rfl
@[simp] theorem updFn_out (f : Nat) (g : Fn → Fn) (d : Dev) : (updFn f g d).out = d.out := rfl
@[simp] theorem updFn_free (f : Nat) (g : Fn → Fn) (d : Dev) : (updFn f g d).free = d.free := rfl
@[simp] theorem updFn_updates (f : Nat) (g : Fn → Fn) (d : Dev) : (updFn f g d).updates = d.updates := rfl
@[simp] theorem updFn_lastApply (f : Nat) (g : Fn → Fn) (d : Dev) : (updFn f g d).lastApply = d.lastApply := rfl
@[simp] theorem updFn_mev (f : Nat) (g : Fn → Fn) (d : Dev) : (updFn f g d).mev = d.mev := rfl
@[simp] theorem updFn_rings (f : Nat) (g : Fn → Fn) (d : Dev) : (updFn f g d).rings = d.rings := rfl
@[simp] theorem updFn_served (f : Nat) (g : Fn → Fn) (d : Dev) : (updFn f g d).served = d.served := rfl
@[simp] theorem updFn_accepted (f : Nat) (g : Fn → Fn) (d : Dev) : (updFn f g d).accepted = d.accepted := rfl
@[simp] theorem updFn_tblRegs (f : Nat) (g : Fn → Fn) (d : Dev) : (updFn f g d).tblRegs = d.tblRegs := rfl
@[simp] theorem updFn_snap (f : Nat) (g : Fn → Fn) (d : Dev) : (updFn f g d).snap = d.snap := rfl
@[simp] theorem updFn_snapSeq (f : Nat) (g : Fn → Fn) (d : Dev) : (updFn f g d).snapSeq = d.snapSeq := rfl
@[simp] theorem updFn_links (f : Nat) (g : Fn → Fn) (d : Dev) : (updFn f g d).links = d.links := rfl
@[simp] theorem updFn_owners (f : Nat) (g : Fn → Fn) (d : Dev) : (updFn f g d).owners = d.owners := rfl
@[simp] theorem updFn_slices (f : Nat) (g : Fn → Fn) (d : Dev) : (updFn f g d).slices = d.slices := rfl
@[simp] theorem updFn_queues (f : Nat) (g : Fn → Fn) (d : Dev) : (updFn f g d).queues = d.queues := rfl
@[simp] theorem updFn_cqs (f : Nat) (g : Fn → Fn) (d : Dev) : (updFn f g d).cqs = d.cqs := rfl
@[simp] theorem updFn_mail (f : Nat) (g : Fn → Fn) (d : Dev) : (updFn f g d).mail = d.mail := rfl
@[simp] theorem updFn_eyelets (f : Nat) (g : Fn → Fn) (d : Dev) : (updFn f g d).eyelets = d.eyelets := rfl
@[simp] theorem updFn_freed (f : Nat) (g : Fn → Fn) (d : Dev) : (updFn f g d).freed = d.freed := rfl
@[simp] theorem updFn_tables (f : Nat) (g : Fn → Fn) (d : Dev) : (updFn f g d).tables = d.tables := rfl
@[simp] theorem updFn_gens (f : Nat) (g : Fn → Fn) (d : Dev) : (updFn f g d).gens = d.gens := rfl
@[simp] theorem updFn_counters (f : Nat) (g : Fn → Fn) (d : Dev) : (updFn f g d).counters = d.counters := rfl
@[simp] theorem updFn_exc (f : Nat) (g : Fn → Fn) (d : Dev) : (updFn f g d).exc = d.exc := rfl
@[simp] theorem updFn_learn (f : Nat) (g : Fn → Fn) (d : Dev) : (updFn f g d).learn = d.learn := rfl
@[simp] theorem updFn_pkts (f : Nat) (g : Fn → Fn) (d : Dev) : (updFn f g d).pkts = d.pkts := rfl
@[simp] theorem updFn_nextPkt (f : Nat) (g : Fn → Fn) (d : Dev) : (updFn f g d).nextPkt = d.nextPkt := rfl
@[simp] theorem updFn_ipId (f : Nat) (g : Fn → Fn) (d : Dev) : (updFn f g d).ipId = d.ipId := rfl
@[simp] theorem updFn_ctxCache (f : Nat) (g : Fn → Fn) (d : Dev) : (updFn f g d).ctxCache = d.ctxCache := rfl
@[simp] theorem updFn_ctxMiss (f : Nat) (g : Fn → Fn) (d : Dev) : (updFn f g d).ctxMiss = d.ctxMiss := rfl
@[simp] theorem updFn_placing (f : Nat) (g : Fn → Fn) (d : Dev) : (updFn f g d).placing = d.placing := rfl
@[simp] theorem updFn_ptOff (f : Nat) (g : Fn → Fn) (d : Dev) : (updFn f g d).ptOff = d.ptOff := rfl
@[simp] theorem updFn_policers (f : Nat) (g : Fn → Fn) (d : Dev) : (updFn f g d).policers = d.policers := rfl
@[simp] theorem updFn_nodes (f : Nat) (g : Fn → Fn) (d : Dev) : (updFn f g d).nodes = d.nodes := rfl
@[simp] theorem updFn_ports (f : Nat) (g : Fn → Fn) (d : Dev) : (updFn f g d).ports = d.ports := rfl
@[simp] theorem updFn_cores (f : Nat) (g : Fn → Fn) (d : Dev) : (updFn f g d).cores = d.cores := rfl
@[simp] theorem updFn_ic (f : Nat) (g : Fn → Fn) (d : Dev) : (updFn f g d).ic = d.ic := rfl
@[simp] theorem updFn_locks (f : Nat) (g : Fn → Fn) (d : Dev) : (updFn f g d).locks = d.locks := rfl
@[simp] theorem updFn_chans (f : Nat) (g : Fn → Fn) (d : Dev) : (updFn f g d).chans = d.chans := rfl
@[simp] theorem updFn_engines (f : Nat) (g : Fn → Fn) (d : Dev) : (updFn f g d).engines = d.engines := rfl
@[simp] theorem updFn_mem (f : Nat) (g : Fn → Fn) (d : Dev) : (updFn f g d).mem = d.mem := rfl
@[simp] theorem updFn_chk (f : Nat) (g : Fn → Fn) (d : Dev) : (updFn f g d).chk = d.chk := rfl
@[simp] theorem updFn_repairs (f : Nat) (g : Fn → Fn) (d : Dev) : (updFn f g d).repairs = d.repairs := rfl
@[simp] theorem updFn_scrubs (f : Nat) (g : Fn → Fn) (d : Dev) : (updFn f g d).scrubs = d.scrubs := rfl
@[simp] theorem updFn_board (f : Nat) (g : Fn → Fn) (d : Dev) : (updFn f g d).board = d.board := rfl
@[simp] theorem updFn_power (f : Nat) (g : Fn → Fn) (d : Dev) : (updFn f g d).power = d.power := rfl
@[simp] theorem updFn_tap (f : Nat) (g : Fn → Fn) (d : Dev) : (updFn f g d).tap = d.tap := rfl

/-! ### updLink -/

@[simp] theorem updLink_time (n : Nat) (g : Link → Link) (d : Dev) : (updLink n g d).time = d.time := rfl
@[simp] theorem updLink_regs (n : Nat) (g : Link → Link) (d : Dev) : (updLink n g d).regs = d.regs := rfl
@[simp] theorem updLink_latches (n : Nat) (g : Link → Link) (d : Dev) : (updLink n g d).latches = d.latches := rfl
@[simp] theorem updLink_held (n : Nat) (g : Link → Link) (d : Dev) : (updLink n g d).held = d.held := rfl
@[simp] theorem updLink_captures (n : Nat) (g : Link → Link) (d : Dev) : (updLink n g d).captures = d.captures := rfl
@[simp] theorem updLink_out (n : Nat) (g : Link → Link) (d : Dev) : (updLink n g d).out = d.out := rfl
@[simp] theorem updLink_free (n : Nat) (g : Link → Link) (d : Dev) : (updLink n g d).free = d.free := rfl
@[simp] theorem updLink_updates (n : Nat) (g : Link → Link) (d : Dev) : (updLink n g d).updates = d.updates := rfl
@[simp] theorem updLink_lastApply (n : Nat) (g : Link → Link) (d : Dev) : (updLink n g d).lastApply = d.lastApply := rfl
@[simp] theorem updLink_mev (n : Nat) (g : Link → Link) (d : Dev) : (updLink n g d).mev = d.mev := rfl
@[simp] theorem updLink_rings (n : Nat) (g : Link → Link) (d : Dev) : (updLink n g d).rings = d.rings := rfl
@[simp] theorem updLink_served (n : Nat) (g : Link → Link) (d : Dev) : (updLink n g d).served = d.served := rfl
@[simp] theorem updLink_accepted (n : Nat) (g : Link → Link) (d : Dev) : (updLink n g d).accepted = d.accepted := rfl
@[simp] theorem updLink_tblRegs (n : Nat) (g : Link → Link) (d : Dev) : (updLink n g d).tblRegs = d.tblRegs := rfl
@[simp] theorem updLink_snap (n : Nat) (g : Link → Link) (d : Dev) : (updLink n g d).snap = d.snap := rfl
@[simp] theorem updLink_snapSeq (n : Nat) (g : Link → Link) (d : Dev) : (updLink n g d).snapSeq = d.snapSeq := rfl
@[simp] theorem updLink_fns (n : Nat) (g : Link → Link) (d : Dev) : (updLink n g d).fns = d.fns := rfl
@[simp] theorem updLink_owners (n : Nat) (g : Link → Link) (d : Dev) : (updLink n g d).owners = d.owners := rfl
@[simp] theorem updLink_slices (n : Nat) (g : Link → Link) (d : Dev) : (updLink n g d).slices = d.slices := rfl
@[simp] theorem updLink_queues (n : Nat) (g : Link → Link) (d : Dev) : (updLink n g d).queues = d.queues := rfl
@[simp] theorem updLink_cqs (n : Nat) (g : Link → Link) (d : Dev) : (updLink n g d).cqs = d.cqs := rfl
@[simp] theorem updLink_mail (n : Nat) (g : Link → Link) (d : Dev) : (updLink n g d).mail = d.mail := rfl
@[simp] theorem updLink_eyelets (n : Nat) (g : Link → Link) (d : Dev) : (updLink n g d).eyelets = d.eyelets := rfl
@[simp] theorem updLink_freed (n : Nat) (g : Link → Link) (d : Dev) : (updLink n g d).freed = d.freed := rfl
@[simp] theorem updLink_tables (n : Nat) (g : Link → Link) (d : Dev) : (updLink n g d).tables = d.tables := rfl
@[simp] theorem updLink_gens (n : Nat) (g : Link → Link) (d : Dev) : (updLink n g d).gens = d.gens := rfl
@[simp] theorem updLink_counters (n : Nat) (g : Link → Link) (d : Dev) : (updLink n g d).counters = d.counters := rfl
@[simp] theorem updLink_exc (n : Nat) (g : Link → Link) (d : Dev) : (updLink n g d).exc = d.exc := rfl
@[simp] theorem updLink_learn (n : Nat) (g : Link → Link) (d : Dev) : (updLink n g d).learn = d.learn := rfl
@[simp] theorem updLink_pkts (n : Nat) (g : Link → Link) (d : Dev) : (updLink n g d).pkts = d.pkts := rfl
@[simp] theorem updLink_nextPkt (n : Nat) (g : Link → Link) (d : Dev) : (updLink n g d).nextPkt = d.nextPkt := rfl
@[simp] theorem updLink_ipId (n : Nat) (g : Link → Link) (d : Dev) : (updLink n g d).ipId = d.ipId := rfl
@[simp] theorem updLink_ctxCache (n : Nat) (g : Link → Link) (d : Dev) : (updLink n g d).ctxCache = d.ctxCache := rfl
@[simp] theorem updLink_ctxMiss (n : Nat) (g : Link → Link) (d : Dev) : (updLink n g d).ctxMiss = d.ctxMiss := rfl
@[simp] theorem updLink_placing (n : Nat) (g : Link → Link) (d : Dev) : (updLink n g d).placing = d.placing := rfl
@[simp] theorem updLink_ptOff (n : Nat) (g : Link → Link) (d : Dev) : (updLink n g d).ptOff = d.ptOff := rfl
@[simp] theorem updLink_policers (n : Nat) (g : Link → Link) (d : Dev) : (updLink n g d).policers = d.policers := rfl
@[simp] theorem updLink_nodes (n : Nat) (g : Link → Link) (d : Dev) : (updLink n g d).nodes = d.nodes := rfl
@[simp] theorem updLink_ports (n : Nat) (g : Link → Link) (d : Dev) : (updLink n g d).ports = d.ports := rfl
@[simp] theorem updLink_cores (n : Nat) (g : Link → Link) (d : Dev) : (updLink n g d).cores = d.cores := rfl
@[simp] theorem updLink_ic (n : Nat) (g : Link → Link) (d : Dev) : (updLink n g d).ic = d.ic := rfl
@[simp] theorem updLink_locks (n : Nat) (g : Link → Link) (d : Dev) : (updLink n g d).locks = d.locks := rfl
@[simp] theorem updLink_chans (n : Nat) (g : Link → Link) (d : Dev) : (updLink n g d).chans = d.chans := rfl
@[simp] theorem updLink_engines (n : Nat) (g : Link → Link) (d : Dev) : (updLink n g d).engines = d.engines := rfl
@[simp] theorem updLink_mem (n : Nat) (g : Link → Link) (d : Dev) : (updLink n g d).mem = d.mem := rfl
@[simp] theorem updLink_chk (n : Nat) (g : Link → Link) (d : Dev) : (updLink n g d).chk = d.chk := rfl
@[simp] theorem updLink_repairs (n : Nat) (g : Link → Link) (d : Dev) : (updLink n g d).repairs = d.repairs := rfl
@[simp] theorem updLink_scrubs (n : Nat) (g : Link → Link) (d : Dev) : (updLink n g d).scrubs = d.scrubs := rfl
@[simp] theorem updLink_board (n : Nat) (g : Link → Link) (d : Dev) : (updLink n g d).board = d.board := rfl
@[simp] theorem updLink_power (n : Nat) (g : Link → Link) (d : Dev) : (updLink n g d).power = d.power := rfl
@[simp] theorem updLink_tap (n : Nat) (g : Link → Link) (d : Dev) : (updLink n g d).tap = d.tap := rfl

/-! ### updRing -/

@[simp] theorem updRing_time (r : Ring) (g : CmdRing → CmdRing) (d : Dev) : (updRing r g d).time = d.time := rfl
@[simp] theorem updRing_regs (r : Ring) (g : CmdRing → CmdRing) (d : Dev) : (updRing r g d).regs = d.regs := rfl
@[simp] theorem updRing_latches (r : Ring) (g : CmdRing → CmdRing) (d : Dev) : (updRing r g d).latches = d.latches := rfl
@[simp] theorem updRing_held (r : Ring) (g : CmdRing → CmdRing) (d : Dev) : (updRing r g d).held = d.held := rfl
@[simp] theorem updRing_captures (r : Ring) (g : CmdRing → CmdRing) (d : Dev) : (updRing r g d).captures = d.captures := rfl
@[simp] theorem updRing_out (r : Ring) (g : CmdRing → CmdRing) (d : Dev) : (updRing r g d).out = d.out := rfl
@[simp] theorem updRing_free (r : Ring) (g : CmdRing → CmdRing) (d : Dev) : (updRing r g d).free = d.free := rfl
@[simp] theorem updRing_updates (r : Ring) (g : CmdRing → CmdRing) (d : Dev) : (updRing r g d).updates = d.updates := rfl
@[simp] theorem updRing_lastApply (r : Ring) (g : CmdRing → CmdRing) (d : Dev) : (updRing r g d).lastApply = d.lastApply := rfl
@[simp] theorem updRing_mev (r : Ring) (g : CmdRing → CmdRing) (d : Dev) : (updRing r g d).mev = d.mev := rfl
@[simp] theorem updRing_served (r : Ring) (g : CmdRing → CmdRing) (d : Dev) : (updRing r g d).served = d.served := rfl
@[simp] theorem updRing_accepted (r : Ring) (g : CmdRing → CmdRing) (d : Dev) : (updRing r g d).accepted = d.accepted := rfl
@[simp] theorem updRing_tblRegs (r : Ring) (g : CmdRing → CmdRing) (d : Dev) : (updRing r g d).tblRegs = d.tblRegs := rfl
@[simp] theorem updRing_snap (r : Ring) (g : CmdRing → CmdRing) (d : Dev) : (updRing r g d).snap = d.snap := rfl
@[simp] theorem updRing_snapSeq (r : Ring) (g : CmdRing → CmdRing) (d : Dev) : (updRing r g d).snapSeq = d.snapSeq := rfl
@[simp] theorem updRing_fns (r : Ring) (g : CmdRing → CmdRing) (d : Dev) : (updRing r g d).fns = d.fns := rfl
@[simp] theorem updRing_links (r : Ring) (g : CmdRing → CmdRing) (d : Dev) : (updRing r g d).links = d.links := rfl
@[simp] theorem updRing_owners (r : Ring) (g : CmdRing → CmdRing) (d : Dev) : (updRing r g d).owners = d.owners := rfl
@[simp] theorem updRing_slices (r : Ring) (g : CmdRing → CmdRing) (d : Dev) : (updRing r g d).slices = d.slices := rfl
@[simp] theorem updRing_queues (r : Ring) (g : CmdRing → CmdRing) (d : Dev) : (updRing r g d).queues = d.queues := rfl
@[simp] theorem updRing_cqs (r : Ring) (g : CmdRing → CmdRing) (d : Dev) : (updRing r g d).cqs = d.cqs := rfl
@[simp] theorem updRing_mail (r : Ring) (g : CmdRing → CmdRing) (d : Dev) : (updRing r g d).mail = d.mail := rfl
@[simp] theorem updRing_eyelets (r : Ring) (g : CmdRing → CmdRing) (d : Dev) : (updRing r g d).eyelets = d.eyelets := rfl
@[simp] theorem updRing_freed (r : Ring) (g : CmdRing → CmdRing) (d : Dev) : (updRing r g d).freed = d.freed := rfl
@[simp] theorem updRing_tables (r : Ring) (g : CmdRing → CmdRing) (d : Dev) : (updRing r g d).tables = d.tables := rfl
@[simp] theorem updRing_gens (r : Ring) (g : CmdRing → CmdRing) (d : Dev) : (updRing r g d).gens = d.gens := rfl
@[simp] theorem updRing_counters (r : Ring) (g : CmdRing → CmdRing) (d : Dev) : (updRing r g d).counters = d.counters := rfl
@[simp] theorem updRing_exc (r : Ring) (g : CmdRing → CmdRing) (d : Dev) : (updRing r g d).exc = d.exc := rfl
@[simp] theorem updRing_learn (r : Ring) (g : CmdRing → CmdRing) (d : Dev) : (updRing r g d).learn = d.learn := rfl
@[simp] theorem updRing_pkts (r : Ring) (g : CmdRing → CmdRing) (d : Dev) : (updRing r g d).pkts = d.pkts := rfl
@[simp] theorem updRing_nextPkt (r : Ring) (g : CmdRing → CmdRing) (d : Dev) : (updRing r g d).nextPkt = d.nextPkt := rfl
@[simp] theorem updRing_ipId (r : Ring) (g : CmdRing → CmdRing) (d : Dev) : (updRing r g d).ipId = d.ipId := rfl
@[simp] theorem updRing_ctxCache (r : Ring) (g : CmdRing → CmdRing) (d : Dev) : (updRing r g d).ctxCache = d.ctxCache := rfl
@[simp] theorem updRing_ctxMiss (r : Ring) (g : CmdRing → CmdRing) (d : Dev) : (updRing r g d).ctxMiss = d.ctxMiss := rfl
@[simp] theorem updRing_placing (r : Ring) (g : CmdRing → CmdRing) (d : Dev) : (updRing r g d).placing = d.placing := rfl
@[simp] theorem updRing_ptOff (r : Ring) (g : CmdRing → CmdRing) (d : Dev) : (updRing r g d).ptOff = d.ptOff := rfl
@[simp] theorem updRing_policers (r : Ring) (g : CmdRing → CmdRing) (d : Dev) : (updRing r g d).policers = d.policers := rfl
@[simp] theorem updRing_nodes (r : Ring) (g : CmdRing → CmdRing) (d : Dev) : (updRing r g d).nodes = d.nodes := rfl
@[simp] theorem updRing_ports (r : Ring) (g : CmdRing → CmdRing) (d : Dev) : (updRing r g d).ports = d.ports := rfl
@[simp] theorem updRing_cores (r : Ring) (g : CmdRing → CmdRing) (d : Dev) : (updRing r g d).cores = d.cores := rfl
@[simp] theorem updRing_ic (r : Ring) (g : CmdRing → CmdRing) (d : Dev) : (updRing r g d).ic = d.ic := rfl
@[simp] theorem updRing_locks (r : Ring) (g : CmdRing → CmdRing) (d : Dev) : (updRing r g d).locks = d.locks := rfl
@[simp] theorem updRing_chans (r : Ring) (g : CmdRing → CmdRing) (d : Dev) : (updRing r g d).chans = d.chans := rfl
@[simp] theorem updRing_engines (r : Ring) (g : CmdRing → CmdRing) (d : Dev) : (updRing r g d).engines = d.engines := rfl
@[simp] theorem updRing_mem (r : Ring) (g : CmdRing → CmdRing) (d : Dev) : (updRing r g d).mem = d.mem := rfl
@[simp] theorem updRing_chk (r : Ring) (g : CmdRing → CmdRing) (d : Dev) : (updRing r g d).chk = d.chk := rfl
@[simp] theorem updRing_repairs (r : Ring) (g : CmdRing → CmdRing) (d : Dev) : (updRing r g d).repairs = d.repairs := rfl
@[simp] theorem updRing_scrubs (r : Ring) (g : CmdRing → CmdRing) (d : Dev) : (updRing r g d).scrubs = d.scrubs := rfl
@[simp] theorem updRing_board (r : Ring) (g : CmdRing → CmdRing) (d : Dev) : (updRing r g d).board = d.board := rfl
@[simp] theorem updRing_power (r : Ring) (g : CmdRing → CmdRing) (d : Dev) : (updRing r g d).power = d.power := rfl
@[simp] theorem updRing_tap (r : Ring) (g : CmdRing → CmdRing) (d : Dev) : (updRing r g d).tap = d.tap := rfl

/-! ### updOwner -/

@[simp] theorem updOwner_time (o : Owner) (g : OwnerSt → OwnerSt) (d : Dev) : (updOwner o g d).time = d.time := rfl
@[simp] theorem updOwner_regs (o : Owner) (g : OwnerSt → OwnerSt) (d : Dev) : (updOwner o g d).regs = d.regs := rfl
@[simp] theorem updOwner_latches (o : Owner) (g : OwnerSt → OwnerSt) (d : Dev) : (updOwner o g d).latches = d.latches := rfl
@[simp] theorem updOwner_held (o : Owner) (g : OwnerSt → OwnerSt) (d : Dev) : (updOwner o g d).held = d.held := rfl
@[simp] theorem updOwner_captures (o : Owner) (g : OwnerSt → OwnerSt) (d : Dev) : (updOwner o g d).captures = d.captures := rfl
@[simp] theorem updOwner_out (o : Owner) (g : OwnerSt → OwnerSt) (d : Dev) : (updOwner o g d).out = d.out := rfl
@[simp] theorem updOwner_free (o : Owner) (g : OwnerSt → OwnerSt) (d : Dev) : (updOwner o g d).free = d.free := rfl
@[simp] theorem updOwner_updates (o : Owner) (g : OwnerSt → OwnerSt) (d : Dev) : (updOwner o g d).updates = d.updates := rfl
@[simp] theorem updOwner_lastApply (o : Owner) (g : OwnerSt → OwnerSt) (d : Dev) : (updOwner o g d).lastApply = d.lastApply := rfl
@[simp] theorem updOwner_mev (o : Owner) (g : OwnerSt → OwnerSt) (d : Dev) : (updOwner o g d).mev = d.mev := rfl
@[simp] theorem updOwner_rings (o : Owner) (g : OwnerSt → OwnerSt) (d : Dev) : (updOwner o g d).rings = d.rings := rfl
@[simp] theorem updOwner_served (o : Owner) (g : OwnerSt → OwnerSt) (d : Dev) : (updOwner o g d).served = d.served := rfl
@[simp] theorem updOwner_accepted (o : Owner) (g : OwnerSt → OwnerSt) (d : Dev) : (updOwner o g d).accepted = d.accepted := rfl
@[simp] theorem updOwner_tblRegs (o : Owner) (g : OwnerSt → OwnerSt) (d : Dev) : (updOwner o g d).tblRegs = d.tblRegs := rfl
@[simp] theorem updOwner_snap (o : Owner) (g : OwnerSt → OwnerSt) (d : Dev) : (updOwner o g d).snap = d.snap := rfl
@[simp] theorem updOwner_snapSeq (o : Owner) (g : OwnerSt → OwnerSt) (d : Dev) : (updOwner o g d).snapSeq = d.snapSeq := rfl
@[simp] theorem updOwner_fns (o : Owner) (g : OwnerSt → OwnerSt) (d : Dev) : (updOwner o g d).fns = d.fns := rfl
@[simp] theorem updOwner_links (o : Owner) (g : OwnerSt → OwnerSt) (d : Dev) : (updOwner o g d).links = d.links := rfl
@[simp] theorem updOwner_slices (o : Owner) (g : OwnerSt → OwnerSt) (d : Dev) : (updOwner o g d).slices = d.slices := rfl
@[simp] theorem updOwner_queues (o : Owner) (g : OwnerSt → OwnerSt) (d : Dev) : (updOwner o g d).queues = d.queues := rfl
@[simp] theorem updOwner_cqs (o : Owner) (g : OwnerSt → OwnerSt) (d : Dev) : (updOwner o g d).cqs = d.cqs := rfl
@[simp] theorem updOwner_mail (o : Owner) (g : OwnerSt → OwnerSt) (d : Dev) : (updOwner o g d).mail = d.mail := rfl
@[simp] theorem updOwner_eyelets (o : Owner) (g : OwnerSt → OwnerSt) (d : Dev) : (updOwner o g d).eyelets = d.eyelets := rfl
@[simp] theorem updOwner_freed (o : Owner) (g : OwnerSt → OwnerSt) (d : Dev) : (updOwner o g d).freed = d.freed := rfl
@[simp] theorem updOwner_tables (o : Owner) (g : OwnerSt → OwnerSt) (d : Dev) : (updOwner o g d).tables = d.tables := rfl
@[simp] theorem updOwner_gens (o : Owner) (g : OwnerSt → OwnerSt) (d : Dev) : (updOwner o g d).gens = d.gens := rfl
@[simp] theorem updOwner_counters (o : Owner) (g : OwnerSt → OwnerSt) (d : Dev) : (updOwner o g d).counters = d.counters := rfl
@[simp] theorem updOwner_exc (o : Owner) (g : OwnerSt → OwnerSt) (d : Dev) : (updOwner o g d).exc = d.exc := rfl
@[simp] theorem updOwner_learn (o : Owner) (g : OwnerSt → OwnerSt) (d : Dev) : (updOwner o g d).learn = d.learn := rfl
@[simp] theorem updOwner_pkts (o : Owner) (g : OwnerSt → OwnerSt) (d : Dev) : (updOwner o g d).pkts = d.pkts := rfl
@[simp] theorem updOwner_nextPkt (o : Owner) (g : OwnerSt → OwnerSt) (d : Dev) : (updOwner o g d).nextPkt = d.nextPkt := rfl
@[simp] theorem updOwner_ipId (o : Owner) (g : OwnerSt → OwnerSt) (d : Dev) : (updOwner o g d).ipId = d.ipId := rfl
@[simp] theorem updOwner_ctxCache (o : Owner) (g : OwnerSt → OwnerSt) (d : Dev) : (updOwner o g d).ctxCache = d.ctxCache := rfl
@[simp] theorem updOwner_ctxMiss (o : Owner) (g : OwnerSt → OwnerSt) (d : Dev) : (updOwner o g d).ctxMiss = d.ctxMiss := rfl
@[simp] theorem updOwner_placing (o : Owner) (g : OwnerSt → OwnerSt) (d : Dev) : (updOwner o g d).placing = d.placing := rfl
@[simp] theorem updOwner_ptOff (o : Owner) (g : OwnerSt → OwnerSt) (d : Dev) : (updOwner o g d).ptOff = d.ptOff := rfl
@[simp] theorem updOwner_policers (o : Owner) (g : OwnerSt → OwnerSt) (d : Dev) : (updOwner o g d).policers = d.policers := rfl
@[simp] theorem updOwner_nodes (o : Owner) (g : OwnerSt → OwnerSt) (d : Dev) : (updOwner o g d).nodes = d.nodes := rfl
@[simp] theorem updOwner_ports (o : Owner) (g : OwnerSt → OwnerSt) (d : Dev) : (updOwner o g d).ports = d.ports := rfl
@[simp] theorem updOwner_cores (o : Owner) (g : OwnerSt → OwnerSt) (d : Dev) : (updOwner o g d).cores = d.cores := rfl
@[simp] theorem updOwner_ic (o : Owner) (g : OwnerSt → OwnerSt) (d : Dev) : (updOwner o g d).ic = d.ic := rfl
@[simp] theorem updOwner_locks (o : Owner) (g : OwnerSt → OwnerSt) (d : Dev) : (updOwner o g d).locks = d.locks := rfl
@[simp] theorem updOwner_chans (o : Owner) (g : OwnerSt → OwnerSt) (d : Dev) : (updOwner o g d).chans = d.chans := rfl
@[simp] theorem updOwner_engines (o : Owner) (g : OwnerSt → OwnerSt) (d : Dev) : (updOwner o g d).engines = d.engines := rfl
@[simp] theorem updOwner_mem (o : Owner) (g : OwnerSt → OwnerSt) (d : Dev) : (updOwner o g d).mem = d.mem := rfl
@[simp] theorem updOwner_chk (o : Owner) (g : OwnerSt → OwnerSt) (d : Dev) : (updOwner o g d).chk = d.chk := rfl
@[simp] theorem updOwner_repairs (o : Owner) (g : OwnerSt → OwnerSt) (d : Dev) : (updOwner o g d).repairs = d.repairs := rfl
@[simp] theorem updOwner_scrubs (o : Owner) (g : OwnerSt → OwnerSt) (d : Dev) : (updOwner o g d).scrubs = d.scrubs := rfl
@[simp] theorem updOwner_board (o : Owner) (g : OwnerSt → OwnerSt) (d : Dev) : (updOwner o g d).board = d.board := rfl
@[simp] theorem updOwner_power (o : Owner) (g : OwnerSt → OwnerSt) (d : Dev) : (updOwner o g d).power = d.power := rfl
@[simp] theorem updOwner_tap (o : Owner) (g : OwnerSt → OwnerSt) (d : Dev) : (updOwner o g d).tap = d.tap := rfl

/-! ### updSlice -/

@[simp] theorem updSlice_time (s : Nat) (g : Slice → Slice) (d : Dev) : (updSlice s g d).time = d.time := rfl
@[simp] theorem updSlice_regs (s : Nat) (g : Slice → Slice) (d : Dev) : (updSlice s g d).regs = d.regs := rfl
@[simp] theorem updSlice_latches (s : Nat) (g : Slice → Slice) (d : Dev) : (updSlice s g d).latches = d.latches := rfl
@[simp] theorem updSlice_held (s : Nat) (g : Slice → Slice) (d : Dev) : (updSlice s g d).held = d.held := rfl
@[simp] theorem updSlice_captures (s : Nat) (g : Slice → Slice) (d : Dev) : (updSlice s g d).captures = d.captures := rfl
@[simp] theorem updSlice_out (s : Nat) (g : Slice → Slice) (d : Dev) : (updSlice s g d).out = d.out := rfl
@[simp] theorem updSlice_free (s : Nat) (g : Slice → Slice) (d : Dev) : (updSlice s g d).free = d.free := rfl
@[simp] theorem updSlice_updates (s : Nat) (g : Slice → Slice) (d : Dev) : (updSlice s g d).updates = d.updates := rfl
@[simp] theorem updSlice_lastApply (s : Nat) (g : Slice → Slice) (d : Dev) : (updSlice s g d).lastApply = d.lastApply := rfl
@[simp] theorem updSlice_mev (s : Nat) (g : Slice → Slice) (d : Dev) : (updSlice s g d).mev = d.mev := rfl
@[simp] theorem updSlice_rings (s : Nat) (g : Slice → Slice) (d : Dev) : (updSlice s g d).rings = d.rings := rfl
@[simp] theorem updSlice_served (s : Nat) (g : Slice → Slice) (d : Dev) : (updSlice s g d).served = d.served := rfl
@[simp] theorem updSlice_accepted (s : Nat) (g : Slice → Slice) (d : Dev) : (updSlice s g d).accepted = d.accepted := rfl
@[simp] theorem updSlice_tblRegs (s : Nat) (g : Slice → Slice) (d : Dev) : (updSlice s g d).tblRegs = d.tblRegs := rfl
@[simp] theorem updSlice_snap (s : Nat) (g : Slice → Slice) (d : Dev) : (updSlice s g d).snap = d.snap := rfl
@[simp] theorem updSlice_snapSeq (s : Nat) (g : Slice → Slice) (d : Dev) : (updSlice s g d).snapSeq = d.snapSeq := rfl
@[simp] theorem updSlice_fns (s : Nat) (g : Slice → Slice) (d : Dev) : (updSlice s g d).fns = d.fns := rfl
@[simp] theorem updSlice_links (s : Nat) (g : Slice → Slice) (d : Dev) : (updSlice s g d).links = d.links := rfl
@[simp] theorem updSlice_owners (s : Nat) (g : Slice → Slice) (d : Dev) : (updSlice s g d).owners = d.owners := rfl
@[simp] theorem updSlice_queues (s : Nat) (g : Slice → Slice) (d : Dev) : (updSlice s g d).queues = d.queues := rfl
@[simp] theorem updSlice_cqs (s : Nat) (g : Slice → Slice) (d : Dev) : (updSlice s g d).cqs = d.cqs := rfl
@[simp] theorem updSlice_mail (s : Nat) (g : Slice → Slice) (d : Dev) : (updSlice s g d).mail = d.mail := rfl
@[simp] theorem updSlice_eyelets (s : Nat) (g : Slice → Slice) (d : Dev) : (updSlice s g d).eyelets = d.eyelets := rfl
@[simp] theorem updSlice_freed (s : Nat) (g : Slice → Slice) (d : Dev) : (updSlice s g d).freed = d.freed := rfl
@[simp] theorem updSlice_tables (s : Nat) (g : Slice → Slice) (d : Dev) : (updSlice s g d).tables = d.tables := rfl
@[simp] theorem updSlice_gens (s : Nat) (g : Slice → Slice) (d : Dev) : (updSlice s g d).gens = d.gens := rfl
@[simp] theorem updSlice_counters (s : Nat) (g : Slice → Slice) (d : Dev) : (updSlice s g d).counters = d.counters := rfl
@[simp] theorem updSlice_exc (s : Nat) (g : Slice → Slice) (d : Dev) : (updSlice s g d).exc = d.exc := rfl
@[simp] theorem updSlice_learn (s : Nat) (g : Slice → Slice) (d : Dev) : (updSlice s g d).learn = d.learn := rfl
@[simp] theorem updSlice_pkts (s : Nat) (g : Slice → Slice) (d : Dev) : (updSlice s g d).pkts = d.pkts := rfl
@[simp] theorem updSlice_nextPkt (s : Nat) (g : Slice → Slice) (d : Dev) : (updSlice s g d).nextPkt = d.nextPkt := rfl
@[simp] theorem updSlice_ipId (s : Nat) (g : Slice → Slice) (d : Dev) : (updSlice s g d).ipId = d.ipId := rfl
@[simp] theorem updSlice_ctxCache (s : Nat) (g : Slice → Slice) (d : Dev) : (updSlice s g d).ctxCache = d.ctxCache := rfl
@[simp] theorem updSlice_ctxMiss (s : Nat) (g : Slice → Slice) (d : Dev) : (updSlice s g d).ctxMiss = d.ctxMiss := rfl
@[simp] theorem updSlice_placing (s : Nat) (g : Slice → Slice) (d : Dev) : (updSlice s g d).placing = d.placing := rfl
@[simp] theorem updSlice_ptOff (s : Nat) (g : Slice → Slice) (d : Dev) : (updSlice s g d).ptOff = d.ptOff := rfl
@[simp] theorem updSlice_policers (s : Nat) (g : Slice → Slice) (d : Dev) : (updSlice s g d).policers = d.policers := rfl
@[simp] theorem updSlice_nodes (s : Nat) (g : Slice → Slice) (d : Dev) : (updSlice s g d).nodes = d.nodes := rfl
@[simp] theorem updSlice_ports (s : Nat) (g : Slice → Slice) (d : Dev) : (updSlice s g d).ports = d.ports := rfl
@[simp] theorem updSlice_cores (s : Nat) (g : Slice → Slice) (d : Dev) : (updSlice s g d).cores = d.cores := rfl
@[simp] theorem updSlice_ic (s : Nat) (g : Slice → Slice) (d : Dev) : (updSlice s g d).ic = d.ic := rfl
@[simp] theorem updSlice_locks (s : Nat) (g : Slice → Slice) (d : Dev) : (updSlice s g d).locks = d.locks := rfl
@[simp] theorem updSlice_chans (s : Nat) (g : Slice → Slice) (d : Dev) : (updSlice s g d).chans = d.chans := rfl
@[simp] theorem updSlice_engines (s : Nat) (g : Slice → Slice) (d : Dev) : (updSlice s g d).engines = d.engines := rfl
@[simp] theorem updSlice_mem (s : Nat) (g : Slice → Slice) (d : Dev) : (updSlice s g d).mem = d.mem := rfl
@[simp] theorem updSlice_chk (s : Nat) (g : Slice → Slice) (d : Dev) : (updSlice s g d).chk = d.chk := rfl
@[simp] theorem updSlice_repairs (s : Nat) (g : Slice → Slice) (d : Dev) : (updSlice s g d).repairs = d.repairs := rfl
@[simp] theorem updSlice_scrubs (s : Nat) (g : Slice → Slice) (d : Dev) : (updSlice s g d).scrubs = d.scrubs := rfl
@[simp] theorem updSlice_board (s : Nat) (g : Slice → Slice) (d : Dev) : (updSlice s g d).board = d.board := rfl
@[simp] theorem updSlice_power (s : Nat) (g : Slice → Slice) (d : Dev) : (updSlice s g d).power = d.power := rfl
@[simp] theorem updSlice_tap (s : Nat) (g : Slice → Slice) (d : Dev) : (updSlice s g d).tap = d.tap := rfl

/-! ### updQueue -/

@[simp] theorem updQueue_time (o : Owner) (q : Nat) (g : Queue → Queue) (d : Dev) : (updQueue o q g d).time = d.time := rfl
@[simp] theorem updQueue_regs (o : Owner) (q : Nat) (g : Queue → Queue) (d : Dev) : (updQueue o q g d).regs = d.regs := rfl
@[simp] theorem updQueue_latches (o : Owner) (q : Nat) (g : Queue → Queue) (d : Dev) : (updQueue o q g d).latches = d.latches := rfl
@[simp] theorem updQueue_held (o : Owner) (q : Nat) (g : Queue → Queue) (d : Dev) : (updQueue o q g d).held = d.held := rfl
@[simp] theorem updQueue_captures (o : Owner) (q : Nat) (g : Queue → Queue) (d : Dev) : (updQueue o q g d).captures = d.captures := rfl
@[simp] theorem updQueue_out (o : Owner) (q : Nat) (g : Queue → Queue) (d : Dev) : (updQueue o q g d).out = d.out := rfl
@[simp] theorem updQueue_free (o : Owner) (q : Nat) (g : Queue → Queue) (d : Dev) : (updQueue o q g d).free = d.free := rfl
@[simp] theorem updQueue_updates (o : Owner) (q : Nat) (g : Queue → Queue) (d : Dev) : (updQueue o q g d).updates = d.updates := rfl
@[simp] theorem updQueue_lastApply (o : Owner) (q : Nat) (g : Queue → Queue) (d : Dev) : (updQueue o q g d).lastApply = d.lastApply := rfl
@[simp] theorem updQueue_mev (o : Owner) (q : Nat) (g : Queue → Queue) (d : Dev) : (updQueue o q g d).mev = d.mev := rfl
@[simp] theorem updQueue_rings (o : Owner) (q : Nat) (g : Queue → Queue) (d : Dev) : (updQueue o q g d).rings = d.rings := rfl
@[simp] theorem updQueue_served (o : Owner) (q : Nat) (g : Queue → Queue) (d : Dev) : (updQueue o q g d).served = d.served := rfl
@[simp] theorem updQueue_accepted (o : Owner) (q : Nat) (g : Queue → Queue) (d : Dev) : (updQueue o q g d).accepted = d.accepted := rfl
@[simp] theorem updQueue_tblRegs (o : Owner) (q : Nat) (g : Queue → Queue) (d : Dev) : (updQueue o q g d).tblRegs = d.tblRegs := rfl
@[simp] theorem updQueue_snap (o : Owner) (q : Nat) (g : Queue → Queue) (d : Dev) : (updQueue o q g d).snap = d.snap := rfl
@[simp] theorem updQueue_snapSeq (o : Owner) (q : Nat) (g : Queue → Queue) (d : Dev) : (updQueue o q g d).snapSeq = d.snapSeq := rfl
@[simp] theorem updQueue_fns (o : Owner) (q : Nat) (g : Queue → Queue) (d : Dev) : (updQueue o q g d).fns = d.fns := rfl
@[simp] theorem updQueue_links (o : Owner) (q : Nat) (g : Queue → Queue) (d : Dev) : (updQueue o q g d).links = d.links := rfl
@[simp] theorem updQueue_owners (o : Owner) (q : Nat) (g : Queue → Queue) (d : Dev) : (updQueue o q g d).owners = d.owners := rfl
@[simp] theorem updQueue_slices (o : Owner) (q : Nat) (g : Queue → Queue) (d : Dev) : (updQueue o q g d).slices = d.slices := rfl
@[simp] theorem updQueue_cqs (o : Owner) (q : Nat) (g : Queue → Queue) (d : Dev) : (updQueue o q g d).cqs = d.cqs := rfl
@[simp] theorem updQueue_mail (o : Owner) (q : Nat) (g : Queue → Queue) (d : Dev) : (updQueue o q g d).mail = d.mail := rfl
@[simp] theorem updQueue_eyelets (o : Owner) (q : Nat) (g : Queue → Queue) (d : Dev) : (updQueue o q g d).eyelets = d.eyelets := rfl
@[simp] theorem updQueue_freed (o : Owner) (q : Nat) (g : Queue → Queue) (d : Dev) : (updQueue o q g d).freed = d.freed := rfl
@[simp] theorem updQueue_tables (o : Owner) (q : Nat) (g : Queue → Queue) (d : Dev) : (updQueue o q g d).tables = d.tables := rfl
@[simp] theorem updQueue_gens (o : Owner) (q : Nat) (g : Queue → Queue) (d : Dev) : (updQueue o q g d).gens = d.gens := rfl
@[simp] theorem updQueue_counters (o : Owner) (q : Nat) (g : Queue → Queue) (d : Dev) : (updQueue o q g d).counters = d.counters := rfl
@[simp] theorem updQueue_exc (o : Owner) (q : Nat) (g : Queue → Queue) (d : Dev) : (updQueue o q g d).exc = d.exc := rfl
@[simp] theorem updQueue_learn (o : Owner) (q : Nat) (g : Queue → Queue) (d : Dev) : (updQueue o q g d).learn = d.learn := rfl
@[simp] theorem updQueue_pkts (o : Owner) (q : Nat) (g : Queue → Queue) (d : Dev) : (updQueue o q g d).pkts = d.pkts := rfl
@[simp] theorem updQueue_nextPkt (o : Owner) (q : Nat) (g : Queue → Queue) (d : Dev) : (updQueue o q g d).nextPkt = d.nextPkt := rfl
@[simp] theorem updQueue_ipId (o : Owner) (q : Nat) (g : Queue → Queue) (d : Dev) : (updQueue o q g d).ipId = d.ipId := rfl
@[simp] theorem updQueue_ctxCache (o : Owner) (q : Nat) (g : Queue → Queue) (d : Dev) : (updQueue o q g d).ctxCache = d.ctxCache := rfl
@[simp] theorem updQueue_ctxMiss (o : Owner) (q : Nat) (g : Queue → Queue) (d : Dev) : (updQueue o q g d).ctxMiss = d.ctxMiss := rfl
@[simp] theorem updQueue_placing (o : Owner) (q : Nat) (g : Queue → Queue) (d : Dev) : (updQueue o q g d).placing = d.placing := rfl
@[simp] theorem updQueue_ptOff (o : Owner) (q : Nat) (g : Queue → Queue) (d : Dev) : (updQueue o q g d).ptOff = d.ptOff := rfl
@[simp] theorem updQueue_policers (o : Owner) (q : Nat) (g : Queue → Queue) (d : Dev) : (updQueue o q g d).policers = d.policers := rfl
@[simp] theorem updQueue_nodes (o : Owner) (q : Nat) (g : Queue → Queue) (d : Dev) : (updQueue o q g d).nodes = d.nodes := rfl
@[simp] theorem updQueue_ports (o : Owner) (q : Nat) (g : Queue → Queue) (d : Dev) : (updQueue o q g d).ports = d.ports := rfl
@[simp] theorem updQueue_cores (o : Owner) (q : Nat) (g : Queue → Queue) (d : Dev) : (updQueue o q g d).cores = d.cores := rfl
@[simp] theorem updQueue_ic (o : Owner) (q : Nat) (g : Queue → Queue) (d : Dev) : (updQueue o q g d).ic = d.ic := rfl
@[simp] theorem updQueue_locks (o : Owner) (q : Nat) (g : Queue → Queue) (d : Dev) : (updQueue o q g d).locks = d.locks := rfl
@[simp] theorem updQueue_chans (o : Owner) (q : Nat) (g : Queue → Queue) (d : Dev) : (updQueue o q g d).chans = d.chans := rfl
@[simp] theorem updQueue_engines (o : Owner) (q : Nat) (g : Queue → Queue) (d : Dev) : (updQueue o q g d).engines = d.engines := rfl
@[simp] theorem updQueue_mem (o : Owner) (q : Nat) (g : Queue → Queue) (d : Dev) : (updQueue o q g d).mem = d.mem := rfl
@[simp] theorem updQueue_chk (o : Owner) (q : Nat) (g : Queue → Queue) (d : Dev) : (updQueue o q g d).chk = d.chk := rfl
@[simp] theorem updQueue_repairs (o : Owner) (q : Nat) (g : Queue → Queue) (d : Dev) : (updQueue o q g d).repairs = d.repairs := rfl
@[simp] theorem updQueue_scrubs (o : Owner) (q : Nat) (g : Queue → Queue) (d : Dev) : (updQueue o q g d).scrubs = d.scrubs := rfl
@[simp] theorem updQueue_board (o : Owner) (q : Nat) (g : Queue → Queue) (d : Dev) : (updQueue o q g d).board = d.board := rfl
@[simp] theorem updQueue_power (o : Owner) (q : Nat) (g : Queue → Queue) (d : Dev) : (updQueue o q g d).power = d.power := rfl
@[simp] theorem updQueue_tap (o : Owner) (q : Nat) (g : Queue → Queue) (d : Dev) : (updQueue o q g d).tap = d.tap := rfl

/-! ### updCq -/

@[simp] theorem updCq_time (o : Owner) (c : Nat) (g : Cq → Cq) (d : Dev) : (updCq o c g d).time = d.time := rfl
@[simp] theorem updCq_regs (o : Owner) (c : Nat) (g : Cq → Cq) (d : Dev) : (updCq o c g d).regs = d.regs := rfl
@[simp] theorem updCq_latches (o : Owner) (c : Nat) (g : Cq → Cq) (d : Dev) : (updCq o c g d).latches = d.latches := rfl
@[simp] theorem updCq_held (o : Owner) (c : Nat) (g : Cq → Cq) (d : Dev) : (updCq o c g d).held = d.held := rfl
@[simp] theorem updCq_captures (o : Owner) (c : Nat) (g : Cq → Cq) (d : Dev) : (updCq o c g d).captures = d.captures := rfl
@[simp] theorem updCq_out (o : Owner) (c : Nat) (g : Cq → Cq) (d : Dev) : (updCq o c g d).out = d.out := rfl
@[simp] theorem updCq_free (o : Owner) (c : Nat) (g : Cq → Cq) (d : Dev) : (updCq o c g d).free = d.free := rfl
@[simp] theorem updCq_updates (o : Owner) (c : Nat) (g : Cq → Cq) (d : Dev) : (updCq o c g d).updates = d.updates := rfl
@[simp] theorem updCq_lastApply (o : Owner) (c : Nat) (g : Cq → Cq) (d : Dev) : (updCq o c g d).lastApply = d.lastApply := rfl
@[simp] theorem updCq_mev (o : Owner) (c : Nat) (g : Cq → Cq) (d : Dev) : (updCq o c g d).mev = d.mev := rfl
@[simp] theorem updCq_rings (o : Owner) (c : Nat) (g : Cq → Cq) (d : Dev) : (updCq o c g d).rings = d.rings := rfl
@[simp] theorem updCq_served (o : Owner) (c : Nat) (g : Cq → Cq) (d : Dev) : (updCq o c g d).served = d.served := rfl
@[simp] theorem updCq_accepted (o : Owner) (c : Nat) (g : Cq → Cq) (d : Dev) : (updCq o c g d).accepted = d.accepted := rfl
@[simp] theorem updCq_tblRegs (o : Owner) (c : Nat) (g : Cq → Cq) (d : Dev) : (updCq o c g d).tblRegs = d.tblRegs := rfl
@[simp] theorem updCq_snap (o : Owner) (c : Nat) (g : Cq → Cq) (d : Dev) : (updCq o c g d).snap = d.snap := rfl
@[simp] theorem updCq_snapSeq (o : Owner) (c : Nat) (g : Cq → Cq) (d : Dev) : (updCq o c g d).snapSeq = d.snapSeq := rfl
@[simp] theorem updCq_fns (o : Owner) (c : Nat) (g : Cq → Cq) (d : Dev) : (updCq o c g d).fns = d.fns := rfl
@[simp] theorem updCq_links (o : Owner) (c : Nat) (g : Cq → Cq) (d : Dev) : (updCq o c g d).links = d.links := rfl
@[simp] theorem updCq_owners (o : Owner) (c : Nat) (g : Cq → Cq) (d : Dev) : (updCq o c g d).owners = d.owners := rfl
@[simp] theorem updCq_slices (o : Owner) (c : Nat) (g : Cq → Cq) (d : Dev) : (updCq o c g d).slices = d.slices := rfl
@[simp] theorem updCq_queues (o : Owner) (c : Nat) (g : Cq → Cq) (d : Dev) : (updCq o c g d).queues = d.queues := rfl
@[simp] theorem updCq_mail (o : Owner) (c : Nat) (g : Cq → Cq) (d : Dev) : (updCq o c g d).mail = d.mail := rfl
@[simp] theorem updCq_eyelets (o : Owner) (c : Nat) (g : Cq → Cq) (d : Dev) : (updCq o c g d).eyelets = d.eyelets := rfl
@[simp] theorem updCq_freed (o : Owner) (c : Nat) (g : Cq → Cq) (d : Dev) : (updCq o c g d).freed = d.freed := rfl
@[simp] theorem updCq_tables (o : Owner) (c : Nat) (g : Cq → Cq) (d : Dev) : (updCq o c g d).tables = d.tables := rfl
@[simp] theorem updCq_gens (o : Owner) (c : Nat) (g : Cq → Cq) (d : Dev) : (updCq o c g d).gens = d.gens := rfl
@[simp] theorem updCq_counters (o : Owner) (c : Nat) (g : Cq → Cq) (d : Dev) : (updCq o c g d).counters = d.counters := rfl
@[simp] theorem updCq_exc (o : Owner) (c : Nat) (g : Cq → Cq) (d : Dev) : (updCq o c g d).exc = d.exc := rfl
@[simp] theorem updCq_learn (o : Owner) (c : Nat) (g : Cq → Cq) (d : Dev) : (updCq o c g d).learn = d.learn := rfl
@[simp] theorem updCq_pkts (o : Owner) (c : Nat) (g : Cq → Cq) (d : Dev) : (updCq o c g d).pkts = d.pkts := rfl
@[simp] theorem updCq_nextPkt (o : Owner) (c : Nat) (g : Cq → Cq) (d : Dev) : (updCq o c g d).nextPkt = d.nextPkt := rfl
@[simp] theorem updCq_ipId (o : Owner) (c : Nat) (g : Cq → Cq) (d : Dev) : (updCq o c g d).ipId = d.ipId := rfl
@[simp] theorem updCq_ctxCache (o : Owner) (c : Nat) (g : Cq → Cq) (d : Dev) : (updCq o c g d).ctxCache = d.ctxCache := rfl
@[simp] theorem updCq_ctxMiss (o : Owner) (c : Nat) (g : Cq → Cq) (d : Dev) : (updCq o c g d).ctxMiss = d.ctxMiss := rfl
@[simp] theorem updCq_placing (o : Owner) (c : Nat) (g : Cq → Cq) (d : Dev) : (updCq o c g d).placing = d.placing := rfl
@[simp] theorem updCq_ptOff (o : Owner) (c : Nat) (g : Cq → Cq) (d : Dev) : (updCq o c g d).ptOff = d.ptOff := rfl
@[simp] theorem updCq_policers (o : Owner) (c : Nat) (g : Cq → Cq) (d : Dev) : (updCq o c g d).policers = d.policers := rfl
@[simp] theorem updCq_nodes (o : Owner) (c : Nat) (g : Cq → Cq) (d : Dev) : (updCq o c g d).nodes = d.nodes := rfl
@[simp] theorem updCq_ports (o : Owner) (c : Nat) (g : Cq → Cq) (d : Dev) : (updCq o c g d).ports = d.ports := rfl
@[simp] theorem updCq_cores (o : Owner) (c : Nat) (g : Cq → Cq) (d : Dev) : (updCq o c g d).cores = d.cores := rfl
@[simp] theorem updCq_ic (o : Owner) (c : Nat) (g : Cq → Cq) (d : Dev) : (updCq o c g d).ic = d.ic := rfl
@[simp] theorem updCq_locks (o : Owner) (c : Nat) (g : Cq → Cq) (d : Dev) : (updCq o c g d).locks = d.locks := rfl
@[simp] theorem updCq_chans (o : Owner) (c : Nat) (g : Cq → Cq) (d : Dev) : (updCq o c g d).chans = d.chans := rfl
@[simp] theorem updCq_engines (o : Owner) (c : Nat) (g : Cq → Cq) (d : Dev) : (updCq o c g d).engines = d.engines := rfl
@[simp] theorem updCq_mem (o : Owner) (c : Nat) (g : Cq → Cq) (d : Dev) : (updCq o c g d).mem = d.mem := rfl
@[simp] theorem updCq_chk (o : Owner) (c : Nat) (g : Cq → Cq) (d : Dev) : (updCq o c g d).chk = d.chk := rfl
@[simp] theorem updCq_repairs (o : Owner) (c : Nat) (g : Cq → Cq) (d : Dev) : (updCq o c g d).repairs = d.repairs := rfl
@[simp] theorem updCq_scrubs (o : Owner) (c : Nat) (g : Cq → Cq) (d : Dev) : (updCq o c g d).scrubs = d.scrubs := rfl
@[simp] theorem updCq_board (o : Owner) (c : Nat) (g : Cq → Cq) (d : Dev) : (updCq o c g d).board = d.board := rfl
@[simp] theorem updCq_power (o : Owner) (c : Nat) (g : Cq → Cq) (d : Dev) : (updCq o c g d).power = d.power := rfl
@[simp] theorem updCq_tap (o : Owner) (c : Nat) (g : Cq → Cq) (d : Dev) : (updCq o c g d).tap = d.tap := rfl

/-! ### updSide -/

@[simp] theorem updSide_time (x : Side) (g : MbSide → MbSide) (d : Dev) : (updSide x g d).time = d.time := rfl
@[simp] theorem updSide_regs (x : Side) (g : MbSide → MbSide) (d : Dev) : (updSide x g d).regs = d.regs := rfl
@[simp] theorem updSide_latches (x : Side) (g : MbSide → MbSide) (d : Dev) : (updSide x g d).latches = d.latches := rfl
@[simp] theorem updSide_held (x : Side) (g : MbSide → MbSide) (d : Dev) : (updSide x g d).held = d.held := rfl
@[simp] theorem updSide_captures (x : Side) (g : MbSide → MbSide) (d : Dev) : (updSide x g d).captures = d.captures := rfl
@[simp] theorem updSide_out (x : Side) (g : MbSide → MbSide) (d : Dev) : (updSide x g d).out = d.out := rfl
@[simp] theorem updSide_free (x : Side) (g : MbSide → MbSide) (d : Dev) : (updSide x g d).free = d.free := rfl
@[simp] theorem updSide_updates (x : Side) (g : MbSide → MbSide) (d : Dev) : (updSide x g d).updates = d.updates := rfl
@[simp] theorem updSide_lastApply (x : Side) (g : MbSide → MbSide) (d : Dev) : (updSide x g d).lastApply = d.lastApply := rfl
@[simp] theorem updSide_mev (x : Side) (g : MbSide → MbSide) (d : Dev) : (updSide x g d).mev = d.mev := rfl
@[simp] theorem updSide_rings (x : Side) (g : MbSide → MbSide) (d : Dev) : (updSide x g d).rings = d.rings := rfl
@[simp] theorem updSide_served (x : Side) (g : MbSide → MbSide) (d : Dev) : (updSide x g d).served = d.served := rfl
@[simp] theorem updSide_accepted (x : Side) (g : MbSide → MbSide) (d : Dev) : (updSide x g d).accepted = d.accepted := rfl
@[simp] theorem updSide_tblRegs (x : Side) (g : MbSide → MbSide) (d : Dev) : (updSide x g d).tblRegs = d.tblRegs := rfl
@[simp] theorem updSide_snap (x : Side) (g : MbSide → MbSide) (d : Dev) : (updSide x g d).snap = d.snap := rfl
@[simp] theorem updSide_snapSeq (x : Side) (g : MbSide → MbSide) (d : Dev) : (updSide x g d).snapSeq = d.snapSeq := rfl
@[simp] theorem updSide_fns (x : Side) (g : MbSide → MbSide) (d : Dev) : (updSide x g d).fns = d.fns := rfl
@[simp] theorem updSide_links (x : Side) (g : MbSide → MbSide) (d : Dev) : (updSide x g d).links = d.links := rfl
@[simp] theorem updSide_owners (x : Side) (g : MbSide → MbSide) (d : Dev) : (updSide x g d).owners = d.owners := rfl
@[simp] theorem updSide_slices (x : Side) (g : MbSide → MbSide) (d : Dev) : (updSide x g d).slices = d.slices := rfl
@[simp] theorem updSide_queues (x : Side) (g : MbSide → MbSide) (d : Dev) : (updSide x g d).queues = d.queues := rfl
@[simp] theorem updSide_cqs (x : Side) (g : MbSide → MbSide) (d : Dev) : (updSide x g d).cqs = d.cqs := rfl
@[simp] theorem updSide_eyelets (x : Side) (g : MbSide → MbSide) (d : Dev) : (updSide x g d).eyelets = d.eyelets := rfl
@[simp] theorem updSide_freed (x : Side) (g : MbSide → MbSide) (d : Dev) : (updSide x g d).freed = d.freed := rfl
@[simp] theorem updSide_tables (x : Side) (g : MbSide → MbSide) (d : Dev) : (updSide x g d).tables = d.tables := rfl
@[simp] theorem updSide_gens (x : Side) (g : MbSide → MbSide) (d : Dev) : (updSide x g d).gens = d.gens := rfl
@[simp] theorem updSide_counters (x : Side) (g : MbSide → MbSide) (d : Dev) : (updSide x g d).counters = d.counters := rfl
@[simp] theorem updSide_exc (x : Side) (g : MbSide → MbSide) (d : Dev) : (updSide x g d).exc = d.exc := rfl
@[simp] theorem updSide_learn (x : Side) (g : MbSide → MbSide) (d : Dev) : (updSide x g d).learn = d.learn := rfl
@[simp] theorem updSide_pkts (x : Side) (g : MbSide → MbSide) (d : Dev) : (updSide x g d).pkts = d.pkts := rfl
@[simp] theorem updSide_nextPkt (x : Side) (g : MbSide → MbSide) (d : Dev) : (updSide x g d).nextPkt = d.nextPkt := rfl
@[simp] theorem updSide_ipId (x : Side) (g : MbSide → MbSide) (d : Dev) : (updSide x g d).ipId = d.ipId := rfl
@[simp] theorem updSide_ctxCache (x : Side) (g : MbSide → MbSide) (d : Dev) : (updSide x g d).ctxCache = d.ctxCache := rfl
@[simp] theorem updSide_ctxMiss (x : Side) (g : MbSide → MbSide) (d : Dev) : (updSide x g d).ctxMiss = d.ctxMiss := rfl
@[simp] theorem updSide_placing (x : Side) (g : MbSide → MbSide) (d : Dev) : (updSide x g d).placing = d.placing := rfl
@[simp] theorem updSide_ptOff (x : Side) (g : MbSide → MbSide) (d : Dev) : (updSide x g d).ptOff = d.ptOff := rfl
@[simp] theorem updSide_policers (x : Side) (g : MbSide → MbSide) (d : Dev) : (updSide x g d).policers = d.policers := rfl
@[simp] theorem updSide_nodes (x : Side) (g : MbSide → MbSide) (d : Dev) : (updSide x g d).nodes = d.nodes := rfl
@[simp] theorem updSide_ports (x : Side) (g : MbSide → MbSide) (d : Dev) : (updSide x g d).ports = d.ports := rfl
@[simp] theorem updSide_cores (x : Side) (g : MbSide → MbSide) (d : Dev) : (updSide x g d).cores = d.cores := rfl
@[simp] theorem updSide_ic (x : Side) (g : MbSide → MbSide) (d : Dev) : (updSide x g d).ic = d.ic := rfl
@[simp] theorem updSide_locks (x : Side) (g : MbSide → MbSide) (d : Dev) : (updSide x g d).locks = d.locks := rfl
@[simp] theorem updSide_chans (x : Side) (g : MbSide → MbSide) (d : Dev) : (updSide x g d).chans = d.chans := rfl
@[simp] theorem updSide_engines (x : Side) (g : MbSide → MbSide) (d : Dev) : (updSide x g d).engines = d.engines := rfl
@[simp] theorem updSide_mem (x : Side) (g : MbSide → MbSide) (d : Dev) : (updSide x g d).mem = d.mem := rfl
@[simp] theorem updSide_chk (x : Side) (g : MbSide → MbSide) (d : Dev) : (updSide x g d).chk = d.chk := rfl
@[simp] theorem updSide_repairs (x : Side) (g : MbSide → MbSide) (d : Dev) : (updSide x g d).repairs = d.repairs := rfl
@[simp] theorem updSide_scrubs (x : Side) (g : MbSide → MbSide) (d : Dev) : (updSide x g d).scrubs = d.scrubs := rfl
@[simp] theorem updSide_board (x : Side) (g : MbSide → MbSide) (d : Dev) : (updSide x g d).board = d.board := rfl
@[simp] theorem updSide_power (x : Side) (g : MbSide → MbSide) (d : Dev) : (updSide x g d).power = d.power := rfl
@[simp] theorem updSide_tap (x : Side) (g : MbSide → MbSide) (d : Dev) : (updSide x g d).tap = d.tap := rfl

/-! ### updCore -/

@[simp] theorem updCore_time (c : Nat) (g : Core → Core) (d : Dev) : (updCore c g d).time = d.time := rfl
@[simp] theorem updCore_regs (c : Nat) (g : Core → Core) (d : Dev) : (updCore c g d).regs = d.regs := rfl
@[simp] theorem updCore_latches (c : Nat) (g : Core → Core) (d : Dev) : (updCore c g d).latches = d.latches := rfl
@[simp] theorem updCore_held (c : Nat) (g : Core → Core) (d : Dev) : (updCore c g d).held = d.held := rfl
@[simp] theorem updCore_captures (c : Nat) (g : Core → Core) (d : Dev) : (updCore c g d).captures = d.captures := rfl
@[simp] theorem updCore_out (c : Nat) (g : Core → Core) (d : Dev) : (updCore c g d).out = d.out := rfl
@[simp] theorem updCore_free (c : Nat) (g : Core → Core) (d : Dev) : (updCore c g d).free = d.free := rfl
@[simp] theorem updCore_updates (c : Nat) (g : Core → Core) (d : Dev) : (updCore c g d).updates = d.updates := rfl
@[simp] theorem updCore_lastApply (c : Nat) (g : Core → Core) (d : Dev) : (updCore c g d).lastApply = d.lastApply := rfl
@[simp] theorem updCore_mev (c : Nat) (g : Core → Core) (d : Dev) : (updCore c g d).mev = d.mev := rfl
@[simp] theorem updCore_rings (c : Nat) (g : Core → Core) (d : Dev) : (updCore c g d).rings = d.rings := rfl
@[simp] theorem updCore_served (c : Nat) (g : Core → Core) (d : Dev) : (updCore c g d).served = d.served := rfl
@[simp] theorem updCore_accepted (c : Nat) (g : Core → Core) (d : Dev) : (updCore c g d).accepted = d.accepted := rfl
@[simp] theorem updCore_tblRegs (c : Nat) (g : Core → Core) (d : Dev) : (updCore c g d).tblRegs = d.tblRegs := rfl
@[simp] theorem updCore_snap (c : Nat) (g : Core → Core) (d : Dev) : (updCore c g d).snap = d.snap := rfl
@[simp] theorem updCore_snapSeq (c : Nat) (g : Core → Core) (d : Dev) : (updCore c g d).snapSeq = d.snapSeq := rfl
@[simp] theorem updCore_fns (c : Nat) (g : Core → Core) (d : Dev) : (updCore c g d).fns = d.fns := rfl
@[simp] theorem updCore_links (c : Nat) (g : Core → Core) (d : Dev) : (updCore c g d).links = d.links := rfl
@[simp] theorem updCore_owners (c : Nat) (g : Core → Core) (d : Dev) : (updCore c g d).owners = d.owners := rfl
@[simp] theorem updCore_slices (c : Nat) (g : Core → Core) (d : Dev) : (updCore c g d).slices = d.slices := rfl
@[simp] theorem updCore_queues (c : Nat) (g : Core → Core) (d : Dev) : (updCore c g d).queues = d.queues := rfl
@[simp] theorem updCore_cqs (c : Nat) (g : Core → Core) (d : Dev) : (updCore c g d).cqs = d.cqs := rfl
@[simp] theorem updCore_mail (c : Nat) (g : Core → Core) (d : Dev) : (updCore c g d).mail = d.mail := rfl
@[simp] theorem updCore_eyelets (c : Nat) (g : Core → Core) (d : Dev) : (updCore c g d).eyelets = d.eyelets := rfl
@[simp] theorem updCore_freed (c : Nat) (g : Core → Core) (d : Dev) : (updCore c g d).freed = d.freed := rfl
@[simp] theorem updCore_tables (c : Nat) (g : Core → Core) (d : Dev) : (updCore c g d).tables = d.tables := rfl
@[simp] theorem updCore_gens (c : Nat) (g : Core → Core) (d : Dev) : (updCore c g d).gens = d.gens := rfl
@[simp] theorem updCore_counters (c : Nat) (g : Core → Core) (d : Dev) : (updCore c g d).counters = d.counters := rfl
@[simp] theorem updCore_exc (c : Nat) (g : Core → Core) (d : Dev) : (updCore c g d).exc = d.exc := rfl
@[simp] theorem updCore_learn (c : Nat) (g : Core → Core) (d : Dev) : (updCore c g d).learn = d.learn := rfl
@[simp] theorem updCore_pkts (c : Nat) (g : Core → Core) (d : Dev) : (updCore c g d).pkts = d.pkts := rfl
@[simp] theorem updCore_nextPkt (c : Nat) (g : Core → Core) (d : Dev) : (updCore c g d).nextPkt = d.nextPkt := rfl
@[simp] theorem updCore_ipId (c : Nat) (g : Core → Core) (d : Dev) : (updCore c g d).ipId = d.ipId := rfl
@[simp] theorem updCore_ctxCache (c : Nat) (g : Core → Core) (d : Dev) : (updCore c g d).ctxCache = d.ctxCache := rfl
@[simp] theorem updCore_ctxMiss (c : Nat) (g : Core → Core) (d : Dev) : (updCore c g d).ctxMiss = d.ctxMiss := rfl
@[simp] theorem updCore_placing (c : Nat) (g : Core → Core) (d : Dev) : (updCore c g d).placing = d.placing := rfl
@[simp] theorem updCore_ptOff (c : Nat) (g : Core → Core) (d : Dev) : (updCore c g d).ptOff = d.ptOff := rfl
@[simp] theorem updCore_policers (c : Nat) (g : Core → Core) (d : Dev) : (updCore c g d).policers = d.policers := rfl
@[simp] theorem updCore_nodes (c : Nat) (g : Core → Core) (d : Dev) : (updCore c g d).nodes = d.nodes := rfl
@[simp] theorem updCore_ports (c : Nat) (g : Core → Core) (d : Dev) : (updCore c g d).ports = d.ports := rfl
@[simp] theorem updCore_ic (c : Nat) (g : Core → Core) (d : Dev) : (updCore c g d).ic = d.ic := rfl
@[simp] theorem updCore_locks (c : Nat) (g : Core → Core) (d : Dev) : (updCore c g d).locks = d.locks := rfl
@[simp] theorem updCore_chans (c : Nat) (g : Core → Core) (d : Dev) : (updCore c g d).chans = d.chans := rfl
@[simp] theorem updCore_engines (c : Nat) (g : Core → Core) (d : Dev) : (updCore c g d).engines = d.engines := rfl
@[simp] theorem updCore_mem (c : Nat) (g : Core → Core) (d : Dev) : (updCore c g d).mem = d.mem := rfl
@[simp] theorem updCore_chk (c : Nat) (g : Core → Core) (d : Dev) : (updCore c g d).chk = d.chk := rfl
@[simp] theorem updCore_repairs (c : Nat) (g : Core → Core) (d : Dev) : (updCore c g d).repairs = d.repairs := rfl
@[simp] theorem updCore_scrubs (c : Nat) (g : Core → Core) (d : Dev) : (updCore c g d).scrubs = d.scrubs := rfl
@[simp] theorem updCore_board (c : Nat) (g : Core → Core) (d : Dev) : (updCore c g d).board = d.board := rfl
@[simp] theorem updCore_power (c : Nat) (g : Core → Core) (d : Dev) : (updCore c g d).power = d.power := rfl
@[simp] theorem updCore_tap (c : Nat) (g : Core → Core) (d : Dev) : (updCore c g d).tap = d.tap := rfl

/-! ### updChan -/

@[simp] theorem updChan_time (e ch : Nat) (g : Chan → Chan) (d : Dev) : (updChan e ch g d).time = d.time := rfl
@[simp] theorem updChan_regs (e ch : Nat) (g : Chan → Chan) (d : Dev) : (updChan e ch g d).regs = d.regs := rfl
@[simp] theorem updChan_latches (e ch : Nat) (g : Chan → Chan) (d : Dev) : (updChan e ch g d).latches = d.latches := rfl
@[simp] theorem updChan_held (e ch : Nat) (g : Chan → Chan) (d : Dev) : (updChan e ch g d).held = d.held := rfl
@[simp] theorem updChan_captures (e ch : Nat) (g : Chan → Chan) (d : Dev) : (updChan e ch g d).captures = d.captures := rfl
@[simp] theorem updChan_out (e ch : Nat) (g : Chan → Chan) (d : Dev) : (updChan e ch g d).out = d.out := rfl
@[simp] theorem updChan_free (e ch : Nat) (g : Chan → Chan) (d : Dev) : (updChan e ch g d).free = d.free := rfl
@[simp] theorem updChan_updates (e ch : Nat) (g : Chan → Chan) (d : Dev) : (updChan e ch g d).updates = d.updates := rfl
@[simp] theorem updChan_lastApply (e ch : Nat) (g : Chan → Chan) (d : Dev) : (updChan e ch g d).lastApply = d.lastApply := rfl
@[simp] theorem updChan_mev (e ch : Nat) (g : Chan → Chan) (d : Dev) : (updChan e ch g d).mev = d.mev := rfl
@[simp] theorem updChan_rings (e ch : Nat) (g : Chan → Chan) (d : Dev) : (updChan e ch g d).rings = d.rings := rfl
@[simp] theorem updChan_served (e ch : Nat) (g : Chan → Chan) (d : Dev) : (updChan e ch g d).served = d.served := rfl
@[simp] theorem updChan_accepted (e ch : Nat) (g : Chan → Chan) (d : Dev) : (updChan e ch g d).accepted = d.accepted := rfl
@[simp] theorem updChan_tblRegs (e ch : Nat) (g : Chan → Chan) (d : Dev) : (updChan e ch g d).tblRegs = d.tblRegs := rfl
@[simp] theorem updChan_snap (e ch : Nat) (g : Chan → Chan) (d : Dev) : (updChan e ch g d).snap = d.snap := rfl
@[simp] theorem updChan_snapSeq (e ch : Nat) (g : Chan → Chan) (d : Dev) : (updChan e ch g d).snapSeq = d.snapSeq := rfl
@[simp] theorem updChan_fns (e ch : Nat) (g : Chan → Chan) (d : Dev) : (updChan e ch g d).fns = d.fns := rfl
@[simp] theorem updChan_links (e ch : Nat) (g : Chan → Chan) (d : Dev) : (updChan e ch g d).links = d.links := rfl
@[simp] theorem updChan_owners (e ch : Nat) (g : Chan → Chan) (d : Dev) : (updChan e ch g d).owners = d.owners := rfl
@[simp] theorem updChan_slices (e ch : Nat) (g : Chan → Chan) (d : Dev) : (updChan e ch g d).slices = d.slices := rfl
@[simp] theorem updChan_queues (e ch : Nat) (g : Chan → Chan) (d : Dev) : (updChan e ch g d).queues = d.queues := rfl
@[simp] theorem updChan_cqs (e ch : Nat) (g : Chan → Chan) (d : Dev) : (updChan e ch g d).cqs = d.cqs := rfl
@[simp] theorem updChan_mail (e ch : Nat) (g : Chan → Chan) (d : Dev) : (updChan e ch g d).mail = d.mail := rfl
@[simp] theorem updChan_eyelets (e ch : Nat) (g : Chan → Chan) (d : Dev) : (updChan e ch g d).eyelets = d.eyelets := rfl
@[simp] theorem updChan_freed (e ch : Nat) (g : Chan → Chan) (d : Dev) : (updChan e ch g d).freed = d.freed := rfl
@[simp] theorem updChan_tables (e ch : Nat) (g : Chan → Chan) (d : Dev) : (updChan e ch g d).tables = d.tables := rfl
@[simp] theorem updChan_gens (e ch : Nat) (g : Chan → Chan) (d : Dev) : (updChan e ch g d).gens = d.gens := rfl
@[simp] theorem updChan_counters (e ch : Nat) (g : Chan → Chan) (d : Dev) : (updChan e ch g d).counters = d.counters := rfl
@[simp] theorem updChan_exc (e ch : Nat) (g : Chan → Chan) (d : Dev) : (updChan e ch g d).exc = d.exc := rfl
@[simp] theorem updChan_learn (e ch : Nat) (g : Chan → Chan) (d : Dev) : (updChan e ch g d).learn = d.learn := rfl
@[simp] theorem updChan_pkts (e ch : Nat) (g : Chan → Chan) (d : Dev) : (updChan e ch g d).pkts = d.pkts := rfl
@[simp] theorem updChan_nextPkt (e ch : Nat) (g : Chan → Chan) (d : Dev) : (updChan e ch g d).nextPkt = d.nextPkt := rfl
@[simp] theorem updChan_ipId (e ch : Nat) (g : Chan → Chan) (d : Dev) : (updChan e ch g d).ipId = d.ipId := rfl
@[simp] theorem updChan_ctxCache (e ch : Nat) (g : Chan → Chan) (d : Dev) : (updChan e ch g d).ctxCache = d.ctxCache := rfl
@[simp] theorem updChan_ctxMiss (e ch : Nat) (g : Chan → Chan) (d : Dev) : (updChan e ch g d).ctxMiss = d.ctxMiss := rfl
@[simp] theorem updChan_placing (e ch : Nat) (g : Chan → Chan) (d : Dev) : (updChan e ch g d).placing = d.placing := rfl
@[simp] theorem updChan_ptOff (e ch : Nat) (g : Chan → Chan) (d : Dev) : (updChan e ch g d).ptOff = d.ptOff := rfl
@[simp] theorem updChan_policers (e ch : Nat) (g : Chan → Chan) (d : Dev) : (updChan e ch g d).policers = d.policers := rfl
@[simp] theorem updChan_nodes (e ch : Nat) (g : Chan → Chan) (d : Dev) : (updChan e ch g d).nodes = d.nodes := rfl
@[simp] theorem updChan_ports (e ch : Nat) (g : Chan → Chan) (d : Dev) : (updChan e ch g d).ports = d.ports := rfl
@[simp] theorem updChan_cores (e ch : Nat) (g : Chan → Chan) (d : Dev) : (updChan e ch g d).cores = d.cores := rfl
@[simp] theorem updChan_ic (e ch : Nat) (g : Chan → Chan) (d : Dev) : (updChan e ch g d).ic = d.ic := rfl
@[simp] theorem updChan_locks (e ch : Nat) (g : Chan → Chan) (d : Dev) : (updChan e ch g d).locks = d.locks := rfl
@[simp] theorem updChan_engines (e ch : Nat) (g : Chan → Chan) (d : Dev) : (updChan e ch g d).engines = d.engines := rfl
@[simp] theorem updChan_mem (e ch : Nat) (g : Chan → Chan) (d : Dev) : (updChan e ch g d).mem = d.mem := rfl
@[simp] theorem updChan_chk (e ch : Nat) (g : Chan → Chan) (d : Dev) : (updChan e ch g d).chk = d.chk := rfl
@[simp] theorem updChan_repairs (e ch : Nat) (g : Chan → Chan) (d : Dev) : (updChan e ch g d).repairs = d.repairs := rfl
@[simp] theorem updChan_scrubs (e ch : Nat) (g : Chan → Chan) (d : Dev) : (updChan e ch g d).scrubs = d.scrubs := rfl
@[simp] theorem updChan_board (e ch : Nat) (g : Chan → Chan) (d : Dev) : (updChan e ch g d).board = d.board := rfl
@[simp] theorem updChan_power (e ch : Nat) (g : Chan → Chan) (d : Dev) : (updChan e ch g d).power = d.power := rfl
@[simp] theorem updChan_tap (e ch : Nat) (g : Chan → Chan) (d : Dev) : (updChan e ch g d).tap = d.tap := rfl

/-! ### updEngine -/

@[simp] theorem updEngine_time (e : Nat) (g : Engine → Engine) (d : Dev) : (updEngine e g d).time = d.time := rfl
@[simp] theorem updEngine_regs (e : Nat) (g : Engine → Engine) (d : Dev) : (updEngine e g d).regs = d.regs := rfl
@[simp] theorem updEngine_latches (e : Nat) (g : Engine → Engine) (d : Dev) : (updEngine e g d).latches = d.latches := rfl
@[simp] theorem updEngine_held (e : Nat) (g : Engine → Engine) (d : Dev) : (updEngine e g d).held = d.held := rfl
@[simp] theorem updEngine_captures (e : Nat) (g : Engine → Engine) (d : Dev) : (updEngine e g d).captures = d.captures := rfl
@[simp] theorem updEngine_out (e : Nat) (g : Engine → Engine) (d : Dev) : (updEngine e g d).out = d.out := rfl
@[simp] theorem updEngine_free (e : Nat) (g : Engine → Engine) (d : Dev) : (updEngine e g d).free = d.free := rfl
@[simp] theorem updEngine_updates (e : Nat) (g : Engine → Engine) (d : Dev) : (updEngine e g d).updates = d.updates := rfl
@[simp] theorem updEngine_lastApply (e : Nat) (g : Engine → Engine) (d : Dev) : (updEngine e g d).lastApply = d.lastApply := rfl
@[simp] theorem updEngine_mev (e : Nat) (g : Engine → Engine) (d : Dev) : (updEngine e g d).mev = d.mev := rfl
@[simp] theorem updEngine_rings (e : Nat) (g : Engine → Engine) (d : Dev) : (updEngine e g d).rings = d.rings := rfl
@[simp] theorem updEngine_served (e : Nat) (g : Engine → Engine) (d : Dev) : (updEngine e g d).served = d.served := rfl
@[simp] theorem updEngine_accepted (e : Nat) (g : Engine → Engine) (d : Dev) : (updEngine e g d).accepted = d.accepted := rfl
@[simp] theorem updEngine_tblRegs (e : Nat) (g : Engine → Engine) (d : Dev) : (updEngine e g d).tblRegs = d.tblRegs := rfl
@[simp] theorem updEngine_snap (e : Nat) (g : Engine → Engine) (d : Dev) : (updEngine e g d).snap = d.snap := rfl
@[simp] theorem updEngine_snapSeq (e : Nat) (g : Engine → Engine) (d : Dev) : (updEngine e g d).snapSeq = d.snapSeq := rfl
@[simp] theorem updEngine_fns (e : Nat) (g : Engine → Engine) (d : Dev) : (updEngine e g d).fns = d.fns := rfl
@[simp] theorem updEngine_links (e : Nat) (g : Engine → Engine) (d : Dev) : (updEngine e g d).links = d.links := rfl
@[simp] theorem updEngine_owners (e : Nat) (g : Engine → Engine) (d : Dev) : (updEngine e g d).owners = d.owners := rfl
@[simp] theorem updEngine_slices (e : Nat) (g : Engine → Engine) (d : Dev) : (updEngine e g d).slices = d.slices := rfl
@[simp] theorem updEngine_queues (e : Nat) (g : Engine → Engine) (d : Dev) : (updEngine e g d).queues = d.queues := rfl
@[simp] theorem updEngine_cqs (e : Nat) (g : Engine → Engine) (d : Dev) : (updEngine e g d).cqs = d.cqs := rfl
@[simp] theorem updEngine_mail (e : Nat) (g : Engine → Engine) (d : Dev) : (updEngine e g d).mail = d.mail := rfl
@[simp] theorem updEngine_eyelets (e : Nat) (g : Engine → Engine) (d : Dev) : (updEngine e g d).eyelets = d.eyelets := rfl
@[simp] theorem updEngine_freed (e : Nat) (g : Engine → Engine) (d : Dev) : (updEngine e g d).freed = d.freed := rfl
@[simp] theorem updEngine_tables (e : Nat) (g : Engine → Engine) (d : Dev) : (updEngine e g d).tables = d.tables := rfl
@[simp] theorem updEngine_gens (e : Nat) (g : Engine → Engine) (d : Dev) : (updEngine e g d).gens = d.gens := rfl
@[simp] theorem updEngine_counters (e : Nat) (g : Engine → Engine) (d : Dev) : (updEngine e g d).counters = d.counters := rfl
@[simp] theorem updEngine_exc (e : Nat) (g : Engine → Engine) (d : Dev) : (updEngine e g d).exc = d.exc := rfl
@[simp] theorem updEngine_learn (e : Nat) (g : Engine → Engine) (d : Dev) : (updEngine e g d).learn = d.learn := rfl
@[simp] theorem updEngine_pkts (e : Nat) (g : Engine → Engine) (d : Dev) : (updEngine e g d).pkts = d.pkts := rfl
@[simp] theorem updEngine_nextPkt (e : Nat) (g : Engine → Engine) (d : Dev) : (updEngine e g d).nextPkt = d.nextPkt := rfl
@[simp] theorem updEngine_ipId (e : Nat) (g : Engine → Engine) (d : Dev) : (updEngine e g d).ipId = d.ipId := rfl
@[simp] theorem updEngine_ctxCache (e : Nat) (g : Engine → Engine) (d : Dev) : (updEngine e g d).ctxCache = d.ctxCache := rfl
@[simp] theorem updEngine_ctxMiss (e : Nat) (g : Engine → Engine) (d : Dev) : (updEngine e g d).ctxMiss = d.ctxMiss := rfl
@[simp] theorem updEngine_placing (e : Nat) (g : Engine → Engine) (d : Dev) : (updEngine e g d).placing = d.placing := rfl
@[simp] theorem updEngine_ptOff (e : Nat) (g : Engine → Engine) (d : Dev) : (updEngine e g d).ptOff = d.ptOff := rfl
@[simp] theorem updEngine_policers (e : Nat) (g : Engine → Engine) (d : Dev) : (updEngine e g d).policers = d.policers := rfl
@[simp] theorem updEngine_nodes (e : Nat) (g : Engine → Engine) (d : Dev) : (updEngine e g d).nodes = d.nodes := rfl
@[simp] theorem updEngine_ports (e : Nat) (g : Engine → Engine) (d : Dev) : (updEngine e g d).ports = d.ports := rfl
@[simp] theorem updEngine_cores (e : Nat) (g : Engine → Engine) (d : Dev) : (updEngine e g d).cores = d.cores := rfl
@[simp] theorem updEngine_ic (e : Nat) (g : Engine → Engine) (d : Dev) : (updEngine e g d).ic = d.ic := rfl
@[simp] theorem updEngine_locks (e : Nat) (g : Engine → Engine) (d : Dev) : (updEngine e g d).locks = d.locks := rfl
@[simp] theorem updEngine_chans (e : Nat) (g : Engine → Engine) (d : Dev) : (updEngine e g d).chans = d.chans := rfl
@[simp] theorem updEngine_mem (e : Nat) (g : Engine → Engine) (d : Dev) : (updEngine e g d).mem = d.mem := rfl
@[simp] theorem updEngine_chk (e : Nat) (g : Engine → Engine) (d : Dev) : (updEngine e g d).chk = d.chk := rfl
@[simp] theorem updEngine_repairs (e : Nat) (g : Engine → Engine) (d : Dev) : (updEngine e g d).repairs = d.repairs := rfl
@[simp] theorem updEngine_scrubs (e : Nat) (g : Engine → Engine) (d : Dev) : (updEngine e g d).scrubs = d.scrubs := rfl
@[simp] theorem updEngine_board (e : Nat) (g : Engine → Engine) (d : Dev) : (updEngine e g d).board = d.board := rfl
@[simp] theorem updEngine_power (e : Nat) (g : Engine → Engine) (d : Dev) : (updEngine e g d).power = d.power := rfl
@[simp] theorem updEngine_tap (e : Nat) (g : Engine → Engine) (d : Dev) : (updEngine e g d).tap = d.tap := rfl

/-! ### updPort -/

@[simp] theorem updPort_time (p : Nat) (g : LPort → LPort) (d : Dev) : (updPort p g d).time = d.time := rfl
@[simp] theorem updPort_regs (p : Nat) (g : LPort → LPort) (d : Dev) : (updPort p g d).regs = d.regs := rfl
@[simp] theorem updPort_latches (p : Nat) (g : LPort → LPort) (d : Dev) : (updPort p g d).latches = d.latches := rfl
@[simp] theorem updPort_held (p : Nat) (g : LPort → LPort) (d : Dev) : (updPort p g d).held = d.held := rfl
@[simp] theorem updPort_captures (p : Nat) (g : LPort → LPort) (d : Dev) : (updPort p g d).captures = d.captures := rfl
@[simp] theorem updPort_out (p : Nat) (g : LPort → LPort) (d : Dev) : (updPort p g d).out = d.out := rfl
@[simp] theorem updPort_free (p : Nat) (g : LPort → LPort) (d : Dev) : (updPort p g d).free = d.free := rfl
@[simp] theorem updPort_updates (p : Nat) (g : LPort → LPort) (d : Dev) : (updPort p g d).updates = d.updates := rfl
@[simp] theorem updPort_lastApply (p : Nat) (g : LPort → LPort) (d : Dev) : (updPort p g d).lastApply = d.lastApply := rfl
@[simp] theorem updPort_mev (p : Nat) (g : LPort → LPort) (d : Dev) : (updPort p g d).mev = d.mev := rfl
@[simp] theorem updPort_rings (p : Nat) (g : LPort → LPort) (d : Dev) : (updPort p g d).rings = d.rings := rfl
@[simp] theorem updPort_served (p : Nat) (g : LPort → LPort) (d : Dev) : (updPort p g d).served = d.served := rfl
@[simp] theorem updPort_accepted (p : Nat) (g : LPort → LPort) (d : Dev) : (updPort p g d).accepted = d.accepted := rfl
@[simp] theorem updPort_tblRegs (p : Nat) (g : LPort → LPort) (d : Dev) : (updPort p g d).tblRegs = d.tblRegs := rfl
@[simp] theorem updPort_snap (p : Nat) (g : LPort → LPort) (d : Dev) : (updPort p g d).snap = d.snap := rfl
@[simp] theorem updPort_snapSeq (p : Nat) (g : LPort → LPort) (d : Dev) : (updPort p g d).snapSeq = d.snapSeq := rfl
@[simp] theorem updPort_fns (p : Nat) (g : LPort → LPort) (d : Dev) : (updPort p g d).fns = d.fns := rfl
@[simp] theorem updPort_links (p : Nat) (g : LPort → LPort) (d : Dev) : (updPort p g d).links = d.links := rfl
@[simp] theorem updPort_owners (p : Nat) (g : LPort → LPort) (d : Dev) : (updPort p g d).owners = d.owners := rfl
@[simp] theorem updPort_slices (p : Nat) (g : LPort → LPort) (d : Dev) : (updPort p g d).slices = d.slices := rfl
@[simp] theorem updPort_queues (p : Nat) (g : LPort → LPort) (d : Dev) : (updPort p g d).queues = d.queues := rfl
@[simp] theorem updPort_cqs (p : Nat) (g : LPort → LPort) (d : Dev) : (updPort p g d).cqs = d.cqs := rfl
@[simp] theorem updPort_mail (p : Nat) (g : LPort → LPort) (d : Dev) : (updPort p g d).mail = d.mail := rfl
@[simp] theorem updPort_eyelets (p : Nat) (g : LPort → LPort) (d : Dev) : (updPort p g d).eyelets = d.eyelets := rfl
@[simp] theorem updPort_freed (p : Nat) (g : LPort → LPort) (d : Dev) : (updPort p g d).freed = d.freed := rfl
@[simp] theorem updPort_tables (p : Nat) (g : LPort → LPort) (d : Dev) : (updPort p g d).tables = d.tables := rfl
@[simp] theorem updPort_gens (p : Nat) (g : LPort → LPort) (d : Dev) : (updPort p g d).gens = d.gens := rfl
@[simp] theorem updPort_counters (p : Nat) (g : LPort → LPort) (d : Dev) : (updPort p g d).counters = d.counters := rfl
@[simp] theorem updPort_exc (p : Nat) (g : LPort → LPort) (d : Dev) : (updPort p g d).exc = d.exc := rfl
@[simp] theorem updPort_learn (p : Nat) (g : LPort → LPort) (d : Dev) : (updPort p g d).learn = d.learn := rfl
@[simp] theorem updPort_pkts (p : Nat) (g : LPort → LPort) (d : Dev) : (updPort p g d).pkts = d.pkts := rfl
@[simp] theorem updPort_nextPkt (p : Nat) (g : LPort → LPort) (d : Dev) : (updPort p g d).nextPkt = d.nextPkt := rfl
@[simp] theorem updPort_ipId (p : Nat) (g : LPort → LPort) (d : Dev) : (updPort p g d).ipId = d.ipId := rfl
@[simp] theorem updPort_ctxCache (p : Nat) (g : LPort → LPort) (d : Dev) : (updPort p g d).ctxCache = d.ctxCache := rfl
@[simp] theorem updPort_ctxMiss (p : Nat) (g : LPort → LPort) (d : Dev) : (updPort p g d).ctxMiss = d.ctxMiss := rfl
@[simp] theorem updPort_placing (p : Nat) (g : LPort → LPort) (d : Dev) : (updPort p g d).placing = d.placing := rfl
@[simp] theorem updPort_ptOff (p : Nat) (g : LPort → LPort) (d : Dev) : (updPort p g d).ptOff = d.ptOff := rfl
@[simp] theorem updPort_policers (p : Nat) (g : LPort → LPort) (d : Dev) : (updPort p g d).policers = d.policers := rfl
@[simp] theorem updPort_nodes (p : Nat) (g : LPort → LPort) (d : Dev) : (updPort p g d).nodes = d.nodes := rfl
@[simp] theorem updPort_cores (p : Nat) (g : LPort → LPort) (d : Dev) : (updPort p g d).cores = d.cores := rfl
@[simp] theorem updPort_ic (p : Nat) (g : LPort → LPort) (d : Dev) : (updPort p g d).ic = d.ic := rfl
@[simp] theorem updPort_locks (p : Nat) (g : LPort → LPort) (d : Dev) : (updPort p g d).locks = d.locks := rfl
@[simp] theorem updPort_chans (p : Nat) (g : LPort → LPort) (d : Dev) : (updPort p g d).chans = d.chans := rfl
@[simp] theorem updPort_engines (p : Nat) (g : LPort → LPort) (d : Dev) : (updPort p g d).engines = d.engines := rfl
@[simp] theorem updPort_mem (p : Nat) (g : LPort → LPort) (d : Dev) : (updPort p g d).mem = d.mem := rfl
@[simp] theorem updPort_chk (p : Nat) (g : LPort → LPort) (d : Dev) : (updPort p g d).chk = d.chk := rfl
@[simp] theorem updPort_repairs (p : Nat) (g : LPort → LPort) (d : Dev) : (updPort p g d).repairs = d.repairs := rfl
@[simp] theorem updPort_scrubs (p : Nat) (g : LPort → LPort) (d : Dev) : (updPort p g d).scrubs = d.scrubs := rfl
@[simp] theorem updPort_board (p : Nat) (g : LPort → LPort) (d : Dev) : (updPort p g d).board = d.board := rfl
@[simp] theorem updPort_power (p : Nat) (g : LPort → LPort) (d : Dev) : (updPort p g d).power = d.power := rfl
@[simp] theorem updPort_tap (p : Nat) (g : LPort → LPort) (d : Dev) : (updPort p g d).tap = d.tap := rfl

/-! ### updTable -/

@[simp] theorem updTable_time (t : Nat) (g : Table → Table) (d : Dev) : (updTable t g d).time = d.time := rfl
@[simp] theorem updTable_regs (t : Nat) (g : Table → Table) (d : Dev) : (updTable t g d).regs = d.regs := rfl
@[simp] theorem updTable_latches (t : Nat) (g : Table → Table) (d : Dev) : (updTable t g d).latches = d.latches := rfl
@[simp] theorem updTable_held (t : Nat) (g : Table → Table) (d : Dev) : (updTable t g d).held = d.held := rfl
@[simp] theorem updTable_captures (t : Nat) (g : Table → Table) (d : Dev) : (updTable t g d).captures = d.captures := rfl
@[simp] theorem updTable_out (t : Nat) (g : Table → Table) (d : Dev) : (updTable t g d).out = d.out := rfl
@[simp] theorem updTable_free (t : Nat) (g : Table → Table) (d : Dev) : (updTable t g d).free = d.free := rfl
@[simp] theorem updTable_updates (t : Nat) (g : Table → Table) (d : Dev) : (updTable t g d).updates = d.updates := rfl
@[simp] theorem updTable_lastApply (t : Nat) (g : Table → Table) (d : Dev) : (updTable t g d).lastApply = d.lastApply := rfl
@[simp] theorem updTable_mev (t : Nat) (g : Table → Table) (d : Dev) : (updTable t g d).mev = d.mev := rfl
@[simp] theorem updTable_rings (t : Nat) (g : Table → Table) (d : Dev) : (updTable t g d).rings = d.rings := rfl
@[simp] theorem updTable_served (t : Nat) (g : Table → Table) (d : Dev) : (updTable t g d).served = d.served := rfl
@[simp] theorem updTable_accepted (t : Nat) (g : Table → Table) (d : Dev) : (updTable t g d).accepted = d.accepted := rfl
@[simp] theorem updTable_tblRegs (t : Nat) (g : Table → Table) (d : Dev) : (updTable t g d).tblRegs = d.tblRegs := rfl
@[simp] theorem updTable_snap (t : Nat) (g : Table → Table) (d : Dev) : (updTable t g d).snap = d.snap := rfl
@[simp] theorem updTable_snapSeq (t : Nat) (g : Table → Table) (d : Dev) : (updTable t g d).snapSeq = d.snapSeq := rfl
@[simp] theorem updTable_fns (t : Nat) (g : Table → Table) (d : Dev) : (updTable t g d).fns = d.fns := rfl
@[simp] theorem updTable_links (t : Nat) (g : Table → Table) (d : Dev) : (updTable t g d).links = d.links := rfl
@[simp] theorem updTable_owners (t : Nat) (g : Table → Table) (d : Dev) : (updTable t g d).owners = d.owners := rfl
@[simp] theorem updTable_slices (t : Nat) (g : Table → Table) (d : Dev) : (updTable t g d).slices = d.slices := rfl
@[simp] theorem updTable_queues (t : Nat) (g : Table → Table) (d : Dev) : (updTable t g d).queues = d.queues := rfl
@[simp] theorem updTable_cqs (t : Nat) (g : Table → Table) (d : Dev) : (updTable t g d).cqs = d.cqs := rfl
@[simp] theorem updTable_mail (t : Nat) (g : Table → Table) (d : Dev) : (updTable t g d).mail = d.mail := rfl
@[simp] theorem updTable_eyelets (t : Nat) (g : Table → Table) (d : Dev) : (updTable t g d).eyelets = d.eyelets := rfl
@[simp] theorem updTable_freed (t : Nat) (g : Table → Table) (d : Dev) : (updTable t g d).freed = d.freed := rfl
@[simp] theorem updTable_gens (t : Nat) (g : Table → Table) (d : Dev) : (updTable t g d).gens = d.gens := rfl
@[simp] theorem updTable_counters (t : Nat) (g : Table → Table) (d : Dev) : (updTable t g d).counters = d.counters := rfl
@[simp] theorem updTable_exc (t : Nat) (g : Table → Table) (d : Dev) : (updTable t g d).exc = d.exc := rfl
@[simp] theorem updTable_learn (t : Nat) (g : Table → Table) (d : Dev) : (updTable t g d).learn = d.learn := rfl
@[simp] theorem updTable_pkts (t : Nat) (g : Table → Table) (d : Dev) : (updTable t g d).pkts = d.pkts := rfl
@[simp] theorem updTable_nextPkt (t : Nat) (g : Table → Table) (d : Dev) : (updTable t g d).nextPkt = d.nextPkt := rfl
@[simp] theorem updTable_ipId (t : Nat) (g : Table → Table) (d : Dev) : (updTable t g d).ipId = d.ipId := rfl
@[simp] theorem updTable_ctxCache (t : Nat) (g : Table → Table) (d : Dev) : (updTable t g d).ctxCache = d.ctxCache := rfl
@[simp] theorem updTable_ctxMiss (t : Nat) (g : Table → Table) (d : Dev) : (updTable t g d).ctxMiss = d.ctxMiss := rfl
@[simp] theorem updTable_placing (t : Nat) (g : Table → Table) (d : Dev) : (updTable t g d).placing = d.placing := rfl
@[simp] theorem updTable_ptOff (t : Nat) (g : Table → Table) (d : Dev) : (updTable t g d).ptOff = d.ptOff := rfl
@[simp] theorem updTable_policers (t : Nat) (g : Table → Table) (d : Dev) : (updTable t g d).policers = d.policers := rfl
@[simp] theorem updTable_nodes (t : Nat) (g : Table → Table) (d : Dev) : (updTable t g d).nodes = d.nodes := rfl
@[simp] theorem updTable_ports (t : Nat) (g : Table → Table) (d : Dev) : (updTable t g d).ports = d.ports := rfl
@[simp] theorem updTable_cores (t : Nat) (g : Table → Table) (d : Dev) : (updTable t g d).cores = d.cores := rfl
@[simp] theorem updTable_ic (t : Nat) (g : Table → Table) (d : Dev) : (updTable t g d).ic = d.ic := rfl
@[simp] theorem updTable_locks (t : Nat) (g : Table → Table) (d : Dev) : (updTable t g d).locks = d.locks := rfl
@[simp] theorem updTable_chans (t : Nat) (g : Table → Table) (d : Dev) : (updTable t g d).chans = d.chans := rfl
@[simp] theorem updTable_engines (t : Nat) (g : Table → Table) (d : Dev) : (updTable t g d).engines = d.engines := rfl
@[simp] theorem updTable_mem (t : Nat) (g : Table → Table) (d : Dev) : (updTable t g d).mem = d.mem := rfl
@[simp] theorem updTable_chk (t : Nat) (g : Table → Table) (d : Dev) : (updTable t g d).chk = d.chk := rfl
@[simp] theorem updTable_repairs (t : Nat) (g : Table → Table) (d : Dev) : (updTable t g d).repairs = d.repairs := rfl
@[simp] theorem updTable_scrubs (t : Nat) (g : Table → Table) (d : Dev) : (updTable t g d).scrubs = d.scrubs := rfl
@[simp] theorem updTable_board (t : Nat) (g : Table → Table) (d : Dev) : (updTable t g d).board = d.board := rfl
@[simp] theorem updTable_power (t : Nat) (g : Table → Table) (d : Dev) : (updTable t g d).power = d.power := rfl
@[simp] theorem updTable_tap (t : Nat) (g : Table → Table) (d : Dev) : (updTable t g d).tap = d.tap := rfl

/-! ### updNode -/

@[simp] theorem updNode_time (n : NodeId) (g : Node → Node) (d : Dev) : (updNode n g d).time = d.time := rfl
@[simp] theorem updNode_regs (n : NodeId) (g : Node → Node) (d : Dev) : (updNode n g d).regs = d.regs := rfl
@[simp] theorem updNode_latches (n : NodeId) (g : Node → Node) (d : Dev) : (updNode n g d).latches = d.latches := rfl
@[simp] theorem updNode_held (n : NodeId) (g : Node → Node) (d : Dev) : (updNode n g d).held = d.held := rfl
@[simp] theorem updNode_captures (n : NodeId) (g : Node → Node) (d : Dev) : (updNode n g d).captures = d.captures := rfl
@[simp] theorem updNode_out (n : NodeId) (g : Node → Node) (d : Dev) : (updNode n g d).out = d.out := rfl
@[simp] theorem updNode_free (n : NodeId) (g : Node → Node) (d : Dev) : (updNode n g d).free = d.free := rfl
@[simp] theorem updNode_updates (n : NodeId) (g : Node → Node) (d : Dev) : (updNode n g d).updates = d.updates := rfl
@[simp] theorem updNode_lastApply (n : NodeId) (g : Node → Node) (d : Dev) : (updNode n g d).lastApply = d.lastApply := rfl
@[simp] theorem updNode_mev (n : NodeId) (g : Node → Node) (d : Dev) : (updNode n g d).mev = d.mev := rfl
@[simp] theorem updNode_rings (n : NodeId) (g : Node → Node) (d : Dev) : (updNode n g d).rings = d.rings := rfl
@[simp] theorem updNode_served (n : NodeId) (g : Node → Node) (d : Dev) : (updNode n g d).served = d.served := rfl
@[simp] theorem updNode_accepted (n : NodeId) (g : Node → Node) (d : Dev) : (updNode n g d).accepted = d.accepted := rfl
@[simp] theorem updNode_tblRegs (n : NodeId) (g : Node → Node) (d : Dev) : (updNode n g d).tblRegs = d.tblRegs := rfl
@[simp] theorem updNode_snap (n : NodeId) (g : Node → Node) (d : Dev) : (updNode n g d).snap = d.snap := rfl
@[simp] theorem updNode_snapSeq (n : NodeId) (g : Node → Node) (d : Dev) : (updNode n g d).snapSeq = d.snapSeq := rfl
@[simp] theorem updNode_fns (n : NodeId) (g : Node → Node) (d : Dev) : (updNode n g d).fns = d.fns := rfl
@[simp] theorem updNode_links (n : NodeId) (g : Node → Node) (d : Dev) : (updNode n g d).links = d.links := rfl
@[simp] theorem updNode_owners (n : NodeId) (g : Node → Node) (d : Dev) : (updNode n g d).owners = d.owners := rfl
@[simp] theorem updNode_slices (n : NodeId) (g : Node → Node) (d : Dev) : (updNode n g d).slices = d.slices := rfl
@[simp] theorem updNode_queues (n : NodeId) (g : Node → Node) (d : Dev) : (updNode n g d).queues = d.queues := rfl
@[simp] theorem updNode_cqs (n : NodeId) (g : Node → Node) (d : Dev) : (updNode n g d).cqs = d.cqs := rfl
@[simp] theorem updNode_mail (n : NodeId) (g : Node → Node) (d : Dev) : (updNode n g d).mail = d.mail := rfl
@[simp] theorem updNode_eyelets (n : NodeId) (g : Node → Node) (d : Dev) : (updNode n g d).eyelets = d.eyelets := rfl
@[simp] theorem updNode_freed (n : NodeId) (g : Node → Node) (d : Dev) : (updNode n g d).freed = d.freed := rfl
@[simp] theorem updNode_tables (n : NodeId) (g : Node → Node) (d : Dev) : (updNode n g d).tables = d.tables := rfl
@[simp] theorem updNode_gens (n : NodeId) (g : Node → Node) (d : Dev) : (updNode n g d).gens = d.gens := rfl
@[simp] theorem updNode_counters (n : NodeId) (g : Node → Node) (d : Dev) : (updNode n g d).counters = d.counters := rfl
@[simp] theorem updNode_exc (n : NodeId) (g : Node → Node) (d : Dev) : (updNode n g d).exc = d.exc := rfl
@[simp] theorem updNode_learn (n : NodeId) (g : Node → Node) (d : Dev) : (updNode n g d).learn = d.learn := rfl
@[simp] theorem updNode_pkts (n : NodeId) (g : Node → Node) (d : Dev) : (updNode n g d).pkts = d.pkts := rfl
@[simp] theorem updNode_nextPkt (n : NodeId) (g : Node → Node) (d : Dev) : (updNode n g d).nextPkt = d.nextPkt := rfl
@[simp] theorem updNode_ipId (n : NodeId) (g : Node → Node) (d : Dev) : (updNode n g d).ipId = d.ipId := rfl
@[simp] theorem updNode_ctxCache (n : NodeId) (g : Node → Node) (d : Dev) : (updNode n g d).ctxCache = d.ctxCache := rfl
@[simp] theorem updNode_ctxMiss (n : NodeId) (g : Node → Node) (d : Dev) : (updNode n g d).ctxMiss = d.ctxMiss := rfl
@[simp] theorem updNode_placing (n : NodeId) (g : Node → Node) (d : Dev) : (updNode n g d).placing = d.placing := rfl
@[simp] theorem updNode_ptOff (n : NodeId) (g : Node → Node) (d : Dev) : (updNode n g d).ptOff = d.ptOff := rfl
@[simp] theorem updNode_policers (n : NodeId) (g : Node → Node) (d : Dev) : (updNode n g d).policers = d.policers := rfl
@[simp] theorem updNode_ports (n : NodeId) (g : Node → Node) (d : Dev) : (updNode n g d).ports = d.ports := rfl
@[simp] theorem updNode_cores (n : NodeId) (g : Node → Node) (d : Dev) : (updNode n g d).cores = d.cores := rfl
@[simp] theorem updNode_ic (n : NodeId) (g : Node → Node) (d : Dev) : (updNode n g d).ic = d.ic := rfl
@[simp] theorem updNode_locks (n : NodeId) (g : Node → Node) (d : Dev) : (updNode n g d).locks = d.locks := rfl
@[simp] theorem updNode_chans (n : NodeId) (g : Node → Node) (d : Dev) : (updNode n g d).chans = d.chans := rfl
@[simp] theorem updNode_engines (n : NodeId) (g : Node → Node) (d : Dev) : (updNode n g d).engines = d.engines := rfl
@[simp] theorem updNode_mem (n : NodeId) (g : Node → Node) (d : Dev) : (updNode n g d).mem = d.mem := rfl
@[simp] theorem updNode_chk (n : NodeId) (g : Node → Node) (d : Dev) : (updNode n g d).chk = d.chk := rfl
@[simp] theorem updNode_repairs (n : NodeId) (g : Node → Node) (d : Dev) : (updNode n g d).repairs = d.repairs := rfl
@[simp] theorem updNode_scrubs (n : NodeId) (g : Node → Node) (d : Dev) : (updNode n g d).scrubs = d.scrubs := rfl
@[simp] theorem updNode_board (n : NodeId) (g : Node → Node) (d : Dev) : (updNode n g d).board = d.board := rfl
@[simp] theorem updNode_power (n : NodeId) (g : Node → Node) (d : Dev) : (updNode n g d).power = d.power := rfl
@[simp] theorem updNode_tap (n : NodeId) (g : Node → Node) (d : Dev) : (updNode n g d).tap = d.tap := rfl

/-! ### updPolicer -/

@[simp] theorem updPolicer_time (p : Nat) (g : Policer → Policer) (d : Dev) : (updPolicer p g d).time = d.time := rfl
@[simp] theorem updPolicer_regs (p : Nat) (g : Policer → Policer) (d : Dev) : (updPolicer p g d).regs = d.regs := rfl
@[simp] theorem updPolicer_latches (p : Nat) (g : Policer → Policer) (d : Dev) : (updPolicer p g d).latches = d.latches := rfl
@[simp] theorem updPolicer_held (p : Nat) (g : Policer → Policer) (d : Dev) : (updPolicer p g d).held = d.held := rfl
@[simp] theorem updPolicer_captures (p : Nat) (g : Policer → Policer) (d : Dev) : (updPolicer p g d).captures = d.captures := rfl
@[simp] theorem updPolicer_out (p : Nat) (g : Policer → Policer) (d : Dev) : (updPolicer p g d).out = d.out := rfl
@[simp] theorem updPolicer_free (p : Nat) (g : Policer → Policer) (d : Dev) : (updPolicer p g d).free = d.free := rfl
@[simp] theorem updPolicer_updates (p : Nat) (g : Policer → Policer) (d : Dev) : (updPolicer p g d).updates = d.updates := rfl
@[simp] theorem updPolicer_lastApply (p : Nat) (g : Policer → Policer) (d : Dev) : (updPolicer p g d).lastApply = d.lastApply := rfl
@[simp] theorem updPolicer_mev (p : Nat) (g : Policer → Policer) (d : Dev) : (updPolicer p g d).mev = d.mev := rfl
@[simp] theorem updPolicer_rings (p : Nat) (g : Policer → Policer) (d : Dev) : (updPolicer p g d).rings = d.rings := rfl
@[simp] theorem updPolicer_served (p : Nat) (g : Policer → Policer) (d : Dev) : (updPolicer p g d).served = d.served := rfl
@[simp] theorem updPolicer_accepted (p : Nat) (g : Policer → Policer) (d : Dev) : (updPolicer p g d).accepted = d.accepted := rfl
@[simp] theorem updPolicer_tblRegs (p : Nat) (g : Policer → Policer) (d : Dev) : (updPolicer p g d).tblRegs = d.tblRegs := rfl
@[simp] theorem updPolicer_snap (p : Nat) (g : Policer → Policer) (d : Dev) : (updPolicer p g d).snap = d.snap := rfl
@[simp] theorem updPolicer_snapSeq (p : Nat) (g : Policer → Policer) (d : Dev) : (updPolicer p g d).snapSeq = d.snapSeq := rfl
@[simp] theorem updPolicer_fns (p : Nat) (g : Policer → Policer) (d : Dev) : (updPolicer p g d).fns = d.fns := rfl
@[simp] theorem updPolicer_links (p : Nat) (g : Policer → Policer) (d : Dev) : (updPolicer p g d).links = d.links := rfl
@[simp] theorem updPolicer_owners (p : Nat) (g : Policer → Policer) (d : Dev) : (updPolicer p g d).owners = d.owners := rfl
@[simp] theorem updPolicer_slices (p : Nat) (g : Policer → Policer) (d : Dev) : (updPolicer p g d).slices = d.slices := rfl
@[simp] theorem updPolicer_queues (p : Nat) (g : Policer → Policer) (d : Dev) : (updPolicer p g d).queues = d.queues := rfl
@[simp] theorem updPolicer_cqs (p : Nat) (g : Policer → Policer) (d : Dev) : (updPolicer p g d).cqs = d.cqs := rfl
@[simp] theorem updPolicer_mail (p : Nat) (g : Policer → Policer) (d : Dev) : (updPolicer p g d).mail = d.mail := rfl
@[simp] theorem updPolicer_eyelets (p : Nat) (g : Policer → Policer) (d : Dev) : (updPolicer p g d).eyelets = d.eyelets := rfl
@[simp] theorem updPolicer_freed (p : Nat) (g : Policer → Policer) (d : Dev) : (updPolicer p g d).freed = d.freed := rfl
@[simp] theorem updPolicer_tables (p : Nat) (g : Policer → Policer) (d : Dev) : (updPolicer p g d).tables = d.tables := rfl
@[simp] theorem updPolicer_gens (p : Nat) (g : Policer → Policer) (d : Dev) : (updPolicer p g d).gens = d.gens := rfl
@[simp] theorem updPolicer_counters (p : Nat) (g : Policer → Policer) (d : Dev) : (updPolicer p g d).counters = d.counters := rfl
@[simp] theorem updPolicer_exc (p : Nat) (g : Policer → Policer) (d : Dev) : (updPolicer p g d).exc = d.exc := rfl
@[simp] theorem updPolicer_learn (p : Nat) (g : Policer → Policer) (d : Dev) : (updPolicer p g d).learn = d.learn := rfl
@[simp] theorem updPolicer_pkts (p : Nat) (g : Policer → Policer) (d : Dev) : (updPolicer p g d).pkts = d.pkts := rfl
@[simp] theorem updPolicer_nextPkt (p : Nat) (g : Policer → Policer) (d : Dev) : (updPolicer p g d).nextPkt = d.nextPkt := rfl
@[simp] theorem updPolicer_ipId (p : Nat) (g : Policer → Policer) (d : Dev) : (updPolicer p g d).ipId = d.ipId := rfl
@[simp] theorem updPolicer_ctxCache (p : Nat) (g : Policer → Policer) (d : Dev) : (updPolicer p g d).ctxCache = d.ctxCache := rfl
@[simp] theorem updPolicer_ctxMiss (p : Nat) (g : Policer → Policer) (d : Dev) : (updPolicer p g d).ctxMiss = d.ctxMiss := rfl
@[simp] theorem updPolicer_placing (p : Nat) (g : Policer → Policer) (d : Dev) : (updPolicer p g d).placing = d.placing := rfl
@[simp] theorem updPolicer_ptOff (p : Nat) (g : Policer → Policer) (d : Dev) : (updPolicer p g d).ptOff = d.ptOff := rfl
@[simp] theorem updPolicer_nodes (p : Nat) (g : Policer → Policer) (d : Dev) : (updPolicer p g d).nodes = d.nodes := rfl
@[simp] theorem updPolicer_ports (p : Nat) (g : Policer → Policer) (d : Dev) : (updPolicer p g d).ports = d.ports := rfl
@[simp] theorem updPolicer_cores (p : Nat) (g : Policer → Policer) (d : Dev) : (updPolicer p g d).cores = d.cores := rfl
@[simp] theorem updPolicer_ic (p : Nat) (g : Policer → Policer) (d : Dev) : (updPolicer p g d).ic = d.ic := rfl
@[simp] theorem updPolicer_locks (p : Nat) (g : Policer → Policer) (d : Dev) : (updPolicer p g d).locks = d.locks := rfl
@[simp] theorem updPolicer_chans (p : Nat) (g : Policer → Policer) (d : Dev) : (updPolicer p g d).chans = d.chans := rfl
@[simp] theorem updPolicer_engines (p : Nat) (g : Policer → Policer) (d : Dev) : (updPolicer p g d).engines = d.engines := rfl
@[simp] theorem updPolicer_mem (p : Nat) (g : Policer → Policer) (d : Dev) : (updPolicer p g d).mem = d.mem := rfl
@[simp] theorem updPolicer_chk (p : Nat) (g : Policer → Policer) (d : Dev) : (updPolicer p g d).chk = d.chk := rfl
@[simp] theorem updPolicer_repairs (p : Nat) (g : Policer → Policer) (d : Dev) : (updPolicer p g d).repairs = d.repairs := rfl
@[simp] theorem updPolicer_scrubs (p : Nat) (g : Policer → Policer) (d : Dev) : (updPolicer p g d).scrubs = d.scrubs := rfl
@[simp] theorem updPolicer_board (p : Nat) (g : Policer → Policer) (d : Dev) : (updPolicer p g d).board = d.board := rfl
@[simp] theorem updPolicer_power (p : Nat) (g : Policer → Policer) (d : Dev) : (updPolicer p g d).power = d.power := rfl
@[simp] theorem updPolicer_tap (p : Nat) (g : Policer → Policer) (d : Dev) : (updPolicer p g d).tap = d.tap := rfl

/-! ### updPacket -/

@[simp] theorem updPacket_time (i : Nat) (g : Packet → Packet) (d : Dev) : (updPacket i g d).time = d.time := rfl
@[simp] theorem updPacket_regs (i : Nat) (g : Packet → Packet) (d : Dev) : (updPacket i g d).regs = d.regs := rfl
@[simp] theorem updPacket_latches (i : Nat) (g : Packet → Packet) (d : Dev) : (updPacket i g d).latches = d.latches := rfl
@[simp] theorem updPacket_held (i : Nat) (g : Packet → Packet) (d : Dev) : (updPacket i g d).held = d.held := rfl
@[simp] theorem updPacket_captures (i : Nat) (g : Packet → Packet) (d : Dev) : (updPacket i g d).captures = d.captures := rfl
@[simp] theorem updPacket_out (i : Nat) (g : Packet → Packet) (d : Dev) : (updPacket i g d).out = d.out := rfl
@[simp] theorem updPacket_free (i : Nat) (g : Packet → Packet) (d : Dev) : (updPacket i g d).free = d.free := rfl
@[simp] theorem updPacket_updates (i : Nat) (g : Packet → Packet) (d : Dev) : (updPacket i g d).updates = d.updates := rfl
@[simp] theorem updPacket_lastApply (i : Nat) (g : Packet → Packet) (d : Dev) : (updPacket i g d).lastApply = d.lastApply := rfl
@[simp] theorem updPacket_mev (i : Nat) (g : Packet → Packet) (d : Dev) : (updPacket i g d).mev = d.mev := rfl
@[simp] theorem updPacket_rings (i : Nat) (g : Packet → Packet) (d : Dev) : (updPacket i g d).rings = d.rings := rfl
@[simp] theorem updPacket_served (i : Nat) (g : Packet → Packet) (d : Dev) : (updPacket i g d).served = d.served := rfl
@[simp] theorem updPacket_accepted (i : Nat) (g : Packet → Packet) (d : Dev) : (updPacket i g d).accepted = d.accepted := rfl
@[simp] theorem updPacket_tblRegs (i : Nat) (g : Packet → Packet) (d : Dev) : (updPacket i g d).tblRegs = d.tblRegs := rfl
@[simp] theorem updPacket_snap (i : Nat) (g : Packet → Packet) (d : Dev) : (updPacket i g d).snap = d.snap := rfl
@[simp] theorem updPacket_snapSeq (i : Nat) (g : Packet → Packet) (d : Dev) : (updPacket i g d).snapSeq = d.snapSeq := rfl
@[simp] theorem updPacket_fns (i : Nat) (g : Packet → Packet) (d : Dev) : (updPacket i g d).fns = d.fns := rfl
@[simp] theorem updPacket_links (i : Nat) (g : Packet → Packet) (d : Dev) : (updPacket i g d).links = d.links := rfl
@[simp] theorem updPacket_owners (i : Nat) (g : Packet → Packet) (d : Dev) : (updPacket i g d).owners = d.owners := rfl
@[simp] theorem updPacket_slices (i : Nat) (g : Packet → Packet) (d : Dev) : (updPacket i g d).slices = d.slices := rfl
@[simp] theorem updPacket_queues (i : Nat) (g : Packet → Packet) (d : Dev) : (updPacket i g d).queues = d.queues := rfl
@[simp] theorem updPacket_cqs (i : Nat) (g : Packet → Packet) (d : Dev) : (updPacket i g d).cqs = d.cqs := rfl
@[simp] theorem updPacket_mail (i : Nat) (g : Packet → Packet) (d : Dev) : (updPacket i g d).mail = d.mail := rfl
@[simp] theorem updPacket_eyelets (i : Nat) (g : Packet → Packet) (d : Dev) : (updPacket i g d).eyelets = d.eyelets := rfl
@[simp] theorem updPacket_freed (i : Nat) (g : Packet → Packet) (d : Dev) : (updPacket i g d).freed = d.freed := rfl
@[simp] theorem updPacket_tables (i : Nat) (g : Packet → Packet) (d : Dev) : (updPacket i g d).tables = d.tables := rfl
@[simp] theorem updPacket_gens (i : Nat) (g : Packet → Packet) (d : Dev) : (updPacket i g d).gens = d.gens := rfl
@[simp] theorem updPacket_counters (i : Nat) (g : Packet → Packet) (d : Dev) : (updPacket i g d).counters = d.counters := rfl
@[simp] theorem updPacket_exc (i : Nat) (g : Packet → Packet) (d : Dev) : (updPacket i g d).exc = d.exc := rfl
@[simp] theorem updPacket_learn (i : Nat) (g : Packet → Packet) (d : Dev) : (updPacket i g d).learn = d.learn := rfl
@[simp] theorem updPacket_nextPkt (i : Nat) (g : Packet → Packet) (d : Dev) : (updPacket i g d).nextPkt = d.nextPkt := rfl
@[simp] theorem updPacket_ipId (i : Nat) (g : Packet → Packet) (d : Dev) : (updPacket i g d).ipId = d.ipId := rfl
@[simp] theorem updPacket_ctxCache (i : Nat) (g : Packet → Packet) (d : Dev) : (updPacket i g d).ctxCache = d.ctxCache := rfl
@[simp] theorem updPacket_ctxMiss (i : Nat) (g : Packet → Packet) (d : Dev) : (updPacket i g d).ctxMiss = d.ctxMiss := rfl
@[simp] theorem updPacket_placing (i : Nat) (g : Packet → Packet) (d : Dev) : (updPacket i g d).placing = d.placing := rfl
@[simp] theorem updPacket_ptOff (i : Nat) (g : Packet → Packet) (d : Dev) : (updPacket i g d).ptOff = d.ptOff := rfl
@[simp] theorem updPacket_policers (i : Nat) (g : Packet → Packet) (d : Dev) : (updPacket i g d).policers = d.policers := rfl
@[simp] theorem updPacket_nodes (i : Nat) (g : Packet → Packet) (d : Dev) : (updPacket i g d).nodes = d.nodes := rfl
@[simp] theorem updPacket_ports (i : Nat) (g : Packet → Packet) (d : Dev) : (updPacket i g d).ports = d.ports := rfl
@[simp] theorem updPacket_cores (i : Nat) (g : Packet → Packet) (d : Dev) : (updPacket i g d).cores = d.cores := rfl
@[simp] theorem updPacket_ic (i : Nat) (g : Packet → Packet) (d : Dev) : (updPacket i g d).ic = d.ic := rfl
@[simp] theorem updPacket_locks (i : Nat) (g : Packet → Packet) (d : Dev) : (updPacket i g d).locks = d.locks := rfl
@[simp] theorem updPacket_chans (i : Nat) (g : Packet → Packet) (d : Dev) : (updPacket i g d).chans = d.chans := rfl
@[simp] theorem updPacket_engines (i : Nat) (g : Packet → Packet) (d : Dev) : (updPacket i g d).engines = d.engines := rfl
@[simp] theorem updPacket_mem (i : Nat) (g : Packet → Packet) (d : Dev) : (updPacket i g d).mem = d.mem := rfl
@[simp] theorem updPacket_chk (i : Nat) (g : Packet → Packet) (d : Dev) : (updPacket i g d).chk = d.chk := rfl
@[simp] theorem updPacket_repairs (i : Nat) (g : Packet → Packet) (d : Dev) : (updPacket i g d).repairs = d.repairs := rfl
@[simp] theorem updPacket_scrubs (i : Nat) (g : Packet → Packet) (d : Dev) : (updPacket i g d).scrubs = d.scrubs := rfl
@[simp] theorem updPacket_board (i : Nat) (g : Packet → Packet) (d : Dev) : (updPacket i g d).board = d.board := rfl
@[simp] theorem updPacket_power (i : Nat) (g : Packet → Packet) (d : Dev) : (updPacket i g d).power = d.power := rfl
@[simp] theorem updPacket_tap (i : Nat) (g : Packet → Packet) (d : Dev) : (updPacket i g d).tap = d.tap := rfl

/-! ### dropPacket -/

@[simp] theorem dropPacket_time (i : Nat) (d : Dev) : (dropPacket i d).time = d.time := rfl
@[simp] theorem dropPacket_regs (i : Nat) (d : Dev) : (dropPacket i d).regs = d.regs := rfl
@[simp] theorem dropPacket_latches (i : Nat) (d : Dev) : (dropPacket i d).latches = d.latches := rfl
@[simp] theorem dropPacket_held (i : Nat) (d : Dev) : (dropPacket i d).held = d.held := rfl
@[simp] theorem dropPacket_captures (i : Nat) (d : Dev) : (dropPacket i d).captures = d.captures := rfl
@[simp] theorem dropPacket_out (i : Nat) (d : Dev) : (dropPacket i d).out = d.out := rfl
@[simp] theorem dropPacket_free (i : Nat) (d : Dev) : (dropPacket i d).free = d.free := rfl
@[simp] theorem dropPacket_updates (i : Nat) (d : Dev) : (dropPacket i d).updates = d.updates := rfl
@[simp] theorem dropPacket_lastApply (i : Nat) (d : Dev) : (dropPacket i d).lastApply = d.lastApply := rfl
@[simp] theorem dropPacket_mev (i : Nat) (d : Dev) : (dropPacket i d).mev = d.mev := rfl
@[simp] theorem dropPacket_rings (i : Nat) (d : Dev) : (dropPacket i d).rings = d.rings := rfl
@[simp] theorem dropPacket_served (i : Nat) (d : Dev) : (dropPacket i d).served = d.served := rfl
@[simp] theorem dropPacket_accepted (i : Nat) (d : Dev) : (dropPacket i d).accepted = d.accepted := rfl
@[simp] theorem dropPacket_tblRegs (i : Nat) (d : Dev) : (dropPacket i d).tblRegs = d.tblRegs := rfl
@[simp] theorem dropPacket_snap (i : Nat) (d : Dev) : (dropPacket i d).snap = d.snap := rfl
@[simp] theorem dropPacket_snapSeq (i : Nat) (d : Dev) : (dropPacket i d).snapSeq = d.snapSeq := rfl
@[simp] theorem dropPacket_fns (i : Nat) (d : Dev) : (dropPacket i d).fns = d.fns := rfl
@[simp] theorem dropPacket_links (i : Nat) (d : Dev) : (dropPacket i d).links = d.links := rfl
@[simp] theorem dropPacket_owners (i : Nat) (d : Dev) : (dropPacket i d).owners = d.owners := rfl
@[simp] theorem dropPacket_slices (i : Nat) (d : Dev) : (dropPacket i d).slices = d.slices := rfl
@[simp] theorem dropPacket_queues (i : Nat) (d : Dev) : (dropPacket i d).queues = d.queues := rfl
@[simp] theorem dropPacket_cqs (i : Nat) (d : Dev) : (dropPacket i d).cqs = d.cqs := rfl
@[simp] theorem dropPacket_mail (i : Nat) (d : Dev) : (dropPacket i d).mail = d.mail := rfl
@[simp] theorem dropPacket_eyelets (i : Nat) (d : Dev) : (dropPacket i d).eyelets = d.eyelets := rfl
@[simp] theorem dropPacket_freed (i : Nat) (d : Dev) : (dropPacket i d).freed = d.freed := rfl
@[simp] theorem dropPacket_tables (i : Nat) (d : Dev) : (dropPacket i d).tables = d.tables := rfl
@[simp] theorem dropPacket_gens (i : Nat) (d : Dev) : (dropPacket i d).gens = d.gens := rfl
@[simp] theorem dropPacket_counters (i : Nat) (d : Dev) : (dropPacket i d).counters = d.counters := rfl
@[simp] theorem dropPacket_exc (i : Nat) (d : Dev) : (dropPacket i d).exc = d.exc := rfl
@[simp] theorem dropPacket_learn (i : Nat) (d : Dev) : (dropPacket i d).learn = d.learn := rfl
@[simp] theorem dropPacket_nextPkt (i : Nat) (d : Dev) : (dropPacket i d).nextPkt = d.nextPkt := rfl
@[simp] theorem dropPacket_ipId (i : Nat) (d : Dev) : (dropPacket i d).ipId = d.ipId := rfl
@[simp] theorem dropPacket_ctxCache (i : Nat) (d : Dev) : (dropPacket i d).ctxCache = d.ctxCache := rfl
@[simp] theorem dropPacket_ctxMiss (i : Nat) (d : Dev) : (dropPacket i d).ctxMiss = d.ctxMiss := rfl
@[simp] theorem dropPacket_placing (i : Nat) (d : Dev) : (dropPacket i d).placing = d.placing := rfl
@[simp] theorem dropPacket_ptOff (i : Nat) (d : Dev) : (dropPacket i d).ptOff = d.ptOff := rfl
@[simp] theorem dropPacket_policers (i : Nat) (d : Dev) : (dropPacket i d).policers = d.policers := rfl
@[simp] theorem dropPacket_nodes (i : Nat) (d : Dev) : (dropPacket i d).nodes = d.nodes := rfl
@[simp] theorem dropPacket_ports (i : Nat) (d : Dev) : (dropPacket i d).ports = d.ports := rfl
@[simp] theorem dropPacket_cores (i : Nat) (d : Dev) : (dropPacket i d).cores = d.cores := rfl
@[simp] theorem dropPacket_ic (i : Nat) (d : Dev) : (dropPacket i d).ic = d.ic := rfl
@[simp] theorem dropPacket_locks (i : Nat) (d : Dev) : (dropPacket i d).locks = d.locks := rfl
@[simp] theorem dropPacket_chans (i : Nat) (d : Dev) : (dropPacket i d).chans = d.chans := rfl
@[simp] theorem dropPacket_engines (i : Nat) (d : Dev) : (dropPacket i d).engines = d.engines := rfl
@[simp] theorem dropPacket_mem (i : Nat) (d : Dev) : (dropPacket i d).mem = d.mem := rfl
@[simp] theorem dropPacket_chk (i : Nat) (d : Dev) : (dropPacket i d).chk = d.chk := rfl
@[simp] theorem dropPacket_repairs (i : Nat) (d : Dev) : (dropPacket i d).repairs = d.repairs := rfl
@[simp] theorem dropPacket_scrubs (i : Nat) (d : Dev) : (dropPacket i d).scrubs = d.scrubs := rfl
@[simp] theorem dropPacket_board (i : Nat) (d : Dev) : (dropPacket i d).board = d.board := rfl
@[simp] theorem dropPacket_power (i : Nat) (d : Dev) : (dropPacket i d).power = d.power := rfl
@[simp] theorem dropPacket_tap (i : Nat) (d : Dev) : (dropPacket i d).tap = d.tap := rfl

/-! ### updPower -/

@[simp] theorem updPower_time (g : Power → Power) (d : Dev) : (updPower g d).time = d.time := rfl
@[simp] theorem updPower_regs (g : Power → Power) (d : Dev) : (updPower g d).regs = d.regs := rfl
@[simp] theorem updPower_latches (g : Power → Power) (d : Dev) : (updPower g d).latches = d.latches := rfl
@[simp] theorem updPower_held (g : Power → Power) (d : Dev) : (updPower g d).held = d.held := rfl
@[simp] theorem updPower_captures (g : Power → Power) (d : Dev) : (updPower g d).captures = d.captures := rfl
@[simp] theorem updPower_out (g : Power → Power) (d : Dev) : (updPower g d).out = d.out := rfl
@[simp] theorem updPower_free (g : Power → Power) (d : Dev) : (updPower g d).free = d.free := rfl
@[simp] theorem updPower_updates (g : Power → Power) (d : Dev) : (updPower g d).updates = d.updates := rfl
@[simp] theorem updPower_lastApply (g : Power → Power) (d : Dev) : (updPower g d).lastApply = d.lastApply := rfl
@[simp] theorem updPower_mev (g : Power → Power) (d : Dev) : (updPower g d).mev = d.mev := rfl
@[simp] theorem updPower_rings (g : Power → Power) (d : Dev) : (updPower g d).rings = d.rings := rfl
@[simp] theorem updPower_served (g : Power → Power) (d : Dev) : (updPower g d).served = d.served := rfl
@[simp] theorem updPower_accepted (g : Power → Power) (d : Dev) : (updPower g d).accepted = d.accepted := rfl
@[simp] theorem updPower_tblRegs (g : Power → Power) (d : Dev) : (updPower g d).tblRegs = d.tblRegs := rfl
@[simp] theorem updPower_snap (g : Power → Power) (d : Dev) : (updPower g d).snap = d.snap := rfl
@[simp] theorem updPower_snapSeq (g : Power → Power) (d : Dev) : (updPower g d).snapSeq = d.snapSeq := rfl
@[simp] theorem updPower_fns (g : Power → Power) (d : Dev) : (updPower g d).fns = d.fns := rfl
@[simp] theorem updPower_links (g : Power → Power) (d : Dev) : (updPower g d).links = d.links := rfl
@[simp] theorem updPower_owners (g : Power → Power) (d : Dev) : (updPower g d).owners = d.owners := rfl
@[simp] theorem updPower_slices (g : Power → Power) (d : Dev) : (updPower g d).slices = d.slices := rfl
@[simp] theorem updPower_queues (g : Power → Power) (d : Dev) : (updPower g d).queues = d.queues := rfl
@[simp] theorem updPower_cqs (g : Power → Power) (d : Dev) : (updPower g d).cqs = d.cqs := rfl
@[simp] theorem updPower_mail (g : Power → Power) (d : Dev) : (updPower g d).mail = d.mail := rfl
@[simp] theorem updPower_eyelets (g : Power → Power) (d : Dev) : (updPower g d).eyelets = d.eyelets := rfl
@[simp] theorem updPower_freed (g : Power → Power) (d : Dev) : (updPower g d).freed = d.freed := rfl
@[simp] theorem updPower_tables (g : Power → Power) (d : Dev) : (updPower g d).tables = d.tables := rfl
@[simp] theorem updPower_gens (g : Power → Power) (d : Dev) : (updPower g d).gens = d.gens := rfl
@[simp] theorem updPower_counters (g : Power → Power) (d : Dev) : (updPower g d).counters = d.counters := rfl
@[simp] theorem updPower_exc (g : Power → Power) (d : Dev) : (updPower g d).exc = d.exc := rfl
@[simp] theorem updPower_learn (g : Power → Power) (d : Dev) : (updPower g d).learn = d.learn := rfl
@[simp] theorem updPower_pkts (g : Power → Power) (d : Dev) : (updPower g d).pkts = d.pkts := rfl
@[simp] theorem updPower_nextPkt (g : Power → Power) (d : Dev) : (updPower g d).nextPkt = d.nextPkt := rfl
@[simp] theorem updPower_ipId (g : Power → Power) (d : Dev) : (updPower g d).ipId = d.ipId := rfl
@[simp] theorem updPower_ctxCache (g : Power → Power) (d : Dev) : (updPower g d).ctxCache = d.ctxCache := rfl
@[simp] theorem updPower_ctxMiss (g : Power → Power) (d : Dev) : (updPower g d).ctxMiss = d.ctxMiss := rfl
@[simp] theorem updPower_placing (g : Power → Power) (d : Dev) : (updPower g d).placing = d.placing := rfl
@[simp] theorem updPower_ptOff (g : Power → Power) (d : Dev) : (updPower g d).ptOff = d.ptOff := rfl
@[simp] theorem updPower_policers (g : Power → Power) (d : Dev) : (updPower g d).policers = d.policers := rfl
@[simp] theorem updPower_nodes (g : Power → Power) (d : Dev) : (updPower g d).nodes = d.nodes := rfl
@[simp] theorem updPower_ports (g : Power → Power) (d : Dev) : (updPower g d).ports = d.ports := rfl
@[simp] theorem updPower_cores (g : Power → Power) (d : Dev) : (updPower g d).cores = d.cores := rfl
@[simp] theorem updPower_ic (g : Power → Power) (d : Dev) : (updPower g d).ic = d.ic := rfl
@[simp] theorem updPower_locks (g : Power → Power) (d : Dev) : (updPower g d).locks = d.locks := rfl
@[simp] theorem updPower_chans (g : Power → Power) (d : Dev) : (updPower g d).chans = d.chans := rfl
@[simp] theorem updPower_engines (g : Power → Power) (d : Dev) : (updPower g d).engines = d.engines := rfl
@[simp] theorem updPower_mem (g : Power → Power) (d : Dev) : (updPower g d).mem = d.mem := rfl
@[simp] theorem updPower_chk (g : Power → Power) (d : Dev) : (updPower g d).chk = d.chk := rfl
@[simp] theorem updPower_repairs (g : Power → Power) (d : Dev) : (updPower g d).repairs = d.repairs := rfl
@[simp] theorem updPower_scrubs (g : Power → Power) (d : Dev) : (updPower g d).scrubs = d.scrubs := rfl
@[simp] theorem updPower_board (g : Power → Power) (d : Dev) : (updPower g d).board = d.board := rfl
@[simp] theorem updPower_tap (g : Power → Power) (d : Dev) : (updPower g d).tap = d.tap := rfl

/-! ### setReg -/

@[simp] theorem setReg_time (off : Nat) (v : Word) (d : Dev) : (setReg off v d).time = d.time := rfl
@[simp] theorem setReg_latches (off : Nat) (v : Word) (d : Dev) : (setReg off v d).latches = d.latches := rfl
@[simp] theorem setReg_held (off : Nat) (v : Word) (d : Dev) : (setReg off v d).held = d.held := rfl
@[simp] theorem setReg_captures (off : Nat) (v : Word) (d : Dev) : (setReg off v d).captures = d.captures := rfl
@[simp] theorem setReg_out (off : Nat) (v : Word) (d : Dev) : (setReg off v d).out = d.out := rfl
@[simp] theorem setReg_free (off : Nat) (v : Word) (d : Dev) : (setReg off v d).free = d.free := rfl
@[simp] theorem setReg_updates (off : Nat) (v : Word) (d : Dev) : (setReg off v d).updates = d.updates := rfl
@[simp] theorem setReg_lastApply (off : Nat) (v : Word) (d : Dev) : (setReg off v d).lastApply = d.lastApply := rfl
@[simp] theorem setReg_mev (off : Nat) (v : Word) (d : Dev) : (setReg off v d).mev = d.mev := rfl
@[simp] theorem setReg_rings (off : Nat) (v : Word) (d : Dev) : (setReg off v d).rings = d.rings := rfl
@[simp] theorem setReg_served (off : Nat) (v : Word) (d : Dev) : (setReg off v d).served = d.served := rfl
@[simp] theorem setReg_accepted (off : Nat) (v : Word) (d : Dev) : (setReg off v d).accepted = d.accepted := rfl
@[simp] theorem setReg_tblRegs (off : Nat) (v : Word) (d : Dev) : (setReg off v d).tblRegs = d.tblRegs := rfl
@[simp] theorem setReg_snap (off : Nat) (v : Word) (d : Dev) : (setReg off v d).snap = d.snap := rfl
@[simp] theorem setReg_snapSeq (off : Nat) (v : Word) (d : Dev) : (setReg off v d).snapSeq = d.snapSeq := rfl
@[simp] theorem setReg_fns (off : Nat) (v : Word) (d : Dev) : (setReg off v d).fns = d.fns := rfl
@[simp] theorem setReg_links (off : Nat) (v : Word) (d : Dev) : (setReg off v d).links = d.links := rfl
@[simp] theorem setReg_owners (off : Nat) (v : Word) (d : Dev) : (setReg off v d).owners = d.owners := rfl
@[simp] theorem setReg_slices (off : Nat) (v : Word) (d : Dev) : (setReg off v d).slices = d.slices := rfl
@[simp] theorem setReg_queues (off : Nat) (v : Word) (d : Dev) : (setReg off v d).queues = d.queues := rfl
@[simp] theorem setReg_cqs (off : Nat) (v : Word) (d : Dev) : (setReg off v d).cqs = d.cqs := rfl
@[simp] theorem setReg_mail (off : Nat) (v : Word) (d : Dev) : (setReg off v d).mail = d.mail := rfl
@[simp] theorem setReg_eyelets (off : Nat) (v : Word) (d : Dev) : (setReg off v d).eyelets = d.eyelets := rfl
@[simp] theorem setReg_freed (off : Nat) (v : Word) (d : Dev) : (setReg off v d).freed = d.freed := rfl
@[simp] theorem setReg_tables (off : Nat) (v : Word) (d : Dev) : (setReg off v d).tables = d.tables := rfl
@[simp] theorem setReg_gens (off : Nat) (v : Word) (d : Dev) : (setReg off v d).gens = d.gens := rfl
@[simp] theorem setReg_counters (off : Nat) (v : Word) (d : Dev) : (setReg off v d).counters = d.counters := rfl
@[simp] theorem setReg_exc (off : Nat) (v : Word) (d : Dev) : (setReg off v d).exc = d.exc := rfl
@[simp] theorem setReg_learn (off : Nat) (v : Word) (d : Dev) : (setReg off v d).learn = d.learn := rfl
@[simp] theorem setReg_pkts (off : Nat) (v : Word) (d : Dev) : (setReg off v d).pkts = d.pkts := rfl
@[simp] theorem setReg_nextPkt (off : Nat) (v : Word) (d : Dev) : (setReg off v d).nextPkt = d.nextPkt := rfl
@[simp] theorem setReg_ipId (off : Nat) (v : Word) (d : Dev) : (setReg off v d).ipId = d.ipId := rfl
@[simp] theorem setReg_ctxCache (off : Nat) (v : Word) (d : Dev) : (setReg off v d).ctxCache = d.ctxCache := rfl
@[simp] theorem setReg_ctxMiss (off : Nat) (v : Word) (d : Dev) : (setReg off v d).ctxMiss = d.ctxMiss := rfl
@[simp] theorem setReg_placing (off : Nat) (v : Word) (d : Dev) : (setReg off v d).placing = d.placing := rfl
@[simp] theorem setReg_ptOff (off : Nat) (v : Word) (d : Dev) : (setReg off v d).ptOff = d.ptOff := rfl
@[simp] theorem setReg_policers (off : Nat) (v : Word) (d : Dev) : (setReg off v d).policers = d.policers := rfl
@[simp] theorem setReg_nodes (off : Nat) (v : Word) (d : Dev) : (setReg off v d).nodes = d.nodes := rfl
@[simp] theorem setReg_ports (off : Nat) (v : Word) (d : Dev) : (setReg off v d).ports = d.ports := rfl
@[simp] theorem setReg_cores (off : Nat) (v : Word) (d : Dev) : (setReg off v d).cores = d.cores := rfl
@[simp] theorem setReg_ic (off : Nat) (v : Word) (d : Dev) : (setReg off v d).ic = d.ic := rfl
@[simp] theorem setReg_locks (off : Nat) (v : Word) (d : Dev) : (setReg off v d).locks = d.locks := rfl
@[simp] theorem setReg_chans (off : Nat) (v : Word) (d : Dev) : (setReg off v d).chans = d.chans := rfl
@[simp] theorem setReg_engines (off : Nat) (v : Word) (d : Dev) : (setReg off v d).engines = d.engines := rfl
@[simp] theorem setReg_mem (off : Nat) (v : Word) (d : Dev) : (setReg off v d).mem = d.mem := rfl
@[simp] theorem setReg_chk (off : Nat) (v : Word) (d : Dev) : (setReg off v d).chk = d.chk := rfl
@[simp] theorem setReg_repairs (off : Nat) (v : Word) (d : Dev) : (setReg off v d).repairs = d.repairs := rfl
@[simp] theorem setReg_scrubs (off : Nat) (v : Word) (d : Dev) : (setReg off v d).scrubs = d.scrubs := rfl
@[simp] theorem setReg_board (off : Nat) (v : Word) (d : Dev) : (setReg off v d).board = d.board := rfl
@[simp] theorem setReg_power (off : Nat) (v : Word) (d : Dev) : (setReg off v d).power = d.power := rfl
@[simp] theorem setReg_tap (off : Nat) (v : Word) (d : Dev) : (setReg off v d).tap = d.tap := rfl

/-! ### capture -/

@[simp] theorem capture_time (q : Requester) (off v : Nat) (d : Dev) : (capture q off v d).time = d.time := rfl
@[simp] theorem capture_regs (q : Requester) (off v : Nat) (d : Dev) : (capture q off v d).regs = d.regs := rfl
@[simp] theorem capture_latches (q : Requester) (off v : Nat) (d : Dev) : (capture q off v d).latches = d.latches := rfl
@[simp] theorem capture_held (q : Requester) (off v : Nat) (d : Dev) : (capture q off v d).held = d.held := rfl
@[simp] theorem capture_out (q : Requester) (off v : Nat) (d : Dev) : (capture q off v d).out = d.out := rfl
@[simp] theorem capture_free (q : Requester) (off v : Nat) (d : Dev) : (capture q off v d).free = d.free := rfl
@[simp] theorem capture_updates (q : Requester) (off v : Nat) (d : Dev) : (capture q off v d).updates = d.updates := rfl
@[simp] theorem capture_lastApply (q : Requester) (off v : Nat) (d : Dev) : (capture q off v d).lastApply = d.lastApply := rfl
@[simp] theorem capture_mev (q : Requester) (off v : Nat) (d : Dev) : (capture q off v d).mev = d.mev := rfl
@[simp] theorem capture_rings (q : Requester) (off v : Nat) (d : Dev) : (capture q off v d).rings = d.rings := rfl
@[simp] theorem capture_served (q : Requester) (off v : Nat) (d : Dev) : (capture q off v d).served = d.served := rfl
@[simp] theorem capture_accepted (q : Requester) (off v : Nat) (d : Dev) : (capture q off v d).accepted = d.accepted := rfl
@[simp] theorem capture_tblRegs (q : Requester) (off v : Nat) (d : Dev) : (capture q off v d).tblRegs = d.tblRegs := rfl
@[simp] theorem capture_snap (q : Requester) (off v : Nat) (d : Dev) : (capture q off v d).snap = d.snap := rfl
@[simp] theorem capture_snapSeq (q : Requester) (off v : Nat) (d : Dev) : (capture q off v d).snapSeq = d.snapSeq := rfl
@[simp] theorem capture_fns (q : Requester) (off v : Nat) (d : Dev) : (capture q off v d).fns = d.fns := rfl
@[simp] theorem capture_links (q : Requester) (off v : Nat) (d : Dev) : (capture q off v d).links = d.links := rfl
@[simp] theorem capture_owners (q : Requester) (off v : Nat) (d : Dev) : (capture q off v d).owners = d.owners := rfl
@[simp] theorem capture_slices (q : Requester) (off v : Nat) (d : Dev) : (capture q off v d).slices = d.slices := rfl
@[simp] theorem capture_queues (q : Requester) (off v : Nat) (d : Dev) : (capture q off v d).queues = d.queues := rfl
@[simp] theorem capture_cqs (q : Requester) (off v : Nat) (d : Dev) : (capture q off v d).cqs = d.cqs := rfl
@[simp] theorem capture_mail (q : Requester) (off v : Nat) (d : Dev) : (capture q off v d).mail = d.mail := rfl
@[simp] theorem capture_eyelets (q : Requester) (off v : Nat) (d : Dev) : (capture q off v d).eyelets = d.eyelets := rfl
@[simp] theorem capture_freed (q : Requester) (off v : Nat) (d : Dev) : (capture q off v d).freed = d.freed := rfl
@[simp] theorem capture_tables (q : Requester) (off v : Nat) (d : Dev) : (capture q off v d).tables = d.tables := rfl
@[simp] theorem capture_gens (q : Requester) (off v : Nat) (d : Dev) : (capture q off v d).gens = d.gens := rfl
@[simp] theorem capture_counters (q : Requester) (off v : Nat) (d : Dev) : (capture q off v d).counters = d.counters := rfl
@[simp] theorem capture_exc (q : Requester) (off v : Nat) (d : Dev) : (capture q off v d).exc = d.exc := rfl
@[simp] theorem capture_learn (q : Requester) (off v : Nat) (d : Dev) : (capture q off v d).learn = d.learn := rfl
@[simp] theorem capture_pkts (q : Requester) (off v : Nat) (d : Dev) : (capture q off v d).pkts = d.pkts := rfl
@[simp] theorem capture_nextPkt (q : Requester) (off v : Nat) (d : Dev) : (capture q off v d).nextPkt = d.nextPkt := rfl
@[simp] theorem capture_ipId (q : Requester) (off v : Nat) (d : Dev) : (capture q off v d).ipId = d.ipId := rfl
@[simp] theorem capture_ctxCache (q : Requester) (off v : Nat) (d : Dev) : (capture q off v d).ctxCache = d.ctxCache := rfl
@[simp] theorem capture_ctxMiss (q : Requester) (off v : Nat) (d : Dev) : (capture q off v d).ctxMiss = d.ctxMiss := rfl
@[simp] theorem capture_placing (q : Requester) (off v : Nat) (d : Dev) : (capture q off v d).placing = d.placing := rfl
@[simp] theorem capture_ptOff (q : Requester) (off v : Nat) (d : Dev) : (capture q off v d).ptOff = d.ptOff := rfl
@[simp] theorem capture_policers (q : Requester) (off v : Nat) (d : Dev) : (capture q off v d).policers = d.policers := rfl
@[simp] theorem capture_nodes (q : Requester) (off v : Nat) (d : Dev) : (capture q off v d).nodes = d.nodes := rfl
@[simp] theorem capture_ports (q : Requester) (off v : Nat) (d : Dev) : (capture q off v d).ports = d.ports := rfl
@[simp] theorem capture_cores (q : Requester) (off v : Nat) (d : Dev) : (capture q off v d).cores = d.cores := rfl
@[simp] theorem capture_ic (q : Requester) (off v : Nat) (d : Dev) : (capture q off v d).ic = d.ic := rfl
@[simp] theorem capture_locks (q : Requester) (off v : Nat) (d : Dev) : (capture q off v d).locks = d.locks := rfl
@[simp] theorem capture_chans (q : Requester) (off v : Nat) (d : Dev) : (capture q off v d).chans = d.chans := rfl
@[simp] theorem capture_engines (q : Requester) (off v : Nat) (d : Dev) : (capture q off v d).engines = d.engines := rfl
@[simp] theorem capture_mem (q : Requester) (off v : Nat) (d : Dev) : (capture q off v d).mem = d.mem := rfl
@[simp] theorem capture_chk (q : Requester) (off v : Nat) (d : Dev) : (capture q off v d).chk = d.chk := rfl
@[simp] theorem capture_repairs (q : Requester) (off v : Nat) (d : Dev) : (capture q off v d).repairs = d.repairs := rfl
@[simp] theorem capture_scrubs (q : Requester) (off v : Nat) (d : Dev) : (capture q off v d).scrubs = d.scrubs := rfl
@[simp] theorem capture_board (q : Requester) (off v : Nat) (d : Dev) : (capture q off v d).board = d.board := rfl
@[simp] theorem capture_power (q : Requester) (off v : Nat) (d : Dev) : (capture q off v d).power = d.power := rfl
@[simp] theorem capture_tap (q : Requester) (off v : Nat) (d : Dev) : (capture q off v d).tap = d.tap := rfl

/-! ### What the readers find after an update of something else -/

@[simp] theorem fn_emit (o : Output) (k : Nat) (d : Dev) : (emit o d).fn k = d.fn k := rfl
@[simp] theorem link_emit (o : Output) (k : Nat) (d : Dev) : (emit o d).link k = d.link k := rfl
@[simp] theorem ring_emit (o : Output) (k : Ring) (d : Dev) : (emit o d).ring k = d.ring k := rfl
@[simp] theorem owner_emit (o : Output) (k : Owner) (d : Dev) : (emit o d).owner k = d.owner k := rfl
@[simp] theorem slice_emit (o : Output) (k : Nat) (d : Dev) : (emit o d).slice k = d.slice k := rfl
@[simp] theorem queue_emit (o : Output) (k : Owner) (m : Nat) (d : Dev) : (emit o d).queue k m = d.queue k m := rfl
@[simp] theorem cq_emit (o : Output) (k : Owner) (m : Nat) (d : Dev) : (emit o d).cq k m = d.cq k m := rfl
@[simp] theorem side_emit (o : Output) (k : Side) (d : Dev) : (emit o d).side k = d.side k := rfl
@[simp] theorem core_emit (o : Output) (k : Nat) (d : Dev) : (emit o d).core k = d.core k := rfl
@[simp] theorem chan_emit (o : Output) (k m : Nat) (d : Dev) : (emit o d).chan k m = d.chan k m := rfl
@[simp] theorem engine_emit (o : Output) (k : Nat) (d : Dev) : (emit o d).engine k = d.engine k := rfl
@[simp] theorem port_emit (o : Output) (k : Nat) (d : Dev) : (emit o d).port k = d.port k := rfl
@[simp] theorem table_emit (o : Output) (k : Nat) (d : Dev) : (emit o d).table k = d.table k := rfl
@[simp] theorem node_emit (o : Output) (k : NodeId) (d : Dev) : (emit o d).node k = d.node k := rfl
@[simp] theorem policer_emit (o : Output) (k : Nat) (d : Dev) : (emit o d).policer k = d.policer k := rfl
@[simp] theorem packet_emit (o : Output) (k : Nat) (d : Dev) : (emit o d).packet k = d.packet k := rfl
@[simp] theorem reg_emit (o : Output) (k : Nat) (d : Dev) : (emit o d).reg k = d.reg k := rfl
@[simp] theorem link_updFn (f : Nat) (g : Fn → Fn) (k : Nat) (d : Dev) : (updFn f g d).link k = d.link k := rfl
@[simp] theorem ring_updFn (f : Nat) (g : Fn → Fn) (k : Ring) (d : Dev) : (updFn f g d).ring k = d.ring k := rfl
@[simp] theorem owner_updFn (f : Nat) (g : Fn → Fn) (k : Owner) (d : Dev) : (updFn f g d).owner k = d.owner k := rfl
@[simp] theorem slice_updFn (f : Nat) (g : Fn → Fn) (k : Nat) (d : Dev) : (updFn f g d).slice k = d.slice k := rfl
@[simp] theorem queue_updFn (f : Nat) (g : Fn → Fn) (k : Owner) (m : Nat) (d : Dev) : (updFn f g d).queue k m = d.queue k m := rfl
@[simp] theorem cq_updFn (f : Nat) (g : Fn → Fn) (k : Owner) (m : Nat) (d : Dev) : (updFn f g d).cq k m = d.cq k m := rfl
@[simp] theorem side_updFn (f : Nat) (g : Fn → Fn) (k : Side) (d : Dev) : (updFn f g d).side k = d.side k := rfl
@[simp] theorem core_updFn (f : Nat) (g : Fn → Fn) (k : Nat) (d : Dev) : (updFn f g d).core k = d.core k := rfl
@[simp] theorem chan_updFn (f : Nat) (g : Fn → Fn) (k m : Nat) (d : Dev) : (updFn f g d).chan k m = d.chan k m := rfl
@[simp] theorem engine_updFn (f : Nat) (g : Fn → Fn) (k : Nat) (d : Dev) : (updFn f g d).engine k = d.engine k := rfl
@[simp] theorem port_updFn (f : Nat) (g : Fn → Fn) (k : Nat) (d : Dev) : (updFn f g d).port k = d.port k := rfl
@[simp] theorem table_updFn (f : Nat) (g : Fn → Fn) (k : Nat) (d : Dev) : (updFn f g d).table k = d.table k := rfl
@[simp] theorem node_updFn (f : Nat) (g : Fn → Fn) (k : NodeId) (d : Dev) : (updFn f g d).node k = d.node k := rfl
@[simp] theorem policer_updFn (f : Nat) (g : Fn → Fn) (k : Nat) (d : Dev) : (updFn f g d).policer k = d.policer k := rfl
@[simp] theorem packet_updFn (f : Nat) (g : Fn → Fn) (k : Nat) (d : Dev) : (updFn f g d).packet k = d.packet k := rfl
@[simp] theorem reg_updFn (f : Nat) (g : Fn → Fn) (k : Nat) (d : Dev) : (updFn f g d).reg k = d.reg k := rfl
@[simp] theorem fn_updLink (n : Nat) (g : Link → Link) (k : Nat) (d : Dev) : (updLink n g d).fn k = d.fn k := rfl
@[simp] theorem ring_updLink (n : Nat) (g : Link → Link) (k : Ring) (d : Dev) : (updLink n g d).ring k = d.ring k := rfl
@[simp] theorem owner_updLink (n : Nat) (g : Link → Link) (k : Owner) (d : Dev) : (updLink n g d).owner k = d.owner k := rfl
@[simp] theorem slice_updLink (n : Nat) (g : Link → Link) (k : Nat) (d : Dev) : (updLink n g d).slice k = d.slice k := rfl
@[simp] theorem queue_updLink (n : Nat) (g : Link → Link) (k : Owner) (m : Nat) (d : Dev) : (updLink n g d).queue k m = d.queue k m := rfl
@[simp] theorem cq_updLink (n : Nat) (g : Link → Link) (k : Owner) (m : Nat) (d : Dev) : (updLink n g d).cq k m = d.cq k m := rfl
@[simp] theorem side_updLink (n : Nat) (g : Link → Link) (k : Side) (d : Dev) : (updLink n g d).side k = d.side k := rfl
@[simp] theorem core_updLink (n : Nat) (g : Link → Link) (k : Nat) (d : Dev) : (updLink n g d).core k = d.core k := rfl
@[simp] theorem chan_updLink (n : Nat) (g : Link → Link) (k m : Nat) (d : Dev) : (updLink n g d).chan k m = d.chan k m := rfl
@[simp] theorem engine_updLink (n : Nat) (g : Link → Link) (k : Nat) (d : Dev) : (updLink n g d).engine k = d.engine k := rfl
@[simp] theorem port_updLink (n : Nat) (g : Link → Link) (k : Nat) (d : Dev) : (updLink n g d).port k = d.port k := rfl
@[simp] theorem table_updLink (n : Nat) (g : Link → Link) (k : Nat) (d : Dev) : (updLink n g d).table k = d.table k := rfl
@[simp] theorem node_updLink (n : Nat) (g : Link → Link) (k : NodeId) (d : Dev) : (updLink n g d).node k = d.node k := rfl
@[simp] theorem policer_updLink (n : Nat) (g : Link → Link) (k : Nat) (d : Dev) : (updLink n g d).policer k = d.policer k := rfl
@[simp] theorem packet_updLink (n : Nat) (g : Link → Link) (k : Nat) (d : Dev) : (updLink n g d).packet k = d.packet k := rfl
@[simp] theorem reg_updLink (n : Nat) (g : Link → Link) (k : Nat) (d : Dev) : (updLink n g d).reg k = d.reg k := rfl
@[simp] theorem fn_updRing (r : Ring) (g : CmdRing → CmdRing) (k : Nat) (d : Dev) : (updRing r g d).fn k = d.fn k := rfl
@[simp] theorem link_updRing (r : Ring) (g : CmdRing → CmdRing) (k : Nat) (d : Dev) : (updRing r g d).link k = d.link k := rfl
@[simp] theorem owner_updRing (r : Ring) (g : CmdRing → CmdRing) (k : Owner) (d : Dev) : (updRing r g d).owner k = d.owner k := rfl
@[simp] theorem slice_updRing (r : Ring) (g : CmdRing → CmdRing) (k : Nat) (d : Dev) : (updRing r g d).slice k = d.slice k := rfl
@[simp] theorem queue_updRing (r : Ring) (g : CmdRing → CmdRing) (k : Owner) (m : Nat) (d : Dev) : (updRing r g d).queue k m = d.queue k m := rfl
@[simp] theorem cq_updRing (r : Ring) (g : CmdRing → CmdRing) (k : Owner) (m : Nat) (d : Dev) : (updRing r g d).cq k m = d.cq k m := rfl
@[simp] theorem side_updRing (r : Ring) (g : CmdRing → CmdRing) (k : Side) (d : Dev) : (updRing r g d).side k = d.side k := rfl
@[simp] theorem core_updRing (r : Ring) (g : CmdRing → CmdRing) (k : Nat) (d : Dev) : (updRing r g d).core k = d.core k := rfl
@[simp] theorem chan_updRing (r : Ring) (g : CmdRing → CmdRing) (k m : Nat) (d : Dev) : (updRing r g d).chan k m = d.chan k m := rfl
@[simp] theorem engine_updRing (r : Ring) (g : CmdRing → CmdRing) (k : Nat) (d : Dev) : (updRing r g d).engine k = d.engine k := rfl
@[simp] theorem port_updRing (r : Ring) (g : CmdRing → CmdRing) (k : Nat) (d : Dev) : (updRing r g d).port k = d.port k := rfl
@[simp] theorem table_updRing (r : Ring) (g : CmdRing → CmdRing) (k : Nat) (d : Dev) : (updRing r g d).table k = d.table k := rfl
@[simp] theorem node_updRing (r : Ring) (g : CmdRing → CmdRing) (k : NodeId) (d : Dev) : (updRing r g d).node k = d.node k := rfl
@[simp] theorem policer_updRing (r : Ring) (g : CmdRing → CmdRing) (k : Nat) (d : Dev) : (updRing r g d).policer k = d.policer k := rfl
@[simp] theorem packet_updRing (r : Ring) (g : CmdRing → CmdRing) (k : Nat) (d : Dev) : (updRing r g d).packet k = d.packet k := rfl
@[simp] theorem reg_updRing (r : Ring) (g : CmdRing → CmdRing) (k : Nat) (d : Dev) : (updRing r g d).reg k = d.reg k := rfl
@[simp] theorem fn_updOwner (o : Owner) (g : OwnerSt → OwnerSt) (k : Nat) (d : Dev) : (updOwner o g d).fn k = d.fn k := rfl
@[simp] theorem link_updOwner (o : Owner) (g : OwnerSt → OwnerSt) (k : Nat) (d : Dev) : (updOwner o g d).link k = d.link k := rfl
@[simp] theorem ring_updOwner (o : Owner) (g : OwnerSt → OwnerSt) (k : Ring) (d : Dev) : (updOwner o g d).ring k = d.ring k := rfl
@[simp] theorem slice_updOwner (o : Owner) (g : OwnerSt → OwnerSt) (k : Nat) (d : Dev) : (updOwner o g d).slice k = d.slice k := rfl
@[simp] theorem queue_updOwner (o : Owner) (g : OwnerSt → OwnerSt) (k : Owner) (m : Nat) (d : Dev) : (updOwner o g d).queue k m = d.queue k m := rfl
@[simp] theorem cq_updOwner (o : Owner) (g : OwnerSt → OwnerSt) (k : Owner) (m : Nat) (d : Dev) : (updOwner o g d).cq k m = d.cq k m := rfl
@[simp] theorem side_updOwner (o : Owner) (g : OwnerSt → OwnerSt) (k : Side) (d : Dev) : (updOwner o g d).side k = d.side k := rfl
@[simp] theorem core_updOwner (o : Owner) (g : OwnerSt → OwnerSt) (k : Nat) (d : Dev) : (updOwner o g d).core k = d.core k := rfl
@[simp] theorem chan_updOwner (o : Owner) (g : OwnerSt → OwnerSt) (k m : Nat) (d : Dev) : (updOwner o g d).chan k m = d.chan k m := rfl
@[simp] theorem engine_updOwner (o : Owner) (g : OwnerSt → OwnerSt) (k : Nat) (d : Dev) : (updOwner o g d).engine k = d.engine k := rfl
@[simp] theorem port_updOwner (o : Owner) (g : OwnerSt → OwnerSt) (k : Nat) (d : Dev) : (updOwner o g d).port k = d.port k := rfl
@[simp] theorem table_updOwner (o : Owner) (g : OwnerSt → OwnerSt) (k : Nat) (d : Dev) : (updOwner o g d).table k = d.table k := rfl
@[simp] theorem node_updOwner (o : Owner) (g : OwnerSt → OwnerSt) (k : NodeId) (d : Dev) : (updOwner o g d).node k = d.node k := rfl
@[simp] theorem policer_updOwner (o : Owner) (g : OwnerSt → OwnerSt) (k : Nat) (d : Dev) : (updOwner o g d).policer k = d.policer k := rfl
@[simp] theorem packet_updOwner (o : Owner) (g : OwnerSt → OwnerSt) (k : Nat) (d : Dev) : (updOwner o g d).packet k = d.packet k := rfl
@[simp] theorem reg_updOwner (o : Owner) (g : OwnerSt → OwnerSt) (k : Nat) (d : Dev) : (updOwner o g d).reg k = d.reg k := rfl
@[simp] theorem fn_updSlice (s : Nat) (g : Slice → Slice) (k : Nat) (d : Dev) : (updSlice s g d).fn k = d.fn k := rfl
@[simp] theorem link_updSlice (s : Nat) (g : Slice → Slice) (k : Nat) (d : Dev) : (updSlice s g d).link k = d.link k := rfl
@[simp] theorem ring_updSlice (s : Nat) (g : Slice → Slice) (k : Ring) (d : Dev) : (updSlice s g d).ring k = d.ring k := rfl
@[simp] theorem owner_updSlice (s : Nat) (g : Slice → Slice) (k : Owner) (d : Dev) : (updSlice s g d).owner k = d.owner k := rfl
@[simp] theorem queue_updSlice (s : Nat) (g : Slice → Slice) (k : Owner) (m : Nat) (d : Dev) : (updSlice s g d).queue k m = d.queue k m := rfl
@[simp] theorem cq_updSlice (s : Nat) (g : Slice → Slice) (k : Owner) (m : Nat) (d : Dev) : (updSlice s g d).cq k m = d.cq k m := rfl
@[simp] theorem side_updSlice (s : Nat) (g : Slice → Slice) (k : Side) (d : Dev) : (updSlice s g d).side k = d.side k := rfl
@[simp] theorem core_updSlice (s : Nat) (g : Slice → Slice) (k : Nat) (d : Dev) : (updSlice s g d).core k = d.core k := rfl
@[simp] theorem chan_updSlice (s : Nat) (g : Slice → Slice) (k m : Nat) (d : Dev) : (updSlice s g d).chan k m = d.chan k m := rfl
@[simp] theorem engine_updSlice (s : Nat) (g : Slice → Slice) (k : Nat) (d : Dev) : (updSlice s g d).engine k = d.engine k := rfl
@[simp] theorem port_updSlice (s : Nat) (g : Slice → Slice) (k : Nat) (d : Dev) : (updSlice s g d).port k = d.port k := rfl
@[simp] theorem table_updSlice (s : Nat) (g : Slice → Slice) (k : Nat) (d : Dev) : (updSlice s g d).table k = d.table k := rfl
@[simp] theorem node_updSlice (s : Nat) (g : Slice → Slice) (k : NodeId) (d : Dev) : (updSlice s g d).node k = d.node k := rfl
@[simp] theorem policer_updSlice (s : Nat) (g : Slice → Slice) (k : Nat) (d : Dev) : (updSlice s g d).policer k = d.policer k := rfl
@[simp] theorem packet_updSlice (s : Nat) (g : Slice → Slice) (k : Nat) (d : Dev) : (updSlice s g d).packet k = d.packet k := rfl
@[simp] theorem reg_updSlice (s : Nat) (g : Slice → Slice) (k : Nat) (d : Dev) : (updSlice s g d).reg k = d.reg k := rfl
@[simp] theorem fn_updQueue (o : Owner) (q : Nat) (g : Queue → Queue) (k : Nat) (d : Dev) : (updQueue o q g d).fn k = d.fn k := rfl
@[simp] theorem link_updQueue (o : Owner) (q : Nat) (g : Queue → Queue) (k : Nat) (d : Dev) : (updQueue o q g d).link k = d.link k := rfl
@[simp] theorem ring_updQueue (o : Owner) (q : Nat) (g : Queue → Queue) (k : Ring) (d : Dev) : (updQueue o q g d).ring k = d.ring k := rfl
@[simp] theorem owner_updQueue (o : Owner) (q : Nat) (g : Queue → Queue) (k : Owner) (d : Dev) : (updQueue o q g d).owner k = d.owner k := rfl
@[simp] theorem slice_updQueue (o : Owner) (q : Nat) (g : Queue → Queue) (k : Nat) (d : Dev) : (updQueue o q g d).slice k = d.slice k := rfl
@[simp] theorem cq_updQueue (o : Owner) (q : Nat) (g : Queue → Queue) (k : Owner) (m : Nat) (d : Dev) : (updQueue o q g d).cq k m = d.cq k m := rfl
@[simp] theorem side_updQueue (o : Owner) (q : Nat) (g : Queue → Queue) (k : Side) (d : Dev) : (updQueue o q g d).side k = d.side k := rfl
@[simp] theorem core_updQueue (o : Owner) (q : Nat) (g : Queue → Queue) (k : Nat) (d : Dev) : (updQueue o q g d).core k = d.core k := rfl
@[simp] theorem chan_updQueue (o : Owner) (q : Nat) (g : Queue → Queue) (k m : Nat) (d : Dev) : (updQueue o q g d).chan k m = d.chan k m := rfl
@[simp] theorem engine_updQueue (o : Owner) (q : Nat) (g : Queue → Queue) (k : Nat) (d : Dev) : (updQueue o q g d).engine k = d.engine k := rfl
@[simp] theorem port_updQueue (o : Owner) (q : Nat) (g : Queue → Queue) (k : Nat) (d : Dev) : (updQueue o q g d).port k = d.port k := rfl
@[simp] theorem table_updQueue (o : Owner) (q : Nat) (g : Queue → Queue) (k : Nat) (d : Dev) : (updQueue o q g d).table k = d.table k := rfl
@[simp] theorem node_updQueue (o : Owner) (q : Nat) (g : Queue → Queue) (k : NodeId) (d : Dev) : (updQueue o q g d).node k = d.node k := rfl
@[simp] theorem policer_updQueue (o : Owner) (q : Nat) (g : Queue → Queue) (k : Nat) (d : Dev) : (updQueue o q g d).policer k = d.policer k := rfl
@[simp] theorem packet_updQueue (o : Owner) (q : Nat) (g : Queue → Queue) (k : Nat) (d : Dev) : (updQueue o q g d).packet k = d.packet k := rfl
@[simp] theorem reg_updQueue (o : Owner) (q : Nat) (g : Queue → Queue) (k : Nat) (d : Dev) : (updQueue o q g d).reg k = d.reg k := rfl
@[simp] theorem fn_updCq (o : Owner) (c : Nat) (g : Cq → Cq) (k : Nat) (d : Dev) : (updCq o c g d).fn k = d.fn k := rfl
@[simp] theorem link_updCq (o : Owner) (c : Nat) (g : Cq → Cq) (k : Nat) (d : Dev) : (updCq o c g d).link k = d.link k := rfl
@[simp] theorem ring_updCq (o : Owner) (c : Nat) (g : Cq → Cq) (k : Ring) (d : Dev) : (updCq o c g d).ring k = d.ring k := rfl
@[simp] theorem owner_updCq (o : Owner) (c : Nat) (g : Cq → Cq) (k : Owner) (d : Dev) : (updCq o c g d).owner k = d.owner k := rfl
@[simp] theorem slice_updCq (o : Owner) (c : Nat) (g : Cq → Cq) (k : Nat) (d : Dev) : (updCq o c g d).slice k = d.slice k := rfl
@[simp] theorem queue_updCq (o : Owner) (c : Nat) (g : Cq → Cq) (k : Owner) (m : Nat) (d : Dev) : (updCq o c g d).queue k m = d.queue k m := rfl
@[simp] theorem side_updCq (o : Owner) (c : Nat) (g : Cq → Cq) (k : Side) (d : Dev) : (updCq o c g d).side k = d.side k := rfl
@[simp] theorem core_updCq (o : Owner) (c : Nat) (g : Cq → Cq) (k : Nat) (d : Dev) : (updCq o c g d).core k = d.core k := rfl
@[simp] theorem chan_updCq (o : Owner) (c : Nat) (g : Cq → Cq) (k m : Nat) (d : Dev) : (updCq o c g d).chan k m = d.chan k m := rfl
@[simp] theorem engine_updCq (o : Owner) (c : Nat) (g : Cq → Cq) (k : Nat) (d : Dev) : (updCq o c g d).engine k = d.engine k := rfl
@[simp] theorem port_updCq (o : Owner) (c : Nat) (g : Cq → Cq) (k : Nat) (d : Dev) : (updCq o c g d).port k = d.port k := rfl
@[simp] theorem table_updCq (o : Owner) (c : Nat) (g : Cq → Cq) (k : Nat) (d : Dev) : (updCq o c g d).table k = d.table k := rfl
@[simp] theorem node_updCq (o : Owner) (c : Nat) (g : Cq → Cq) (k : NodeId) (d : Dev) : (updCq o c g d).node k = d.node k := rfl
@[simp] theorem policer_updCq (o : Owner) (c : Nat) (g : Cq → Cq) (k : Nat) (d : Dev) : (updCq o c g d).policer k = d.policer k := rfl
@[simp] theorem packet_updCq (o : Owner) (c : Nat) (g : Cq → Cq) (k : Nat) (d : Dev) : (updCq o c g d).packet k = d.packet k := rfl
@[simp] theorem reg_updCq (o : Owner) (c : Nat) (g : Cq → Cq) (k : Nat) (d : Dev) : (updCq o c g d).reg k = d.reg k := rfl
@[simp] theorem fn_updSide (x : Side) (g : MbSide → MbSide) (k : Nat) (d : Dev) : (updSide x g d).fn k = d.fn k := rfl
@[simp] theorem link_updSide (x : Side) (g : MbSide → MbSide) (k : Nat) (d : Dev) : (updSide x g d).link k = d.link k := rfl
@[simp] theorem ring_updSide (x : Side) (g : MbSide → MbSide) (k : Ring) (d : Dev) : (updSide x g d).ring k = d.ring k := rfl
@[simp] theorem owner_updSide (x : Side) (g : MbSide → MbSide) (k : Owner) (d : Dev) : (updSide x g d).owner k = d.owner k := rfl
@[simp] theorem slice_updSide (x : Side) (g : MbSide → MbSide) (k : Nat) (d : Dev) : (updSide x g d).slice k = d.slice k := rfl
@[simp] theorem queue_updSide (x : Side) (g : MbSide → MbSide) (k : Owner) (m : Nat) (d : Dev) : (updSide x g d).queue k m = d.queue k m := rfl
@[simp] theorem cq_updSide (x : Side) (g : MbSide → MbSide) (k : Owner) (m : Nat) (d : Dev) : (updSide x g d).cq k m = d.cq k m := rfl
@[simp] theorem core_updSide (x : Side) (g : MbSide → MbSide) (k : Nat) (d : Dev) : (updSide x g d).core k = d.core k := rfl
@[simp] theorem chan_updSide (x : Side) (g : MbSide → MbSide) (k m : Nat) (d : Dev) : (updSide x g d).chan k m = d.chan k m := rfl
@[simp] theorem engine_updSide (x : Side) (g : MbSide → MbSide) (k : Nat) (d : Dev) : (updSide x g d).engine k = d.engine k := rfl
@[simp] theorem port_updSide (x : Side) (g : MbSide → MbSide) (k : Nat) (d : Dev) : (updSide x g d).port k = d.port k := rfl
@[simp] theorem table_updSide (x : Side) (g : MbSide → MbSide) (k : Nat) (d : Dev) : (updSide x g d).table k = d.table k := rfl
@[simp] theorem node_updSide (x : Side) (g : MbSide → MbSide) (k : NodeId) (d : Dev) : (updSide x g d).node k = d.node k := rfl
@[simp] theorem policer_updSide (x : Side) (g : MbSide → MbSide) (k : Nat) (d : Dev) : (updSide x g d).policer k = d.policer k := rfl
@[simp] theorem packet_updSide (x : Side) (g : MbSide → MbSide) (k : Nat) (d : Dev) : (updSide x g d).packet k = d.packet k := rfl
@[simp] theorem reg_updSide (x : Side) (g : MbSide → MbSide) (k : Nat) (d : Dev) : (updSide x g d).reg k = d.reg k := rfl
@[simp] theorem fn_updCore (c : Nat) (g : Core → Core) (k : Nat) (d : Dev) : (updCore c g d).fn k = d.fn k := rfl
@[simp] theorem link_updCore (c : Nat) (g : Core → Core) (k : Nat) (d : Dev) : (updCore c g d).link k = d.link k := rfl
@[simp] theorem ring_updCore (c : Nat) (g : Core → Core) (k : Ring) (d : Dev) : (updCore c g d).ring k = d.ring k := rfl
@[simp] theorem owner_updCore (c : Nat) (g : Core → Core) (k : Owner) (d : Dev) : (updCore c g d).owner k = d.owner k := rfl
@[simp] theorem slice_updCore (c : Nat) (g : Core → Core) (k : Nat) (d : Dev) : (updCore c g d).slice k = d.slice k := rfl
@[simp] theorem queue_updCore (c : Nat) (g : Core → Core) (k : Owner) (m : Nat) (d : Dev) : (updCore c g d).queue k m = d.queue k m := rfl
@[simp] theorem cq_updCore (c : Nat) (g : Core → Core) (k : Owner) (m : Nat) (d : Dev) : (updCore c g d).cq k m = d.cq k m := rfl
@[simp] theorem side_updCore (c : Nat) (g : Core → Core) (k : Side) (d : Dev) : (updCore c g d).side k = d.side k := rfl
@[simp] theorem chan_updCore (c : Nat) (g : Core → Core) (k m : Nat) (d : Dev) : (updCore c g d).chan k m = d.chan k m := rfl
@[simp] theorem engine_updCore (c : Nat) (g : Core → Core) (k : Nat) (d : Dev) : (updCore c g d).engine k = d.engine k := rfl
@[simp] theorem port_updCore (c : Nat) (g : Core → Core) (k : Nat) (d : Dev) : (updCore c g d).port k = d.port k := rfl
@[simp] theorem table_updCore (c : Nat) (g : Core → Core) (k : Nat) (d : Dev) : (updCore c g d).table k = d.table k := rfl
@[simp] theorem node_updCore (c : Nat) (g : Core → Core) (k : NodeId) (d : Dev) : (updCore c g d).node k = d.node k := rfl
@[simp] theorem policer_updCore (c : Nat) (g : Core → Core) (k : Nat) (d : Dev) : (updCore c g d).policer k = d.policer k := rfl
@[simp] theorem packet_updCore (c : Nat) (g : Core → Core) (k : Nat) (d : Dev) : (updCore c g d).packet k = d.packet k := rfl
@[simp] theorem reg_updCore (c : Nat) (g : Core → Core) (k : Nat) (d : Dev) : (updCore c g d).reg k = d.reg k := rfl
@[simp] theorem fn_updChan (e ch : Nat) (g : Chan → Chan) (k : Nat) (d : Dev) : (updChan e ch g d).fn k = d.fn k := rfl
@[simp] theorem link_updChan (e ch : Nat) (g : Chan → Chan) (k : Nat) (d : Dev) : (updChan e ch g d).link k = d.link k := rfl
@[simp] theorem ring_updChan (e ch : Nat) (g : Chan → Chan) (k : Ring) (d : Dev) : (updChan e ch g d).ring k = d.ring k := rfl
@[simp] theorem owner_updChan (e ch : Nat) (g : Chan → Chan) (k : Owner) (d : Dev) : (updChan e ch g d).owner k = d.owner k := rfl
@[simp] theorem slice_updChan (e ch : Nat) (g : Chan → Chan) (k : Nat) (d : Dev) : (updChan e ch g d).slice k = d.slice k := rfl
@[simp] theorem queue_updChan (e ch : Nat) (g : Chan → Chan) (k : Owner) (m : Nat) (d : Dev) : (updChan e ch g d).queue k m = d.queue k m := rfl
@[simp] theorem cq_updChan (e ch : Nat) (g : Chan → Chan) (k : Owner) (m : Nat) (d : Dev) : (updChan e ch g d).cq k m = d.cq k m := rfl
@[simp] theorem side_updChan (e ch : Nat) (g : Chan → Chan) (k : Side) (d : Dev) : (updChan e ch g d).side k = d.side k := rfl
@[simp] theorem core_updChan (e ch : Nat) (g : Chan → Chan) (k : Nat) (d : Dev) : (updChan e ch g d).core k = d.core k := rfl
@[simp] theorem engine_updChan (e ch : Nat) (g : Chan → Chan) (k : Nat) (d : Dev) : (updChan e ch g d).engine k = d.engine k := rfl
@[simp] theorem port_updChan (e ch : Nat) (g : Chan → Chan) (k : Nat) (d : Dev) : (updChan e ch g d).port k = d.port k := rfl
@[simp] theorem table_updChan (e ch : Nat) (g : Chan → Chan) (k : Nat) (d : Dev) : (updChan e ch g d).table k = d.table k := rfl
@[simp] theorem node_updChan (e ch : Nat) (g : Chan → Chan) (k : NodeId) (d : Dev) : (updChan e ch g d).node k = d.node k := rfl
@[simp] theorem policer_updChan (e ch : Nat) (g : Chan → Chan) (k : Nat) (d : Dev) : (updChan e ch g d).policer k = d.policer k := rfl
@[simp] theorem packet_updChan (e ch : Nat) (g : Chan → Chan) (k : Nat) (d : Dev) : (updChan e ch g d).packet k = d.packet k := rfl
@[simp] theorem reg_updChan (e ch : Nat) (g : Chan → Chan) (k : Nat) (d : Dev) : (updChan e ch g d).reg k = d.reg k := rfl
@[simp] theorem fn_updEngine (e : Nat) (g : Engine → Engine) (k : Nat) (d : Dev) : (updEngine e g d).fn k = d.fn k := rfl
@[simp] theorem link_updEngine (e : Nat) (g : Engine → Engine) (k : Nat) (d : Dev) : (updEngine e g d).link k = d.link k := rfl
@[simp] theorem ring_updEngine (e : Nat) (g : Engine → Engine) (k : Ring) (d : Dev) : (updEngine e g d).ring k = d.ring k := rfl
@[simp] theorem owner_updEngine (e : Nat) (g : Engine → Engine) (k : Owner) (d : Dev) : (updEngine e g d).owner k = d.owner k := rfl
@[simp] theorem slice_updEngine (e : Nat) (g : Engine → Engine) (k : Nat) (d : Dev) : (updEngine e g d).slice k = d.slice k := rfl
@[simp] theorem queue_updEngine (e : Nat) (g : Engine → Engine) (k : Owner) (m : Nat) (d : Dev) : (updEngine e g d).queue k m = d.queue k m := rfl
@[simp] theorem cq_updEngine (e : Nat) (g : Engine → Engine) (k : Owner) (m : Nat) (d : Dev) : (updEngine e g d).cq k m = d.cq k m := rfl
@[simp] theorem side_updEngine (e : Nat) (g : Engine → Engine) (k : Side) (d : Dev) : (updEngine e g d).side k = d.side k := rfl
@[simp] theorem core_updEngine (e : Nat) (g : Engine → Engine) (k : Nat) (d : Dev) : (updEngine e g d).core k = d.core k := rfl
@[simp] theorem chan_updEngine (e : Nat) (g : Engine → Engine) (k m : Nat) (d : Dev) : (updEngine e g d).chan k m = d.chan k m := rfl
@[simp] theorem port_updEngine (e : Nat) (g : Engine → Engine) (k : Nat) (d : Dev) : (updEngine e g d).port k = d.port k := rfl
@[simp] theorem table_updEngine (e : Nat) (g : Engine → Engine) (k : Nat) (d : Dev) : (updEngine e g d).table k = d.table k := rfl
@[simp] theorem node_updEngine (e : Nat) (g : Engine → Engine) (k : NodeId) (d : Dev) : (updEngine e g d).node k = d.node k := rfl
@[simp] theorem policer_updEngine (e : Nat) (g : Engine → Engine) (k : Nat) (d : Dev) : (updEngine e g d).policer k = d.policer k := rfl
@[simp] theorem packet_updEngine (e : Nat) (g : Engine → Engine) (k : Nat) (d : Dev) : (updEngine e g d).packet k = d.packet k := rfl
@[simp] theorem reg_updEngine (e : Nat) (g : Engine → Engine) (k : Nat) (d : Dev) : (updEngine e g d).reg k = d.reg k := rfl
@[simp] theorem fn_updPort (p : Nat) (g : LPort → LPort) (k : Nat) (d : Dev) : (updPort p g d).fn k = d.fn k := rfl
@[simp] theorem link_updPort (p : Nat) (g : LPort → LPort) (k : Nat) (d : Dev) : (updPort p g d).link k = d.link k := rfl
@[simp] theorem ring_updPort (p : Nat) (g : LPort → LPort) (k : Ring) (d : Dev) : (updPort p g d).ring k = d.ring k := rfl
@[simp] theorem owner_updPort (p : Nat) (g : LPort → LPort) (k : Owner) (d : Dev) : (updPort p g d).owner k = d.owner k := rfl
@[simp] theorem slice_updPort (p : Nat) (g : LPort → LPort) (k : Nat) (d : Dev) : (updPort p g d).slice k = d.slice k := rfl
@[simp] theorem queue_updPort (p : Nat) (g : LPort → LPort) (k : Owner) (m : Nat) (d : Dev) : (updPort p g d).queue k m = d.queue k m := rfl
@[simp] theorem cq_updPort (p : Nat) (g : LPort → LPort) (k : Owner) (m : Nat) (d : Dev) : (updPort p g d).cq k m = d.cq k m := rfl
@[simp] theorem side_updPort (p : Nat) (g : LPort → LPort) (k : Side) (d : Dev) : (updPort p g d).side k = d.side k := rfl
@[simp] theorem core_updPort (p : Nat) (g : LPort → LPort) (k : Nat) (d : Dev) : (updPort p g d).core k = d.core k := rfl
@[simp] theorem chan_updPort (p : Nat) (g : LPort → LPort) (k m : Nat) (d : Dev) : (updPort p g d).chan k m = d.chan k m := rfl
@[simp] theorem engine_updPort (p : Nat) (g : LPort → LPort) (k : Nat) (d : Dev) : (updPort p g d).engine k = d.engine k := rfl
@[simp] theorem table_updPort (p : Nat) (g : LPort → LPort) (k : Nat) (d : Dev) : (updPort p g d).table k = d.table k := rfl
@[simp] theorem node_updPort (p : Nat) (g : LPort → LPort) (k : NodeId) (d : Dev) : (updPort p g d).node k = d.node k := rfl
@[simp] theorem policer_updPort (p : Nat) (g : LPort → LPort) (k : Nat) (d : Dev) : (updPort p g d).policer k = d.policer k := rfl
@[simp] theorem packet_updPort (p : Nat) (g : LPort → LPort) (k : Nat) (d : Dev) : (updPort p g d).packet k = d.packet k := rfl
@[simp] theorem reg_updPort (p : Nat) (g : LPort → LPort) (k : Nat) (d : Dev) : (updPort p g d).reg k = d.reg k := rfl
@[simp] theorem fn_updTable (t : Nat) (g : Table → Table) (k : Nat) (d : Dev) : (updTable t g d).fn k = d.fn k := rfl
@[simp] theorem link_updTable (t : Nat) (g : Table → Table) (k : Nat) (d : Dev) : (updTable t g d).link k = d.link k := rfl
@[simp] theorem ring_updTable (t : Nat) (g : Table → Table) (k : Ring) (d : Dev) : (updTable t g d).ring k = d.ring k := rfl
@[simp] theorem owner_updTable (t : Nat) (g : Table → Table) (k : Owner) (d : Dev) : (updTable t g d).owner k = d.owner k := rfl
@[simp] theorem slice_updTable (t : Nat) (g : Table → Table) (k : Nat) (d : Dev) : (updTable t g d).slice k = d.slice k := rfl
@[simp] theorem queue_updTable (t : Nat) (g : Table → Table) (k : Owner) (m : Nat) (d : Dev) : (updTable t g d).queue k m = d.queue k m := rfl
@[simp] theorem cq_updTable (t : Nat) (g : Table → Table) (k : Owner) (m : Nat) (d : Dev) : (updTable t g d).cq k m = d.cq k m := rfl
@[simp] theorem side_updTable (t : Nat) (g : Table → Table) (k : Side) (d : Dev) : (updTable t g d).side k = d.side k := rfl
@[simp] theorem core_updTable (t : Nat) (g : Table → Table) (k : Nat) (d : Dev) : (updTable t g d).core k = d.core k := rfl
@[simp] theorem chan_updTable (t : Nat) (g : Table → Table) (k m : Nat) (d : Dev) : (updTable t g d).chan k m = d.chan k m := rfl
@[simp] theorem engine_updTable (t : Nat) (g : Table → Table) (k : Nat) (d : Dev) : (updTable t g d).engine k = d.engine k := rfl
@[simp] theorem port_updTable (t : Nat) (g : Table → Table) (k : Nat) (d : Dev) : (updTable t g d).port k = d.port k := rfl
@[simp] theorem node_updTable (t : Nat) (g : Table → Table) (k : NodeId) (d : Dev) : (updTable t g d).node k = d.node k := rfl
@[simp] theorem policer_updTable (t : Nat) (g : Table → Table) (k : Nat) (d : Dev) : (updTable t g d).policer k = d.policer k := rfl
@[simp] theorem packet_updTable (t : Nat) (g : Table → Table) (k : Nat) (d : Dev) : (updTable t g d).packet k = d.packet k := rfl
@[simp] theorem reg_updTable (t : Nat) (g : Table → Table) (k : Nat) (d : Dev) : (updTable t g d).reg k = d.reg k := rfl
@[simp] theorem fn_updNode (n : NodeId) (g : Node → Node) (k : Nat) (d : Dev) : (updNode n g d).fn k = d.fn k := rfl
@[simp] theorem link_updNode (n : NodeId) (g : Node → Node) (k : Nat) (d : Dev) : (updNode n g d).link k = d.link k := rfl
@[simp] theorem ring_updNode (n : NodeId) (g : Node → Node) (k : Ring) (d : Dev) : (updNode n g d).ring k = d.ring k := rfl
@[simp] theorem owner_updNode (n : NodeId) (g : Node → Node) (k : Owner) (d : Dev) : (updNode n g d).owner k = d.owner k := rfl
@[simp] theorem slice_updNode (n : NodeId) (g : Node → Node) (k : Nat) (d : Dev) : (updNode n g d).slice k = d.slice k := rfl
@[simp] theorem queue_updNode (n : NodeId) (g : Node → Node) (k : Owner) (m : Nat) (d : Dev) : (updNode n g d).queue k m = d.queue k m := rfl
@[simp] theorem cq_updNode (n : NodeId) (g : Node → Node) (k : Owner) (m : Nat) (d : Dev) : (updNode n g d).cq k m = d.cq k m := rfl
@[simp] theorem side_updNode (n : NodeId) (g : Node → Node) (k : Side) (d : Dev) : (updNode n g d).side k = d.side k := rfl
@[simp] theorem core_updNode (n : NodeId) (g : Node → Node) (k : Nat) (d : Dev) : (updNode n g d).core k = d.core k := rfl
@[simp] theorem chan_updNode (n : NodeId) (g : Node → Node) (k m : Nat) (d : Dev) : (updNode n g d).chan k m = d.chan k m := rfl
@[simp] theorem engine_updNode (n : NodeId) (g : Node → Node) (k : Nat) (d : Dev) : (updNode n g d).engine k = d.engine k := rfl
@[simp] theorem port_updNode (n : NodeId) (g : Node → Node) (k : Nat) (d : Dev) : (updNode n g d).port k = d.port k := rfl
@[simp] theorem table_updNode (n : NodeId) (g : Node → Node) (k : Nat) (d : Dev) : (updNode n g d).table k = d.table k := rfl
@[simp] theorem policer_updNode (n : NodeId) (g : Node → Node) (k : Nat) (d : Dev) : (updNode n g d).policer k = d.policer k := rfl
@[simp] theorem packet_updNode (n : NodeId) (g : Node → Node) (k : Nat) (d : Dev) : (updNode n g d).packet k = d.packet k := rfl
@[simp] theorem reg_updNode (n : NodeId) (g : Node → Node) (k : Nat) (d : Dev) : (updNode n g d).reg k = d.reg k := rfl
@[simp] theorem fn_updPolicer (p : Nat) (g : Policer → Policer) (k : Nat) (d : Dev) : (updPolicer p g d).fn k = d.fn k := rfl
@[simp] theorem link_updPolicer (p : Nat) (g : Policer → Policer) (k : Nat) (d : Dev) : (updPolicer p g d).link k = d.link k := rfl
@[simp] theorem ring_updPolicer (p : Nat) (g : Policer → Policer) (k : Ring) (d : Dev) : (updPolicer p g d).ring k = d.ring k := rfl
@[simp] theorem owner_updPolicer (p : Nat) (g : Policer → Policer) (k : Owner) (d : Dev) : (updPolicer p g d).owner k = d.owner k := rfl
@[simp] theorem slice_updPolicer (p : Nat) (g : Policer → Policer) (k : Nat) (d : Dev) : (updPolicer p g d).slice k = d.slice k := rfl
@[simp] theorem queue_updPolicer (p : Nat) (g : Policer → Policer) (k : Owner) (m : Nat) (d : Dev) : (updPolicer p g d).queue k m = d.queue k m := rfl
@[simp] theorem cq_updPolicer (p : Nat) (g : Policer → Policer) (k : Owner) (m : Nat) (d : Dev) : (updPolicer p g d).cq k m = d.cq k m := rfl
@[simp] theorem side_updPolicer (p : Nat) (g : Policer → Policer) (k : Side) (d : Dev) : (updPolicer p g d).side k = d.side k := rfl
@[simp] theorem core_updPolicer (p : Nat) (g : Policer → Policer) (k : Nat) (d : Dev) : (updPolicer p g d).core k = d.core k := rfl
@[simp] theorem chan_updPolicer (p : Nat) (g : Policer → Policer) (k m : Nat) (d : Dev) : (updPolicer p g d).chan k m = d.chan k m := rfl
@[simp] theorem engine_updPolicer (p : Nat) (g : Policer → Policer) (k : Nat) (d : Dev) : (updPolicer p g d).engine k = d.engine k := rfl
@[simp] theorem port_updPolicer (p : Nat) (g : Policer → Policer) (k : Nat) (d : Dev) : (updPolicer p g d).port k = d.port k := rfl
@[simp] theorem table_updPolicer (p : Nat) (g : Policer → Policer) (k : Nat) (d : Dev) : (updPolicer p g d).table k = d.table k := rfl
@[simp] theorem node_updPolicer (p : Nat) (g : Policer → Policer) (k : NodeId) (d : Dev) : (updPolicer p g d).node k = d.node k := rfl
@[simp] theorem packet_updPolicer (p : Nat) (g : Policer → Policer) (k : Nat) (d : Dev) : (updPolicer p g d).packet k = d.packet k := rfl
@[simp] theorem reg_updPolicer (p : Nat) (g : Policer → Policer) (k : Nat) (d : Dev) : (updPolicer p g d).reg k = d.reg k := rfl
@[simp] theorem fn_updPacket (i : Nat) (g : Packet → Packet) (k : Nat) (d : Dev) : (updPacket i g d).fn k = d.fn k := rfl
@[simp] theorem link_updPacket (i : Nat) (g : Packet → Packet) (k : Nat) (d : Dev) : (updPacket i g d).link k = d.link k := rfl
@[simp] theorem ring_updPacket (i : Nat) (g : Packet → Packet) (k : Ring) (d : Dev) : (updPacket i g d).ring k = d.ring k := rfl
@[simp] theorem owner_updPacket (i : Nat) (g : Packet → Packet) (k : Owner) (d : Dev) : (updPacket i g d).owner k = d.owner k := rfl
@[simp] theorem slice_updPacket (i : Nat) (g : Packet → Packet) (k : Nat) (d : Dev) : (updPacket i g d).slice k = d.slice k := rfl
@[simp] theorem queue_updPacket (i : Nat) (g : Packet → Packet) (k : Owner) (m : Nat) (d : Dev) : (updPacket i g d).queue k m = d.queue k m := rfl
@[simp] theorem cq_updPacket (i : Nat) (g : Packet → Packet) (k : Owner) (m : Nat) (d : Dev) : (updPacket i g d).cq k m = d.cq k m := rfl
@[simp] theorem side_updPacket (i : Nat) (g : Packet → Packet) (k : Side) (d : Dev) : (updPacket i g d).side k = d.side k := rfl
@[simp] theorem core_updPacket (i : Nat) (g : Packet → Packet) (k : Nat) (d : Dev) : (updPacket i g d).core k = d.core k := rfl
@[simp] theorem chan_updPacket (i : Nat) (g : Packet → Packet) (k m : Nat) (d : Dev) : (updPacket i g d).chan k m = d.chan k m := rfl
@[simp] theorem engine_updPacket (i : Nat) (g : Packet → Packet) (k : Nat) (d : Dev) : (updPacket i g d).engine k = d.engine k := rfl
@[simp] theorem port_updPacket (i : Nat) (g : Packet → Packet) (k : Nat) (d : Dev) : (updPacket i g d).port k = d.port k := rfl
@[simp] theorem table_updPacket (i : Nat) (g : Packet → Packet) (k : Nat) (d : Dev) : (updPacket i g d).table k = d.table k := rfl
@[simp] theorem node_updPacket (i : Nat) (g : Packet → Packet) (k : NodeId) (d : Dev) : (updPacket i g d).node k = d.node k := rfl
@[simp] theorem policer_updPacket (i : Nat) (g : Packet → Packet) (k : Nat) (d : Dev) : (updPacket i g d).policer k = d.policer k := rfl
@[simp] theorem reg_updPacket (i : Nat) (g : Packet → Packet) (k : Nat) (d : Dev) : (updPacket i g d).reg k = d.reg k := rfl
@[simp] theorem fn_dropPacket (i : Nat) (k : Nat) (d : Dev) : (dropPacket i d).fn k = d.fn k := rfl
@[simp] theorem link_dropPacket (i : Nat) (k : Nat) (d : Dev) : (dropPacket i d).link k = d.link k := rfl
@[simp] theorem ring_dropPacket (i : Nat) (k : Ring) (d : Dev) : (dropPacket i d).ring k = d.ring k := rfl
@[simp] theorem owner_dropPacket (i : Nat) (k : Owner) (d : Dev) : (dropPacket i d).owner k = d.owner k := rfl
@[simp] theorem slice_dropPacket (i : Nat) (k : Nat) (d : Dev) : (dropPacket i d).slice k = d.slice k := rfl
@[simp] theorem queue_dropPacket (i : Nat) (k : Owner) (m : Nat) (d : Dev) : (dropPacket i d).queue k m = d.queue k m := rfl
@[simp] theorem cq_dropPacket (i : Nat) (k : Owner) (m : Nat) (d : Dev) : (dropPacket i d).cq k m = d.cq k m := rfl
@[simp] theorem side_dropPacket (i : Nat) (k : Side) (d : Dev) : (dropPacket i d).side k = d.side k := rfl
@[simp] theorem core_dropPacket (i : Nat) (k : Nat) (d : Dev) : (dropPacket i d).core k = d.core k := rfl
@[simp] theorem chan_dropPacket (i : Nat) (k m : Nat) (d : Dev) : (dropPacket i d).chan k m = d.chan k m := rfl
@[simp] theorem engine_dropPacket (i : Nat) (k : Nat) (d : Dev) : (dropPacket i d).engine k = d.engine k := rfl
@[simp] theorem port_dropPacket (i : Nat) (k : Nat) (d : Dev) : (dropPacket i d).port k = d.port k := rfl
@[simp] theorem table_dropPacket (i : Nat) (k : Nat) (d : Dev) : (dropPacket i d).table k = d.table k := rfl
@[simp] theorem node_dropPacket (i : Nat) (k : NodeId) (d : Dev) : (dropPacket i d).node k = d.node k := rfl
@[simp] theorem policer_dropPacket (i : Nat) (k : Nat) (d : Dev) : (dropPacket i d).policer k = d.policer k := rfl
@[simp] theorem reg_dropPacket (i : Nat) (k : Nat) (d : Dev) : (dropPacket i d).reg k = d.reg k := rfl
@[simp] theorem fn_updPower (g : Power → Power) (k : Nat) (d : Dev) : (updPower g d).fn k = d.fn k := rfl
@[simp] theorem link_updPower (g : Power → Power) (k : Nat) (d : Dev) : (updPower g d).link k = d.link k := rfl
@[simp] theorem ring_updPower (g : Power → Power) (k : Ring) (d : Dev) : (updPower g d).ring k = d.ring k := rfl
@[simp] theorem owner_updPower (g : Power → Power) (k : Owner) (d : Dev) : (updPower g d).owner k = d.owner k := rfl
@[simp] theorem slice_updPower (g : Power → Power) (k : Nat) (d : Dev) : (updPower g d).slice k = d.slice k := rfl
@[simp] theorem queue_updPower (g : Power → Power) (k : Owner) (m : Nat) (d : Dev) : (updPower g d).queue k m = d.queue k m := rfl
@[simp] theorem cq_updPower (g : Power → Power) (k : Owner) (m : Nat) (d : Dev) : (updPower g d).cq k m = d.cq k m := rfl
@[simp] theorem side_updPower (g : Power → Power) (k : Side) (d : Dev) : (updPower g d).side k = d.side k := rfl
@[simp] theorem core_updPower (g : Power → Power) (k : Nat) (d : Dev) : (updPower g d).core k = d.core k := rfl
@[simp] theorem chan_updPower (g : Power → Power) (k m : Nat) (d : Dev) : (updPower g d).chan k m = d.chan k m := rfl
@[simp] theorem engine_updPower (g : Power → Power) (k : Nat) (d : Dev) : (updPower g d).engine k = d.engine k := rfl
@[simp] theorem port_updPower (g : Power → Power) (k : Nat) (d : Dev) : (updPower g d).port k = d.port k := rfl
@[simp] theorem table_updPower (g : Power → Power) (k : Nat) (d : Dev) : (updPower g d).table k = d.table k := rfl
@[simp] theorem node_updPower (g : Power → Power) (k : NodeId) (d : Dev) : (updPower g d).node k = d.node k := rfl
@[simp] theorem policer_updPower (g : Power → Power) (k : Nat) (d : Dev) : (updPower g d).policer k = d.policer k := rfl
@[simp] theorem packet_updPower (g : Power → Power) (k : Nat) (d : Dev) : (updPower g d).packet k = d.packet k := rfl
@[simp] theorem reg_updPower (g : Power → Power) (k : Nat) (d : Dev) : (updPower g d).reg k = d.reg k := rfl
@[simp] theorem fn_setReg (off : Nat) (v : Word) (k : Nat) (d : Dev) : (setReg off v d).fn k = d.fn k := rfl
@[simp] theorem link_setReg (off : Nat) (v : Word) (k : Nat) (d : Dev) : (setReg off v d).link k = d.link k := rfl
@[simp] theorem ring_setReg (off : Nat) (v : Word) (k : Ring) (d : Dev) : (setReg off v d).ring k = d.ring k := rfl
@[simp] theorem owner_setReg (off : Nat) (v : Word) (k : Owner) (d : Dev) : (setReg off v d).owner k = d.owner k := rfl
@[simp] theorem slice_setReg (off : Nat) (v : Word) (k : Nat) (d : Dev) : (setReg off v d).slice k = d.slice k := rfl
@[simp] theorem queue_setReg (off : Nat) (v : Word) (k : Owner) (m : Nat) (d : Dev) : (setReg off v d).queue k m = d.queue k m := rfl
@[simp] theorem cq_setReg (off : Nat) (v : Word) (k : Owner) (m : Nat) (d : Dev) : (setReg off v d).cq k m = d.cq k m := rfl
@[simp] theorem side_setReg (off : Nat) (v : Word) (k : Side) (d : Dev) : (setReg off v d).side k = d.side k := rfl
@[simp] theorem core_setReg (off : Nat) (v : Word) (k : Nat) (d : Dev) : (setReg off v d).core k = d.core k := rfl
@[simp] theorem chan_setReg (off : Nat) (v : Word) (k m : Nat) (d : Dev) : (setReg off v d).chan k m = d.chan k m := rfl
@[simp] theorem engine_setReg (off : Nat) (v : Word) (k : Nat) (d : Dev) : (setReg off v d).engine k = d.engine k := rfl
@[simp] theorem port_setReg (off : Nat) (v : Word) (k : Nat) (d : Dev) : (setReg off v d).port k = d.port k := rfl
@[simp] theorem table_setReg (off : Nat) (v : Word) (k : Nat) (d : Dev) : (setReg off v d).table k = d.table k := rfl
@[simp] theorem node_setReg (off : Nat) (v : Word) (k : NodeId) (d : Dev) : (setReg off v d).node k = d.node k := rfl
@[simp] theorem policer_setReg (off : Nat) (v : Word) (k : Nat) (d : Dev) : (setReg off v d).policer k = d.policer k := rfl
@[simp] theorem packet_setReg (off : Nat) (v : Word) (k : Nat) (d : Dev) : (setReg off v d).packet k = d.packet k := rfl
@[simp] theorem fn_capture (q : Requester) (off v : Nat) (k : Nat) (d : Dev) : (capture q off v d).fn k = d.fn k := rfl
@[simp] theorem link_capture (q : Requester) (off v : Nat) (k : Nat) (d : Dev) : (capture q off v d).link k = d.link k := rfl
@[simp] theorem ring_capture (q : Requester) (off v : Nat) (k : Ring) (d : Dev) : (capture q off v d).ring k = d.ring k := rfl
@[simp] theorem owner_capture (q : Requester) (off v : Nat) (k : Owner) (d : Dev) : (capture q off v d).owner k = d.owner k := rfl
@[simp] theorem slice_capture (q : Requester) (off v : Nat) (k : Nat) (d : Dev) : (capture q off v d).slice k = d.slice k := rfl
@[simp] theorem queue_capture (q : Requester) (off v : Nat) (k : Owner) (m : Nat) (d : Dev) : (capture q off v d).queue k m = d.queue k m := rfl
@[simp] theorem cq_capture (q : Requester) (off v : Nat) (k : Owner) (m : Nat) (d : Dev) : (capture q off v d).cq k m = d.cq k m := rfl
@[simp] theorem side_capture (q : Requester) (off v : Nat) (k : Side) (d : Dev) : (capture q off v d).side k = d.side k := rfl
@[simp] theorem core_capture (q : Requester) (off v : Nat) (k : Nat) (d : Dev) : (capture q off v d).core k = d.core k := rfl
@[simp] theorem chan_capture (q : Requester) (off v : Nat) (k m : Nat) (d : Dev) : (capture q off v d).chan k m = d.chan k m := rfl
@[simp] theorem engine_capture (q : Requester) (off v : Nat) (k : Nat) (d : Dev) : (capture q off v d).engine k = d.engine k := rfl
@[simp] theorem port_capture (q : Requester) (off v : Nat) (k : Nat) (d : Dev) : (capture q off v d).port k = d.port k := rfl
@[simp] theorem table_capture (q : Requester) (off v : Nat) (k : Nat) (d : Dev) : (capture q off v d).table k = d.table k := rfl
@[simp] theorem node_capture (q : Requester) (off v : Nat) (k : NodeId) (d : Dev) : (capture q off v d).node k = d.node k := rfl
@[simp] theorem policer_capture (q : Requester) (off v : Nat) (k : Nat) (d : Dev) : (capture q off v d).policer k = d.policer k := rfl
@[simp] theorem packet_capture (q : Requester) (off v : Nat) (k : Nat) (d : Dev) : (capture q off v d).packet k = d.packet k := rfl
@[simp] theorem reg_capture (q : Requester) (off v : Nat) (k : Nat) (d : Dev) : (capture q off v d).reg k = d.reg k := rfl

/-! ### What a reader finds after an update of its own table -/

@[simp] theorem fn_updFn (f k : Nat) (g : Fn → Fn) (d : Dev) :
    (updFn f g d).fn k = if k = f then g (d.fn k) else d.fn k := by simp [updFn, Dev.fn]
@[simp] theorem link_updLink (f k : Nat) (g : Link → Link) (d : Dev) :
    (updLink f g d).link k = if k = f then g (d.link k) else d.link k := by simp [updLink, Dev.link]
@[simp] theorem core_updCore (f k : Nat) (g : Core → Core) (d : Dev) :
    (updCore f g d).core k = if k = f then g (d.core k) else d.core k := by simp [updCore, Dev.core]
@[simp] theorem engine_updEngine (f k : Nat) (g : Engine → Engine) (d : Dev) :
    (updEngine f g d).engine k = if k = f then g (d.engine k) else d.engine k := by simp [updEngine, Dev.engine]
@[simp] theorem port_updPort (f k : Nat) (g : LPort → LPort) (d : Dev) :
    (updPort f g d).port k = if k = f then g (d.port k) else d.port k := by simp [updPort, Dev.port]
@[simp] theorem table_updTable (f k : Nat) (g : Table → Table) (d : Dev) :
    (updTable f g d).table k = if k = f then g (d.table k) else d.table k := by simp [updTable, Dev.table]
@[simp] theorem policer_updPolicer (f k : Nat) (g : Policer → Policer) (d : Dev) :
    (updPolicer f g d).policer k = if k = f then g (d.policer k) else d.policer k := by simp [updPolicer, Dev.policer]
@[simp] theorem slice_updSlice (f k : Nat) (g : Slice → Slice) (d : Dev) :
    (updSlice f g d).slice k = if k = f then (d.slice k).map g else d.slice k := by simp [updSlice, Dev.slice]

/-- Keys of rings tell rings apart. -/
theorem ringKey_inj (r r' : Ring) : ringKey r = ringKey r' ↔ r = r' := by
  constructor
  · intro h
    cases r with
    | manager =>
      cases r' with
      | manager => rfl
      | function f => simp only [ringKey] at h; omega
      | slice f => simp only [ringKey] at h; omega
    | function f =>
      cases r' with
      | manager => simp only [ringKey] at h; omega
      | function g => simp only [ringKey] at h; exact congrArg _ (Fin.ext (by omega))
      | slice g => simp only [ringKey] at h; have := f.isLt; omega
    | slice f =>
      cases r' with
      | manager => simp only [ringKey] at h; omega
      | function g => simp only [ringKey] at h; have := g.isLt; omega
      | slice g => simp only [ringKey] at h; exact congrArg _ (Fin.ext (by omega))
  · rintro rfl; rfl
theorem ownerKey_inj (r r' : Owner) : ownerKey r = ownerKey r' ↔ r = r' := by
  constructor
  · intro h
    cases r with
    | function f =>
      cases r' with
      | function g => simp only [ownerKey] at h; exact congrArg _ (Fin.ext (by omega))
      | slice g => simp only [ownerKey] at h; have := f.isLt; omega
    | slice f =>
      cases r' with
      | function g => simp only [ownerKey] at h; have := g.isLt; omega
      | slice g => simp only [ownerKey] at h; exact congrArg _ (Fin.ext (by omega))
  · rintro rfl; rfl

@[simp] theorem ring_updRing (f k : Ring) (g : CmdRing → CmdRing) (d : Dev) :
    (updRing f g d).ring k = if k = f then g (d.ring k) else d.ring k := by simp [updRing, Dev.ring, ringKey_inj]
@[simp] theorem owner_updOwner (f k : Owner) (g : OwnerSt → OwnerSt) (d : Dev) :
    (updOwner f g d).owner k = if k = f then g (d.owner k) else d.owner k := by simp [updOwner, Dev.owner, ownerKey_inj]
@[simp] theorem queue_updQueue (o : Owner) (q : Nat) (g : Queue → Queue) (d : Dev) :
    (updQueue o q g d).queue o q = (d.queue o q).map g := by simp [updQueue, Dev.queue]
@[simp] theorem cq_updCq (o : Owner) (q : Nat) (g : Cq → Cq) (d : Dev) :
    (updCq o q g d).cq o q = (d.cq o q).map g := by simp [updCq, Dev.cq]
@[simp] theorem side_updSide (x : Side) (g : MbSide → MbSide) (d : Dev) :
    (updSide x g d).side x = g (d.side x) := by simp [updSide, Dev.side]
@[simp] theorem chan_updChan (e : Fin 2) (ch : Fin 16) (g : Chan → Chan) (d : Dev) :
    (updChan e ch g d).chan e ch = g (d.chan e ch) := by simp [updChan, Dev.chan]
@[simp] theorem node_updNode (n : NodeId) (g : Node → Node) (d : Dev) :
    (updNode n g d).node n = g (d.node n) := by simp [updNode, Dev.node]
@[simp] theorem power_updPower (g : Power → Power) (d : Dev) : (updPower g d).power = g d.power := rfl
@[simp] theorem out_emit (o : Output) (d : Dev) : (emit o d).out = d.out ++ [o] := rfl

/-! ### The register file -/

@[simp] theorem reg_setReg (off k : Nat) (v : Word) (d : Dev) :
    (setReg off v d).reg k = if k = off then v else d.reg k := by
  unfold setReg Dev.reg
  by_cases h : v = initAt off <;> by_cases h' : k = off <;> simp_all

/-! ### Conditions and repetition -/

/-- What anything reads of a conditional change. -/
theorem when_apply {β : Type} (g : Dev → β) (c : Bool) (f : Dev → Dev) (d : Dev) :
    g (when c f d) = if c then g (f d) else g d := by unfold when; split <;> rfl
@[simp] theorem when_true (f : Dev → Dev) (d : Dev) : when true f d = f d := rfl
@[simp] theorem when_false (f : Dev → Dev) (d : Dev) : when false f d = d := rfl
@[simp] theorem each_nil {β : Type} (f : β → Dev → Dev) (d : Dev) : each [] f d = d := rfl
@[simp] theorem each_cons {β : Type} (a : β) (l : List β) (f : β → Dev → Dev) (d : Dev) :
    each (a :: l) f d = each l f (f a d) := rfl

/-- What every turn of a repetition keeps, the repetition keeps. -/
theorem each_keep {β γ : Type} (g : Dev → γ) (f : β → Dev → Dev) (h : ∀ a d, g (f a d) = g d) (l : List β) (d : Dev) :
    g (each l f d) = g d := by
  induction l generalizing d with
  | nil => rfl
  | cons a r ih => rw [each_cons, ih, h]

/-- A property that every turn keeps holds at the end. -/
theorem each_inv {β : Type} (P : Dev → Prop) (f : β → Dev → Dev) (h : ∀ a d, P d → P (f a d)) (l : List β) (d : Dev)
    (hd : P d) : P (each l f d) := by
  induction l generalizing d with
  | nil => exact hd
  | cons a r ih => rw [each_cons]; exact ih _ (h a d hd)

/-! ### The state -/

@[simp] theorem onDev_pending (s : State) (f : Nv → Dev → Dev) : (s.onDev f).pending = s.pending := rfl
@[simp] theorem onDev_nv (s : State) (f : Nv → Dev → Dev) : (s.onDev f).nv = s.nv := rfl
@[simp] theorem onDev_dev (s : State) (f : Nv → Dev → Dev) : (s.onDev f).dev = f s.nv s.dev := rfl
@[simp] theorem onBoth_pending (s : State) (f : Nv → Dev → Nv × Dev) : (s.onBoth f).pending = s.pending := rfl

end Sys2Proof.Laws
end

