-- ==== Sys2Proof/Laws/Fields.lean ====
section
/-!
SUPPORT. The laws of register fields: what a field holds after a field is set, in the same register or another.
-/
namespace Sys2Proof.Laws
open Sys2Proof Sys2Proof.Machine

/-- A number in three parts: below a field, the field, above it. -/
theorem parts (v lo w : Nat) : v = v % 2 ^ lo + v / 2 ^ lo % 2 ^ w * 2 ^ lo + v / 2 ^ (lo + w) * 2 ^ (lo + w) := by
  have h1 := Nat.div_add_mod v (2 ^ lo)
  have h2 := Nat.div_add_mod (v / 2 ^ lo) (2 ^ w)
  rw [Nat.div_div_eq_div_mul, ← Nat.pow_add] at h2
  rw [Nat.pow_add] at h2 ⊢
  generalize v / (2 ^ lo * 2 ^ w) = c at *
  generalize v / 2 ^ lo % 2 ^ w = b at *
  generalize v / 2 ^ lo = e at *
  subst h2
  calc v = 2 ^ lo * (2 ^ w * c + b) + v % 2 ^ lo := h1.symm
    _ = _ := by ring

theorem setBits_eq (v hi lo x : Nat) :
    setBits v hi lo x = v % 2 ^ lo + x % 2 ^ (hi - lo + 1) * 2 ^ lo + v / 2 ^ (lo + (hi - lo + 1)) * 2 ^ (lo + (hi - lo + 1)) := by
  have h := parts v lo (hi - lo + 1)
  unfold setBits bits
  omega

theorem glue_lt (a b lo w : Nat) (ha : a < 2 ^ lo) (hb : b < 2 ^ w) : a + b * 2 ^ lo < 2 ^ (lo + w) := by
  have h : (b + 1) * 2 ^ lo ≤ 2 ^ w * 2 ^ lo := Nat.mul_le_mul_right _ hb
  rw [Nat.pow_add, Nat.mul_comm (2 ^ lo)]
  have := Nat.add_mul b 1 (2 ^ lo)
  omega

theorem glue_div (a b lo : Nat) (ha : a < 2 ^ lo) : (a + b * 2 ^ lo) / 2 ^ lo = b := by
  rw [Nat.add_mul_div_right _ _ (Nat.two_pow_pos lo), Nat.div_eq_of_lt ha, Nat.zero_add]

theorem setBits_lt (v hi lo x n : Nat) (h : lo ≤ hi) (hn : hi < n) (hv : v < 2 ^ n) : setBits v hi lo x < 2 ^ n := by
  rw [setBits_eq]
  have ha : v % 2 ^ lo < 2 ^ lo := Nat.mod_lt _ (Nat.two_pow_pos lo)
  have hb : x % 2 ^ (hi - lo + 1) < 2 ^ (hi - lo + 1) := Nat.mod_lt _ (Nat.two_pow_pos _)
  have h1 := glue_lt _ _ lo (hi - lo + 1) ha hb
  obtain ⟨k, rfl⟩ : ∃ k, n = lo + (hi - lo + 1) + k := ⟨n - (lo + (hi - lo + 1)), by omega⟩
  refine glue_lt _ _ _ k h1 ?_
  rw [Nat.div_lt_iff_lt_mul (Nat.two_pow_pos _), Nat.mul_comm, ← Nat.pow_add]
  exact hv

/-- A field reads what was put into it. -/
theorem bits_setBits (v hi lo x : Nat) : bits (setBits v hi lo x) hi lo = x % 2 ^ (hi - lo + 1) := by
  rw [setBits_eq]
  have ha : v % 2 ^ lo < 2 ^ lo := Nat.mod_lt _ (Nat.two_pow_pos lo)
  unfold bits
  rw [Nat.pow_add 2 lo, Nat.mul_comm (2 ^ lo) (2 ^ (hi - lo + 1)), ← Nat.mul_assoc, Nat.add_assoc, ← Nat.add_mul,
    glue_div _ _ _ ha, Nat.add_mul_mod_self_right, Nat.mod_mod]

/-- A field above the one set keeps its value. -/
theorem bits_setBits_above (v hi lo x hi' lo' : Nat) (h : lo ≤ hi) (h' : hi < lo') :
    bits (setBits v hi lo x) hi' lo' = bits v hi' lo' := by
  have ha : v % 2 ^ lo < 2 ^ lo := Nat.mod_lt _ (Nat.two_pow_pos lo)
  have hb : x % 2 ^ (hi - lo + 1) < 2 ^ (hi - lo + 1) := Nat.mod_lt _ (Nat.two_pow_pos _)
  have h1 := glue_lt _ _ lo (hi - lo + 1) ha hb
  obtain ⟨k, rfl⟩ : ∃ k, lo' = lo + (hi - lo + 1) + k := ⟨lo' - (lo + (hi - lo + 1)), by omega⟩
  unfold bits
  rw [setBits_eq, Nat.pow_add _ _ k, ← Nat.div_div_eq_div_mul, glue_div _ _ _ h1, ← Nat.div_div_eq_div_mul]

/-- A field below the one set keeps its value. -/
theorem bits_setBits_below (v hi lo x hi' lo' : Nat) (h : hi' < lo) (hl : lo' ≤ hi') :
    bits (setBits v hi lo x) hi' lo' = bits v hi' lo' := by
  have key : ∀ a c : Nat, bits (a + c * 2 ^ lo) hi' lo' = bits a hi' lo' := by
    intro a c
    obtain ⟨k, rfl⟩ : ∃ k, lo = lo' + (hi' - lo' + 1) + k := ⟨lo - (lo' + (hi' - lo' + 1)), by omega⟩
    unfold bits
    have e : c * 2 ^ (lo' + (hi' - lo' + 1) + k) = c * 2 ^ k * 2 ^ (hi' - lo' + 1) * 2 ^ lo' := by
      rw [Nat.pow_add, Nat.pow_add]; ring
    rw [e, Nat.add_mul_div_right _ _ (Nat.two_pow_pos lo'), Nat.add_mul_mod_self_right]
  rw [setBits_eq, Nat.pow_add 2 lo, Nat.mul_comm (2 ^ lo) (2 ^ (hi - lo + 1)), ← Nat.mul_assoc, Nat.add_assoc, ← Nat.add_mul, key]
  conv_rhs => rw [← Nat.mod_add_div v (2 ^ lo), Nat.mul_comm]
  rw [key]

theorem toNat_wset (w : Word) (hi lo x : Nat) (h : lo ≤ hi) (h' : hi < 32) :
    (wset w hi lo x).toNat = setBits w.toNat hi lo x := by
  simp only [wset, word, BitVec.toNat_ofNat]
  exact Nat.mod_eq_of_lt (setBits_lt _ _ _ _ 32 h h' w.isLt)

theorem getLsbD_bit (w : Word) (i : Nat) : w.getLsbD i = (bits w.toNat i i == 1) := by
  rw [BitVec.getLsbD, Nat.testBit_eq_decide_div_mod_eq]
  simp only [bits, Nat.sub_self, Nat.zero_add, Nat.pow_one]
  by_cases h : w.toNat / 2 ^ i % 2 = 1 <;> simp [h]

/-! ### In the register file -/

theorem fld_setReg (off k hi lo : Nat) (v : Word) (d : Dev) :
    (setReg off v d).fld k hi lo = if k = off then bits v.toNat hi lo else d.fld k hi lo := by
  unfold Dev.fld; rw [reg_setReg]; split <;> rfl

theorem fld_setFld (off hi lo x : Nat) (d : Dev) (h : lo ≤ hi) (h' : hi < 32) :
    (setFld off hi lo x d).fld off hi lo = x % 2 ^ (hi - lo + 1) := by
  simp only [setFld, fld_setReg, if_true]
  rw [toNat_wset _ _ _ _ h h', bits_setBits]

theorem fld_setFld_other (off k hi lo hi' lo' x : Nat) (d : Dev) (h : lo ≤ hi) (h' : hi < 32) (hl : lo' ≤ hi')
    (ho : k ≠ off ∨ hi < lo' ∨ hi' < lo) : (setFld off hi lo x d).fld k hi' lo' = d.fld k hi' lo' := by
  simp only [setFld, fld_setReg]
  split
  · rename_i e
    subst e
    rw [toNat_wset _ _ _ _ h h']
    rcases ho with ho | ho | ho
    · exact absurd rfl ho
    · rw [bits_setBits_above _ _ _ _ _ _ h ho]; rfl
    · rw [bits_setBits_below _ _ _ _ _ _ ho hl]; rfl
  · rfl

theorem flag_eq_fld (d : Dev) (off i : Nat) : d.flag off i = (d.fld off i i == 1) := getLsbD_bit _ _

theorem flag_setFlag (off i : Nat) (b : Bool) (d : Dev) (h : i < 32) : (setFlag off i b d).flag off i = b := by
  rw [flag_eq_fld, setFlag, fld_setFld _ _ _ _ _ (Nat.le_refl i) h]
  cases b <;> simp [b2n]

theorem flag_setFlag_other (off k i j : Nat) (b : Bool) (d : Dev) (h : i < 32) (ho : k ≠ off ∨ i ≠ j) :
    (setFlag off i b d).flag k j = d.flag k j := by
  rw [flag_eq_fld, flag_eq_fld, setFlag, fld_setFld_other _ _ _ _ _ _ _ _ (Nat.le_refl i) h (Nat.le_refl j)]
  omega

/-- A counter gains one, saturating. -/
theorem reg_count (off k : Nat) (d : Dev) :
    (count off d).reg k = if k = off then word (sat32 ((d.reg off).toNat + 1)) else d.reg k := by
  unfold count countBy; rw [reg_setReg]

end Sys2Proof.Laws
end

