-- ==== Sys2Proof/Laws/Ops.lean ====
section
/-!
SUPPORT. What the shared operations do, once for each: the frame of a command's meaning, the lists of checks, and the
gates of register accesses. A proof about a meaning cites these and does not unfold them.
-/
namespace Sys2Proof.Laws
open Sys2Proof Sys2Proof.Machine

/-- A read that asks no translation cache goes at once, and changes nothing. -/
theorem xlatRead_direct (f : Nat) (a : Option Nat) (l : List (Nat × Nat)) (d : Dev) (h : d.direct f l = true) :
    xlatRead f a (readPieces (d.fn f) l) d = (.ready, d) := by
  unfold Dev.direct at h
  generalize readPieces (d.fn f) l = x at *
  cases x with
  | nil => rfl
  | cons x r => unfold xlatRead; simp_all

theorem withRead_direct (f : Nat) (a : Option Nat) (l : List (Nat × Nat)) (res : Read) (go : Read → Dev → Dev) (d : Dev)
    (h : d.direct f l = true) : withRead f a l res go d = go res d := by
  unfold withRead; rw [xlatRead_direct f a l d h]

/-- A command whose parameters the translation cache lets through, as the cache then stands. -/
theorem commandTo_ready {α : Type} (lift : Dev → α) (r : Ring) (op : Nat) (p : Read) (f : Exec → List Byte → Dev → α)
    (d d' : Dev) (e : Exec) (b : List Byte) (hx : (d.ring r).exec = some e) (ho : e.opcode = op) (hb : e.begun = false)
    (ha : ((op == 1 || updOps.contains op) && d.ahead e.seq) = false)
    (ht : xlatRead (d.readFn r) (d.ringPasid r) (readPieces (d.fn (d.readFn r)) (d.paramRanges r e)) d = (.ready, d'))
    (hg : sliceGate e d' = none) (hp : paramsOf e.plen p = some b) : commandTo lift r op p f d = f e b d' := by
  unfold commandTo
  simp only [hx, ho, hb, ha, ht, bne_self_eq_false, Bool.or_self, Bool.false_eq_true, if_false]
  cases p <;> simp only [paramsOf] at hp <;> by_cases h0 : e.plen = 0 <;> simp_all

/-- A command that runs is its meaning, on its header and parameters. -/
theorem commandTo_runs {α : Type} (lift : Dev → α) (s : State) (r : Ring) (op : Nat) (p : Read)
    (f : Exec → List Byte → Dev → α) (e : Exec) (b : List Byte) (h : s.runs r op p = some (e, b)) :
    commandTo lift r op p f s.dev = f e b s.dev := by
  unfold State.runs at h
  split at h
  · cases h
  · rename_i x hx
    split at h
    · cases h
    · rename_i hc
      simp only [Bool.or_eq_true, not_or, Bool.not_eq_true, Bool.not_eq_false', Option.isSome_eq_false_iff,
        Option.isNone_iff_eq_none, bne_eq_false_iff_eq] at hc
      obtain ⟨⟨⟨⟨ho, hb⟩, ha⟩, hg⟩, ht⟩ := hc
      cases hp : paramsOf x.plen p with
      | none => rw [hp] at h; cases h
      | some c =>
        rw [hp] at h
        cases h
        exact commandTo_ready lift r op p f _ _ _ _ hx ho hb ha (xlatRead_direct _ _ _ _ ht) hg hp

theorem command_runs (s : State) (r : Ring) (op : Nat) (p : Read) (f : Exec → List Byte → Dev → Dev) (e : Exec)
    (b : List Byte) (h : s.runs r op p = some (e, b)) : command r op p f s.dev = f e b s.dev :=
  commandTo_runs id s r op p f e b h

/-- The ring of a command that runs executes it. -/
theorem runs_exec (s : State) (r : Ring) (op : Nat) (p : Read) (e : Exec) (b : List Byte)
    (h : s.runs r op p = some (e, b)) : (s.dev.ring r).exec = some e := by
  unfold State.runs at h
  split at h
  · simp at h
  · rename_i x hx
    rw [hx]
    repeat' split at h
    all_goals simp_all

/-- Checks that find nothing go on. -/
theorem checks_clean (r : Ring) (l : List (Option (Nat × Nat))) (go : Dev → Dev) (d : Dev) (h : clean l = true) :
    checks r l go d = go d := by
  unfold clean at h
  unfold checks
  rw [Option.isNone_iff_eq_none] at h
  rw [h]

/-- Checks that find a fault answer it. -/
theorem checks_fault (r : Ring) (l : List (Option (Nat × Nat))) (go : Dev → Dev) (d : Dev) (st det : Nat)
    (h : l.findSome? id = some (st, det)) : checks r l go d = reply r st det [] d := by
  unfold checks; rw [h]

theorem atReg_reaches (s : State) (q : Requester) (off : Nat) (f : Nv → Dev → Dev) (h : s.reaches q off = true) :
    s.atReg q off f = s.onDev f := by
  simp only [State.reaches, Bool.and_eq_true] at h
  simp [State.atReg, h.1, h.2]

theorem atRegAll_reaches (s : State) (q : Requester) (off : Nat) (f : Nv → Dev → Dev) (h : s.reaches q off = true)
    (t : trusted q = true) : s.atRegAll q off f = s.onDev f := by
  unfold State.atRegAll
  rw [atReg_reaches s q off _ h]
  cases q <;> simp_all [State.onDev, trusted]

theorem atRead_reaches (s : State) (q : Requester) (off : Nat) (f : Nv → Dev → Dev) (h : s.reaches q off = true) :
    s.atRead q off f = s.onDev f := by
  simp only [State.reaches, Bool.and_eq_true] at h
  simp [State.atRead, h.1, h.2]

theorem through_comes (s : State) (f : Option Nat) (g : Nv → Dev → Dev) (h : s.comes f = true) :
    s.through f g = s.onDev g := by
  cases f <;> simp_all [State.comes, State.through]

/-! ### Two updates that agree on the present value are one -/

theorem updFn_congr (f : Nat) (g h : Fn → Fn) (d : Dev) (e : g (d.fn f) = h (d.fn f)) : updFn f g d = updFn f h d := by
  unfold Dev.fn at e; unfold updFn mupd; rw [e]
theorem updLink_congr (n : Nat) (g h : Link → Link) (d : Dev) (e : g (d.link n) = h (d.link n)) : updLink n g d = updLink n h d := by
  unfold Dev.link at e; unfold updLink mupd; rw [e]
theorem updRing_congr (r : Ring) (g h : CmdRing → CmdRing) (d : Dev) (e : g (d.ring r) = h (d.ring r)) : updRing r g d = updRing r h d := by
  unfold Dev.ring at e; unfold updRing mupd; rw [e]
theorem updOwner_congr (o : Owner) (g h : OwnerSt → OwnerSt) (d : Dev) (e : g (d.owner o) = h (d.owner o)) : updOwner o g d = updOwner o h d := by
  unfold Dev.owner at e; unfold updOwner mupd; rw [e]
theorem updSide_congr (x : Side) (g h : MbSide → MbSide) (d : Dev) (e : g (d.side x) = h (d.side x)) : updSide x g d = updSide x h d := by
  unfold Dev.side at e; unfold updSide mupd; rw [e]
theorem updCore_congr (c : Nat) (g h : Core → Core) (d : Dev) (e : g (d.core c) = h (d.core c)) : updCore c g d = updCore c h d := by
  unfold Dev.core at e; unfold updCore mupd; rw [e]
theorem updChan_congr (e ch : Nat) (g h : Chan → Chan) (d : Dev) (he : g (d.chan e ch) = h (d.chan e ch)) : updChan e ch g d = updChan e ch h d := by
  unfold Dev.chan at he; unfold updChan mupd; rw [he]
theorem updPort_congr (p : Nat) (g h : LPort → LPort) (d : Dev) (e : g (d.port p) = h (d.port p)) : updPort p g d = updPort p h d := by
  unfold Dev.port at e; unfold updPort mupd; rw [e]
theorem updTable_congr (t : Nat) (g h : Table → Table) (d : Dev) (e : g (d.table t) = h (d.table t)) : updTable t g d = updTable t h d := by
  unfold Dev.table at e; unfold updTable mupd; rw [e]
theorem updNode_congr (n : NodeId) (g h : Node → Node) (d : Dev) (e : g (d.node n) = h (d.node n)) : updNode n g d = updNode n h d := by
  unfold Dev.node at e; unfold updNode mupd; rw [e]
theorem updPolicer_congr (p : Nat) (g h : Policer → Policer) (d : Dev) (e : g (d.policer p) = h (d.policer p)) : updPolicer p g d = updPolicer p h d := by
  unfold Dev.policer at e; unfold updPolicer mupd; rw [e]

/-- A command that answers at once ends: its ring executes nothing any more, where the reply is held too. -/
theorem ring_updRing_other (r r' : Ring) (g : CmdRing → CmdRing) (d : Dev) (h : r' ≠ r) :
    (updRing r g d).ring r' = d.ring r' := by simp [h]

end Sys2Proof.Laws
end

