-- ==== Sys2Proof/Laws/Talk.lean ====
section
/-!
SUPPORT. What the operations that only speak to the outside can do: outputs, events, interrupts and replies leave
everything alone but the outputs, the functions' own records, the event ring, the interrupt sources, the command
rings and a few counters. One lemma per operation; a proof cites these and does not unfold them.
-/
namespace Sys2Proof.Laws
open Sys2Proof Sys2Proof.Machine

/-- A register that speaking may count in: MEV_LOST, or a counter of a function. -/
def tally (k : Nat) : Bool := k == 0x318 || (0x1000000 ≤ k && k % 0x10000 ≥ 0x8000)

/-- `d'` is `d` but for what speaking changes. -/
structure Talk (d d' : Dev) : Prop where
  rest : d' = { d with out := d'.out, fns := d'.fns, regs := d'.regs, mev := d'.mev, ic := d'.ic, rings := d'.rings }
  regs : ∀ k, tally k = false → d'.reg k = d.reg k
  outs : ∃ l, d'.out = d.out ++ l

theorem Talk.refl (d : Dev) : Talk d d := ⟨rfl, fun _ _ => rfl, [], by simp⟩

theorem Talk.trans {a b c : Dev} (h : Talk a b) (h' : Talk b c) : Talk a c := by
  obtain ⟨l, hl⟩ := h.outs
  obtain ⟨l', hl'⟩ := h'.outs
  refine ⟨?_, fun k hk => (h'.regs k hk).trans (h.regs k hk), l ++ l', by rw [hl', hl, List.append_assoc]⟩
  have e := h'.rest
  rw [h.rest] at e
  exact e

theorem Talk.when {c : Bool} {f : Dev → Dev} (hf : ∀ d, Talk d (f d)) (d : Dev) : Talk d (when c f d) := by
  cases c
  · exact Talk.refl d
  · exact hf d

theorem Talk.each {β : Type} {f : β → Dev → Dev} (hf : ∀ a d, Talk d (f a d)) (l : List β) (d : Dev) :
    Talk d (each l f d) := by
  induction l generalizing d with
  | nil => exact Talk.refl d
  | cons a r ih => exact (hf a d).trans (ih _)

theorem talk_emit (o : Output) (d : Dev) : Talk d (emit o d) := ⟨rfl, fun _ _ => rfl, [o], rfl⟩
theorem talk_updFn (f : Nat) (g : Fn → Fn) (d : Dev) : Talk d (updFn f g d) := ⟨rfl, fun _ _ => rfl, [], by simp⟩
theorem talk_updRing (r : Ring) (g : CmdRing → CmdRing) (d : Dev) : Talk d (updRing r g d) :=
  ⟨rfl, fun _ _ => rfl, [], by simp⟩
theorem talk_setReg (k : Nat) (v : Word) (d : Dev) (h : tally k = true) : Talk d (setReg k v d) := by
  refine ⟨rfl, fun n hn => ?_, [], by simp⟩
  rw [reg_setReg, if_neg]
  rintro rfl
  simp [h] at hn
theorem talk_count (k : Nat) (d : Dev) (h : tally k = true) : Talk d (count k d) := talk_setReg k _ d h
theorem talk_mev (r : EvRing) (d : Dev) : Talk d { d with mev := r } := ⟨rfl, fun _ _ => rfl, [], by simp⟩
theorem talk_ic (m : Map Source) (d : Dev) : Talk d { d with ic := m } := ⟨rfl, fun _ _ => rfl, [], by simp⟩

theorem tally_fn (f o : Nat) (h : o < 0x8000) : tally (aFn f o) = true := by
  unfold tally aFn aHl
  simp only [Bool.or_eq_true, beq_iff_eq, Bool.and_eq_true, decide_eq_true_eq]
  omega

theorem talk_newTag (f : Nat) (p : Purpose) (x : Option Nat) (d : Dev) : Talk d (newTag f p x d) := talk_updFn _ _ _
theorem talk_noteSent (f tag a n : Nat) (d : Dev) : Talk d (noteSent f tag a n d) := talk_updFn _ _ _
theorem talk_atcUse (f : Nat) (e : AtcEntry) (d : Dev) : Talk d (atcUse f e d) := talk_updFn _ _ _
theorem talk_fnCount (f o : Nat) (d : Dev) (h : o < 0x8000) : Talk d (count (aFn f o) d) := talk_count _ _ (tally_fn f o h)

/-! ### Requests to a host -/

theorem talk_sent (f : Nat) (r : XReq) (o : Output) (d : Dev) : Talk d (sent f r o d) := by
  unfold sent
  split
  · exact (talk_noteSent _ _ _ _ _).trans (talk_emit _ _)
  · exact talk_emit _ _

theorem talk_refuse (f : Nat) (r : XReq) (st : Nat) (d : Dev) : Talk d (refuse f r st d) := by
  have hc := talk_fnCount f 0x18 d (by omega)
  unfold refuse
  split
  · split
    · exact Talk.refl d
    · exact hc.trans (talk_updFn _ _ _)
  · exact hc.trans (Talk.when (talk_updFn _ _) _)

theorem talk_holdReq (f : Nat) (r : XReq) (d : Dev) : Talk d (holdReq f r d) := talk_updFn _ _ _
theorem talk_msixPend (f v : Nat) (d : Dev) : Talk d (msixPend f v d) := talk_updFn _ _ _

theorem talk_askAts (f : Nat) (r : XReq) (p : Option Nat) (a : Nat) (d : Dev) : Talk d (askAts f r p a d) :=
  (talk_fnCount f 0x20 d (by omega)).trans ((talk_newTag _ _ _ _).trans ((talk_noteSent _ _ _ _ _).trans
    ((talk_emit _ _).trans (talk_holdReq _ _ _))))

theorem talk_leaveNow (f : Nat) (r : XReq) (d : Dev) : Talk d (leaveNow f r d) := by
  unfold leaveNow
  simp only
  split
  · exact talk_sent _ _ _ _
  · rename_i w _ _
    split
    · rename_i e _
      by_cases h : (if w = true then e.wr else e.rd) = true
      · rw [if_pos h]; exact (talk_atcUse _ _ _).trans (talk_sent _ _ _ _)
      · rw [if_neg h]; exact (talk_atcUse _ _ _).trans (talk_refuse _ _ _ _)
    · exact talk_askAts _ _ _ _ _

theorem talk_leave (f : Nat) (r : XReq) (d : Dev) : Talk d (leave f r d) := by
  unfold leave
  simp only
  split
  · repeat' split
    exacts [talk_msixPend _ _ _, talk_holdReq _ _ _, talk_emit _ _, talk_msixPend _ _ _]
  · repeat' split
    exacts [Talk.refl d, talk_holdReq _ _ _, talk_leaveNow _ _ _]

theorem talk_issue (f : Nat) (r : XReq) (d : Dev) : Talk d (issue f r d) := talk_leave f r d
theorem talk_dataDone (f : Nat) (l : List Nat) (d : Dev) : Talk d (dataDone f l d) := talk_updFn _ _ _
theorem talk_pump (f : Nat) (d : Dev) : Talk d (pump f d) :=
  (talk_updFn _ _ _).trans ((Talk.each (fun _ _ => talk_leave _ _ _) _ _).trans (talk_dataDone _ _ _))

theorem talk_hostWriteAs (x : XFor) (f : Nat) (p : Option Nat) (a : Nat) (b : List Byte) (ro ep : Bool) (d : Dev) :
    Talk d (hostWriteAs x f p a b ro ep d) := Talk.each (fun _ _ => talk_issue _ _ _) _ _
theorem talk_hostWrite (f : Nat) (p : Option Nat) (a : Nat) (b : List Byte) (ro ep : Bool) (d : Dev) :
    Talk d (hostWrite f p a b ro ep d) := talk_hostWriteAs _ _ _ _ _ _ _ _
theorem talk_hostRead (f : Nat) (p : Option Nat) (a n t : Nat) (d : Dev) : Talk d (hostRead f p a n t d) :=
  Talk.each (fun _ _ => talk_issue _ _ _) _ _

theorem talk_mgrWrite (a : Nat) (b : List Byte) (d : Dev) : Talk d (mgrWrite a b d) := Talk.when (talk_emit _) d

/-! ### Interrupts, event rings, replies -/

theorem talk_msixRaiseFor (w : Option Nat) (f v : Nat) (d : Dev) : Talk d (msixRaiseFor w f v d) := by
  unfold msixRaiseFor
  repeat' split
  · exact Talk.refl d
  · exact talk_issue _ _ _
  · exact talk_msixPend _ _ _
theorem talk_msixRaise (f v : Nat) (d : Dev) : Talk d (msixRaise f v d) := talk_msixRaiseFor _ _ _ _

theorem talk_ownerVector (o : Owner) (v : Nat) (d : Dev) : Talk d (ownerVector o v d) := by
  unfold ownerVector
  repeat' split
  · exact talk_msixRaise _ _ _
  · exact talk_msixRaiseFor _ _ _ _
  · exact Talk.refl d
  · exact Talk.refl d

theorem talk_ringWrites (w : Nat → List Byte → Dev → Dev) (hw : ∀ a b d, Talk d (w a b d)) (base n p z : Nat)
    (b : List Byte) (i : Nat) (d : Dev) : Talk d (ringWrites w base n p z b i d) :=
  (hw _ _ _).trans (hw _ _ _)

theorem talk_sourceLevel (n : Nat) (lv : Bool) (d : Dev) : Talk d (sourceLevel n lv d) := talk_ic _ _
theorem talk_sourcePulse (n : Nat) (d : Dev) : Talk d (sourcePulse n d) :=
  (talk_sourceLevel _ _ _).trans (talk_sourceLevel _ _ _)

theorem talk_mevPut (b : List Byte) (d : Dev) : Talk d (mevPut b d) := by
  have h := (talk_ringWrites mgrWrite talk_mgrWrite d.mev.base d.mev.n d.mev.wpos 32 b 31 d).trans (talk_mev d.mev.step _)
  unfold mevPut
  simp only
  split
  · exact h.trans (talk_msixRaise _ _ _)
  · exact h

theorem talk_mevLostFirst (d : Dev) : Talk d (mevLostFirst d) := by
  unfold mevLostFirst
  split
  · exact (talk_mevPut _ _).trans (talk_mev _ _)
  · exact Talk.refl d

theorem talk_raiseEntry (c a0 a1 a2 : Nat) (d : Dev) : Talk d (raiseEntry c a0 a1 a2 d) := by
  unfold raiseEntry
  split
  · exact Talk.refl d
  · simp only
    refine (talk_mevLostFirst d).trans ?_
    split
    · exact talk_mevPut _ _
    · exact (talk_count _ _ rfl).trans (talk_mev _ _)

theorem talk_raise (c a0 a1 a2 : Nat) (d : Dev) : Talk d (raise c a0 a1 a2 d) := by
  have h := talk_raiseEntry c a0 a1 a2 d
  unfold raise
  cases eventSource c with
  | some n => exact h.trans (talk_sourcePulse _ _)
  | none => exact h

theorem talk_feqPut (f : Nat) (b : List Byte) (d : Dev) : Talk d (feqPut f b d) := by
  unfold feqPut
  exact (talk_ringWrites _ (fun _ _ _ => talk_hostWrite _ _ _ _ _ _ _) _ _ _ _ _ _ _).trans
    ((talk_updFn _ _ _).trans (talk_msixRaise _ _ _))

theorem talk_feqLostFirst (f : Nat) (d : Dev) : Talk d (feqLostFirst f d) := by
  unfold feqLostFirst
  simp only
  split
  · exact (talk_feqPut _ _ _).trans (talk_updFn _ _ _)
  · exact Talk.refl d

theorem talk_fnEvent (f c a b e : Nat) (d : Dev) : Talk d (fnEvent f c a b e d) := by
  unfold fnEvent
  simp only
  refine (talk_feqLostFirst f d).trans ?_
  split
  · exact talk_feqPut _ _ _
  · exact (talk_count _ _ (tally_fn _ _ (by omega))).trans (talk_updFn _ _ _)

theorem talk_ringWriteAs (x : XFor) (r : Ring) (a : Nat) (b : List Byte) (d : Dev) : Talk d (ringWriteAs x r a b d) := by
  unfold ringWriteAs
  split
  · exact talk_mgrWrite _ _ _
  · exact talk_hostWriteAs _ _ _ _ _ _ _ _
  · exact talk_hostWriteAs _ _ _ _ _ _ _ _

theorem talk_ringInterrupt (r : Ring) (d : Dev) : Talk d (ringInterrupt r d) := by
  unfold ringInterrupt
  split
  · simp only
    split
    · exact Talk.refl d
    · exact (talk_updRing _ _ _).trans (talk_raise _ _ _ _ _)
  · exact talk_msixRaise _ _ _
  · exact talk_ownerVector _ _ _

theorem talk_replyOut (r : Ring) (p : Reply) (d : Dev) : Talk d (replyOut r p d) := by
  unfold replyOut
  exact (talk_ringWrites _ (talk_ringWriteAs _ r) _ _ _ _ _ _ _).trans ((talk_dataDone _ _ _).trans
    ((talk_updRing _ _ _).trans (Talk.when (talk_ringInterrupt r) _)))

theorem talk_begin (r : Ring) (d : Dev) : Talk d (begin' r d) := talk_updRing _ _ _

/-- The end of a command, once its meter has counted: a reply, or one that is held. -/
theorem talk_answer (r : Ring) (p : Reply) (hold : Bool) (d : Dev) :
    Talk d (if ((updRing r (fun x => { x with exec := none }) d).ringMay r && hold) = true then
        replyOut r p (updRing r (fun x => { x with exec := none }) d)
      else updRing r (fun x => { x with held := x.held ++ [p] }) (updRing r (fun x => { x with exec := none }) d)) := by
  split
  · exact (talk_updRing _ _ _).trans (talk_replyOut _ _ _)
  · exact (talk_updRing _ _ _).trans (talk_updRing _ _ _)

/-- A reply speaks, and counts in the COMMANDS meter of the slice that the header names (R56, R155). -/
theorem talk_reply (r : Ring) (st det : Nat) (ws : List Nat) (d : Dev) :
    ∃ d1 d2, Talk d d1 ∧ (d2 = d1 ∨ ∃ s, d2 = meter s 15 1 d1) ∧ Talk d2 (reply r st det ws d) := by
  unfold reply
  simp only
  split
  · exact ⟨d, d, Talk.refl d, .inl rfl, Talk.refl d⟩
  · rename_i e _
    refine ⟨_, _, Talk.when (c := e.internal) (talk_raise 0x15 e.opcode (2 ^ 30 * ringKind r + ringNumber r) e.tag) d, ?_,
      talk_answer _ _ _ _⟩
    split
    · exact .inl rfl
    · exact .inr ⟨_, rfl⟩

/-! ### What follows for what does not speak -/

/-- Whatever depends on no field that speaking changes is what it was. -/
theorem Talk.keep {β : Type} {d d' : Dev} (h : Talk d d') (g : Dev → β)
    (hg : ∀ (x : Dev) o f r m i c, g { x with out := o, fns := f, regs := r, mev := m, ic := i, rings := c } = g x) :
    g d' = g d := by
  rw [h.rest, hg]

end Sys2Proof.Laws
end

