-- ==== Sys2Proof/Laws/Memory.lean ====
section
/-!
SUPPORT. Every operation over the memories of R420 and over the flash keeps the canonical form; and the first laws of
a store: what is stored is what the raw word reads as, and every other byte stays.
-/
namespace Sys2Proof.Laws
open Sys2Proof Sys2Proof.Machine

theorem wf_iff (x : Byte) (c : List Host.Cell) :
    Memory.wf x c = true ↔ Map.rising c = true ∧ ∀ e ∈ c, e.2 ≠ x := by
  simp [Memory.wf, List.all_eq_true]

theorem wf_filter (x : Byte) (c : List Host.Cell) (p : Host.Cell → Bool) (h : Memory.wf x c = true) :
    Memory.wf x (c.filter p) = true := by
  rw [wf_iff] at h ⊢
  exact ⟨rising_filter c p h.1, fun e he => h.2 e (List.mem_filter.1 he).1⟩

theorem wf_mset (x : Byte) (c : List Host.Cell) (k : Nat) (b : Byte) (h : Memory.wf x c = true) :
    Memory.wf x (mset x c k b) = true := by
  by_cases hb : b = x
  · simp only [mset, hb, if_true]
    rw [mdel_eq_filter]
    exact wf_filter x c _ h
  · rw [wf_iff] at h ⊢
    refine ⟨rising_mset x c k b h.1, fun e he => ?_⟩
    simp only [mset, hb, if_false] at he
    rcases mem_mput c k b e he with rfl | he
    · exact hb
    · exact h.2 e he

theorem wf_foldl {β : Type} (x : Byte) (f : List Host.Cell → β → List Host.Cell)
    (hf : ∀ c b, Memory.wf x c = true → Memory.wf x (f c b) = true) (l : List β) (c : List Host.Cell)
    (h : Memory.wf x c = true) : Memory.wf x (l.foldl f c) = true := by
  induction l generalizing c with
  | nil => exact h
  | cons a r ih => exact ih _ (hf _ _ h)

/-! ### The memories of R420 -/

/-- Both parts of the memories, data and check bits, are in canonical form. -/
def MemOk (d : Dev) : Prop := Memory.wf 0 d.mem = true ∧ Memory.wf 0 d.chk = true

theorem MemOk.of_eq {d d' : Dev} (h : MemOk d) (m : d'.mem = d.mem) (c : d'.chk = d.chk) : MemOk d' := by
  unfold MemOk; rw [m, c]; exact h

theorem MemOk.talk {d d' : Dev} (h : MemOk d) (t : Talk d d') : MemOk d' :=
  h.of_eq (by rw [t.rest]) (by rw [t.rest])

theorem memOk_reset : MemOk State.reset.dev := ⟨by decide, by decide⟩

theorem memOk_storeRaw (m o v c : Nat) (d : Dev) (h : MemOk d) : MemOk (storeRaw m o v c d) :=
  ⟨wf_foldl 0 _ (fun _ _ hc => wf_mset 0 _ _ _ hc) _ _ h.1, wf_mset 0 _ _ _ h.2⟩

theorem memOk_memEvent (i m : Nat) (d : Dev) (h : MemOk d) : MemOk (memEvent i m d) := by
  unfold memEvent
  split
  · exact h
  · exact ((h.of_eq (d' := setFlag 0xE001000 i true d) rfl rfl).talk (talk_raise _ _ _ _ _)).talk (talk_sourcePulse _ _)

theorem memOk_eccReport (m o : Nat) (r : EccRead) (d : Dev) (h : MemOk d) : MemOk (eccReport m o r d) := by
  unfold eccReport
  split
  · simp only [when]
    split
    · exact memOk_memEvent _ _ _ (h.of_eq rfl rfl)
    · exact h.of_eq rfl rfl
  · split
    · simp only
      split
      · exact memOk_memEvent _ _ _ (h.of_eq rfl rfl)
      · exact h.of_eq rfl rfl
    · split
      · exact h.of_eq rfl rfl
      · exact h

theorem memOk_eccRewrite (m o c : Nat) (r : EccRead) (d : Dev) (h : MemOk d) : MemOk (eccRewrite m o c r d) := by
  unfold eccRewrite
  repeat' split
  · exact memOk_storeRaw _ _ _ _ _ h
  · exact memOk_storeRaw _ _ _ _ _ h
  · exact h

theorem memOk_readWord (m o : Nat) (d : Dev) (h : MemOk d) : MemOk (readWord m o d).2 :=
  memOk_eccRewrite _ _ _ _ _ (memOk_eccReport _ _ _ _ h)

theorem memOk_readWords (m n w : Nat) (d : Dev) (h : MemOk d) : MemOk (readWords m n w d).2.2 := by
  induction n generalizing w d with
  | zero => exact h
  | succ n ih => exact ih _ _ (memOk_readWord _ _ _ h)

theorem memOk_readMem (m o n : Nat) (d : Dev) (h : MemOk d) : MemOk (readMem m o n d).2.2 := memOk_readWords _ _ _ _ h
theorem memOk_readHbm (a n : Nat) (d : Dev) (h : MemOk d) : MemOk (readHbm a n d).2.2 := memOk_readMem _ _ _ _ h
theorem memOk_readCtx (c : Nat) (d : Dev) (h : MemOk d) : MemOk (readCtx c d).2.2 := memOk_readMem _ _ _ _ h

theorem memOk_storeWord (m o v : Nat) (p f : Bool) (d : Dev) (h : MemOk d) : MemOk (storeWord m o v p f d) := by
  unfold storeWord
  simp only
  split
  · exact memOk_memEvent _ _ _ ((memOk_storeRaw _ _ _ _ _ h).of_eq rfl rfl)
  · exact memOk_storeRaw _ _ _ _ _ h

theorem memOk_mergeWord (m o : Nat) (b : List Byte) (p f : Bool) (d : Dev) (h : MemOk d) : MemOk (mergeWord m o b p f d) := by
  unfold mergeWord
  split
  · exact h
  · exact memOk_storeWord _ _ _ _ _ _ (memOk_readWord _ _ _ h)

theorem memOk_writeWords (m : Nat) (p : Bool) (n : Nat) : ∀ (w : Nat) (f : Bool) (b : List Byte) (d : Dev), b.length ≤ n →
    MemOk d → MemOk (writeWords m w p f b d) := by
  induction n using Nat.strongRecOn with
  | _ n ih =>
    intro w f b d hl h
    unfold writeWords
    split
    · rename_i r
      have hr : r.length + 8 ≤ n := by simp at hl; omega
      exact ih r.length (by omega) _ _ _ _ (le_refl _) (memOk_storeWord _ _ _ _ _ _ h)
    · exact memOk_mergeWord _ _ _ _ _ _ h

theorem memOk_writeMem (m o : Nat) (b : List Byte) (p : Bool) (d : Dev) (h : MemOk d) : MemOk (writeMem m o b p d) := by
  unfold writeMem
  simp only
  split
  · exact memOk_writeWords _ _ _ _ _ _ _ (le_refl _) h
  · exact memOk_writeWords _ _ _ _ _ _ _ (le_refl _) (memOk_mergeWord _ _ _ _ _ _ h)

theorem memOk_writeHbm (a : Nat) (b : List Byte) (p : Bool) (d : Dev) (h : MemOk d) : MemOk (writeHbm a b p d) :=
  memOk_writeMem _ _ _ _ _ h
theorem memOk_writeCtx (c : Nat) (b : List Byte) (d : Dev) (h : MemOk d) : MemOk (writeCtx c b d) := memOk_writeMem _ _ _ _ _ h

theorem memOk_clearMem (m o n : Nat) (d : Dev) (h : MemOk d) : MemOk (clearMem m o n d) :=
  ⟨wf_filter 0 _ _ h.1, wf_filter 0 _ _ h.2⟩
theorem memOk_clearCtx (c : Nat) (d : Dev) (h : MemOk d) : MemOk (clearCtx c d) :=
  (memOk_clearMem _ _ _ _ h).of_eq rfl rfl

/-! ### Reading what was stored -/

theorem cellAt_mset (c : List Host.Cell) (k n : Nat) (b : Byte) :
    cellAt (mset 0 c k b) n = if n = k then b else cellAt c n := mget_mset 0 c k n b

/-- A store leaves every byte outside its word, and every other word's check bits. -/
theorem storeRaw_other (m o v c k : Nat) (d : Dev) (h : ∀ i < 8, k ≠ memKey m (o / 8 * 8 + i)) :
    cellAt (storeRaw m o v c d).mem k = cellAt d.mem k := by
  have step : ∀ (l : List (Byte × Nat)) (x : List Host.Cell), (∀ e ∈ l, e.2 < 8) →
      cellAt (l.foldl (fun a e => mset 0 a (memKey m (o / 8 * 8 + e.2)) e.1) x) k = cellAt x k := by
    intro l
    induction l with
    | nil => intros; rfl
    | cons a r ih =>
      intro x hx
      rw [List.foldl_cons, ih _ (fun e he => hx e (List.mem_cons_of_mem _ he)), cellAt_mset,
        if_neg (h _ (hx a List.mem_cons_self))]
  refine step _ _ fun e he => ?_
  have := List.snd_lt_add_of_mem_zipIdx he
  simpa [leBytes] using this

/-! ### The flash -/

theorem nvWf_flashProgram (o : Nat) (b : List Byte) (nv : Nv) (h : Nv.wf nv = true) : Nv.wf (flashProgram o b nv) = true :=
  wf_foldl 0xFF _ (fun _ _ hc => wf_mset 0xFF _ _ _ hc) _ _ h
theorem nvWf_flashErase (o n : Nat) (nv : Nv) (h : Nv.wf nv = true) : Nv.wf (flashErase o n nv) = true :=
  wf_filter 0xFF _ _ h
theorem nvWf_flashStore (o : Nat) (b : List Byte) (nv : Nv) (h : Nv.wf nv = true) : Nv.wf (flashStore o b nv) = true :=
  wf_foldl 0xFF _ (fun _ _ hc => wf_mset 0xFF _ _ _ hc) _ _ h

end Sys2Proof.Laws
end

