-- ==== Sys2Proof/WellFormed.lean ====
section
/-!
DEFINITION. Which commands can be sent at all: the bounds on operands that their types do not already give.
Indices of links, ports, cores, slices and the like are `Fin`, so nothing is left to check for them.
-/
namespace Sys2Proof

/-- Parameter bytes of a command: "0-4,064" (R152), or the 4 KiB and more that a read may bring is not one. -/
def Read.fits (n : Nat) (r : Read) : Bool := r.bytes.length ≤ n

/-- A write is no longer than Max_Payload_Size Supported, 512 bytes (R33, R82, R87); an access is not empty, and no
request of PCI Express crosses a 4 KiB boundary. -/
def Access.wf : Access → Bool
  | .read off len be => 1 ≤ len && off % 4096 + len ≤ 4096 && be.length ≤ len
  | .write off d be _ => 1 ≤ d.length && d.length ≤ 512 && off % 4096 + d.length ≤ 4096 && be.length ≤ d.length

def HostReq.wf : HostReq → Bool
  | .bar0 a => a.wf
  | .bar2 a => a.wf
  | .bar4 a => a.wf
  | .unsupported => true
  | .translated _ => true
  | .message => true
  | .vendorType1 => true
  | .malformed => true

/-- A queue number of an owner: a slice has at most 8,192 queues (R43), a function 4,096 (R110). -/
def Owner.queueOk (o : Owner) (q : Nat) : Bool :=
  match o with
  | .function _ => q < 4096
  | .slice _ => q < 8192

/-- A completion ring number of an owner (R109). -/
def Owner.cqOk (o : Owner) (c : Nat) : Bool :=
  match o with
  | .function _ => c < 2048
  | .slice _ => c < 4096

/-- A PASID is a 20-bit value (R41). -/
def pasidOk : Option Nat → Bool
  | none => true
  | some p => p < 1048576

/-- Core pairs are those of cores 4-15 (R141). -/
def Pair.wf : Pair → Bool
  | .core c => 4 ≤ c.val
  | _ => true

/-- The offsets that a requester's access may name: a host's in its function's BAR0; the manager's in BAR0, and from 2^28
on in BAR4 (R34, 8 KiB); a core's in the register space, and from 2^32 on a core-local address (R388), there aligned to its
own width; a stitch channel's in the register space. -/
def spaceOk (q : Requester) (off len : Nat) : Bool :=
  match q with
  | .host _ => off + len ≤ 67108864 && 1 ≤ len && len ≤ 8
  | .manager => off + len ≤ 268443648 && 1 ≤ len && len ≤ 8
  | .core _ => (len == 1 || len == 2 || len == 4 || len == 8) &&
      (off + len ≤ 268435456 || (4294967296 ≤ off && off + len ≤ 8589934592 && off % len == 0))
  | .stitch _ _ => off + len ≤ 268435456 && 1 ≤ len && len ≤ 8

/-- The checks on each command's operands; a command with none to check is well formed. -/
def Instr.wf (i : Instr) : Bool :=
  match i with
  | .commandFetch _ h => h.fits 32
  | .queueStopAbort o q => o.queueOk q
  | .sqDbWrite o q _ => o.queueOk q
  | .cqHeadWrite o c _ => o.cqOk c
  | .descriptorFetchDone o q d => o.queueOk q && d.length % 32 == 0
  | .txJob o q _ => o.queueOk q
  | .moderationTimer o c => o.cqOk c
  | .rxPlacement _ d => d.bytes.length % 32 == 0 && d.bytes.length ≤ 2048
  | .configRequest _ _ off _ _ => off < 4096 && off % 4 == 0
  | .barRequest _ a => a.wf
  | .atsInvalidation _ t p _ _ => t < 32 && pasidOk p
  | .atsInvalidationDone _ t => t < 32
  | .mbDbSet x _ => x.pair.wf
  | .mbClaim x _ => x.pair.wf
  | .mbRxAck x _ _ => x.pair.wf
  | .mbSideReset x _ => x.pair.wf
  | .mbMaskWrite x _ _ => x.pair.wf
  | .arenaPageWrite x _ off d _ => x.pair.wf && off + d.length ≤ 4096
  | .lineFrameReceive _ _ fr _ => 1 ≤ fr.length
  | .pipelinePass _ bad => bad.all (· < 8)
  | .contextCacheFill d c => c < 16777216 && c % 4 == d.val
  | .policerRefill p => p < 262144
  | .tmDequeue p => p.val < 172
  | .xferSegmentStart o q => o.queueOk q
  | .xferSegmentEnd o q _ _ => o.queueOk q
  | .placementTableReadDone c _ _ => c < 16777216
  | .lockRead rs _ cyc => 1 ≤ rs.length && cyc < 19
  | .spareCommit _ _ bad => bad.all (· < 16)
  | .startupStepDone _ sp => sp.length ≤ 8
  | .managerFunctionConfigWrite off _ => off < 4096 && off % 4 == 0
  | .bar2Access a => a.wf
  | .thermalRelease ts => ts.length == 8
  | .registerWrite q a _ => spaceOk q a.off a.len
  | .rcRegisterRead q a => spaceOk q a.off a.len
  | _ => true

end Sys2Proof
end

