-- ==== Sys2Proof/Tests/Slice0.lean ====
section
/-!
SUPPORT. Tests of the model. First the checks of WellFormed.lean, each with a term that it refuses; then small tests of
single commands against values taken from the manual; then, for each statement of Obligations.lean that has hypotheses,
one theorem that shows, clause by clause, a state and operands that meet them.
-/
namespace Sys2Proof.Tests
-- One theorem at a time: the whole file then stays within the memory that a build has.
set_option Elab.async false
open Sys2Proof Sys2Proof.Machine

/-! ### A small adapter that runs -/

/-- n bytes of 0 with values laid over them, each as (offset, length, value), little-endian. -/
def bs (n : Nat) (l : List (Nat × Nat × Nat)) : List Byte :=
  l.foldl (fun b x => putLe b x.1 x.2.1 x.2.2) (List.replicate n 0)

/-- A command of an opcode, for a slice, with PLEN parameter bytes. -/
def ex (op slice plen : Nat) : Exec := { opcode := op, flags := 0, tag := 1, slice := slice, plen := plen }

/-- Slice 5: local index 2 of function 3, with some of every pool. -/
def sl : Slice :=
  { state := .active, fn := 3, pasid := 7, lidx := 2, weight := 1, qBase := 0, qLen := 8, cBase := 0, cLen := 64
    pBase := 0, pLen := 16, subNodes := 4, eyelets := 4, vecBase := 0, vecCount := 4, caps := List.replicate 64 100 }

def txQ : Queue := { kind := .tx, log2 := 6, base := 0x1000, cq := 0 }
def rxQ : Queue := { kind := .rx, log2 := 6, base := 0x3000, cq := 0 }
def xfQ : Queue := { kind := .xfer, log2 := 6, base := 0x5000, cq := 0 }
def ring0 : CmdRing := { enable := true }

/-- The adapter after start-up: the engine available, link 3 up with function 3 enabled, the manager function enabled,
slice 5 with a transmit, a receive and a transfer queue on one completion ring. -/
def up : Dev :=
  { regs := [(0x14, 0x80000008), (0x1030004, 0x00400800), (0xD801004, 1)]
    fns := [(3, { mse := true, bme := true, pasidEn := true, qBase := 8, qLen := 8 }), (32, { mse := true, bme := true })]
    slices := [(5, sl)]
    queues := [(qKey (.slice 5) 0, txQ), (qKey (.slice 5) 1, rxQ), (qKey (.slice 5) 2, xfQ)]
    cqs := [(qKey (.slice 5) 0, { base := 0x9000, log2 := 6 })]
    rings := [(0, ring0), (4, ring0), (69, ring0)] }

/-- That adapter, with nothing waiting and fuses and flash empty. -/
def on' (d : Dev) : State := { dev := d }
def upS : State := on' up
def setRegs (l : List (Nat × Word)) (d : Dev) : Dev := each l (fun x => setReg x.1 x.2) d
/-- A ring that executes a command. -/
def run (r : Ring) (e : Exec) (d : Dev := up) : State := on' (updRing r (fun x => { x with exec := some e }) d)
def fnWith (g : Fn → Fn) (d : Dev := up) : Dev := updFn 3 g d
def slWith (g : Slice → Slice) (d : Dev := up) : Dev := updSlice 5 g d
def qWith (q : Nat) (g : Queue → Queue) (d : Dev := up) : Dev := updQueue (.slice 5) q g d

/-- A packet for queue 1 of slice 5. -/
def pkt0 : Packet := { id := 0, loc := .hostOut 3, bytes := List.replicate 60 1, ingress := 0, dest := .slice 5, steer := some 1 }

/-! ### Well-formedness: each check refuses a term -/

theorem wf_polsum : (Instr.commandFetch .manager (.ok (bs 33 []))).wf = false := by decide +kernel
theorem wf_queues :
    (Instr.queueStopAbort (.function 3) 4096).wf = false ∧ (Instr.sqDbWrite (.slice 5) 8192 0).wf = false ∧
    (Instr.cqHeadWrite (.slice 5) 4096 0).wf = false ∧ (Instr.cqHeadWrite (.function 3) 2048 0).wf = false ∧
    (Instr.moderationTimer (.function 3) 2048).wf = false ∧ (Instr.txJob (.function 3) 4096 .timeout).wf = false ∧
    (Instr.descriptorFetchDone (.slice 5) 0 (bs 31 [])).wf = false ∧ (Instr.descriptorFetchDone (.slice 5) 8192 []).wf = false ∧
    (Instr.xferSegmentStart (.function 3) 4096).wf = false ∧ (Instr.xferSegmentEnd (.slice 5) 8192 0 (.failed true true)).wf = false ∧
    (Instr.rxPlacement 0 (.ok (bs 31 []))).wf = false ∧ (Instr.rxPlacement 0 (.ok (bs 2080 []))).wf = false := by
  decide +kernel
theorem wf_host :
    (Instr.configRequest 3 false 4096 0 0).wf = false ∧ (Instr.configRequest 3 false 6 0 0).wf = false ∧
    (Instr.barRequest 3 (.bar0 (.read 0 0 []))).wf = false ∧ (Instr.barRequest 3 (.bar2 (.read 0 4097 []))).wf = false ∧
    (Instr.barRequest 3 (.bar4 (.write 0 [] [] false))).wf = false ∧
    (Instr.bar2Access (.write 0 (bs 513 []) [] false)).wf = false ∧ (Instr.bar2Access (.write 0 [0] [true, true] false)).wf = false ∧
    (Instr.managerFunctionConfigWrite 4096 0).wf = false ∧ (Instr.managerFunctionConfigWrite 2 0).wf = false ∧
    (Instr.atsInvalidation 3 32 none 0 0).wf = false ∧ (Instr.atsInvalidation 3 0 (some 1048576) 0 0).wf = false ∧
    (Instr.atsInvalidationDone 3 32).wf = false := by decide +kernel
theorem wf_mailboxes :
    let x : Side := ⟨.core 3, false⟩
    (Instr.mbDbSet x 0).wf = false ∧ (Instr.mbClaim x 0).wf = false ∧ (Instr.mbRxAck x 0 0).wf = false ∧
    (Instr.mbSideReset x 0).wf = false ∧ (Instr.mbMaskWrite x true 0).wf = false ∧ (Instr.arenaPageWrite x true 0 [] false).wf = false ∧
    (Instr.arenaPageWrite ⟨.core 4, false⟩ true 4095 [0, 0] false).wf = false := by decide +kernel
theorem wf_packets :
    (Instr.lineFrameReceive 0 0 [] false).wf = false ∧ (Instr.pipelinePass 0 [8]).wf = false ∧
    (Instr.contextCacheFill 0 16777216).wf = false ∧ (Instr.contextCacheFill 0 5).wf = false ∧
    (Instr.policerRefill 262144).wf = false ∧ (Instr.placementTableReadDone 16777216 .timeout .timeout).wf = false := by
  decide +kernel
theorem wf_manager :
    (Instr.lockRead [] 0 0).wf = false ∧ (Instr.lockRead [.manager] 0 19).wf = false ∧
    (Instr.spareCommit .manager .timeout [16]).wf = false ∧ (Instr.startupStepDone none (List.replicate 9 0)).wf = false ∧
    (Instr.thermalRelease []).wf = false ∧ (Instr.registerWrite (.host 3) ⟨67108864, 4⟩ 0).wf = false ∧
    (Instr.registerWrite .manager ⟨268443648, 4⟩ 0).wf = false ∧ (Instr.rcRegisterRead (.host 3) ⟨67108864, 4⟩).wf = false ∧
    (Instr.rcRegisterRead (.core 4) ⟨4294967298, 4⟩).wf = false := by decide +kernel

/-! ### Single commands and computations against values taken from outside the model -/

/-- The state after a command, none where it does not answer a next state. -/
def after (c : Instr) (s : State) : Option State := match exec c s with
  | .next t => some t
  | _ => none

/-- 00_scope.md, the example of R9: the low half read latches the high half. -/
theorem test_time_halves :
    let s := on' { up with time := 0x1FFFFFFFF }
    ((after (.reg64LowRead .manager 0x100000) s).bind fun t =>
      (after (.rcRegisterRead .manager ⟨0x100004, 4⟩) { t with dev := { t.dev with time := 0x200000005 } }).map fun u => u.dev.out)
      = some [.value .manager 0x100000 0xFFFFFFFF, .value .manager 0x100004 1] := by decide +kernel
/-- 05_queues.md, the example of R112. -/
theorem test_ring_positions :
    tailValid 64 10 10 0x0001000A = some 74 ∧ ringCount 64 10 74 = 64 ∧ tailValid 64 10 74 0x0000000B = none ∧
    ringCount 64 74 74 = 0 := by decide +kernel
/-- 07_polsum_commands.md, the example of R157: slots of a command, and the tail behind two of them. -/
theorem test_command_slots :
    slotsOf 280 = 10 ∧ slotsOf 1 = 2 ∧ tailValid 128 120 120 0x00010004 = some 132 ∧ posWord 128 132 = 0x00010004 := by
  decide +kernel
/-- 12_tunnels_crypto.md, the example of R286. -/
theorem test_encap_port : encapPort (bs 144 [(6, 2, 0xC000), (8, 2, 0x3FFF)]) 0x9A3C51E7 = 0xCBDB := by decide +kernel
/-- 12_tunnels_crypto.md, the example of R299: arrivals 1 to 4. -/
theorem test_sequence_inference :
    inferSeq true 0x1FFFFFF80 0xFFFFFC00 = 0x1FFFFFC00 ∧ inferSeq true 0x1FFFFFF80 0x10 = 0x200000010 ∧
    inferSeq true 0x200000010 5 = 0x200000005 ∧ inferSeq true 0x200000010 0xFFFFFC00 = 0x2FFFFFC00 := by decide +kernel
theorem test_replay_window :
    replayed 0x1FFFFFF80 0 0x1FFFFFC00 = false ∧ replayed 0x200000010 0 0x200000005 = false ∧
    replayed 0x200000010 (2 ^ 5) 0x200000005 = true ∧ windowAfter 0x200000000 0 0x200000010 = (2 ^ 16, 0x200000010) := by
  decide +kernel
/-- 17_control_complex.md, the example of R402: position 6 is first, the manager comes before core 5. -/
theorem test_lock_winner :
    ((after (.lockRead [.core 5, .manager] 17 6) upS).map fun t => (t.dev.out, mget none t.dev.locks 17))
      = some ([.value (.core 5) 0xE900044 0xFF, .value .manager 0xE900044 0x80000020], some 32) := by decide +kernel
/-- The same example: core 9's write of a lock that it does not hold. -/
theorem test_lock_error :
    ((after (.lockWrite (.core 9) 17) (on' { up with locks := [(17, some 32)] })).map fun t =>
      (t.dev.reg 0xE900800, t.dev.reg 0xE900804, mget none t.dev.locks 17)) = some (1, 0x911, some 32) := by decide +kernel
/-- 17_control_complex.md, the example of R399: a claim of a withdrawn request. -/
theorem test_claim_withdrawn :
    ((after (.icClaimRead (.core 7) 7)
        (on' (updCore 7 (fun x => { x with claim := some 0x66 })
          { up with ic := [(102, { enable := true, withdraw := true, target := 7 })] }))).map fun t =>
      (t.dev.out, t.dev.reg (aIc 7 0x200))) = some ([.value (.core 7) 0xE807000 0xFFF], 0) := by decide +kernel
/-- 19_memory_integrity.md, the example of R422: the rows of its table. -/
theorem test_ecc :
    eccCheck 3 = 0x0C ∧ eccJudge 3 7 = ⟨1, 0x0B, 1, 1⟩ ∧ eccCheck 1 = 7 ∧ (eccJudge 3 0).outcome = 2 ∧
    (0 ^^^ 0x0C ^^^ 0xA5 : Nat) = 0xA9 ∧ (eccJudge 3 0xA9).outcome = 3 := by decide +kernel
/-- 20_power_reset_startup.md, the example of R441: warning at 703 mV, reset at 666 mV, recovery at 710.4 mV. -/
theorem test_rail_levels :
    let d := setRegs [(aRail 1 + 4, 740)] up
    d.railBelow 1 702 95 = true ∧ d.railBelow 1 703 95 = false ∧ d.railBelow 1 665 90 = true ∧
    d.railBelow 1 666 90 = false ∧ d.railBelow 1 710 96 = true ∧ d.railBelow 1 711 96 = false := by decide +kernel
/-- 06_mailboxes.md, the example of R142: where the manager's set of slice 1,034 lies. -/
theorem test_mailbox_set : sideAt 0xED02800 = some ⟨.slice 1034, true⟩ := by decide +kernel
/-- The published check values of CRC-32 and CRC-32C, over the ASCII digits 1 to 9. -/
theorem test_crcs :
    crc32 [0x31, 0x32, 0x33, 0x34, 0x35, 0x36, 0x37, 0x38, 0x39] = 0xCBF43926 ∧
    crc32c [0x31, 0x32, 0x33, 0x34, 0x35, 0x36, 0x37, 0x38, 0x39] = 0xE3069283 := by decide +kernel
/-- FIPS 197, appendix C.1 and C.3: the AES-128 and AES-256 example vectors. -/
theorem test_aes :
    let key := (List.range 32).map fun i => BitVec.ofNat 8 i
    aesBlock (aesRoundKeys (key.take 16)) 0x00112233445566778899AABBCCDDEEFF = 0x69C4E0D86A7B0430D8CDB78070B4C55A ∧
    aesBlock (aesRoundKeys key) 0x00112233445566778899AABBCCDDEEFF = 0x8EA2B7CA516745BFEAFC49904B496089 := by decide +kernel
/-- The GCM specification's test case 2: one block of zeros under a zero key and nonce. -/
theorem test_gcm :
    gcmSeal (bs 16 []) 0 [] (bs 16 []) =
      (beBytes 16 0x0388DACE60B6A392F328C2B971B2FE78, beBytes 16 0xAB6E47D42CEC13BDF53A67B21257BDDF) := by decide +kernel
/-- An empty queue: one nanosecond passes. -/
theorem test_idle : (match step upS with | .next t => t.dev.time | _ => 0) = 1 := by decide +kernel

/-! ### The hypotheses of the statements can be met -/

theorem wit_StepRunsTheFrontCommand :
    (∃ (s : State) (c : Instr) (l : List Instr), s.pending = c :: l) ∧
    (∃ (s : State), s.pending = []) ∧
    (∃ (d : Dev), d.power.holds = [] ∧ d.updates = []) ∧
    (∃ (d : Dev), d.power.holds ≠ []) ∧
    (∃ (d : Dev), (∀ f < 32, d.closes f = false)) ∧
    (∃ (d : Dev), (∀ e ∈ d.tblRegs, e.2.waiting = none)) ∧
    (∃ (g : Nat) (d : Dev), d.msBusy g = false) :=
  ⟨⟨{ pending := [.coherentUpdateApply] }, .coherentUpdateApply, [], by decide +kernel⟩,
   ⟨State.reset, by decide +kernel⟩,
   ⟨State.reset.dev, by decide +kernel, by decide +kernel⟩,
   ⟨{ power := { holds := [.resetN] } }, by decide +kernel⟩,
   ⟨State.reset.dev, by decide +kernel⟩,
   ⟨State.reset.dev, by decide +kernel⟩,
   ⟨0, State.reset.dev, by decide +kernel⟩⟩

theorem wit_FusesOnlyGrowAndFlashStaysCanonical :
    (∃ (s t : State), step s = .next t ∧ s.nv.wf = true) ∧
    (∃ (s t : State), step s = .next t ∧ s.nv.wf = true ∧ s.nv.fieldLock = true) :=
  ⟨⟨State.reset, _, rfl, by decide +kernel⟩,
   ⟨{ nv := { fieldLock := true } }, _, rfl, by decide +kernel, by decide +kernel⟩⟩

theorem wit_IdentifyReplies :
    (∃ (s : State) (r : Ring) (p : Read) (e : Exec) (b : List Byte), s.runs r 0x0002 p = some (e, b)) ∧
    (∃ (r : Ring) (h : List Byte) (d : Dev), byteAt h 3 = 1 ∧ (execOf h).opcode = 0x0002 ∧ hdrReserved h = none ∧
      d.ringOwns r (execOf h).slice = true) ∧
    (∃ (r : Ring) (h : List Byte) (d : Dev), byteAt h 3 = 1 ∧ (execOf h).opcode = 0x0002 ∧ hdrReserved h = none ∧
      d.ringOwns r (execOf h).slice = true ∧ (execOf h).plen ≠ 0) :=
  ⟨⟨run .manager (ex 2 0xFFFF 0), .manager, .ok [], ex 2 0xFFFF 0, [], by decide +kernel⟩,
   ⟨.slice 5, bs 32 [(0, 2, 2), (3, 1, 1), (8, 2, 5)], up, by decide +kernel, by decide +kernel, by decide +kernel,
      by decide +kernel⟩,
   ⟨.function 3, bs 32 [(0, 2, 2), (3, 1, 1), (8, 2, 0xFFFF), (10, 2, 4)], up, by decide +kernel, by decide +kernel,
      by decide +kernel, by decide +kernel, by decide +kernel⟩⟩

theorem wit_FirmwareQueryReplies :
    (∃ (s : State) (p : Read) (e : Exec) (b : List Byte) (v : Nat → Nat), s.runs .manager 0x0011 p = some (e, b) ∧ (∀ k,
      v k = if headerGood (flashRead s.nv (aSlot k) 4096) then slotVersion s.nv k else 0)) ∧
    (∃ (h : List Byte), byteAt h 3 = 1 ∧ (execOf h).opcode = 0x0011 ∧ hdrReserved h = none) ∧
    (∃ (h : List Byte), byteAt h 3 = 1 ∧ (execOf h).opcode = 0x0011 ∧ hdrReserved h = none ∧ (execOf h).plen ≠ 0) :=
  ⟨⟨run .manager (ex 0x11 0xFFFF 0), .ok [], ex 0x11 0xFFFF 0, [], _, by decide +kernel, fun _ => rfl⟩,
   ⟨bs 32 [(0, 2, 0x11), (3, 1, 1)], by decide +kernel, by decide +kernel, by decide +kernel⟩,
   ⟨bs 32 [(0, 2, 0x11), (3, 1, 1), (10, 2, 4)], by decide +kernel, by decide +kernel, by decide +kernel, by decide +kernel⟩⟩

theorem wit_StitchLevelsRaiseEvents :
    (∃ (e ch : Nat) (f : Chan → Chan) (d : Dev) (x : Chan) (lv : Chan → Bool), e < 2 ∧ ch < 16 ∧ x = f (d.chan e ch) ∧ (∀ y,
      lv y = ((y.done && bit y.intEn 0) || (y.err && bit y.intEn 1) || (y.sig && bit y.intEn 2))) ∧ lv x = true ∧
      lv (d.chan e ch) = false) ∧
    (∃ (e ch : Nat) (f : Chan → Chan) (d : Dev) (x : Chan) (lv : Chan → Bool), e < 2 ∧ ch < 16 ∧ x = f (d.chan e ch) ∧ (∀ y,
      lv y = ((y.done && bit y.intEn 0) || (y.err && bit y.intEn 1) || (y.sig && bit y.intEn 2))) ∧ (lv x = false
      ∨ lv (d.chan e ch) = true)) :=
  ⟨⟨1, 15, fun c => { c with done := true, intEn := 1 }, up, _, _, by decide +kernel, by decide +kernel, rfl, fun _ => rfl,
      by decide +kernel, by decide +kernel⟩,
   ⟨0, 0, id, up, _, _, by decide +kernel, by decide +kernel, rfl, fun _ => rfl, by decide +kernel⟩⟩

theorem wit_MemoryEventsRiseOnce :
    (∃ (i : Nat) (d : Dev), d.flag 0xE001000 i = false) ∧
    (∃ (i : Nat) (d : Dev), d.flag 0xE001000 i = true) :=
  ⟨⟨0, up, by decide +kernel⟩,
   ⟨3, setRegs [(0xE001000, 8)] up, by decide +kernel⟩⟩

theorem wit_NopAndWakeCommandsAnswer :
    (∃ (s : State) (r : Ring) (p : Read) (e : Exec) (b : List Byte), s.runs r 0x0001 p = some (e, b) ∧ s.dev.updates = []) ∧
    (∃ (s : State) (r : Ring) (p : Read) (e : Exec) (b : List Byte), s.runs r 0x0001 p = some (e, b) ∧ s.dev.updates ≠ []) ∧
    (∃ (s : State) (r : Ring) (p : Read) (e : Exec) (b : List Byte), s.runs r 0x0003 p = some (e, b) ∧ byteAt b 0 < 32 ∧
      s.dev.fnExists (byteAt b 0) = true ∧ zeroAt b 1 3 = true ∧ (s.dev.fn (byteAt b 0)).parked = false) ∧
    (∃ (s : State) (r : Ring) (p : Read) (e : Exec) (b : List Byte), s.runs r 0x0003 p = some (e, b) ∧ byteAt b 0 < 32 ∧
      s.dev.fnExists (byteAt b 0) = true ∧ zeroAt b 1 3 = true ∧ (s.dev.fn (byteAt b 0)).parked = true ∧
      (s.dev.fn (byteAt b 0)).pmeEn = false) ∧
    (∃ (s : State) (r : Ring) (p : Read) (e : Exec) (b : List Byte), s.runs r 0x0003 p = some (e, b) ∧ byteAt b 0 < 32 ∧
      s.dev.fnExists (byteAt b 0) = true ∧ zeroAt b 1 3 = true ∧ (s.dev.fn (byteAt b 0)).parked = true ∧
      (s.dev.fn (byteAt b 0)).pmeEn = true ∧ (s.dev.fn (byteAt b 0)).woken = false) ∧
    (∃ (s : State) (p : Read) (e : Exec) (b : List Byte), s.runs .manager 0x0004 p = some (e, b) ∧ byteAt b 0 < 32 ∧
      s.dev.fnExists (byteAt b 0) = true ∧ byteAt b 1 < 16 ∧ byteAt b 2 < 2 ∧ byteAt b 3 = 0 ∧ e.slice ≥ 4096) :=
  ⟨⟨run (.slice 5) (ex 1 5 0), .slice 5, .ok [], ex 1 5 0, [], by decide +kernel, by decide +kernel⟩,
   ⟨run .manager (ex 1 0xFFFF 0) { up with updates := [{ apply := 256, op := .commit }] }, .manager, .ok [], ex 1 0xFFFF 0,
      [], by decide +kernel, by decide +kernel⟩,
   ⟨run .manager (ex 3 0xFFFF 4) (fnWith id), .manager, .ok [3], ex 3 0xFFFF 4, bs 4 [(0, 1, 3)], by decide +kernel,
      by decide +kernel, by decide +kernel, by decide +kernel, by decide +kernel⟩,
   ⟨run .manager (ex 3 0xFFFF 4) (fnWith fun x => { x with parked := true }), .manager, .ok [3], ex 3 0xFFFF 4, bs 4 [(0, 1,
      3)], by decide +kernel, by decide +kernel, by decide +kernel, by decide +kernel, by decide +kernel, by decide +kernel⟩,
   ⟨run .manager (ex 3 0xFFFF 4) (fnWith fun x => { x with parked := true, pmeEn := true }), .manager, .ok [3],
      ex 3 0xFFFF 4, bs 4 [(0, 1, 3)], by decide +kernel, by decide +kernel, by decide +kernel, by decide +kernel,
      by decide +kernel, by decide +kernel, by decide +kernel⟩,
   ⟨run .manager (ex 4 0xFFFF 24), .ok [3, 15, 1], ex 4 0xFFFF 24, bs 24 [(0, 1, 3), (1, 1, 15), (2, 1, 1)],
      by decide +kernel, by decide +kernel, by decide +kernel, by decide +kernel, by decide +kernel, by decide +kernel,
      by decide +kernel⟩⟩

theorem wit_CommandRingsWork :
    (∃ (s : State) (r : Ring) (h : List Byte), s.dev.startable r = true ∧ s.dev.ringTurn r = true ∧
      (execOf (padTo 32 h)).plen ≤ 4064 ∧ slotsOf (execOf (padTo 32 h)).plen ≤ ringCount (crN (s.dev.ring r)) (s.dev.ring
      r).head (s.dev.ring r).tail ∧ s.dev.sliceWaits (execOf (padTo 32 h)) = false ∧ hdrCheck r (padTo 32 h) s.dev = none ∧
      s.dev.direct (s.dev.readFn r) (s.dev.slotRanges r (s.dev.ring r).head 1) = true) ∧
    (∃ (f : Nat) (a : Option Nat) (l : List (Nat × Nat)) (d d' : Dev), xlatRead f a (readPieces (d.fn f) l) d = (.ready,
      d')) ∧
    (∃ (r : Ring) (op : Nat) (p : Read) (d d' : Dev) (e : Exec) (b : List Byte), (d.ring r).exec = some e ∧ e.opcode = op ∧
      e.begun = false ∧ ((op = 1 ∨ op ∈ updOps) → d.ahead e.seq = false) ∧
      xlatRead (d.readFn r) (d.ringPasid r) (readPieces (d.fn (d.readFn r)) (d.paramRanges r e)) d = (.ready, d') ∧
      sliceGate e d' = none ∧ paramsOf e.plen p = some b) ∧
    (∃ (f a n : Nat) (p : Option Nat) (d : Dev) (e : AtcEntry), (d.fn f).atsEn = true ∧ (∀ x ∈ (d.fn f).xnone, ¬(x.1 = p ∧
      x.2.1 = a)) ∧ atcHit (d.fn f) p a n = some e ∧ e.rd = true) ∧
    (∃ (s : State) (r : Ring) (v : Word), s.comes (s.dev.readFn r) = true ∧ s.dev.ringExists r = true ∧
      (s.dev.ring r).enable = false ∧ v.getLsbD 31 = true) ∧
    (∃ (s : State) (r : Ring) (v : Word), s.comes (s.dev.readFn r) = true ∧ s.dev.ringExists r = true ∧
      (s.dev.ring r).enable = true ∧ v.getLsbD 31 = true) ∧
    (∃ (s : State) (r : Ring) (v : Word), s.comes (s.dev.readFn r) = true ∧ s.dev.ringExists r = true ∧
      (s.dev.ring r).enable = true ∧ v.getLsbD 31 = false) ∧
    (∃ (s : State) (r : Ring) (v : Word) (q : Nat), s.comes (s.dev.readFn r) = true ∧ s.dev.ringExists r = true ∧
      (s.dev.ring r).enable = true ∧ s.dev.engineReady = true ∧
      tailValid (crN (s.dev.ring r)) (s.dev.ring r).head (s.dev.ring r).tail (wbits v 16 0) = some q) ∧
    (∃ (s : State) (r : Ring) (v : Word), s.comes (s.dev.readFn r) = true ∧ s.dev.ringExists r = true ∧
      ((s.dev.ring r).enable = false ∨ s.dev.engineReady = false
      ∨ tailValid (crN (s.dev.ring r)) (s.dev.ring r).head (s.dev.ring r).tail (wbits v 16 0) = none)) ∧
    (∃ (s : State) (r : Ring) (v : Word) (q : Nat), s.comes (s.dev.readFn r) = true ∧ s.dev.ringExists r = true ∧
      headValid (rrN (s.dev.ring r)) (s.dev.ring r).rrHead (s.dev.ring r).rrWrite (wbits v 16 0) = some q) ∧
    (∃ (s : State) (r : Ring) (v : Word), s.comes (s.dev.readFn r) = true ∧ s.dev.ringExists r = true ∧
      headValid (rrN (s.dev.ring r)) (s.dev.ring r).rrHead (s.dev.ring r).rrWrite (wbits v 16 0) = none) ∧
    (∃ (r : Ring) (d : Dev), (d.ring r).exec = none) ∧
    (∃ (r : Ring) (st det : Nat) (ws : List Nat) (d : Dev) (e : Exec) (d0 d' : Dev) (p : Reply), (d.ring r).exec = some e ∧
      d0 = (if e.internal then raise 0x15 e.opcode (2 ^ 30 * ringKind r + ringNumber r) e.tag d else d) ∧
      d' = updRing r (fun x => { x with exec := none }) (if e.opcode = 0x0101 then d0 else meter e.slice 15 1 d0) ∧
      p = (if e.internal then { tag := e.tag, status := stInternal, detail := 0, words := [], quiet := bit e.flags 1 } else
      { tag := e.tag, status := st, detail := det, words := ws, quiet := bit e.flags 1, data := e.data }) ∧
      d'.ringMay r = true ∧ (d.ring r).held = []) ∧
    (∃ (r : Ring) (st det : Nat) (ws : List Nat) (d : Dev) (e : Exec) (d0 d' : Dev) (p : Reply), (d.ring r).exec = some e ∧
      d0 = (if e.internal then raise 0x15 e.opcode (2 ^ 30 * ringKind r + ringNumber r) e.tag d else d) ∧
      d' = updRing r (fun x => { x with exec := none }) (if e.opcode = 0x0101 then d0 else meter e.slice 15 1 d0) ∧
      p = (if e.internal then { tag := e.tag, status := stInternal, detail := 0, words := [], quiet := bit e.flags 1 } else
      { tag := e.tag, status := st, detail := det, words := ws, quiet := bit e.flags 1, data := e.data }) ∧
      (d'.ringMay r = false ∨ (d.ring r).held ≠ [])) :=
  ⟨⟨on' (updRing (.slice 5) (fun x => { x with tail := 1 }) up), .slice 5, [2, 0, 0, 1, 0, 0, 0, 0, 5], by decide +kernel,
      by decide +kernel, by decide +kernel, by decide +kernel, by decide +kernel, by decide +kernel, by decide +kernel⟩,
   ⟨3, none, [(0, 64)], up, up, by decide +kernel⟩,
   ⟨.manager, 2, .ok [], (run .manager (ex 2 0xFFFF 0)).dev, (run .manager (ex 2 0xFFFF 0)).dev, ex 2 0xFFFF 0, [],
      by decide +kernel, by decide +kernel, by decide +kernel, by decide +kernel, by decide +kernel, by decide +kernel,
      by decide +kernel⟩,
   ⟨3, 0x1000, 64, none, fnWith fun x =>
      { x with atsEn := true, atc := [{ pasid := none, base := 0x1000, len := 4096, xlat := 0x5000, rd := true, wr := true }] },
      _, by decide +kernel, by decide +kernel, rfl, by decide +kernel⟩,
   ⟨on' { up with rings := [] }, .slice 5, 0x80000000, by decide +kernel, by decide +kernel, by decide +kernel,
      by decide +kernel⟩,
   ⟨upS, .manager, 0x80000000, by decide +kernel, by decide +kernel, by decide +kernel, by decide +kernel⟩,
   ⟨upS, .function 3, 0, by decide +kernel, by decide +kernel, by decide +kernel, by decide +kernel⟩,
   ⟨upS, .slice 5, 1, 1, by decide +kernel, by decide +kernel, by decide +kernel, by decide +kernel, by decide +kernel⟩,
   ⟨upS, .slice 5, 129, by decide +kernel, by decide +kernel, by decide +kernel⟩,
   ⟨on' (updRing (.slice 5) (fun x => { x with rrWrite := 2 }) up), .slice 5, 2, 2, by decide +kernel, by decide +kernel,
      by decide +kernel⟩,
   ⟨upS, .slice 5, 1, by decide +kernel, by decide +kernel, by decide +kernel⟩,
   ⟨.manager, up, by decide +kernel⟩,
   ⟨.manager, 0, 0, [7], (run .manager (ex 2 0xFFFF 0)).dev, _, _, _, _, rfl, rfl, rfl, rfl, by decide +kernel,
      by decide +kernel⟩,
   ⟨.manager, 0, 0, [7], (let d := (run .manager (ex 2 0xFFFF 0)).dev; { d with fns := [] }), _, _, _, _, rfl, rfl, rfl,
      rfl, by decide +kernel⟩⟩

/-- The parameters of a SLICE_CREATE, a SLICE_QUOTA_SET and an RSS_SET. -/
def createB : List Byte := bs 280 [(0, 1, 3), (1, 1, 1), (2, 2, 1), (4, 4, 9), (8, 2, 4), (20, 1, 1)]
def quotaB : List Byte := bs 280 [(0, 1, 3), (1, 1, 2), (2, 2, 2), (4, 4, 7), (8, 2, 8), (12, 4, 65)]
def rssB : List Byte := bs 48 [(0, 2, 63)] ++ (List.replicate 256 [1, 0]).flatten

/-- A flash whose slot 0 holds the header of an image of one byte (R482). -/
def imageNv : Nv :=
  { flash := [(0x100000, 0x46), (0x100001, 0x4A), (0x100002, 0x49), (0x100003, 0x4D), (0x100004, 1), (0x100005, 0),
      (0x100006, 0), (0x100007, 0), (0x100008, 1), (0x100009, 0), (0x10000A, 0), (0x10000B, 0), (0x100FFF, 0x3C)] }
theorem imageNv_slot : selectedSlot imageNv = 0 := by decide +kernel
theorem imageNv_header : headerGood (flashRead imageNv (aSlot 0) 4096) = true := by decide +kernel

/-- The hash and the signature of the image in slot k are found good: what the opaque constants of Config leave open. -/
def Signed (nv : Nv) (k n : Nat) : Prop :=
  Config.sha384 (bytesAt (flashRead nv (aSlot k) n) 16 97) = Config.keyHash ∧
  Config.ecdsaVerifies (bytesAt (flashRead nv (aSlot k) n) 16 97) (bytesAt (flashRead nv (aSlot k) n) 128 96)
    ((flashRead nv (aSlot k) n).take 128 ++ flashRead nv (aSlot k + n) (le (flashRead nv (aSlot k) n) 8 4)) = true

theorem slotFault_none (nv : Nv) (k n : Nat) (hn : n = 4096) (g : headerGood (flashRead nv (aSlot k) n) = true)
    (h : Signed nv k n) : slotFault nv k = none := by
  unfold slotFault
  rw [← hn]
  simp only [g, h.1, h.2, bne_self_eq_false]
  trivial

theorem image_starts (nv : Nv) (k : Nat) (r : Nat × Nat) (d : Dev) (hk : selectedSlot nv = k) (h : slotFault nv k = none) :
    (activate r nv d).2 = startImage nv k false d := by
  subst hk
  unfold activate
  extract_lets s started begun
  rw [show slotFault nv s = none from h]

theorem wit_EngineResetsAndSelectsImages (h : Signed imageNv 0 4096) :
    (∃ (s : State), s.reaches .manager 0xD801000 = true ∧ s.dev.ready = true ∧ s.dev.power.ctlReset = none) ∧
    (∃ (s : State) (a : Nv × Dev), s.dev.power.ctlReset.isSome = true ∧ s.dev.power.noImage = false ∧ activate (4,
      min (s.dev.fld 0xD801004 31 16 + 1) 0xFFFF) s.nv s.dev = a ∧ a.2.power.noImage = false) ∧
    (∃ (s : State) (r : Ring) (p : Read) (e : Exec) (b : List Byte), s.runs r 0x0010 p = some (e, b) ∧ s.dev.spiBusy = false
      ∧ byteAt b 0 ≤ 1 ∧ byteAt b 1 = 0 ∧ zeroAt b 2 2 = true) :=
  ⟨⟨upS, by decide +kernel, by decide +kernel, by decide +kernel⟩,
   ⟨{ nv := imageNv, dev := updPower (fun x => { x with ctlReset := some 0 }) up }, _, by decide +kernel, by decide +kernel,
      rfl,
      by rw [image_starts _ 0 _ _ imageNv_slot (slotFault_none _ _ 4096 rfl imageNv_header h)]; simp only [startImage, updPower]⟩,
   ⟨run (.manager) (ex 0x10 0xFFFF 4) (up), .manager, .ok [], ex 0x10 0xFFFF 4, bs 4 [], by decide +kernel,
      by decide +kernel, by decide +kernel, by decide +kernel, by decide +kernel⟩⟩

theorem wit_SlicesAreCreatedResetAndDestroyed :
    (∃ (s : State) (p : Read) (e : Exec) (b : List Byte) (n i : Nat) (d1 d2 : Dev) (x : Slice),
      s.runs .manager 0x0101 p = some (e, b) ∧ clean (sliceFaults none b s.dev) = true ∧ (e.slice < 4096 ∨ e.slice = 0xFFFF)
      ∧ s.dev.slice e.slice = none ∧ (le b 2 2 ≠ 0xFFFF → s.dev.lidxUsed (byteAt b 0) (le b 2 2) = false) ∧
      (∀ y ∈ s.dev.slices, ¬(y.2.fn = byteAt b 0 ∧ y.2.pasid = le b 4 4)) ∧
      (if e.slice = 0xFFFF then pickFree 4096 (fun k => (s.dev.slice k).isSome) s.dev else (some e.slice, s.dev)) = (some n,
      d1) ∧ (if le b 2 2 = 0xFFFF then pickFree 512 (s.dev.lidxUsed (byteAt b 0)) d1 else (some (le b 2 2), d1)) = (some i,
      d2) ∧ x = { state := .active, fn := byteAt b 0, pasid := le b 4 4, lidx := i, weight := byteAt b 1 } ∧
      clean (poolFaults n x (quotasOf b) d2) = true) ∧
    (∃ (s : State) (p : Read) (e : Exec) (b : List Byte) (x : Slice), s.runs .manager 0x0102 p = some (e, b) ∧
      s.dev.slice e.slice = some x ∧ clean (sliceFaults (some x) b s.dev) = true ∧
      clean (lowerFaults e.slice x (quotasOf b) s.dev) = true ∧ clean (poolFaults e.slice x (quotasOf b) s.dev) = true) ∧
    (∃ (s : State) (r : Ring) (p : Read) (e : Exec) (b : List Byte) (x : Slice), s.runs r 0x0103 p = some (e, b) ∧
      s.dev.slice e.slice = some x ∧ x.state ≠ .resetting) ∧
    (∃ (s : State) (r : Ring) (p : Read) (e : Exec) (b : List Byte) (x : Slice), s.runs r 0x0103 p = some (e, b) ∧
      s.dev.slice e.slice = some x ∧ x.state = .resetting) ∧
    (∃ (s : State) (k : Fin 4096) (x : Slice), s.dev.slice (Fin.val k) = some x ∧ x.state = .resetting ∧
      s.dev.sliceBusy k x = false) ∧
    (∃ (s : State) (p : Read) (e : Exec) (b : List Byte) (x : Slice), s.runs .manager 0x0104 p = some (e, b) ∧
      s.dev.slice e.slice = some x) ∧
    (∃ (s : State) (k : Fin 4096) (x : Slice), s.dev.slice (Fin.val k) = some x ∧ x.state = .closing ∧ x.tearing = true ∧
      x.resetWaits = [] ∧ s.dev.sliceBusy k x = false) :=
  ⟨⟨run (.manager) (ex 0x101 4095 280) (up), .ok (createB), ex 0x101 4095 280, createB, 4095, 1,
      (run (.manager) (ex 0x101 4095 280) (up)).dev, (run (.manager) (ex 0x101 4095 280) (up)).dev,
      { state := .active, fn := 3, pasid := 9, lidx := 1, weight := 1 }, by decide +kernel, by decide +kernel,
      by decide +kernel, by decide +kernel, by decide +kernel, by decide +kernel, by decide +kernel, by decide +kernel,
      by decide +kernel, by decide +kernel⟩,
   ⟨run (.manager) (ex 0x102 5 280) (up), .ok quotaB, ex 0x102 5 280, quotaB, sl, by decide +kernel, by decide +kernel,
      by decide +kernel, by decide +kernel, by decide +kernel⟩,
   ⟨run (.slice 5) (ex 0x103 5 0) (up), .slice 5, .ok [], ex 0x103 5 0, [], sl, by decide +kernel, by decide +kernel,
      by decide +kernel⟩,
   ⟨run (.manager) (ex 0x103 5 0) (slWith fun x => { x with state := .resetting }), .manager, .ok [], ex 0x103 5 0, [],
      { sl with state := .resetting }, by decide +kernel, by decide +kernel, by decide +kernel⟩,
   ⟨on' (slWith fun x => { x with state := .resetting }), 5, { sl with state := .resetting }, by decide +kernel,
      by decide +kernel, by decide +kernel⟩,
   ⟨run (.manager) (ex 0x104 5 0) (up), .ok [], ex 0x104 5 0, [], sl, by decide +kernel, by decide +kernel⟩,
   ⟨on' (slWith fun x => { x with state := .closing, tearing := true }), 5, { sl with state := .closing, tearing := true },
      by decide +kernel, by decide +kernel, by decide +kernel, by decide +kernel, by decide +kernel⟩⟩

theorem wit_SnapshotsAndFunctionShares :
    (∃ (s : State) (p : Read) (e : Exec) (b : List Byte), s.runs .manager 0x0110 p = some (e, b) ∧ byteAt b 0 ≤ 1) ∧
    (∃ (s : State) (bank : Bool) (a : Nat) (r : Ring) (m : Map Slice) (gone : List Nat), s.dev.snap = some (bank, a, r, m) ∧
      gone = (m.filter fun e => e.2.frees a).map (·.1)) ∧
    (∃ (s : State) (p : Read) (e : Exec) (b : List Byte) (base : Nat), s.runs .manager 0x0120 p = some (e, b) ∧
      byteAt b 0 < 32 ∧ s.dev.fnExists (byteAt b 0) = true ∧ byteAt b 1 ≠ 0 ∧ le b 2 2 ≤ 4096 ∧
      topOf (s.dev.queuesOf (.function (fin 32 (byteAt b 0)))) ≤ le b 2 2 ∧
      resize 1048576 (s.dev.queueBlocks none (some (byteAt b 0))) (s.dev.fn (byteAt b 0)).qBase (s.dev.fn (byteAt b 0)).qLen
      (le b 2 2) = some base) ∧
    (∃ (s : State) (f : Fin 32) (p : Read) (e : Exec) (b : List Byte) (k : Nat) (x : Slice),
      s.runs (.function f) 0x0208 p = some (e, b) ∧ s.dev.sliceAt f (le b 0 2) = some (k, x) ∧ x.state ≠ .closing ∧
      zeroAt b 6 2 = true ∧ le b 4 2 ≤ 2048 ∧ le b 2 2 + le b 4 2 ≤ 2048 ∧ (∀ i < 512, ∀ t y, s.dev.sliceAt f i = some (t,
      y) → t ≠ k → le b 4 2 ≠ 0 → y.vecCount ≠ 0 → ¬(le b 2 2 < y.vecBase + y.vecCount ∧ y.vecBase < le b 2 2 + le b 4 2))) :=
  ⟨⟨run (.manager) (ex 0x110 0xFFFF 4) (up), .ok [1], ex 0x110 0xFFFF 4, [1, 0, 0, 0], by decide +kernel, by decide +kernel⟩,
   ⟨on' { up with snap := some (true, 256, .manager, [(5, sl)]) }, true, 256, .manager, [(5, sl)], _, by decide +kernel, rfl⟩,
   ⟨run (.manager) (ex 0x120 0xFFFF 4) (up), .ok [3, 1, 0, 16], ex 0x120 0xFFFF 4, [3, 1, 0, 16], 8, by decide +kernel,
      by decide +kernel, by decide +kernel, by decide +kernel, by decide +kernel, by decide +kernel, by decide +kernel⟩,
   ⟨run (.function 3) (ex 0x208 0xFFFF 8) (up), 3, .ok (bs 8 [(0, 2, 2), (2, 2, 2044), (4, 2, 4)]), ex 0x208 0xFFFF 8,
      bs 8 [(0, 2, 2), (2, 2, 2044), (4, 2, 4)], 5, sl, by decide +kernel, by decide +kernel, by decide +kernel,
      by decide +kernel, by decide +kernel, by decide +kernel, by
      intro i hi t y h hn
      have hm := List.mem_of_find?_eq_some h
      simp only [run, on', updRing, up, List.mem_singleton] at hm
      cases hm
      exact absurd rfl hn⟩⟩

theorem wit_QueuesAreSetUpAndStopped :
    (∃ (s : State) (r : Ring) (p : Read) (e : Exec) (b : List Byte) (o : Owner), s.runs r 0x0201 p = some (e, b) ∧
      cmdOwner r e = some o ∧ le b 0 2 < s.dev.queueQuota o ∧ clean (createFaults o (le b 0 2) b s.dev) = true ∧
      s.dev.queue o (le b 0 2) = none) ∧
    (∃ (s : State) (r : Ring) (p : Read) (e : Exec) (b : List Byte) (o : Owner) (x : Queue), s.runs r 0x0205 p = some (e, b)
      ∧ cmdOwner r e = some o ∧ le b 0 2 < s.dev.queueQuota o ∧ zeroAt b 2 2 = true ∧ s.dev.queue o (le b 0 2) = some x) ∧
    (∃ (s : State) (r : Ring) (p : Read) (e : Exec) (b : List Byte) (o : Owner) (c : Cq), s.runs r 0x0206 p = some (e, b) ∧
      cmdOwner r e = some o ∧ le b 0 2 < s.dev.queueQuota o ∧ byteAt b 3 < 2 ∧ le b 4 2 ≤ 2047 ∧
      s.dev.vectorOk o (le b 6 2) = true ∧ mayOwnCq o (le b 0 2) = true ∧ s.dev.cq o (le b 0 2) = some c) ∧
    (∃ (s : State) (r : Ring) (p : Read) (e : Exec) (b : List Byte) (o : Owner), s.runs r 0x0207 p = some (e, b) ∧
      cmdOwner r e = some o ∧ le b 0 2 < 64 ∧ zeroAt b 2 2 = true ∧ zeroAt b 44 4 = true ∧ (∀ i < 256,
      rssEntryFault s.dev o b i = none)) ∧
    (∃ (s : State) (r : Ring) (p : Read) (e : Exec) (b : List Byte) (o : Owner) (x : Queue), s.runs r 0x0202 p = some (e, b)
      ∧ cmdOwner r e = some o ∧ le b 0 2 < s.dev.queueQuota o ∧ zeroAt b 2 2 = true ∧ s.dev.queue o (le b 0 2) = some x ∧
      s.dev.cqShared o (le b 0 2) = false ∧ x.halted.isSome = true) ∧
    (∃ (s : State) (r : Ring) (p : Read) (e : Exec) (b : List Byte) (o : Owner) (x : Queue), s.runs r 0x0202 p = some (e, b)
      ∧ cmdOwner r e = some o ∧ le b 0 2 < s.dev.queueQuota o ∧ zeroAt b 2 2 = true ∧ s.dev.queue o (le b 0 2) = some x ∧
      s.dev.cqShared o (le b 0 2) = false ∧ x.halted = none ∧ x.ending = none) ∧
    (∃ (s : State) (r : Ring) (p : Read) (e : Exec) (b : List Byte) (o : Owner) (x : Queue), s.runs r 0x0203 p = some (e, b)
      ∧ cmdOwner r e = some o ∧ le b 0 2 < s.dev.queueQuota o ∧ zeroAt b 2 2 = true ∧ s.dev.queue o (le b 0 2) = some x ∧
      x.reason.isSome = true) ∧
    (∃ (s : State) (r : Ring) (p : Read) (e : Exec) (b : List Byte) (o : Owner) (x : Queue), s.runs r 0x0203 p = some (e, b)
      ∧ cmdOwner r e = some o ∧ le b 0 2 < s.dev.queueQuota o ∧ zeroAt b 2 2 = true ∧ s.dev.queue o (le b 0 2) = some x ∧
      x.reason = none) ∧
    (∃ (s : State) (o : Owner) (q : Nat) (x : Queue) (w : Ending), s.dev.queue o q = some x ∧ x.ending = some w) ∧
    (∃ (s : State) (r : Ring) (p : Read) (e : Exec) (b : List Byte) (o : Owner) (x : Queue) (h : Nat),
      s.runs r 0x0204 p = some (e, b) ∧ cmdOwner r e = some o ∧ le b 0 2 < s.dev.queueQuota o ∧ zeroAt b 2 2 = true ∧
      s.dev.queue o (le b 0 2) = some x ∧ x.ending = none ∧ x.halted.isSome = true ∧ le b 4 4 < 2 ^ 17 ∧
      posOf x.n (le b 4 4) = some h ∧ (x.halted = some 1 → (s.dev.fn (s.dev.fnOf o)).bme = true)) :=
  ⟨⟨run (.slice 5) (ex 0x201 5 64) (up), .slice 5, .ok (bs 64 [(0, 2, 3), (2, 1, 1), (3, 1, 1), (4, 1, 6), (5, 1, 16), (6,
      1, 1), (7, 1, 64), (26, 2, 3), (30, 2, 2047)]), ex 0x201 5 64, bs 64 [(0, 2, 3), (2, 1, 1), (3, 1, 1), (4, 1, 6), (5,
      1, 16), (6, 1, 1), (7, 1, 64), (26, 2, 3), (30, 2, 2047)], .slice 5, by decide +kernel, by decide +kernel,
      by decide +kernel, by decide +kernel, by decide +kernel⟩,
   ⟨run (.function 3) (ex 0x205 5 4) (up), .function 3, .ok (bs 4 []), ex 0x205 5 4, bs 4 [], .slice 5, txQ,
      by decide +kernel, by decide +kernel, by decide +kernel, by decide +kernel, by decide +kernel⟩,
   ⟨run (.slice 5) (ex 0x206 5 8) (up), .slice 5, .ok (bs 8 [(3, 1, 1), (4, 2, 2047), (6, 2, 3)]), ex 0x206 5 8, bs 8 [(3,
      1, 1), (4, 2, 2047), (6, 2, 3)], .slice 5, { base := 0x9000, log2 := 6 }, by decide +kernel, by decide +kernel,
      by decide +kernel, by decide +kernel, by decide +kernel, by decide +kernel, by decide +kernel, by decide +kernel⟩,
   ⟨run (.slice 5) (ex 0x207 5 560) (up), .slice 5, .ok (rssB), ex 0x207 5 560, rssB, .slice 5, by decide +kernel,
      by decide +kernel, by decide +kernel, by decide +kernel, by decide +kernel, by decide +kernel⟩,
   ⟨run (.slice 5) (ex 0x202 5 4) (qWith 1 fun x => { x with halted := some 4 }), .slice 5, .ok (bs 4 [(0, 2, 1)]),
      ex 0x202 5 4, bs 4 [(0, 2, 1)], .slice 5, { rxQ with halted := some 4 }, by decide +kernel, by decide +kernel,
      by decide +kernel, by decide +kernel, by decide +kernel, by decide +kernel, by decide +kernel⟩,
   ⟨run (.slice 5) (ex 0x202 5 4) (up), .slice 5, .ok (bs 4 [(0, 2, 1)]), ex 0x202 5 4, bs 4 [(0, 2, 1)], .slice 5, rxQ,
      by decide +kernel, by decide +kernel, by decide +kernel, by decide +kernel, by decide +kernel, by decide +kernel,
      by decide +kernel, by decide +kernel⟩,
   ⟨run (.slice 5) (ex 0x203 5 4) (qWith 1 fun x => { x with halted := some 4 }), .slice 5, .ok (bs 4 [(0, 2, 1)]),
      ex 0x203 5 4, bs 4 [(0, 2, 1)], .slice 5, { rxQ with halted := some 4 }, by decide +kernel, by decide +kernel,
      by decide +kernel, by decide +kernel, by decide +kernel, by decide +kernel⟩,
   ⟨run (.slice 5) (ex 0x203 5 4) (up), .slice 5, .ok (bs 4 [(0, 2, 1)]), ex 0x203 5 4, bs 4 [(0, 2, 1)], .slice 5, rxQ,
      by decide +kernel, by decide +kernel, by decide +kernel, by decide +kernel, by decide +kernel, by decide +kernel⟩,
   ⟨on' (qWith 1 fun x => { x with ending := some { reason := 4, status := 0, since := 0 } }), .slice 5, 1,
      { rxQ with ending := some { reason := 4, status := 0, since := 0 } }, { reason := 4, status := 0, since := 0 },
      by decide +kernel, by decide +kernel⟩,
   ⟨run (.slice 5) (ex 0x204 5 8) (qWith 1 fun x => { x with halted := some 1 }), .slice 5, .ok (bs 8 [(0, 2, 1), (4, 4,
      65599)]), ex 0x204 5 8, bs 8 [(0, 2, 1), (4, 4, 65599)], .slice 5, { rxQ with halted := some 1 }, 127,
      by decide +kernel, by decide +kernel, by decide +kernel, by decide +kernel, by decide +kernel, by decide +kernel,
      by decide +kernel, by decide +kernel, by decide +kernel, by decide +kernel⟩⟩

theorem wit_EventRingsRun :
    (∃ (s : State) (f : Fin 32) (v : Word), s.comes (some (Fin.val f)) = true ∧ s.dev.fnExists f = true ∧
      (s.dev.fn f).feq.enable = false ∧ v.getLsbD 31 = true) ∧
    (∃ (s : State) (q : Requester) (v : Word), s.reaches q 0x308 = true ∧ trusted q = true ∧ s.dev.mev.enable = false ∧
      v.getLsbD 31 = true) ∧
    (∃ (s : State) (q : Requester) (v : Word), s.reaches q 0x308 = true ∧ trusted q = true ∧ s.dev.mev.enable = true ∧
      v.getLsbD 31 = true) ∧
    (∃ (s : State) (q : Requester) (v : Word), s.reaches q 0x308 = true ∧ trusted q = true ∧ s.dev.mev.enable = true ∧
      v.getLsbD 31 = false) ∧
    (∃ (s : State) (q : Requester) (v : Word), s.reaches q 0xD803018 = true ∧ trusted q = true ∧ s.dev.exc.enable = false ∧
      v.getLsbD 31 = true) ∧
    (∃ (s : State) (f : Fin 32) (v : Word) (p : Nat), s.comes (some (Fin.val f)) = true ∧ s.dev.fnExists f = true ∧
      headValid (s.dev.fn f).feq.n (s.dev.fn f).feq.head (s.dev.fn f).feq.wpos (wbits v 16 0) = some p) ∧
    (∃ (s : State) (f : Fin 32) (v : Word), s.comes (some (Fin.val f)) = true ∧ s.dev.fnExists f = true ∧
      headValid (s.dev.fn f).feq.n (s.dev.fn f).feq.head (s.dev.fn f).feq.wpos (wbits v 16 0) = none) ∧
    (∃ (s : State) (q : Requester) (v : Word) (p : Nat), s.reaches q 0x30C = true ∧ trusted q = true ∧
      headValid s.dev.mev.n s.dev.mev.head s.dev.mev.wpos (wbits v 16 0) = some p) ∧
    (∃ (s : State) (q : Requester) (v : Word), s.reaches q 0x30C = true ∧ trusted q = true ∧
      headValid s.dev.mev.n s.dev.mev.head s.dev.mev.wpos (wbits v 16 0) = none) ∧
    (∃ (s : State) (q : Requester) (v : Word) (p : Nat), s.reaches q 0xD80301C = true ∧ trusted q = true ∧
      headValid s.dev.exc.n s.dev.exc.head s.dev.exc.wpos (wbits v 16 0) = some p) ∧
    (∃ (s : State) (q : Requester) (v : Word), s.reaches q 0xD80301C = true ∧ trusted q = true ∧
      headValid s.dev.exc.n s.dev.exc.head s.dev.exc.wpos (wbits v 16 0) = none) :=
  ⟨⟨on' up, 3, 0x80000000, by decide +kernel, by decide +kernel, by decide +kernel, by decide +kernel⟩,
   ⟨upS, .manager, 0x80000000, by decide +kernel, by decide +kernel, by decide +kernel, by decide +kernel⟩,
   ⟨on' { up with mev := { up.mev with enable := true } }, .manager, 0x80000000, by decide +kernel, by decide +kernel,
      by decide +kernel, by decide +kernel⟩,
   ⟨on' { up with mev := { up.mev with enable := true } }, .core 0, 0, by decide +kernel, by decide +kernel,
      by decide +kernel, by decide +kernel⟩,
   ⟨upS, .core 0, 0x80000000, by decide +kernel, by decide +kernel, by decide +kernel, by decide +kernel⟩,
   ⟨upS, 3, 0, 0, by decide +kernel, by decide +kernel, by decide +kernel⟩,
   ⟨upS, 3, 1, by decide +kernel, by decide +kernel, by decide +kernel⟩,
   ⟨upS, .manager, 0, 0, by decide +kernel, by decide +kernel, by decide +kernel⟩,
   ⟨upS, .manager, 0x1FFFF, by decide +kernel, by decide +kernel, by decide +kernel⟩,
   ⟨upS, .manager, 0, 0, by decide +kernel, by decide +kernel, by decide +kernel⟩,
   ⟨upS, .manager, 128, by decide +kernel, by decide +kernel, by decide +kernel⟩⟩

/-! ### Tables and rule sets -/

/-- Table 9 of 1,024 wide buckets with an 8-byte key whose bytes 4 and 5 are the slice, evicting the oldest entry; table
10 of 1,024 IPv4 prefixes; no profile masks a key bit away. -/
def tab9 : List Byte := bs 24 [(0, 1, 9), (1, 1, 2), (2, 1, 2), (3, 1, 1), (6, 2, 1), (8, 3, 0xFFFFFF)]
def tab10 : List Byte := bs 24 [(0, 1, 10), (1, 1, 5), (2, 1, 3), (6, 2, 1), (8, 3, 0xFFFFFF)]
def prof2 : List Byte := bs 68 [(0, 1, 2), (1, 1, 8), (4, 1, 2), (6, 1, 2), (7, 1, 4)] ++ padTo 48 (List.replicate 8 0xFF)
def rules : RuleSet :=
  { tables := [(9, tab9), (10, tab10), (12, bs 24 [(0, 1, 12), (1, 1, 4), (6, 2, 2)])], profiles := [(2, prof2)] }
def tables : Dev := { up with gens := { rules := rules } }
def key1 : List Byte := List.replicate 8 0x11
def entry1 : Entry := { key := key1, data := List.replicate 8 1 }
/-- Parameters of an entry command on table 9: eviction buffer at 64, key, data. -/
def entryB : List Byte := bs 16 [(0, 1, 9), (8, 1, 64)] ++ padTo 48 key1 ++ List.replicate 8 7
def entryS : List Byte := bs 16 [(0, 1, 9), (8, 1, 64)] ++ padTo 48 [1, 1, 1, 1, 0, 0, 1, 1] ++ List.replicate 8 7
/-- Buckets 899 and 477 of key 11... and those of the entry in them are full, and the whole stash. -/
def entry2 : Entry := { key := List.replicate 8 0x22, data := List.replicate 8 2 }
def fullMap : Map Entry :=
  [474, 477, 899, 900].map (fun b => (2 * b, entry2)) ++ (List.range 1024).map fun i => (stashKey i, entry2)
/-- A classic TCAM rule for table 12. -/
def tcamB : List Byte := bs 96 [(0, 1, 12), (2, 2, 1023), (4, 1, 1)]
/-- A shadow bank that holds those tables. -/
def shadowed : Dev := let d := tables; { d with gens := { d.gens with shadow := some rules } }
/-- Prefix 10.0.0.0/8 of VRF 0, and the parameters that name it. -/
def pre8 : Prefix := { len := 8, vrf := 0, addr := [10, 0, 0, 0], data := List.replicate 8 0 }
def lpmB : List Byte := bs 32 [(0, 1, 10), (1, 1, 8), (8, 1, 10)]


theorem mfind_of_mem {α : Type} (k : Nat) : ∀ m : Map α, (∃ x ∈ m, x.1 = k) → (mfind m k).isSome = true
  | [], h => by simp at h
  | (a, v) :: r, h => by
    by_cases e : a = k
    · simp [mfind, e]
    · simp only [mfind, if_neg e]
      refine mfind_of_mem k r ?_
      obtain ⟨x, hx, hk⟩ := h
      cases hx with
      | head => exact absurd hk e
      | tail _ hx => exact ⟨x, hx, hk⟩

theorem stash_full : ((List.range 1024).find? fun i => (mfind fullMap (stashKey i)).isNone) = none := by
  simp only [List.find?_eq_none, List.mem_range, Option.isNone_iff_eq_none]
  intro i hi h
  have := mfind_of_mem (stashKey i) fullMap ⟨(stashKey i, entry2), by
    simp only [fullMap, List.mem_append, List.mem_map, List.mem_range]
    exact .inr ⟨i, hi, rfl⟩, rfl⟩
  rw [h] at this
  cases this

/-- The entry that the command inserts. -/
def fresh1 : Entry := { key := key1, owner := none, data := List.replicate 8 7, seq := 0 }

/-- With both buckets, the buckets of what they hold, and the stash full, an insertion evicts the oldest (R215). -/
theorem evicts (t now draw : Nat) (df : List Byte) (m : Map Entry) (e v : Entry) (p : Nat)
    (h1 : ((freeSlot m (tKind df) (buckets t (tSize df) e.key).1).orElse fun _ =>
      freeSlot m (tKind df) (buckets t (tSize df) e.key).2) = none)
    (h2 : bfs t (tSize df) (tKind df) m 8
      ((slotKeys (tKind df) (buckets t (tSize df) e.key).1).map
        (fun s => (⟨[s], [(buckets t (tSize df) e.key).1]⟩ : MovePath)) ++
       (slotKeys (tKind df) (buckets t (tSize df) e.key).2).map fun s =>
        ⟨[s], [(buckets t (tSize df) e.key).2]⟩) = none)
    (h : ((List.range 1024).find? fun i => (mfind m (stashKey i)).isNone) = none) (h5 : tEvict df = 1)
    (h3 : oldest now (candidates m (tKind df) (buckets t (tSize df) e.key) e.owner) = some (p, v)) :
    (planNew t df now draw m e).evicted = some (v, entryAge now v) := by
  unfold planNew
  extract_lets kind size ab start c pick
  rw [show ((freeSlot m kind ab.1).orElse fun _ => freeSlot m kind ab.2) = none from h1]
  dsimp only
  rw [show bfs t size kind m 8 start = none from h2]
  dsimp only
  rw [h]
  dsimp only
  rw [show pick = some (p, v) from (if_pos h5).trans h3]

theorem full_evicts (draw : Nat) : (planNew 9 tab9 0 draw fullMap fresh1).evicted = some (entry2, entryAge 0 entry2) :=
  evicts 9 0 draw tab9 fullMap fresh1 entry2 (2 * 899) (by decide +kernel) (by decide +kernel) stash_full
    (by decide +kernel) (by decide +kernel)

theorem key1_absent : findKey fullMap (tKind tab9) (buckets 9 (tSize tab9) key1) key1 = none := by
  have h1 : ((slotKeys (tKind tab9) (buckets 9 (tSize tab9) key1).1 ++
      slotKeys (tKind tab9) (buckets 9 (tSize tab9) key1).2).findSome? fun p => match mfind fullMap p with
        | some e => if e.key = key1 then some (p, e) else none
        | none => none) = none := by decide +kernel
  have hk : (entry2.key == key1) = false := by decide
  have h2 : (fullMap.find? fun x => inStash x.1 && x.2.key == key1) = none := by
    simp only [List.find?_eq_none, fullMap, List.mem_append, List.mem_map]
    rintro x (⟨b, -, rfl⟩ | ⟨b, -, rfl⟩) <;> simp [hk]
  unfold findKey
  extract_lets at'
  rw [show (slotKeys (tKind tab9) (buckets 9 (tSize tab9) key1).1 ++
      slotKeys (tKind tab9) (buckets 9 (tSize tab9) key1).2).findSome? at' = none from h1]
  exact h2

/-- The adapter with those entries in table 9. -/
def devOf (m : Map Entry) : Dev := (run .manager (ex 0x301 0xFFFF 72) { tables with tables := [(9, { ents := m })] }).dev
theorem devOf_ents (m : Map Entry) : ((devOf m).tableWith 9 fun _ => true).ents = m := rfl
theorem devOf_seq (m : Map Entry) : ((devOf m).tableWith 9 fun _ => true).seq = 0 := rfl
theorem devOf_time (m : Map Entry) : (devOf m).time = 0 := rfl
theorem devOf_table (m : Map Entry) : (devOf m).gens.rules.table 9 = tab9 := rfl

theorem full_plan : (planEntry .insert 9 key1 (List.replicate 8 7) none none (devOf fullMap)).evicted =
    some (entry2, entryAge 0 entry2) := by
  unfold planEntry
  extract_lets df tab m fresh full
  have hm : m = fullMap := devOf_ents _
  have hdf : df = tab9 := devOf_table _
  have hf : fresh = fresh1 := by
    show ({ key := key1, owner := none, data := List.replicate 8 7, seq := tab.seq } : Entry) = fresh1
    rw [show tab.seq = 0 from devOf_seq _]; rfl
  rw [hm, hdf, hf, key1_absent, devOf_time]
  dsimp only
  rw [if_neg (by decide), if_neg (by decide)]
  exact full_evicts _

theorem full_command : (planEntry .insert (byteAt entryB 0)
    (bytesAt entryB 16 (pKeyLen ((devOf fullMap).gens.rules.profileOf (byteAt entryB 0)))) (bytesAt entryB 64 8)
    (if bit (byteAt entryB 1) 0 then some (le entryB 2 2) else none) none (devOf fullMap)).evicted =
    some (entry2, entryAge 0 entry2) := by
  rw [show byteAt entryB 0 = 9 from by decide +kernel,
    show pKeyLen ((devOf fullMap).gens.rules.profileOf 9) = 8 from by decide +kernel,
    show bytesAt entryB 16 8 = key1 from by decide +kernel,
    show bytesAt entryB 64 8 = List.replicate 8 7 from by decide +kernel,
    show bit (byteAt entryB 1) 0 = false from by decide +kernel]
  exact full_plan

theorem wit_EntryCommandsChangeTables :
    (∃ (op : EntryOp) (c : Ring → Read → Instr) (code : Nat) (s : State) (p : Read) (e : Exec) (b : List Byte) (plan :
      Plan), ((op = .insert ∧ c = .entryInsert ∧ code = 0x0301) ∨ (op = .ifAbsent ∧ c = .entryInsertIfAbsent ∧
      code = 0x0302) ∨ (op = .modify ∧ c = .entryModify ∧ code = 0x0303) ∨ (op = .delete ∧ c = .entryDelete ∧ code = 0x0304)
      ∨ (op = .lookup ∧ c = .entryLookup ∧ code = 0x0305)) ∧ s.runs .manager code p = some (e, b) ∧
      clean (entryFaults op .manager b s.dev) = true ∧ (op ≠ .lookup → s.dev.tableHeld (byteAt b 0) = false) ∧
      plan = planEntry op (byteAt b 0) (bytesAt b 16 (pKeyLen (s.dev.gens.rules.profileOf (byteAt b 0)))) (bytesAt b 64 8)
      (if bit (byteAt b 1) 0 then some (le b 2 2) else none) none s.dev ∧ plan.evicted = none) ∧
    (∃ (op : EntryOp) (c : Ring → Read → Instr) (code : Nat) (s : State) (p : Read) (e : Exec) (b : List Byte) (plan : Plan)
      (v : Entry) (age : Nat), ((op = .insert ∧ c = .entryInsert ∧ code = 0x0301) ∨ (op = .ifAbsent ∧
      c = .entryInsertIfAbsent ∧ code = 0x0302) ∨ (op = .modify ∧ c = .entryModify ∧ code = 0x0303) ∨ (op = .delete ∧
      c = .entryDelete ∧ code = 0x0304) ∨ (op = .lookup ∧ c = .entryLookup ∧ code = 0x0305)) ∧
      s.runs .manager code p = some (e, b) ∧ clean (entryFaults op .manager b s.dev) = true ∧ (op ≠ .lookup
      → s.dev.tableHeld (byteAt b 0) = false) ∧ plan = planEntry op (byteAt b 0) (bytesAt b 16 (pKeyLen
      (s.dev.gens.rules.profileOf (byteAt b 0)))) (bytesAt b 64 8) (if bit (byteAt b 1) 0 then some (le b 2 2) else none)
      none s.dev ∧ plan.evicted = some (v, age)) ∧
    (∃ (op : EntryOp) (c : Ring → Read → Instr) (code : Nat) (s : State) (r : Ring) (p : Read) (e : Exec) (b : List Byte) (o
      : Nat) (plan : Plan), ((op = .insert ∧ c = .entryInsert ∧ code = 0x0301) ∨ (op = .ifAbsent ∧ c = .entryInsertIfAbsent
      ∧ code = 0x0302) ∨ (op = .modify ∧ c = .entryModify ∧ code = 0x0303) ∨ (op = .delete ∧ c = .entryDelete ∧
      code = 0x0304) ∨ (op = .lookup ∧ c = .entryLookup ∧ code = 0x0305)) ∧ r ≠ .manager ∧ s.runs r code p = some (e, b) ∧
      clean (entryFaults op r b s.dev) = true ∧ e.slice < 4096 ∧ pSlice (s.dev.gens.rules.profileOf (byteAt b 0)) = some o ∧
      (op ≠ .lookup → s.dev.tableHeld (byteAt b 0) = false) ∧
      plan = planEntry op (byteAt b 0) (putLe (bytesAt b 16 (pKeyLen (s.dev.gens.rules.profileOf (byteAt b 0)))) o 2
      e.slice) (bytesAt b 64 8) (some e.slice) (some e.slice) s.dev ∧ plan.evicted = none) ∧
    (∃ (op : EntryOp) (t : Nat) (key : List Byte) (k : Nat) (d : Dev) (q : Nat) (x : Entry),
      findKey (if op = EntryOp.lookup then d.table t else d.tableWith t fun _ => true).ents (tKind (d.gens.rules.table t))
      (buckets t (tSize (d.gens.rules.table t)) key) key = some (q, x) ∧ x.owner ≠ some k) :=
  ⟨⟨.lookup, .entryLookup, 0x305, run (.manager) (ex 0x305 0xFFFF 72) (tables), .ok entryB, ex 0x305 0xFFFF 72, entryB, _,
      by simp, by decide +kernel, by decide +kernel, by decide +kernel, rfl, by decide +kernel⟩,
   ⟨.insert, .entryInsert, 0x301, { dev := devOf fullMap }, .ok entryB, ex 0x301 0xFFFF 72, entryB, _, entry2, _, by simp,
      by decide +kernel, by decide +kernel, by decide +kernel, rfl, full_command⟩,
   ⟨.ifAbsent, .entryInsertIfAbsent, 0x302, run (.slice 5) (ex 0x302 5 72) (tables), .slice 5, .ok entryS, ex 0x302 5 72,
      entryS, 4, _, by simp, by decide +kernel, by decide +kernel, by decide +kernel, by decide +kernel, by decide +kernel,
      by decide +kernel, rfl, by decide +kernel⟩,
   ⟨.insert, 9, key1, 5, updTable 9 (fun x => { x with ents := [(2 * 899, entry1)] }) tables, 2 * 899, entry1,
      by decide +kernel, by decide +kernel⟩⟩

theorem wit_InsertedKeyIsFound :
    (∃ (t : Nat) (df : List Byte) (m : Map Entry) (e : Entry) (p : Nat),
      findKey m (tKind df) (buckets t (tSize df) e.key) e.key = none ∧
      ((freeSlot m (tKind df) (buckets t (tSize df) e.key).1).orElse fun _ => freeSlot m (tKind df) (buckets t (tSize df)
      e.key).2) = some p) ∧
    (∃ (t : Nat) (df : List Byte) (m : Map Entry) (e : Entry) (p : Nat) (key : List Byte),
      findKey m (tKind df) (buckets t (tSize df) e.key) e.key = none ∧
      ((freeSlot m (tKind df) (buckets t (tSize df) e.key).1).orElse fun _ => freeSlot m (tKind df) (buckets t (tSize df)
      e.key).2) = some p ∧ key ≠ e.key) :=
  ⟨⟨9, tab9, [], entry1, 2 * 899, by decide +kernel, by decide +kernel⟩,
   ⟨9, tab9, [], entry1, 2 * 899, List.replicate 8 0x22, by decide +kernel, by decide +kernel, by decide +kernel⟩⟩

theorem wit_RegisterPathAndUpdatesRun :
    (∃ (op : EntryOp) (c : Requester → BitVec 12 → Bool → Fin 64
      → Instr) (code : Nat) (s : State) (q : Requester) (ow : BitVec 12) (ov : Bool) (t : Fin 64) (x : TblRegs) (key : List
      Byte) (go : Dev), ((op = .insert ∧ c = .tblInsert ∧ code = 1) ∨ (op = .ifAbsent ∧ c = .tblInsertIfAbsent ∧ code = 2)
      ∨ (op = .modify ∧ c = .tblModify ∧ code = 3) ∨ (op = .delete ∧ c = .tblDelete ∧ code = 4) ∨ (op = .lookup ∧
      c = .tblLookup ∧ code = 5)) ∧ s.reaches q 0xD800000 = true ∧ hasTblRegs q = true ∧
      x = mget {} s.dev.tblRegs (reqKey q) ∧ x.busy = false ∧ (op ≠ .lookup → s.dev.tableHeld (Fin.val t) = false ∧
      s.dev.ahead s.dev.accepted = false) ∧ key = ((List.range 14).map fun i => leBytes 4 (mget 0 x.key i).toNat).flatten ∧
      go =
      { s.dev with accepted := s.dev.accepted + 1, tblRegs := mupd {} s.dev.tblRegs (reqKey q) fun x => { x with cmd := word (BitVec.toNat ow * 2 ^ 16 + b2n ov * 2 ^ 15 + Fin.val t * 2 ^ 6 + code), busy := true, waiting := none, status := stPending, detail := 0 } }
      ∧ s.dev.engineReady = false) ∧
    (∃ (op : EntryOp) (c : Requester → BitVec 12 → Bool → Fin 64
      → Instr) (code : Nat) (s : State) (q : Requester) (ow : BitVec 12) (ov : Bool) (t : Fin 64) (x : TblRegs) (key : List
      Byte) (go : Dev) (plan : Plan), ((op = .insert ∧ c = .tblInsert ∧ code = 1) ∨ (op = .ifAbsent ∧ c = .tblInsertIfAbsent
      ∧ code = 2) ∨ (op = .modify ∧ c = .tblModify ∧ code = 3) ∨ (op = .delete ∧ c = .tblDelete ∧ code = 4) ∨ (op = .lookup
      ∧ c = .tblLookup ∧ code = 5)) ∧ s.reaches q 0xD800000 = true ∧ hasTblRegs q = true ∧
      x = mget {} s.dev.tblRegs (reqKey q) ∧ x.busy = false ∧ (op ≠ .lookup → s.dev.tableHeld (Fin.val t) = false ∧
      s.dev.ahead s.dev.accepted = false) ∧ key = ((List.range 14).map fun i => leBytes 4 (mget 0 x.key i).toNat).flatten ∧
      go =
      { s.dev with accepted := s.dev.accepted + 1, tblRegs := mupd {} s.dev.tblRegs (reqKey q) fun x => { x with cmd := word (BitVec.toNat ow * 2 ^ 16 + b2n ov * 2 ^ 15 + Fin.val t * 2 ^ 6 + code), busy := true, waiting := none, status := stPending, detail := 0 } }
      ∧ s.dev.engineReady = true ∧ exactKind (s.dev.gens.rules.kind t) = true ∧
      keyBad (s.dev.gens.rules.profileOf t) key = false ∧ ((op = .insert ∨ op = .ifAbsent) → s.dev.redefining t = false) ∧
      plan = planEntry op t (key.take (pKeyLen (s.dev.gens.rules.profileOf t))) ((List.range 2).map fun i => leBytes 4 (mget
      0 x.data i).toNat).flatten (if ov then some (BitVec.toNat ow) else none) none s.dev) ∧
    (∃ (s : State) (u : Update), s.dev.updates = [u]) ∧
    (∃ (s : State) (t : Fin 64), s.dev.gens.rules.kind (Fin.val t) ≠ 0) ∧
    (∃ (d e : Dev) (t place : Nat) (y : Entry), exactKind (d.gens.rules.kind t) = true ∧
      mfind (d.table t).ents place = some y ∧ e = freeTable t d) :=
  ⟨⟨.insert, .tblInsert, 1, on' (setReg 0xD801004 0 tables), .core 15, 0, false, 9, {}, _, _, by simp, by decide +kernel,
      by decide +kernel, by decide +kernel, by decide +kernel, by decide +kernel, rfl, rfl, by decide +kernel⟩,
   ⟨.insert, .tblInsert, 1, on' tables, .manager, 0, false, 9, {}, _, _, _, by simp, by decide +kernel, by decide +kernel,
      by decide +kernel, by decide +kernel, by decide +kernel, rfl, rfl, by decide +kernel, by decide +kernel,
      by decide +kernel, by decide +kernel, rfl⟩,
   ⟨on' { up with updates := [{ apply := 256, op := .commit }] }, { apply := 256, op := .commit }, by decide +kernel⟩,
   ⟨on' tables, 9, by decide +kernel⟩,
   ⟨{ tables with tables := [(9, { ents := [(5, entry1)] })] }, _, 9, 5, entry1, by decide +kernel, by decide +kernel, rfl⟩⟩

theorem wit_LpmInsertAndDelete :
    (∃ (s : State) (p : Read) (e : Exec) (b : List Byte) (t : Nat) (l : List Prefix) (x : Prefix),
      s.runs .manager 0x0307 p = some (e, b) ∧ t = byteAt b 0 ∧ clean (lpmFaults b s.dev) = true ∧
      s.dev.redefining t = false ∧ s.dev.tableHeld t = false ∧ l = (s.dev.tableWith t fun _ => true).prefixes ∧
      x = prefixOf (tKind (s.dev.gens.rules.table t)) b ∧ l.any (samePrefix x) = true) ∧
    (∃ (s : State) (p : Read) (e : Exec) (b : List Byte) (t : Nat) (l : List Prefix) (x : Prefix) (up down : List Prefix),
      s.runs .manager 0x0307 p = some (e, b) ∧ t = byteAt b 0 ∧ clean (lpmFaults b s.dev) = true ∧
      s.dev.redefining t = false ∧ s.dev.tableHeld t = false ∧ l = (s.dev.tableWith t fun _ => true).prefixes ∧
      x = prefixOf (tKind (s.dev.gens.rules.table t)) b ∧ l.any (samePrefix x) = false ∧
      (l.length + 1) * lpmRows (tKind (s.dev.gens.rules.table t)) ≤ tSize (s.dev.gens.rules.table t) * 1024 ∧
      up = l.takeWhile (fun y => y.len ≥ x.len) ∧ down = l.drop up.length) ∧
    (∃ (s : State) (p : Read) (e : Exec) (b : List Byte) (t : Nat) (l : List Prefix) (x : Prefix),
      s.runs .manager 0x0307 p = some (e, b) ∧ t = byteAt b 0 ∧ clean (lpmFaults b s.dev) = true ∧
      s.dev.redefining t = false ∧ s.dev.tableHeld t = false ∧ l = (s.dev.tableWith t fun _ => true).prefixes ∧
      x = prefixOf (tKind (s.dev.gens.rules.table t)) b ∧ l.any (samePrefix x) = false ∧
      tSize (s.dev.gens.rules.table t) * 1024 < (l.length + 1) * lpmRows (tKind (s.dev.gens.rules.table t))) ∧
    (∃ (s : State) (p : Read) (e : Exec) (b : List Byte) (t : Nat) (l : List Prefix) (x : Prefix) (i : Nat),
      s.runs .manager 0x0308 p = some (e, b) ∧ t = byteAt b 0 ∧ clean (lpmFaults b s.dev) = true ∧ s.dev.tableHeld t = false
      ∧ l = (s.dev.tableWith t fun _ => true).prefixes ∧ x = prefixOf (s.dev.gens.rules.kind t) b ∧
      l.findIdx? (samePrefix x) = some i) :=
  ⟨⟨run (.manager) (ex 0x307 0xFFFF 32) (updTable 10 (fun x => { x with prefixes := [pre8] }) tables), .ok lpmB,
      ex 0x307 0xFFFF 32, lpmB, 10, _, _, by decide +kernel, by decide +kernel, by decide +kernel, by decide +kernel,
      by decide +kernel, rfl, rfl, by decide +kernel⟩,
   ⟨run (.manager) (ex 0x307 0xFFFF 32) (tables), .ok lpmB, ex 0x307 0xFFFF 32, lpmB, 10, _, _, _, _, by decide +kernel,
      by decide +kernel, by decide +kernel, by decide +kernel, by decide +kernel, rfl, rfl, by decide +kernel,
      by decide +kernel, rfl, rfl⟩,
   ⟨run (.manager) (ex 0x307 0xFFFF 32) (updTable 10 (fun x =>
      { x with prefixes := List.replicate 1024 { pre8 with vrf := 1 } }) tables), .ok lpmB, ex 0x307 0xFFFF 32, lpmB, 10, _,
      _, by decide +kernel, by decide +kernel, by decide +kernel, by decide +kernel, by decide +kernel, rfl, rfl,
      by decide +kernel, by decide +kernel⟩,
   ⟨run (.manager) (ex 0x308 0xFFFF 32) (updTable 10 (fun x => { x with prefixes := [{ pre8 with vrf := 1 }, pre8] })
      tables), .ok lpmB, ex 0x308 0xFFFF 32, lpmB, 10, _, _, 1, by decide +kernel, by decide +kernel, by decide +kernel,
      by decide +kernel, rfl, rfl, by decide +kernel⟩⟩

theorem wit_AgingAndTableQuery :
    (∃ (s : State) (p : Read) (e : Exec) (b : List Byte) (t nb w : Nat) (l : List (Nat × Entry)) (x : List (Nat × Entry) ×
      Option Nat), s.runs .manager 0x0306 p = some (e, b) ∧ t = byteAt b 0 ∧ t ≤ 63 ∧
      exactKind (s.dev.gens.rules.kind t) = true ∧ byteAt b 1 ≤ 1 ∧ le b 2 2 ≤ 4095 ∧ 1 ≤ le b 4 2 ∧ le b 4 2 ≤ 32767 ∧
      2 ≤ le b 6 2 ∧ le b 6 2 ≤ 4096 ∧ nb = tSize (s.dev.gens.rules.table t) * 1024 ∧ le b 8 4 < nb + 1024 ∧
      zeroAt b 12 4 = true ∧ le b 16 8 % 64 = 0 ∧ w = min (nb + 1024) (le b 8 4 + 65536) ∧
      l = (s.dev.table t).ents.filter (fun x => le b 8 4 ≤ walkPos nb x.1 && walkPos nb x.1 < w && entryAge s.dev.time x.2 ≥
      le b 4 2 && (!bit (byteAt b 1) 0 || x.2.owner == some (le b 2 2))) ∧
      x = takeWalk nb (le b 6 2) ((l.map fun x => walkPos nb x.1).eraseDups) l 0) ∧
    (∃ (s : State) (p : Read) (e : Exec) (b : List Byte) (t : Nat) (df : List Byte), s.runs .manager 0x0309 p = some (e, b)
      ∧ t = byteAt b 0 ∧ t ≤ 63 ∧ byteAt b 1 = 0 ∧ byteAt b 2 = 0 ∧ byteAt b 3 = 0 ∧ df = s.dev.gens.rules.table t ∧
      s.dev.slice e.slice = none) ∧
    (∃ (s : State) (p : Read) (e : Exec) (b : List Byte) (t : Nat) (df : List Byte) (x : Slice),
      s.runs .manager 0x0309 p = some (e, b) ∧ t = byteAt b 0 ∧ t ≤ 63 ∧ byteAt b 1 = 0 ∧ byteAt b 2 = 0 ∧ byteAt b 3 = 0 ∧
      df = s.dev.gens.rules.table t ∧ s.dev.slice e.slice = some x) :=
  ⟨⟨run (.manager) (ex 0x306 0xFFFF 24) (tables), .ok (bs 24 [(0, 1, 9), (4, 2, 32767), (6, 2, 4096), (8, 4, 2047)]),
      ex 0x306 0xFFFF 24, (bs 24 [(0, 1, 9), (4, 2, 32767), (6, 2, 4096), (8, 4, 2047)]), 9, 1024, _, _, _,
      by decide +kernel, by decide +kernel, by decide +kernel, by decide +kernel, by decide +kernel, by decide +kernel,
      by decide +kernel, by decide +kernel, by decide +kernel, by decide +kernel, by decide +kernel, by decide +kernel,
      by decide +kernel, by decide +kernel, rfl, rfl, rfl⟩,
   ⟨run (.manager) (ex 0x309 0xFFFF 4) (tables), .ok [10, 0, 0, 0], ex 0x309 0xFFFF 4, [10, 0, 0, 0], 10, _,
      by decide +kernel, by decide +kernel, by decide +kernel, by decide +kernel, by decide +kernel, by decide +kernel, rfl,
      by decide +kernel⟩,
   ⟨run (.manager) (ex 0x309 5 4) (tables), .ok [10, 0, 0, 0], ex 0x309 5 4, [10, 0, 0, 0], 10, _, sl, by decide +kernel,
      by decide +kernel, by decide +kernel, by decide +kernel, by decide +kernel, by decide +kernel, rfl, by decide +kernel⟩⟩

theorem wit_GenerationsOpenCommitAndRetire :
    (∃ (s : State) (p : Read) (e : Exec) (b : List Byte), s.runs .manager 0x0401 p = some (e, b) ∧ byteAt b 0 = 0 ∧
      badBytes b 1 3 = none ∧ s.dev.gens.shadow = none ∧ s.dev.gens.committing = none) ∧
    (∃ (s : State) (p : Read) (e : Exec) (b : List Byte), s.runs .manager 0x0401 p = some (e, b) ∧ byteAt b 0 = 1 ∧
      badBytes b 1 3 = none ∧ s.dev.gens.shadow = none ∧ s.dev.gens.committing = none) ∧
    (∃ (s : State) (p : Read) (e : Exec) (b : List Byte) (x : RuleSet), s.runs .manager 0x0401 p = some (e, b) ∧
      byteAt b 0 = 2 ∧ badBytes b 1 3 = none ∧ s.dev.gens.shadow = some x) ∧
    (∃ (s : State) (p : Read) (e : Exec) (b : List Byte) (x : RuleSet) (a : Nat), s.runs .manager 0x0410 p = some (e, b) ∧
      s.dev.gens.shadow = some x ∧ (le b 0 2 = 0 ∨ le b 0 2 = s.dev.gens.current) ∧ badBytes b 2 6 = none ∧
      commitFault x = none ∧ s.dev.gens.draining = none ∧ a = s.dev.applyPoint 4000) ∧
    (∃ (d : Dev) (x : RuleSet), d.gens.committing = some x) ∧
    (∃ (s : State) (p : Read) (e : Exec) (b : List Byte), s.runs .manager 0x0411 p = some (e, b)) ∧
    (∃ (s : State) (n : Nat) (x : RuleSet) (a : Nat) (d : Dev), s.dev.gens.draining = some (n, x) ∧ s.dev.stamped n = 0 ∧
      a = max ((s.dev.time + 255) / 256 * 256) (s.dev.gens.applied + 256) ∧ d = timeTo a s.dev) :=
  ⟨⟨run (.manager) (ex 0x401 0xFFFF 4) (tables), .ok [0, 0, 0, 0], ex 0x401 0xFFFF 4, [0, 0, 0, 0], by decide +kernel,
      by decide +kernel, by decide +kernel, by decide +kernel, by decide +kernel⟩,
   ⟨run (.manager) (ex 0x401 0xFFFF 4) (tables), .ok [1, 0, 0, 0], ex 0x401 0xFFFF 4, [1, 0, 0, 0], by decide +kernel,
      by decide +kernel, by decide +kernel, by decide +kernel, by decide +kernel⟩,
   ⟨run (.manager) (ex 0x401 0xFFFF 4) (shadowed), .ok [2, 0, 0, 0], ex 0x401 0xFFFF 4, [2, 0, 0, 0], rules,
      by decide +kernel, by decide +kernel, by decide +kernel, by decide +kernel⟩,
   ⟨run (.manager) (ex 0x410 0xFFFF 8) (shadowed), .ok (bs 8 [(0, 2, 1)]), ex 0x410 0xFFFF 8, (bs 8 [(0, 2, 1)]), rules, _,
      by decide +kernel, by decide +kernel, by decide +kernel, by decide +kernel, by decide +kernel, by decide +kernel, rfl⟩,
   ⟨{ up with gens := { up.gens with committing := some rules } }, rules, by decide +kernel⟩,
   ⟨run (.manager) (ex 0x411 0xFFFF 0) (tables), .ok [], ex 0x411 0xFFFF 0, [], by decide +kernel⟩,
   ⟨on' { up with gens := { up.gens with draining := some (1, rules) } }, 1, rules, _, _, by decide +kernel,
      by decide +kernel, rfl, rfl⟩⟩

theorem wit_RuleSetCommandsWriteTheShadow :
    (∃ (s : State) (p : Read) (e : Exec) (b : List Byte) (x : RuleSet) (set : RuleSet → State), s.dev.gens.shadow = some x ∧
      (∀ y, set y = s.withDev (reply .manager stOk 0 [] { s.dev with gens := { s.dev.gens with shadow := some y } })) ∧
      s.runs .manager 0x0402 p = some (e, b) ∧ clean (profileFaults b) = true ∧
      mfind s.dev.gens.rules.profiles (byteAt b 0) = some b) ∧
    (∃ (s : State) (p : Read) (e : Exec) (b : List Byte) (x : RuleSet) (set : RuleSet → State), s.dev.gens.shadow = some x ∧
      (∀ y, set y = s.withDev (reply .manager stOk 0 [] { s.dev with gens := { s.dev.gens with shadow := some y } })) ∧
      s.runs .manager 0x0403 p = some (e, b) ∧ clean (bindFields b) = true ∧ clean (bindFaults b x) = true ∧
      s.dev.gens.rules.kind (byteAt b 0) = 0) ∧
    (∃ (s : State) (p : Read) (e : Exec) (b : List Byte) (x : RuleSet) (set : RuleSet → State), s.dev.gens.shadow = some x ∧
      (∀ y, set y = s.withDev (reply .manager stOk 0 [] { s.dev with gens := { s.dev.gens with shadow := some y } })) ∧
      s.runs .manager 0x0404 p = some (e, b) ∧ tcamKind (x.kind (byteAt b 0)) = true ∧ byteAt b 1 = 0 ∧
      le b 2 2 < perUnit (x.kind (byteAt b 0)) * tSize (x.table (byteAt b 0)) ∧ byteAt b 4 < 2 ∧ zeroAt b 5 3 = true ∧
      (x.kind (byteAt b 0) = 3 → zeroAt b 28 20 = true ∧ zeroAt b 68 20 = true)) ∧
    (∃ (s : State) (p : Read) (e : Exec) (b : List Byte) (x : RuleSet) (set : RuleSet → State), s.dev.gens.shadow = some x ∧
      (∀ y, set y = s.withDev (reply .manager stOk 0 [] { s.dev with gens := { s.dev.gens with shadow := some y } })) ∧
      s.runs .manager 0x0405 p = some (e, b) ∧ (∀ n, actionLen b = some n → e.plen = n) ∧ clean (actionFaults b) = true) ∧
    (∃ (s : State) (p : Read) (e : Exec) (b : List Byte) (x : RuleSet) (set : RuleSet → State), s.dev.gens.shadow = some x ∧
      (∀ y, set y = s.withDev (reply .manager stOk 0 [] { s.dev with gens := { s.dev.gens with shadow := some y } })) ∧
      s.runs .manager 0x0406 p = some (e, b) ∧ clean (encapFaults x b) = true) ∧
    (∃ (s : State) (p : Read) (e : Exec) (b : List Byte) (x : RuleSet) (set : RuleSet → State), s.dev.gens.shadow = some x ∧
      (∀ y, set y = s.withDev (reply .manager stOk 0 [] { s.dev with gens := { s.dev.gens with shadow := some y } })) ∧
      s.runs .manager 0x0407 p = some (e, b) ∧ portTwice b = none ∧ (∀ i < 4, byteAt b (32 + i) ≤ 2) ∧ byteAt b 36 < 64 ∧
      byteAt b 37 = 0 ∧ le b 38 2 ≤ 1024 ∧ zeroAt b 40 8 = true) ∧
    (∃ (s : State) (p : Read) (e : Exec) (b : List Byte) (x : RuleSet) (set : RuleSet → State), s.dev.gens.shadow = some x ∧
      (∀ y, set y = s.withDev (reply .manager stOk 0 [] { s.dev with gens := { s.dev.gens with shadow := some y } })) ∧
      s.runs .manager 0x0408 p = some (e, b) ∧ clean (patternFaults b) = true) ∧
    (∃ (s : State) (p : Read) (e : Exec) (b : List Byte) (x : RuleSet) (set : RuleSet → State), s.dev.gens.shadow = some x ∧
      (∀ y, set y = s.withDev (reply .manager stOk 0 [] { s.dev with gens := { s.dev.gens with shadow := some y } })) ∧
      s.runs .manager 0x0409 p = some (e, b) ∧ clean (policerProfileFaults b) = true) :=
  ⟨⟨run (.manager) (ex 0x402 0xFFFF 116) (shadowed), .ok prof2, ex 0x402 0xFFFF 116, prof2, rules, _, by decide +kernel,
      fun _ => rfl, by decide +kernel, by decide +kernel, by decide +kernel⟩,
   ⟨run (.manager) (ex 0x403 0xFFFF 24) (shadowed), .ok (putLe tab9 0 1 11 |> fun b => putLe b 4 2 2), ex 0x403 0xFFFF 24,
      (putLe tab9 0 1 11 |> fun b => putLe b 4 2 2), rules, _, by decide +kernel, fun _ => rfl, by decide +kernel,
      by decide +kernel, by decide +kernel, by decide +kernel⟩,
   ⟨run (.manager) (ex 0x404 0xFFFF 96) (shadowed), .ok tcamB, ex 0x404 0xFFFF 96, tcamB, rules, _, by decide +kernel,
      fun _ => rfl, by decide +kernel, by decide +kernel, by decide +kernel, by decide +kernel, by decide +kernel,
      by decide +kernel, by decide +kernel⟩,
   ⟨run (.manager) (ex 0x405 0xFFFF 16) (shadowed), .ok (bs 16 [(0, 1, 2), (2, 2, 159), (8, 2, 7)]), ex 0x405 0xFFFF 16,
      (bs 16 [(0, 1, 2), (2, 2, 159), (8, 2, 7)]), rules, _, by decide +kernel, fun _ => rfl, by decide +kernel,
      by decide +kernel, by decide +kernel⟩,
   ⟨run (.manager) (ex 0x406 0xFFFF 144) (shadowed), .ok (bs 144 [(0, 2, 16383)]), ex 0x406 0xFFFF 144, (bs 144 [(0, 2,
      16383)]), rules, _, by decide +kernel, fun _ => rfl, by decide +kernel, by decide +kernel⟩,
   ⟨run (.manager) (ex 0x407 0xFFFF 48) (shadowed), .ok (bs 48 [(0, 2, 4789), (38, 2, 1024)]), ex 0x407 0xFFFF 48,
      (bs 48 [(0, 2, 4789), (38, 2, 1024)]), rules, _, by decide +kernel, fun _ => rfl, by decide +kernel,
      by decide +kernel, by decide +kernel, by decide +kernel, by decide +kernel, by decide +kernel, by decide +kernel⟩,
   ⟨run (.manager) (ex 0x408 0xFFFF 80) (shadowed), .ok (bs 80 [(0, 2, 8191)]), ex 0x408 0xFFFF 80, (bs 80 [(0, 2, 8191)]),
      rules, _, by decide +kernel, fun _ => rfl, by decide +kernel, by decide +kernel⟩,
   ⟨run (.manager) (ex 0x409 0xFFFF 16) (shadowed), .ok (bs 16 [(0, 1, 255), (1, 1, 1), (2, 1, 2), (3, 1, 15)]),
      ex 0x409 0xFFFF 16, (bs 16 [(0, 1, 255), (1, 1, 1), (2, 1, 2), (3, 1, 15)]), rules, _, by decide +kernel,
      fun _ => rfl, by decide +kernel, by decide +kernel⟩⟩

theorem wit_ExceptionPolicyAndCounterCapture :
    (∃ (s : State) (r : Ring) (p : Read) (e : Exec) (b : List Byte) (o : Owner), s.runs r 0x0420 p = some (e, b) ∧
      cmdOwner r e = some o ∧ clean (excFaults b) = true ∧ (r = .manager → e.slice ≠ 0xFFFF) ∧ (le b 2 2 = 0xFFFF
      ∨ le b 2 2 < s.dev.queueQuota o)) ∧
    (∃ (s : State) (q : Requester), s.reaches q 0xD803100 = true ∧ trusted q = true) :=
  ⟨⟨run (.slice 5) (ex 0x420 5 12) (up), .slice 5, .ok (bs 12 [(2, 2, 7), (4, 1, 1)]), ex 0x420 5 12, (bs 12 [(2, 2, 7), (4,
      1, 1)]), .slice 5, by decide +kernel, by decide +kernel, by decide +kernel, by decide +kernel, by decide +kernel⟩,
   ⟨upS, .core 3, by decide +kernel, by decide +kernel⟩⟩

theorem wit_LearningRingWorks :
    (∃ (s : State) (p : Read) (e : Exec) (b : List Byte), s.runs .manager 0x0501 p = some (e, b) ∧ le b 0 8 % 4096 = 0 ∧
      8 ≤ byteAt b 8 ∧ byteAt b 8 ≤ 16 ∧ (∀ i < 6, byteAt b (10 + i) = 0) ∧ byteAt b 9 < 4 ∧ bit (byteAt b 9) 0 = true ∧
      s.dev.learn.ring.enable = false) ∧
    (∃ (s : State) (p : Read) (e : Exec) (b : List Byte), s.runs .manager 0x0501 p = some (e, b) ∧ le b 0 8 % 4096 = 0 ∧
      8 ≤ byteAt b 8 ∧ byteAt b 8 ≤ 16 ∧ (∀ i < 6, byteAt b (10 + i) = 0) ∧ byteAt b 9 < 4 ∧ bit (byteAt b 9) 0 = false) ∧
    (∃ (s : State) (p : Read) (e : Exec) (b : List Byte), s.runs .manager 0x0502 p = some (e, b) ∧ byteAt b 0 ≤ 63 ∧
      byteAt b 1 ≤ 63 ∧ bit (byteAt b 3) 0 = false ∧ byteAt b 2 ≤ 4 ∧ byteAt b 3 < 8 ∧ le b 4 4 ≤ 1000000 ∧ (∀ i < 4,
      byteAt b (28 + i) = 0)) ∧
    (∃ (s : State) (q : Requester) (v : Word) (p : Nat), s.reaches q 0xD803200 = true ∧ trusted q = true ∧
      headValid s.dev.learn.ring.n s.dev.learn.ring.head s.dev.learn.ring.wpos (wbits v 16 0) = some p) ∧
    (∃ (s : State) (q : Requester) (v : Word), s.reaches q 0xD803200 = true ∧ trusted q = true ∧
      headValid s.dev.learn.ring.n s.dev.learn.ring.head s.dev.learn.ring.wpos (wbits v 16 0) = none) ∧
    (∃ (s : State) (n : Fin 8) (x : List Byte) (l : List (List Byte)) (d : Dev), mget [] s.dev.learn.fifos n = x :: l ∧
      s.dev.learn.ring.enable = true ∧ s.dev.learn.ring.full = false ∧ s.dev.mgrMay = true ∧ byteAt x 8 ≠ 3 ∧
      d = ringWrites mgrWrite s.dev.learn.ring.base s.dev.learn.ring.n s.dev.learn.ring.wpos 128 x 127 s.dev) :=
  ⟨⟨run (.manager) (ex 0x501 0xFFFF 16) (up), .ok (bs 16 [(0, 8, 4096), (8, 1, 16), (9, 1, 1)]), ex 0x501 0xFFFF 16,
      (bs 16 [(0, 8, 4096), (8, 1, 16), (9, 1, 1)]), by decide +kernel, by decide +kernel, by decide +kernel,
      by decide +kernel, by decide +kernel, by decide +kernel, by decide +kernel, by decide +kernel⟩,
   ⟨run (.manager) (ex 0x501 0xFFFF 16) (up), .ok (bs 16 [(8, 1, 8)]), ex 0x501 0xFFFF 16, (bs 16 [(8, 1, 8)]),
      by decide +kernel, by decide +kernel, by decide +kernel, by decide +kernel, by decide +kernel, by decide +kernel,
      by decide +kernel⟩,
   ⟨run (.manager) (ex 0x502 0xFFFF 32) (up), .ok (bs 32 [(0, 1, 63), (1, 1, 63), (2, 1, 4), (4, 4, 1000000)]),
      ex 0x502 0xFFFF 32, (bs 32 [(0, 1, 63), (1, 1, 63), (2, 1, 4), (4, 4, 1000000)]), by decide +kernel,
      by decide +kernel, by decide +kernel, by decide +kernel, by decide +kernel, by decide +kernel, by decide +kernel,
      by decide +kernel⟩,
   ⟨upS, .core 3, 0, 0, by decide +kernel, by decide +kernel, by decide +kernel⟩,
   ⟨upS, .manager, 256, by decide +kernel, by decide +kernel, by decide +kernel⟩,
   ⟨on' { up with learn := { ring := { enable := true, log2 := 8 }, fifos := [(7, [bs 64 []])] } }, 7, bs 64 [], [], _,
      by decide +kernel, by decide +kernel, by decide +kernel, by decide +kernel, by decide +kernel, rfl⟩⟩

/-! ### Eyelets and free choices -/

/-- Where nothing is in use, the adapter picks what it draws. -/
theorem pickFree_first (n : Nat) (used : Nat → Bool) (d : Dev)
    (h : used ((Config.freeWord d.free).toNat % (n + 1)) = false) :
    pickFree (n + 1) used d = (some ((Config.freeWord d.free).toNat % (n + 1)), { d with free := d.free + 1 }) := by
  simp [pickFree, drawWord, List.range_succ_eq_map, h]

/-- Eyelet 7 of slice 5: 64 KiB that slice 5 itself may read and write. -/
def eye : Eyelet := { exporter := 5, win := some { base := 0x100000, len := 0x10000, perm := 3, importers := [5] } }
def eyed : Dev := { up with eyelets := [(7, eye)] }
def windowB : List Byte := bs 64 [(0, 8, 4096), (8, 8, 2 ^ 40), (16, 1, 3), (17, 1, 1), (24, 2, 5)]
/-- A transfer job of two segments on queue 2. -/
def xjob (w : Bool) : Xfer := { write := w, handle := 7, offset := 4095, len := 2 }
def xfering (x : Xfer) (d : Dev := eyed) : Dev :=
  qWith 2 (fun q => { q with xfer := some x, jobs := [{ descs := [bs 32 [(4, 4, 2), (8, 8, 0x200000)]], last := 0 }] }) d
def seg0 : Seg := { idx := 0, bytes := 1 }

theorem wit_ContextsAndPlacementTables :
    (∃ (s : State) (p : Read) (e : Exec) (b : List Byte) (c : Nat) (o : List Byte × Bool × Dev) (d : Dev) (y : List Byte),
      c = le b 0 3 ∧ byteAt b 3 = 0 ∧ s.dev.plOn (homePl c) = true ∧ s.dev.ctxHeld c = false ∧
      o = readCtx c (ctxUse c s.dev) ∧ s.runs .manager 0x0601 p = some (e, b) ∧ clean (contextFaults b) = true ∧
      (bit (byteAt b 4) 0 = true → o.2.1 = false ∧ cxType o.1 = cxType (bytesAt b 8 256)) ∧
      d = (if bit (byteAt b 4) 0 then o.2.2 else stopPlacement c o.1 o.2.2) ∧
      y = ctxAfterWrite o.1 (bytesAt b 8 256) (bit (byteAt b 4) 0) (o.2.2.ctxOwner c)) ∧
    (∃ (s : State) (p : Read) (e : Exec) (b : List Byte) (c : Nat) (o : List Byte × Bool × Dev), c = le b 0 3 ∧
      byteAt b 3 = 0 ∧ s.dev.plOn (homePl c) = true ∧ s.dev.ctxHeld c = false ∧ o = readCtx c (ctxUse c s.dev) ∧
      s.runs .manager 0x0602 p = some (e, b) ∧ (∀ i < 4, byteAt b (4 + i) = 0) ∧ le b 8 8 % 64 = 0 ∧ o.2.1 = false) ∧
    (∃ (s : State) (p : Read) (e : Exec) (b : List Byte) (c : Nat) (o : List Byte × Bool × Dev) (k : Nat), c = le b 0 3 ∧
      byteAt b 3 = 0 ∧ s.dev.plOn (homePl c) = true ∧ s.dev.ctxHeld c = false ∧ o = readCtx c (ctxUse c s.dev) ∧
      s.runs .manager 0x0603 p = some (e, b) ∧ (∀ i < 4, byteAt b (4 + i) = 0) ∧ (∀ i < 4, byteAt b (52 + i) = 0) ∧
      o.2.1 = false ∧ (cxType o.1 = 1 ∨ cxType o.1 = 2) ∧ cxSeq o.1 < le b 8 8 ∧ cxSwitching o.1 = false ∧
      k = 1 - byteAt o.1 24 % 2) ∧
    (∃ (s : State) (r : Ring) (p : Read) (e : Exec) (b : List Byte) (x : Slice) (c : Nat) (o : List Byte × Bool × Dev),
      r ≠ .manager ∧ s.dev.slice e.slice = some x ∧ byteAt b 3 = 0 ∧ le b 0 3 < x.cLen ∧ c = x.cBase + le b 0 3 ∧
      s.dev.plOn (homePl c) = true ∧ s.dev.ctxHeld c = false ∧ o = readCtx c (ctxUse c s.dev) ∧ o.2.1 = false ∧
      cxType o.1 = 3 ∧ (∀ i < 4, byteAt b (4 + i) = 0) ∧ s.runs r 0x0701 p = some (e, b) ∧ o.2.2.ptValid c o.1 = false ∧
      le b 8 8 % 64 = 0 ∧ byteAt b 16 ≤ 16 ∧ (∀ i < 7, byteAt b (17 + i) = 0)) ∧
    (∃ (s : State) (r : Ring) (p : Read) (e : Exec) (b : List Byte) (x : Slice) (c : Nat) (o : List Byte × Bool × Dev),
      r ≠ .manager ∧ s.dev.slice e.slice = some x ∧ byteAt b 3 = 0 ∧ le b 0 3 < x.cLen ∧ c = x.cBase + le b 0 3 ∧
      s.dev.plOn (homePl c) = true ∧ s.dev.ctxHeld c = false ∧ o = readCtx c (ctxUse c s.dev) ∧ o.2.1 = false ∧
      cxType o.1 = 3 ∧ (∀ i < 4, byteAt b (4 + i) = 0) ∧ s.runs r 0x0702 p = some (e, b) ∧ o.2.2.ptValid c o.1 = true) :=
  ⟨⟨run (.manager) (ex 0x601 0xFFFF 264) (up), .ok (bs 264 [(0, 3, 0xFFFFFF)]), ex 0x601 0xFFFF 264, (bs 264 [(0, 3,
      0xFFFFFF)]), 0xFFFFFF, _, _, _, by decide +kernel, by decide +kernel, by decide +kernel, by decide +kernel, rfl,
      by decide +kernel, by decide +kernel, by decide +kernel, rfl, rfl⟩,
   ⟨run (.manager) (ex 0x602 0xFFFF 16) (up), .ok (bs 16 [(0, 3, 5), (8, 8, 64)]), ex 0x602 0xFFFF 16, (bs 16 [(0, 3, 5),
      (8, 8, 64)]), 5, _, by decide +kernel, by decide +kernel, by decide +kernel, by decide +kernel, rfl,
      by decide +kernel, by decide +kernel, by decide +kernel, by decide +kernel⟩,
   ⟨run (.manager) (ex 0x603 0xFFFF 56) (writeCtx 5 (bs 256 [(0, 1, 1)]) up), .ok (bs 56 [(0, 3, 5), (8, 8, 1)]),
      ex 0x603 0xFFFF 56, (bs 56 [(0, 3, 5), (8, 8, 1)]), 5, _, _, by decide +kernel, by decide +kernel, by decide +kernel,
      by decide +kernel, rfl, by decide +kernel, by decide +kernel, by decide +kernel, by decide +kernel, by decide +kernel,
      by decide +kernel, by decide +kernel, rfl⟩,
   ⟨run (.slice 5) (ex 0x701 5 24) (writeCtx 63 (bs 256 [(0, 1, 3)]) up), .slice 5, .ok (bs 24 [(0, 3, 63), (8, 8, 64), (16,
      1, 16)]), ex 0x701 5 24, (bs 24 [(0, 3, 63), (8, 8, 64), (16, 1, 16)]), sl, 63, _, by decide +kernel,
      by decide +kernel, by decide +kernel, by decide +kernel, by decide +kernel, by decide +kernel, by decide +kernel, rfl,
      by decide +kernel, by decide +kernel, by decide +kernel, by decide +kernel, by decide +kernel, by decide +kernel,
      by decide +kernel, by decide +kernel⟩,
   ⟨run (.function 3) (ex 0x702 5 8) (writeCtx 63 (bs 256 [(0, 1, 3), (105, 1, 1)]) up), .function 3, .ok (bs 8 [(0, 3,
      63)]), ex 0x702 5 8, (bs 8 [(0, 3, 63)]), sl, 63, _, by decide +kernel, by decide +kernel, by decide +kernel,
      by decide +kernel, by decide +kernel, by decide +kernel, by decide +kernel, rfl, by decide +kernel, by decide +kernel,
      by decide +kernel, by decide +kernel, by decide +kernel⟩⟩

theorem wit_EyeletCommandsRewriteWindows :
    (∃ (s : State) (r : Ring) (p : Read) (e : Exec) (b : List Byte) (h : Nat) (d : Dev), s.runs r 0x0801 p = some (e, b) ∧
      e.slice < 4096 ∧ clean (windowFaults true b) = true ∧ clean (importerFaults b s.dev) = true ∧
      (s.dev.eyeletsOf e.slice).length < ((s.dev.slice e.slice).map (·.eyelets)).getD 0 ∧ nextHandle s.dev = (some h, d)) ∧
    (∃ (s : State) (r : Ring) (p : Read) (e : Exec) (b : List Byte) (y : Eyelet), s.runs r 0x0802 p = some (e, b) ∧
      e.slice < 4096 ∧ s.dev.eyelet (le b 18 2) = some y ∧ y.exporter = e.slice ∧ y.rewrite = none ∧
      clean (windowFaults false b) = true ∧ clean (importerFaults b s.dev) = true) ∧
    (∃ (s : State) (r : Ring) (p : Read) (e : Exec) (b : List Byte) (y : Eyelet), s.runs r 0x0803 p = some (e, b) ∧
      e.slice < 4096 ∧ s.dev.eyelet (le b 0 2) = some y ∧ y.exporter = e.slice ∧ y.rewrite = none ∧ zeroAt b 2 2 = true) ∧
    (∃ (s : State) (r : Ring) (p : Read) (e : Exec) (b : List Byte) (y : Eyelet) (w : Window), s.runs r 0x0804 p = some (e,
      b) ∧ e.slice < 4096 ∧ s.dev.eyelet (le b 0 2) = some y ∧ y.exporter = e.slice ∧ zeroAt b 2 6 = true ∧
      le b 8 8 % 64 = 0 ∧ w = y.win.getD { base := 0, len := 0, perm := 0, importers := [] }) ∧
    (∃ (s : State) (h : Fin 65536) (y : Eyelet) (w : Rewrite) (r : Ring), s.dev.eyelet h = some y ∧ y.rewrite = some w ∧
      w.applied = true ∧ w.flush = false ∧ (∀ x ∈ y.flight, x.old = false) ∧ w.ring = some r ∧ w.withdraw = false) ∧
    (∃ (s : State) (h : Fin 65536) (y : Eyelet) (w : Rewrite) (r : Ring) (d : Dev), s.dev.eyelet h = some y ∧
      y.rewrite = some w ∧ w.applied = true ∧ w.flush = false ∧ (∀ x ∈ y.flight, x.old = false) ∧ w.ring = some r ∧
      w.withdraw = true ∧ d = reply r stOk 0 [h.val, 0, 0, 0, lo32 y.apply, hi32 y.apply] s.dev) :=
  ⟨⟨run (.slice 5) (ex 0x801 5 64) up, .slice 5, .ok windowB, ex 0x801 5 64, windowB, _, _, by decide +kernel,
      by decide +kernel, by decide +kernel, by decide +kernel, by decide +kernel, pickFree_first 65535 _ _ rfl⟩,
   ⟨run (.slice 5) (ex 0x802 5 64) (eyed), .slice 5, .ok (putLe windowB 18 2 7), ex 0x802 5 64, (putLe windowB 18 2 7), eye,
      by decide +kernel, by decide +kernel, by decide +kernel, by decide +kernel, by decide +kernel, by decide +kernel,
      by decide +kernel⟩,
   ⟨run (.slice 5) (ex 0x803 5 4) (eyed), .slice 5, .ok (bs 4 [(0, 2, 7)]), ex 0x803 5 4, (bs 4 [(0, 2, 7)]), eye,
      by decide +kernel, by decide +kernel, by decide +kernel, by decide +kernel, by decide +kernel, by decide +kernel⟩,
   ⟨run (.manager) (ex 0x804 5 16) (eyed), .manager, .ok (bs 16 [(0, 2, 7), (8, 8, 64)]), ex 0x804 5 16, (bs 16 [(0, 2, 7),
      (8, 8, 64)]), eye, _, by decide +kernel, by decide +kernel, by decide +kernel, by decide +kernel, by decide +kernel,
      by decide +kernel, rfl⟩,
   ⟨on' { up with eyelets := [(7, { eye with rewrite := some { ring := some .manager, applied := true } })] }, 7,
      { eye with rewrite := some { ring := some .manager, applied := true } }, { ring := some .manager, applied := true },
      .manager, by decide +kernel, by decide +kernel, by decide +kernel, by decide +kernel, by decide +kernel,
      by decide +kernel, by decide +kernel⟩,
   ⟨on'
      { up with eyelets := [(65535, { eye with rewrite := some { ring := some .manager, applied := true, withdraw := true } })] },
      65535, { eye with rewrite := some { ring := some .manager, applied := true, withdraw := true } },
      { ring := some .manager, applied := true, withdraw := true }, .manager, _, by decide +kernel, by decide +kernel,
      by decide +kernel, by decide +kernel, by decide +kernel, by decide +kernel, by decide +kernel, rfl⟩⟩

theorem wit_EyeletSegmentsRun :
    (∃ (s : State) (k : Fin 4096) (q : Nat) (y : Queue) (x : Xfer) (st : Nat) (n : Xfer), s.dev.queue (.slice k) q = some y
      ∧ y.job = some x ∧ s.dev.mayStart (.slice k) y = true ∧ x.failed = false ∧ x.flushing = false ∧ x.next < x.count ∧
      x.open_ < 16 ∧ s.dev.segsOnDie (dieOfLink (s.dev.fnOf (.slice k))) < 1024 ∧
      n =
      { x with next := x.next + 1, segs := x.segs ++ [ { idx := x.next, bytes := x.hi x.next - x.lo x.next, base := (((s.dev.eyelet x.handle).bind (·.win)).map (·.base)).getD 0 }] }
      ∧ segCheck k n x.next s.dev = some st) ∧
    (∃ (s : State) (k : Fin 4096) (q : Nat) (y : Queue) (x n : Xfer) (eye : Eyelet) (w : Window) (src : Owner) (at' : List
      (Nat × Nat)) (t : Nat) (d : Dev), s.dev.queue (.slice k) q = some y ∧ y.job = some x ∧
      s.dev.mayStart (.slice k) y = true ∧ x.failed = false ∧ x.flushing = false ∧ x.next < x.count ∧ x.open_ < 16 ∧
      s.dev.segsOnDie (dieOfLink (s.dev.fnOf (.slice k))) < 1024 ∧ s.dev.eyelet x.handle = some eye ∧ eye.win = some w ∧
      n =
      { x with next := x.next + 1, segs := x.segs ++ [{ idx := x.next, bytes := x.hi x.next - x.lo x.next, base := w.base }] }
      ∧ segCheck k n x.next s.dev = none ∧ src = (if x.write then .slice k else .slice (fin 4096 eye.exporter)) ∧
      at' = (if x.write then localPieces (y.jobs.headD { descs := [], last := 0 }).descs (x.lo x.next - x.offset) (x.hi
      x.next - x.lo x.next) else [(w.base + x.lo x.next, x.hi x.next - x.lo x.next)]) ∧
      t = (s.dev.fn (s.dev.fnOf src)).nextTag ∧ d = each at' (fun a => hostRead (s.dev.fnOf src) (s.dev.pasidOf src) a.1 a.2
      t) (newTag (s.dev.fnOf src) (.segment (.slice k) q x.next) (s.dev.pasidOf src) (updEyelet x.handle (fun e =>
      { e with flight := e.flight ++ [{ q := qKey (.slice k) q, seg := x.next, write := x.write }] }) (updQueue (.slice k) q
      (fun y => { y with xfer := some { n with exporter := some eye.exporter } }) s.dev))) ∧
      takeDenied (s.dev.fnOf src) t d = none) ∧
    (∃ (s : State) (o : Owner) (q k : Nat) (y : Queue) (x : Xfer) (sg : Seg) (src : Nat), s.dev.queue o q = some y ∧
      y.xfer = some x ∧ x.segs.find? (fun s => s.idx == k && s.status.isNone && s.landing.isNone) = some sg ∧
      src = (if x.write then s.dev.fnOf o else s.dev.fnOf (.slice (fin 4096 (x.exporter.getD 0)))) ∧
      (s.dev.fn src).reads.any (·.purpose == .segment o q k) = true) ∧
    (∃ (s : State) (o : Owner) (q k : Nat) (y : Queue) (x : Xfer) (sg : Seg) (src : Nat) (d : Dev), s.dev.queue o q = some y
      ∧ y.xfer = some x ∧ x.segs.find? (fun s => s.idx == k && s.status.isNone && s.landing.isNone) = some sg ∧
      src = (if x.write then s.dev.fnOf o else s.dev.fnOf (.slice (fin 4096 (x.exporter.getD 0)))) ∧
      (s.dev.fn src).reads.any (·.purpose == .segment o q k) = true ∧ d = dropReads src (.segment o q k) s.dev) ∧
    (∃ (o : Owner) (q k : Nat) (d : Dev) (x : Xfer) (f : Nat), (d.queue o q).bind (·.xfer) = some x ∧
      f = (if x.write then d.fnOf (.slice (fin 4096 (x.exporter.getD 0))) else d.fnOf o) ∧
      (d.fn f).waits (.seg (qKey o q) k) = false) ∧
    (∃ (s : State) (f : Fin 32) (tag : Nat), s.dev.flushOpen f tag = true) :=
  ⟨⟨on' (xfering (xjob true) up), 5, 2,
      { xfQ with xfer := some (xjob true), jobs := [{ descs := [bs 32 [(4, 4, 2), (8, 8, 0x200000)]], last := 0 }] },
      xjob true, stNotFound, _, by decide +kernel, by decide +kernel, by decide +kernel, by decide +kernel,
      by decide +kernel, by decide +kernel, by decide +kernel, by decide +kernel, rfl, by decide +kernel⟩,
   ⟨on' (xfering (xjob true)), 5, 2,
      { xfQ with xfer := some (xjob true), jobs := [{ descs := [bs 32 [(4, 4, 2), (8, 8, 0x200000)]], last := 0 }] },
      xjob true, _, eye, { base := 0x100000, len := 0x10000, perm := 3, importers := [5] }, _, _, _, _, by decide +kernel,
      by decide +kernel, by decide +kernel, by decide +kernel, by decide +kernel, by decide +kernel, by decide +kernel,
      by decide +kernel, by decide +kernel, by decide +kernel, rfl, by decide +kernel, rfl, rfl, rfl, rfl, by decide +kernel⟩,
   ⟨on' (fnWith (fun x => { x with reads := [{ tag := 0, purpose := .segment (.slice 5) 2 0 }] }) (xfering
      { xjob false with segs := [seg0], next := 1, exporter := some 5 })), .slice 5, 2, 0,
      { xfQ with xfer := some ({ xjob false with segs := [seg0], next := 1, exporter := some 5 }), jobs := [{ descs := [bs 32 [(4, 4, 2), (8, 8, 0x200000)]], last := 0 }] },
      { xjob false with segs := [seg0], next := 1, exporter := some 5 }, seg0, _, by decide +kernel, by decide +kernel,
      by decide +kernel, rfl, by decide +kernel⟩,
   ⟨on' (fnWith (fun x => { x with reads := [{ tag := 0, purpose := .segment (.slice 5) 2 0 }] }) (xfering
      { xjob false with segs := [seg0], next := 1, exporter := some 5 })), .slice 5, 2, 0,
      { xfQ with xfer := some ({ xjob false with segs := [seg0], next := 1, exporter := some 5 }), jobs := [{ descs := [bs 32 [(4, 4, 2), (8, 8, 0x200000)]], last := 0 }] },
      { xjob false with segs := [seg0], next := 1, exporter := some 5 }, seg0, _, _, by decide +kernel, by decide +kernel,
      by decide +kernel, rfl, by decide +kernel, rfl⟩,
   ⟨.slice 5, 2, 0, xfering { xjob false with segs := [seg0], next := 1, exporter := some 5 },
      { xjob false with segs := [seg0], next := 1, exporter := some 5 }, _, by decide +kernel, rfl, by decide +kernel⟩,
   ⟨on' (fnWith fun x => { x with reads := [{ tag := 9, purpose := .flush (some 7) [] }] }), 3, 9, by decide +kernel⟩⟩

theorem wit_CreditSettingsTakeEffectAtBoundaries :
    (∃ (s : State) (p : Read) (e : Exec) (b : List Byte) (k : Nat) (d : Dev) (i : Nat) (l : List Nat),
      s.runs .manager 0x0901 p = some (e, b) ∧ clean (policerFaults b) = true ∧ drawStaging s.dev = (k, d) ∧
      ((s.dev.slice e.slice = none ∧ le b 0 4 < 262144 ∧ i = le b 0 4) ∨ (∃ x, s.dev.slice e.slice = some x ∧
      le b 0 4 < x.pLen ∧ i = x.pBase + le b 0 4)) ∧ l = [byteAt b 4 % 2, byteAt b 5, le b 8 4, le b 12 4, le b 16 4,
      le b 20 4, byteAt b 4 / 2 % 2, boundary 1024 (s.dev.time + k)]) ∧
    (∃ (s : State) (p : Nat) (l : List Nat) (r : Ring), p < 262144 ∧ (s.dev.policer p).staged = some (l, r)) ∧
    (∃ (s : State) (p : Nat), p < 262144 ∧ (s.dev.policer p).staged = none) ∧
    (∃ (p : Nat) (d : Dev) (l : List Nat) (r : Ring), (d.policer p).staged = some (l, r) ∧ l.getD 7 0 ≤ d.time) ∧
    (∃ (s : State) (p : Read) (e : Exec) (b : List Byte) (k : Nat) (d : Dev) (n : NodeId) (l : List Byte),
      s.runs .manager 0x0902 p = some (e, b) ∧ clean (nameFaults e b) = true ∧ clean (nodeFaults b) = true ∧
      nodeAnswer e b s.dev = none ∧ (byteAt b 6 % 4 ≠ 0 → le b 4 2 ≠ 0xFFFF ∧ byteAt b 6 % 4 ≠ 3) ∧ n = nodeNamed e.slice b
      ∧ drawStaging s.dev = (k, d) ∧ l = padTo 48 b ++ leBytes 8 (boundary (nodeInterval n) (s.dev.time + k))) ∧
    (∃ (s : State) (n : NodeId) (b : List Byte) (r : Ring), (s.dev.node n).staged = some (b, r)) ∧
    (∃ (s : State) (n : NodeId), (s.dev.node n).staged = none) ∧
    (∃ (s : State) (k : Fin 4096) (n : Fin 256) (r : Ring) (t : Nat), (s.dev.node (.slice k n)).unbinding = some (some r, t)
      ∧ s.dev.waiting (.slice k n) = []) ∧
    (∃ (s : State) (p : Read) (e : Exec) (b : List Byte) (n : NodeId) (d : Dev), s.runs .manager 0x0903 p = some (e, b) ∧
      clean (nameFaults e b) = true ∧ badBytes b 6 2 = none ∧ nodeAnswer e (padTo 48 (b.take 6)) s.dev = none ∧
      n = nodeNamed e.slice b ∧ d = nodeSettle n s.dev) :=
  ⟨⟨run (.manager) (ex 0x901 0xFFFF 24) (up), .ok (bs 24 [(0, 4, 15), (4, 1, 3), (8, 4, 800000), (12, 4, 800000), (16, 4,
      64), (20, 4, 268435456)]), ex 0x901 0xFFFF 24, (bs 24 [(0, 4, 15), (4, 1, 3), (8, 4, 800000), (12, 4, 800000), (16, 4,
      64), (20, 4, 268435456)]), _, _, 15, _, by decide +kernel, by decide +kernel, rfl,
      .inl ⟨by decide +kernel, by decide +kernel, by decide +kernel⟩, rfl⟩,
   ⟨on' { up with policers := [(262143, { staged := some ([1, 0, 8, 8, 64, 64, 0, 1024], .manager) })] }, 262143, [1, 0, 8,
      8, 64, 64, 0, 1024], .manager, by decide +kernel, by decide +kernel⟩,
   ⟨upS, 0, by decide +kernel, by decide +kernel⟩,
   ⟨262143,
      { { up with policers := [(262143, { staged := some ([1, 0, 8, 8, 64, 64, 0, 1024], .manager) })] } with time := 1024 },
      [1, 0, 8, 8, 64, 64, 0, 1024], .manager, by decide +kernel, by decide +kernel⟩,
   ⟨run (.manager) (ex 0x902 0xFFFF 48) (up), .ok (bs 48 [(2, 2, 171), (12, 4, 800000), (20, 4, 64), (24, 1, 1)]),
      ex 0x902 0xFFFF 48, (bs 48 [(2, 2, 171), (12, 4, 800000), (20, 4, 64), (24, 1, 1)]), _, _, _, _, by decide +kernel,
      by decide +kernel, by decide +kernel, by decide +kernel, by decide +kernel, rfl, rfl, rfl⟩,
   ⟨on' { up with nodes := [(nodeKey (.port 171), { staged := some (bs 56 [], .manager) })] }, .port 171, bs 56 [],
      .manager, by decide +kernel⟩,
   ⟨upS, .port 0, by decide +kernel⟩,
   ⟨on' { up with nodes := [(nodeKey (.slice 5 3), { unbinding := some (some .manager, 1024) })] }, 5, 3, .manager, 1024,
      by decide +kernel, by decide +kernel⟩,
   ⟨run (.manager) (ex 0x903 0xFFFF 8) (up), .ok (bs 8 [(2, 2, 171)]), ex 0x903 0xFFFF 8, (bs 8 [(2, 2, 171)]), _, _,
      by decide +kernel, by decide +kernel, by decide +kernel, by decide +kernel, rfl, rfl⟩⟩

theorem wit_ScrubsAndTestRegistersActOnWords :
    (∃ (s : State) (p : Read) (e : Exec) (b : List Byte) (m : Nat) (x : Scrub), s.runs .manager 0x0B01 p = some (e, b) ∧
      m = byteAt b 0 ∧ zeroAt b 1 7 = true ∧ scrubFault m (le b 8 8) (le b 16 8) = none ∧ mfind s.dev.scrubs m = none ∧
      x = { start := le b 8 8, len := le b 16 8, began := s.dev.time, ring := some .manager }) ∧
    (∃ (s : State) (q : Requester) (v : Word) (m : Nat) (d : Dev), s.reaches q 0xE002000 = true ∧ managerOr03 q = true ∧
      s.dev.scrubBusy = false ∧ v.getLsbD 31 = true ∧ m = wbits v 3 0 ∧
      d = setReg 0xE00202C 0 (setReg64 0xE002024 (2 ^ 64 - 1) (setReg 0xE002020 0 (setReg 0xE00201C 0 (setReg 0xE002018 0
      (setReg 0xE002000 (word m) s.dev))))) ∧ scrubFault m (d.reg64 0xE002008) (d.reg64 0xE002010) = none ∧
      mfind d.scrubs m = none) ∧
    (∃ (s : State) (m : Fin 12) (x : Scrub) (r : Ring) (n : Nat) (d : Dev) (w : ScrubSum × Dev),
      mfind s.dev.scrubs m = some x ∧ x.ring = some r ∧ n = scrubWords m x.start x.len ∧
      d = timeTo (x.began + scrubTime m (8 * n)) s.dev ∧ w = scrubWalk m (d.dirtyWords m x.start x.len)
      { d with scrubs := mdel d.scrubs m }) ∧
    (∃ (s : State) (q : Requester) (m o : Nat), s.reaches q 0xE003018 = true ∧ managerOr03 q = true ∧
      m = s.dev.fld 0xE003000 3 0 ∧ o = s.dev.reg64 0xE003004 ∧ o % 8 = 0 ∧ o < memSize m ∧ (s.nv.fieldLock = true
      → inTest m o = true)) ∧
    (∃ (s : State) (q : Requester) (m o : Nat) (r : EccRead), s.reaches q 0xE003018 = true ∧ managerOr03 q = true ∧
      m = s.dev.fld 0xE003000 3 0 ∧ o = s.dev.reg64 0xE003004 ∧ o % 8 = 0 ∧ o < memSize m ∧ (s.nv.fieldLock = true
      → inTest m o = true) ∧ r = eccJudge (s.dev.rawWord m o).1 (s.dev.rawWord m o).2) :=
  ⟨⟨run (.manager) (ex 0xB01 0xFFFF 24) (up), .ok (bs 24 [(0, 1, 11), (8, 8, 17179869176), (16, 8, 8)]), ex 0xB01 0xFFFF 24,
      (bs 24 [(0, 1, 11), (8, 8, 17179869176), (16, 8, 8)]), 11, _, by decide +kernel, by decide +kernel, by decide +kernel,
      by decide +kernel, by decide +kernel, rfl⟩,
   ⟨on' (setRegs [(0xE002010, 8)] up), .core 3, 0x80000000, 0, _, by decide +kernel, by decide +kernel, by decide +kernel,
      by decide +kernel, by decide +kernel, rfl, by decide +kernel, by decide +kernel⟩,
   ⟨on' { up with scrubs := [(0, { start := 0, len := 8, began := 0, ring := some .manager })] }, 0,
      { start := 0, len := 8, began := 0, ring := some .manager }, .manager, _, _, _, by decide +kernel, by decide +kernel,
      rfl, rfl, rfl⟩,
   ⟨on' (setRegs [(0xE003004, 0x0BFFFFF8)] up), .manager, 0, _, by decide +kernel, by decide +kernel, by decide +kernel,
      rfl, by decide +kernel, by decide +kernel, by decide +kernel⟩,
   ⟨on' (setRegs [(0xE003000, 7), (0xE003004, 0x9FFFF8)] up), .core 0, 7, _, _, by decide +kernel, by decide +kernel,
      by decide +kernel, rfl, by decide +kernel, by decide +kernel, by decide +kernel, rfl⟩⟩

theorem wit_FlipSpareAndCommitRepair :
    (∃ (s : State) (q : Requester) (v : Word), s.reaches q 0xE00310C = true ∧ managerOr03 q = true ∧ (s.nv.fieldLock = true
      → v.getLsbD 30 = false)) ∧
    (∃ (s : State) (q : Requester) (v : Word), s.reaches q 0xE00310C = true ∧ managerOr03 q = true ∧ s.nv.fieldLock = true ∧
      v.getLsbD 30 = true) ∧
    (∃ (s : State) (q : Requester) (m : Fin 16) (u : Nat) (d : Dev), s.reaches q 0xE004000 = true ∧ managerOr03 q = true ∧
      d = setReg 0xE004000 (word (2 ^ 31 + 0x100 + m) &&& 0x30F) s.dev ∧ u = d.reg64 0xE004004 ∧ u < memSize m ∧
      repaired s.nv d m u = false ∧ d.volatileUsed m < volatileCap m) ∧
    (∃ (s : State) (q : Requester) (m : Fin 16) (u : Nat) (d : Dev), s.reaches q 0xE004000 = true ∧ managerOr03 q = true ∧
      d = setReg 0xE004000 (word (2 ^ 31 + 0x200 + m) &&& 0x30F) s.dev ∧ u = d.reg64 0xE004004 ∧ u < memSize m ∧
      repaired s.nv d m u = true ∧ committedAt s.nv d m u = false) ∧
    (∃ (s : State) (p : Read) (bads : List Nat) (e : Exec) (b : List Byte) (m : Nat) (x : (Nat × Nat × Nat) × Nv × Dev),
      s.runs .manager 0x0B02 p = some (e, b) ∧ m = byteAt b 0 ∧ m ≤ 11 ∧ zeroAt b 1 3 = true ∧
      x = commitAll m bads (s.dev.repairs.filter fun y => y.mem == m && !y.committed) 0 (s.nv, s.dev)) :=
  ⟨⟨{ nv := { fieldLock := true }, dev := up }, .manager, 0x80000000, by decide +kernel, by decide +kernel,
      by decide +kernel⟩,
   ⟨{ nv := { fieldLock := true }, dev := up }, .core 0, 0xC0000000, by decide +kernel, by decide +kernel,
      by decide +kernel, by decide +kernel⟩,
   ⟨on' (setRegs [(0xE004004, 0x0BFFFC00)] up), .manager, 3, _, _, by decide +kernel, by decide +kernel, rfl, rfl,
      by decide +kernel, by decide +kernel, by decide +kernel⟩,
   ⟨on' { setRegs [(0xE004004, 1024)] up with repairs := [{ mem := 11, unit := 1024 }] }, .core 3, 11, _, _,
      by decide +kernel, by decide +kernel, rfl, rfl, by decide +kernel, by decide +kernel, by decide +kernel⟩,
   ⟨run (.manager) (ex 0xB02 0xFFFF 4) ({ up with repairs := [{ mem := 11, unit := 1024 }] }), .ok [11, 0, 0, 0], [0, 15],
      ex 0xB02 0xFFFF 4, [11, 0, 0, 0], 11, _, by decide +kernel, by decide +kernel, by decide +kernel, by decide +kernel,
      rfl⟩⟩

theorem wit_StoredWordsAreCheckedAndCorrected :
    (∃ (w : Nat), w < 2 ^ 64) ∧
    (∃ (w i : Nat), w < 2 ^ 64 ∧ i < 64) ∧
    (∃ (w j : Nat), w < 2 ^ 64 ∧ j < 8) ∧
    (∃ (w i k : Nat), w < 2 ^ 64 ∧ i < 64 ∧ k < 64 ∧ i ≠ k) ∧
    (∃ (o v : Nat) (d : Dev), o % 8 = 0 ∧ v < 2 ^ 64 ∧ d.flag 0xE00310C 31 = false) ∧
    (∃ (m o v : Nat) (d : Dev) (k : Nat), o % 8 = 0 ∧ v < 2 ^ 64 ∧ d.flag 0xE00310C 31 = false ∧ (∀ i < 8,
      k ≠ memKey m (o + i))) ∧
    (∃ (m o v : Nat) (d : Dev) (k : Nat), o % 8 = 0 ∧ v < 2 ^ 64 ∧ d.flag 0xE00310C 31 = false ∧ k ≠ memKey m o / 8) :=
  ⟨⟨2 ^ 64 - 1, by decide +kernel⟩,
   ⟨2 ^ 64 - 1, 63, by decide +kernel, by decide +kernel⟩,
   ⟨0, 7, by decide +kernel, by decide +kernel⟩,
   ⟨0, 0, 63, by decide +kernel, by decide +kernel, by decide +kernel, by decide +kernel⟩,
   ⟨8, 2 ^ 64 - 1, up, by decide +kernel, by decide +kernel, by decide +kernel⟩,
   ⟨0, 8, 0, up, 7, by decide +kernel, by decide +kernel, by decide +kernel, by decide +kernel⟩,
   ⟨0, 8, 0, up, 2, by decide +kernel, by decide +kernel, by decide +kernel, by decide +kernel⟩⟩

theorem wit_DomainsTurnOffAndOn :
    (∃ (s : State) (p : Read) (e : Exec) (b : List Byte), s.runs .manager 0x0C01 p = some (e, b) ∧
      domainFault (byteAt b 0) (byteAt b 1) (byteAt b 2) (byteAt b 3) s.dev = none ∧
      s.dev.domainOn (byteAt b 0) (byteAt b 1) = decide (byteAt b 2 = 1)) ∧
    (∃ (s : State) (p : Read) (e : Exec) (b : List Byte), s.runs .manager 0x0C01 p = some (e, b) ∧
      domainFault (byteAt b 0) (byteAt b 1) (byteAt b 2) (byteAt b 3) s.dev = none ∧
      s.dev.domainOn (byteAt b 0) (byteAt b 1) ≠ decide (byteAt b 2 = 1)) ∧
    (∃ (s : State) (k i : Nat) (r : Ring) (x : (Nat × Nat) × Dev), s.dev.power.domain = some (k, i, false, r) ∧ k < 3 ∧
      x = (if k = 2 then groupBindOff i s.dev else unitBindOff i (k == 1) s.dev)) ∧
    (∃ (s : State) (i : Nat) (r : Ring) (x : (Nat × Nat) × Dev), s.dev.power.domain = some (3, i, false, r) ∧
      x = linkBindOff i s.dev) ∧
    (∃ (s : State) (k i : Nat) (r : Ring), s.dev.power.domain = some (k, i, true, r) ∧ k ≠ 2) :=
  ⟨⟨run (.manager) (ex 0xC01 0xFFFF 4) (up), .ok [2, 31, 1, 0], ex 0xC01 0xFFFF 4, [2, 31, 1, 0], by decide +kernel,
      by decide +kernel, by decide +kernel⟩,
   ⟨run (.manager) (ex 0xC01 0xFFFF 4) (up), .ok [2, 31, 0, 0], ex 0xC01 0xFFFF 4, [2, 31, 0, 0], by decide +kernel,
      by decide +kernel, by decide +kernel⟩,
   ⟨on' (updPower (fun x => { x with domain := some (2, 31, false, .manager) }) up), 2, 31, .manager, _, by decide +kernel,
      by decide +kernel, rfl⟩,
   ⟨on' (updPower (fun x => { x with domain := some (3, 31, false, .manager) }) up), 31, .manager, _, by decide +kernel, rfl⟩,
   ⟨on' (updPower (fun x => { x with domain := some (3, 3, true, .manager) }) up), 3, 3, .manager, by decide +kernel,
      by decide +kernel⟩⟩

/-! ### Links and functions -/

/-- Link 4 with both ends powered, released and not yet trained. -/
def train4 : Dev := setRegs [(aConn 4, 5)] up
def live (g : Fn → Fn) : State := on' (fnWith g)
/-- Where slice 5 is the only slice. -/
theorem only5 (d : Dev) (y : Slice) (st : SliceState) (l : List Nat) (h : d.slices = [(5, y)]) (hy : y.state ≠ st) :
    ∀ k ∈ l, ∀ x, d.slice k = some x → x.state ≠ st := by
  intro k _ x hx
  simp only [Dev.slice, h, mfind] at hx
  split at hx
  · cases hx; exact hy
  · cases hx


/-- The arena's first page, counted from 15 GiB of HB0, wherever the instance has it. -/
theorem arena_page : arenaPage < 253609 := by
  unfold arenaPage areaStart
  simp only [freeStarts, List.map, List.sum_cons, List.sum_nil, nthStart]
  split <;> omega
theorem arena_base : 15 * 2 ^ 30 ≤ arenaBase ∧ arenaBase < 15 * 2 ^ 30 + 253609 * 4096 := by
  have := arena_page
  simp only [arenaBase, reservedAt]
  omega
/-- No page of the arena lies in HB1, and none below 15 GiB. -/
theorem arena_none (a : Nat) (h : a < 15 * 2 ^ 30 ∨ 2 ^ 34 + 15 * 2 ^ 30 ≤ a) : arenaSide a = none := by
  have := arena_base
  unfold arenaSide
  have : a < arenaBase ∨ 8280 ≤ (a - arenaBase) / 4096 := by omega
  simp [this]
/-- BAR2 shows the arena. -/
def arenaAt : State := on' (setReg64 0x40 arenaBase up)
theorem arenaAt_aperture : arenaAt.dev.aperture = arenaBase := by
  have := arena_base
  have h : arenaAt.dev.aperture = (word arenaBase).toNat + 2 ^ 32 * (word (hi32 arenaBase)).toNat := by
    simp [arenaAt, on', setReg64, Dev.aperture, Dev.reg64, Laws.reg_setReg]
  rw [h]
  simp [word, hi32]
  omega
theorem arenaAt_reg (k : Nat) (h : k ≠ 0x40) (h' : k ≠ 0x44) : arenaAt.dev.reg k = up.reg k := by
  simp [arenaAt, on', setReg64, Laws.reg_setReg, h, h']
theorem arenaAt_mgr : arenaAt.dev.sees 32 = true ∧ 4 ≤ arenaAt.dev.fld 0x14 3 0 := by
  simp only [Dev.sees, Dev.linked, Dev.cpUp, Dev.flag, Dev.fld, if_true]
  rw [arenaAt_reg _ (by decide) (by decide), arenaAt_reg _ (by decide) (by decide)]
  rw [show arenaAt.dev.power = up.power by simp [arenaAt, on', setReg64],
    show arenaAt.dev.fn 32 = up.fn 32 by simp [arenaAt, on', setReg64, Dev.fn]]
  constructor <;> decide +kernel
/-- Address 0 of HBM is in none of the areas that BAR2 writes. -/
theorem zero_unwritable : apertureWritable 0 = false := by
  have h1 : ¬ custBase ≤ 0 := by unfold custBase reservedAt; generalize custPage = p; omega
  have h2 : ¬ stagingBase ≤ 0 := by unfold stagingBase reservedAt; generalize stagingPage = p; omega
  unfold apertureWritable
  rw [decide_eq_false h1, decide_eq_false h2, show inTest (hbmMem 0) (hbmOff 0) = false by decide +kernel]
  rfl

theorem wit_QueueDoorbellsAndFetches :
    (∃ (s : State) (o : Owner) (q : Nat) (v : Word) (x : Queue) (t : Nat), s.comes (some (s.dev.fnOf o)) = true ∧
      s.dev.ownerExists o = true ∧ s.dev.queue o q = some x ∧ x.reason = none ∧
      tailValid x.n x.head x.tail (wbits v 16 0) = some t) ∧
    (∃ (s : State) (o : Owner) (q : Nat) (x : Queue), s.comes (some (s.dev.fnOf o)) = true ∧ s.dev.ownerExists o = true ∧
      s.dev.queue o q = some x ∧ x.reason.isSome = true) ∧
    (∃ (s : State) (o : Owner) (q : Nat) (v : Word) (x : Queue), s.comes (some (s.dev.fnOf o)) = true ∧
      s.dev.ownerExists o = true ∧ s.dev.queue o q = some x ∧ x.reason = none ∧
      tailValid x.n x.head x.tail (wbits v 16 0) = none) ∧
    (∃ (s : State) (o : Owner) (c : Nat) (v : Word) (x : Cq) (h : Nat), s.comes (some (s.dev.fnOf o)) = true ∧
      s.dev.ownerExists o = true ∧ s.dev.cq o c = some x ∧ headValid x.n x.head x.wpos (wbits v 16 0) = some h) ∧
    (∃ (s : State) (o : Owner) (c : Nat) (x : Cq) (t : Nat), s.dev.cq o c = some x ∧ x.due = some t) ∧
    (∃ (s : State) (f : Fin 32) (os : List Owner) (l1 : List Part) (k rd : Nat) (ps : List Nat) (o : Owner) (d : Dev) (l2 :
      List Part) (q rd' : Nat) (ps' : List Nat), os = s.dev.ownersOf f ∧ l1 = os.map (fun o => (⟨ownerKey o,
      s.dev.ownerWeight o, s.dev.eligibleOwner o⟩ : Part)) ∧ wrr l1 (maxWeight l1) (maxWeight l1 + 1) (s.dev.fn f).round
      (s.dev.fn f).served = some (k, rd, ps) ∧ os.find? (fun o => ownerKey o == k) = some o ∧
      d = updFn f (fun x => { x with round := rd, served := ps }) s.dev ∧ l2 = (d.queuesOf o).map (fun q => (⟨q,
      ((d.queue o q).map (·.weight)).getD 0, d.eligible o q⟩ : Part)) ∧
      wrr l2 (maxWeight l2) (maxWeight l2 + 1) (d.owner o).round (d.owner o).served = some (q, rd', ps')) ∧
    (∃ (s : State) (o : Owner) (q : Nat) (data : List Byte) (x : Queue) (g : Fetch) (d1 d2 : Dev), s.dev.queue o q = some x
      ∧ x.fetching = [g] ∧ g.got = [] ∧ data.length = 32 * g.n ∧
      d1 = each (List.range g.n) (fun j d => updQueue o q (fun x =>
      { takeDesc o x.kind (x.fetch % x.n) (bytesAt data (32 * j) 32) d x with fetch := ringAdd x.n x.fetch 1 }) d) (updQueue
      o q (fun x => { x with fetching := [{ g with got := data }] }) s.dev) ∧
      d2 = dropTag (s.dev.fnOf o) g.tag (updQueue o q (fun x => { x with fetching := x.fetching.tail }) d1)) :=
  ⟨⟨upS, .slice 5, 1, 63, rxQ, 63, by decide +kernel, by decide +kernel, by decide +kernel, by decide +kernel,
      by decide +kernel⟩,
   ⟨on' (qWith 1 fun x => { x with halted := some 4 }), .slice 5, 1, { rxQ with halted := some 4 }, by decide +kernel,
      by decide +kernel, by decide +kernel, by decide +kernel⟩,
   ⟨upS, .slice 5, 0, 65, txQ, by decide +kernel, by decide +kernel, by decide +kernel, by decide +kernel, by decide +kernel⟩,
   ⟨on' (updCq (.slice 5) 0 (fun x => { x with wpos := 1 }) up), .slice 5, 0, 1, { base := 0x9000, log2 := 6, wpos := 1 },
      1, by decide +kernel, by decide +kernel, by decide +kernel, by decide +kernel⟩,
   ⟨on' (updCq (.slice 5) 0 (fun x => { x with due := some 9 }) up), .slice 5, 0,
      { base := 0x9000, log2 := 6, due := some 9 }, 9, by decide +kernel, by decide +kernel⟩,
   ⟨on' (qWith 0 fun x => { x with tail := 1 }), 3, _, _, 69, 1, [3, 69], .slice 5, _, _, 0, 1, [0], rfl, rfl,
      by decide +kernel, by decide +kernel, rfl, rfl, by decide +kernel⟩,
   ⟨on' (qWith 0 fun x => { x with tail := 1, fetching := [{ tag := 4, n := 1 }] }), .slice 5, 0, bs 32 [],
      { txQ with tail := 1, fetching := [{ tag := 4, n := 1 }] }, { tag := 4, n := 1 }, _, _, by decide +kernel,
      by decide +kernel, by decide +kernel, by decide +kernel, rfl, rfl⟩⟩

theorem wit_PacketsLeaveAndReachHostMemory :
    (∃ (s : State) (o : Owner) (q : Nat) (x : Queue) (j : Job) (js : List Job) (ds : List Byte) (f : Nat) (b data job : List
      Byte) (y : Parse), s.dev.queue o q = some x ∧ x.jobs = j :: js ∧ x.kind = .tx ∧ j.fault = none ∧ ds = j.descs.headD []
      ∧ dOp ds = 1 ∧ s.dev.ownerMay o = true ∧ f = s.dev.fnOf o ∧ ((s.dev.jobCtx o ds).map s.dev.ctxHeld).getD false = false
      ∧ s.dev.direct f (j.descs.map fun b => (dAddr b, dLen b)) = true ∧ data = padTo (jobLen j.descs) b ∧
      job = txVlan ds data ∧ y = (parsePacket s.dev.gens.rules.pol [] job (0x1000 + f) 0xFFFF none false false).raw ∧
      (bit (byteAt ds 1) 3 = true → y.tcpHdr.isSome = true) ∧ s.dev.jobCtx o ds = none) ∧
    (∃ (s : State) (o : Owner) (q : Nat) (x : Queue) (j : Job) (js : List Job) (ds : List Byte) (f : Nat) (b data job : List
      Byte) (y : Parse) (c : Nat), s.dev.queue o q = some x ∧ x.jobs = j :: js ∧ x.kind = .tx ∧ j.fault = none ∧
      ds = j.descs.headD [] ∧ dOp ds = 1 ∧ s.dev.ownerMay o = true ∧ f = s.dev.fnOf o ∧
      ((s.dev.jobCtx o ds).map s.dev.ctxHeld).getD false = false ∧ s.dev.direct f (j.descs.map fun b => (dAddr b,
      dLen b)) = true ∧ data = padTo (jobLen j.descs) b ∧ job = txVlan ds data ∧
      y = (parsePacket s.dev.gens.rules.pol [] job (0x1000 + f) 0xFFFF none false false).raw ∧ (bit (byteAt ds 1) 3 = true
      → y.tcpHdr.isSome = true) ∧ s.dev.jobCtx o ds = some c) ∧
    (∃ (s : State) (o : Owner) (q : Nat) (x : Queue) (j : Job) (js : List Job) (ds : List Byte) (f : Nat) (b data job : List
      Byte) (y : Parse), s.dev.queue o q = some x ∧ x.jobs = j :: js ∧ x.kind = .tx ∧ j.fault = none ∧ ds = j.descs.headD []
      ∧ dOp ds = 1 ∧ s.dev.ownerMay o = true ∧ f = s.dev.fnOf o ∧ ((s.dev.jobCtx o ds).map s.dev.ctxHeld).getD false = false
      ∧ s.dev.direct f (j.descs.map fun b => (dAddr b, dLen b)) = true ∧ data = padTo (jobLen j.descs) b ∧
      job = txVlan ds data ∧ y = (parsePacket s.dev.gens.rules.pol [] job (0x1000 + f) 0xFFFF none false false).raw ∧
      (bit (byteAt ds 1) 3 = true → y.tcpHdr.isSome = true)) ∧
    (∃ (s : State) (o : Owner) (q : Nat) (x : Queue) (j : Job) (js : List Job) (ds : List Byte) (f : Nat) (b data job : List
      Byte), s.dev.queue o q = some x ∧ x.jobs = j :: js ∧ x.kind = .tx ∧ j.fault = none ∧ ds = j.descs.headD [] ∧
      dOp ds = 1 ∧ s.dev.ownerMay o = true ∧ f = s.dev.fnOf o ∧ ((s.dev.jobCtx o ds).map s.dev.ctxHeld).getD false = false ∧
      s.dev.direct f (j.descs.map fun b => (dAddr b, dLen b)) = true ∧ data = padTo (jobLen j.descs) b ∧
      job = txVlan ds data ∧ bit (byteAt ds 1) 3 = true ∧ (parsePacket s.dev.gens.rules.pol [] job (0x1000 + f) 0xFFFF none
      false false).raw.tcpHdr = none) ∧
    (∃ (s : State) (o : Owner) (q : Nat) (x : Queue) (j : Job) (js : List Job) (ds : List Byte) (f : Nat) (r : Read),
      s.dev.queue o q = some x ∧ x.jobs = j :: js ∧ x.kind = .tx ∧ j.fault = none ∧ ds = j.descs.headD [] ∧ dOp ds = 1 ∧
      s.dev.ownerMay o = true ∧ f = s.dev.fnOf o ∧ ((s.dev.jobCtx o ds).map s.dev.ctxHeld).getD false = false ∧
      s.dev.direct f (j.descs.map fun b => (dAddr b, dLen b)) = true ∧ (r = .denied ∨ r = .aborted ∨ r = .timeout)) ∧
    (∃ (s : State) (i : Nat) (p : Packet) (f : Nat) (o : Owner) (q : Option Nat) (q' h : Nat) (x : Queue) (b : List Byte) (l
      : List (List Byte)), s.dev.packet i = some p ∧ p.loc = .hostOut f ∧
      (s.dev.pkts.takeWhile (·.id != i)).any (fun x => x.loc == .hostOut f) = false ∧ s.dev.hlOn f = true ∧
      p.receiver = some (o, q) ∧ (s.dev.fn f).parked = false ∧ s.dev.sliceTakes o = true ∧ s.dev.dlUp f = true ∧
      (s.dev.link f).resetting = false ∧ (s.dev.fn f).flr = false ∧ (s.dev.fn f).bme = true ∧ (∀ k, o = .slice k
      → (s.dev.fn f).pasidEn = true) ∧ rxQueue o q p s.dev = (some q', h) ∧ s.dev.queue o q' = some x ∧ x.kind = .rx ∧
      x.reason = none ∧ l = (chunks 32 b).take x.unread ∧ s.dev.cqShut o x.cq = true) ∧
    (∃ (s : State) (i : Nat) (p : Packet) (f : Nat) (o : Owner) (q : Option Nat) (q' h : Nat) (x : Queue) (b : List Byte) (l
      bufs : List (List Byte)) (i' : Nat × Dev) (d1 d2 d3 : Dev), s.dev.packet i = some p ∧ p.loc = .hostOut f ∧
      (s.dev.pkts.takeWhile (·.id != i)).any (fun x => x.loc == .hostOut f) = false ∧ s.dev.hlOn f = true ∧
      p.receiver = some (o, q) ∧ (s.dev.fn f).parked = false ∧ s.dev.sliceTakes o = true ∧ s.dev.dlUp f = true ∧
      (s.dev.link f).resetting = false ∧ (s.dev.fn f).flr = false ∧ (s.dev.fn f).bme = true ∧ (∀ k, o = .slice k
      → (s.dev.fn f).pasidEn = true) ∧ rxQueue o q p s.dev = (some q', h) ∧ s.dev.queue o q' = some x ∧ x.kind = .rx ∧
      x.reason = none ∧ l = (chunks 32 b).take x.unread ∧ s.dev.cqShut o x.cq = false ∧
      s.dev.direct (s.dev.fnOf o) (ringRange x.base 32 x.n x.fetch (min 64 x.unread)) = true ∧ rxFaulty o q' l s.dev = (l,
      s.dev) ∧ rxReserve x.rxMeta (p.bytes.length + (if x.rxMeta then 32 else 0)) 64 l = some bufs ∧
      i' = newData (s.dev.fnOf o) s.dev ∧ d1 = each (rxFill bufs ((if x.rxMeta then rxMetadata p h else []) ++ p.bytes))
      (fun w => hostWriteAs (.data i'.1) (s.dev.fnOf o) (s.dev.pasidOf o) w.1 w.2 true p.poisoned) i'.2 ∧
      d2 = complete o x.cq
      { tag := dTag (bufs.headD []), index := (x.fetch + bufs.length - 1) % x.n, queue := q', len := p.bytes.length, status := if p.poisoned then stPoisoned else stOk, bufs := bufs.length, type := 1, run := x.run, data := some i'.1 }
      (updQueue o q' (fun x => { x with fetch := ringAdd x.n x.fetch bufs.length }) d1) ∧
      d3 = endPacket p (match o with | .slice s => meter s 3 p.bytes.length (meter s 2 1 d2) | .function _ => d2)) ∧
    (∃ (s : State) (i : Nat) (p : Packet) (f : Nat) (o : Owner) (q : Option Nat) (q' h : Nat) (x : Queue) (b : List Byte) (l
      : List (List Byte)), s.dev.packet i = some p ∧ p.loc = .hostOut f ∧
      (s.dev.pkts.takeWhile (·.id != i)).any (fun x => x.loc == .hostOut f) = false ∧ s.dev.hlOn f = true ∧
      p.receiver = some (o, q) ∧ (s.dev.fn f).parked = false ∧ s.dev.sliceTakes o = true ∧ s.dev.dlUp f = true ∧
      (s.dev.link f).resetting = false ∧ (s.dev.fn f).flr = false ∧ (s.dev.fn f).bme = true ∧ (∀ k, o = .slice k
      → (s.dev.fn f).pasidEn = true) ∧ rxQueue o q p s.dev = (some q', h) ∧ s.dev.queue o q' = some x ∧ x.kind = .rx ∧
      x.reason = none ∧ l = (chunks 32 b).take x.unread ∧ s.dev.cqShut o x.cq = false ∧
      s.dev.direct (s.dev.fnOf o) (ringRange x.base 32 x.n x.fetch (min 64 x.unread)) = true ∧ rxFaulty o q' l s.dev = (l,
      s.dev) ∧ rxReserve x.rxMeta (p.bytes.length + (if x.rxMeta then 32 else 0)) 64 l = none) :=
  ⟨⟨on' (qWith 0 fun x => { x with jobs := [{ descs := [bs 32 [(0, 1, 1), (1, 1, 3), (2, 2, 60)]], last := 0 }] }),
      .slice 5, 0, { txQ with jobs := [{ descs := [bs 32 [(0, 1, 1), (1, 1, 3), (2, 2, 60)]], last := 0 }] },
      { descs := [bs 32 [(0, 1, 1), (1, 1, 3), (2, 2, 60)]], last := 0 }, [], _, _, [], _, _, _, by decide +kernel,
      by decide +kernel, by decide +kernel, by decide +kernel, rfl, by decide +kernel, by decide +kernel, rfl,
      by decide +kernel, by decide +kernel, rfl, rfl, rfl, by decide +kernel, by decide +kernel⟩,
   ⟨on' (qWith 0 fun x =>
      { x with jobs := [{ descs := [bs 32 [(0, 1, 1), (1, 1, 3), (2, 2, 60), (20, 4, 0x80000002)]], last := 0 }] }),
      .slice 5, 0,
      { txQ with jobs := [{ descs := [bs 32 [(0, 1, 1), (1, 1, 3), (2, 2, 60), (20, 4, 0x80000002)]], last := 0 }] },
      { descs := [bs 32 [(0, 1, 1), (1, 1, 3), (2, 2, 60), (20, 4, 0x80000002)]], last := 0 }, [], _, _, [], _, _, _, 2,
      by decide +kernel, by decide +kernel, by decide +kernel, by decide +kernel, rfl, by decide +kernel, by decide +kernel,
      rfl, by decide +kernel, by decide +kernel, rfl, rfl, rfl, by decide +kernel, by decide +kernel⟩,
   ⟨on' (qWith 0 fun x => { x with jobs := [{ descs := [bs 32 [(0, 1, 1), (1, 1, 3), (2, 2, 60)]], last := 0 }] }),
      .slice 5, 0, { txQ with jobs := [{ descs := [bs 32 [(0, 1, 1), (1, 1, 3), (2, 2, 60)]], last := 0 }] },
      { descs := [bs 32 [(0, 1, 1), (1, 1, 3), (2, 2, 60)]], last := 0 }, [], _, _, [], _, _, _, by decide +kernel,
      by decide +kernel, by decide +kernel, by decide +kernel, rfl, by decide +kernel, by decide +kernel, rfl,
      by decide +kernel, by decide +kernel, rfl, rfl, rfl, by decide +kernel⟩,
   ⟨on' (qWith 0 fun x => { x with jobs := [{ descs := [bs 32 [(0, 1, 1), (1, 1, 11), (2, 2, 60)]], last := 0 }] }),
      .slice 5, 0, { txQ with jobs := [{ descs := [bs 32 [(0, 1, 1), (1, 1, 11), (2, 2, 60)]], last := 0 }] },
      { descs := [bs 32 [(0, 1, 1), (1, 1, 11), (2, 2, 60)]], last := 0 }, [], _, _, [], _, _, by decide +kernel,
      by decide +kernel, by decide +kernel, by decide +kernel, rfl, by decide +kernel, by decide +kernel, rfl,
      by decide +kernel, by decide +kernel, rfl, rfl, by decide +kernel, by decide +kernel⟩,
   ⟨on' (qWith 0 fun x => { x with jobs := [{ descs := [bs 32 [(0, 1, 1), (1, 1, 3), (2, 2, 60)]], last := 0 }] }),
      .slice 5, 0, { txQ with jobs := [{ descs := [bs 32 [(0, 1, 1), (1, 1, 3), (2, 2, 60)]], last := 0 }] },
      { descs := [bs 32 [(0, 1, 1), (1, 1, 3), (2, 2, 60)]], last := 0 }, [], _, _, .timeout, by decide +kernel,
      by decide +kernel, by decide +kernel, by decide +kernel, rfl, by decide +kernel, by decide +kernel, rfl,
      by decide +kernel, by decide +kernel, by decide +kernel⟩,
   ⟨on' { up with pkts := [pkt0], cqs := [] }, 0, pkt0, 3, .slice 5, some 1, 1, 0, rxQ, [], [], by decide +kernel,
      by decide +kernel, by decide +kernel, by decide +kernel, by decide +kernel, by decide +kernel, by decide +kernel,
      by decide +kernel, by decide +kernel, by decide +kernel, by decide +kernel, by intros; decide +kernel,
      by decide +kernel, by decide +kernel, by decide +kernel, by decide +kernel, by decide +kernel, by decide +kernel⟩,
   ⟨on' (qWith 1 (fun x => { x with tail := 1 }) { up with pkts := [pkt0] }), 0, pkt0, 3, .slice 5, some 1, 1, 0,
      { rxQ with tail := 1 }, bs 32 [(0, 1, 2), (2, 2, 64), (8, 8, 0x40000)], [bs 32 [(0, 1, 2), (2, 2, 64), (8, 8,
      0x40000)]], [bs 32 [(0, 1, 2), (2, 2, 64), (8, 8, 0x40000)]], _, _, _, _, by decide +kernel, by decide +kernel,
      by decide +kernel, by decide +kernel, by decide +kernel, by decide +kernel, by decide +kernel, by decide +kernel,
      by decide +kernel, by decide +kernel, by decide +kernel, by intros; decide +kernel, by decide +kernel,
      by decide +kernel, by decide +kernel, by decide +kernel, by decide +kernel, by decide +kernel, by decide +kernel,
      by decide +kernel, by decide +kernel, rfl, rfl, rfl, rfl⟩,
   ⟨on' { up with pkts := [pkt0] }, 0, pkt0, 3, .slice 5, some 1, 1, 0, rxQ, [], [], by decide +kernel, by decide +kernel,
      by decide +kernel, by decide +kernel, by decide +kernel, by decide +kernel, by decide +kernel, by decide +kernel,
      by decide +kernel, by decide +kernel, by decide +kernel, by intros; decide +kernel, by decide +kernel,
      by decide +kernel, by decide +kernel, by decide +kernel, by decide +kernel, by decide +kernel, by decide +kernel,
      by decide +kernel, by decide +kernel⟩⟩

theorem wit_FunctionEnablesTakeEffect :
    (∃ (s : State) (f : Fin 32) (done : Dev → State), s.dev.fnExists f = true ∧ s.dev.dlUp f = true ∧ s.dev.ready = true ∧
      (s.dev.fn f).flr = false ∧ (s.dev.fn f).closing = none ∧ (∀ d,
      done d = s.withDev (if (d.fn f).closing.isSome then when (d.closes f) (closeNow f) d else emit (.completion f 0 []
      false) d)) ∧ (s.dev.fn f).bme = true) ∧
    (∃ (s : State) (f : Fin 32) (done : Dev → State), s.dev.fnExists f = true ∧ s.dev.dlUp f = true ∧ s.dev.ready = true ∧
      (s.dev.fn f).flr = false ∧ (s.dev.fn f).closing = none ∧ (∀ d,
      done d = s.withDev (if (d.fn f).closing.isSome then when (d.closes f) (closeNow f) d else emit (.completion f 0 []
      false) d)) ∧ (s.dev.fn f).bme = false) ∧
    (∃ (s : State) (f : Fin 32) (done : Dev → State), s.dev.fnExists f = true ∧ s.dev.dlUp f = true ∧ s.dev.ready = true ∧
      (s.dev.fn f).flr = false ∧ (s.dev.fn f).closing = none ∧ (∀ d,
      done d = s.withDev (if (d.fn f).closing.isSome then when (d.closes f) (closeNow f) d else emit (.completion f 0 []
      false) d)) ∧ (s.dev.fn f).d3 = false) ∧
    (∃ (s : State) (f : Fin 32) (done : Dev → State), s.dev.fnExists f = true ∧ s.dev.dlUp f = true ∧ s.dev.ready = true ∧
      (s.dev.fn f).flr = false ∧ (s.dev.fn f).closing = none ∧ (∀ d,
      done d = s.withDev (if (d.fn f).closing.isSome then when (d.closes f) (closeNow f) d else emit (.completion f 0 []
      false) d)) ∧ (s.dev.fn f).d3 = true) ∧
    (∃ (s : State) (f : Fin 32) (done : Dev → State), s.dev.fnExists f = true ∧ s.dev.dlUp f = true ∧ s.dev.ready = true ∧
      (s.dev.fn f).flr = false ∧ (s.dev.fn f).closing = none ∧ (∀ d,
      done d = s.withDev (if (d.fn f).closing.isSome then when (d.closes f) (closeNow f) d else emit (.completion f 0 []
      false) d)) ∧ (s.dev.fn f).pasidEn = false) ∧
    (∃ (s : State) (f : Fin 32) (done : Dev → State), s.dev.fnExists f = true ∧ s.dev.dlUp f = true ∧ s.dev.ready = true ∧
      (s.dev.fn f).flr = false ∧ (s.dev.fn f).closing = none ∧ (∀ d,
      done d = s.withDev (if (d.fn f).closing.isSome then when (d.closes f) (closeNow f) d else emit (.completion f 0 []
      false) d)) ∧ (s.dev.fn f).pasidEn = true) ∧
    (∃ (s : State) (f : Fin 32) (done : Dev → State), s.dev.fnExists f = true ∧ s.dev.dlUp f = true ∧ s.dev.ready = true ∧
      (s.dev.fn f).flr = false ∧ (s.dev.fn f).closing = none ∧ (∀ d,
      done d = s.withDev (if (d.fn f).closing.isSome then when (d.closes f) (closeNow f) d else emit (.completion f 0 []
      false) d))) ∧
    (∃ (d : Dev) (f : Nat) (c : Closing), (d.fn f).closing = some c ∧ c.d3 = false) ∧
    (∃ (d : Dev) (f : Nat) (c : Closing), (d.fn f).closing = some c ∧ c.d3 = true) :=
  ⟨⟨upS, 3, _, by decide +kernel, by decide +kernel, by decide +kernel, by decide +kernel, by decide +kernel, fun _ => rfl,
      by decide +kernel⟩,
   ⟨(live fun x => { x with bme := false }), 3, _, by decide +kernel, by decide +kernel, by decide +kernel,
      by decide +kernel, by decide +kernel, fun _ => rfl, by decide +kernel⟩,
   ⟨upS, 3, _, by decide +kernel, by decide +kernel, by decide +kernel, by decide +kernel, by decide +kernel, fun _ => rfl,
      by decide +kernel⟩,
   ⟨(live fun x => { x with d3 := true }), 3, _, by decide +kernel, by decide +kernel, by decide +kernel, by decide +kernel,
      by decide +kernel, fun _ => rfl, by decide +kernel⟩,
   ⟨(live fun x => { x with pasidEn := false }), 3, _, by decide +kernel, by decide +kernel, by decide +kernel,
      by decide +kernel, by decide +kernel, fun _ => rfl, by decide +kernel⟩,
   ⟨upS, 3, _, by decide +kernel, by decide +kernel, by decide +kernel, by decide +kernel, by decide +kernel, fun _ => rfl,
      by decide +kernel⟩,
   ⟨upS, 3, _, by decide +kernel, by decide +kernel, by decide +kernel, by decide +kernel, by decide +kernel, fun _ => rfl⟩,
   ⟨(fnWith fun x => { x with closing := some ⟨false, 9⟩ }), 3, ⟨false, 9⟩, by decide +kernel, by decide +kernel⟩,
   ⟨(fnWith fun x => { x with closing := some ⟨true, 9⟩ }), 3, ⟨true, 9⟩, by decide +kernel, by decide +kernel⟩⟩

theorem wit_FunctionResetsAndWakes :
    (∃ (s : State) (f : Fin 32) (d : Dev), s.dev.fnExists f = true ∧ s.dev.dlUp f = true ∧ s.dev.ready = true ∧
      (s.dev.fn f).flr = false ∧ d = unpark f (readsDrop f (queuesStop f (fnStop f stAborted (updFn f (fun x =>
      { x with flr := true, invals := [] }) (closeDrop f s.dev)))))) ∧
    (∃ (s : State) (f : Fin 32), (s.dev.fn f).flr = true ∧ (∀ k ∈ s.dev.slicesOf f, ∀ x, s.dev.slice k = some x
      → x.state ≠ .resetting)) ∧
    (∃ (s : State) (f : Fin 32), s.dev.fnExists f = true ∧ s.dev.dlUp f = true ∧ (s.dev.fn f).mse = true ∧
      (s.dev.fn f).flr = false) ∧
    (∃ (s : State) (f : Fin 32), (s.dev.fn f).d3 = true ∧ (s.dev.fn f).pmeStatus = true ∧ s.dev.dlUp f = true) ∧
    (∃ (s : State) (f : Fin 32) (t : Nat), (s.dev.link f).wakeSince = some t) :=
  ⟨⟨upS, 3, _, by decide +kernel, by decide +kernel, by decide +kernel, by decide +kernel, rfl⟩,
   ⟨(live fun x => { x with flr := true }), 3, by decide +kernel, only5 _ sl _ _ (by decide +kernel) (by decide)⟩,
   ⟨upS, 3, by decide +kernel, by decide +kernel, by decide +kernel, by decide +kernel⟩,
   ⟨(live fun x => { x with d3 := true, pmeStatus := true }), 3, by decide +kernel, by decide +kernel, by decide +kernel⟩,
   ⟨on' (updLink 3 (fun x => { x with wakeSince := some 7 }) up), 3, 7, by decide +kernel⟩⟩

theorem wit_ReadsAndInvalidationsEnd :
    (∃ (s : State) (f : Fin 32) (tag : Nat) (r : OutRead), (s.dev.fn f).readOf tag = some r ∧ r.purpose = .translation) ∧
    (∃ (s : State) (f : Fin 32) (tag : Nat), s.dev.fnExists f = true ∧ s.dev.dlUp f = true ∧ (s.dev.fn f).readOf tag = none) ∧
    (∃ (s : State) (f : Fin 32) (tag : Nat) (r : OutRead) (o : Owner) (q : Nat), s.dev.fnExists f = true ∧
      s.dev.dlUp f = true ∧ (s.dev.fn f).readOf tag = some r ∧ r.purpose = .descriptors o q) ∧
    (∃ (s : State) (f : Fin 32) (tag : Nat) (r : OutRead) (o : Owner) (q : Nat), s.dev.fnExists f = true ∧
      s.dev.dlUp f = true ∧ (s.dev.fn f).readOf tag = some r ∧ r.purpose = .jobData o q) ∧
    (∃ (s : State) (f : Fin 32) (tag : Nat) (r : OutRead) (o : Owner) (q k : Nat), s.dev.fnExists f = true ∧
      s.dev.dlUp f = true ∧ (s.dev.fn f).readOf tag = some r ∧ r.purpose = .segment o q k) ∧
    (∃ (s : State) (f : Fin 32) (tag : Nat) (r : OutRead) (h : Option Nat) (js : List Nat), s.dev.fnExists f = true ∧
      s.dev.dlUp f = true ∧ (s.dev.fn f).readOf tag = some r ∧ r.purpose = .flush h js) ∧
    (∃ (s : State) (f : Fin 32) (tag : Nat) (r : OutRead), s.dev.fnExists f = true ∧ s.dev.dlUp f = true ∧
      (s.dev.fn f).readOf tag = some r ∧ r.purpose = .translation) ∧
    (∃ (s : State) (f : Fin 32) (tag : Nat) (r : OutRead) (o : Owner) (q : Nat) (d : Dev), (s.dev.fn f).readOf tag = some r
      ∧ r.sent.isEmpty = false ∧ d = timeTo (r.start + (s.dev.fn f).cplLimit tag) s.dev ∧ (d.fn f).readOf tag = some r ∧
      r.purpose = .descriptors o q) ∧
    (∃ (s : State) (f : Fin 32) (pasid : Option Nat) (base len : Nat) (sent : List OutRead), s.dev.fnExists f = true ∧
      s.dev.dlUp f = true ∧ (s.dev.fn f).flr = false ∧ sent = (s.dev.fn f).reads.filter (fun r => r.purpose != .translation
      && r.pasid == pasid && r.sent.any fun p => (s.dev.fn f).atc.any fun e => invalHits pasid base len e && e.base ≤ p.1 &&
      p.1 < e.base + e.len)) ∧
    (∃ (s : State) (f : Fin 32) (itag : Nat) (v : Inval), s.dev.fnExists f = true ∧ s.dev.dlUp f = true ∧
      (s.dev.fn f).flr = false ∧ (s.dev.fn f).invals.find? (·.itag == itag) = some v ∧ (∀ t ∈ v.open_,
      (s.dev.fn f).readOf t = none)) ∧
    (∃ (s : State) (f : Fin 32) (itag : Nat) (v : Inval) (l : List Nat), s.dev.fnExists f = true ∧ s.dev.dlUp f = true ∧
      (s.dev.fn f).flr = false ∧ (s.dev.fn f).invals.find? (·.itag == itag) = some v ∧
      l = v.open_.filter (fun t => ((s.dev.fn f).readOf t).isSome) ∧ l ≠ []) :=
  ⟨⟨(live fun x => { x with reads := [{ tag := 9, purpose := .translation, sent := [(0x1000, 64)] }] }), 3, 9,
      { tag := 9, purpose := .translation, sent := [(0x1000, 64)] }, by decide +kernel, by decide +kernel⟩,
   ⟨upS, 3, 9, by decide +kernel, by decide +kernel, by decide +kernel⟩,
   ⟨(live fun x => { x with reads := [{ tag := 9, purpose := .descriptors (.slice 5) 0, sent := [(0x1000, 64)] }] }), 3, 9,
      { tag := 9, purpose := .descriptors (.slice 5) 0, sent := [(0x1000, 64)] }, .slice 5, 0, by decide +kernel,
      by decide +kernel, by decide +kernel, by decide +kernel⟩,
   ⟨(live fun x => { x with reads := [{ tag := 9, purpose := .jobData (.slice 5) 0, sent := [(0x1000, 64)] }] }), 3, 9,
      { tag := 9, purpose := .jobData (.slice 5) 0, sent := [(0x1000, 64)] }, .slice 5, 0, by decide +kernel,
      by decide +kernel, by decide +kernel, by decide +kernel⟩,
   ⟨(live fun x => { x with reads := [{ tag := 9, purpose := .segment (.slice 5) 2 0, sent := [(0x1000, 64)] }] }), 3, 9,
      { tag := 9, purpose := .segment (.slice 5) 2 0, sent := [(0x1000, 64)] }, .slice 5, 2, 0, by decide +kernel,
      by decide +kernel, by decide +kernel, by decide +kernel⟩,
   ⟨(live fun x => { x with reads := [{ tag := 9, purpose := .flush (some 7) [], sent := [(0x1000, 64)] }] }), 3, 9,
      { tag := 9, purpose := .flush (some 7) [], sent := [(0x1000, 64)] }, some 7, [], by decide +kernel, by decide +kernel,
      by decide +kernel, by decide +kernel⟩,
   ⟨(live fun x => { x with reads := [{ tag := 9, purpose := .translation, sent := [(0x1000, 64)] }] }), 3, 9,
      { tag := 9, purpose := .translation, sent := [(0x1000, 64)] }, by decide +kernel, by decide +kernel,
      by decide +kernel, by decide +kernel⟩,
   ⟨(live fun x => { x with reads := [{ tag := 9, purpose := .descriptors (.slice 5) 0, sent := [(0x1000, 64)] }] }), 3, 9,
      { tag := 9, purpose := .descriptors (.slice 5) 0, sent := [(0x1000, 64)] }, .slice 5, 0, _, by decide +kernel,
      by decide +kernel, rfl, by decide +kernel, by decide +kernel⟩,
   ⟨upS, 3, none, 0x1000, 4096, _, by decide +kernel, by decide +kernel, by decide +kernel, rfl⟩,
   ⟨(live fun x => { x with invals := [{ itag := 31, start := 0, open_ := [8] }] }), 3, 31,
      { itag := 31, start := 0, open_ := [8] }, by decide +kernel, by decide +kernel, by decide +kernel, by decide +kernel,
      by decide +kernel⟩,
   ⟨(live fun x =>
      { x with reads := [{ tag := 9, purpose := .jobData (.slice 5) 0, sent := [(0x1000, 64)] }], invals := [{ itag := 31, start := 0, open_ := [9] }] }),
      3, 31, { itag := 31, start := 0, open_ := [9] }, _, by decide +kernel, by decide +kernel, by decide +kernel,
      by decide +kernel, rfl, by decide +kernel⟩⟩

theorem wit_HostsReachTheirFunction :
    (∃ (s : State) (g : Fin 33) (f off o : Nat), g.val = f ∧ f < 32 ∧ s.dev.fnExists f = true ∧ s.dev.dlUp f = true ∧
      o = off % 4096 / 4 * 4 ∧ s.dev.ready = true ∧ (s.dev.fn f).flr = false) ∧
    (∃ (s : State) (g : Fin 33) (f off : Nat) (v : Word) (be : BitVec 4) (o : Nat) (d : Dev), g.val = f ∧ f < 32 ∧
      s.dev.fnExists f = true ∧ s.dev.dlUp f = true ∧ o = off % 4096 / 4 * 4 ∧ s.dev.ready = true ∧ (s.dev.fn f).flr = false
      ∧ (s.dev.fn f).closing = none ∧ (o == 0x78 && be.getLsbD 1 && v.getLsbD 15) = false ∧ d = cfgSet f o v be s.dev) ∧
    (∃ (s : State) (g : Fin 33) (f off : Nat) (v : Word) (be : BitVec 4) (o : Nat) (d : Dev), g.val = f ∧ f < 32 ∧
      s.dev.fnExists f = true ∧ s.dev.dlUp f = true ∧ o = off % 4096 / 4 * 4 ∧ s.dev.ready = true ∧ (s.dev.fn f).flr = false
      ∧ o = 0x78 ∧ be.getLsbD 1 = true ∧ v.getLsbD 15 = true ∧ d = cfgSet f o v be (closeDrop f s.dev)) ∧
    (∃ (s : State) (g : Fin 33) (f off o : Nat), g.val = f ∧ f < 32 ∧ s.dev.fnExists f = true ∧ s.dev.dlUp f = true ∧
      o = off % 4096 / 4 * 4 ∧ (s.dev.ready = false ∨ (s.dev.fn f).flr = true)) ∧
    (∃ (s : State) (off o : Nat), s.dev.power.holds = [] ∧ s.dev.cpUp = true ∧ o = off % 4096 / 4 * 4 ∧
      2 ≤ s.dev.fld 0x14 3 0) ∧
    (∃ (s : State) (off o : Nat), s.dev.power.holds = [] ∧ s.dev.cpUp = true ∧ o = off % 4096 / 4 * 4 ∧
      s.dev.fld 0x14 3 0 < 2) ∧
    (∃ (s : State) (off o : Nat), s.dev.power.holds = [] ∧ s.dev.cpUp = true ∧ o = off % 4096 / 4 * 4 ∧
      s.dev.fld 0x14 3 0 < 2) ∧
    (∃ (s : State) (f : Fin 32) (d : Dev) (off : Nat) (be : List Bool) (r : Word × Dev), d = s.dev ∧ d.power.holds = [] ∧
      d.sees f = true ∧ d.windowSide f false off = none ∧ (∀ x ∈ be, x = true) ∧ off % 4 = 0 ∧ d.hostHas f off = true ∧
      r = hostRegRead s.nv f off d) ∧
    (∃ (s : State) (f : Fin 32) (d : Dev) (off : Nat) (be : List Bool), d = s.dev ∧ d.power.holds = [] ∧ d.sees f = true ∧
      d.windowSide f false off = none ∧ (∀ x ∈ be, x = true) ∧ off % 4 = 0 ∧ d.hostHas f off = false) ∧
    (∃ (s : State) (f : Fin 32) (d : Dev) (off : Nat) (be : List Bool), d = s.dev ∧ d.power.holds = [] ∧ d.sees f = true ∧
      d.windowSide f false off = none ∧ (∀ x ∈ be, x = true) ∧ off % 4 = 0 ∧ d.hostHas f off = true) ∧
    (∃ (s : State) (f : Fin 32) (d : Dev) (off len : Nat) (be : List Bool), d = s.dev ∧ d.power.holds = [] ∧ d.sees f = true
      ∧ d.windowSide f false off = none ∧ (len ≠ 4 ∨ off % 4 ≠ 0 ∨ false ∈ be)) ∧
    (∃ (s : State) (f : Fin 32) (d : Dev) (off : Nat) (data : List Byte) (be : List Bool), d = s.dev ∧ d.power.holds = [] ∧
      d.sees f = true ∧ d.windowSide f false off = none ∧ (data.length ≠ 4 ∨ off % 4 ≠ 0 ∨ false ∈ be
      ∨ d.hostHas f off = false)) ∧
    (∃ (s : State) (f : Fin 32) (d : Dev) (off : Nat), d = s.dev ∧ d.power.holds = [] ∧ d.sees f = true ∧
      d.windowSide f false off = none) ∧
    (∃ (s : State) (f : Fin 32) (d : Dev) (off : Nat) (x : Side), d = s.dev ∧ d.power.holds = [] ∧ d.sees f = true ∧
      d.windowSide f false off = some x) ∧
    (∃ (s : State) (f : Fin 32) (d : Dev) (off : Nat) (x : Side), d = s.dev ∧ d.power.holds = [] ∧ d.sees f = true ∧
      d.windowSide f true off = some x) ∧
    (∃ (s : State) (f : Fin 32) (d : Dev) (off : Nat), d = s.dev ∧ d.power.holds = [] ∧ d.sees f = true ∧
      d.windowSide f true off = none) ∧
    (∃ (s : State) (f : Fin 32) (d : Dev) (off : Nat) (x : Side), d = s.dev ∧ d.power.holds = [] ∧ d.sees f = true ∧
      d.windowSide f true off = some x ∧ d.hidden x = false ∧ x.mgr = false) ∧
    (∃ (s : State) (f : Fin 32) (d : Dev) (off : Nat) (be : List Bool), d = s.dev ∧ d.power.holds = [] ∧ d.sees f = true ∧
      off % 4 = 0 ∧ off < 0x8000 ∧ (∀ x ∈ be, x = true)) ∧
    (∃ (s : State) (f : Fin 32) (d : Dev) (off : Nat) (be : List Bool), d = s.dev ∧ d.power.holds = [] ∧ d.sees f = true ∧
      off % 4 = 0 ∧ off < 0x8000 ∧ (∀ x ∈ be, x = true)) ∧
    (∃ (s : State) (f : Fin 32), s.dev.power.holds = [] ∧ s.dev.fnExists f = true ∧ s.dev.dlUp f = true ∧
      s.dev.sees f = false) ∧
    (∃ (s : State) (f : Fin 32), s.dev.power.holds = [] ∧ s.dev.fnExists f = true ∧ s.dev.dlUp f = true ∧
      s.dev.sees f = false) ∧
    (∃ (s : State) (f : Fin 32), s.dev.power.holds = [] ∧ s.dev.fnExists f = true ∧ s.dev.dlUp f = true) :=
  ⟨⟨upS, 3, 3, 0xFFC, _, by decide +kernel, by decide +kernel, by decide +kernel, by decide +kernel, rfl, by decide +kernel,
      by decide +kernel⟩,
   ⟨upS, 3, 3, 4, 6, 15, _, _, by decide +kernel, by decide +kernel, by decide +kernel, by decide +kernel, rfl,
      by decide +kernel, by decide +kernel, by decide +kernel, by decide +kernel, rfl⟩,
   ⟨upS, 3, 3, 0x78, 0x8000, 2, _, _, by decide +kernel, by decide +kernel, by decide +kernel, by decide +kernel, rfl,
      by decide +kernel, by decide +kernel, rfl, by decide +kernel, by decide +kernel, rfl⟩,
   ⟨(live fun x => { x with flr := true }), 3, 3, 0, _, by decide +kernel, by decide +kernel, by decide +kernel,
      by decide +kernel, rfl, by decide +kernel⟩,
   ⟨upS, 0, _, by decide +kernel, by decide +kernel, rfl, by decide +kernel⟩,
   ⟨on' { up with regs := [(0x14, 1)] }, 0, _, by decide +kernel, by decide +kernel, rfl, by decide +kernel⟩,
   ⟨on' { up with regs := [(0x14, 1)] }, 0, _, by decide +kernel, by decide +kernel, rfl, by decide +kernel⟩,
   ⟨upS, 3, _, 0x14, [true, true, true, true], _, rfl, by decide +kernel, by decide +kernel, by decide +kernel,
      by decide +kernel, by decide +kernel, by decide +kernel, rfl⟩,
   ⟨upS, 3, _, 0x3C, [], rfl, by decide +kernel, by decide +kernel, by decide +kernel, by decide +kernel, by decide +kernel,
      by decide +kernel⟩,
   ⟨upS, 3, _, 0x14, [true], rfl, by decide +kernel, by decide +kernel, by decide +kernel, by decide +kernel,
      by decide +kernel, by decide +kernel⟩,
   ⟨upS, 3, _, 0x14, 4, [true, false], rfl, by decide +kernel, by decide +kernel, by decide +kernel, by decide +kernel⟩,
   ⟨upS, 3, _, 0xC, [0, 0, 0, 0], [], rfl, by decide +kernel, by decide +kernel, by decide +kernel, by decide +kernel⟩,
   ⟨upS, 3, _, 0x14, rfl, by decide +kernel, by decide +kernel, by decide +kernel⟩,
   ⟨upS, 3, _, 0xEFFF, ⟨.function 3, false⟩, rfl, by decide +kernel, by decide +kernel, by decide +kernel⟩,
   ⟨upS, 3, _, 0x5FFF, ⟨.slice 5, true⟩, rfl, by decide +kernel, by decide +kernel, by decide +kernel⟩,
   ⟨upS, 3, _, 0x6000, rfl, by decide +kernel, by decide +kernel, by decide +kernel⟩,
   ⟨upS, 3, _, 0x4000, ⟨.slice 5, false⟩, rfl, by decide +kernel, by decide +kernel, by decide +kernel, by decide +kernel,
      by decide +kernel⟩,
   ⟨upS, 3, _, 0x7FFC, [true], rfl, by decide +kernel, by decide +kernel, by decide +kernel, by decide +kernel,
      by decide +kernel⟩,
   ⟨upS, 3, _, 0x7FFC, [true], rfl, by decide +kernel, by decide +kernel, by decide +kernel, by decide +kernel,
      by decide +kernel⟩,
   ⟨(live fun x => { x with mse := false }), 3, by decide +kernel, by decide +kernel, by decide +kernel, by decide +kernel⟩,
   ⟨(live fun x => { x with mse := false }), 3, by decide +kernel, by decide +kernel, by decide +kernel, by decide +kernel⟩,
   ⟨upS, 3, by decide +kernel, by decide +kernel, by decide +kernel⟩⟩

theorem wit_RegistersAndHbmAreReached :
    (∃ (s : State) (q : Requester) (off : Nat), s.reaches q off = true ∧ off < 2 ^ 32 ∧ off % 4 = 0) ∧
    (∃ (s : State) (q : Requester) (off : Nat), s.reaches q off = true ∧ off < 2 ^ 32) ∧
    (∃ (s : State) (q : Requester) (off : Nat), s.reaches q off = true ∧ off < 2 ^ 32 ∧ off % 4 = 0) ∧
    (∃ (s : State) (q : Requester) (off : Nat), s.reaches q off = true ∧ off < 2 ^ 32) ∧
    (∃ (s : State) (q : Requester) (off len : Nat), s.reaches q off = true ∧ off < 2 ^ 32 ∧ fullWidth q off len = false) ∧
    (∃ (s : State) (q : Requester) (off len : Nat), s.reaches q off = true ∧ off < 2 ^ 32 ∧ fullWidth q off len = false ∧
      trusted q = true) ∧
    (∃ (s : State) (q : Requester), s.reaches q 0x40 = true) ∧
    (∃ (s : State) (q : Requester), s.reaches q 0x44 = true) ∧
    (∃ (s : State), s.dev.cpUp = true ∧ (s.dev.fn 32).mse = false ∧ s.dev.power.holds = []) ∧
    (∃ (s : State) (a : Nat), s.dev.power.holds = [] ∧ 0x10400000 ≤ a ∧ a < 0x11000000) ∧
    (∃ (s : State) (a len : Nat) (r : List Byte × Bool × Dev), s.dev.power.holds = [] ∧ 0x10400000 ≤ a ∧ a < 0x11000000 ∧
      r = readMem 4 (a - 0x10000000) len s.dev) ∧
    (∃ (s : State) (c : Fin 16) (a : Nat), s.dev.power.holds = [] ∧ 0x10000000 ≤ a ∧ a < 0x10400000 ∧ 4 ≤ c.val) ∧
    (∃ (s : State) (c : Fin 16) (a : Nat), s.dev.power.holds = [] ∧ 0x10000000 ≤ a ∧ a < 0x10400000 ∧ 4 ≤ c.val) ∧
    (∃ (s : State) (a : Nat), s.dev.power.holds = [] ∧ 0x80000000 ≤ a ∧ a < 0x90000000) ∧
    (∃ (s : State) (a : Nat), s.dev.power.holds = [] ∧ 0x2000000 ≤ a ∧ a < 0x2000010) ∧
    (∃ (s : State) (a : Nat), s.dev.power.holds = [] ∧ 0x3000000 ≤ a ∧ a < 0x10000000) ∧
    (∃ (s : State) (off a : Nat), s.dev.sees 32 = true ∧ s.dev.power.holds = [] ∧ 4 ≤ s.dev.fld 0x14 3 0 ∧
      a = s.dev.aperture + off % 2 ^ 30 ∧ 15 * 2 ^ 30 ≤ hbmOff a ∧ (arenaSide a).filter (!·.mgr) = none) ∧
    (∃ (s : State) (off a : Nat), s.dev.sees 32 = true ∧ s.dev.power.holds = [] ∧ 4 ≤ s.dev.fld 0x14 3 0 ∧
      a = s.dev.aperture + off % 2 ^ 30 ∧ hbmOff a < 15 * 2 ^ 30) ∧
    (∃ (s : State) (off a : Nat), s.dev.sees 32 = true ∧ s.dev.power.holds = [] ∧ 4 ≤ s.dev.fld 0x14 3 0 ∧
      a = s.dev.aperture + off % 2 ^ 30 ∧ s.dev.mgrPage a = none ∧ apertureWritable a = true) ∧
    (∃ (s : State) (off a : Nat), s.dev.sees 32 = true ∧ s.dev.power.holds = [] ∧ 4 ≤ s.dev.fld 0x14 3 0 ∧
      a = s.dev.aperture + off % 2 ^ 30 ∧ s.dev.mgrPage a = none ∧ apertureWritable a = false) ∧
    (∃ (s : State) (off a : Nat) (m : Side), s.dev.sees 32 = true ∧ s.dev.power.holds = [] ∧ 4 ≤ s.dev.fld 0x14 3 0 ∧
      a = s.dev.aperture + off % 2 ^ 30 ∧ s.dev.mgrPage a = some m) :=
  ⟨⟨upS, .core 15, 0x10, by decide +kernel, by decide +kernel, by decide +kernel⟩,
   ⟨upS, .core 15, 0xFFFFFFFF, by decide +kernel, by decide +kernel⟩,
   ⟨upS, .core 15, 0x10, by decide +kernel, by decide +kernel, by decide +kernel⟩,
   ⟨upS, .core 15, 0x10, by decide +kernel, by decide +kernel⟩,
   ⟨upS, .core 15, 0x10, 8, by decide +kernel, by decide +kernel, by decide +kernel⟩,
   ⟨upS, .manager, 0x12, 4, by decide +kernel, by decide +kernel, by decide +kernel, by decide +kernel⟩,
   ⟨upS, .manager, by decide +kernel⟩,
   ⟨upS, .manager, by decide +kernel⟩,
   ⟨on' (updFn 32 (fun x => { x with mse := false }) up), by decide +kernel, by decide +kernel, by decide +kernel⟩,
   ⟨upS, 0x10400000, by decide +kernel, by decide +kernel, by decide +kernel⟩,
   ⟨upS, 0x10FFFFFF, 1, _, by decide +kernel, by decide +kernel, by decide +kernel, rfl⟩,
   ⟨upS, 4, 0x103FFFFF, by decide +kernel, by decide +kernel, by decide +kernel, by decide +kernel⟩,
   ⟨upS, 4, 0x10000000, by decide +kernel, by decide +kernel, by decide +kernel, by decide +kernel⟩,
   ⟨upS, 0x8FFFFFFF, by decide +kernel, by decide +kernel, by decide +kernel⟩,
   ⟨upS, 0x200000F, by decide +kernel, by decide +kernel, by decide +kernel⟩,
   ⟨upS, 0x3000000, by decide +kernel, by decide +kernel, by decide +kernel⟩,
   ⟨on' (setRegs [(0x44, 7), (0x40, 3221225472)] up), 0, _, by decide +kernel, by decide +kernel, by decide +kernel, rfl,
      by decide +kernel, by rw [arena_none _ (by decide +kernel)]; rfl⟩,
   ⟨on' (setRegs [(0x44, 0), (0x40, 0)] up), 0x3FFFFFFF, _, by decide +kernel, by decide +kernel, by decide +kernel, rfl,
      by decide +kernel⟩,
   ⟨on' (setRegs [(0x44, 7), (0x40, 4293918720)] up), 0, _, by decide +kernel, by decide +kernel, by decide +kernel, rfl,
      by rw [Dev.mgrPage, arena_none _ (by decide +kernel)]; rfl,
      by unfold apertureWritable; rw [show inTest (hbmMem _) (hbmOff _) = true from by decide +kernel]; simp⟩,
   ⟨on' (setRegs [(0x44, 0), (0x40, 0)] up), 0, 0, by decide +kernel, by decide +kernel, by decide +kernel,
      by decide +kernel, by rw [Dev.mgrPage, arena_none _ (by decide +kernel)]; rfl, zero_unwritable⟩,
   ⟨arenaAt, 0xB000, arenaBase + 0xB000, ⟨.slice 5, true⟩, arenaAt_mgr.1, by simp [arenaAt, on', setReg64]; rfl,
      arenaAt_mgr.2, by rw [arenaAt_aperture, Nat.mod_eq_of_lt (by decide)],
      by simp only [Dev.mgrPage, arenaSide, Nat.add_sub_cancel_left]; rw [if_neg (by simp)]; rfl⟩⟩

theorem wit_ConnectorsAndLinkControlsAct :
    (∃ (s : State) (q : Requester) (n : Fin 32) (v : Word) (d : Dev), s.reaches q (aHl n) = true ∧ trusted q = true ∧
      s.dev.secondOf n = false ∧ d = setFld (aHl n) 11 10 (wbits v 11 10) (setFld (aHl n) 15 12 (maxSpeed (wbits v 15 12))
      s.dev) ∧ (v.getLsbD 9 = s.dev.flag (aHl n) 9 ∨ n.val % 2 = 1) ∧ v.getLsbD 8 = s.dev.flag (aHl n) 8 ∧
      (v.getLsbD 7 && !v.getLsbD 8 && s.dev.dlUp n) = false) ∧
    (∃ (s : State) (q : Requester) (n : Fin 32) (v : Word) (d : Dev), s.reaches q (aHl n) = true ∧ trusted q = true ∧
      s.dev.secondOf n = false ∧ d = setFld (aHl n) 11 10 (wbits v 11 10) (setFld (aHl n) 15 12 (maxSpeed (wbits v 15 12))
      s.dev) ∧ (v.getLsbD 9 = s.dev.flag (aHl n) 9 ∨ n.val % 2 = 1) ∧ v.getLsbD 8 = true ∧ s.dev.flag (aHl n) 8 = false) ∧
    (∃ (s : State) (q : Requester) (n : Fin 32) (v : Word) (d : Dev), s.reaches q (aHl n) = true ∧ trusted q = true ∧
      s.dev.secondOf n = false ∧ d = setFld (aHl n) 11 10 (wbits v 11 10) (setFld (aHl n) 15 12 (maxSpeed (wbits v 15 12))
      s.dev) ∧ (v.getLsbD 9 = s.dev.flag (aHl n) 9 ∨ n.val % 2 = 1) ∧ v.getLsbD 8 = false ∧ s.dev.flag (aHl n) 8 = true ∧
      v.getLsbD 7 = false) ∧
    (∃ (s : State) (q : Requester) (n : Fin 32) (v : Word) (d : Dev), s.reaches q (aHl n) = true ∧ trusted q = true ∧
      s.dev.secondOf n = false ∧ d = setFld (aHl n) 11 10 (wbits v 11 10) (setFld (aHl n) 15 12 (maxSpeed (wbits v 15 12))
      s.dev) ∧ (v.getLsbD 9 = s.dev.flag (aHl n) 9 ∨ n.val % 2 = 1) ∧ v.getLsbD 8 = false ∧ s.dev.flag (aHl n) 8 = false ∧
      v.getLsbD 7 = true ∧ s.dev.dlUp n = true) ∧
    (∃ (s : State) (q : Requester) (n : Fin 32) (v : Word) (d : Dev), s.reaches q (aHl n) = true ∧ trusted q = true ∧
      s.dev.secondOf n = false ∧ d = setFld (aHl n) 11 10 (wbits v 11 10) (setFld (aHl n) 15 12 (maxSpeed (wbits v 15 12))
      s.dev) ∧ n.val % 2 = 0 ∧ v.getLsbD 9 ≠ s.dev.flag (aHl n) 9 ∧ v.getLsbD 8 = true ∧ s.dev.flag (aHl n) 8 = true ∧
      s.dev.mayPair n (v.getLsbD 9) = false) ∧
    (∃ (s : State) (q : Requester) (n : Fin 32) (v : Word) (d : Dev), s.reaches q (aHl n) = true ∧ trusted q = true ∧
      s.dev.secondOf n = false ∧ d = setFld (aHl n) 11 10 (wbits v 11 10) (setFld (aHl n) 15 12 (maxSpeed (wbits v 15 12))
      s.dev) ∧ n.val % 2 = 0 ∧ v.getLsbD 9 ≠ s.dev.flag (aHl n) 9 ∧ v.getLsbD 8 = true ∧ s.dev.flag (aHl n) 8 = true ∧
      s.dev.mayPair n (v.getLsbD 9) = true ∧ v.getLsbD 9 = false) ∧
    (∃ (s : State) (q : Requester) (n : Fin 32), s.reaches q (aHl n) = true ∧ trusted q = true ∧ s.dev.secondOf n = true) ∧
    (∃ (n : Nat) (p : Bool) (d : Dev), d.flag (aHl n) 8 = true ∧ d.flag (aHl (n + 1)) 8 = true ∧ d.dlUp n = false ∧
      d.dlUp (n + 1) = false ∧ (p = true → (d.slicesOf (n + 1)).isEmpty = true ∧ (d.fn (n + 1)).qLen = 0)) ∧
    (∃ (n : Nat) (p : Bool) (d : Dev), (d.flag (aHl n) 8 = false ∨ d.flag (aHl (n + 1)) 8 = false ∨ d.dlUp n = true
      ∨ d.dlUp (n + 1) = true ∨ (p = true ∧ ((d.slicesOf (n + 1)).isEmpty = false ∨ (d.fn (n + 1)).qLen ≠ 0)))) ∧
    (∃ (s : State) (q : Requester) (n : Fin 32) (v : Word) (p : Bool), s.reaches q (aHl n + 0x14) = true ∧ trusted q = true
      ∧ s.dev.secondOf n = false ∧ s.dev.paired n = false ∧ (v.getLsbD 8 = false ∨ s.dev.dlUp n = false) ∧
      p = (if v.getLsbD 0 && s.dev.flag (aConn n) 1 && v.getLsbD 3 then s.dev.flag (aConnCtrl n) 0 else v.getLsbD 0)) ∧
    (∃ (s : State) (q : Requester) (n : Fin 32), s.reaches q (aHl n + 0x14) = true ∧ trusted q = true ∧
      s.dev.secondOf n = true) ∧
    (∃ (n : Nat) (d : Dev) (k : Nat) (x : Slice), d.slices = [(k, x)] ∧ x.fn = n ∧ x.state = .hostLost) ∧
    (∃ (s : State) (n : Fin 32) (p : Bool), s.dev.flag (aConn n) 0 = p) ∧
    (∃ (s : State) (n : Fin 32) (d : Dev), s.dev.flag (aConn n) 0 = false ∧
      d = connBit n 10 (setFlag (aConn n) 0 true s.dev) ∧ (10000000 < d.time ∨ d.secondOf n = true)) ∧
    (∃ (s : State) (n : Fin 32) (d : Dev), s.dev.flag (aConn n) 0 = false ∧
      d = connBit n 10 (setFlag (aConn n) 0 true s.dev) ∧ d.time ≤ 10000000 ∧ d.secondOf n = false) ∧
    (∃ (s : State) (n : Fin 32) (d : Dev), s.dev.flag (aConn n) 0 = true ∧
      d = setFlag (aConn n) 1 false (connBit n 10 (setFlag (aConn n) 0 false s.dev)) ∧ d.secondOf n = true) ∧
    (∃ (s : State) (n : Fin 32) (d : Dev), s.dev.flag (aConn n) 0 = true ∧
      d = setFlag (aConn n) 1 false (connBit n 10 (setFlag (aConn n) 0 false s.dev)) ∧ d.secondOf n = false ∧
      d.dlUp n = true) ∧
    (∃ (s : State) (n : Fin 32) (d : Dev), s.dev.flag (aConn n) 0 = true ∧
      d = setFlag (aConn n) 1 false (connBit n 10 (setFlag (aConn n) 0 false s.dev)) ∧ d.secondOf n = false ∧
      d.dlUp n = false ∧ (d.link n).resetting = true) ∧
    (∃ (s : State) (n : Fin 32) (d : Dev), s.dev.flag (aConn n) 0 = true ∧
      d = setFlag (aConn n) 1 false (connBit n 10 (setFlag (aConn n) 0 false s.dev)) ∧ d.secondOf n = false ∧
      d.dlUp n = false ∧ (d.link n).resetting = false) ∧
    (∃ (s : State) (n : Fin 32) (m : Nat) (d : Dev), m = (if s.dev.secondOf n then n.val - 1 else n.val) ∧
      d = connBit n 12 (setFlag (aConn n) 1 true s.dev) ∧ s.dev.flag (aConnCtrl m) 3 = false) ∧
    (∃ (s : State) (n : Fin 32) (m : Nat) (d : Dev), m = (if s.dev.secondOf n then n.val - 1 else n.val) ∧
      d = connBit n 12 (setFlag (aConn n) 1 true s.dev) ∧ s.dev.flag (aConnCtrl m) 3 = true ∧ d.paired m = false) ∧
    (∃ (s : State) (n : Fin 32) (m : Nat) (d : Dev), m = (if s.dev.secondOf n then n.val - 1 else n.val) ∧
      d = connBit n 12 (setFlag (aConn n) 1 true s.dev) ∧ s.dev.flag (aConnCtrl m) 3 = true ∧ d.paired m = true) ∧
    (∃ (s : State) (n : Fin 32), s.dev.secondOf n = false) ∧
    (∃ (s : State) (n : Fin 32) (d : Dev), d = updLink n (fun x => { x with perst := true }) (setFlag (aConn n) 3 true
      s.dev) ∧ d.secondOf n = false) ∧
    (∃ (s : State) (n : Fin 32) (d : Dev), d = updLink n (fun x => { x with perst := true }) (setFlag (aConn n) 3 true
      s.dev) ∧ d.secondOf n = true) ∧
    (∃ (s : State) (n : Fin 32), s.dev.secondOf n = false ∧ s.dev.dlUp n = true) ∧
    (∃ (n : Nat) (d : Dev), d.secondOf n = false ∧ d.dlUp n = false) :=
  ⟨⟨upS, .core 0, 3, 0, _, by decide +kernel, by decide +kernel, by decide +kernel, rfl, by decide +kernel,
      by decide +kernel, by decide +kernel⟩,
   ⟨upS, .manager, 3, 0x100, _, by decide +kernel, by decide +kernel, by decide +kernel, rfl, by decide +kernel,
      by decide +kernel, by decide +kernel⟩,
   ⟨on' (setRegs [(aHl 5, 0x100)] up), .manager, 5, 0, _, by decide +kernel, by decide +kernel, by decide +kernel, rfl,
      by decide +kernel, by decide +kernel, by decide +kernel, by decide +kernel⟩,
   ⟨upS, .manager, 3, 0x80, _, by decide +kernel, by decide +kernel, by decide +kernel, rfl, by decide +kernel,
      by decide +kernel, by decide +kernel, by decide +kernel, by decide +kernel⟩,
   ⟨on' (setRegs [(aHl 4, 0x100)] up), .manager, 4, 0x300, _, by decide +kernel, by decide +kernel, by decide +kernel, rfl,
      by decide +kernel, by decide +kernel, by decide +kernel, by decide +kernel, by decide +kernel⟩,
   ⟨on' (setRegs [(aHl 4, 0x300), (aHl 5, 0x100)] up), .manager, 4, 0x100, _, by decide +kernel, by decide +kernel,
      by decide +kernel, rfl, by decide +kernel, by decide +kernel, by decide +kernel, by decide +kernel, by decide +kernel,
      by decide +kernel⟩,
   ⟨on' (setRegs [(aLinkStat 4, 0x400)] up), .manager, 5, by decide +kernel, by decide +kernel, by decide +kernel⟩,
   ⟨4, true, setRegs [(aHl 4, 0x100), (aHl 5, 0x100)] up, by decide +kernel, by decide +kernel, by decide +kernel,
      by decide +kernel, by decide +kernel⟩,
   ⟨3, false, up, by decide +kernel⟩,
   ⟨upS, .manager, 3, 1, _, by decide +kernel, by decide +kernel, by decide +kernel, by decide +kernel, by decide +kernel,
      rfl⟩,
   ⟨on' (setRegs [(aLinkStat 4, 0x400)] up), .manager, 5, by decide +kernel, by decide +kernel, by decide +kernel⟩,
   ⟨3, { up with slices := [(5, { sl with state := .hostLost })] }, 5, { sl with state := .hostLost }, by decide +kernel,
      by decide +kernel, by decide +kernel⟩,
   ⟨upS, 3, _, rfl⟩,
   ⟨on' { up with time := 10000001 }, 3, _, by decide +kernel, rfl, by decide +kernel⟩,
   ⟨upS, 3, _, by decide +kernel, rfl, by decide +kernel, by decide +kernel⟩,
   ⟨on' (setRegs [(aConn 5, 1), (aLinkStat 4, 0x400)] up), 5, _, by decide +kernel, rfl, by decide +kernel⟩,
   ⟨on' (setRegs [(aConn 3, 5)] up), 3, _, by decide +kernel, rfl, by decide +kernel, by decide +kernel⟩,
   ⟨on' (updLink 4 (fun x => { x with resetting := true }) (setRegs [(aConn 4, 5)] up)), 4, _, by decide +kernel, rfl,
      by decide +kernel, by decide +kernel, by decide +kernel⟩,
   ⟨on' (setRegs [(aConn 4, 5)] up), 4, _, by decide +kernel, rfl, by decide +kernel, by decide +kernel, by decide +kernel⟩,
   ⟨on' (setRegs [(aConnCtrl 31, 0)] up), 31, _, _, rfl, rfl, by decide +kernel⟩,
   ⟨upS, 31, _, _, rfl, rfl, by decide +kernel, by decide +kernel⟩,
   ⟨on' (setRegs [(aLinkStat 4, 0x400)] up), 5, _, _, rfl, rfl, by decide +kernel, by decide +kernel⟩,
   ⟨upS, 0, by decide +kernel⟩,
   ⟨upS, 31, _, rfl, by decide +kernel⟩,
   ⟨on' (setRegs [(aLinkStat 30, 0x400)] up), 31, _, rfl, by decide +kernel⟩,
   ⟨upS, 3, by decide +kernel, by decide +kernel⟩,
   ⟨4, up, by decide +kernel, by decide +kernel⟩⟩

theorem wit_LinksTrain :
    (∃ (s : State) (n : Fin 32) (ps pw lanes : Nat) (flit : Bool) (w both sp : Nat) (d : Dev), s.dev.secondOf n = false ∧
      s.dev.mayTrain n = true ∧ s.dev.dlUp n = false ∧ 0 < ps ∧ ps ≤ 6 ∧ pw ≤ 5 ∧
      w = min (min pw (widthOf lanes)) (s.dev.widthLimit n) ∧ 0 < w ∧ both = min ps (s.dev.fld (aHl n) 15 12) ∧
      sp = bestSpeed (s.dev.link n).excluded both ∧ d = setFlag (aLinkStat n) 12 (sp == 6 || flit) (setFld (aLinkStat n) 15
      13 w (setFld (aLinkStat n) 19 16 sp (setHlState n 4 (timeTo 30000000 s.dev)))) ∧ sp = both ∧
      w = min pw (s.dev.widthLimit n)) ∧
    (∃ (s : State) (n : Fin 32) (ps pw lanes : Nat) (flit : Bool) (w both sp : Nat) (d : Dev), s.dev.secondOf n = false ∧
      s.dev.mayTrain n = true ∧ s.dev.dlUp n = false ∧ 0 < ps ∧ ps ≤ 6 ∧ pw ≤ 5 ∧
      w = min (min pw (widthOf lanes)) (s.dev.widthLimit n) ∧ 0 < w ∧ both = min ps (s.dev.fld (aHl n) 15 12) ∧
      sp = bestSpeed (s.dev.link n).excluded both ∧ d = setFlag (aLinkStat n) 12 (sp == 6 || flit) (setFld (aLinkStat n) 15
      13 w (setFld (aLinkStat n) 19 16 sp (setHlState n 4 (timeTo 30000000 s.dev)))) ∧ (sp < both
      ∨ w < min pw (s.dev.widthLimit n))) ∧
    (∃ (ex : List Nat) (n m : Nat), bestSpeed ex n < m ∧ m ≤ n) ∧
    (∃ (s : State) (n : Fin 32) (sp k : Nat) (x : Link), s.dev.secondOf n = false ∧ k = mget 0 (s.dev.link n).eqFails sp + 1
      ∧ x = s.dev.link n ∧ k < 3) ∧
    (∃ (s : State) (n : Fin 32) (sp k : Nat) (x : Link), s.dev.secondOf n = false ∧ k = mget 0 (s.dev.link n).eqFails sp + 1
      ∧ x = s.dev.link n ∧ 3 ≤ k ∧ sp ∉ x.excluded) :=
  ⟨⟨on' train4, 4, 6, 4, 8, false, 4, 6, 6, _, by decide +kernel, by decide +kernel, by decide +kernel, by decide +kernel,
      by decide +kernel, by decide +kernel, by decide +kernel, by decide +kernel, by decide +kernel, by decide +kernel, rfl,
      by decide +kernel, by decide +kernel⟩,
   ⟨on' train4, 4, 6, 4, 4, true, 3, 6, 6, _, by decide +kernel, by decide +kernel, by decide +kernel, by decide +kernel,
      by decide +kernel, by decide +kernel, by decide +kernel, by decide +kernel, by decide +kernel, by decide +kernel, rfl,
      by decide +kernel⟩,
   ⟨[6], 6, 6, by decide +kernel, by decide +kernel⟩,
   ⟨upS, 3, 5, _, _, by decide +kernel, rfl, rfl, by decide +kernel⟩,
   ⟨on' (updLink 3 (fun x => { x with eqFails := [(5, 2)] }) up), 3, 5, _, _, by decide +kernel, rfl, rfl,
      by decide +kernel, by decide +kernel⟩⟩

theorem wit_LinksComeUpAndGoDown :
    (∃ (s : State) (n : Fin 32) (d : Dev), s.dev.dlUp n = false ∧ s.dev.hlState n = 4 ∧ s.dev.secondOf n = false ∧
      d = connBit n 9 (updLink n (fun x => { x with resetting := false, downSince := none }) (setFlag (aLinkStat n) 11 true
      s.dev)) ∧ (∀ k ∈ s.dev.slicesOf n, ∀ x, s.dev.slice k = some x → x.state ≠ .hostLost) ∧
      (s.dev.link n).resetting = false) ∧
    (∃ (s : State) (n : Fin 32) (d : Dev), s.dev.dlUp n = false ∧ s.dev.hlState n = 4 ∧ s.dev.secondOf n = false ∧
      d = connBit n 9 (updLink n (fun x => { x with resetting := false, downSince := none }) (setFlag (aLinkStat n) 11 true
      s.dev)) ∧ (∃ k ∈ s.dev.slicesOf n, ∃ x, s.dev.slice k = some x ∧ x.state = .hostLost) ∧
      (s.dev.link n).resetting = true) ∧
    (∃ (s : State) (n : Fin 32), s.dev.dlUp n = true) ∧
    (∃ (n : Nat) (d : Dev) (t : List Nat), t = d.time :: (d.link n).downs.filter (d.time < · + 1000000000) ∧ t.length ≤ 8) ∧
    (∃ (n : Nat) (d : Dev) (t : List Nat), t = d.time :: (d.link n).downs.filter (d.time < · + 1000000000) ∧ 8 < t.length) ∧
    (∃ (s : State) (n : Fin 32), s.dev.flag (aLinkStat n) 7 = true) ∧
    (∃ (s : State) (n : Fin 32) (t : Nat), (s.dev.link n).downSince = some t ∧ s.dev.flag (aConn n) 0 = true ∧
      s.dev.dlUp n = false) ∧
    (∃ (n : Nat) (d : Dev) (k : Nat) (x : Slice), d.slices = [(k, x)] ∧ x.fn = n ∧ x.state = .active ∧ d.pkts = []) :=
  ⟨⟨on' (setRegs [(aLinkStat 3, 0x400000)] up), 3, _, by decide +kernel, by decide +kernel, by decide +kernel, rfl,
      only5 _ sl _ _ (by decide +kernel) (by decide), by decide +kernel⟩,
   ⟨on' (slWith (fun x => { x with state := .hostLost }) (updLink 3 (fun x => { x with resetting := true }) (setRegs
      [(aLinkStat 3, 0x400000)] up))), 3, _, by decide +kernel, by decide +kernel, by decide +kernel, rfl,
      ⟨5, by decide +kernel, { sl with state := .hostLost }, by decide +kernel, rfl⟩, by decide +kernel⟩,
   ⟨upS, 3, by decide +kernel⟩,
   ⟨3, up, _, rfl, by decide +kernel⟩,
   ⟨3, updLink 3 (fun x => { x with downs := [0, 0, 0, 0, 0, 0, 0, 0] }) up, _, rfl, by decide +kernel⟩,
   ⟨on' (setRegs [(aLinkStat 3, 0x80)] up), 3, by decide +kernel⟩,
   ⟨on' (updLink 4 (fun x => { x with downSince := some 5 }) train4), 4, 5, by decide +kernel, by decide +kernel,
      by decide +kernel⟩,
   ⟨3, up, 5, sl, by decide +kernel, by decide +kernel, by decide +kernel, by decide +kernel⟩⟩

theorem wit_WidthsAndPartnerFaults :
    (∃ (s : State) (n : Fin 32) (w : Nat), s.dev.inL0 n = true ∧ s.dev.flag (aLinkStat n) 12 = true ∧
      s.dev.flag (aHl n + 8) 16 = true ∧ w = s.dev.fld (aLinkStat n) 15 13 ∧ min (s.dev.fld (aHl n + 8) 9 8) 2 + 1 < w) ∧
    (∃ (s : State) (n : Fin 32), s.dev.fld (aLinkStat n) 15 13 ≤ min (s.dev.fld (aHl n + 8) 9 8) 2 + 1) ∧
    (∃ (s : State) (n : Fin 32), s.dev.inL0 n = true ∧ s.dev.hlState n = 5 ∧ (s.dev.link n).widenAt = none) ∧
    (∃ (s : State) (n : Fin 32) (t : Nat), s.dev.inL0 n = true ∧ s.dev.hlState n = 5 ∧ (s.dev.link n).widenAt = some t) ∧
    (∃ (s : State) (n : Fin 32) (w : Nat), s.dev.inL0 n = true ∧ s.dev.flag (aLinkStat n) 12 = true ∧ 0 < w ∧
      w < (s.dev.link n).fullWidth ∧ w ≠ s.dev.fld (aLinkStat n) 15 13) ∧
    (∃ (s : State) (n : Fin 32) (w : Nat), s.dev.inL0 n = true ∧ s.dev.flag (aLinkStat n) 12 = true ∧ 0 < w ∧
      w = (s.dev.link n).fullWidth ∧ w ≠ s.dev.fld (aLinkStat n) 15 13) ∧
    (∃ (s : State) (n : Fin 32) (w : Nat), s.dev.inL0 n = true ∧ s.dev.flag (aLinkStat n) 12 = true ∧ 0 < w ∧
      w < (s.dev.link n).fullWidth ∧ w = s.dev.fld (aLinkStat n) 15 13) ∧
    (∃ (s : State) (n : Fin 32), s.dev.inL0 n = true ∧ (s.dev.fn n).aspm = true ∧ s.dev.pendingTlp n = false) ∧
    (∃ (s : State) (n : Fin 32), s.dev.hlState n = 6) ∧
    (∃ (s : State) (n : Fin 32), s.dev.dlUp n = true) ∧
    (∃ (s : State) (n : Fin 32) (c : Instr), s.dev.dlUp n = false ∧ c ∈ [Instr.flitError n true, .flitError n false,
      .badDllp n, .replayRollover n, .receiverOverflow n]) ∧
    (∃ (n m : Fin 32) (s t : State) (c : Instr), n ≠ m ∧ c ∈ [Instr.flitError n true, .flitError n false, .badDllp n,
      .replayRollover n, .receiverOverflow n] ∧ exec c s = .next t) ∧
    (∃ (n m : Fin 32) (s t : State) (c : Instr) (off : Nat), n ≠ m ∧ c ∈ [Instr.flitError n true, .flitError n false,
      .badDllp n, .replayRollover n, .receiverOverflow n] ∧ exec c s = .next t ∧ off < 0x10000) :=
  ⟨⟨on' (setRegs [(aLinkStat 3, 0x409800), (aHl 3 + 8, 0x10200)] up), 3, _, by decide +kernel, by decide +kernel,
      by decide +kernel, rfl, by decide +kernel⟩,
   ⟨on' (setRegs [(aLinkStat 3, 0x403800), (aHl 3 + 8, 0x10000)] up), 3, by decide +kernel⟩,
   ⟨on' (setRegs [(aLinkStat 3, 0x503800)] up), 3, by decide +kernel, by decide +kernel, by decide +kernel⟩,
   ⟨on' (updLink 3 (fun x => { x with widenAt := some 4 }) (setRegs [(aLinkStat 3, 0x503800)] up)), 3, 4, by decide +kernel,
      by decide +kernel, by decide +kernel⟩,
   ⟨on' (updLink 3 (fun x => { x with fullWidth := 4 }) (setRegs [(aLinkStat 3, 0x409800)] up)), 3, 3, by decide +kernel,
      by decide +kernel, by decide +kernel, by decide +kernel, by decide +kernel⟩,
   ⟨on' (updLink 3 (fun x => { x with fullWidth := 4 }) (setRegs [(aLinkStat 3, 0x407800)] up)), 3, 4, by decide +kernel,
      by decide +kernel, by decide +kernel, by decide +kernel, by decide +kernel⟩,
   ⟨on' (updLink 3 (fun x => { x with fullWidth := 4 }) (setRegs [(aLinkStat 3, 0x407800)] up)), 3, 3, by decide +kernel,
      by decide +kernel, by decide +kernel, by decide +kernel, by decide +kernel⟩,
   ⟨(live fun x => { x with aspm := true }), 3, by decide +kernel, by decide +kernel, by decide +kernel⟩,
   ⟨on' (setRegs [(aLinkStat 3, 0x600800)] up), 3, by decide +kernel⟩,
   ⟨upS, 3, by decide +kernel⟩,
   ⟨upS, 4, .badDllp 4, by decide +kernel, by decide +kernel⟩,
   ⟨3, 4, upS, _, .badDllp 3, by decide +kernel, by decide +kernel, rfl⟩,
   ⟨3, 4, upS, _, .badDllp 3, 0xFFFC, by decide +kernel, by decide +kernel, rfl, by decide +kernel⟩⟩

theorem wit_MailboxesCarryMessages :
    (∃ (s : State) (x : Side), s.comes (s.dev.sideFn x) = true ∧ s.dev.pairExists x.pair = true) ∧
    (∃ (s : State) (x : Side) (n : Fin 32) (v : Word) (d : Dev), s.comes (s.dev.sideFn x) = true ∧
      s.dev.pairExists x.pair = true ∧ (s.dev.side x).claimed.getLsbD n = true ∧ (wbits v 15 0 < 0xE000
      ∨ 0xEFFF < wbits v 15 0) ∧ d = updSide x (fun m =>
      { m with claimed := clrBit m.claimed n, rxPtr := mset 0 m.rxPtr n 0, rxStat := mset 0 m.rxStat n 0 }) s.dev ∧
      mget 0 (s.dev.side x).rxStat n ≠ 0xE002) ∧
    (∃ (s : State) (x : Side) (n : Fin 32) (v : Word) (d : Dev), s.comes (s.dev.sideFn x) = true ∧
      s.dev.pairExists x.pair = true ∧ (s.dev.side x).claimed.getLsbD n = true ∧ (wbits v 15 0 < 0xE000
      ∨ 0xEFFF < wbits v 15 0) ∧ d = updSide x (fun m =>
      { m with claimed := clrBit m.claimed n, rxPtr := mset 0 m.rxPtr n 0, rxStat := mset 0 m.rxStat n 0 }) s.dev ∧
      mget 0 (s.dev.side x).rxStat n = 0xE002) ∧
    (∃ (s : State) (x : Side) (n : Fin 32) (v : Word), s.comes (s.dev.sideFn x) = true ∧ s.dev.pairExists x.pair = true ∧
      ((s.dev.side x).claimed.getLsbD n = false ∨ (0xE000 ≤ wbits v 15 0 ∧ wbits v 15 0 ≤ 0xEFFF))) ∧
    (∃ (s : State) (x : Side) (v : Word), s.comes (s.dev.sideFn x) = true ∧ s.dev.pairExists x.pair = true ∧
      v.getLsbD 31 = true ∧ (∀ c, x.pair ≠ .core c) ∧ x.mgr = false) ∧
    (∃ (s : State) (x : Side) (v : Word), s.comes (s.dev.sideFn x) = true ∧ s.dev.pairExists x.pair = true ∧
      v.getLsbD 31 = false ∧ (∀ c, x.pair ≠ .core c) ∧ x.mgr = false) ∧
    (∃ (s : State) (x : Side), s.comes (s.dev.sideFn x) = true ∧ s.dev.pairExists x.pair = true ∧ (x.mgr = true ∨ ∃ c,
      x.pair = .core c)) ∧
    (∃ (s : State) (x : Side) (m : MbSide), s.comes (s.dev.sideFn x) = true ∧ s.dev.pairExists x.pair = true ∧
      m = s.dev.side x) ∧
    (∃ (s : State) (x : Side) (u : Bool), s.comes (s.dev.sideFn x) = true ∧ s.dev.pairExists x.pair = true ∧ u ≠ x.mgr) ∧
    (∃ (s : State) (x : Side) (off : Nat) (data : List Byte) (l : List Nat), s.comes (s.dev.sideFn x) = true ∧
      s.dev.pairExists x.pair = true ∧ l = (List.range data.length).map (off + ·)) ∧
    (∃ (s : State) (x : Side), s.comes (s.dev.sideFn x) = true ∧ s.dev.pairExists x.pair = true ∧ x.mgr = false ∧ (∃ f,
      x.pair = .function f)) ∧
    (∃ (s : State) (x : Side) (c : Instr), s.comes (s.dev.sideFn x) = true ∧ s.dev.pairExists x.pair = false ∧
      (∃ v n u off data ep, c = Instr.mbDbSet x v ∨ c = .mbClaim x v ∨ c = .mbRxAck x n v ∨ c = .mbSideReset x v
      ∨ c = .mbMaskWrite x u v ∨ c = .arenaPageWrite x u off data ep)) ∧
    (∃ (x : Side) (n : Nat) (d : Dev), n < 32 ∧ mbPostOk (d.side x) n = false) ∧
    (∃ (x : Side) (n : Nat) (d : Dev) (p : Word), n < 32 ∧ (d.side x).dbIn.getLsbD n = true ∧ p = mget 0 (d.side x).inPtr n) ∧
    (∃ (n : Nat), n < 32) ∧
    (∃ (x : Side) (d : Dev) (n : Nat), n < 32 ∧ (d.side x).dbIn = 0 ∧ (d.side x).claimed = 0 ∧
      (d.side (Side.other x)).claimed.getLsbD n = true) ∧
    (∃ (c : Fin 16), 4 ≤ c.val) ∧
    (∃ (x : Side) (o : Nat), (∀ c, x.pair = .core c → 4 ≤ c.val) ∧ o < 4096) :=
  ⟨⟨upS, ⟨.slice 5, false⟩, by decide +kernel, by decide +kernel⟩,
   ⟨on' (updSide ⟨.slice 5, false⟩ (fun m => { m with claimed := 0x80000000 }) up), ⟨.slice 5, false⟩, 31, 0xDFFF, _,
      by decide +kernel, by decide +kernel, by decide +kernel, by decide +kernel, rfl, by decide +kernel⟩,
   ⟨on' (updSide ⟨.slice 5, false⟩ (fun m => { m with claimed := 0x80000000, rxStat := [(31, 0xE002)] }) up), ⟨.slice 5,
      false⟩, 31, 0xF000, _, by decide +kernel, by decide +kernel, by decide +kernel, by decide +kernel, rfl,
      by decide +kernel⟩,
   ⟨on' (updSide ⟨.slice 5, false⟩ (fun m => { m with claimed := 0x80000000 }) up), ⟨.slice 5, false⟩, 31, 0xE000,
      by decide +kernel, by decide +kernel, by decide +kernel⟩,
   ⟨upS, ⟨.slice 5, false⟩, 0x80000000, by decide +kernel, by decide +kernel, by decide +kernel, by simp, by decide +kernel⟩,
   ⟨upS, ⟨.slice 5, false⟩, 0, by decide +kernel, by decide +kernel, by decide +kernel, by simp, by decide +kernel⟩,
   ⟨upS, ⟨.core 4, false⟩, by decide +kernel, by decide +kernel, .inr ⟨4, rfl⟩⟩,
   ⟨upS, ⟨.slice 5, false⟩, _, by decide +kernel, by decide +kernel, rfl⟩,
   ⟨upS, ⟨.slice 5, false⟩, true, by decide +kernel, by decide +kernel, by decide +kernel⟩,
   ⟨upS, ⟨.slice 5, false⟩, 0, [7], _, by decide +kernel, by decide +kernel, rfl⟩,
   ⟨upS, ⟨.function 3, false⟩, by decide +kernel, by decide +kernel, by decide +kernel, ⟨3, rfl⟩⟩,
   ⟨upS, ⟨.slice 6, true⟩, .mbDbSet ⟨.slice 6, true⟩ 1, by decide +kernel, by decide +kernel,
      ⟨1, 0, false, 0, [], false, .inl rfl⟩⟩,
   ⟨⟨.slice 5, false⟩, 31, (updSide ⟨.slice 5, false⟩ (fun m => { m with ptr := [(31, 0x1FFF0FFF)] }) up),
      by decide +kernel, by decide +kernel⟩,
   ⟨⟨.slice 5, false⟩, 31, (updSide ⟨.slice 5, false⟩ (fun m => { m with dbIn := 0x80000000 }) up), _, by decide +kernel,
      by decide +kernel, rfl⟩,
   ⟨31, by decide +kernel⟩,
   ⟨⟨.slice 5, false⟩, (updSide ⟨.slice 5, true⟩ (fun m => { m with claimed := 2 }) up), 1, by decide +kernel,
      by decide +kernel, by decide +kernel, by decide +kernel⟩,
   ⟨4, by decide +kernel⟩,
   ⟨⟨.core 4, true⟩, 4095, by intro c h; cases h; decide, by decide +kernel⟩⟩

/-! ### Line ports and the traffic manager -/

/-- A spilled packet of given bytes. -/
def hugePkt (b : List Byte) : Packet := { pkt0 with loc := .node (.dfltSvc 131 0) 131 true, bytes := b }
theorem huge_length (n : Nat) : (hugePkt (List.replicate n 0)).bytes.length = n := List.length_replicate

theorem huge_cells (n : Nat) : (on' { up with pkts := [hugePkt (List.replicate n 0)] }).dev.newCells (dieOfPort 131)
    (hugePkt (List.replicate n 0)) = cells n := by
  simp only [Dev.newCells, on', List.any_cons, List.any_nil, bne_self_eq_false, Bool.false_and, Bool.or_false]
  exact congrArg cells (huge_length n)

/-- Group 31 in mode 3, four ports of one lane, with port 127 set up by registers of its block. -/
def lp (l : List (Nat × Word)) (x : LPort := {}) : Dev :=
  let d := setRegs ((aLp 31, 3) :: l) up
  if x = {} then d else updPort 127 (fun _ => x) d
/-- Port 127 negotiating (STATE 1), training (STATE 2) or up (STATE 3, LINK_UP), with all rates offered. -/
def lpAt (st : Word) (x : LPort := {}) : Dev := lp [(aCtrl 127, 0x81C00000), (aStat 127, st)] x

theorem wit_LinePortsAreSet :
    (∃ (s : State) (q : Requester) (g : Fin 32) (k : Nat), s.reaches q (aLp g) = true ∧ trusted q = true ∧ k < 4 ∧
      s.dev.portExists (4 * g + k) = true ∧ s.dev.flag (aCtrl (4 * g + k)) 31 = true) ∧
    (∃ (s : State) (q : Requester) (g : Fin 32) (v : Word) (d : Dev), s.reaches q (aLp g) = true ∧ trusted q = true ∧
      (∀ k < 4, s.dev.portExists (4 * g + k) = true → s.dev.flag (aCtrl (4 * g + k)) 31 = false) ∧
      d = setFld (aLp g) 2 0 (wbits v 2 0) s.dev ∧ d.lpMode g = s.dev.lpMode g) ∧
    (∃ (s : State) (q : Requester) (g : Fin 32) (v : Word) (d : Dev), s.reaches q (aLp g) = true ∧ trusted q = true ∧
      (∀ k < 4, s.dev.portExists (4 * g + k) = true → s.dev.flag (aCtrl (4 * g + k)) 31 = false) ∧
      d = setFld (aLp g) 2 0 (wbits v 2 0) s.dev ∧ d.lpMode g ≠ s.dev.lpMode g) ∧
    (∃ (s : State) (q : Requester) (g : Fin 32) (k : Fin 4) (v : Word) (p : Nat) (d : Dev),
      s.reaches q (aLp g + 0x10) = true ∧ trusted q = true ∧ p = portKey g k ∧ s.dev.portExists p = true ∧
      d = setReg (aCtrl p) (v &&& 0xBFE03FFF) s.dev ∧ s.dev.flag (aCtrl p) 31 = true ∧ v.getLsbD 31 = false) ∧
    (∃ (s : State) (q : Requester) (g : Fin 32) (k : Fin 4) (v : Word) (p : Nat) (d : Dev),
      s.reaches q (aLp g + 0x10) = true ∧ trusted q = true ∧ p = portKey g k ∧ s.dev.portExists p = true ∧
      d = setReg (aCtrl p) (v &&& 0xBFE03FFF) s.dev ∧ s.dev.flag (aCtrl p) 31 = false ∧ v.getLsbD 31 = true) ∧
    (∃ (s : State) (q : Requester) (g : Fin 32) (k : Fin 4) (v : Word) (p : Nat) (d : Dev),
      s.reaches q (aLp g + 0x10) = true ∧ trusted q = true ∧ p = portKey g k ∧ s.dev.portExists p = true ∧
      d = setReg (aCtrl p) (v &&& 0xBFE03FFF) s.dev ∧ s.dev.flag (aCtrl p) 31 = true ∧ v.getLsbD 31 = true ∧
      v.getLsbD 30 = true) ∧
    (∃ (s : State) (q : Requester) (g : Fin 32) (k : Fin 4) (v : Word) (p : Nat) (d : Dev),
      s.reaches q (aLp g + 0x10) = true ∧ trusted q = true ∧ p = portKey g k ∧ s.dev.portExists p = true ∧
      d = setReg (aCtrl p) (v &&& 0xBFE03FFF) s.dev ∧ s.dev.flag (aCtrl p) 31 = v.getLsbD 31 ∧ v.getLsbD 30 = false) ∧
    (∃ (s : State) (q : Requester) (g : Fin 32) (k : Fin 4) (v : Word) (p : Nat) (d : Dev),
      s.reaches q (aLp g + 0x10) = true ∧ trusted q = true ∧ p = portKey g k ∧ s.dev.portExists p = true ∧
      d = setReg (aCtrl p) (v &&& 0xBFE03FFF) s.dev ∧ s.dev.flag (aCtrl p) 31 = false ∧ v.getLsbD 31 = false ∧
      v.getLsbD 30 = true) ∧
    (∃ (s : State) (q : Requester) (g : Fin 32) (k : Fin 4), s.reaches q (aLp g + 0x10) = true ∧ trusted q = true ∧
      s.dev.portExists (portKey g k) = false) :=
  ⟨⟨on' (lp [(aCtrl 127, 0x80000000)]), .core 0, 31, 3, by decide +kernel, by decide +kernel, by decide +kernel,
      by decide +kernel, by decide +kernel⟩,
   ⟨upS, .manager, 31, 6, _, by decide +kernel, by decide +kernel, by decide +kernel, rfl, by decide +kernel⟩,
   ⟨upS, .manager, 31, 5, _, by decide +kernel, by decide +kernel, by decide +kernel, rfl, by decide +kernel⟩,
   ⟨on' (lp [(aCtrl 127, 0x80000000)]), .manager, 31, 3, 0, _, _, by decide +kernel, by decide +kernel, rfl,
      by decide +kernel, rfl, by decide +kernel, by decide +kernel⟩,
   ⟨on' (lp []), .manager, 31, 3, 0x80000000, _, _, by decide +kernel, by decide +kernel, rfl, by decide +kernel, rfl,
      by decide +kernel, by decide +kernel⟩,
   ⟨on' (lp [(aCtrl 127, 0x80000000)]), .manager, 31, 3, 0xC0000000, _, _, by decide +kernel, by decide +kernel, rfl,
      by decide +kernel, rfl, by decide +kernel, by decide +kernel, by decide +kernel⟩,
   ⟨on' (lp []), .stitch 0 0, 31, 3, 0, _, _, by decide +kernel, by decide +kernel, rfl, by decide +kernel, rfl,
      by decide +kernel, by decide +kernel⟩,
   ⟨on' (lp []), .manager, 31, 3, 0x40000000, _, _, by decide +kernel, by decide +kernel, rfl, by decide +kernel, rfl,
      by decide +kernel, by decide +kernel, by decide +kernel⟩,
   ⟨upS, .manager, 31, 3, by decide +kernel, by decide +kernel, by decide +kernel⟩⟩

theorem wit_LinePortsNegotiate :
    (∃ (s : State) (g : Fin 32) (k : Fin 4) (p : Nat) (x : LPort), p = portKey g k ∧ x = s.dev.port p ∧
      s.dev.negotiating p = true ∧ s.dev.flag (aAn p) 15 = false ∧ x.anFailed = false) ∧
    (∃ (s : State) (g : Fin 32) (k : Fin 4) (p : Nat) (x : LPort), p = portKey g k ∧ x = s.dev.port p ∧
      s.dev.portExists p = true ∧ s.dev.lpState p = 1 ∧ x.restart = true) ∧
    (∃ (s : State) (g : Fin 32) (k : Fin 4) (p : Nat) (x : LPort) (rates : BitVec 3) (pause : BitVec 2) (d : Dev) (r : Nat),
      p = portKey g k ∧ x = s.dev.port p ∧ s.dev.negotiating p = true ∧
      d = updPort p (fun x => { x with nonce := 0 }) (setFld (aAn p) 15 10 (32 + 4 * rates.toNat + pause.toNat) s.dev) ∧
      topRate (d.allowedRates p &&& rates.toNat) = some r) ∧
    (∃ (s : State) (g : Fin 32) (k : Fin 4) (p : Nat) (x : LPort) (rates : BitVec 3) (pause : BitVec 2) (d : Dev),
      p = portKey g k ∧ x = s.dev.port p ∧ s.dev.negotiating p = true ∧
      d = updPort p (fun x => { x with nonce := 0 }) (setFld (aAn p) 15 10 (32 + 4 * rates.toNat + pause.toNat) s.dev) ∧
      topRate (d.allowedRates p &&& rates.toNat) = none) ∧
    (∃ (s : State) (g : Fin 32) (k : Fin 4) (p : Nat) (x : LPort), p = portKey g k ∧ x = s.dev.port p ∧
      s.dev.negotiating p = true ∧ x.nonce < 7) ∧
    (∃ (s : State) (g : Fin 32) (k : Fin 4) (p : Nat) (x : LPort), p = portKey g k ∧ x = s.dev.port p ∧
      s.dev.negotiating p = true ∧ x.nonce = 7) ∧
    (∃ (s : State) (g : Fin 32) (k : Fin 4) (p : Nat) (x : LPort) (n : Nat) (d : Dev), p = portKey g k ∧ x = s.dev.port p ∧
      s.dev.portExists p = true ∧ s.dev.lpState p = 2 ∧ n = mget 0 x.fails x.lastRate + 1 ∧
      d = updPort p (fun y => { y with fails := if n ≥ 3 then [] else [(x.lastRate, n)] }) (lpBit p 2 s.dev) ∧ n < 3 ∧
      d.allowedRates p ≠ 0) ∧
    (∃ (s : State) (g : Fin 32) (k : Fin 4) (p : Nat) (x : LPort) (n : Nat) (d d' : Dev), p = portKey g k ∧ x = s.dev.port p
      ∧ s.dev.portExists p = true ∧ s.dev.lpState p = 2 ∧ n = mget 0 x.fails x.lastRate + 1 ∧
      d = updPort p (fun y => { y with fails := if n ≥ 3 then [] else [(x.lastRate, n)] }) (lpBit p 2 s.dev) ∧ 3 ≤ n ∧
      d' = setFlag (aAn p) (16 + x.lastRate) true d ∧ d'.allowedRates p ≠ 0) ∧
    (∃ (s : State) (g : Fin 32) (k : Fin 4) (p : Nat) (x : LPort) (n : Nat) (d d' : Dev), p = portKey g k ∧ x = s.dev.port p
      ∧ s.dev.portExists p = true ∧ s.dev.lpState p = 2 ∧ n = mget 0 x.fails x.lastRate + 1 ∧
      d = updPort p (fun y => { y with fails := if n ≥ 3 then [] else [(x.lastRate, n)] }) (lpBit p 2 s.dev) ∧ 3 ≤ n ∧
      d' = setFlag (aAn p) (16 + x.lastRate) true d ∧ d'.allowedRates p = 0 ∧ d'.offeredRates p ≠ 0) :=
  ⟨⟨on' (lpAt 0x10000000), 31, 3, _, _, rfl, rfl, by decide +kernel, by decide +kernel, by decide +kernel⟩,
   ⟨on' (lpAt 0x10000000 { restart := true }), 31, 3, _, _, rfl, rfl, by decide +kernel, by decide +kernel,
      by decide +kernel⟩,
   ⟨on' (lpAt 0x10000000), 31, 3, _, _, 3, 0, _, 1, rfl, rfl, by decide +kernel, rfl, by decide +kernel⟩,
   ⟨on' (lpAt 0x10000000), 31, 3, _, _, 0, 0, _, rfl, rfl, by decide +kernel, rfl, by decide +kernel⟩,
   ⟨on' (lpAt 0x10000000 { nonce := 6 }), 31, 3, _, _, rfl, rfl, by decide +kernel, by decide +kernel⟩,
   ⟨on' (lpAt 0x10000000 { nonce := 7 }), 31, 3, _, _, rfl, rfl, by decide +kernel, by decide +kernel⟩,
   ⟨on' (lpAt 0x20000000 { fails := [(2, 1)], lastRate := 2 }), 31, 3, _, _, _, _, rfl, rfl, by decide +kernel,
      by decide +kernel, rfl, rfl, by decide +kernel, by decide +kernel⟩,
   ⟨on' (lpAt 0x20000000 { fails := [(2, 2)], lastRate := 2 }), 31, 3, _, _, _, _, _, rfl, rfl, by decide +kernel,
      by decide +kernel, rfl, rfl, by decide +kernel, rfl, by decide +kernel⟩,
   ⟨on' (lp [(aCtrl 127, 0x81000000), (aStat 127, 0x20000000)] { fails := [(2, 2)], lastRate := 2 }), 31, 3, _, _, _, _, _,
      rfl, rfl, by decide +kernel, by decide +kernel, rfl, rfl, by decide +kernel, rfl, by decide +kernel, by decide +kernel⟩⟩

theorem wit_LinePortsComeUpAndGoDown :
    (∃ (s : State) (g : Fin 32) (k : Fin 4) (p : Nat), p = portKey g k ∧ s.dev.portExists p = true ∧ s.dev.lrefOn p = true ∧
      (s.dev.lpState p = 2 ∨ s.dev.lpState p = 3)) ∧
    (∃ (s : State) (g : Fin 32) (k : Fin 4) (p : Nat) (d : Dev), p = portKey g k ∧ (s.dev.port p).aligned = true ∧
      d = portDown p 1 s.dev ∧ s.dev.flag (aStat p) 31 = false) ∧
    (∃ (s : State) (g : Fin 32) (k : Fin 4) (p : Nat) (d : Dev), p = portKey g k ∧ (s.dev.port p).aligned = true ∧
      d = portDown p 1 s.dev ∧ s.dev.flag (aStat p) 31 = true ∧ (flapCount p d).1 = false) ∧
    (∃ (s : State) (g : Fin 32) (k : Fin 4) (p : Nat) (d : Dev), p = portKey g k ∧ (s.dev.port p).aligned = true ∧
      d = portDown p 1 s.dev ∧ s.dev.flag (aStat p) 31 = true ∧ (flapCount p d).1 = true) ∧
    (∃ (g : Fin 32) (k : Fin 4) (p : Nat), p = portKey g k) ∧
    (∃ (s : State) (g : Fin 32) (k : Fin 4) (p : Nat), p = portKey g k ∧ s.dev.portExists p = true ∧ s.dev.lpState p = 5) ∧
    (∃ (s : State) (g : Fin 32) (k : Fin 4) (p : Nat) (lf rf : Bool) (d : Dev), p = portKey g k ∧ s.dev.portExists p = true
      ∧ d = linkJudge p (setFlag (aStat p) 26 rf (setFlag (aStat p) 27 lf s.dev)) ∧ (s.dev.flag (aStat p) 31 = false
      ∨ d.flag (aStat p) 31 = true)) ∧
    (∃ (s : State) (g : Fin 32) (k : Fin 4) (p : Nat) (lf rf : Bool) (d : Dev), p = portKey g k ∧ s.dev.portExists p = true
      ∧ d = linkJudge p (setFlag (aStat p) 26 rf (setFlag (aStat p) 27 lf s.dev)) ∧ s.dev.flag (aStat p) 31 = true ∧
      d.flag (aStat p) 31 = false) ∧
    (∃ (s : State) (g : Fin 32) (k : Fin 4) (p : Nat) (x : Bool) (d : Dev), p = portKey g k ∧ s.dev.portExists p = true ∧
      s.dev.flag (aStat p) 25 ≠ x ∧ d = setFlag (aStat p) 25 x s.dev) :=
  ⟨⟨on' (lpAt 0x30000000), 31, 3, _, rfl, by decide +kernel, by decide +kernel, by decide +kernel⟩,
   ⟨on' (lpAt 0x20000000 { aligned := true }), 31, 3, _, _, rfl, by decide +kernel, rfl, by decide +kernel⟩,
   ⟨on' (lpAt 0xB0000000 { aligned := true }), 31, 3, _, _, rfl, by decide +kernel, rfl, by decide +kernel,
      by decide +kernel⟩,
   ⟨on' (lpAt 0xB0000000 { aligned := true, downs := [0, 0, 0, 0, 0, 0, 0, 0] }), 31, 3, _, _, rfl, by decide +kernel, rfl,
      by decide +kernel, by decide +kernel⟩,
   ⟨31, 3, _, rfl⟩,
   ⟨on' (lpAt 0x50000000), 31, 3, _, rfl, by decide +kernel, by decide +kernel⟩,
   ⟨on' (lpAt 0x30000000 { aligned := true }), 31, 3, _, false, false, _, rfl, by decide +kernel, rfl, by decide +kernel⟩,
   ⟨on' (lpAt 0xB0000000 { aligned := true }), 31, 3, _, true, false, _, rfl, by decide +kernel, rfl, by decide +kernel,
      by decide +kernel⟩,
   ⟨on' (lpAt 0xB0000000), 31, 3, _, true, _, rfl, by decide +kernel, by decide +kernel, rfl⟩⟩

theorem wit_FramesComeAndGo :
    (∃ (s : State) (g : Fin 32) (k : Fin 4) (p : Nat), p = portKey g k ∧ s.dev.linkUp p = true ∧ s.dev.lpOn g = true) ∧
    (∃ (s : State) (g : Fin 32) (k : Fin 4) (f : List Byte) (p : Nat), p = portKey g k ∧ s.dev.linkUp p = true ∧
      s.dev.lpOn g = true ∧ be f 12 2 = 0x8808) ∧
    (∃ (s : State) (g : Fin 32) (k : Fin 4), s.dev.linkUp (portKey g k) = false) ∧
    (∃ (s : State) (g : Fin 32) (k : Fin 4) (p : Nat) (b : List Byte) (n : Nat), p = portKey g k ∧ s.dev.linkUp p = true ∧
      s.dev.lpOn g = true ∧ n = b.length + 4 ∧ 64 ≤ n ∧ n ≤ s.dev.maxFrame p ∧ n ≤ 16383 ∧ be b 12 2 ≠ 0x8808) ∧
    (∃ (s : State) (g : Fin 32) (k : Fin 4) (p : Nat) (b f : List Byte), p = portKey g k ∧ s.dev.linkUp p = true ∧
      s.dev.lpOn g = true ∧ f = b ++ fcsBytes b ∧ b.length = 60 ∧ 64 ≤ s.dev.maxFrame p ∧ be f 12 2 = 0x8808 ∧ be f 14 2 = 1
      ∧ be f 0 6 = 0x0180C2000001 ∧ s.dev.flow p = 1) ∧
    (∃ (max : Nat), max ≤ 16383) ∧
    (∃ (p : Nat) (b : List Byte) (d : Dev), d.flow p = 1 ∧ be b 14 2 = 1 ∧ be b 0 6 = 0x0180C2000001) ∧
    (∃ (s : State) (g : Fin 32) (k : Fin 4) (p : Nat) (d : Dev) (b : List Byte) (r : List (List Byte)), p = portKey g k ∧
      s.dev.linkUp p = true ∧ d = msSettle (p / 4) s.dev ∧ (d.port p).ctrl = b :: r) ∧
    (∃ (s : State) (g : Fin 32) (k : Fin 4) (p : Nat) (d : Dev) (q : Nat) (x : Packet), p = portKey g k ∧
      s.dev.linkUp p = true ∧ d = msSettle (p / 4) s.dev ∧ (d.port p).ctrl = [] ∧ q ∈ [1, 2, 3] ∧
      d.pkts.find? (fun y => y.loc == .mac p q) = some x ∧ (∀ q' < q, ∀ y ∈ d.pkts, q' ≠ 0 → y.loc ≠ .mac p q')) ∧
    (∃ (s : State) (g : Fin 32) (k : Fin 4) (p : Nat) (d : Dev) (q : Nat) (x : Packet), p = portKey g k ∧
      s.dev.linkUp p = true ∧ d = msSettle (p / 4) s.dev ∧ (d.port p).ctrl = [] ∧ q ∈ [1, 2, 3] ∧
      d.pkts.find? (fun y => y.loc == .mac p q) = some x ∧ (∀ q' < q, ∀ y ∈ d.pkts, q' ≠ 0 → y.loc ≠ .mac p q') ∧
      d.maxFrame p - 4 < x.bytes.length) ∧
    (∃ (s : State) (q : Requester) (g : Fin 32) (k : Fin 4) (p : Nat) (r : Nat × Dev), p = portKey g k ∧
      s.dev.portExists p = true ∧ s.reaches q (aPtp p + 4) = true ∧ r = ptpInfoRead false q p s.dev) ∧
    (∃ (s : State) (q : Requester) (g : Fin 32) (k : Fin 4) (p : Nat) (r : Nat × Dev), p = portKey g k ∧
      s.dev.portExists p = true ∧ s.reaches q (aPtp p + 0x10) = true ∧ r = ptpInfoRead true q p s.dev) ∧
    (∃ (p : Nat) (d : Dev) (e : PtpEntry) (r : List PtpEntry), (d.port p).ptpRx = e :: r ∧ (d.port p).ptpRxOvf = false) ∧
    (∃ (p : Nat) (d : Dev), (d.port p).ptpTx = []) :=
  ⟨⟨on' (lpAt 0xB0000000), 31, 3, _, rfl, by decide +kernel, by decide +kernel⟩,
   ⟨on' (lpAt 0xB0000000), 31, 3, (bs 60 [(12, 2, 0x0888)]), _, rfl, by decide +kernel, by decide +kernel, by decide +kernel⟩,
   ⟨upS, 31, 3, by decide +kernel⟩,
   ⟨on' (lpAt 0xB0000000), 31, 3, _, bs 60 [], _, rfl, by decide +kernel, by decide +kernel, rfl, by decide +kernel,
      by decide +kernel, by decide +kernel, by decide +kernel⟩,
   ⟨on' (lp [(aCtrl 127, 0x89C00000), (aStat 127, 0xB0000000)]), 31, 3, _, [1, 0x80, 0xC2, 0, 0, 1] ++ bs 54 [(6, 2,
      0x0888), (8, 2, 0x0100)], _, rfl, by decide +kernel, by decide +kernel, rfl, by decide +kernel, by decide +kernel,
      by decide +kernel, by decide +kernel, by decide +kernel, by decide +kernel⟩,
   ⟨16383, by decide +kernel⟩,
   ⟨127, [1, 0x80, 0xC2, 0, 0, 1] ++ bs 54 [(6, 2, 0x0888), (9, 1, 1)], lp [(aCtrl 127, 0x08000000)], by decide +kernel,
      by decide +kernel, by decide +kernel⟩,
   ⟨on' (lpAt 0xB0000000 { ctrl := [bs 60 []] }), 31, 3, _, _, bs 60 [], [], rfl, by decide +kernel, rfl, by decide +kernel⟩,
   ⟨on' { lpAt 0xB0000000 with pkts := [{ id := 4, loc := .mac 127 3, bytes := List.replicate 60 1, ingress := 0 }] }, 31,
      3, _, _, 3, { id := 4, loc := .mac 127 3, bytes := List.replicate 60 1, ingress := 0 }, rfl, by decide +kernel, rfl,
      by decide +kernel, by decide +kernel, by decide +kernel, by decide +kernel⟩,
   ⟨on' { lpAt 0xB0000000 with pkts := [{ id := 4, loc := .mac 127 3, bytes := List.replicate 1515 1, ingress := 0 }] }, 31,
      3, _, _, 3, { id := 4, loc := .mac 127 3, bytes := List.replicate 1515 1, ingress := 0 }, rfl, by decide +kernel, rfl,
      by decide +kernel, by decide +kernel, by decide +kernel, by decide +kernel, by decide +kernel⟩,
   ⟨on' (lpAt 0xB0000000), .manager, 31, 3, _, _, rfl, by decide +kernel, by decide +kernel, rfl⟩,
   ⟨on' (lpAt 0xB0000000), .core 15, 31, 3, _, _, rfl, by decide +kernel, by decide +kernel, rfl⟩,
   ⟨127, lp [] { ptpRx := [{ time := 1, type := 0, domain := 0, seq := 0 }] },
      { time := 1, type := 0, domain := 0, seq := 0 }, [], by decide +kernel, by decide +kernel⟩,
   ⟨127, up, by decide +kernel⟩⟩

theorem wit_FlowControlAndMacsec :
    (∃ (s : State) (g : Fin 32) (k : Fin 4) (c : Fin 8) (p : Nat) (x : LPort), p = portKey g k ∧ x = s.dev.port p ∧
      mget 0 x.pauseEnd c ≠ 0) ∧
    (∃ (s : State) (g : Fin 32) (k : Fin 4) (c : Fin 8) (p : Nat) (x : LPort) (due : Nat) (d : Dev), p = portKey g k ∧
      x = s.dev.port p ∧ 0 < s.dev.fld (aPfc p) 15 8 ∧ mget 0 x.pauseEnd c ≠ 0 ∧
      due = mget 0 x.pauseSince c + s.dev.fld (aPfc p) 15 8 * 1000000 ∧ due ≤ mget 0 x.pauseEnd c ∧ d = timeTo due s.dev) ∧
    (∃ (s : State) (g : Fin 32) (k : Fin 4) (c : Fin 8) (p : Nat) (x : LPort), p = portKey g k ∧ x = s.dev.port p ∧
      mget 0 x.ignoreEnd c ≠ 0) ∧
    (∃ (s : State) (g : Fin 32) (k : Fin 4) (c : Fin 8) (p : Nat) (x : LPort), p = portKey g k ∧ x = s.dev.port p ∧
      s.dev.flowOn p c = true ∧ s.dev.xoff p * 1024 ≤ s.dev.flowBytes p c ∧ mfind x.xoffAt (s.dev.flowKey p c) = none) ∧
    (∃ (s : State) (g : Fin 32) (k : Fin 4) (c : Fin 8) (p : Nat) (x : LPort) (t : Nat), p = portKey g k ∧ x = s.dev.port p
      ∧ mfind x.xoffAt (s.dev.flowKey p c) = some t ∧ s.dev.flowOn p c = true ∧ s.dev.xon p * 1024 < s.dev.flowBytes p c) ∧
    (∃ (s : State) (g : Fin 32) (k : Fin 4) (c : Fin 8) (p : Nat) (x : LPort) (t : Nat), p = portKey g k ∧ x = s.dev.port p
      ∧ mfind x.xoffAt (s.dev.flowKey p c) = some t ∧ s.dev.flowOn p c = true ∧ s.dev.flowBytes p c < s.dev.xon p * 1024) ∧
    (∃ (s : State) (q : Requester) (g : Fin 32), s.reaches q (aLp g + 0x8020) = true ∧ trusted q = true ∧
      s.dev.msBusy g = false) ∧
    (∃ (s : State) (q : Requester) (g : Fin 32) (c : Instr), s.reaches q (aLp g + 0x8020) = true ∧ trusted q = true ∧
      s.dev.msBusy g = true ∧ c ∈ [Instr.msWriteSa q g, .msReadSa q g, .msInvalidateSa q g]) ∧
    (∃ (g : Nat) (d e : Dev) (r : List Byte), d.msBusy g = true ∧ e = setFlag (aMsCmd g) 31 false d ∧ r = msRecord g e ∧
      d.fld (aMsCmd g) 1 0 = 1 ∧ saFault true r = none) ∧
    (∃ (g : Nat) (d e : Dev) (r : List Byte) (o : Nat), d.msBusy g = true ∧ e = setFlag (aMsCmd g) 31 false d ∧
      r = msRecord g e ∧ d.fld (aMsCmd g) 1 0 = 1 ∧ saFault true r = some o) ∧
    (∃ (g : Nat) (d e : Dev) (r : List Byte) (o : Nat), d.msBusy g = true ∧ e = setFlag (aMsCmd g) 31 false d ∧
      r = msRecord g e ∧ d.fld (aMsCmd g) 1 0 ∈ [2, 3] ∧ saFault false r = some o) ∧
    (∃ (g : Nat) (d e : Dev) (r x : List Byte), d.msBusy g = true ∧ e = setFlag (aMsCmd g) 31 false d ∧ r = msRecord g e ∧
      d.fld (aMsCmd g) 1 0 = 2 ∧ saFault false r = none ∧ saSlot g r e = some x) ∧
    (∃ (g : Nat) (d e : Dev) (r x : List Byte), d.msBusy g = true ∧ e = setFlag (aMsCmd g) 31 false d ∧ r = msRecord g e ∧
      d.fld (aMsCmd g) 1 0 = 3 ∧ saFault false r = none ∧ saSlot g r e = some x) ∧
    (∃ (g : Nat) (d e : Dev) (r : List Byte), d.msBusy g = true ∧ e = setFlag (aMsCmd g) 31 false d ∧ r = msRecord g e ∧
      d.fld (aMsCmd g) 1 0 ∈ [2, 3] ∧ saFault false r = none ∧ saSlot g r e = none) :=
  ⟨⟨on' (lp [] { pauseEnd := [(7, 300000000)] }), 31, 3, 7, _, _, rfl, rfl, by decide +kernel⟩,
   ⟨on' (lp [(aPfc 127, 0x100)] { pauseEnd := [(7, 300000000)] }), 31, 3, 7, _, _, _, _, rfl, rfl, by decide +kernel,
      by decide +kernel, rfl, by decide +kernel, rfl⟩,
   ⟨on' (lp [] { ignoreEnd := [(7, 9)] }), 31, 3, 7, _, _, rfl, rfl, by decide +kernel⟩,
   ⟨on'
      { lp [(aCtrl 127, 0x10000000), (aStat 127, 0xB0000000), (aPfc 127, 0x80), (aLp 31 + 0x7C, 0x20001)] with pkts := [{ id := 4, loc := .fifo 31 7, bytes := List.replicate 3000 1, ingress := 127 }] },
      31, 3, 7, _, _, rfl, rfl, by decide +kernel, by decide +kernel, by decide +kernel⟩,
   ⟨on'
      { lp [(aCtrl 127, 0x10000000), (aStat 127, 0xB0000000), (aPfc 127, 0x80), (aLp 31 + 0x7C, 0x20001)] { xoffAt := [(7, 5)] } with pkts := [{ id := 4, loc := .fifo 31 7, bytes := List.replicate 3000 1, ingress := 127 }] },
      31, 3, 7, _, _, 5, rfl, rfl, by decide +kernel, by decide +kernel, by decide +kernel⟩,
   ⟨on' (lp [(aCtrl 127, 0x10000000), (aStat 127, 0xB0000000), (aPfc 127, 0x80), (aLp 31 + 0x7C,
      0x20001)] { xoffAt := [(7, 5)] }), 31, 3, 7, _, _, 5, rfl, rfl, by decide +kernel, by decide +kernel,
      by decide +kernel⟩,
   ⟨upS, .core 3, 31, by decide +kernel, by decide +kernel, by decide +kernel⟩,
   ⟨on' (setRegs [(aMsCmd 31, 0x80000000)] up), .manager, 31, .msReadSa .manager 31, by decide +kernel, by decide +kernel,
      by decide +kernel, by simp⟩,
   ⟨31, setRegs [(aMsCmd 31, 0x80000001)] up, _, _, by decide +kernel, rfl, rfl, by decide +kernel, by decide +kernel⟩,
   ⟨31, setRegs [(aMsCmd 31, 0x80000001), (aMsData 31 0, 2)] up, _, _, 0, by decide +kernel, rfl, rfl, by decide +kernel,
      by decide +kernel⟩,
   ⟨31, setRegs [(aMsCmd 31, 0x80000002), (aMsData 31 0, 2)] up, _, _, 0, by decide +kernel, rfl, rfl, by decide +kernel,
      by decide +kernel⟩,
   ⟨31, (updPort 124 (fun x => { x with msTx := [(0, bs 80 [])] }) (setRegs [(aMsCmd 31, 0x80000002)] up)), _, _, bs 80 [],
      by decide +kernel, rfl, rfl, by decide +kernel, by decide +kernel, by decide +kernel⟩,
   ⟨31, (updPort 124 (fun x => { x with msTx := [(0, bs 80 [])] }) (setRegs [(aMsCmd 31, 0x80000003)] up)), _, _, bs 80 [],
      by decide +kernel, rfl, rfl, by decide +kernel, by decide +kernel, by decide +kernel⟩,
   ⟨31, setRegs [(aMsCmd 31, 0x80000002)] up, _, _, by decide +kernel, rfl, rfl, by decide +kernel, by decide +kernel,
      by decide +kernel⟩⟩

theorem wit_PassesRunAndPortsDecide :
    (∃ (s : State) (i : Nat) (p : Packet) (pl : Nat), s.dev.packet i = some p ∧ passPlace p = some pl ∧ s.dev.plOn pl = true
      ∧ (∀ x ∈ s.dev.pkts.takeWhile (·.id != i), sameLine p.loc x.loc = false) ∧ (∀ a h, p.loc ≠ .steer a h)) ∧
    (∃ (s : State) (i : Nat) (p : Packet) (pl a : Nat), s.dev.packet i = some p ∧ passPlace p = some pl ∧
      s.dev.plOn pl = true ∧ (∀ x ∈ s.dev.pkts.takeWhile (·.id != i), sameLine p.loc x.loc = false) ∧ p.loc = .steer a pl) ∧
    (∃ (s : State) (i : Nat) (p x : Packet), s.dev.packet i = some p ∧ x ∈ s.dev.pkts.takeWhile (·.id != i) ∧
      sameLine p.loc x.loc = true) ∧
    (∃ (s : State) (i : Nat) (p : Packet) (pl : Nat), s.dev.packet i = some p ∧ passPlace p = some pl ∧
      s.dev.plOn pl = false) ∧
    (∃ (s : State) (k : Fin 4) (c : Nat), c ∈ mget [] s.dev.ctxMiss k) ∧
    (∃ (s : State) (c : Nat), (∀ x ∈ s.dev.pkts, x.loc ≠ .tableWait c)) ∧
    (∃ (s : State) (c : Nat) (e g : Read) (p : Packet) (d : Dev) (r : Turn),
      s.dev.pkts.find? (fun p => p.loc == .tableWait c) = some p ∧ (s.dev.listRead c e = none ∨ ∃ f a b n,
      s.dev.listRead c e = some (f, a, b, n) ∧ s.dev.direct f [(b, n)] = true) ∧
      d = { s.dev with fns := mmap s.dev.fns fun _ x => tableReadDrop c x } ∧
      r = storageResume p c (bit (byteAt (p.todo.headD ⟨[], [],
      none⟩).op 7) 0) (s.dev.fns.any fun x => x.2.reads.any fun r => r.purpose == .placement c && x.2.xdenied.contains
      r.tag) e g d) ∧
    (∃ (s : State) (p : Fin 172) (root : NodeId) (subs : List NodeId) (d : Dev) (l : List Offer), root = NodeId.port p ∧
      subs = (nodeSettle root (nodesDue s.dev)).subsOf p ∧ d = each subs (fun n d => each ((List.range 8).map (svcNode n))
      nodeSettle (nodeSettle n d)) (nodeSettle root (nodesDue s.dev)) ∧ l = portOffers p d ∧ (d.node root).status = 2) ∧
    (∃ (s : State) (p : Fin 172) (root : NodeId) (subs : List NodeId) (d : Dev) (l : List Offer) (r : Option Offer × Dev),
      root = NodeId.port p ∧ subs = (nodeSettle root (nodesDue s.dev)).subsOf p ∧
      d = each subs (fun n d => each ((List.range 8).map (svcNode n)) nodeSettle (nodeSettle n d)) (nodeSettle root
      (nodesDue s.dev)) ∧ l = portOffers p d ∧ (d.node root).status ≠ 2 ∧ r = twoRounds root 0 l (loseDeficit subs l d) ∧
      r.1 = none) ∧
    (∃ (s : State) (p : Fin 172) (root : NodeId) (subs : List NodeId) (d : Dev) (l : List Offer) (r : Option Offer × Dev) (o
      : Offer) (e : Dev), root = NodeId.port p ∧ subs = (nodeSettle root (nodesDue s.dev)).subsOf p ∧
      d = each subs (fun n d => each ((List.range 8).map (svcNode n)) nodeSettle (nodeSettle n d)) (nodeSettle root
      (nodesDue s.dev)) ∧ l = portOffers p d ∧ (d.node root).status ≠ 2 ∧ r = twoRounds root 0 l (loseDeficit subs l d) ∧
      r.1 = some o ∧ e = (subOffer p o.node r.2).2 ∧ e.closedTo o.pkt = true) ∧
    (∃ (s : State) (p : Fin 172) (root : NodeId) (subs : List NodeId) (d : Dev) (l : List Offer) (r : Option Offer × Dev) (o
      : Offer) (e : Dev), root = NodeId.port p ∧ subs = (nodeSettle root (nodesDue s.dev)).subsOf p ∧
      d = each subs (fun n d => each ((List.range 8).map (svcNode n)) nodeSettle (nodeSettle n d)) (nodeSettle root
      (nodesDue s.dev)) ∧ l = portOffers p d ∧ (d.node root).status ≠ 2 ∧ r = twoRounds root 0 l (loseDeficit subs l d) ∧
      r.1 = some o ∧ e = (subOffer p o.node r.2).2 ∧ e.closedTo o.pkt = false) ∧
    (∃ (n : NodeId) (st : Nat) (l : List Offer) (d : Dev) (o : Offer), (twoRounds n st l d).1 = some o ∧ (∃ c ∈ l,
      (d.node c.node).status = 0)) ∧
    (∃ (n : NodeId) (st : Nat) (l : List Offer) (d : Dev) (o c : Offer), (roundPick n st l d).1 = some o ∧ c ∈ l ∧
      bit st (clsNode c.node) = true ∧ clsNode c.node < 8) ∧
    (∃ (s : State) (i : Nat) (p : Packet) (c port : Nat), s.dev.packet i = some p ∧ s.dev.ageCounter p = some (c, port)) ∧
    (∃ (s : State) (q : Requester) (v : Word) (n : Nat) (d : Dev), s.reaches q 0xC000000 = true ∧ trusted q = true ∧
      n = min 100000 (max 50 (wbits v 19 0)) ∧ d = setFld 0xC000000 19 0 n s.dev) :=
  ⟨⟨on' { up with pkts := [{ pkt0 with loc := .hostIn 31 }] }, 0, { pkt0 with loc := .hostIn 31 }, 7, by decide +kernel,
      by decide +kernel, by decide +kernel, by decide +kernel, by intro a h e; cases e⟩,
   ⟨on' { up with pkts := [{ pkt0 with loc := .steer 0 3 }] }, 0, { pkt0 with loc := .steer 0 3 }, 3, 0, by decide +kernel,
      by decide +kernel, by decide +kernel, by decide +kernel, by decide +kernel⟩,
   ⟨on' { up with pkts := [{ pkt0 with loc := .hostIn 31 }, { pkt0 with loc := .hostIn 31, id := 1 }] }, 1,
      { pkt0 with loc := .hostIn 31, id := 1 }, { pkt0 with loc := .hostIn 31 }, by decide +kernel, by decide +kernel,
      by decide +kernel⟩,
   ⟨on' (setRegs [(0xF800400, 0)] { up with pkts := [{ pkt0 with loc := .hostIn 31 }] }), 0,
      { pkt0 with loc := .hostIn 31 }, 7, by decide +kernel, by decide +kernel, by decide +kernel⟩,
   ⟨on' { up with ctxMiss := [(3, [7])] }, 3, 7, by decide +kernel⟩,
   ⟨upS, 7, by decide +kernel⟩,
   ⟨on' { up with pkts := [{ pkt0 with loc := .tableWait 7 }] }, 7, .timeout, .timeout, { pkt0 with loc := .tableWait 7 },
      _, _, by decide +kernel, .inl (by decide +kernel), rfl, rfl⟩,
   ⟨on' { up with nodes := [(171, { pir := 8 })] }, 171, _, _, _, _, rfl, rfl, rfl, rfl, by decide +kernel⟩,
   ⟨upS, 171, _, _, _, _, _, rfl, rfl, rfl, rfl, by decide +kernel, rfl, by decide +kernel⟩,
   ⟨on'
      { up with pkts := [{ pkt0 with loc := .node (.dfltSvc 171 7) 171 false }], slices := [(5, { sl with state := .closing })] },
      171, _, _, _, _, _,
      { node := .dflt 171, svc := .dfltSvc 171 7, pkt := { pkt0 with loc := .node (.dfltSvc 171 7) 171 false }, len := 60 },
      _, rfl, rfl, rfl, rfl, by decide +kernel, rfl, by decide +kernel, rfl, by decide +kernel⟩,
   ⟨on' { up with pkts := [{ pkt0 with loc := .node (.dfltSvc 171 7) 171 false }], slices := [(5, sl)] }, 171, _, _, _, _,
      _,
      { node := .dflt 171, svc := .dfltSvc 171 7, pkt := { pkt0 with loc := .node (.dfltSvc 171 7) 171 false }, len := 60 },
      _, rfl, rfl, rfl, rfl, by decide +kernel, rfl, by decide +kernel, rfl, by decide +kernel⟩,
   ⟨(.dflt 171), 0, [{ node := .dfltSvc 171 7, svc := .dfltSvc 171 7, pkt := pkt0, len := 84 }],
      { up with nodes := [(nodeKey (.dfltSvc 171 7), { c := 8000 })] },
      { node := .dfltSvc 171 7, svc := .dfltSvc 171 7, pkt := pkt0, len := 84 }, by decide +kernel, by decide +kernel⟩,
   ⟨(.dflt 171), 128, [{ node := .dfltSvc 171 7, svc := .dfltSvc 171 7, pkt := pkt0, len := 84 }], up,
      { node := .dfltSvc 171 7, svc := .dfltSvc 171 7, pkt := pkt0, len := 84 },
      { node := .dfltSvc 171 7, svc := .dfltSvc 171 7, pkt := pkt0, len := 84 }, by decide +kernel, by decide +kernel,
      by decide +kernel, by decide +kernel⟩,
   ⟨on' { up with pkts := [{ pkt0 with loc := .node (.dfltSvc 171 7) 171 false }] }, 0,
      { pkt0 with loc := .node (.dfltSvc 171 7) 171 false }, _, 171, by decide +kernel, rfl⟩,
   ⟨upS, .core 3, 0, _, _, by decide +kernel, by decide +kernel, rfl, rfl⟩⟩

theorem wit_PacketsAreAdmitted :
    (∃ (s : State) (i : Nat) (p : Packet) (port : Nat) (n : NodeId) (d : Dev), s.dev.packet i = some p ∧ (p.loc = .toTm port
      ∨ ∃ a b, p.loc = .transfer a b port) ∧ s.dev.firstOut p = true ∧ d = nodesDue s.dev ∧ n = d.nodeOf p port ∧
      d.refusedBy n port p = none) ∧
    (∃ (s : State) (i : Nat) (p : Packet) (port : Nat) (n : NodeId) (d : Dev) (c k : Nat), s.dev.packet i = some p ∧
      (p.loc = .toTm port ∨ ∃ a b, p.loc = .transfer a b port) ∧ s.dev.firstOut p = true ∧ d = nodesDue s.dev ∧
      n = d.nodeOf p port ∧ d.refusedBy n port p = some c ∧ (d.node (subNode n)).spillEn = true ∧
      d.spillUsed (dieOfPort port) + p.bytes.length ≤ 14336 * 2 ^ 20 ∧ d.spillQueue p = some k) ∧
    (∃ (s : State) (i : Nat) (p : Packet) (port : Nat) (n : NodeId) (d : Dev) (c : Nat) (up : Node → Node),
      s.dev.packet i = some p ∧ (p.loc = .toTm port ∨ ∃ a b, p.loc = .transfer a b port) ∧ s.dev.firstOut p = true ∧
      d = nodesDue s.dev ∧ n = d.nodeOf p port ∧ d.refusedBy n port p = some c ∧ (∀ x,
      up x = { x with drops := x.drops + 1 }) ∧ (d.node (subNode n)).spillEn = false) ∧
    (∃ (s : State) (i : Nat) (p : Packet) (port : Nat) (n : NodeId) (d : Dev) (c : Nat) (up : Node → Node),
      s.dev.packet i = some p ∧ (p.loc = .toTm port ∨ ∃ a b, p.loc = .transfer a b port) ∧ s.dev.firstOut p = true ∧
      d = nodesDue s.dev ∧ n = d.nodeOf p port ∧ d.refusedBy n port p = some c ∧ (∀ x,
      up x = { x with drops := x.drops + 1 }) ∧ (d.node (subNode n)).spillEn = true ∧ (d.spillQueue p = none
      ∨ 14336 * 2 ^ 20 < d.spillUsed (dieOfPort port) + p.bytes.length)) ∧
    (∃ (s : State) (i : Nat) (p : Packet) (port : Nat) (n : NodeId) (d : Dev) (c : Nat), s.dev.packet i = some p ∧
      (p.loc = .toTm port ∨ ∃ a b, p.loc = .transfer a b port) ∧ s.dev.firstOut p = true ∧ d = nodesDue s.dev ∧
      n = d.nodeOf p port ∧ d.refusedBy n port p = some c) ∧
    (∃ (s : State) (i : Nat) (p : Packet) (a b g : Nat), s.dev.packet i = some p ∧ p.loc = .cross a b ∧ p.dest = .group g ∧
      s.dev.firstOut p = true) ∧
    (∃ (s : State) (i : Nat) (p : Packet), s.dev.packet i = some p ∧ s.dev.firstOut p = false) ∧
    (∃ (s : State) (i : Nat) (p : Packet) (n : NodeId) (port : Nat), s.dev.packet i = some p ∧ p.loc = .node n port true ∧
      s.dev.bufUsed (dieOfPort port) + s.dev.newCells (dieOfPort port) p ≤ 2 ^ 26) ∧
    (∃ (s : State) (i : Nat) (p : Packet) (n : NodeId) (port : Nat), s.dev.packet i = some p ∧ p.loc = .node n port true ∧
      2 ^ 26 < s.dev.bufUsed (dieOfPort port) + s.dev.newCells (dieOfPort port) p) :=
  ⟨⟨on' { up with pkts := [{ pkt0 with loc := .toTm 171 }] }, 0, { pkt0 with loc := .toTm 171 }, 171, _, _,
      by decide +kernel, .inl rfl, by decide +kernel, rfl, rfl, by decide +kernel⟩,
   ⟨on'
      { qWith 1 (fun q => { q with spill := true }) with pkts := [{ pkt0 with loc := .toTm 131, bytes := List.replicate 1100 1 }], nodes := [(nodeKey (.dflt 131), { share := 1, spillEn := true })] },
      0, { pkt0 with loc := .toTm 131, bytes := List.replicate 1100 1 }, 131, _, _, 0x10, qKey (.slice 5) 1,
      by decide +kernel, .inl rfl, by decide +kernel, rfl, rfl, by decide +kernel, by decide +kernel, by decide +kernel,
      by decide +kernel⟩,
   ⟨on'
      { qWith 1 (fun q => { q with spill := true }) with pkts := [{ pkt0 with loc := .toTm 131, bytes := List.replicate 1100 1 }], nodes := [(nodeKey (.dflt 131), { share := 1 })] },
      0, { pkt0 with loc := .toTm 131, bytes := List.replicate 1100 1 }, 131, _, _, 0x10, _, by decide +kernel, .inl rfl,
      by decide +kernel, rfl, rfl, by decide +kernel, fun _ => rfl, by decide +kernel⟩,
   ⟨on'
      { up with pkts := [{ pkt0 with loc := .toTm 131, bytes := List.replicate 1100 1 }], nodes := [(nodeKey (.dflt 131), { share := 1, spillEn := true })] },
      0, { pkt0 with loc := .toTm 131, bytes := List.replicate 1100 1 }, 131, _, _, 0x10, _, by decide +kernel, .inl rfl,
      by decide +kernel, rfl, rfl, by decide +kernel, fun _ => rfl, by decide +kernel, by decide +kernel⟩,
   ⟨on'
      { qWith 1 (fun q => { q with spill := true }) with pkts := [{ pkt0 with loc := .toTm 131, bytes := List.replicate 1100 1 }], nodes := [(nodeKey (.dflt 131), { share := 1 })] },
      0, { pkt0 with loc := .toTm 131, bytes := List.replicate 1100 1 }, 131, _, _, 0x10, by decide +kernel, .inl rfl,
      by decide +kernel, rfl, rfl, by decide +kernel⟩,
   ⟨on' { up with pkts := [{ pkt0 with loc := .cross 0 1, dest := .group 3 }] }, 0,
      { pkt0 with loc := .cross 0 1, dest := .group 3 }, 0, 1, 3, by decide +kernel, by decide +kernel, by decide +kernel,
      by decide +kernel⟩,
   ⟨on'
      { up with pkts := [{ pkt0 with loc := .transfer 0 1 131, id := 0 }, { pkt0 with loc := .transfer 0 1 131, id := 1 }] },
      1, { pkt0 with loc := .transfer 0 1 131, id := 1 }, by decide +kernel, by decide +kernel⟩,
   ⟨on' { up with pkts := [{ pkt0 with loc := .node (.dfltSvc 131 0) 131 true }] }, 0,
      { pkt0 with loc := .node (.dfltSvc 131 0) 131 true }, .dfltSvc 131 0, 131, by decide +kernel, by decide +kernel,
      by decide +kernel⟩,
   ⟨on' { up with pkts := [hugePkt (List.replicate (2 ^ 26 + 1) 0)] }, 0, hugePkt _, .dfltSvc 131 0, 131, rfl, rfl,
      Nat.lt_of_lt_of_le (by rw [huge_cells]; decide) (Nat.le_add_left _ _)⟩⟩

/-! ### The manager complex -/

/-- Channel 15 of engine 0 running a program of manager memory address 0, at PC `pc`. -/
def stAt (x : Chan) (pc : Nat) : Dev :=
  { up with
    chans := [(15, { x with state := 2, prog := 2 ^ 61, pc := 2 ^ 61 + pc })]
    engines := [(0, { running := some 15 })] }
/-- A MOVE of 16 bytes from manager memory to HBM, stepped by level 0, the last of its program. -/
def mv16 : List Byte := bs 32 [(0, 1, 1), (1, 1, 1), (4, 4, 16), (8, 8, 2 ^ 61 + 0x100), (16, 8, 2 ^ 60 + 16), (28, 4, 0xFFFFFFF0)]
/-- A LOOP back over one instruction while n of level 3 is below 2. -/
def loop2 : List Byte := bs 32 [(0, 1, 2), (2, 1, 3), (3, 1, 1), (4, 4, 2)]
/-- A WAIT for device time 40. -/
def wait40 : List Byte := bs 32 [(0, 1, 3), (2, 1, 2), (8, 8, 40)]
/-- A WAIT until the word at manager memory address 8 is 5 in its low byte, for at most 2 µs. -/
def wait5 : List Byte := bs 32 [(0, 1, 3), (4, 4, 2), (8, 8, 2 ^ 61 + 8), (16, 4, 0xFF), (20, 4, 5)]
/-- A SIGNAL that writes a word to an address. -/
def sig (a : Nat) : List Byte := bs 32 [(0, 1, 4), (2, 1, 3), (8, 8, a), (16, 4, 9)]

/-- A flash operation waiting in the SPI registers. -/
def spi (op a n : Nat) : State := on' (setRegs [(0x200, word (2 ^ 30 + op)), (0x204, word a), (0x208, word n)] up)

/-- Reading one byte of a memory in which nothing was ever stored. -/
theorem empty_word (m o : Nat) (d : Dev) (hm : d.mem = []) (hc : d.chk = []) : d.rawWord m o = (0, 0) := by
  simp only [Dev.rawWord, cellAt, hm, hc]; rfl
theorem empty_byte (m o : Nat) (d : Dev) (hm : d.mem = []) (hc : d.chk = []) : (readMem m o 1 d).1 = [0] := by
  have hn : (wordsOf o 1).length = 1 := by simp [wordsOf]
  have hw : (readWord m (o / 8 * 8) d).1.data = 0 := by simp only [readWord, empty_word m _ d hm hc]; rfl
  have ho := Nat.mod_lt o (show 0 < 8 by decide)
  simp only [readMem, hn, readWords, hw, List.append_nil]
  generalize o % 8 = k at ho
  interval_cases k <;> rfl

theorem wit_CoresAndWatchdogs :
    (∃ (s : State) (c : Fin 16), 4 ≤ c.val ∧ s.reaches .manager (aCore c) = true) ∧
    (∃ (s : State) (c : Fin 16), 4 ≤ c.val ∧ s.reaches .manager (aCore c) = true ∧ s.dev.flag (aCore c) 31 = false) ∧
    (∃ (s : State) (c : Fin 16), 4 ≤ c.val ∧ s.reaches .manager (aCore c) = true ∧ s.dev.flag (aCore c) 31 = true) ∧
    (∃ (s : State) (c : Fin 16) (d : Dev) (b : Nat), 4 ≤ c.val ∧ s.reaches .manager (aCore c) = true ∧
      b = (d.reg (aCore c + 4)).toNat ∧ s.dev.flag (aCore c) 31 = true ∧ d = coreHeld c false s.dev ∧ 0x10400000 ≤ b ∧
      b < 0x11000000) ∧
    (∃ (s : State) (c : Fin 16) (d : Dev) (b : Nat), 4 ≤ c.val ∧ s.reaches .manager (aCore c) = true ∧
      b = (d.reg (aCore c + 4)).toNat ∧ s.dev.flag (aCore c) 31 = true ∧ d = coreHeld c false s.dev ∧ ¬ (0x10400000 ≤ b ∧
      b < 0x11000000)) ∧
    (∃ (s : State) (c : Fin 16) (d : Dev) (b : Nat), 4 ≤ c.val ∧ s.reaches .manager (aCore c) = true ∧
      b = (d.reg (aCore c + 4)).toNat ∧ s.dev.flag (aCore c) 31 = false ∧ d = coreHeld c false (coreReset c s.dev) ∧
      0x10400000 ≤ b ∧ b < 0x11000000) ∧
    (∃ (s : State) (c : Fin 16) (d : Dev) (b : Nat), 4 ≤ c.val ∧ s.reaches .manager (aCore c) = true ∧
      b = (d.reg (aCore c + 4)).toNat ∧ s.dev.flag (aCore c) 31 = false ∧ d = coreHeld c false (coreReset c s.dev) ∧
      ¬ (0x10400000 ≤ b ∧ b < 0x11000000)) ∧
    (∃ (s : State) (q : Requester) (c : Fin 16), (q ≠ .manager ∨ c.val < 4) ∧ s.reaches q (aCore c) = true) ∧
    (∃ (c : Nat), c < 16) ∧
    (∃ (c : Nat) (d : Dev) (e : Nat × Option Nat), c < 16 ∧ e ∈ (coreReset c d).locks) ∧
    (∃ (s : State) (c : Fin 16) (v : Word) (d : Dev), 4 ≤ c.val ∧ s.reaches .manager (aCore c + 0xC) = true ∧
      d = setReg (aCore c + 0xC) (v &&& 0xC000FFFF) s.dev ∧ v.getLsbD 31 = false) ∧
    (∃ (s : State) (c : Fin 16) (v : Word) (d : Dev), 4 ≤ c.val ∧ s.reaches .manager (aCore c + 0xC) = true ∧
      d = setReg (aCore c + 0xC) (v &&& 0xC000FFFF) s.dev ∧ v.getLsbD 31 = true) ∧
    (∃ (s : State) (c : Fin 16), 4 ≤ c.val ∧ s.reaches (.core c) (aCore c + 0x10) = true) ∧
    (∃ (s : State) (q : Requester) (c : Fin 16), q ≠ .core c ∧ s.reaches q (aCore c + 0x10) = true) ∧
    (∃ (s : State) (c : Fin 16) (w : Word) (d d' : Dev), 4 ≤ c.val ∧ w = s.dev.reg (aCore c + 0xC) ∧ w.getLsbD 31 = true ∧
      d = raise 0x0D c 0 0 (setFlag (aCore c + 8) 2 true (timeTo ((s.dev.core c).wdogStart + max 1 (wbits w 15 0) * 1000000)
      s.dev)) ∧ d' = updCore c (fun x => { x with wdogStart := d.time }) d ∧ w.getLsbD 30 = false) ∧
    (∃ (s : State) (c : Fin 16) (w : Word) (d d' r : Dev), 4 ≤ c.val ∧ w = s.dev.reg (aCore c + 0xC) ∧ w.getLsbD 31 = true ∧
      d = raise 0x0D c 0 0 (setFlag (aCore c + 8) 2 true (timeTo ((s.dev.core c).wdogStart + max 1 (wbits w 15 0) * 1000000)
      s.dev)) ∧ d' = updCore c (fun x => { x with wdogStart := d.time }) d ∧ w.getLsbD 30 = true ∧ r = coreReset c d' ∧
      r.flag (aCore c) 31 = true) ∧
    (∃ (s : State) (c : Fin 16) (w : Word) (d d' r : Dev), 4 ≤ c.val ∧ w = s.dev.reg (aCore c + 0xC) ∧ w.getLsbD 31 = true ∧
      d = raise 0x0D c 0 0 (setFlag (aCore c + 8) 2 true (timeTo ((s.dev.core c).wdogStart + max 1 (wbits w 15 0) * 1000000)
      s.dev)) ∧ d' = updCore c (fun x => { x with wdogStart := d.time }) d ∧ w.getLsbD 30 = true ∧ r = coreReset c d' ∧
      r.flag (aCore c) 31 = false) ∧
    (∃ (s : State) (c : Fin 16), (c.val < 4 ∨ (s.dev.reg (aCore c + 0xC)).getLsbD 31 = false)) :=
  ⟨⟨upS, 4, by decide +kernel, by decide +kernel⟩,
   ⟨on' (setRegs [(aCore 4, 0)] up), 4, by decide +kernel, by decide +kernel, by decide +kernel⟩,
   ⟨upS, 4, by decide +kernel, by decide +kernel, by decide +kernel⟩,
   ⟨on' (setRegs [(aCore 4 + 4, 0x10FFFFFF)] up), 4, _, _, by decide +kernel, by decide +kernel, rfl, by decide +kernel,
      rfl, by decide +kernel⟩,
   ⟨on' (setRegs [(aCore 4 + 4, 0x11000000)] up), 4, _, _, by decide +kernel, by decide +kernel, rfl, by decide +kernel,
      rfl, by decide +kernel⟩,
   ⟨on' (setRegs [(aCore 15, 0), (aCore 15 + 4, 0x10400000)] up), 15, _, _, by decide +kernel, by decide +kernel, rfl,
      by decide +kernel, rfl, by decide +kernel⟩,
   ⟨on' (setRegs [(aCore 15, 0), (aCore 15 + 4, 0x103FFFFF)] up), 15, _, _, by decide +kernel, by decide +kernel, rfl,
      by decide +kernel, rfl, by decide +kernel⟩,
   ⟨upS, .core 15, 15, by decide +kernel, by decide +kernel⟩,
   ⟨15, by decide +kernel⟩,
   ⟨15, { up with locks := [(6, some 3), (7, some 15)] }, (6, some 3), by decide +kernel, by decide +kernel⟩,
   ⟨upS, 15, 0x40000005, _, by decide +kernel, by decide +kernel, rfl, by decide +kernel⟩,
   ⟨upS, 4, 0x80000005, _, by decide +kernel, by decide +kernel, rfl, by decide +kernel⟩,
   ⟨upS, 15, by decide +kernel, by decide +kernel⟩,
   ⟨upS, .core 3, 4, by decide +kernel, by decide +kernel⟩,
   ⟨on' (setRegs [(aCore 4 + 0xC, 0x80000005)] up), 4, _, _, _, by decide +kernel, rfl, by decide +kernel, rfl, rfl,
      by decide +kernel⟩,
   ⟨on' (setRegs [(aCore 15 + 0xC, 0xC0000000)] up), 15, _, _, _, _, by decide +kernel, rfl, by decide +kernel, rfl, rfl,
      by decide +kernel, rfl, by decide +kernel⟩,
   ⟨on' (setRegs [(aCore 15, 0), (aCore 15 + 0xC, 0xC0000000)] up), 15, _, _, _, _, by decide +kernel, rfl,
      by decide +kernel, rfl, rfl, by decide +kernel, rfl, by decide +kernel⟩,
   ⟨upS, 15, by decide +kernel⟩⟩

theorem wit_InterruptsAreClaimed :
    (∃ (s : State) (c : Fin 16), s.reaches (.core c) (aIc c 0) = true) ∧
    (∃ (s : State) (c : Fin 16), s.reaches .manager (aIc c 0) = true) ∧
    (∃ (s : State) (c : Fin 16) (n : Nat) (d : Dev), s.reaches (.core c) (aIc c 0) = true ∧ (s.dev.core c).claim = some n ∧
      d = updCore c (fun x => { x with claim := none }) s.dev ∧ (icClaim c n d).1 = true) ∧
    (∃ (s : State) (c : Fin 16) (n : Nat) (d : Dev), s.reaches (.core c) (aIc c 0) = true ∧ (s.dev.core c).claim = some n ∧
      d = updCore c (fun x => { x with claim := none }) s.dev ∧ (icClaim c n d).1 = false) ∧
    (∃ (s : State) (q : Requester) (c : Fin 16), s.reaches q (aIc c 0) = true ∧ (q ≠ .core c ∨ (s.dev.core c).claim = none)) ∧
    (∃ (c n : Nat) (d : Dev), 64 ≤ n ∧ n ≤ 1087 ∧ (mget {} d.ic n).target = c) ∧
    (∃ (c n : Nat) (d : Dev), 64 ≤ n ∧ (1087 < n ∨ (mget {} d.ic n).target ≠ c)) ∧
    (∃ (s : State) (q : Requester) (c : Fin 16), s.reaches q (aIc c 0x30) = true) ∧
    (∃ (s : State) (q : Requester), s.reaches q 0xE882000 = true) ∧
    (∃ (s : State) (q : Requester) (n : Fin 1024) (v : Word), s.reaches q 0xE880000 = true ∧ managerOr03 q = true ∧
      (v.getLsbD 30 = false ∨ (137 ≤ n.val ∧ n.val < 144) ∨ 512 ≤ n.val)) ∧
    (∃ (s : State) (q : Requester) (n : Fin 1024) (v : Word), s.reaches q 0xE880000 = true ∧ managerOr03 q = true ∧
      v.getLsbD 30 = true ∧ (n.val ≤ 136 ∨ (144 ≤ n.val ∧ n.val < 512))) ∧
    (∃ (s : State) (q : Requester), s.reaches q 0xE880000 = true ∧ managerOr03 q = false) :=
  ⟨⟨upS, 15, by decide +kernel⟩,
   ⟨upS, 0, by decide +kernel⟩,
   ⟨on' (updCore 15 (fun x => { x with claim := some 64 })
      { up with ic := [(64, { target := 15, enable := true, pending := true })] }), 15, 64, _, by decide +kernel,
      by decide +kernel, rfl, by decide +kernel⟩,
   ⟨on' (updCore 0 (fun x => { x with claim := some 1087 }) up), 0, 1087, _, by decide +kernel, by decide +kernel, rfl,
      by decide +kernel⟩,
   ⟨upS, .core 3, 4, by decide +kernel, by decide +kernel⟩,
   ⟨15, 1087, { up with ic := [(1087, { target := 15 })] }, by decide +kernel, by decide +kernel, by decide +kernel⟩,
   ⟨3, 64, up, by decide +kernel, by decide +kernel⟩,
   ⟨upS, .core 3, 15, by decide +kernel⟩,
   ⟨upS, .manager, by decide +kernel⟩,
   ⟨upS, .core 3, 137, 0x40000000, by decide +kernel, by decide +kernel, by decide +kernel⟩,
   ⟨upS, .manager, 136, 0x40000000, by decide +kernel, by decide +kernel, by decide +kernel, by decide +kernel⟩,
   ⟨upS, .core 4, by decide +kernel, by decide +kernel⟩⟩

theorem wit_LocksAndI2cMasters :
    (∃ (s : State) (l : List Requester) (i : Fin 256) (k : Nat) (r : List (Requester × Nat) × Dev),
      s.dev.serves (2 ^ 32) = true ∧ r = lockRead (l.eraseDups.filter s.dev.admits) i k s.dev) ∧
    (∃ (i : Nat) (d : Dev) (o : Nat), mget none d.locks i = some o) ∧
    (∃ (l : List Requester) (i k : Nat) (d : Dev) (o : Nat) (x : Requester × Nat), mget none d.locks i = some o ∧
      x ∈ (lockRead l i k d).1) ∧
    (∃ (l : List Requester) (i : Nat) (d : Dev), mget none d.locks i = none ∧ (∃ q ∈ l, masterId q ≠ none)) ∧
    (∃ (s : State) (q : Requester) (i : Fin 256) (m : Nat), s.reaches q (aLock i) = true ∧ masterId q = some m ∧
      mget none s.dev.locks i = some m) ∧
    (∃ (s : State) (q : Requester) (i : Fin 256) (m : Nat), s.reaches q (aLock i) = true ∧ masterId q = some m ∧
      mget none s.dev.locks i ≠ some m) ∧
    (∃ (s : State) (q : Requester) (n : Fin 8) (v : Word) (d : Dev), s.reaches q (aI2c n + 4) = true ∧
      s.dev.i2cBusy n = false ∧ v.getLsbD 30 = true ∧ s.dev.flag (aI2c n) 31 = true ∧ wbits v 15 8 ≤ 64 ∧ wbits v 7 0 ≤ 64 ∧
      d = i2cSync n (setFld (aI2c n + 8) 15 2 0 (setReg (aI2c n + 4) ((v &&& 0x23FFFFFF) ||| 0x80000000) s.dev))) ∧
    (∃ (s : State) (q : Requester) (n : Fin 8) (v : Word), s.reaches q (aI2c n + 4) = true ∧ (s.dev.i2cBusy n = true
      ∨ (v.getLsbD 30 = true ∧ (s.dev.flag (aI2c n) 31 = false ∨ 64 < wbits v 15 8 ∨ 64 < wbits v 7 0)))) ∧
    (∃ (s : State) (q : Requester) (n : Fin 8), s.reaches q (aI2c n) = true ∧ s.dev.i2cBusy n = false ∧
      s.dev.flag (aI2c n) 31 = true) ∧
    (∃ (s : State) (q : Requester) (n : Fin 8), s.reaches q (aI2c n) = true ∧ (s.dev.i2cBusy n = true
      ∨ s.dev.flag (aI2c n) 31 = false)) ∧
    (∃ (s : State) (n : Fin 8) (rl wl : Nat), s.dev.i2cBusy n = true ∧ rl = s.dev.fld (aI2c n + 4) 15 8 ∧
      wl = s.dev.fld (aI2c n + 4) 7 0) ∧
    (∃ (s : State) (n : Fin 8) (rl wl : Nat), s.dev.i2cBusy n = true ∧ rl = s.dev.fld (aI2c n + 4) 15 8 ∧
      wl = s.dev.fld (aI2c n + 4) 7 0) ∧
    (∃ (s : State) (n : Fin 8) (rl wl : Nat), s.dev.i2cBusy n = true ∧ rl = s.dev.fld (aI2c n + 4) 15 8 ∧
      wl = s.dev.fld (aI2c n + 4) 7 0) ∧
    (∃ (n : Nat), n < 8) :=
  ⟨⟨upS, [.core 3, .stitch 0 0], 255, 1, _, by decide +kernel, rfl⟩,
   ⟨0, { up with locks := [(0, some 32)] }, 32, by decide +kernel⟩,
   ⟨[.core 3], 0, 0, { up with locks := [(0, some 32)] }, 32, (.core 3, 32), by decide +kernel, by decide +kernel⟩,
   ⟨[.stitch 15 3, .core 2], 255, up, by decide +kernel, by decide +kernel⟩,
   ⟨on' { up with locks := [(255, some 32)] }, .manager, 255, 32, by decide +kernel, by decide +kernel, by decide +kernel⟩,
   ⟨upS, .core 15, 0, 15, by decide +kernel, by decide +kernel, by decide +kernel⟩,
   ⟨on' (setRegs [(aI2c 7, 0x80000000)] up), .core 3, 7, 0x40004040, _, by decide +kernel, by decide +kernel,
      by decide +kernel, by decide +kernel, by decide +kernel, by decide +kernel, rfl⟩,
   ⟨on' (setRegs [(aI2c 7, 0x80000000)] up), .core 3, 7, 0x40004100, by decide +kernel, by decide +kernel⟩,
   ⟨on' (setRegs [(aI2c 7, 0x80000000)] up), .manager, 7, by decide +kernel, by decide +kernel, by decide +kernel⟩,
   ⟨upS, .manager, 7, by decide +kernel, by decide +kernel⟩,
   ⟨on' (setRegs [(aI2c 7, 0x80000000), (aI2c 7 + 4, 0x80000403)] up), 7, _, _, by decide +kernel, rfl, rfl⟩,
   ⟨on' (setRegs [(aI2c 7, 0x80000000), (aI2c 7 + 4, 0x80000403)] up), 7, _, _, by decide +kernel, rfl, rfl⟩,
   ⟨on' (setRegs [(aI2c 7, 0x80000000), (aI2c 7 + 4, 0x80000403)] up), 7, _, _, by decide +kernel, rfl, rfl⟩,
   ⟨7, by decide +kernel⟩⟩

theorem wit_ChannelsStartAndStop :
    (∃ (s : State) (q : Requester) (e : Fin 2) (ch : Fin 16) (v : Word) (d : Dev), s.reaches q 0xF000000 = true ∧
      managerOr03 q = true ∧ (ch.val ≠ 0 ∨ q ≠ .manager) ∧ (v.getLsbD 29 = (s.dev.chan e ch).customer ∨ ch.val = 0) ∧
      d = setChan e ch (fun x => { x with intEn := wbits v 2 0 }) s.dev ∧ (d.chan e ch).state = 0 ∧ v.getLsbD 31 = true ∧
      v.getLsbD 30 = false) ∧
    (∃ (s : State) (q : Requester) (e : Fin 2) (ch : Fin 16) (v : Word) (d : Dev), s.reaches q 0xF000000 = true ∧
      managerOr03 q = true ∧ (ch.val ≠ 0 ∨ q ≠ .manager) ∧ (v.getLsbD 29 = (s.dev.chan e ch).customer ∨ ch.val = 0) ∧
      d = setChan e ch (fun x => { x with intEn := wbits v 2 0 }) s.dev ∧ (d.chan e ch).state ∈ [1, 2, 3] ∧
      v.getLsbD 31 = true ∧ v.getLsbD 30 = false) ∧
    (∃ (s : State) (q : Requester) (e : Fin 2) (ch : Fin 16) (v : Word) (d : Dev), s.reaches q 0xF000000 = true ∧
      managerOr03 q = true ∧ (ch.val ≠ 0 ∨ q ≠ .manager) ∧ (v.getLsbD 29 = (s.dev.chan e ch).customer ∨ ch.val = 0) ∧
      d = setChan e ch (fun x => { x with intEn := wbits v 2 0 }) s.dev ∧ (d.chan e ch).state < 3 ∧ v.getLsbD 31 = false ∧
      v.getLsbD 30 = true) ∧
    (∃ (s : State) (q : Requester) (e : Fin 2) (ch : Fin 16) (v : Word) (d : Dev), s.reaches q 0xF000000 = true ∧
      managerOr03 q = true ∧ (ch.val ≠ 0 ∨ q ≠ .manager) ∧ (v.getLsbD 29 = (s.dev.chan e ch).customer ∨ ch.val = 0) ∧
      d = setChan e ch (fun x => { x with intEn := wbits v 2 0 }) s.dev ∧ (d.chan e ch).state = 4 ∧ v.getLsbD 31 = false ∧
      v.getLsbD 30 = false) ∧
    (∃ (s : State) (e : Fin 2) (f : Read) (ch : Nat) (rest : List Nat) (d : Dev) (r : Option Nat × List Byte × Dev),
      s.dev.engine e = { queue := ch :: rest, running := none } ∧
      d = setChan e ch (fun x => { x with state := 2, pc := x.prog }) (updEngine e (fun _ =>
      { queue := rest, running := some ch }) s.dev) ∧ r = stFetch s.nv e ch f d ∧ r.1 = none) ∧
    (∃ (s : State) (e : Fin 2) (f : Read) (ch : Nat) (rest : List Nat) (d : Dev) (r : Option Nat × List Byte × Dev) (k :
      Nat), s.dev.engine e = { queue := ch :: rest, running := none } ∧
      d = setChan e ch (fun x => { x with state := 2, pc := x.prog }) (updEngine e (fun _ =>
      { queue := rest, running := some ch }) s.dev) ∧ r = stFetch s.nv e ch f d ∧ r.1 = some k) ∧
    (∃ (s : State) (e : Fin 2) (ch : Nat), (s.dev.engine e).running = some ch) ∧
    (∃ (s : State) (e : Fin 2) (ch : Fin 16), (s.dev.chan e ch).state = 3 ∧ (s.dev.engine e).running ≠ some ch.val) ∧
    (∃ (s : State) (e : Fin 2) (ch : Fin 16) (f : Read) (r : Option Nat × List Byte × Dev), (s.dev.chan e ch).state = 3 ∧
      (s.dev.engine e).running = some ch.val ∧ r = stFetch s.nv e ch f s.dev ∧ r.1 = none) ∧
    (∃ (e ch : Nat), e < 2 ∧ ch < 16) :=
  ⟨⟨upS, .core 3, 1, 15, 0x80000007, _, by decide +kernel, by decide +kernel, by decide +kernel, by decide +kernel, rfl,
      by decide +kernel, by decide +kernel, by decide +kernel⟩,
   ⟨on' (stAt {} 0), .core 3, 0, 15, 0x80000007, _, by decide +kernel, by decide +kernel, by decide +kernel,
      by decide +kernel, rfl, by decide +kernel, by decide +kernel, by decide +kernel⟩,
   ⟨on' { up with engines := [(1, { queue := [15, 3] })], chans := [(31, { state := 1, customer := true })] }, .manager, 1,
      15, 0x60000007, _, by decide +kernel, by decide +kernel, by decide +kernel, by decide +kernel, rfl, by decide +kernel,
      by decide +kernel, by decide +kernel⟩,
   ⟨on' { up with chans := [(0, { state := 4, customer := true })] }, .core 0, 0, 0, 0, _, by decide +kernel,
      by decide +kernel, by decide +kernel, by decide +kernel, rfl, by decide +kernel, by decide +kernel, by decide +kernel⟩,
   ⟨on' { up with engines := [(1, { queue := [15, 3] })], chans := [(31, { state := 1, prog := 2 ^ 61 })] }, 1, .ok mv16,
      15, [3], _, _, by decide +kernel, rfl, rfl, by decide +kernel⟩,
   ⟨on' { up with engines := [(1, { queue := [15, 3] })], chans := [(31, { state := 1, prog := 2 ^ 61 })] }, 1, .timeout,
      15, [3], _, _, stTimeout, by decide +kernel, rfl, rfl, by decide +kernel⟩,
   ⟨on' (stAt {} 0), 0, 15, by decide +kernel⟩,
   ⟨on' { up with chans := [(31, { state := 3 })] }, 1, 15, by decide +kernel, by decide +kernel⟩,
   ⟨on' { stAt {} 0 with chans := [(15, { state := 3, prog := 2 ^ 61, pc := 2 ^ 61 })] }, 0, 15, .ok mv16, _,
      by decide +kernel, by decide +kernel, rfl, by decide +kernel⟩,
   ⟨1, 15, by decide +kernel, by decide +kernel⟩⟩

theorem wit_StitchProgramsRun :
    (∃ (s : State) (e : Fin 2) (ch : Nat) (f : Read) (b : List Byte) (d : Dev) (x : Chan) (r : StRead) (data : Read),
      (s.dev.engine e).running = some ch ∧ (s.dev.chan e ch).waiting = none ∧ (s.dev.chan e ch).state = 2 ∧
      stFetch s.nv e ch f s.dev = (none, b, d) ∧ stOp b = 1 ∧ x = d.chan e ch ∧
      d.stMoveCheck x (stSrc x b) (stDst x b) (stLen b) = stOk ∧ r = stRead s.nv e ch (stSrc x b) (stLen b) data d ∧
      r.st = stOk) ∧
    (∃ (s : State) (e : Fin 2) (ch : Nat) (f : Read) (b : List Byte) (d : Dev) (l : Bool × Nat) (n : Nat),
      (s.dev.engine e).running = some ch ∧ (s.dev.chan e ch).waiting = none ∧ (s.dev.chan e ch).state = 2 ∧
      stFetch s.nv e ch f s.dev = (none, b, d) ∧ stOp b = 2 ∧ l = (d.chan e ch).levels.getD (byteAt b 2) (false, 0) ∧
      n = (if l.1 then l.2 else 0) ∧ n < le b 4 4) ∧
    (∃ (s : State) (e : Fin 2) (ch : Nat) (f : Read) (b : List Byte) (d : Dev) (l : Bool × Nat) (n : Nat),
      (s.dev.engine e).running = some ch ∧ (s.dev.chan e ch).waiting = none ∧ (s.dev.chan e ch).state = 2 ∧
      stFetch s.nv e ch f s.dev = (none, b, d) ∧ stOp b = 2 ∧ l = (d.chan e ch).levels.getD (byteAt b 2) (false, 0) ∧
      n = (if l.1 then l.2 else 0) ∧ le b 4 4 ≤ n) ∧
    (∃ (s : State) (e : Fin 2) (ch : Nat) (f : Read) (b : List Byte) (d : Dev), (s.dev.engine e).running = some ch ∧
      (s.dev.chan e ch).waiting = none ∧ (s.dev.chan e ch).state = 2 ∧ stFetch s.nv e ch f s.dev = (none, b, d) ∧ stOp b = 3
      ∧ byteAt b 2 = 2 ∧ le b 8 8 ≤ d.time) ∧
    (∃ (s : State) (e : Fin 2) (ch : Nat) (f : Read) (b : List Byte) (d : Dev) (w : Read) (r : StRead),
      (s.dev.engine e).running = some ch ∧ (s.dev.chan e ch).waiting = none ∧ (s.dev.chan e ch).state = 2 ∧
      stFetch s.nv e ch f s.dev = (none, b, d) ∧ stOp b = 3 ∧ byteAt b 2 < 2 ∧ r = stRead s.nv e ch (stAddr b) 4 w d ∧
      r.st = stOk ∧ r.poisoned = false ∧ stHolds b (leNat r.bytes) = true) ∧
    (∃ (s : State) (e : Fin 2) (ch : Nat) (f : Read) (b : List Byte) (d : Dev) (w : Read) (r : StRead),
      (s.dev.engine e).running = some ch ∧ (s.dev.chan e ch).waiting = none ∧ (s.dev.chan e ch).state = 2 ∧
      stFetch s.nv e ch f s.dev = (none, b, d) ∧ stOp b = 3 ∧ byteAt b 2 < 2 ∧ r = stRead s.nv e ch (stAddr b) 4 w d ∧
      r.st = stOk ∧ r.poisoned = false ∧ stHolds b (leNat r.bytes) = false) ∧
    (∃ (s : State) (e : Fin 2) (ch : Nat) (f : Read) (b : List Byte) (d : Dev) (r : Nat × Dev),
      (s.dev.engine e).running = some ch ∧ (s.dev.chan e ch).waiting = none ∧ (s.dev.chan e ch).state = 2 ∧
      stFetch s.nv e ch f s.dev = (none, b, d) ∧ stOp b = 4 ∧
      r = (if bit (byteAt b 2) 0 then stPut s.nv e ch (stAddr b) (le b 16 4) d else (stOk, d)) ∧ r.1 = stOk) ∧
    (∃ (s : State) (e : Fin 2) (ch : Nat) (f : Read) (b : List Byte) (d : Dev) (r : Nat × Dev),
      (s.dev.engine e).running = some ch ∧ (s.dev.chan e ch).waiting = none ∧ (s.dev.chan e ch).state = 2 ∧
      stFetch s.nv e ch f s.dev = (none, b, d) ∧ stOp b = 4 ∧
      r = (if bit (byteAt b 2) 0 then stPut s.nv e ch (stAddr b) (le b 16 4) d else (stOk, d)) ∧ r.1 ≠ stOk) ∧
    (∃ (s : State) (e : Fin 2) (ch : Nat) (b : List Byte) (t k : Nat), (s.dev.engine e).running = some ch ∧
      (s.dev.chan e ch).waiting = some (b, t) ∧ k = t + 1000 * ((s.dev.time - t) / 1000 + 1) ∧ (le b 4 4 = 0
      ∨ k < t + 1000 * le b 4 4)) ∧
    (∃ (s : State) (e : Fin 2) (ch : Nat) (b : List Byte) (t k : Nat), (s.dev.engine e).running = some ch ∧
      (s.dev.chan e ch).waiting = some (b, t) ∧ k = t + 1000 * ((s.dev.time - t) / 1000 + 1) ∧ le b 4 4 ≠ 0 ∧
      t + 1000 * le b 4 4 ≤ k) ∧
    (∃ (s : State) (e : Fin 2) (ch : Nat) (f : Read) (b : List Byte) (d : Dev) (k : Nat) (data w : Read) (c : Instr),
      (s.dev.engine e).running = some ch ∧ (s.dev.chan e ch).waiting = none ∧ (s.dev.chan e ch).state = 2 ∧
      stFetch s.nv e ch f s.dev = (some k, b, d) ∧ c ∈ [Instr.stMove e f data, .stLoop e f, .stWait e f w, .stSignal e f]) ∧
    (∃ (e ch : Nat), e < 2 ∧ ch < 16) :=
  ⟨⟨on' (stAt { levels := [(true, 1), (false, 0), (false, 0), (false, 0)] } 0), 0, 15, .ok mv16, mv16,
      stAt { levels := [(true, 1), (false, 0), (false, 0), (false, 0)] } 0, _, _, .ok (bs 16 [(0, 8, 7)]),
      by decide +kernel, by decide +kernel, by decide +kernel, by decide +kernel, by decide +kernel, rfl, by decide +kernel,
      rfl, by decide +kernel⟩,
   ⟨on' (stAt { levels := [(false, 0), (false, 0), (false, 0), (true, 1)] } 32), 0, 15, .ok loop2, loop2,
      stAt { levels := [(false, 0), (false, 0), (false, 0), (true, 1)] } 32, _, _, by decide +kernel, by decide +kernel,
      by decide +kernel, by decide +kernel, by decide +kernel, rfl, rfl, by decide +kernel⟩,
   ⟨on' (stAt { levels := [(false, 0), (false, 0), (false, 0), (true, 2)] } 32), 0, 15, .ok loop2, loop2,
      stAt { levels := [(false, 0), (false, 0), (false, 0), (true, 2)] } 32, _, _, by decide +kernel, by decide +kernel,
      by decide +kernel, by decide +kernel, by decide +kernel, rfl, rfl, by decide +kernel⟩,
   ⟨on' { stAt {} 0 with time := 40 }, 0, 15, .ok wait40, wait40, { stAt {} 0 with time := 40 }, by decide +kernel,
      by decide +kernel, by decide +kernel, by decide +kernel, by decide +kernel, by decide +kernel, by decide +kernel⟩,
   ⟨on' (stAt {} 0), 0, 15, .ok wait5, wait5, stAt {} 0, .ok [5, 1, 0, 0], _, by decide +kernel, by decide +kernel,
      by decide +kernel, by decide +kernel, by decide +kernel, by decide +kernel, rfl, by decide +kernel, by decide +kernel,
      by decide +kernel⟩,
   ⟨on' (stAt {} 0), 0, 15, .ok wait5, wait5, stAt {} 0, .ok [6, 0, 0, 0], _, by decide +kernel, by decide +kernel,
      by decide +kernel, by decide +kernel, by decide +kernel, by decide +kernel, rfl, by decide +kernel, by decide +kernel,
      by decide +kernel⟩,
   ⟨on' (stAt {} 0), 0, 15, .ok (sig (3 * 2 ^ 60 + 0x100018)), sig (3 * 2 ^ 60 + 0x100018), stAt {} 0, _, by decide +kernel,
      by decide +kernel, by decide +kernel, by decide +kernel, by decide +kernel, rfl, by decide +kernel⟩,
   ⟨on' (stAt {} 0), 0, 15, .ok (sig (3 * 2 ^ 60 + 0x10)), sig (3 * 2 ^ 60 + 0x10), stAt {} 0, _, by decide +kernel,
      by decide +kernel, by decide +kernel, by decide +kernel, by decide +kernel, rfl, by decide +kernel⟩,
   ⟨on' { stAt { waiting := some (wait5, 100) } 0 with time := 1099 }, 0, 15, wait5, 100, _, by decide +kernel,
      by decide +kernel, rfl, by decide +kernel⟩,
   ⟨on' { stAt { waiting := some (wait5, 100) } 0 with time := 1100 }, 0, 15, wait5, 100, _, by decide +kernel,
      by decide +kernel, rfl, by decide +kernel, by decide +kernel⟩,
   ⟨on' (stAt {} 0), 0, 15, .ok (bs 32 []), bs 32 [], stAt {} 0, stBadOpcode, .timeout, .timeout,
      .stLoop 0 (.ok (bs 32 [])), by decide +kernel, by decide +kernel, by decide +kernel, by decide +kernel,
      by decide +kernel⟩,
   ⟨1, 15, by decide +kernel, by decide +kernel⟩⟩

theorem wit_FlashAndFieldLock :
    (∃ (s : State) (d : Nat → Dev), s.reaches .manager 0x200 = true ∧ s.dev.spiBusy = false ∧ (∀ k,
      d k = setReg 0x20C (word stPending) (setReg 0x200 (word (2 ^ 30 + k)) s.dev))) ∧
    (∃ (s : State) (c : Instr), s.reaches .manager 0x200 = true ∧ s.dev.spiBusy = true ∧ c ∈ [Instr.spiRead .manager,
      .spiProgram .manager, .spiErase .manager]) ∧
    (∃ (s : State) (q : Requester) (c : Instr), q ≠ .manager ∧ s.reaches q 0x200 = true ∧ c ∈ [Instr.spiRead q,
      .spiProgram q, .spiErase q]) ∧
    (∃ (s : State) (op a n st : Nat), s.dev.spiBusy = true ∧ s.dev.ready = true ∧ op = s.dev.fld 0x200 1 0 ∧
      a = s.dev.fld 0x204 25 0 ∧ n = s.dev.fld 0x208 22 0 ∧ spiFault op a n s.dev = some st) ∧
    (∃ (s : State) (op a n : Nat), s.dev.spiBusy = true ∧ s.dev.ready = true ∧ op = s.dev.fld 0x200 1 0 ∧
      a = s.dev.fld 0x204 25 0 ∧ n = s.dev.fld 0x208 22 0 ∧ op = 1 ∧ spiFault op a n s.dev = none) ∧
    (∃ (s : State) (op a n : Nat), s.dev.spiBusy = true ∧ s.dev.ready = true ∧ op = s.dev.fld 0x200 1 0 ∧
      a = s.dev.fld 0x204 25 0 ∧ n = s.dev.fld 0x208 22 0 ∧ op = 1 ∧ spiFault op a n s.dev = none) ∧
    (∃ (s : State) (op a n : Nat), s.dev.spiBusy = true ∧ s.dev.ready = true ∧ op = s.dev.fld 0x200 1 0 ∧
      a = s.dev.fld 0x204 25 0 ∧ n = s.dev.fld 0x208 22 0 ∧ op = 3 ∧ spiFault op a n s.dev = none) ∧
    (∃ (s : State) (op a n : Nat) (r : List Byte × Bool × Dev), s.dev.spiBusy = true ∧ s.dev.ready = true ∧
      op = s.dev.fld 0x200 1 0 ∧ a = s.dev.fld 0x204 25 0 ∧ n = s.dev.fld 0x208 22 0 ∧ op = 2 ∧ spiFault op a n s.dev = none
      ∧ r = readHbm stagingBase n s.dev ∧ spiDiffers (flashProgram a r.1 s.nv) a r.1 = none) ∧
    (∃ (s : State) (op a n : Nat), s.dev.spiBusy = true ∧ s.dev.ready = true ∧ op = s.dev.fld 0x200 1 0 ∧
      a = s.dev.fld 0x204 25 0 ∧ n = s.dev.fld 0x208 22 0 ∧ (op = 2 ∨ op = 3) ∧ spiFault op a n s.dev = none) ∧
    (∃ (s : State), s.reaches .manager 0x134 = true) ∧
    (∃ (s : State), s.reaches .manager 0x134 = true ∧ s.dev.power.lockArmed = true) ∧
    (∃ (s : State) (v : Word), s.reaches .manager 0x134 = true ∧ v ≠ 0x4C4F434B ∧ (v ≠ 1 ∨ s.dev.power.lockArmed = false)) ∧
    (∃ (s : State) (q : Requester), q ≠ .manager ∧ s.reaches q 0x134 = true) ∧
    (∃ (s : State), s.dev.power.lockBusy = true) :=
  ⟨⟨upS, _, by decide +kernel, by decide +kernel, fun _ => rfl⟩,
   ⟨spi 1 0 1, .spiProgram .manager, by decide +kernel, by decide +kernel, by decide +kernel⟩,
   ⟨upS, .core 3, .spiErase (.core 3), by decide +kernel, by decide +kernel, by decide +kernel⟩,
   ⟨spi 2 0x10000 1, _, _, _, stDenied, by decide +kernel, by decide +kernel, rfl, rfl, rfl, by decide +kernel⟩,
   ⟨spi 1 0x3FFFFFF 1, _, _, _, by decide +kernel, by decide +kernel, rfl, rfl, rfl, rfl, by decide +kernel⟩,
   ⟨spi 1 0x3FFFFFF 1, _, _, _, by decide +kernel, by decide +kernel, rfl, rfl, rfl, rfl, by decide +kernel⟩,
   ⟨spi 3 0x8F0000 0x10000, _, _, _, by decide +kernel, by decide +kernel, rfl, rfl, rfl, rfl, by decide +kernel⟩,
   ⟨spi 2 0x500000 1, 2, 0x500000, 1, _, by decide +kernel, by decide +kernel, by decide +kernel, by decide +kernel,
      by decide +kernel, by decide +kernel, by decide +kernel, rfl,
      by rw [show (readHbm stagingBase 1 (spi 2 0x500000 1).dev).1 = [0] from empty_byte _ _ _ (by decide) (by decide)]; decide⟩,
   ⟨spi 3 0x8F0000 0x10000, _, _, _, by decide +kernel, by decide +kernel, rfl, rfl, rfl, by decide +kernel,
      by decide +kernel⟩,
   ⟨upS, by decide +kernel⟩,
   ⟨on' { up with power := { lockArmed := true } }, by decide +kernel, by decide +kernel⟩,
   ⟨on' { up with power := { lockArmed := true } }, 2, by decide +kernel, by decide +kernel, by decide +kernel⟩,
   ⟨upS, .core 3, by decide +kernel, by decide +kernel⟩,
   ⟨on' { up with power := { lockBusy := true } }, by decide +kernel⟩⟩

theorem wit_ResetsAndStartUp :
    (∃ (s : State), Hold.powerOn ∉ s.dev.power.holds ∧ Hold.sysclk ∉ s.dev.power.holds) ∧
    (∃ (s : State), (Hold.powerOn ∈ s.dev.power.holds ∨ Hold.sysclk ∈ s.dev.power.holds)) ∧
    (∃ (s : State), s.reaches .manager 0x10 = true) ∧
    (∃ (s : State) (q : Requester), q ≠ .manager ∧ s.reaches q 0x10 = true) ∧
    (∃ (s : State) (r : Fin 15) (mv : Nat), mv < 4096 ∧ s.dev.railBelow r mv 90 = true) ∧
    (∃ (l : List (BitVec 12)), l.length = 8 ∧ (∀ t ∈ l, t.toNat < 760)) ∧
    (∃ (s : State) (n : Nat) (d : Dev), s.dev.power.holds = [] ∧ s.dev.flag 0x14 30 = false ∧ n = s.dev.fld 0x14 3 0 + 1 ∧
      n ≤ 8 ∧ d = setFld 0x14 3 0 n s.dev ∧ n ≤ 4) ∧
    (∃ (s : State) (n : Nat) (d : Dev), s.dev.power.holds = [] ∧ s.dev.flag 0x14 30 = false ∧ n = s.dev.fld 0x14 3 0 + 1 ∧
      n ≤ 8 ∧ d = setFld 0x14 3 0 n s.dev ∧ n = 5) ∧
    (∃ (s : State) (n : Nat) (d : Dev) (r : Nv × Dev), s.dev.power.holds = [] ∧ s.dev.flag 0x14 30 = false ∧
      n = s.dev.fld 0x14 3 0 + 1 ∧ n ≤ 8 ∧ d = setFld 0x14 3 0 n s.dev ∧ n = 6 ∧ r = activate (1,
      d.fld 0x18 7 0) s.nv { d with board := boardRecord s.nv }) ∧
    (∃ (s : State) (n : Nat) (d : Dev), s.dev.power.holds = [] ∧ s.dev.flag 0x14 30 = false ∧ n = s.dev.fld 0x14 3 0 + 1 ∧
      n ≤ 8 ∧ d = setFld 0x14 3 0 n s.dev ∧ n = 7) ∧
    (∃ (s : State) (n : Nat) (d : Dev), s.dev.power.holds = [] ∧ s.dev.flag 0x14 30 = false ∧ n = s.dev.fld 0x14 3 0 + 1 ∧
      n ≤ 8 ∧ d = setFld 0x14 3 0 n s.dev ∧ n = 8) ∧
    (∃ (s : State) (n : Nat) (d : Dev), s.dev.power.holds = [] ∧ s.dev.flag 0x14 30 = false ∧ n = s.dev.fld 0x14 3 0 + 1 ∧
      n ≤ 8 ∧ d = setFld 0x14 3 0 n s.dev ∧ n ∈ [2, 3, 5, 7]) ∧
    (∃ (s : State), (s.dev.power.holds ≠ [] ∨ s.dev.flag 0x14 30 = true ∨ 8 ≤ s.dev.fld 0x14 3 0)) :=
  ⟨⟨upS, by decide +kernel, by decide +kernel⟩,
   ⟨on' { up with power := { holds := [Hold.sysclk] } }, by decide +kernel⟩,
   ⟨upS, by decide +kernel⟩,
   ⟨upS, .stitch 0 0, by decide +kernel, by decide +kernel⟩,
   ⟨on' (setRegs [(aRail 14 + 4, 750)] up), 14, 674, by decide +kernel, by decide +kernel⟩,
   ⟨List.replicate 8 759, by decide +kernel, by decide +kernel⟩,
   ⟨on' (setRegs [(0x14, 3)] {}), 4, _, by decide +kernel, by decide +kernel, by decide +kernel, by decide +kernel, rfl,
      by decide +kernel⟩,
   ⟨on' (setRegs [(0x14, 4)] {}), 5, _, by decide +kernel, by decide +kernel, by decide +kernel, by decide +kernel, rfl,
      by decide +kernel⟩,
   ⟨on' (setRegs [(0x14, 5)] {}), 6, _, _, by decide +kernel, by decide +kernel, by decide +kernel, by decide +kernel, rfl,
      by decide +kernel, rfl⟩,
   ⟨on' (setRegs [(0x14, 6)] {}), 7, _, by decide +kernel, by decide +kernel, by decide +kernel, by decide +kernel, rfl,
      by decide +kernel⟩,
   ⟨on' (setRegs [(0x14, 7)] {}), 8, _, by decide +kernel, by decide +kernel, by decide +kernel, by decide +kernel, rfl,
      by decide +kernel⟩,
   ⟨on' (setRegs [(0x14, 1)] {}), 2, _, by decide +kernel, by decide +kernel, by decide +kernel, by decide +kernel, rfl,
      by decide +kernel⟩,
   ⟨on' (setRegs [(0x14, 8)] {}), by decide +kernel⟩⟩

theorem wit_RailsTemperaturesClocksAndTime :
    (∃ (s : State) (r : Fin 15) (mv : Nat) (l : List Nat) (d : Dev), mv < 4096 ∧ s.dev.railBelow r mv 95 = true ∧
      l = (if s.dev.power.throttling.contains r.val then s.dev.power.throttling else s.dev.power.throttling ++ [r.val]) ∧
      d = railLevel r mv (updPower (fun x => { x with throttling := l }) s.dev) ∧ s.dev.flag 0xF800100 31 = true) ∧
    (∃ (s : State) (r : Fin 15) (mv : Nat) (l : List Nat) (d : Dev), mv < 4096 ∧ s.dev.railBelow r mv 95 = true ∧
      l = (if s.dev.power.throttling.contains r.val then s.dev.power.throttling else s.dev.power.throttling ++ [r.val]) ∧
      d = railLevel r mv (updPower (fun x => { x with throttling := l }) s.dev) ∧ s.dev.flag 0xF800100 31 = false) ∧
    (∃ (s : State) (r : Fin 15) (mv : Nat), mv < 4096 ∧ s.dev.railBelow r mv 90 = true) ∧
    (∃ (s : State) (r : Fin 15) (mv : Nat), mv < 4096 ∧ s.dev.railBelow r mv 96 = false ∧
      s.dev.railBelow r (s.dev.railNow r) 96 = true ∧ r.val ∈ s.dev.power.throttling ∧ s.dev.railBelow r mv 90 = false) ∧
    (∃ (s : State) (l : List Nat), l = s.dev.power.throttling ∧ l ≠ [] ∧ (∀ r ∈ l,
      s.dev.railBelow r (s.dev.railNow r) 96 = false)) ∧
    (∃ (s : State) (i : Fin 8), s.dev.flag (aCal i) 31 = false) ∧
    (∃ (s : State) (i : Fin 8) (d : Dev) (stop : Dev → Dev), i.val ∈ s.dev.power.recal ∧ s.dev.vset i < 800 ∧
      d = timeTo (s.dev.time + 11000000) (setVset i (s.dev.vset i + 5) s.dev) ∧ (∀ d,
      stop d = updPower (fun x => { x with recal := x.recal.filter (· != i.val) }) d)) ∧
    (∃ (s : State) (i : Fin 8) (d : Dev) (stop : Dev → Dev), i.val ∈ s.dev.power.recal ∧ s.dev.vset i < 800 ∧
      d = timeTo (s.dev.time + 11000000) (setVset i (s.dev.vset i + 5) s.dev) ∧ (∀ d,
      stop d = updPower (fun x => { x with recal := x.recal.filter (· != i.val) }) d) ∧ d.vset i < 800) ∧
    (∃ (s : State) (i : Fin 8) (d : Dev) (stop : Dev → Dev), i.val ∈ s.dev.power.recal ∧ s.dev.vset i < 800 ∧
      d = timeTo (s.dev.time + 11000000) (setVset i (s.dev.vset i + 5) s.dev) ∧ (∀ d,
      stop d = updPower (fun x => { x with recal := x.recal.filter (· != i.val) }) d) ∧ 800 ≤ d.vset i) ∧
    (∃ (s : State), s.dev.flag aClk 5 = true) ∧
    (∃ (s : State) (i : Fin 2), s.dev.flag aClk (1 + i) = true) ∧
    (∃ (s : State) (i : Fin 2), s.dev.flag aClk (3 + i) = true) ∧
    (∃ (s : State) (i : Fin 2), s.dev.flag aClk (3 + i) = false) ∧
    (∃ (s : State) (i : Fin 8) (n : Nat) (e d : Dev), i.val ≠ 4 ∧
      e = skewSync (updPower (fun x => { x with skews := mput x.skews i.val (n, s.dev.time) }) s.dev) ∧
      d = setFld 0x10001C 23 16 (max (e.fld 0x10001C 23 16) (min n 255)) e ∧ n ≤ 8) ∧
    (∃ (s : State) (i : Fin 8) (n : Nat) (e d : Dev), i.val ≠ 4 ∧
      e = skewSync (updPower (fun x => { x with skews := mput x.skews i.val (n, s.dev.time) }) s.dev) ∧
      d = setFld 0x10001C 23 16 (max (e.fld 0x10001C 23 16) (min n 255)) e ∧ 8 < n) ∧
    (∃ (s : State) (q : Requester) (v : Word) (x : Int), s.reaches q 0x100018 = true ∧ trusted q = true ∧
      x = signed 18 (wbits v 17 0) ∧ -100000 ≤ x ∧ x ≤ 100000) ∧
    (∃ (s : State) (q : Requester) (v : Word) (x : Int), s.reaches q 0x100018 = true ∧ trusted q = true ∧
      x = signed 18 (wbits v 17 0) ∧ 100000 < x) ∧
    (∃ (s : State) (q : Requester) (v : Word) (x : Int), s.reaches q 0x100018 = true ∧ trusted q = true ∧
      x = signed 18 (wbits v 17 0) ∧ x < -100000) :=
  ⟨⟨on' (setRegs [(aRail 14 + 4, 800), (aRail 14, 800), (0xF800100,
      0x80000000)] { up with power := { throttling := [3] } }), 14, 759, _, _, by decide +kernel, by decide +kernel, rfl,
      rfl, by decide +kernel⟩,
   ⟨on' (setRegs [(aRail 14 + 4, 800), (aRail 14, 800)] { up with power := { throttling := [] } }), 14, 759, _, _,
      by decide +kernel, by decide +kernel, rfl, rfl, by decide +kernel⟩,
   ⟨on' (setRegs [(aRail 14 + 4, 800), (aRail 14, 800)] { up with power := { throttling := [] } }), 14, 719,
      by decide +kernel, by decide +kernel⟩,
   ⟨on' (setRegs [(aRail 14 + 4, 800), (aRail 14, 767)] { up with power := { throttling := [14] } }), 14, 768,
      by decide +kernel, by decide +kernel, by decide +kernel, by decide +kernel, by decide +kernel⟩,
   ⟨on' (setRegs [(aRail 14 + 4, 800), (aRail 14, 768)] { up with power := { throttling := [14] } }), _, rfl,
      by decide +kernel, by decide +kernel⟩,
   ⟨upS, 7, by decide +kernel⟩,
   ⟨on' (setRegs [(aCal 7, 795)] { up with power := { recal := [7] } }), 7, _, _, by decide +kernel, by decide +kernel, rfl,
      fun _ => rfl⟩,
   ⟨on' (setRegs [(aCal 7, 790)] { up with power := { recal := [7] } }), 7, _, _, by decide +kernel, by decide +kernel, rfl,
      fun _ => rfl, by decide +kernel⟩,
   ⟨on' (setRegs [(aCal 7, 795)] { up with power := { recal := [7] } }), 7, _, _, by decide +kernel, by decide +kernel, rfl,
      fun _ => rfl, by decide +kernel⟩,
   ⟨on' (setRegs [(aClk, 0x3E)] up), by decide +kernel⟩,
   ⟨on' (setRegs [(aClk, 0x3E)] up), 1, by decide +kernel⟩,
   ⟨on' (setRegs [(aClk, 0x3E)] up), 1, by decide +kernel⟩,
   ⟨on' (setRegs [(aClk, 0x20)] up), 1, by decide +kernel⟩,
   ⟨upS, 3, 8, _, _, by decide +kernel, rfl, rfl, by decide +kernel⟩,
   ⟨upS, 7, 9, _, _, by decide +kernel, rfl, rfl, by decide +kernel⟩,
   ⟨upS, .manager, 0x186A0, _, by decide +kernel, by decide +kernel, rfl, by decide +kernel, by decide +kernel⟩,
   ⟨upS, .core 3, 0x186A1, _, by decide +kernel, by decide +kernel, rfl, by decide +kernel⟩,
   ⟨upS, .stitch 0 0, 0x2795F, _, by decide +kernel, by decide +kernel, rfl, by decide +kernel⟩⟩

end Sys2Proof.Tests
end

section
/-!
PROOF. O39: a register access reaches the register space, a core's access reaches its map, and BAR2 shows HBM. First what
each kind of access does where its way is open; the statement is put together from these.
-/
namespace Sys2Proof.Proofs
open Sys2Proof Sys2Proof.Machine Sys2Proof.Laws

/-- A meaning on the device alone answers the state with the changed device. -/
theorem onDev_eq_withDev (s : State) (f : Nv → Dev → Dev) : s.onDev f = s.withDev (f s.nv s.dev) := rfl

/-! ### Accesses that reach the register space (R6-R9, R32) -/

/-- Hosts have their own BARs; their accesses never come as the register space's (R32). -/
theorem reaches_ne_host {s : State} {q : Requester} {off : Nat} (h : s.reaches q off = true) (f : Fin 32) :
    q ≠ .host f := by
  rintro rfl
  simp [State.reaches, Dev.admits] at h

theorem write32_reaches {s : State} {q : Requester} {off : Nat} (h : s.reaches q off = true) (v : Word) :
    s.write32 q off v = s.withDev (spaceWrite s.nv q off v s.dev) := by
  cases q with
  | host f => exact absurd rfl (reaches_ne_host h f)
  | manager | core | stitch => exact atReg_reaches s _ off _ h

theorem read32_reaches {s : State} {q : Requester} {off : Nat} (h : s.reaches q off = true) :
    s.read32 q off = s.withDev (emit (.value q off (spaceRead s.nv q off s.dev).1) (spaceRead s.nv q off s.dev).2) := by
  cases q with
  | host f => exact absurd rfl (reaches_ne_host h f)
  | manager | core | stitch => exact atRead_reaches s _ off _ h

theorem fullWidth_word (q : Requester) {off : Nat} (h : off % 4 = 0) : fullWidth q off 4 = true := by
  simp [fullWidth, h]

theorem coreSpace_of_lt {off : Nat} (h : off < 2 ^ 32) : coreSpace off = some off := if_pos h

/-- Below the core-local addresses every requester of the register space names it by its own offset. -/
theorem writeSpan_reaches {s : State} {q : Requester} {off : Nat} (h : s.reaches q off = true) (ho : off < 2 ^ 32)
    (v : BitVec 64) (len : Nat) : s.writeSpan q off v len = s.writeSpace q off v len := by
  cases q with
  | host f => exact absurd rfl (reaches_ne_host h f)
  | core c => simp only [State.writeSpan, coreSpace_of_lt ho]
  | manager | stitch => rfl

theorem readSpan_reaches {s : State} {q : Requester} {off : Nat} (h : s.reaches q off = true) (ho : off < 2 ^ 32)
    (len : Nat) : s.readSpan q off len = s.readSpace q off len := by
  cases q with
  | host f => exact absurd rfl (reaches_ne_host h f)
  | core c => simp only [State.readSpan, coreSpace_of_lt ho]
  | manager | stitch => rfl

theorem writeSpace_word (s : State) (q : Requester) {off : Nat} (h : off % 4 = 0) (v : BitVec 64) :
    s.writeSpace q off v 4 = s.write32 q off (v.setWidth 32) := by
  simp [State.writeSpace, fullWidth_word q h]

theorem readSpace_word (s : State) (q : Requester) {off : Nat} (h : off % 4 = 0) :
    s.readSpace q off 4 = s.read32 q off := by
  simp [State.readSpace, fullWidth_word q h]

/-- A read of a width that R8 does not allow finds 0. -/
theorem readSpace_badWidth {s : State} {q : Requester} {off len : Nat} (h : s.reaches q off = true)
    (hw : fullWidth q off len = false) : s.readSpace q off len = s.withDev (emit (.value q off 0) s.dev) := by
  simp only [State.readSpace, hw, Bool.and_false, Bool.false_eq_true, if_false]
  exact atRead_reaches s q off _ h

/-- A write of a width that R8 does not allow only counts, unless a customer's core makes it. -/
theorem writeSpace_badWidth {s : State} {q : Requester} {off len : Nat} (h : s.reaches q off = true)
    (hw : fullWidth q off len = false) (ht : trusted q = true) (v : BitVec 64) :
    s.writeSpace q off v len = s.withDev (badAccess s.dev) := by
  simp only [State.writeSpace, hw, Bool.and_false, Bool.false_eq_true, if_false]
  rw [atReg_reaches s q off _ h, onDev_eq_withDev]
  cases q with
  | core c =>
    have hc : ¬ 4 ≤ c.val := by simpa [trusted] using ht
    simp [hc]
  | manager | stitch | host => rfl

/-- With the link up and Memory Space Enable 0 the manager's register write is an Unsupported Request (R90, log 49). -/
theorem atReg_manager_unseen {s : State} (off : Nat) (f : Nv → Dev → Dev) (hup : s.dev.cpUp = true)
    (hmse : (s.dev.fn 32).mse = false) (hh : s.dev.power.holds = []) :
    s.atReg .manager off f = s.withDev (aerUnc 32 erUnsupported false s.dev) := by
  have hlinked : s.dev.linked 32 = true := by simp [Dev.linked, hup, hh]
  have hadmits : s.dev.admits .manager = false := by simp [Dev.admits, Dev.sees, hmse]
  simp [State.atReg, hadmits, onDev_eq_withDev, unadmitted, unseen, hlinked, when]

/-- So it is for a register write at any offset, aligned or not. -/
theorem writeSpan_manager_unseen {s : State} (off : Nat) (v : BitVec 64) (hup : s.dev.cpUp = true)
    (hmse : (s.dev.fn 32).mse = false) (hh : s.dev.power.holds = []) :
    s.writeSpan .manager off v 4 = s.withDev (aerUnc 32 erUnsupported false s.dev) := by
  have hat (f : Nv → Dev → Dev) := atReg_manager_unseen off f hup hmse hh
  simp [State.writeSpan, State.writeSpace, State.write32, hat]

/-! ### A core's map outside the register space (R31, R388-R390) -/

theorem localOf_timer (c : Nat) {a : Nat} (hl : 0x2000000 ≤ a) (hu : a < 0x2000010) : localOf c a = .timer := by
  rw [localOf, if_neg (by omega), if_pos (by simp; omega)]

theorem localOf_nothing (c : Nat) {a : Nat} (hl : 0x3000000 ≤ a) (hu : a < 0x10000000) : localOf c a = .nothing := by
  rw [localOf, if_neg (by omega), if_neg (by simp; omega), if_neg (by simp; omega), if_neg (by simp; omega),
    if_neg (by simp; omega), if_neg (by simp; omega), if_neg (by simp; omega)]

theorem localOf_onatar (c : Nat) {a : Nat} (hl : 0x10000000 ≤ a) (hu : a < 0x10400000) :
    localOf c a = .onatar (a - 0x10000000) := by
  rw [localOf, if_neg (by omega), if_neg (by simp; omega), if_pos (by simp; omega)]

theorem localOf_customer (c : Nat) {a : Nat} (hl : 0x10400000 ≤ a) (hu : a < 0x11000000) :
    localOf c a = .customer (a - 0x10000000) := by
  rw [localOf, if_neg (by omega), if_neg (by simp; omega), if_neg (by simp; omega), if_pos (by simp; omega)]

theorem localOf_window (c : Nat) {a : Nat} (hl : 0x80000000 ≤ a) (hu : a < 0x90000000) :
    localOf c a = .window (a - 0x80000000) := by
  rw [localOf, if_neg (by omega), if_neg (by simp; omega), if_neg (by simp; omega), if_neg (by simp; omega),
    if_neg (by simp; omega), if_neg (by simp; omega), if_pos (by simp; omega)]

/-- A core-local address that the map does not give to the registers names no offset of the register space. -/
theorem coreSpace_none {a : Nat} (h : ∀ o, localOf 0 a ≠ .registers o) : coreSpace (2 ^ 32 + a) = none := by
  rw [coreSpace, if_neg (by simp [coreAt]), show 2 ^ 32 + a - coreAt = a from Nat.add_sub_cancel_left ..]
  split
  · exact absurd ‹_› (h _)
  · rfl

/-- A core's write outside the register space is a store into its map. -/
theorem writeSpan_core_local {s : State} (c : Fin 16) {a : Nat} (h : ∀ o, localOf 0 a ≠ .registers o)
    (hh : s.dev.power.holds = []) (v : BitVec 64) (len : Nat) :
    s.writeSpan (.core c) (2 ^ 32 + a) v len = s.withDev (coreStore c a (leBytes len v.toNat) s.dev) := by
  simp only [State.writeSpan, coreSpace_none h, hh, List.isEmpty_nil, if_true]
  rw [show 2 ^ 32 + a - coreAt = a from Nat.add_sub_cancel_left ..]
  rfl

/-- A core's read outside the register space is a load from its map. -/
theorem readSpan_core_local {s : State} (c : Fin 16) {a : Nat} (h : ∀ o, localOf 0 a ≠ .registers o)
    (hh : s.dev.power.holds = []) (len : Nat) :
    s.readSpan (.core c) (2 ^ 32 + a) len = s.withDev (coreLoad c a len s.dev) := by
  simp only [State.readSpan, coreSpace_none h, hh, List.isEmpty_nil, if_true]
  rw [show 2 ^ 32 + a - coreAt = a from Nat.add_sub_cancel_left ..]
  rfl

theorem coreStore_of_nothing {c a : Nat} (b : List Byte) (d : Dev) (h : localOf c a = .nothing) :
    coreStore c a b d = emit (.coreFault c) d := by
  rw [coreStore, h]

theorem coreStore_of_onatar {c a o : Nat} (b : List Byte) (d : Dev) (h : localOf c a = .onatar o) (hc : 4 ≤ c) :
    coreStore c a b d = coreDenied c d := by
  rw [coreStore, h]; exact if_pos hc

theorem coreStore_of_customer {c a o : Nat} (b : List Byte) (d : Dev) (h : localOf c a = .customer o) :
    coreStore c a b d = writeMem 4 o b false d := by
  rw [coreStore, h]

theorem coreStore_of_window {c a o : Nat} (b : List Byte) (d : Dev) (h : localOf c a = .window o) :
    coreStore c a b d = writeHbm (custBase + o) b false d := by
  rw [coreStore, h]

theorem coreLoad_of_timer {c a : Nat} (len : Nat) (d : Dev) (h : localOf c a = .timer) :
    coreLoad c a len d = emit (.load c a (bytesAt (d.timerBytes c) (a - 0x2000000) len)) d := by
  rw [coreLoad, h]

theorem coreLoad_of_onatar {c a o : Nat} (len : Nat) (d : Dev) (h : localOf c a = .onatar o) (hc : 4 ≤ c) :
    coreLoad c a len d = coreDenied c d := by
  rw [coreLoad, h]; exact if_pos hc

theorem coreLoad_of_customer {c a o : Nat} (len : Nat) (d : Dev) (h : localOf c a = .customer o) :
    coreLoad c a len d = loadMem c a 4 o len d := by
  rw [coreLoad, h]

/-! ### The manager's BAR2 (R33, R142) -/

theorem apertureRead_kept {a : Nat} (len : Nat) (d : Dev) (h : hbmOff a < 15 * 2 ^ 30) :
    apertureRead a len d = (List.replicate len 0, false, badAccess d) := by
  rw [apertureRead, if_pos h]

/-- Outside the pages that another side sends from, an open read is a read of the memory. -/
theorem apertureRead_open {a : Nat} (len : Nat) (d : Dev) (h : 15 * 2 ^ 30 ≤ hbmOff a)
    (hp : (arenaSide a).filter (!·.mgr) = none) : apertureRead a len d = readHbm a len d := by
  rw [apertureRead, if_neg (Nat.not_lt.2 h), hp, Option.map_none, pageRead]

theorem apertureWrite_page {a : Nat} {m : Side} {d : Dev} (data : List Byte) (be : List Bool) (ep : Bool)
    (h : d.mgrPage a = some m) : apertureWrite a data be ep d =
      arenaWrite m true (byteRuns (enabledBytes ((a - arenaBase) % 4096) data be)) ep d := by
  unfold apertureWrite; rw [h]

theorem apertureWrite_none {a : Nat} {d : Dev} (data : List Byte) (be : List Bool) (ep : Bool)
    (h : d.mgrPage a = none) : apertureWrite a data be ep d =
      if apertureWritable a then each (byteRuns (enabledBytes a data be)) (fun x => writeHbm x.1 x.2 ep) d
      else badAccess d := by
  unfold apertureWrite; rw [h]

/-- A BAR2 read that the manager function takes, once the memory is up, answers what the aperture shows. -/
theorem bar2Access_read_live {d : Dev} (hs : d.sees 32 = true) (hh : d.power.holds = []) (h4 : 4 ≤ d.fld 0x14 3 0)
    (off len : Nat) (be : List Bool) :
    bar2Access (.read off len be) d =
      let r := apertureRead (d.aperture + off % 2 ^ 30) len d
      emit (.completion 32 0 r.1 r.2.1) r.2.2 := by
  simp only [bar2Access, hs, hh, h4, List.isEmpty_nil, decide_true, Bool.and_self, Bool.not_true, Bool.false_eq_true,
    if_false, if_true]

theorem bar2Access_write_live {d : Dev} (hs : d.sees 32 = true) (hh : d.power.holds = []) (h4 : 4 ≤ d.fld 0x14 3 0)
    (off : Nat) (data : List Byte) (be : List Bool) (ep : Bool) :
    bar2Access (.write off data be ep) d = apertureWrite (d.aperture + off % 2 ^ 30) data be ep d := by
  simp only [bar2Access, when, hs, hh, h4, List.isEmpty_nil, decide_true, Bool.and_self, Bool.not_true,
    Bool.false_eq_true, if_false, if_true]

/-! ### The commands -/

theorem exec_registerWrite (q : Requester) (off len : Nat) (v : BitVec 64) (s : State) :
    exec (.registerWrite q ⟨off, len⟩ v) s = .next (s.writeSpan q off v len) := rfl

theorem exec_rcRegisterRead (q : Requester) (off len : Nat) (s : State) :
    exec (.rcRegisterRead q ⟨off, len⟩) s = .next (s.readSpan q off len) := rfl

theorem exec_reg64LowRead (q : Requester) (off : Nat) (s : State) :
    exec (.reg64LowRead q off) s = .next (s.read32 q off) := rfl

theorem exec_reg64HighWrite (q : Requester) (off : Nat) (v : Word) (s : State) :
    exec (.reg64HighWrite q off v) s = .next (s.write32 q off v) := rfl

theorem exec_hbmApertureWrite (q : Requester) (high : Bool) (v : Word) (s : State) :
    exec (.hbmApertureWrite q high v) s = .next (s.write32 q (if high then 0x44 else 0x40) v) := rfl

theorem exec_bar2Access (a : Access) (s : State) :
    exec (.bar2Access a) s = .next (s.withDev (bar2Access a s.dev)) := rfl

theorem exec_bar2Access_read {s : State} (hs : s.dev.sees 32 = true) (hh : s.dev.power.holds = [])
    (h4 : 4 ≤ s.dev.fld 0x14 3 0) (off len : Nat) (be : List Bool) {r : List Byte × Bool × Dev}
    (hr : apertureRead (s.dev.aperture + off % 2 ^ 30) len s.dev = r) :
    exec (.bar2Access (.read off len be)) s = .next (s.withDev (emit (.completion 32 0 r.1 r.2.1) r.2.2)) := by
  rw [exec_bar2Access, bar2Access_read_live hs hh h4, hr]

theorem exec_bar2Access_write {s : State} (hs : s.dev.sees 32 = true) (hh : s.dev.power.holds = [])
    (h4 : 4 ≤ s.dev.fld 0x14 3 0) (off : Nat) (data : List Byte) (be : List Bool) (ep : Bool) :
    exec (.bar2Access (.write off data be ep)) s =
      .next (s.withDev (apertureWrite (s.dev.aperture + off % 2 ^ 30) data be ep s.dev)) := by
  rw [exec_bar2Access, bar2Access_write_live hs hh h4]

/-- Settles O39: each clause is the command's meaning, led by the lemmas above along the way that its hypotheses leave
open: the register space, a place of the core's map, or the aperture. -/
theorem registersAndHbmAreReached : Obligations.RegistersAndHbmAreReached := by
  unfold Obligations.RegistersAndHbmAreReached
  refine ⟨⟨?_, ?_, ?_, ?_⟩, ?_, ?_⟩
  · intro s q off h ho
    refine ⟨fun v h4 => ?word_write, fun v => ?high_write, fun h4 => ?word_read, ?low_read, fun len hw => ?bad_read,
      fun v len hw ht => ?bad_write⟩
    case word_write => rw [exec_registerWrite, writeSpan_reaches h ho, writeSpace_word s q h4, write32_reaches h]
    case high_write => rw [exec_reg64HighWrite, write32_reaches h]
    case word_read => rw [exec_rcRegisterRead, readSpan_reaches h ho, readSpace_word s q h4, read32_reaches h]
    case low_read => rw [exec_reg64LowRead, read32_reaches h]
    case bad_read => rw [exec_rcRegisterRead, readSpan_reaches h ho, readSpace_badWidth h hw]
    case bad_write => rw [exec_registerWrite, writeSpan_reaches h ho, writeSpace_badWidth h hw ht]
  · intro s q v h
    rw [exec_hbmApertureWrite, if_neg Bool.false_ne_true, write32_reaches h]
  · intro s q v h
    rw [exec_hbmApertureWrite, if_pos rfl, write32_reaches h]
  · intro s off v hup hmse hh
    rw [exec_registerWrite, writeSpan_manager_unseen off v hup hmse hh]
  · intro s c a hh
    refine ⟨fun hl hu => ⟨fun v len => ?customer_store, fun len r hr => ?customer_load⟩,
      fun hl hu hc => ⟨fun v len => ?onatar_store, fun len => ?onatar_load⟩, fun hl hu v len => ?window_store,
      fun hl hu len => ?timer_load, fun hl hu v len => ?nothing_store⟩
    case customer_store =>
      rw [exec_registerWrite, writeSpan_core_local c (by simp [localOf_customer 0 hl hu]) hh,
        coreStore_of_customer _ _ (localOf_customer c hl hu)]
    case customer_load =>
      rw [exec_rcRegisterRead, readSpan_core_local c (by simp [localOf_customer 0 hl hu]) hh,
        coreLoad_of_customer _ _ (localOf_customer c hl hu), loadMem, hr]
    case onatar_store =>
      rw [exec_registerWrite, writeSpan_core_local c (by simp [localOf_onatar 0 hl hu]) hh,
        coreStore_of_onatar _ _ (localOf_onatar c hl hu) hc]
    case onatar_load =>
      rw [exec_rcRegisterRead, readSpan_core_local c (by simp [localOf_onatar 0 hl hu]) hh,
        coreLoad_of_onatar _ _ (localOf_onatar c hl hu) hc]
    case window_store =>
      rw [exec_registerWrite, writeSpan_core_local c (by simp [localOf_window 0 hl hu]) hh,
        coreStore_of_window _ _ (localOf_window c hl hu)]
    case timer_load =>
      rw [exec_rcRegisterRead, readSpan_core_local c (by simp [localOf_timer 0 hl hu]) hh,
        coreLoad_of_timer _ _ (localOf_timer c hl hu)]
    case nothing_store =>
      rw [exec_registerWrite, writeSpan_core_local c (by simp [localOf_nothing 0 hl hu]) hh,
        coreStore_of_nothing _ _ (localOf_nothing c hl hu)]
  · rintro s off a hs hh h4 rfl
    refine ⟨fun len be hk hp => ?_, fun len be hk => ?_, fun data be ep hm hw => ?_, fun data be ep hm hw => ?_,
      fun data be ep m hm => ?_⟩
    · rw [exec_bar2Access_read hs hh h4 off len be (apertureRead_open len s.dev hk hp)]
    · rw [exec_bar2Access_read hs hh h4 off len be (apertureRead_kept len s.dev hk)]
    · rw [exec_bar2Access_write hs hh h4, apertureWrite_none data be ep hm, if_pos hw]
    · rw [exec_bar2Access_write hs hh h4, apertureWrite_none data be ep hm, if_neg (Bool.eq_false_iff.1 hw)]
    · rw [exec_bar2Access_write hs hh h4, apertureWrite_page data be ep hm]

end Sys2Proof.Proofs
end

section
/-!
PROOF. O51: passes through a pipeline, the waits they end in, the decision of an egress port, and aging. First what each
meaning does where its situation holds; the statement is put together from these.
-/
namespace Sys2Proof.Proofs
open Sys2Proof Sys2Proof.Machine Sys2Proof.Laws

/-- The numbers that a finite index gives are below its bound already. -/
theorem fin_val {n : Nat} (i : Fin n) (h : 0 < n) : fin n i h = i := Fin.ext (Nat.mod_eq_of_lt i.isLt)

/-! ### Passes (R19, R22, R24, R26) -/

theorem exec_pipelinePass (i : Nat) (l : List Nat) (s : State) :
    exec (.pipelinePass i l) s = .next (s.withDev (pipelinePass i l s.dev)) := rfl

section Pass
variable {d : Dev} {i pl : Nat} {p : Packet}

/-- The oldest packet of its line starts a pass, unless it was steered here within one. -/
theorem pipelinePass_starts (l : List Nat) (hp : d.packet i = some p) (hpl : passPlace p = some pl)
    (hon : d.plOn pl = true) (hold : ∀ x ∈ d.pkts.takeWhile (·.id != i), sameLine p.loc x.loc = false)
    (hloc : ∀ a h, p.loc ≠ .steer a h) : pipelinePass i l d = runPass p pl l d := by
  have hany : ((d.pkts.takeWhile (·.id != i)).any fun x => sameLine p.loc x.loc) = false := by simpa using hold
  simp only [pipelinePass, hp, hpl, hon, hany, Bool.not_true, Bool.or_self, Bool.false_eq_true, if_false]

/-- The oldest steered packet of its line runs the rest of its pass. -/
theorem pipelinePass_resumes (l : List Nat) {a : Nat} (hp : d.packet i = some p) (hon : d.plOn pl = true)
    (hold : ∀ x ∈ d.pkts.takeWhile (·.id != i), sameLine p.loc x.loc = false) (hloc : p.loc = .steer a pl) :
    pipelinePass i l d = runSteered p pl d := by
  have hany : ((d.pkts.takeWhile (·.id != i)).any fun x => sameLine p.loc x.loc) = false := by simpa using hold
  have hpl : passPlace p = some pl := by rw [passPlace, hloc]
  rw [hloc] at hany
  simp only [pipelinePass, hp, hpl, hloc, hon, hany, Bool.not_true, Bool.or_self, Bool.false_eq_true, if_false]

/-- A younger packet of a line waits. -/
theorem pipelinePass_younger (l : List Nat) {x : Packet} (hp : d.packet i = some p)
    (hx : x ∈ d.pkts.takeWhile (·.id != i)) (hline : sameLine p.loc x.loc = true) : pipelinePass i l d = d := by
  have hany : ((d.pkts.takeWhile (·.id != i)).any fun x => sameLine p.loc x.loc) = true :=
    List.any_eq_true.2 ⟨x, hx, hline⟩
  cases hpl : passPlace p with
  | none => simp only [pipelinePass, hp, hpl]
  | some pl => simp only [pipelinePass, hp, hpl, hany, Bool.or_true, if_true]

/-- With the domain off nothing enters a pipeline. -/
theorem pipelinePass_off (l : List Nat) (hp : d.packet i = some p) (hpl : passPlace p = some pl)
    (hoff : d.plOn pl = false) : pipelinePass i l d = d := by
  simp only [pipelinePass, hp, hpl, hoff, Bool.not_false, Bool.true_or, if_true]

end Pass

/-! ### Contexts and placement tables (R295, R322) -/

theorem exec_contextCacheFill (k : Fin 4) (c : Nat) (s : State) :
    exec (.contextCacheFill k c) s = .next (s.withDev (contextCacheFill k c s.dev)) := rfl

theorem contextCacheFill_missing {d : Dev} {k c : Nat} (h : c ∈ mget [] d.ctxMiss k) :
    contextCacheFill k c d = nextMiss k (resumeWaiters c (cacheTouch c
      { d with ctxMiss := mupd [] d.ctxMiss k fun l => l.filter (· != c) })) := by
  have hc : (mget [] d.ctxMiss k).contains c = true := List.contains_iff_mem.2 h
  simp only [contextCacheFill, hc, Bool.not_true, Bool.false_eq_true, if_false]

theorem exec_placementTableReadDone (c : Nat) (e g : Read) (s : State) :
    exec (.placementTableReadDone c e g) s = .next (s.withDev (placementTableReadDone c e g s.dev)) := rfl

theorem placementTableReadDone_unawaited {d : Dev} {c : Nat} (e g : Read) (h : ∀ x ∈ d.pkts, x.loc ≠ .tableWait c) :
    placementTableReadDone c e g d = d := by
  have hf : (d.pkts.find? fun p => p.loc == .tableWait c) = none := by simpa using h
  simp only [placementTableReadDone, hf]

/-- With no segment list to read, or one that asks no translation cache, the entry is done at once. -/
theorem placementTableReadDone_awaited {d : Dev} {c : Nat} {e : Read} {p : Packet} (g : Read)
    (hp : d.pkts.find? (fun p => p.loc == .tableWait c) = some p)
    (hl : d.listRead c e = none ∨ ∃ f a b n, d.listRead c e = some (f, a, b, n) ∧ d.direct f [(b, n)] = true) :
    placementTableReadDone c e g d = tableEntryDone p c e g d := by
  rcases hl with hn | ⟨f, a, b, n, hs, hd⟩
  · simp only [placementTableReadDone, hp, hn]
  · simp only [placementTableReadDone, hp, hs]
    exact withRead_direct f (some a) [(b, n)] g (tableEntryDone p c e) d hd

/-- The walk goes on where the entry let it: then the packets behind follow it. -/
theorem tableEntryDone_eq (p : Packet) (c : Nat) (e g : Read) (d : Dev) (r : Turn)
    (hr : r = storageResume p c (bit (byteAt (p.todo.headD ⟨[], [], none⟩).op 7) 0)
      (d.fns.any fun x => x.2.reads.any fun r => r.purpose == .placement c && x.2.xdenied.contains r.tag) e g
      { d with fns := mmap d.fns fun _ x => tableReadDrop c x }) :
    tableEntryDone p c e g d = if r.2.1 = .go then
      goOn (d.rulesOf p.gen) (runTodo { rs := d.rulesOf p.gen } (p.todo.drop 1) r.1 r.2.2) (resumeWaiters c)
      else goOn (d.rulesOf p.gen) r id := by
  subst hr
  unfold tableEntryDone
  simp only
  split
  · rename_i hgo; rw [if_pos hgo]
  · rename_i hgo; rw [if_neg hgo]

/-! ### The decision of a port (R353-R355) -/

theorem exec_tmDequeue (p : Fin 172) (s : State) : exec (.tmDequeue p) s = .next (s.withDev (tmDequeue p s.dev)) := rfl

/-- What becomes of the outcome of a port's two rounds: the offer that won is looked up again below its subscriber, then
charged at its nodes and sent, or dropped where its slice takes no traffic. -/
def sendWinner (p : Fin 172) (r : Option Offer × Dev) : Dev := match r.1 with
  | none => r.2
  | some o =>
    let e := (subOffer p o.node r.2).2
    if e.closedTo o.pkt then endPacket o.pkt (dropForSlice o.pkt p e)
    else egress p o.pkt (deduct o.len o.svc (deduct o.len o.node (deduct o.len (.port p) e)))

section Decision
variable {p : Fin 172} {d e : Dev} {subs : List NodeId}
  (hsubs : subs = (nodeSettle (.port p) (nodesDue d)).subsOf p)
  (he : e = each subs (fun n d => each ((List.range 8).map (svcNode n)) nodeSettle (nodeSettle n d))
    (nodeSettle (.port p) (nodesDue d)))
include hsubs he

/-- A port node without credit only settles its nodes. -/
theorem tmDequeue_blocked (h : (e.node (.port p)).status = 2) : tmDequeue p d = e := by
  simp only [tmDequeue, fin_val]
  rw [← hsubs, ← he, if_pos h]

/-- A port node with credit decides between the offers of its subscribers. -/
theorem tmDequeue_decides (h : (e.node (.port p)).status ≠ 2) :
    tmDequeue p d = sendWinner p (twoRounds (.port p) 0 (portOffers p e) (loseDeficit subs (portOffers p e) e)) := by
  simp only [tmDequeue, fin_val]
  rw [← hsubs, ← he, if_neg h]
  generalize twoRounds (.port p) 0 (portOffers p e) (loseDeficit subs (portOffers p e) e) = r
  unfold sendWinner
  cases r.1 with
  | none => rfl
  | some o => rfl

end Decision

/-- Deficit round robin sends one of the offers it was given. -/
theorem drr_mem {n : NodeId} {l : List Offer} {k : Nat} {d : Dev} {o : Offer} (h : (drr n l k d).1 = some o) : o ∈ l := by
  induction k generalizing d with
  | zero => simp [drr] at h
  | succ k ih =>
    simp only [drr] at h
    split at h
    · rename_i x hx
      cases h
      exact List.mem_of_find?_eq_some hx
    · split at h
      · simp at h
      · exact ih h

/-- The pick among strict classes: the first offer of the highest strict class that has one. -/
def strictPick (st : Nat) (l : List Offer) : Option Offer :=
  (List.range 8).reverse.findSome? fun c => if bit st c then l.find? (fun o => clsNode o.node == c) else none

theorem roundPick_of_strict {n : NodeId} {st : Nat} {l : List Offer} {d : Dev} {o : Offer} (h : strictPick st l = some o) :
    roundPick n st l d = (some o, d) := by
  unfold strictPick at h
  simp only [roundPick, h]

theorem roundPick_of_none {n : NodeId} {st : Nat} {l : List Offer} {d : Dev} (h : strictPick st l = none) :
    roundPick n st l d = drr n l (drrFuel l) d := by
  unfold strictPick at h
  simp only [roundPick, h]

theorem strictPick_mem {st : Nat} {l : List Offer} {o : Offer} (h : strictPick st l = some o) : o ∈ l := by
  obtain ⟨c, -, hc⟩ := List.exists_of_findSome?_eq_some h
  split at hc
  · exact List.mem_of_find?_eq_some hc
  · cases hc

/-- No offer of a strict class is above the pick. -/
theorem strictPick_highest {st : Nat} {l : List Offer} {c : Offer} (hc : c ∈ l) (hb : bit st (clsNode c.node) = true)
    (h8 : clsNode c.node < 8) : ∃ o, strictPick st l = some o ∧ clsNode c.node ≤ clsNode o.node := by
  have hfound : (l.find? fun o => clsNode o.node == clsNode c.node) ≠ none := by
    simpa using ⟨c, hc, rfl⟩
  cases h : strictPick st l with
  | none =>
    have hnone := List.findSome?_eq_none_iff.1 h (clsNode c.node) (by simpa using h8)
    rw [if_pos hb] at hnone
    exact absurd hnone hfound
  | some o =>
    refine ⟨o, rfl, ?_⟩
    obtain ⟨above, k, below, hl, hk, habove⟩ := List.findSome?_eq_some_iff.1 h
    have hok : clsNode o.node = k := by
      split at hk
      · simpa using List.find?_some hk
      · cases hk
    have hfall : ((List.range 8).reverse).Pairwise (· > ·) := List.pairwise_reverse.2 List.pairwise_lt_range
    rw [hl, List.pairwise_append, List.pairwise_cons] at hfall
    have hmem : clsNode c.node ∈ above ++ k :: below := by rw [← hl]; simpa using h8
    rcases List.mem_append.1 hmem with ha | hrest
    · have hnone := habove _ ha
      rw [if_pos hb] at hnone
      exact absurd hnone hfound
    · rcases List.mem_cons.1 hrest with he | hbelow
      · omega
      · have := hfall.2.1.1 _ hbelow
        omega

theorem roundPick_mem {n : NodeId} {st : Nat} {l : List Offer} {d : Dev} {o : Offer} (h : (roundPick n st l d).1 = some o) :
    o ∈ l := by
  cases hs : strictPick st l with
  | some x =>
    rw [roundPick_of_strict hs] at h
    cases h
    exact strictPick_mem hs
  | none =>
    rw [roundPick_of_none hs] at h
    exact drr_mem h

theorem roundPick_strict {n : NodeId} {st : Nat} {l : List Offer} {d : Dev} {o c : Offer}
    (h : (roundPick n st l d).1 = some o) (hc : c ∈ l) (hb : bit st (clsNode c.node) = true) (h8 : clsNode c.node < 8) :
    clsNode c.node ≤ clsNode o.node := by
  obtain ⟨x, hx, hle⟩ := strictPick_highest hc hb h8
  rw [roundPick_of_strict hx] at h
  cases h
  exact hle

/-- While a child is COMMITTED, the one that sends is. -/
theorem twoRounds_committed {n : NodeId} {st : Nat} {l : List Offer} {d : Dev} {o : Offer}
    (h : (twoRounds n st l d).1 = some o) (hc : ∃ c ∈ l, (d.node c.node).status = 0) : (d.node o.node).status = 0 := by
  obtain ⟨c, hcl, hc0⟩ := hc
  have hne : (l.filter fun o => (d.node o.node).status == 0).isEmpty = false := by
    rw [List.isEmpty_eq_false_iff_exists_mem]
    exact ⟨c, by simp [hcl, hc0]⟩
  simp only [twoRounds, hne, Bool.false_eq_true, if_false] at h
  simpa using (List.mem_filter.1 (roundPick_mem h)).2

/-! ### Aging (R359, R362) -/

theorem exec_bufferAgeDrop (i : Nat) (s : State) :
    exec (.bufferAgeDrop i) s = .next (s.withDev (bufferAgeDrop i s.dev)) := rfl

theorem bufferAgeDrop_counted {d : Dev} {i c port : Nat} {p : Packet} (hp : d.packet i = some p)
    (hc : d.ageCounter p = some (c, port)) :
    bufferAgeDrop i d = endPacket p (dropForSlice p port (count c (timeTo (p.time + d.ageLimit * 1000) d))) := by
  simp only [bufferAgeDrop, hp, hc]

theorem exec_tmAgeLimitWrite {s : State} {q : Requester} (h : s.reaches q 0xC000000 = true) (ht : trusted q = true)
    (v : Word) : exec (.tmAgeLimitWrite q v) s = .next (s.withDev (tmAgeLimitWrite v.toNat s.dev)) :=
  congrArg Host.Outcome.next (atRegAll_reaches s q 0xC000000 _ h ht)

/-- The limit in force is the one written, which its field of 20 bits holds. -/
theorem ageLimit_setFld {n : Nat} (d : Dev) (h : n ≤ 100000) : (setFld 0xC000000 19 0 n d).ageLimit = n := by
  rw [Dev.ageLimit, fld_setFld _ _ _ _ _ (by omega) (by omega)]
  exact Nat.mod_eq_of_lt (by omega)

/-- Settles O51: each clause is the command's meaning where its situation holds, as the lemmas above say. -/
theorem passesRunAndPortsDecide : Obligations.PassesRunAndPortsDecide := by
  unfold Obligations.PassesRunAndPortsDecide
  refine ⟨⟨?pass, ?younger, ?off, ?fill, ?unawaited, ?awaited⟩, ⟨?dequeue, ?committed, ?strict⟩, ?age, ?limit⟩
  case pass =>
    intro s i l p pl hp hpl hon hold
    refine ⟨fun hloc => ?_, fun a hloc => ?_⟩
    · rw [exec_pipelinePass, pipelinePass_starts l hp hpl hon hold hloc]
    · rw [exec_pipelinePass, pipelinePass_resumes l hp hon hold hloc]
      rfl
  case younger =>
    intro s i l p x hp hx hline
    rw [exec_pipelinePass, pipelinePass_younger l hp hx hline]
    rfl
  case off =>
    intro s i l p pl hp hpl hoff
    rw [exec_pipelinePass, pipelinePass_off l hp hpl hoff]
    rfl
  case fill =>
    intro s k c h
    rw [exec_contextCacheFill, contextCacheFill_missing h]
  case unawaited =>
    intro s c e g h
    rw [exec_placementTableReadDone, placementTableReadDone_unawaited e g h]
    rfl
  case awaited =>
    rintro s c e g p d r hp hl rfl hr
    rw [exec_placementTableReadDone, placementTableReadDone_awaited g hp hl, tableEntryDone_eq p c e g s.dev r hr]
  case dequeue =>
    rintro s p root subs d l rfl hsubs hd rfl
    refine ⟨fun hblocked => ?_, fun r hcredit hr => ?_⟩
    · rw [exec_tmDequeue, tmDequeue_blocked hsubs hd hblocked]
    · rw [exec_tmDequeue, tmDequeue_decides hsubs hd hcredit, ← hr]
      refine ⟨fun hnone => ?_, ?_⟩
      · rw [sendWinner, hnone]
      · rintro o e hwin rfl
        refine ⟨fun hclosed => ?_, fun hopen => ?_⟩
        · simp only [sendWinner, hwin, hclosed, if_true]
        · simp only [sendWinner, hwin, hopen, Bool.false_eq_true, if_false]
  case committed => exact fun n st l d o => twoRounds_committed
  case strict => exact fun n st l d o c => roundPick_strict
  case age =>
    intro s i p c port hp hc
    rw [exec_bufferAgeDrop, bufferAgeDrop_counted hp hc]
  case limit =>
    rintro s q v n d h ht rfl rfl
    exact ⟨exec_tmAgeLimitWrite h ht v, ageLimit_setFld s.dev (Nat.min_le_left ..)⟩

end Sys2Proof.Proofs
end

section
/-!
PROOF. O1 and O4: the step on a waiting command and on an empty queue, the idle tick's parts where nothing waits, and the
reset state.
-/
namespace Sys2Proof.Proofs
open Sys2Proof Sys2Proof.Machine Sys2Proof.Laws

/-! ### The step (R14, log 1) -/

theorem step_cons {s : State} {c : Instr} {l : List Instr} (h : s.pending = c :: l) :
    step s = exec c { s with pending := l } := by
  unfold step; rw [h]

theorem step_nil {s : State} (h : s.pending = []) :
    step s = .next (s.withDev (each (List.range 32) msSettle (tblSettle (closeDue (tickDev s.dev))))) := by
  unfold step; rw [h]; rfl

/-- With no update staged, device time moves on and nothing else. -/
theorem timeTo_of_no_updates {d : Dev} (t : Nat) (h : d.updates = []) : timeTo t d = { d with time := max d.time t } := by
  simp only [timeTo, h, List.length_nil, applyDue]

theorem tickDev_of_no_updates {d : Dev} (hh : d.power.holds = []) (hu : d.updates = []) :
    tickDev d = { d with time := d.time + 1 } := by
  simp [tickDev, hh, timeTo_of_no_updates _ hu]

/-- Device time stands while the adapter is held in reset. -/
theorem tickDev_of_held {d : Dev} (hh : d.power.holds ≠ []) : tickDev d = d := by
  simp [tickDev, hh]

theorem closeDue_of_none {d : Dev} (h : ∀ f < 32, d.closes f = false) : closeDue d = d := by
  have hnone : (List.range 32).filter d.closes = [] := by simpa [List.filter_eq_nil_iff] using h
  rw [closeDue, hnone, each_nil]

/-- A fold in which no element changes the start is the start. -/
theorem foldl_of_keeps {α β : Type} {f : α → β → α} {a : α} {l : List β} (h : ∀ b ∈ l, f a b = a) :
    l.foldl f a = a := by
  induction l with
  | nil => rfl
  | cons b r ih => rw [List.foldl_cons, h b List.mem_cons_self, ih fun c hc => h c (List.mem_cons_of_mem _ hc)]

/-- With no table operation waiting in any register set, none runs. -/
theorem tblSettle_of_none {d : Dev} (h : ∀ e ∈ d.tblRegs, e.2.waiting = none) : tblSettle d = d := by
  simp only [tblSettle]
  rw [foldl_of_keeps fun e he => by rw [h e he], List.map_nil, each_nil]

theorem msSettle_of_idle {g : Nat} {d : Dev} (h : d.msBusy g = false) : msSettle g d = d := by
  simp [msSettle, h]

/-- Settles O1: the lemmas above, clause by clause; no word spells a command. -/
theorem stepRunsTheFrontCommand : Obligations.StepRunsTheFrontCommand := by
  unfold Obligations.StepRunsTheFrontCommand
  exact ⟨fun _ _ _ => step_cons, fun _ => step_nil, fun _ => tickDev_of_no_updates, fun _ => tickDev_of_held,
    fun _ => closeDue_of_none, fun _ => tblSettle_of_none, fun _ _ => msSettle_of_idle, fun _ _ _ => rfl⟩

/-! ### The reset state (R14, R454) -/

/-- RESET_STATUS.STEP is 1 after Device Reset: the register stands at its Init. -/
theorem reset_step : State.reset.dev.fld 0x14 3 0 = 1 := by decide

theorem reset_not_ready : State.reset.dev.ready = false := by decide

/-- Settles O4: the reset state holds no commands, no flash and no memory bytes, and its registers stand at Init. -/
theorem resetStateIsWellKept : Obligations.ResetStateIsWellKept := by
  unfold Obligations.ResetStateIsWellKept
  obtain ⟨hmem, hchk⟩ := memOk_reset
  exact ⟨rfl, rfl, reset_step, rfl, reset_not_ready, by decide, hmem, hchk⟩

end Sys2Proof.Proofs
end

section
/-!
PROOF. O15: the three event rings that software starts and consumes. What a write of their CTRL registers makes of a ring
is said once, for any ring; then what each register does to its own.
-/
namespace Sys2Proof.Proofs
open Sys2Proof Sys2Proof.Machine Sys2Proof.Laws

/-! ### A write of CTRL, on any ring (R35, R137, R264; log 131) -/

/-- A stopped ring starts at position 0 with the size written. -/
theorem EvRing.setEnable_stopped {r : EvRing} (h : r.enable = false) (raw v : Nat) :
    (r.setLog raw v).setEnable true =
      { r with log2 := v, rawLog := raw, enable := true, head := 0, wpos := 0 } := by
  simp [EvRing.setLog, EvRing.setEnable, EvRing.start, h]

/-- A running ring starts anew at position 0; its size stays. -/
theorem EvRing.setEnable_running {r : EvRing} (h : r.enable = true) (raw v : Nat) :
    (r.setLog raw v).setEnable true = { r with head := 0, wpos := 0 } := by
  simp [EvRing.setLog, EvRing.setEnable, EvRing.start, h]

/-- A running ring stops where it is. -/
theorem EvRing.setDisable_running {r : EvRing} (h : r.enable = true) (raw v : Nat) :
    (r.setLog raw v).setEnable false = { r with enable := false } := by
  simp [EvRing.setLog, EvRing.setEnable, h]

/-! ### The CTRL registers -/

theorem exec_feqCtrlWrite {s : State} {f : Fin 32} (h : s.comes (some f.val) = true) (hf : s.dev.fnExists f = true)
    (v : Word) : exec (.feqCtrlWrite f v) s = .next (s.withDev (feqCtrlWrite f v s.dev)) := by
  refine congrArg Host.Outcome.next ((through_comes s _ _ h).trans ?_)
  rw [onDev_eq_withDev, if_pos hf]

theorem exec_mevCtrlWrite {s : State} {q : Requester} (h : s.reaches q 0x308 = true) (ht : trusted q = true) (v : Word) :
    exec (.mevCtrlWrite q v) s = .next (s.withDev (mevCtrlWrite v s.dev)) :=
  congrArg Host.Outcome.next (atRegAll_reaches s q 0x308 _ h ht)

theorem exec_excCtrlWrite {s : State} {q : Requester} (h : s.reaches q 0xD803018 = true) (ht : trusted q = true)
    (v : Word) : exec (.excCtrlWrite q v) s = .next (s.withDev (excCtrlWrite v s.dev)) :=
  congrArg Host.Outcome.next (atRegAll_reaches s q 0xD803018 _ h ht)

theorem feqCtrlWrite_starts {f : Nat} {v : Word} {d : Dev} (h : (d.fn f).feq.enable = false) (hv : v.getLsbD 31 = true) :
    feqCtrlWrite f v d = feqLostFirst f (updFn f (fun x => { x with
      feq := { x.feq with vector := wbits v 10 0, log2 := ringLog 6 6 (wbits v 28 24), rawLog := wbits v 28 24,
                          enable := true, head := 0, wpos := 0 } }) d) := by
  have hring := EvRing.setEnable_stopped (r := { (d.fn f).feq with vector := wbits v 10 0 }) h
  simp only [feqCtrlWrite, hv, hring]
  exact congrArg (feqLostFirst f) (updFn_congr f _ _ d rfl)

theorem mevCtrlWrite_starts {v : Word} {d : Dev} (h : d.mev.enable = false) (hv : v.getLsbD 31 = true) :
    mevCtrlWrite v d = mevLostFirst { d with
      mev := { d.mev with vector := wbits v 5 0, log2 := ringLog 6 8 (wbits v 28 24), rawLog := wbits v 28 24,
                          enable := true, head := 0, wpos := 0 } } := by
  simp only [mevCtrlWrite, hv, EvRing.setEnable_stopped (r := { d.mev with vector := wbits v 5 0 }) h]

theorem mevCtrlWrite_restarts {v : Word} {d : Dev} (h : d.mev.enable = true) (hv : v.getLsbD 31 = true) :
    mevCtrlWrite v d = mevLostFirst { d with mev := { d.mev with vector := wbits v 5 0, head := 0, wpos := 0 } } := by
  simp only [mevCtrlWrite, hv, EvRing.setEnable_running (r := { d.mev with vector := wbits v 5 0 }) h]

theorem mevCtrlWrite_stops {v : Word} {d : Dev} (h : d.mev.enable = true) (hv : v.getLsbD 31 = false) :
    mevCtrlWrite v d = mevLostFirst { d with mev := { d.mev with vector := wbits v 5 0, enable := false } } := by
  simp only [mevCtrlWrite, hv, EvRing.setDisable_running (r := { d.mev with vector := wbits v 5 0 }) h]

theorem excCtrlWrite_starts {v : Word} {d : Dev} (h : d.exc.enable = false) (hv : v.getLsbD 31 = true) :
    excCtrlWrite v d = { d with
      exc := { d.exc with log2 := if wbits v 3 0 = 15 then 6 else ringLog 6 6 (wbits v 3 0), rawLog := wbits v 3 0,
                          enable := true, head := 0, wpos := 0 } } := by
  simp only [excCtrlWrite, hv, EvRing.setEnable_stopped h]

/-! ### The HEAD registers (R113) -/

theorem exec_feqHeadWrite {s : State} {f : Fin 32} (h : s.comes (some f.val) = true) (hf : s.dev.fnExists f = true)
    (v : Word) : exec (.feqHeadWrite f v) s = .next (s.withDev (feqHeadWrite f v s.dev)) := by
  refine congrArg Host.Outcome.next ((through_comes s _ _ h).trans ?_)
  rw [onDev_eq_withDev, if_pos hf]

theorem exec_mevHeadWrite {s : State} {q : Requester} (h : s.reaches q 0x30C = true) (ht : trusted q = true) (v : Word) :
    exec (.mevHeadWrite q v) s = .next (s.withDev (mevHeadWrite v s.dev)) :=
  congrArg Host.Outcome.next (atRegAll_reaches s q 0x30C _ h ht)

theorem exec_excHeadWrite {s : State} {q : Requester} (h : s.reaches q 0xD80301C = true) (ht : trusted q = true)
    (v : Word) : exec (.excHeadWrite q v) s = .next (s.withDev (excHeadWrite v s.dev)) :=
  congrArg Host.Outcome.next (atRegAll_reaches s q 0xD80301C _ h ht)

/-- Settles O15: a CTRL write acts as its register's lemma says, a HEAD write by whether the position is valid. -/
theorem eventRingsRun : Obligations.EventRingsRun := by
  unfold Obligations.EventRingsRun
  refine ⟨⟨?feqCtrl, ?mevStart, ?mevRestart, ?mevStop, ?excCtrl⟩, ?feqHead, ?mevHead, ?excHead⟩
  case feqCtrl => intro s f v h hf hoff hv; rw [exec_feqCtrlWrite h hf, feqCtrlWrite_starts hoff hv]
  case mevStart => intro s q v h ht hoff hv; rw [exec_mevCtrlWrite h ht, mevCtrlWrite_starts hoff hv]
  case mevRestart => intro s q v h ht hon hv; rw [exec_mevCtrlWrite h ht, mevCtrlWrite_restarts hon hv]
  case mevStop => intro s q v h ht hon hv; rw [exec_mevCtrlWrite h ht, mevCtrlWrite_stops hon hv]
  case excCtrl => intro s q v h ht hoff hv; rw [exec_excCtrlWrite h ht, excCtrlWrite_starts hoff hv]
  case feqHead =>
    intro s f v h hf
    rw [exec_feqHeadWrite h hf, feqHeadWrite]
    exact ⟨fun p hp => by simp only [hp], fun hbad => by simp only [hbad]⟩
  case mevHead =>
    intro s q v h ht
    rw [exec_mevHeadWrite h ht, mevHeadWrite]
    exact ⟨fun p hp => by simp only [hp], fun hbad => by simp only [hbad]⟩
  case excHead =>
    intro s q v h ht
    rw [exec_excHeadWrite h ht, excHeadWrite]
    exact ⟨fun p hp => by simp only [hp], fun hbad => by simp only [hbad]⟩

end Sys2Proof.Proofs
end

section
/-!
PROOF. O18: table operations on the register path, coherent updates at their apply points, and the repair of damaged rows.
-/
namespace Sys2Proof.Proofs
open Sys2Proof Sys2Proof.Machine Sys2Proof.Laws

/-! ### The fields of TBL_CMD (R171) -/

/-- TBL_CMD as a write of GO stores it. -/
def tblCmd (code ow : Nat) (ov : Bool) (t : Nat) : Word := word (ow * 2 ^ 16 + b2n ov * 2 ^ 15 + t * 2 ^ 6 + code)

section Cmd
variable {code ow t : Nat} (ov : Bool) (hcode : code < 16) (how : ow < 2 ^ 12) (ht : t < 64)
include hcode how ht

theorem tblCmd_toNat : (tblCmd code ow ov t).toNat = ow * 2 ^ 16 + b2n ov * 2 ^ 15 + t * 2 ^ 6 + code := by
  have hov : b2n ov ≤ 1 := by cases ov <;> decide
  simp only [tblCmd, word, BitVec.toNat_ofNat]
  omega

theorem tblCmd_op : wbits (tblCmd code ow ov t) 3 0 = code := by
  rw [wbits, tblCmd_toNat ov hcode how ht, bits]
  omega

theorem tblCmd_table : wbits (tblCmd code ow ov t) 11 6 = t := by
  rw [wbits, tblCmd_toNat ov hcode how ht, bits]
  omega

theorem tblCmd_owner : wbits (tblCmd code ow ov t) 27 16 = ow := by
  have hov : b2n ov ≤ 1 := by cases ov <;> decide
  rw [wbits, tblCmd_toNat ov hcode how ht, bits]
  omega

theorem tblCmd_ownerValid : (tblCmd code ow ov t).getLsbD 15 = ov := by
  have hbit : (ow * 2 ^ 16 + b2n ov * 2 ^ 15 + t * 2 ^ 6 + code) / 2 ^ 15 % 2 ^ (15 - 15 + 1) = b2n ov := by
    have hov : b2n ov ≤ 1 := by cases ov <;> decide
    omega
  rw [getLsbD_bit, tblCmd_toNat ov hcode how ht, bits, hbit]
  cases ov <;> rfl

end Cmd

/-! ### The register path (R172, R222) -/

/-- The device with an operation accepted on the register path, BUSY and not yet run. -/
def tblAccept (q : Requester) (code ow : Nat) (ov : Bool) (t : Nat) (d : Dev) : Dev :=
  { d with accepted := d.accepted + 1, tblRegs := mupd {} d.tblRegs (reqKey q) fun x =>
    { x with cmd := tblCmd code ow ov t, busy := true, waiting := none, status := stPending, detail := 0 } }

theorem regs_tblAccept (q : Requester) (code ow : Nat) (ov : Bool) (t : Nat) (d : Dev) :
    mget {} (tblAccept q code ow ov t d).tblRegs (reqKey q) = { mget {} d.tblRegs (reqKey q) with
      cmd := tblCmd code ow ov t, busy := true, waiting := none, status := stPending, detail := 0 } := by
  simp [tblAccept]

theorem mem_mupd {α : Type} [DecidableEq α] {dflt : α} {m : Map α} {n : Nat} {f : α → α} {e : Nat × α}
    (h : e ∈ mupd dflt m n f) : e = (n, f (mget dflt m n)) ∨ e ∈ m := by
  unfold mupd mset at h
  split at h
  · rw [mdel_eq_filter] at h
    exact .inr (List.mem_filter.1 h).1
  · exact mem_mput _ _ _ _ h

/-- What was accepted before stays the same when the new operation itself does not wait. -/
theorem ahead_tblAccept (q : Requester) (code ow : Nat) (ov : Bool) (t n : Nat) {d : Dev} (h : d.ahead n = false) :
    (tblAccept q code ow ov t d).ahead n = false := by
  simp only [Dev.ahead, Bool.or_eq_false_iff] at h ⊢
  obtain ⟨hrings, hregs⟩ := h
  refine ⟨hrings, ?_⟩
  rw [List.any_eq_false] at hregs ⊢
  intro e he
  simp only [tblAccept] at he
  rcases mem_mupd he with rfl | hold
  · exact Bool.false_ne_true
  · exact hregs e hold

/-- An operation that need not wait runs as it is accepted. -/
theorem tblGo_runs {q : Requester} {code ow t : Nat} (ov : Bool) {d : Dev} (hcode : code < 16) (how : ow < 2 ^ 12)
    (ht : t < 64) (hq : hasTblRegs q = true) (hbusy : (mget {} d.tblRegs (reqKey q)).busy = false)
    (hfree : code ≠ 5 → d.tableHeld t = false ∧ d.ahead d.accepted = false) :
    tblGo q code ow ov t d = tblRun q (tblAccept q code ow ov t d) := by
  have hwait : (tblAccept q code ow ov t d).tblWaits (mget {} (tblAccept q code ow ov t d).tblRegs (reqKey q))
      d.accepted = false := by
    simp only [Dev.tblWaits, regs_tblAccept, tblCmd_op ov hcode how ht, tblCmd_table ov hcode how ht]
    by_cases h5 : code = 5
    · simp [h5]
    · obtain ⟨hheld, hahead⟩ := hfree h5
      have hheld' : (tblAccept q code ow ov t d).tableHeld t = false := hheld
      rw [hheld', ahead_tblAccept q code ow ov t _ hahead, Bool.or_self, Bool.and_false]
  simp only [tblGo, hq, hbusy, Bool.not_true, Bool.false_eq_true, if_false]
  exact if_neg (Bool.eq_false_iff.1 hwait)

theorem tblRun_unready {q : Requester} {d : Dev} (h : d.engineReady = false) :
    tblRun q d = regReturn q stAborted 0 [] [] d := by
  simp only [tblRun, h, Bool.not_false, if_true]

/-- Planning reads neither the table command registers nor the count of what was accepted. -/
theorem planEntry_tblAccept (op : EntryOp) (t' : Nat) (key data : List Byte) (owner path : Option Nat) (q : Requester)
    (code ow : Nat) (ov : Bool) (t : Nat) (d : Dev) :
    planEntry op t' key data owner path (tblAccept q code ow ov t d) = planEntry op t' key data owner path d := rfl

/-- The key that a set of table command registers holds. -/
def regKey (x : TblRegs) : List Byte := ((List.range 14).map fun i => leBytes 4 (mget 0 x.key i).toNat).flatten

/-- The plan that the register path carries out for an operation: key and data from the registers x. -/
def regPlan (op : EntryOp) (t : Nat) (x : TblRegs) (owner : Option Nat) (d : Dev) : Plan :=
  planEntry op t ((regKey x).take (pKeyLen (d.gens.rules.profileOf t)))
    ((List.range 2).map fun i => leBytes 4 (mget 0 x.data i).toNat).flatten owner none d

/-- Nothing keeps an operation on table t, with the registers x, from its plan: the engine is ready, the table takes
entries, the key fits its profile, and an insertion meets no pending redefinition. -/
structure RegPlans (op : EntryOp) (t : Nat) (x : TblRegs) (d : Dev) : Prop where
  ready : d.engineReady = true
  kind : exactKind (d.gens.rules.kind t) = true
  key : keyBad (d.gens.rules.profileOf t) (regKey x) = false
  settled : op = .insert ∨ op = .ifAbsent → d.redefining t = false

/-- An operation stays such while it is accepted. -/
theorem RegPlans.accepted {op : EntryOp} {t : Nat} {x : TblRegs} {d : Dev} (h : RegPlans op t x d) (q : Requester)
    (code ow : Nat) (ov : Bool) : RegPlans op t x (tblAccept q code ow ov t d) :=
  ⟨h.ready, h.kind, h.key, h.settled⟩

theorem RegPlans.not_redefining {op : EntryOp} {t : Nat} {x : TblRegs} {d : Dev} (h : RegPlans op t x d) :
    ((op == .insert || op == .ifAbsent) && d.redefining t) = false := by
  by_cases hins : op = .insert ∨ op = .ifAbsent
  · rw [h.settled hins, Bool.and_false]
  · have hno : (op == .insert || op == .ifAbsent) = false := by simpa using hins
    rw [hno, Bool.false_and]

/-- Such an operation, once accepted, carries out its plan. -/
theorem tblRun_plans {q : Requester} {code ow t : Nat} {op : EntryOp} {d : Dev} (ov : Bool) (hop : entryOp code = some op)
    (hcode : code < 16) (how : ow < 2 ^ 12) (ht : t < 64)
    (h : RegPlans op t (mget {} d.tblRegs (reqKey q)) d) :
    tblRun q (tblAccept q code ow ov t d) =
      let p := regPlan op t (mget {} d.tblRegs (reqKey q)) (if ov then some ow else none) d
      runPlan t p (fun ws => .regPath q p.status p.detail ws
        (match p.evicted with | some (v, _) => padTo 56 v.key | none => [])) (tblAccept q code ow ov t d) := by
  have ha := h.accepted q code ow ov
  have hkey := ha.key
  unfold regKey at hkey
  simp only [tblRun, regs_tblAccept, tblCmd_op ov hcode how ht, tblCmd_table ov hcode how ht,
    tblCmd_owner ov hcode how ht, tblCmd_ownerValid ov hcode how ht, hop, ha.ready, ha.kind, hkey,
    ha.not_redefining, Bool.not_true, Bool.false_eq_true, if_false, planEntry_tblAccept]
  rfl

/-- The code in TBL_CMD of an operation tells it from the others; LOOKUP alone is 5. -/
theorem entryOp_some {code : Nat} {op : EntryOp} (h : entryOp code = some op) :
    code < 16 ∧ (code ≠ 5 → op ≠ .lookup) := by
  unfold entryOp at h
  split at h <;> cases h <;> decide

/-- Each command of the register path writes TBL_CMD with GO and its own code. -/
theorem exec_tblCommand {op : EntryOp} {c : Requester → BitVec 12 → Bool → Fin 64 → Instr} {code : Nat}
    (hc : (op = .insert ∧ c = .tblInsert ∧ code = 1) ∨ (op = .ifAbsent ∧ c = .tblInsertIfAbsent ∧ code = 2) ∨
      (op = .modify ∧ c = .tblModify ∧ code = 3) ∨ (op = .delete ∧ c = .tblDelete ∧ code = 4) ∨
      (op = .lookup ∧ c = .tblLookup ∧ code = 5)) {s : State} {q : Requester} (h : s.reaches q 0xD800000 = true)
    (ow : BitVec 12) (ov : Bool) (t : Fin 64) :
    entryOp code = some op ∧ exec (c q ow ov t) s = .next (s.withDev (tblGo q code ow.toNat ov t s.dev)) := by
  rcases hc with ⟨rfl, rfl, rfl⟩ | ⟨rfl, rfl, rfl⟩ | ⟨rfl, rfl, rfl⟩ | ⟨rfl, rfl, rfl⟩ | ⟨rfl, rfl, rfl⟩
  all_goals exact ⟨rfl, congrArg Host.Outcome.next (atReg_reaches s q 0xD800000 _ h)⟩

/-! ### Coherent updates (R17, R20) -/

theorem exec_coherentUpdateApply (s : State) :
    exec .coherentUpdateApply s = .next (s.withDev (tblSettle (applyNext s.dev))) := rfl

/-- The only staged update takes effect at its apply point. -/
theorem applyNext_single {d : Dev} {u : Update} (h : d.updates = [u]) :
    applyNext d = each u.done updFinish (setReg64 0x100008 u.apply
      (updEffect u.apply u.op { d with updates := [], time := max d.time u.apply })) := by
  simp only [applyNext, h, List.length_singleton, applyDue, applyFirst, le_refl, if_true]

/-! ### Damaged rows (R233) -/

theorem exec_tableEccRepair {s : State} {t : Fin 64} (h : s.dev.gens.rules.kind t.val ≠ 0) (place : Nat) (good : Bool) :
    exec (.tableEccRepair t place good) s = .next (s.withDev (tableRepair t place good s.dev)) := by
  refine congrArg Host.Outcome.next ?_
  rw [onDev_eq_withDev, if_neg h]

/-- An entry is lost where the staged updates that took effect first have left it in its place. -/
theorem loseRow_exact {d : Dev} {t place : Nat} {y : Entry} (hk : exactKind (d.gens.rules.kind t) = true)
    (hy : mfind (d.table t).ents place = some y) :
    loseRow t place d = if (mfind ((freeTable t d).table t).ents place).map (·.key) = some y.key
      then deleteKey t y.key (freeTable t d) else freeTable t d := by
  simp only [loseRow, hk, hy, if_true]

/-- Settles O18: an accepted operation runs as the lemmas on the register path say; the rest is the meaning of its row. -/
theorem registerPathAndUpdatesRun : Obligations.RegisterPathAndUpdatesRun := by
  unfold Obligations.RegisterPathAndUpdatesRun
  refine ⟨?registers, ?apply, ?good, ?lost, ?exact⟩
  case registers =>
    rintro op c code hc s q ow ov t x key go hreach hq rfl hbusy hfree rfl rfl
    obtain ⟨hop, hexec⟩ := exec_tblCommand hc hreach ow ov t
    obtain ⟨hcode, hlookup⟩ := entryOp_some hop
    rw [hexec, tblGo_runs ov hcode ow.isLt t.isLt hq hbusy fun h5 => hfree (hlookup h5)]
    refine ⟨fun hready => ?_, ?_⟩
    · rw [tblRun_unready (d := tblAccept q code ow.toNat ov t s.dev) hready]
      rfl
    · rintro hready hkind hkey hredef plan rfl
      rw [tblRun_plans ov hop hcode ow.isLt t.isLt ⟨hready, hkind, hkey, hredef⟩]
      rfl
  case apply =>
    intro s u hu
    rw [exec_coherentUpdateApply, applyNext_single hu]
  case good =>
    intro s t place hk
    rw [exec_tableEccRepair hk]
    rfl
  case lost =>
    intro s t place hk
    rw [exec_tableEccRepair hk]
    rfl
  case exact =>
    rintro d e t place y hk hy rfl
    exact loseRow_exact hk hy

end Sys2Proof.Proofs
end

section
/-!
PROOF. O38: configuration requests, and requests of a host to the BARs of its function. First what each kind of request
does to a function that takes it; the statement is put together from these.
-/
namespace Sys2Proof.Proofs
open Sys2Proof Sys2Proof.Machine Sys2Proof.Laws

/-! ### Configuration requests of a host (R73, R90, R98-R100) -/

theorem exec_configRequest_host {g : Fin 33} {f : Nat} (hg : g.val = f) (hf : f < 32) (w : Bool) (off : Nat) (v : Word)
    (be : BitVec 4) (s : State) :
    exec (.configRequest g w off v be) s = .next (s.withDev (configRequest f w off v be s.dev)) := by
  subst hg
  refine congrArg Host.Outcome.next ?_
  rw [onDev_eq_withDev, if_neg (by omega)]

/-- What a configuration write ends with: its completion waits where it has begun what R98 or R100 let end first. -/
def cfgWritten (f : Nat) (d : Dev) : Dev :=
  if (d.fn f).closing.isSome then when (d.closes f) (closeNow f) d else emit (.completion f 0 [] false) d

section Config
variable {d : Dev} {f o : Nat} (hex : d.fnExists f = true) (hup : d.dlUp f = true)
include hex hup

/-- Before the device is ready and during FLR every request is to be sent again. -/
theorem configRequest_retries (hret : d.ready = false ∨ (d.fn f).flr = true) (w : Bool) (off : Nat) (v : Word)
    (be : BitVec 4) : configRequest f w off v be d = emit (.completion f 2 [] false) d := by
  cases w with
  | false => simp [configRequest, hex, hup, hret]
  | true => simp [configRequest, cfgWrite, Dev.retries, hex, hup, hret]

variable (hready : d.ready = true) (hflr : (d.fn f).flr = false)
include hready hflr

theorem configRequest_read {off : Nat} (ho : o = off % 4096 / 4 * 4) (v : Word) (be : BitVec 4) :
    configRequest f false off v be d = emit (.completion f 0 (leBytes 4 (d.cfgRead f o).toNat) false) d := by
  subst ho
  simp [configRequest, hex, hup, hready, hflr]

theorem cfgWrite_served (flr : Bool) (go : Dev → Dev) :
    cfgWrite f flr go d = cfgWritten f (go ((if flr then closeDrop f else closeNow f) d)) := by
  simp only [cfgWrite, Dev.retries, hex, hup, hready, hflr, Bool.not_true, Bool.or_self, Bool.false_eq_true, if_false]
  rfl

/-- A write that starts no FLR, with none waiting for its completion. -/
theorem configRequest_write {off : Nat} {v : Word} {be : BitVec 4} (ho : o = off % 4096 / 4 * 4)
    (hclosing : (d.fn f).closing = none) (hno : (o == 0x78 && be.getLsbD 1 && v.getLsbD 15) = false) :
    configRequest f true off v be d = cfgWritten f (cfgSet f o v be d) := by
  subst ho
  have hnow : closeNow f d = d := by rw [closeNow, hclosing]
  simp only [configRequest, if_true, cfgWrite_served hex hup hready hflr, hno, Bool.false_eq_true, if_false, hnow]

/-- A write that starts an FLR completes the one still waiting. -/
theorem configRequest_flr {off : Nat} {v : Word} {be : BitVec 4} (ho : o = off % 4096 / 4 * 4) (h78 : o = 0x78)
    (hbe : be.getLsbD 1 = true) (hv : v.getLsbD 15 = true) :
    configRequest f true off v be d = cfgWritten f (cfgSet f o v be (closeDrop f d)) := by
  have hyes : (o == 0x78 && be.getLsbD 1 && v.getLsbD 15) = true := by rw [h78, hbe, hv]; rfl
  subst ho
  simp only [configRequest, if_true, cfgWrite_served hex hup hready hflr, hyes]

end Config

/-! ### Configuration requests to the manager function (R34) -/

theorem exec_configRequest_manager (w : Bool) (off : Nat) (v : Word) (be : BitVec 4) (s : State) :
    exec (.configRequest 32 w off v be) s = .next (s.withDev (mgrConfigRequest w off v be s.dev)) := rfl

theorem exec_managerFunctionConfigWrite (off : Nat) (v : Word) (s : State) :
    exec (.managerFunctionConfigWrite off v) s = .next (s.withDev (mgrConfigRequest true off v 15 s.dev)) := rfl

section Manager
variable {d : Dev} (hh : d.power.holds = []) (hup : d.cpUp = true)
include hh hup

theorem mgrConfigRequest_retries (hstep : d.fld 0x14 3 0 < 2) (w : Bool) (off : Nat) (v : Word) (be : BitVec 4) :
    mgrConfigRequest w off v be d = emit (.completion 32 2 [] false) d := by
  simp [mgrConfigRequest, hh, hup, hstep]

theorem mgrConfigRequest_served {off o : Nat} (ho : o = off % 4096 / 4 * 4) (hstep : 2 ≤ d.fld 0x14 3 0) (w : Bool)
    (v : Word) (be : BitVec 4) :
    mgrConfigRequest w off v be d = if w then emit (.completion 32 0 [] false) (cfgSet 32 o v be d)
      else emit (.completion 32 0 (leBytes 4 (d.cfgRead 32 o).toNat) false) d := by
  subst ho
  simp [mgrConfigRequest, hh, hup, Nat.not_lt.2 hstep]

end Manager

/-! ### Which requests reach a BAR (R90) -/

theorem exec_barRequest (f : Fin 32) (a : HostReq) (s : State) :
    exec (.barRequest f a) s = .next (s.withDev (barRequest s.nv f a s.dev)) := rfl

/-- The function exists, its link is up, and nothing holds the adapter in reset. -/
def Live (f : Nat) (d : Dev) : Prop := d.power.holds = [] ∧ d.fnExists f = true ∧ d.dlUp f = true

theorem Live.guard {f : Nat} {d : Dev} (h : Live f d) : (d.power.holds.isEmpty && d.fnExists f && d.dlUp f) = true := by
  obtain ⟨hh, hex, hup⟩ := h
  rw [hh, hex, hup]; rfl

/-- A function that takes memory requests is there. -/
theorem live_of_sees {f : Fin 32} {d : Dev} (h : d.sees f = true) : Live f d := by
  simp only [Dev.sees, Dev.linked, Bool.and_eq_true, if_neg (show f.val ≠ 32 by omega), List.isEmpty_iff] at h
  obtain ⟨⟨hh, ⟨hex, hup⟩, -⟩, -⟩ := h
  exact ⟨hh, hex, hup⟩

section Bar
variable {nv : Nv} {f : Nat} {d : Dev} (h : Live f d)
include h

theorem barRequest_unsupported : barRequest nv f .unsupported d = unsupported f true d := by
  simp only [barRequest, h.guard, Bool.not_true, Bool.false_eq_true, if_false]

theorem barRequest_translated (posted : Bool) :
    barRequest nv f (.translated posted) d = unsupported f (!posted) d := by
  simp only [barRequest, h.guard, Bool.not_true, Bool.false_eq_true, if_false]

theorem barRequest_message : barRequest nv f .message d = aerUnc f erUnsupported false d := by
  simp only [barRequest, h.guard, Bool.not_true, Bool.false_eq_true, if_false]

theorem barRequest_vendorType1 : barRequest nv f .vendorType1 d = d := by
  simp only [barRequest, h.guard, Bool.not_true, Bool.false_eq_true, if_false]

theorem barRequest_malformed : barRequest nv f .malformed d = aerUnc f erMalformed false d := by
  simp only [barRequest, h.guard, Bool.not_true, Bool.false_eq_true, if_false]

theorem barRequest_bar0_unseen (hs : d.sees f = false) (a : Access) :
    barRequest nv f (.bar0 a) d = unsupported f (accessReads a) d := by
  simp only [barRequest, h.guard, hs, Bool.not_true, Bool.false_eq_true, if_false]

variable (hs : d.sees f = true)
include hs

theorem barRequest_bar0 (a : Access) : barRequest nv f (.bar0 a) d = bar0Request nv f a d := by
  simp only [barRequest, h.guard, hs, Bool.not_true, Bool.false_eq_true, if_false, if_true]

theorem barRequest_bar2 (a : Access) : barRequest nv f (.bar2 a) d = bar2Request f a d := by
  simp only [barRequest, h.guard, hs, Bool.not_true, Bool.false_eq_true, if_false, if_true]

theorem barRequest_bar4 (a : Access) : barRequest nv f (.bar4 a) d = bar4Request f a d := by
  simp only [barRequest, h.guard, hs, Bool.not_true, Bool.false_eq_true, if_false, if_true]

end Bar

theorem any_not_of_all {be : List Bool} (h : ∀ x ∈ be, x = true) : be.any (!·) = false := by
  simpa using fun hf => Bool.false_ne_true (h false hf)

theorem all_id_of_all {be : List Bool} (h : ∀ x ∈ be, x = true) : be.all id = true := by
  simpa using fun hf => Bool.false_ne_true (h false hf)

theorem leBytes_length (n v : Nat) : (leBytes n v).length = n := by
  induction n generalizing v with
  | zero => rfl
  | succ n ih => rw [leBytes, List.length_cons, ih]

/-! ### BAR0 (R86) -/

section Bar0
variable {nv : Nv} {f off : Nat} {d : Dev} (hw : d.windowSide f false off = none)
include hw

theorem bar0Request_read {be : List Bool} (hbe : ∀ x ∈ be, x = true) (h4 : off % 4 = 0) :
    bar0Request nv f (.read off 4 be) d = if d.hostHas f off then
        emit (.completion f 0 (leBytes 4 (hostRegRead nv f off d).1.toNat) false) (hostRegRead nv f off d).2
      else emit (.completion f 0 [0, 0, 0, 0] false) (count (aFn f 0x10) d) := by
  cases hhas : d.hostHas f off <;> simp [bar0Request, hw, h4, any_not_of_all hbe, hhas] <;> rfl

theorem bar0Request_read_aborted {len : Nat} {be : List Bool} (h : len ≠ 4 ∨ off % 4 ≠ 0 ∨ false ∈ be) :
    bar0Request nv f (.read off len be) d =
      emit (.completion f 4 [] false) (aerUnc f erAbort true (count (aFn f 0x10) d)) := by
  have hbad : (len != 4 || off % 4 != 0 || be.any (!·)) = true := by simpa [or_assoc] using h
  simp only [bar0Request, hw, hbad, if_true]
  rfl

theorem bar0Request_write {be : List Bool} (hbe : ∀ x ∈ be, x = true) (h4 : off % 4 = 0) (hhas : d.hostHas f off = true)
    (v : Nat) : bar0Request nv f (.write off (leBytes 4 v) be false) d =
      hostRegWrite f off (word (le (leBytes 4 v) 0 4)) d := by
  simp [bar0Request, hw, h4, any_not_of_all hbe, hhas, leBytes_length]

theorem bar0Request_write_aborted {data : List Byte} {be : List Bool}
    (h : data.length ≠ 4 ∨ off % 4 ≠ 0 ∨ false ∈ be ∨ d.hostHas f off = false) :
    bar0Request nv f (.write off data be false) d = aerUnc f erAbort false (count (aFn f 0x10) d) := by
  have hbad : (data.length != 4 || off % 4 != 0 || be.any (!·) || !d.hostHas f off) = true := by
    simpa [or_assoc] using h
  simp only [bar0Request, hw, hbad, Option.isSome_none, Bool.false_eq_true, if_false, if_true]
  rfl

theorem bar0Request_write_poisoned (data : List Byte) (be : List Bool) :
    bar0Request nv f (.write off data be true) d = hostPoisonIn f d := by
  simp only [bar0Request, hw, Option.isSome_none, Bool.false_eq_true, if_false, if_true]

end Bar0

/-! ### Mailbox windows of BAR0 and BAR2 (R86, R87) -/

theorem bar0Request_window {nv : Nv} {f off : Nat} {d : Dev} {x : Side} (hw : d.windowSide f false off = some x)
    (data : List Byte) (be : List Bool) (ep : Bool) : bar0Request nv f (.write off data be ep) d =
      arenaWrite { x with mgr := false } x.mgr (byteRuns (enabledBytes (off % 4096) data be)) ep d := by
  simp only [bar0Request, hw, Option.isSome_some, if_true, windowWrite]

theorem bar2Request_window {f off : Nat} {d : Dev} {x : Side} (hw : d.windowSide f true off = some x)
    (data : List Byte) (be : List Bool) (ep : Bool) : bar2Request f (.write off data be ep) d =
      arenaWrite { x with mgr := false } x.mgr (byteRuns (enabledBytes (off % 4096) data be)) ep d := by
  simp only [bar2Request, hw, windowWrite]

/-- A page that no slice of the function uses reads 0. -/
theorem bar2Request_read_unused {f off : Nat} {d : Dev} (hw : d.windowSide f true off = none) (len : Nat)
    (be : List Bool) :
    bar2Request f (.read off len be) d = emit (.completion f 0 (List.replicate len 0) false) d := by
  simp only [bar2Request, hw, windowRead, Option.filter_none]
  rfl

/-- A page that the host itself sends from reads as the memory holds it. -/
theorem bar2Request_read_own {f off : Nat} {d : Dev} {x : Side} (hw : d.windowSide f true off = some x)
    (hhid : d.hidden x = false) (hmgr : x.mgr = false) (len : Nat) (be : List Bool) :
    bar2Request f (.read off len be) d = emit (.completion f 0 (readHbm (sidePage x + off % 4096) len d).1
      (readHbm (sidePage x + off % 4096) len d).2.1) (readHbm (sidePage x + off % 4096) len d).2.2 := by
  have hshown : (some x).filter (!d.hidden ·) = some x := by simp [hhid]
  simp only [bar2Request, hw, windowRead, hshown, hmgr, Bool.false_eq_true, if_false, pageRead]
  rfl

/-! ### BAR4: the MSI-X table (R88) -/

section Bar4
variable {f off : Nat} {d : Dev} {be : List Bool} (h4 : off % 4 = 0) (hoff : off < 0x8000) (hbe : ∀ x ∈ be, x = true)
include h4 hoff

theorem bar4Ok_table : bar4Ok off 4 = true := by
  simp [bar4Ok, h4, hoff]

include hbe

theorem bar4Request_read : bar4Request f (.read off 4 be) d =
    emit (.completion f 0 (leBytes 4 (d.msixDword f 0x10000 2048 off).toNat) false) d := by
  simp only [bar4Request, bar4Ok_table h4 hoff, all_id_of_all hbe, Bool.and_self, if_true]
  rfl

theorem bar4Request_write (v : Nat) : bar4Request f (.write off (leBytes 4 v) be false) d =
    msixSet f off (word (le (leBytes 4 v) 0 4)) d := by
  simp only [bar4Request, leBytes_length, bar4Ok_table h4 hoff, any_not_of_all hbe, Bool.not_true, Bool.or_self,
    Bool.false_eq_true, if_false, if_neg (show ¬ 0x10000 ≤ off by omega)]
  rfl

end Bar4

/-- Settles O38: each clause is the lemma above on its kind of request, once the request has reached its function. -/
theorem hostsReachTheirFunction : Obligations.HostsReachTheirFunction := by
  unfold Obligations.HostsReachTheirFunction
  refine ⟨⟨?config, ?manager⟩, ?bars, ?kinds⟩
  case config =>
    intro s g f off v be o hg hf hex hup ho
    simp only [exec_configRequest_host hg hf]
    refine ⟨fun hready hflr => ?read, ?write, ?flr, fun hret w => ?retry⟩
    case read => rw [configRequest_read hex hup hready hflr ho]
    case write =>
      rintro hready hflr hclosing hno d rfl
      rw [configRequest_write hex hup hready hflr ho hclosing hno]
      rfl
    case flr =>
      rintro hready hflr h78 hbe hv d rfl
      rw [configRequest_flr hex hup hready hflr ho h78 hbe hv]
      rfl
    case retry => rw [configRequest_retries hex hup hret]
  case manager =>
    intro s off v be o hh hup ho
    simp only [exec_configRequest_manager, exec_managerFunctionConfigWrite]
    refine ⟨fun hstep => ⟨?read, ?write, ?cfgWrite⟩, fun hstep => ⟨fun w => ?retry, ?retryWrite⟩⟩
    case read => rw [mgrConfigRequest_served hh hup ho hstep, if_neg Bool.false_ne_true]
    case write => rw [mgrConfigRequest_served hh hup ho hstep, if_pos rfl]
    case cfgWrite => rw [mgrConfigRequest_served hh hup ho hstep, if_pos rfl]
    case retry => rw [mgrConfigRequest_retries hh hup hstep]
    case retryWrite => rw [mgrConfigRequest_retries hh hup hstep]
  case bars =>
    rintro s f d rfl - hs
    have hlive := live_of_sees hs
    simp only [exec_barRequest, barRequest_bar0 hlive hs, barRequest_bar2 hlive hs, barRequest_bar4 hlive hs]
    refine ⟨?bar0, ?bar0Read, ?bar0Write, ?bar0Poison, ?bar0Window, ?bar2Window, ?bar2Unused, ?bar2Own, ?bar4⟩
    case bar0 =>
      intro off be hw hbe h4
      refine ⟨?_, fun hhole => ?_, fun v hhas => ?_⟩
      · rintro hhas r rfl
        rw [bar0Request_read hw hbe h4, if_pos hhas]
      · rw [bar0Request_read hw hbe h4, if_neg (Bool.eq_false_iff.1 hhole)]
      · rw [bar0Request_write hw hbe h4 hhas]
    case bar0Read => intro off len be hw hbad; rw [bar0Request_read_aborted hw hbad]
    case bar0Write => intro off data be hw hbad; rw [bar0Request_write_aborted hw hbad]
    case bar0Poison => intro off data be hw; rw [bar0Request_write_poisoned hw]
    case bar0Window => intro off data be ep x hw; rw [bar0Request_window hw]
    case bar2Window => intro off data be ep x hw; rw [bar2Request_window hw]
    case bar2Unused => intro off len be hw; rw [bar2Request_read_unused hw]
    case bar2Own => intro off len be x hw hhid hmgr; rw [bar2Request_read_own hw hhid hmgr]
    case bar4 =>
      intro off be h4 hoff hbe
      refine ⟨?_, fun v => ?_⟩
      · rw [bar4Request_read h4 hoff hbe]
      · rw [bar4Request_write h4 hoff hbe]
  case kinds =>
    intro s f hh hex hup
    have hlive : Live f s.dev := ⟨hh, hex, hup⟩
    simp only [exec_barRequest, barRequest_unsupported hlive, barRequest_translated hlive, barRequest_message hlive,
      barRequest_vendorType1 hlive, barRequest_malformed hlive]
    refine ⟨fun hs => ?unseen, rfl, rfl, trivial, rfl, trivial⟩
    case unseen =>
      simp only [barRequest_bar0_unseen hlive hs]
      exact ⟨fun _ _ _ => rfl, fun _ _ _ _ => rfl⟩

end Sys2Proof.Proofs
end

section
/-!
PROOF. O52: admission to a service node, the replication of a multicast packet that has crossed to its die, and the read
back of a spilled packet.
-/
namespace Sys2Proof.Proofs
open Sys2Proof Sys2Proof.Machine Sys2Proof.Laws

theorem exec_tmAdmit (i : Nat) (s : State) : exec (.tmAdmit i) s = .next (s.withDev (tmAdmit i s.dev)) := rfl

theorem exec_spillReadback (i : Nat) (s : State) :
    exec (.spillReadback i) s = .next (s.withDev (spillReadback i s.dev)) := rfl

/-! ### Which packets enter (R13, R22, R26) -/

/-- A packet at its port enters the buffer there, once staged node settings have taken effect. -/
theorem tmAdmit_enters {d : Dev} {i port : Nat} {p : Packet} (hp : d.packet i = some p)
    (hloc : p.loc = .toTm port ∨ ∃ a b, p.loc = .transfer a b port) (hfirst : d.firstOut p = true) :
    tmAdmit i d = enterBuffer p port (nodesDue d) := by
  rcases hloc with hl | ⟨a, b, hl⟩ <;>
    simp only [tmAdmit, hp, hfirst, hl, Bool.not_true, Bool.false_eq_true, if_false]

/-- A multicast packet that has crossed the welt is replicated on its die, and ends (R13). -/
theorem tmAdmit_replicates {d : Dev} {i a b g : Nat} {p : Packet} (hp : d.packet i = some p) (hloc : p.loc = .cross a b)
    (hdest : p.dest = .group g) (hfirst : d.firstOut p = true) :
    tmAdmit i d = endPacket p (replicate (d.rulesOf p.gen) g b p d) := by
  simp only [tmAdmit, hp, hfirst, hloc, hdest, Bool.not_true, Bool.false_eq_true, if_false]

theorem tmAdmit_waits {d : Dev} {i : Nat} {p : Packet} (hp : d.packet i = some p) (hlater : d.firstOut p = false) :
    tmAdmit i d = d := by
  simp only [tmAdmit, hp, hlater, Bool.not_false, if_true]

/-! ### What becomes of a packet at its service node (R352, R360, R361) -/

section Buffer
variable {d : Dev} {p : Packet} {port : Nat} {n : NodeId} (hn : n = d.nodeOf p port)
include hn

theorem enterBuffer_onDie (h : d.refusedBy n port p = none) :
    enterBuffer p port d = enterNodeFifo { p with spillQ := none } n port false d := by
  subst hn
  simp only [enterBuffer, h]

variable {c : Nat} (hc : d.refusedBy n port p = some c)
include hc

theorem enterBuffer_spills {k : Nat} (hen : (d.node (subNode n)).spillEn = true)
    (hroom : d.spillUsed (dieOfPort port) + p.bytes.length ≤ 14336 * 2 ^ 20) (hk : d.spillQueue p = some k) :
    enterBuffer p port d = meterOf p.destSlice 10 p.bytes.length (count (aTm (dieOfPort port) + 0x24)
      (enterNodeFifo { p with spillQ := some k } n port true d)) := by
  subst hn
  simp only [enterBuffer, hc, hen, hroom, hk, decide_true, Bool.and_self, if_true]

/-- A drop where spill is off for the subscriber is counted under the bound alone. -/
theorem enterBuffer_drops (hen : (d.node (subNode n)).spillEn = false) :
    enterBuffer p port d =
      let drop1 := fun (x : Node) => { x with drops := x.drops + 1 }
      endPacket p (updNode (.port (fin 172 port)) drop1 (updNode (subNode n) drop1 (updNode n drop1
        (dropForSlice p port (count (aTm (dieOfPort port) + c) d))))) := by
  subst hn
  simp only [enterBuffer, hc, hen, Bool.false_and, Bool.false_eq_true, if_false, when_false]

/-- A drop where spill is on, but has no queue or no room for the packet, is counted as spill's too. -/
theorem enterBuffer_drops_unspilled (hen : (d.node (subNode n)).spillEn = true)
    (hno : d.spillQueue p = none ∨ 14336 * 2 ^ 20 < d.spillUsed (dieOfPort port) + p.bytes.length) :
    enterBuffer p port d =
      let drop1 := fun (x : Node) => { x with drops := x.drops + 1 }
      endPacket p (updNode (.port (fin 172 port)) drop1 (updNode (subNode n) drop1 (updNode n drop1
        (dropForSlice p port (count (aTm (dieOfPort port) + 0x28) (count (aTm (dieOfPort port) + c) d)))))) := by
  subst hn
  have hnone : (if (true && decide (d.spillUsed (dieOfPort port) + p.bytes.length ≤ 14336 * 2 ^ 20)) = true
      then d.spillQueue p else none) = none := by
    rcases hno with hq | hfull
    · rw [hq, ite_self]
    · rw [if_neg (by simp only [Bool.true_and, decide_eq_true_eq]; omega)]
  simp only [enterBuffer, hc, hen, hnone, when_true]

end Buffer

/-- SHARE is the first bound judged, and alone names counter 0x10 (R360). -/
theorem refusedBy_share_iff {d : Dev} {n : NodeId} {port c : Nat} {p : Packet} (h : d.refusedBy n port p = some c) :
    c = 0x10 ↔ (d.node (subNode n)).share ≠ 0 ∧
      (d.node (subNode n)).share * 1024 < d.onDie (subNode n) + cells p.bytes.length := by
  unfold Dev.refusedBy at h
  simp only at h
  split at h
  · rename_i hshare
    cases h
    simpa using hshare
  · rename_i hshare
    have hno : ¬ ((d.node (subNode n)).share ≠ 0 ∧
        (d.node (subNode n)).share * 1024 < d.onDie (subNode n) + cells p.bytes.length) := by simpa using hshare
    have hc : c ≠ 0x10 := by
      split at h
      · cases h; decide
      · split at h
        · cases h; decide
        · cases h
    exact iff_of_false hc hno

/-! ### Read back from spill (R361) -/

theorem spillReadback_room {d : Dev} {i port : Nat} {n : NodeId} {p : Packet} (hp : d.packet i = some p)
    (hloc : p.loc = .node n port true)
    (hroom : d.bufUsed (dieOfPort port) + d.newCells (dieOfPort port) p ≤ 2 ^ 26) :
    spillReadback i d = updPacket i (fun p => { p with loc := .node n port false, spillQ := none }) d := by
  simp only [spillReadback, hp, hloc, hroom, if_true]

theorem spillReadback_full {d : Dev} {i port : Nat} {n : NodeId} {p : Packet} (hp : d.packet i = some p)
    (hloc : p.loc = .node n port true)
    (hfull : 2 ^ 26 < d.bufUsed (dieOfPort port) + d.newCells (dieOfPort port) p) : spillReadback i d = d := by
  simp only [spillReadback, hp, hloc, Nat.not_le.2 hfull, if_false]

/-- Settles O52: the row's packet enters the buffer, where the lemmas above say what becomes of it. -/
theorem packetsAreAdmitted : Obligations.PacketsAreAdmitted := by
  unfold Obligations.PacketsAreAdmitted
  refine ⟨?enters, ?crossed, ?later, ?readback, ?full⟩
  case enters =>
    rintro s i p port n d hp hloc hfirst rfl hn
    rw [exec_tmAdmit, tmAdmit_enters hp hloc hfirst]
    refine ⟨fun hin => ?onDie, fun c k hc hen hroom hk => ?spill,
      fun c up hc hup => ⟨fun hen => ?drop, fun hen hno => ?dropSpill⟩, fun c hc => refusedBy_share_iff hc⟩
    case onDie => rw [enterBuffer_onDie hn hin]
    case spill => rw [enterBuffer_spills hn hc hen hroom hk]
    case drop => rw [enterBuffer_drops hn hc hen, funext hup]
    case dropSpill => rw [enterBuffer_drops_unspilled hn hc hen hno, funext hup]
  case crossed =>
    intro s i p a b g hp hloc hdest hfirst
    rw [exec_tmAdmit, tmAdmit_replicates hp hloc hdest hfirst]
  case later =>
    intro s i p hp hlater
    rw [exec_tmAdmit, tmAdmit_waits hp hlater]
    rfl
  case readback =>
    intro s i p n port hp hloc hroom
    rw [exec_spillReadback, spillReadback_room hp hloc hroom]
  case full =>
    intro s i p n port hp hloc hfull
    rw [exec_spillReadback, spillReadback_full hp hloc hfull]
    rfl

end Sys2Proof.Proofs
end

section
/-!
PROOF. O60: rails, droop, temperatures, reference clocks, the control port, and device time's own events. First what each
meaning does in each of its cases; the statement is put together from these.
-/
namespace Sys2Proof.Proofs
open Sys2Proof Sys2Proof.Machine Sys2Proof.Laws

/-! ### Rails (R442-R444) -/

theorem exec_railWarning {r : Fin 15} {mv : Nat} (hmv : mv < 4096) (s : State) :
    exec (.railWarning r mv) s = .next (s.withDev (railWarning r mv s.dev)) := by
  refine congrArg Host.Outcome.next ?_
  rw [onDev_eq_withDev, Nat.mod_eq_of_lt hmv]

theorem exec_railRecovery {r : Fin 15} {mv : Nat} (hmv : mv < 4096) (s : State) :
    exec (.railRecovery r mv) s = .next (s.withDev (railRecovery r mv s.dev)) := by
  refine congrArg Host.Outcome.next ?_
  rw [onDev_eq_withDev, Nat.mod_eq_of_lt hmv]

theorem exec_throttleLift (s : State) : exec .throttleLift s = .next (s.withDev (throttleLift s.dev)) := rfl

section Warning
variable {d e : Dev} {r mv : Nat} {l : List Nat} (hlow : d.railBelow r mv 95 = true)
  (hl : l = if d.power.throttling.contains r then d.power.throttling else d.power.throttling ++ [r])
  (he : e = railLevel r mv (updPower (fun x => { x with throttling := l }) d))
include hlow hl he

/-- A further warning while throttling stands records nothing new. -/
theorem railWarning_again (h : d.flag 0xF800100 31 = true) : railWarning r mv d = e := by
  subst hl he
  simp only [railWarning, hlow, h, Bool.not_true, Bool.false_eq_true, if_false]
  rfl

theorem railWarning_first (h : d.flag 0xF800100 31 = false) : railWarning r mv d =
    sourcePulse 207 (raise 0x10 r 0 0 (count (aRail r + 8) (setFlag (aRail r) 30 true
      (setReg64 0xF800104 e.time (setReg 0xF800100 (word (2 ^ 31 + r)) e))))) := by
  subst hl he
  simp only [railWarning, hlow, h, Bool.not_true, Bool.not_false, Bool.false_eq_true, if_false, if_true]
  rfl

end Warning

/-- A dip below 90 % that has ended leaves the rail at 90 %. -/
theorem railRecovery_dip {d : Dev} {r mv : Nat} (h : d.railBelow r mv 90 = true) : railRecovery r mv d =
    railLevel r ((d.setpoint r * 90 + 99) / 100) (railLevel r mv (setFlag (aRail r) 29 true d)) := by
  simp only [railRecovery, h, if_true]

/-- From the moment a throttling rail is back at 96 %, the time to the lift is reckoned. -/
theorem railRecovery_rose {d : Dev} {r mv : Nat} (h96 : d.railBelow r mv 96 = false)
    (hwas : d.railBelow r (d.railNow r) 96 = true) (hthr : r ∈ d.power.throttling) (h90 : d.railBelow r mv 90 = false) :
    railRecovery r mv d = updPower (fun x => { x with liftFrom := d.time }) (railLevel r mv d) := by
  have hin : d.power.throttling.contains r = true := List.contains_iff_mem.2 hthr
  simp only [railRecovery, h96, hwas, h90, hin, Bool.not_false, Bool.and_self, Bool.false_eq_true, if_false, when_true]

theorem throttleLift_lifts {d : Dev} (hne : d.power.throttling ≠ [])
    (hall : ∀ r ∈ d.power.throttling, d.railBelow r (d.railNow r) 96 = false) :
    throttleLift d = each d.power.throttling (fun r => setFlag (aRail r) 31 false)
      (updPower (fun x => { x with throttling := [] }) (setFlag 0xF800100 31 false
        (timeTo (d.power.liftFrom + 20000) d))) := by
  have hwait : (d.power.throttling.isEmpty || d.power.throttling.any fun r => d.railBelow r (d.railNow r) 96) = false := by
    simpa [hne] using hall
  simp only [throttleLift, hwait, Bool.false_eq_true, if_false]

/-! ### Calibration and temperature (R445-R449) -/

theorem exec_droopExcess (i : Fin 8) (s : State) :
    exec (.droopExcess i) s = .next (s.withDev (droopExcess i s.dev)) := rfl

theorem exec_recalibrationStep (i : Fin 8) (x : Bool) (s : State) :
    exec (.recalibrationStep i x) s = .next (s.withDev (recalStep i x s.dev)) := rfl

theorem droopExcess_first {d : Dev} {i : Nat} (h : d.flag (aCal i) 31 = false) : droopExcess i d =
    sourcePulse 207 (raise 0x11 i 0 0 (updPower (fun x => { x with recal := x.recal ++ [i] })
      (setFld (aCal i) 23 12 (min (d.fld (aCal i) 23 12 + 1) 0xFFF) (setFlag (aCal i) 31 true d)))) := by
  simp only [droopExcess, h, Bool.false_eq_true, if_false]

section Recalibration
variable {d e : Dev} {i : Nat} (hrun : i ∈ d.power.recal) (hmv : d.vset i < 800)
  (he : e = timeTo (d.time + 11000000) (setVset i (d.vset i + 5) d))
include hrun hmv he

/-- Without excess the recalibration has ended. -/
theorem recalStep_ends : recalStep i false d =
    updPower (fun x => { x with recal := x.recal.filter (· != i) }) (setFlag (aCal i) 31 false e) := by
  have hin : d.power.recal.contains i = true := List.contains_iff_mem.2 hrun
  subst he
  simp only [recalStep, hin, Nat.not_le.2 hmv, ge_iff_le, Bool.not_true, Bool.not_false, Bool.false_eq_true, if_false,
    if_true]

/-- With excess it goes on, or stops at the limit of 800 mV. -/
theorem recalStep_goesOn : recalStep i true d = if 800 ≤ e.vset i
    then updPower (fun x => { x with recal := x.recal.filter (· != i) }) (setFlag (aCal i) 30 true e) else e := by
  have hin : d.power.recal.contains i = true := List.contains_iff_mem.2 hrun
  subst he
  simp only [recalStep, hin, Nat.not_le.2 hmv, ge_iff_le, Bool.not_true, Bool.false_eq_true, if_false, when,
    decide_eq_true_eq]

end Recalibration

/-! ### Clocks (R473) -/

theorem exec_clockLoss (c : Clock) (s : State) : exec (.clockLoss c) s = .next (s.withDev (clockLoss c s.dev)) := rfl

theorem exec_clockReturn (c : Clock) (s : State) : exec (.clockReturn c) s = .next (s.withDev (clockReturn c s.dev)) := rfl

theorem clockLoss_cp {d : Dev} (h : d.flag aClk 5 = true) : clockLoss .cp d = clkLost 5 21 d := by
  simp only [clockLoss, h, Bool.not_true, Bool.false_eq_true, if_false]

/-- A host reference that is lost takes the links of its die down. -/
theorem clockLoss_href {d : Dev} {i : Fin 2} (h : d.flag aClk (1 + i) = true) : clockLoss (.href i) d =
    each ((List.range 16).map (· + 16 * i.val)) (fun n d => when (d.dlUp n) (unplannedDown n) d)
      (clkLost (1 + i) (17 + i) d) := by
  simp only [clockLoss, h, Bool.not_true, Bool.false_eq_true, if_false]

/-- A line reference that is lost takes the ports of its die that run down. -/
theorem clockLoss_lref {d : Dev} {i : Fin 2} (h : d.flag aClk (3 + i) = true) : clockLoss (.lref i) d =
    each (d.enabledPorts i) (fun p => portDown p 1) (clkLost (3 + i) (19 + i) d) := by
  simp only [clockLoss, h, Bool.not_true, Bool.false_eq_true, if_false]

theorem clockReturn_lref {d : Dev} {i : Fin 2} (h : d.flag aClk (3 + i) = false) : clockReturn (.lref i) d =
    each (d.enabledPorts i) bringUp (setFlag aClk (3 + i) true d) := by
  simp only [clockReturn, h, Bool.false_eq_true, if_false]

/-! ### Device time (R14, R15) -/

theorem exec_timeSkew (i : Fin 8) (n : Nat) (s : State) :
    exec (.timeSkew i n) s = .next (s.withDev (timeSkew i n s.dev)) := rfl

section Skew
variable {d e g : Dev} {i n : Nat} (hi : i ≠ 4)
  (he : e = skewSync (updPower (fun x => { x with skews := mput x.skews i (n, d.time) }) d))
  (hg : g = setFld 0x10001C 23 16 (max (e.fld 0x10001C 23 16) (min n 255)) e)
include hi he hg

theorem timeSkew_small (hn : n ≤ 8) : timeSkew i n d = g := by
  subst he hg
  simp only [timeSkew, if_neg hi, if_pos hn]

/-- A difference above 1 ns is an error of the die. -/
theorem timeSkew_large (hn : 8 < n) : timeSkew i n d =
    timeSync (raise 0x01 i 0 0 (setFld 0x10001C 10 8 i (setFlag 0x10001C 1 true g))) := by
  subst he hg
  simp only [timeSkew, if_neg hi, if_neg (Nat.not_le.2 hn)]

end Skew

theorem exec_timeRateAdjWrite {s : State} {q : Requester} (h : s.reaches q 0x100018 = true) (ht : trusted q = true)
    (v : Word) : exec (.timeRateAdjWrite q v) s = .next (s.withDev (timeRateWrite v s.dev)) :=
  congrArg Host.Outcome.next (atRegAll_reaches s q 0x100018 _ h ht)

section Rate
variable {v : Word} {x : Int} (hx : x = signed 18 (wbits v 17 0)) (d : Dev)
include hx

/-- TIME_RATE_ADJ takes the value y that x is clamped to, and notes that it was. -/
theorem timeRateWrite_clamped {y : Int} (hy : y = max (-100000) (min 100000 x)) :
    timeRateWrite v d = when (x != y) (setFlag 0x10001C 2 true) (setReg 0x100018 (word ((y % 2 ^ 18).toNat)) d) := by
  subst hx hy
  rfl

theorem timeRateWrite_inside (hl : -100000 ≤ x) (hu : x ≤ 100000) :
    timeRateWrite v d = setReg 0x100018 (word ((x % 2 ^ 18).toNat)) d := by
  rw [timeRateWrite_clamped hx d (y := x) (by omega), bne_self_eq_false, when_false]

theorem timeRateWrite_above (hu : 100000 < x) :
    timeRateWrite v d = setFlag 0x10001C 2 true (setReg 0x100018 (word 100000) d) := by
  have hne : (x != 100000) = true := by simpa using hu.ne'
  rw [timeRateWrite_clamped hx d (y := 100000) (by omega), hne, when_true]
  rfl

theorem timeRateWrite_below (hl : x < -100000) :
    timeRateWrite v d = setFlag 0x10001C 2 true (setReg 0x100018 (word (2 ^ 18 - 100000)) d) := by
  have hne : (x != -100000) = true := by simpa using hl.ne
  rw [timeRateWrite_clamped hx d (y := -100000) (by omega), hne, when_true]
  rfl

end Rate

/-- Settles O60: each clause is its row's meaning in the case that its hypotheses name. -/
theorem railsTemperaturesClocksAndTime : Obligations.RailsTemperaturesClocksAndTime := by
  unfold Obligations.RailsTemperaturesClocksAndTime
  refine ⟨⟨?warning, ?recovery, ?lift, ?droop, ?recalibration, fun _ _ _ => rfl⟩,
    ?always, ?href, ?lref, fun _ _ => rfl, ?lrefReturn, fun _ _ => rfl, ?skew, ?rate⟩
  case warning =>
    intro s r mv l d hmv hlow hl hd
    rw [exec_railWarning hmv]
    exact ⟨fun h => by rw [railWarning_again hlow hl hd h], fun h => by rw [railWarning_first hlow hl hd h]⟩
  case recovery =>
    intro s r mv hmv
    rw [exec_railRecovery hmv]
    exact ⟨fun h => by rw [railRecovery_dip h], fun h96 hwas hthr h90 => by rw [railRecovery_rose h96 hwas hthr h90]⟩
  case lift =>
    rintro s l rfl hne hall
    rw [exec_throttleLift, throttleLift_lifts hne hall]
  case droop =>
    intro s i h
    rw [exec_droopExcess, droopExcess_first h]
  case recalibration =>
    intro s i d stop hrun hmv hd hstop
    simp only [exec_recalibrationStep, recalStep_ends hrun hmv hd, recalStep_goesOn hrun hmv hd, hstop]
    exact ⟨trivial, fun h => by rw [if_neg (Nat.not_le.2 h)], fun h => by rw [if_pos h]⟩
  case always =>
    intro s
    exact ⟨rfl, rfl, fun h => by rw [exec_clockLoss, clockLoss_cp h], rfl, rfl, rfl⟩
  case href => intro s i h; rw [exec_clockLoss, clockLoss_href h]
  case lref => intro s i h; rw [exec_clockLoss, clockLoss_lref h]
  case lrefReturn => intro s i h; rw [exec_clockReturn, clockReturn_lref h]
  case skew =>
    intro s i n e d hi he hd
    rw [exec_timeSkew]
    exact ⟨fun h => by rw [timeSkew_small hi he hd h], fun h => by rw [timeSkew_large hi he hd h]⟩
  case rate =>
    intro s q v x h ht hx
    rw [exec_timeRateAdjWrite h ht]
    exact ⟨fun hl hu => by rw [timeRateWrite_inside hx _ hl hu], fun hu => by rw [timeRateWrite_above hx _ hu],
      fun hl => by rw [timeRateWrite_below hx _ hl]⟩

end Sys2Proof.Proofs
end

section
/-!
PROOF. O12 and O13: slices are created, given quotas, reset and destroyed; meter snapshots, a function's queues and a
slice's vectors. First when a list of checks is clean and what a command that runs makes of the state, then each
command's meaning where its checks pass.
-/
namespace Sys2Proof.Proofs
open Sys2Proof Sys2Proof.Machine Sys2Proof.Laws

/-! ### Lists of checks, and commands that run (R154, R165) -/

@[simp] theorem clean_nil : clean [] = true := rfl

@[simp] theorem clean_cons (x : Option (Nat × Nat)) (l : List (Option (Nat × Nat))) :
    clean (x :: l) = (x.isNone && clean l) := by
  cases x <;> simp [clean]

@[simp] theorem clean_append (l m : List (Option (Nat × Nat))) : clean (l ++ m) = (clean l && clean m) := by
  induction l with
  | nil => simp
  | cons x r ih => simp [ih, Bool.and_assoc]

@[simp] theorem isNone_bad (c : Bool) (off : Nat) : (bad c off).isNone = !c := by
  cases c <;> rfl

/-- A command that runs changes the device by its meaning, on its header and parameters. -/
theorem onDev_command_runs {s : State} {r : Ring} {op : Nat} {p : Read} {e : Exec} {b : List Byte}
    (h : s.runs r op p = some (e, b)) (f : Exec → List Byte → Dev → Dev) :
    (s.onDev fun _ d => command r op p f d) = s.withDev (f e b s.dev) := by
  rw [onDev_eq_withDev, command_runs s r op p f e b h]

section Commands
variable {s : State} {r : Ring} {p : Read} {e : Exec} {b : List Byte}

theorem exec_sliceCreate (h : s.runs r 0x0101 p = some (e, b)) :
    exec (.sliceCreate r p) s = .next (s.withDev (sliceCreate r e b s.dev)) :=
  congrArg Host.Outcome.next (onDev_command_runs h _)

theorem exec_sliceQuotaSet (h : s.runs r 0x0102 p = some (e, b)) :
    exec (.sliceQuotaSet r p) s = .next (s.withDev (sliceQuotaSet r e b s.dev)) :=
  congrArg Host.Outcome.next (onDev_command_runs h _)

theorem exec_sliceReset (h : s.runs r 0x0103 p = some (e, b)) :
    exec (.sliceReset r p) s = .next (s.withDev (sliceReset r e s.dev)) :=
  congrArg Host.Outcome.next (onDev_command_runs h _)

theorem exec_sliceDestroy (h : s.runs r 0x0104 p = some (e, b)) :
    exec (.sliceDestroy r p) s = .next (s.withDev (sliceDestroy r e s.dev)) :=
  congrArg Host.Outcome.next (onDev_command_runs h _)

/-- METER_SNAPSHOT with a bank that exists waits for its apply point. -/
theorem exec_meterSnapshot (h : s.runs r 0x0110 p = some (e, b)) (hbank : byteAt b 0 ≤ 1) :
    exec (.meterSnapshot r p) s =
      .next (s.withDev (stage (.snapshot (bit (byteAt b 0) 0) r) [] (begin' r s.dev))) := by
  refine congrArg Host.Outcome.next ((onDev_command_runs h _).trans ?_)
  rw [checks_clean]
  simpa using hbank

theorem exec_functionQueuesSet (h : s.runs r 0x0120 p = some (e, b)) :
    exec (.functionQueuesSet r p) s = .next (s.withDev (functionQueuesSet r b s.dev)) :=
  congrArg Host.Outcome.next (onDev_command_runs h _)

theorem exec_sliceVectors {f : Fin 32} (h : s.runs (.function f) 0x0208 p = some (e, b)) :
    exec (.sliceVectors (.function f) p) s = .next (s.withDev (sliceVectors (.function f) f b s.dev)) :=
  congrArg Host.Outcome.next (onDev_command_runs h _)

end Commands

theorem exec_sliceResetDone (k : Fin 4096) (s : State) :
    exec (.sliceResetDone k) s = .next (s.withDev (sliceResetDone k s.dev)) := rfl

theorem exec_sliceDestroyDone (k : Fin 4096) (s : State) :
    exec (.sliceDestroyDone k) s = .next (s.withDev (sliceDestroyDone k s.dev)) := rfl

theorem exec_snapshotBankWrite (s : State) :
    exec .snapshotBankWrite s = .next (s.withDev (snapshotBankWrite s.dev)) := rfl

/-! ### Creation and quotas (R43, R46, R47) -/

/-- The numbers that SLICE_CREATE leaves to the adapter are picked; then the slice is made. -/
theorem sliceCreate_makes {r : Ring} {e : Exec} {b : List Byte} {d d1 d2 : Dev} {n i : Nat}
    (hb : clean (sliceFaults none b d) = true) (hrange : e.slice < 4096 ∨ e.slice = 0xFFFF)
    (hnew : d.slice e.slice = none) (hlidx : le b 2 2 ≠ 0xFFFF → d.lidxUsed (byteAt b 0) (le b 2 2) = false)
    (hpasid : ∀ y ∈ d.slices, ¬(y.2.fn = byteAt b 0 ∧ y.2.pasid = le b 4 4))
    (hn : (if e.slice = 0xFFFF then pickFree 4096 (fun k => (d.slice k).isSome) d else (some e.slice, d)) = (some n, d1))
    (hi : (if le b 2 2 = 0xFFFF then pickFree 512 (d.lidxUsed (byteAt b 0)) d1 else (some (le b 2 2), d1)) =
      (some i, d2)) :
    sliceCreate r e b d = sliceMake r n i b d2 := by
  have hslice : (decide (e.slice ≥ 4096) && e.slice != 0xFFFF) = false := by
    rcases hrange with h | h <;> simp [h]
  have hfree : (le b 2 2 != 0xFFFF && d.lidxUsed (byteAt b 0) (le b 2 2)) = false := by
    simpa using hlidx
  have hother : (d.slices.any fun x => x.2.fn == byteAt b 0 && x.2.pasid == le b 4 4) = false := by
    simpa using hpasid
  simp only [sliceCreate]
  rw [checks_clean _ _ _ _ (by simp [hb, hslice, hnew, hfree, hother])]
  simp only [hn, hi]

/-- With room in every pool the slice takes its blocks and its wake slots, over what its number held before. -/
theorem sliceMake_takes {r : Ring} {n i : Nat} {b : List Byte} {d d' : Dev} {x : Slice}
    (hx : x = { state := .active, fn := byteAt b 0, pasid := le b 4 4, lidx := i, weight := byteAt b 1 })
    (hroom : clean (poolFaults n x (quotasOf b) d) = true)
    (hd : d' = each ((d.wakeFree (byteAt b 0)).take (byteAt b 20)) (wakeHand (byteAt b 0) i)
      { d with slices := mput d.slices n (applyQuotas n (quotasOf b) d x),
               owners := mdel d.owners (ownerKey (.slice (fin 4096 n))),
               rings := mdel d.rings (ringKey (.slice (fin 4096 n))) }) :
    sliceMake r n i b d = reply r stOk 0 (sliceWords n d') d' := by
  subst hx hd
  unfold sliceMake
  exact checks_clean _ _ _ _ hroom

theorem sliceQuotaSet_applies {r : Ring} {e : Exec} {b : List Byte} {d : Dev} {x : Slice}
    (hx : d.slice e.slice = some x) (hb : clean (sliceFaults (some x) b d) = true)
    (hlow : clean (lowerFaults e.slice x (quotasOf b) d) = true)
    (hroom : clean (poolFaults e.slice x (quotasOf b) d) = true) :
    sliceQuotaSet r e b d = reply r stOk 0 (sliceWords e.slice (quotaApply e.slice x (quotasOf b) d))
      (quotaApply e.slice x (quotasOf b) d) := by
  simp only [sliceQuotaSet, hx]
  rw [checks_clean _ _ _ _ (by simp [hb, hlow, hroom])]

/-! ### Slice Reset (R51, R52) -/

theorem sliceReset_begins {r : Ring} {e : Exec} {d : Dev} {x : Slice} (hx : d.slice e.slice = some x)
    (hst : x.state ≠ .resetting) : sliceReset r e d = resetBegin r e.slice x d := by
  simp only [sliceReset, hx, if_neg hst]

/-- A second reset joins the first. -/
theorem sliceReset_joins {r : Ring} {e : Exec} {d : Dev} {x : Slice} (hx : d.slice e.slice = some x)
    (hst : x.state = .resetting) : sliceReset r e d =
      begin' r (updSlice e.slice (fun y => { y with resetWaits := y.resetWaits ++ [r] }) d) := by
  simp only [sliceReset, hx, if_pos hst]

theorem sliceResetDone_ends {k : Nat} {d : Dev} {x : Slice} (hx : d.slice k = some x) (hst : x.state = .resetting)
    (hidle : d.sliceBusy k x = false) : sliceResetDone k d = resetEnd k x d := by
  simp [sliceResetDone, hx, hst, hidle]

/-- The end of a reset that no destroy froze resets the slice's side of its mailbox pair alone. -/
theorem resetEnd_resetting {k : Nat} {d : Dev} {x : Slice} (hst : x.state = .resetting) :
    resetEnd k x d = each x.resetWaits (fun r => reply r stOk 0 [])
      (updSlice k (fun y => { y with
          state := if y.state = .closing then .closing else if y.fromLost && !y.resumed then .hostLost else .active
          fromLost := false, resumed := false, resetWaits := [] })
        (sideReset ⟨.slice (fin 4096 k), false⟩ (sliceTeardown k x d))) := by
  have hopen : (x.state == .closing) = false := by rw [hst]; rfl
  simp only [resetEnd, hopen, Bool.false_eq_true, if_false, when_false]

/-! ### Slice Destroy (R53) -/

theorem sliceDestroy_stages {r : Ring} {e : Exec} {d : Dev} {x : Slice} (hx : d.slice e.slice = some x) :
    sliceDestroy r e d = stage (.freeze e.slice) []
      (begin' r (updSlice e.slice (fun y => { y with destroyer := some r }) d)) := by
  simp only [sliceDestroy, hx]

theorem sliceDestroyDone_ends {k : Nat} {d : Dev} {x : Slice} (hx : d.slice k = some x) (hst : x.state = .closing)
    (htear : x.tearing = true) (hwaits : x.resetWaits = []) (hidle : d.sliceBusy k x = false) :
    sliceDestroyDone k d = forgetRing (.slice (fin 4096 k)) (destroyReply k
      (pairReset (.slice (fin 4096 k)) (sliceTeardown k x d))) := by
  simp [sliceDestroyDone, hx, hst, htear, hwaits, hidle]

/-- Settles O12: each command acts as its lemma above says, where its checks pass or its slice's state allows. -/
theorem slicesAreCreatedResetAndDestroyed : Obligations.SlicesAreCreatedResetAndDestroyed := by
  unfold Obligations.SlicesAreCreatedResetAndDestroyed
  refine ⟨⟨?create, ?quota⟩, ⟨?reset, ?join, ?resetDone⟩, ?destroy, ?destroyDone⟩
  case create =>
    intro s p e b n i d1 d2 x h hb hrange hnew hlidx hpasid hn hi hx hroom
    refine ⟨_, rfl, ?_⟩
    rw [exec_sliceCreate h, sliceCreate_makes hb hrange hnew hlidx hpasid hn hi, sliceMake_takes hx hroom rfl]
  case quota =>
    intro s p e b x h hx hb hlow hroom
    rw [exec_sliceQuotaSet h, sliceQuotaSet_applies hx hb hlow hroom]
  case reset =>
    intro s r p e b x h hx hst
    rw [exec_sliceReset h, sliceReset_begins hx hst, resetBegin]
  case join =>
    intro s r p e b x h hx hst
    rw [exec_sliceReset h, sliceReset_joins hx hst]
  case resetDone =>
    intro s k x hx hst hidle
    rw [exec_sliceResetDone, sliceResetDone_ends hx hst hidle, resetEnd_resetting hst]
  case destroy =>
    intro s p e b x h hx
    rw [exec_sliceDestroy h, sliceDestroy_stages hx]
  case destroyDone =>
    intro s k x hx hst htear hwaits hidle
    rw [exec_sliceDestroyDone, sliceDestroyDone_ends hx hst htear hwaits hidle]

/-! ### Meter snapshots (R54, R57, R58) -/

/-- The bank is written, then the slices whose time has come are freed, then the command replies. -/
theorem snapshotBankWrite_writes {d : Dev} {bank : Bool} {a : Nat} {r : Ring} {m : Map Slice} {gone : List Nat}
    (hsnap : d.snap = some (bank, a, r, m)) (hgone : gone = (m.filter fun e => e.2.frees a).map (·.1)) :
    snapshotBankWrite d =
      reply r stOk 0 [lo32 a, hi32 a, lo32 (bankBase bank), hi32 (bankBase bank), gone.length]
        (each gone freeSlice (writeBank bank a m { d with snap := none, snapSeq := d.snapSeq + 1 })) := by
  simp only [snapshotBankWrite, hsnap, hgone]

/-! ### A function's queues (R110) -/

theorem functionQueuesSet_fits {r : Ring} {b : List Byte} {d : Dev} {base : Nat} (hf : byteAt b 0 < 32)
    (hex : d.fnExists (byteAt b 0) = true) (hw : byteAt b 1 ≠ 0) (hmax : le b 2 2 ≤ 4096)
    (hused : topOf (d.queuesOf (.function (fin 32 (byteAt b 0)))) ≤ le b 2 2)
    (hfit : resize 1048576 (d.queueBlocks none (some (byteAt b 0))) (d.fn (byteAt b 0)).qBase (d.fn (byteAt b 0)).qLen
      (le b 2 2) = some base) :
    functionQueuesSet r b d = reply r stOk 0 [0, base]
      (updFn (byteAt b 0) (fun x => { x with weight := byteAt b 1, qBase := base, qLen := le b 2 2 }) d) := by
  simp only [functionQueuesSet]
  rw [checks_clean _ _ _ _ (by simp [hf, hex, hw, hmax, hused])]
  simp only [hfit]

/-! ### A slice's vectors (R133) -/

/-- Vectors within the function's 2,048 that meet no other slice's are given to the slice. -/
theorem sliceVectors_gives {r : Ring} {f k : Nat} {b : List Byte} {d : Dev} {x : Slice}
    (hx : d.sliceAt f (le b 0 2) = some (k, x)) (hst : x.state ≠ .closing) (hzero : zeroAt b 6 2 = true)
    (hcount : le b 4 2 ≤ 2048) (hend : le b 2 2 + le b 4 2 ≤ 2048)
    (hapart : ∀ i < 512, ∀ t y, d.sliceAt f i = some (t, y) → t ≠ k → le b 4 2 ≠ 0 → y.vecCount ≠ 0 →
      ¬(le b 2 2 < y.vecBase + y.vecCount ∧ y.vecBase < le b 2 2 + le b 4 2)) :
    sliceVectors r f b d = reply r stOk 0 []
      (updSlice k (fun x => { x with vecBase := le b 2 2, vecCount := le b 4 2 }) d) := by
  have hrange : (decide (le b 4 2 > 2048) || decide (le b 2 2 + le b 4 2 > 2048)) = false := by
    simp [hcount, hend]
  simp only [sliceVectors, hx, if_neg hst, hzero, hrange, Bool.not_true, Bool.false_eq_true, if_false]
  rw [List.find?_eq_none.2 ?apart]
  case apart =>
    intro i hi
    split
    next t y hy =>
      have hmeet := hapart i (List.mem_range.1 hi) t y hy
      simp only [Bool.and_eq_true, bne_iff_ne, decide_eq_true_eq]
      rintro ⟨⟨⟨⟨hother, hn⟩, hv⟩, hlo⟩, hhi⟩
      exact hmeet hother hn hv ⟨hlo, hhi⟩
    next => exact Bool.false_ne_true

/-- Settles O13: each command acts as its lemma above says, where its checks pass. -/
theorem snapshotsAndFunctionShares : Obligations.SnapshotsAndFunctionShares := by
  unfold Obligations.SnapshotsAndFunctionShares
  refine ⟨⟨?snapshot, ?bank⟩, ?queues, ?vectors⟩
  case snapshot =>
    intro s p e b h hbank
    rw [exec_meterSnapshot h hbank]
  case bank =>
    intro s bank a r m gone hsnap hgone
    rw [exec_snapshotBankWrite, snapshotBankWrite_writes hsnap hgone, writeBank]
  case queues =>
    intro s p e b base h hf hex hw hmax hused hfit
    rw [exec_functionQueuesSet h, functionQueuesSet_fits hf hex hw hmax hused hfit]
  case vectors =>
    intro s f p e b k x h hx hst hzero hcount hend hapart
    rw [exec_sliceVectors h, sliceVectors_gives hx hst hzero hcount hend hapart]

end Sys2Proof.Proofs
end

section
/-!
PROOF. O41 and O43: host links train, narrow and widen, enter L1, and meet the faults of their partners. First what each
meaning does in each of its cases; the statements are put together from these.
-/
namespace Sys2Proof.Proofs
open Sys2Proof Sys2Proof.Machine Sys2Proof.Laws

/-! ### A change whose condition is known

Rewriting by these, rather than computing, keeps the large terms on both sides closed. -/

theorem when_pos {c : Bool} (h : c = true) (f : Dev → Dev) (d : Dev) : when c f d = f d := by
  rw [h, when_true]

theorem when_neg {c : Bool} (h : c = false) (f : Dev → Dev) (d : Dev) : when c f d = d := by
  rw [h, when_false]

/-! ### The best speed (R61) -/

theorem bestSpeed_succ_excluded {ex : List Nat} {k : Nat} (h : k + 1 ∈ ex) (hk : 0 < k) :
    bestSpeed ex (k + 1) = bestSpeed ex k := by
  simp [bestSpeed, h, hk]

/-- A bound that equalization has not excluded is the best speed itself; so is speed 1, excluded or not. -/
theorem bestSpeed_succ_open {ex : List Nat} {k : Nat} (h : k + 1 ∈ ex → k = 0) : bestSpeed ex (k + 1) = k + 1 := by
  refine if_neg fun hc => ?_
  simp only [Bool.and_eq_true, List.contains_iff_mem, decide_eq_true_eq] at hc
  exact hc.2.ne' (h hc.1)

/-- Either case of the recursion, with what it knows. -/
theorem bestSpeed_succ_cases (ex : List Nat) (k : Nat) :
    (k + 1 ∈ ex ∧ bestSpeed ex (k + 1) = bestSpeed ex k ∧ 0 < k) ∨
    ((k + 1 ∈ ex → k = 0) ∧ bestSpeed ex (k + 1) = k + 1) := by
  by_cases h : k + 1 ∈ ex ∧ 0 < k
  · exact .inl ⟨h.1, bestSpeed_succ_excluded h.1 h.2, h.2⟩
  · have hopen : k + 1 ∈ ex → k = 0 := fun hm => Nat.eq_zero_of_not_pos fun hk => h ⟨hm, hk⟩
    exact .inr ⟨hopen, bestSpeed_succ_open hopen⟩

theorem bestSpeed_le (ex : List Nat) (n : Nat) : bestSpeed ex n ≤ max n 1 := by
  induction n with
  | zero => exact le_rfl
  | succ k ih => obtain ⟨-, h, -⟩ | ⟨-, h⟩ := bestSpeed_succ_cases ex k <;> omega

theorem bestSpeed_not_mem {ex : List Nat} {n : Nat} (h2 : 2 ≤ bestSpeed ex n) : bestSpeed ex n ∉ ex := by
  induction n with
  | zero => simp [bestSpeed] at h2
  | succ k ih =>
    obtain ⟨-, h, -⟩ | ⟨hopen, h⟩ := bestSpeed_succ_cases ex k
    · rw [h] at h2 ⊢
      exact ih h2
    · rw [h] at h2 ⊢
      exact fun hm => absurd (hopen hm) (by omega)

/-- Every faster speed up to the bound is excluded. -/
theorem mem_of_bestSpeed_lt {ex : List Nat} {n m : Nat} (hlt : bestSpeed ex n < m) (hle : m ≤ n) : m ∈ ex := by
  induction n with
  | zero => omega
  | succ k ih =>
    obtain ⟨hm, h, -⟩ | ⟨-, h⟩ := bestSpeed_succ_cases ex k
    · obtain rfl | hk := Nat.eq_or_lt_of_le hle
      · exact hm
      · exact ih (h ▸ hlt) (by omega)
    · omega

/-! ### Training (R61, R69) -/

theorem exec_linkTrainingDone {ps pw : Nat} (hps : ps ≤ 6) (hpw : pw ≤ 5) (n : Fin 32) (lanes : Nat) (flit : Bool)
    (s : State) : exec (.linkTrainingDone n ps pw lanes flit) s =
      .next (s.withDev (trainingDone n ps pw lanes flit s.dev)) := by
  refine congrArg Host.Outcome.next ?_
  rw [onDev_eq_withDev, Nat.min_eq_left hps, Nat.min_eq_left hpw]

section Training
variable {d e : Dev} {n ps pw lanes w both sp : Nat} {flit : Bool} (hsecond : d.secondOf n = false)
  (hmay : d.mayTrain n = true) (hdown : d.dlUp n = false) (hps : 0 < ps)
  (hw : w = min (min pw (widthOf lanes)) (d.widthLimit n)) (hpos : 0 < w) (hboth : both = min ps (d.fld (aHl n) 15 12))
  (hsp : sp = bestSpeed (d.link n).excluded both)
  (he : e = setFlag (aLinkStat n) 12 (sp == 6 || flit) (setFld (aLinkStat n) 15 13 w (setFld (aLinkStat n) 19 16 sp
    (setHlState n 4 (timeTo 30000000 d)))))
include hsecond hmay hdown hps hw hpos hboth hsp he

/-- Training ends in L0, with DEGRADED as `deg` says. -/
theorem trainingDone_trains {deg : Bool} (hdeg : deg = (decide (sp < both) || decide (w < min pw (d.widthLimit n)))) :
    trainingDone n ps pw lanes flit d = wakeInL0 n (updLink n (fun x => { x with fullWidth := w })
      (when deg (hlCount n 0x24) (setFlag (aLinkStat n) 8 deg e))) := by
  have hgo : (d.secondOf n || !d.mayTrain n || (d.dlUp n && d.hlState n != 3)) = false := by
    rw [hsecond, hmay, hdown]; rfl
  subst hdeg he hsp hboth hw
  simp only [trainingDone, hgo, hpos.ne', hps.ne', Bool.false_eq_true, decide_false, Bool.or_self, if_false]

theorem trainingDone_full (hs : sp = both) (hf : w = min pw (d.widthLimit n)) :
    trainingDone n ps pw lanes flit d = wakeInL0 n (updLink n (fun x => { x with fullWidth := w })
      (setFlag (aLinkStat n) 8 false e)) := by
  rw [trainingDone_trains hsecond hmay hdown hps hw hpos hboth hsp he (deg := false) (by simp [hs, ← hf]), when_false]

theorem trainingDone_degraded (h : sp < both ∨ w < min pw (d.widthLimit n)) :
    trainingDone n ps pw lanes flit d = wakeInL0 n (updLink n (fun x => { x with fullWidth := w })
      (hlCount n 0x24 (setFlag (aLinkStat n) 8 true e))) := by
  rw [trainingDone_trains hsecond hmay hdown hps hw hpos hboth hsp he (deg := true)
    (by simpa using h), when_true]

end Training

/-! ### Equalization (R61) -/

theorem exec_equalizationFail (n : Fin 32) (sp : Nat) (s : State) :
    exec (.equalizationFail n sp) s = .next (s.withDev (equalizationFail n sp s.dev)) := rfl

section Equalization
variable {d : Dev} {n sp k : Nat} (hsecond : d.secondOf n = false) (hk : k = mget 0 (d.link n).eqFails sp + 1)
include hsecond hk

theorem equalizationFail_counts (h : k < 3) : equalizationFail n sp d =
    updLink n (fun y => { y with eqFails := mset 0 (d.link n).eqFails sp k }) d := by
  subst hk
  simp only [equalizationFail, hsecond, Bool.false_eq_true, if_false]
  exact updLink_congr _ _ _ _ (by simp [Nat.not_le.2 h])

theorem equalizationFail_excludes (h : 3 ≤ k) (hnew : sp ∉ (d.link n).excluded) : equalizationFail n sp d =
    updLink n (fun y => { y with eqFails := mdel (d.link n).eqFails sp
                                 excluded := (d.link n).excluded ++ [sp] }) d := by
  subst hk
  simp only [equalizationFail, hsecond, Bool.false_eq_true, if_false]
  exact updLink_congr _ _ _ _ (by simp [h, hnew, mset])

end Equalization

/-- Settles O41: training and equalization end as the lemmas above say, at the best speed not excluded. -/
theorem linksTrain : Obligations.LinksTrain := by
  unfold Obligations.LinksTrain
  refine ⟨?training, fun _ _ => ⟨bestSpeed_le _ _, bestSpeed_not_mem, fun _ => mem_of_bestSpeed_lt⟩, ?equalization⟩
  case training =>
    intro s n ps pw lanes flit w both sp d hsecond hmay hdown hps hps6 hpw5 hw hpos hboth hsp hd
    rw [exec_linkTrainingDone hps6 hpw5]
    exact ⟨fun hs hf => by rw [trainingDone_full hsecond hmay hdown hps hw hpos hboth hsp hd hs hf],
      fun h => by rw [trainingDone_degraded hsecond hmay hdown hps hw hpos hboth hsp hd h]⟩
  case equalization =>
    rintro s n sp k x hsecond hk rfl
    rw [exec_equalizationFail]
    exact ⟨fun h => by rw [equalizationFail_counts hsecond hk h],
      fun h hnew => by rw [equalizationFail_excludes hsecond hk h hnew]⟩

/-! ### Widths in L0p (R66, R67) -/

theorem exec_l0pNarrow (n : Fin 32) (s : State) : exec (.l0pNarrow n) s = .next (s.withDev (l0pNarrow n s.dev)) := rfl

theorem exec_l0pWidenRequest (n : Fin 32) (granted : Bool) (s : State) :
    exec (.l0pWidenRequest n granted) s = .next (s.withDev (l0pWiden n granted s.dev)) := rfl

theorem exec_partnerL0pRequest (n : Fin 32) (w : Nat) (s : State) :
    exec (.partnerL0pRequest n w) s = .next (s.withDev (partnerL0p n w s.dev)) := rfl

/-- The code of the narrowest width that MIN_WIDTH allows (R66). -/
def leastWidth (n : Nat) (d : Dev) : Nat := min (d.fld (aHl n + 8) 9 8) 2 + 1

theorem l0pNarrow_steps {n : Nat} {d : Dev} (hl0 : d.inL0 n = true) (hflit : d.flag (aLinkStat n) 12 = true)
    (hen : d.flag (aHl n + 8) 16 = true) (hwide : leastWidth n d < d.fld (aLinkStat n) 15 13) :
    l0pNarrow n d = setWidth n (d.fld (aLinkStat n) 15 13 - 1) d := by
  refine if_pos ?_
  rw [hl0, hflit, hen]
  exact decide_eq_true hwide

theorem l0pNarrow_least {n : Nat} {d : Dev} (h : d.fld (aLinkStat n) 15 13 ≤ leastWidth n d) : l0pNarrow n d = d := by
  refine if_neg fun hc => ?_
  exact Nat.not_lt.2 h (of_decide_eq_true (Bool.and_eq_true_iff.1 hc).2)

section Widen
variable {n : Nat} {d e : Dev} (hl0 : d.inL0 n = true) (hst : d.hlState n = 5)
include hl0 hst

/-- Full width is requested in `e`: at once, or 10 µs after it was last asked for. -/
theorem l0pWiden_requests (he : ((d.link n).widenAt = none ∧ e = d) ∨
    ∃ t, (d.link n).widenAt = some t ∧ e = timeTo (t + 10000) d) (granted : Bool) :
    l0pWiden n granted d = when granted (setWidth n (e.link n).fullWidth)
      (updLink n (fun x => { x with widenAt := if granted then none else some e.time }) (emit (.link n 2) e)) := by
  have hgo : (!d.inL0 n || d.hlState n != 5) = false := by rw [hl0, hst]; rfl
  obtain ⟨h, rfl⟩ | ⟨t, h, rfl⟩ := he <;> simp only [l0pWiden, hgo, h, Bool.false_eq_true, if_false]

theorem l0pWiden_first (hnew : (d.link n).widenAt = none) (granted : Bool) :
    l0pWiden n granted d = when granted (setWidth n (d.link n).fullWidth)
      (updLink n (fun x => { x with widenAt := if granted then none else some d.time }) (emit (.link n 2) d)) :=
  l0pWiden_requests hl0 hst (.inl ⟨hnew, rfl⟩) granted

theorem l0pWiden_again {t : Nat} (hold : (d.link n).widenAt = some t) :
    l0pWiden n false d = updLink n (fun x => { x with widenAt := some (timeTo (t + 10000) d).time })
      (emit (.link n 2) (timeTo (t + 10000) d)) :=
  l0pWiden_requests hl0 hst (.inr ⟨t, hold, rfl⟩) false

end Widen

/-- Every request of the partner within the trained width is accepted (R67). -/
theorem partnerL0p_accepts {n w : Nat} {d : Dev} (hl0 : d.inL0 n = true) (hflit : d.flag (aLinkStat n) 12 = true)
    (hw : 0 < w) (hle : w ≤ (d.link n).fullWidth) : partnerL0p n w d =
      when (w == (d.link n).fullWidth) (updLink n fun x => { x with widenAt := none })
        (when (w != d.fld (aLinkStat n) 15 13) (setWidth n w) (emit (.link n 3) d)) := by
  refine if_neg ?_
  simp [hl0, hflit, hw.ne', hle]

/-! ### L1 (R68) -/

theorem exec_l1Entry {n : Fin 32} {s : State} (hl0 : s.dev.inL0 n = true) (haspm : (s.dev.fn n).aspm = true)
    (hidle : s.dev.pendingTlp n = false) :
    exec (.l1Entry n) s = .next (s.withDev (setHlState n 6 (emit (.link n 4) s.dev))) := by
  refine congrArg Host.Outcome.next ?_
  rw [onDev_eq_withDev, hl0, haspm, hidle]
  rfl

theorem exec_l1Exit {n : Fin 32} {s : State} (hst : s.dev.hlState n = 6) : exec (.l1Exit n) s = .next (s.withDev
    (setHlState n (if s.dev.fld (aLinkStat n) 15 13 = (s.dev.link n).fullWidth then 4 else 5) s.dev)) := by
  refine congrArg Host.Outcome.next ?_
  rw [onDev_eq_withDev, if_pos hst]

/-! ### What partners do wrong (R63, R79) -/

/-- The faults of the partner of link n. -/
def partnerFaults (n : Fin 32) : List Instr :=
  [.flitError n true, .flitError n false, .badDllp n, .replayRollover n, .receiverOverflow n]

/-- What a fault does on a link that is up. -/
def faultOn (n : Nat) (d : Dev) : Instr → Dev
  | .flitError _ true => hlCount n 0x2C d
  | .flitError _ false =>
    aerCor n (if d.flag (aLinkStat n) 12 then 0 else 6) (emit (.link n 0) (hlCount n 0x30 d))
  | .badDllp _ => aerCor n 7 (hlCount n 0x3C d)
  | .replayRollover _ => setHlState n 3 (emit (.link n 1) (aerCor n 8 (hlCount n 0x34 d)))
  | .receiverOverflow _ => aerUnc n erOverflow false (hlCount n 0x38 d)
  | _ => d

theorem exec_partnerFault {n : Fin 32} {c : Instr} (hc : c ∈ partnerFaults n) (s : State) :
    exec c s = .next (s.withDev (if s.dev.dlUp n then faultOn n s.dev c else s.dev)) := by
  simp only [partnerFaults, List.mem_cons, List.not_mem_nil, or_false] at hc
  have hflit (corrected : Bool) : exec (.flitError n corrected) s =
      .next (s.withDev (if s.dev.dlUp n then faultOn n s.dev (.flitError n corrected) else s.dev)) := by
    refine congrArg Host.Outcome.next ?_
    rw [onDev_eq_withDev]
    by_cases hup : s.dev.dlUp n = true
    · rw [if_pos hup, if_neg (by simp [hup])]
      cases corrected
      · rw [if_neg (by decide)]; rfl
      · rw [if_pos rfl]; rfl
    · rw [if_neg hup, if_pos (by simpa using hup)]
  rcases hc with rfl | rfl | rfl | rfl | rfl
  · exact hflit true
  · exact hflit false
  · rfl
  · rfl
  · rfl

theorem exec_partnerFault_up {n : Fin 32} {c : Instr} (hc : c ∈ partnerFaults n) {s : State}
    (h : s.dev.dlUp n = true) : exec c s = .next (s.withDev (faultOn n s.dev c)) := by
  rw [exec_partnerFault hc, if_pos h]

theorem exec_partnerFault_down {n : Fin 32} {c : Instr} (hc : c ∈ partnerFaults n) {s : State}
    (h : s.dev.dlUp n = false) : exec c s = .next s := by
  rw [exec_partnerFault hc, if_neg (by simp [h])]
  rfl

/-- From `d` to `d'`, no link's own record changes, and of functions' records and registers only those of link n. -/
structure StaysOnLink (n : Nat) (d d' : Dev) : Prop where
  link : ∀ m, d'.link m = d.link m
  fn : ∀ m, m ≠ n → d'.fn m = d.fn m
  reg : ∀ k, k < aHl n ∨ aHl n + 0x10000 ≤ k → d'.reg k = d.reg k

section Stays
variable {n : Nat} {d d' d'' : Dev}

theorem StaysOnLink.refl (n : Nat) (d : Dev) : StaysOnLink n d d := ⟨fun _ => rfl, fun _ _ => rfl, fun _ _ => rfl⟩

theorem StaysOnLink.trans (h : StaysOnLink n d d') (h' : StaysOnLink n d' d'') : StaysOnLink n d d'' :=
  ⟨fun m => (h'.link m).trans (h.link m), fun m hm => (h'.fn m hm).trans (h.fn m hm),
    fun k hk => (h'.reg k hk).trans (h.reg k hk)⟩

theorem staysOnLink_emit (n : Nat) (o : Output) (d : Dev) : StaysOnLink n d (emit o d) :=
  ⟨fun _ => rfl, fun _ _ => rfl, fun _ _ => rfl⟩

theorem staysOnLink_when {f : Dev → Dev} (c : Bool) (hf : ∀ d, StaysOnLink n d (f d)) (d : Dev) :
    StaysOnLink n d (when c f d) := by
  cases c
  · exact .refl n d
  · exact hf d

theorem staysOnLink_updFn (n : Nat) (g : Fn → Fn) (d : Dev) : StaysOnLink n d (updFn n g d) :=
  ⟨fun _ => rfl, fun m hm => by rw [fn_updFn, if_neg hm], fun _ _ => rfl⟩

theorem staysOnLink_drawWord (n : Nat) (d : Dev) : StaysOnLink n d (drawWord d).2 :=
  ⟨fun _ => rfl, fun _ _ => rfl, fun _ _ => rfl⟩

theorem staysOnLink_setReg (n off : Nat) (hoff : off < 0x10000) (v : Word) (d : Dev) :
    StaysOnLink n d (setReg (aHl n + off) v d) :=
  ⟨fun m => link_setReg _ _ m d, fun m _ => fn_setReg _ _ m d, fun k hk => by rw [reg_setReg, if_neg (by omega)]⟩

theorem staysOnLink_hlCount (n off : Nat) (hoff : off < 0x10000) (d : Dev) : StaysOnLink n d (hlCount n off d) :=
  staysOnLink_setReg n off hoff _ d

theorem staysOnLink_setHlState (n st : Nat) (d : Dev) : StaysOnLink n d (setHlState n st d) :=
  staysOnLink_setReg n 4 (by decide) _ d

theorem staysOnLink_aerCor (n b : Nat) (d : Dev) : StaysOnLink n d (aerCor n b d) :=
  (staysOnLink_updFn n _ d).trans (staysOnLink_when _ (staysOnLink_emit n _) _)

theorem staysOnLink_aerHeader (n b : Nat) (d : Dev) : StaysOnLink n d (aerHeader n b d) := by
  have hdraw := (staysOnLink_drawWord n d).trans ((staysOnLink_drawWord n _).trans
    ((staysOnLink_drawWord n _).trans (staysOnLink_drawWord n _)))
  unfold aerHeader
  simp only
  split
  · exact .refl n d
  · split
    · exact hdraw.trans (staysOnLink_updFn n _ _)
    · exact staysOnLink_updFn n _ d

theorem staysOnLink_aerUnc (n b : Nat) (adv : Bool) (d : Dev) : StaysOnLink n d (aerUnc n b adv d) := by
  have hlog := (staysOnLink_aerHeader n b d).trans
    (staysOnLink_updFn n (fun x => { x with uncStatus := x.uncStatus ||| word (2 ^ b) }) _)
  unfold aerUnc
  simp only
  split
  · exact hlog.trans ((staysOnLink_updFn n _ _).trans (staysOnLink_when _ (staysOnLink_emit n _) _))
  · exact hlog.trans (staysOnLink_when _ (staysOnLink_emit n _) _)

end Stays

theorem staysOnLink_faultOn {n : Fin 32} {c : Instr} (hc : c ∈ partnerFaults n) (d : Dev) :
    StaysOnLink n d (faultOn n d c) := by
  have hcount (off : Nat) (hoff : off < 0x10000) := staysOnLink_hlCount n off hoff d
  simp only [partnerFaults, List.mem_cons, List.not_mem_nil, or_false] at hc
  rcases hc with rfl | rfl | rfl | rfl | rfl
  · exact hcount 0x2C (by decide)
  · exact (hcount 0x30 (by decide)).trans ((staysOnLink_emit _ _ _).trans (staysOnLink_aerCor _ _ _))
  · exact (hcount 0x3C (by decide)).trans (staysOnLink_aerCor _ _ _)
  · exact (hcount 0x34 (by decide)).trans ((staysOnLink_aerCor _ _ _).trans
      ((staysOnLink_emit _ _ _).trans (staysOnLink_setHlState _ _ _)))
  · exact (hcount 0x38 (by decide)).trans (staysOnLink_aerUnc n erOverflow false _)

theorem exec_partnerFault_staysOnLink {n : Fin 32} {c : Instr} (hc : c ∈ partnerFaults n) {s t : State}
    (h : exec c s = .next t) : StaysOnLink n s.dev t.dev := by
  rw [exec_partnerFault hc] at h
  cases h
  by_cases hup : s.dev.dlUp n = true
  · simpa only [State.withDev, if_pos hup] using staysOnLink_faultOn hc s.dev
  · simpa only [State.withDev, if_neg hup] using StaysOnLink.refl n s.dev

/-- Link m's block lies apart from another link's. -/
theorem aHl_apart {n m : Nat} (h : n ≠ m) {off : Nat} (hoff : off < 0x10000) :
    aHl m + off < aHl n ∨ aHl n + 0x10000 ≤ aHl m + off := by
  unfold aHl
  omega

/-- Settles O43: widths and L1 as their lemmas above say, and every fault stays on its link. -/
theorem widthsAndPartnerFaults : Obligations.WidthsAndPartnerFaults := by
  unfold Obligations.WidthsAndPartnerFaults
  refine ⟨⟨?narrow, ?least, ?widen, ?again, ?partner, ?full, ?same, fun _ _ => exec_l1Entry, fun _ _ => exec_l1Exit⟩,
    ?up, fun _ _ _ hdown hc => exec_partnerFault_down hc hdown, ?apart⟩
  case narrow =>
    rintro s n w hl0 hflit hen rfl hwide
    rw [exec_l0pNarrow, l0pNarrow_steps hl0 hflit hen hwide]
  case least =>
    intro s n h
    rw [exec_l0pNarrow, l0pNarrow_least h]
    rfl
  case widen =>
    intro s n hl0 hst hnew
    simp only [exec_l0pWidenRequest, l0pWiden_first hl0 hst hnew]
    exact ⟨rfl, rfl⟩
  case again =>
    intro s n t hl0 hst hold
    rw [exec_l0pWidenRequest, l0pWiden_again hl0 hst hold]
  case partner =>
    intro s n w hl0 hflit hw hlt hne
    rw [exec_partnerL0pRequest, partnerL0p_accepts hl0 hflit hw hlt.le, beq_false_of_ne hlt.ne,
      bne_iff_ne.2 hne, when_false, when_true]
  case full =>
    rintro s n w hl0 hflit hw rfl hne
    rw [exec_partnerL0pRequest, partnerL0p_accepts hl0 hflit hw le_rfl, beq_self_eq_true, bne_iff_ne.2 hne, when_true,
      when_true]
  case same =>
    rintro s n w hl0 hflit hw hlt rfl
    rw [exec_partnerL0pRequest, partnerL0p_accepts hl0 hflit hw hlt.le, beq_false_of_ne hlt.ne, bne_self_eq_false,
      when_false, when_false]
  case up =>
    intro s n h
    exact ⟨exec_partnerFault_up (by simp [partnerFaults]) h, exec_partnerFault_up (by simp [partnerFaults]) h,
      exec_partnerFault_up (by simp [partnerFaults]) h, exec_partnerFault_up (by simp [partnerFaults]) h,
      exec_partnerFault_up (by simp [partnerFaults]) h⟩
  case apart =>
    intro n m s t c hne hc h
    have hstays := exec_partnerFault_staysOnLink hc h
    have hapart : n.val ≠ m.val := fun e => hne (Fin.ext e)
    exact ⟨hstays.link m, hstays.fn m hapart.symm, fun off hoff => hstays.reg _ (aHl_apart hapart hoff)⟩

end Sys2Proof.Proofs
end

section
/-!
PROOF. O36: FLR and its end, MSI-X vectors, and the timers of PM_PME and WAKE_N.
-/
namespace Sys2Proof.Proofs
open Sys2Proof Sys2Proof.Machine Sys2Proof.Laws

/-! ### FLR (R99) -/

theorem exec_flr (f : Fin 32) (s : State) :
    exec (.flr f) s = .next (s.withDev (cfgWrite f true (flrBegin f) s.dev)) := rfl

theorem exec_flrDone (f : Fin 32) (s : State) : exec (.flrDone f) s = .next (s.withDev (flrEnd f s.dev)) := rfl

/-- An FLR ends where none of the function's slices still runs a Slice Reset (R52). -/
theorem flrEnd_resets {f : Nat} {d : Dev} (hflr : (d.fn f).flr = true)
    (hidle : ∀ k ∈ d.slicesOf f, ∀ x, d.slice k = some x → x.state ≠ .resetting) : flrEnd f d = fnStateReset f d := by
  have hnone : ((d.slicesOf f).any fun k => ((d.slice k).map (·.state)) == some .resetting) = false := by
    simp only [List.any_eq_false, beq_iff_eq, Option.map_eq_some_iff, not_exists, not_and]
    exact hidle
  rw [flrEnd, hflr, hnone]
  rfl

/-- Whatever the function was, its own fields are then those that a reset leaves. -/
theorem fn_fnStateReset (f : Nat) (d : Dev) : ∃ x : Fn, (fnStateReset f d).fn f = x.afterReset :=
  ⟨_, (fn_updFn f f Fn.afterReset _).trans (if_pos rfl)⟩

/-! ### MSI-X vectors (R89) -/

theorem exec_msixUnmask (f : Fin 32) (v : Option (Fin 2048)) (s : State) :
    exec (.msixUnmask f v) s = .next (s.withDev (msixUnmask f v s.dev)) := rfl

theorem msixUnmask_vector {f : Nat} {d : Dev} (hex : d.fnExists f = true) (hup : d.dlUp f = true)
    (hmse : (d.fn f).mse = true) (hflr : (d.fn f).flr = false) (v : Fin 2048) : msixUnmask f (some v) d =
      msixFlush f (updFn f (fun x => { x with vecs := mupd {} x.vecs v fun e => { e with masked := false } }) d) := by
  refine if_pos ?_
  rw [hex, hup, hmse, hflr]
  rfl

/-! ### PM_PME and WAKE_N (R75, R102) -/

theorem exec_pmeResend (f : Fin 32) (s : State) : exec (.pmeResend f) s = .next (s.withDev (pmeResend f s.dev)) := rfl

theorem exec_wakeTimeout (f : Fin 32) (s : State) :
    exec (.wakeTimeout f) s = .next (s.withDev (wakeTimeout f s.dev)) := rfl

theorem pmeResend_sends {f : Nat} {d : Dev} (hd3 : (d.fn f).d3 = true) (hst : (d.fn f).pmeStatus = true)
    (hup : d.dlUp f = true) : pmeResend f d = sendPme f (timeTo ((d.fn f).pmeAt + 100000000) d) := by
  refine if_pos ?_
  rw [hd3, hst, hup]
  rfl

theorem wakeTimeout_releases {f t : Nat} {d : Dev} (h : (d.link f).wakeSince = some t) : wakeTimeout f d =
    connBit f 15 (updFn f (fun x => { x with waking := false, woken := false }) (emit (.wakeN f false)
      (updLink f (fun x => { x with wakeSince := none }) (timeTo (t + 5000000000) d)))) := by
  rw [wakeTimeout, h]

/-- Settles O36: each row's meaning where it acts, as the lemmas above say. -/
theorem functionResetsAndWakes : Obligations.FunctionResetsAndWakes := by
  unfold Obligations.FunctionResetsAndWakes
  refine ⟨⟨?flr, ?done, ?reset, ?unmask⟩, ?resend, ?release⟩
  case flr =>
    rintro s f d hex hup hready hflr rfl
    rw [exec_flr, cfgWrite_served hex hup hready hflr]
    rfl
  case done =>
    intro s f hflr hidle
    rw [exec_flrDone, flrEnd_resets hflr hidle]
  case reset =>
    intro f d
    obtain ⟨x, hx⟩ := fn_fnStateReset f d
    rw [hx]
    exact ⟨rfl, rfl, rfl, rfl, rfl, rfl, rfl⟩
  case unmask =>
    intro s f v hex hup hmse hflr
    rw [exec_msixUnmask, msixUnmask_vector hex hup hmse hflr]
  case resend =>
    intro s f hd3 hst hup
    rw [exec_pmeResend, pmeResend_sends hd3 hst hup]
  case release =>
    intro s f t h
    rw [exec_wakeTimeout, wakeTimeout_releases h]

end Sys2Proof.Proofs
end

section
/-!
PROOF. O42: host links reach DL_Active and go down: unplanned, held after too many downs, declared removed, and in L2.
-/
namespace Sys2Proof.Proofs
open Sys2Proof Sys2Proof.Machine Sys2Proof.Laws

/-! ### DL_Active (R78) -/

theorem exec_dlActive (n : Fin 32) (s : State) : exec (.dlActive n) s = .next (s.withDev (dlActive n s.dev)) := rfl

/-- A slice of function n is HOST_LOST. -/
def HasLostSlice (n : Nat) (d : Dev) : Prop := ∃ k ∈ d.slicesOf n, ∃ x, d.slice k = some x ∧ x.state = .hostLost

theorem any_hostLost_iff (n : Nat) (d : Dev) :
    ((d.slicesOf n).any fun k => ((d.slice k).map (·.state)) == some .hostLost) = true ↔ HasLostSlice n d := by
  simp only [HasLostSlice, List.any_eq_true, beq_iff_eq, Option.map_eq_some_iff]

section Active
variable {d e : Dev} {n : Nat} (hdown : d.dlUp n = false) (hl0 : d.hlState n = 4) (hsecond : d.secondOf n = false)
  (he : e = connBit n 9 (updLink n (fun x => { x with resetting := false, downSince := none })
    (setFlag (aLinkStat n) 11 true d)))
include hdown hl0 hsecond he

/-- The link's rise, then RETURNED where slices are lost, the end of parking after a reset, and what was held. -/
theorem dlActive_rises {lost : Bool} (hlost : lost = true ↔ HasLostSlice n d) :
    dlActive n d = resumeHeld n (when (d.link n).resetting (unpark n) (when lost (connBit n 14) e)) := by
  have hgo : (d.dlUp n || d.hlState n != 4 || d.secondOf n) = false := by rw [hdown, hl0, hsecond]; rfl
  rw [← any_hostLost_iff, ← Bool.eq_iff_iff] at hlost
  subst hlost he
  simp only [dlActive, hgo, Bool.false_eq_true, if_false]

theorem dlActive_kept (hno : ¬HasLostSlice n d) (hreset : (d.link n).resetting = false) :
    dlActive n d = resumeHeld n e := by
  rw [dlActive_rises hdown hl0 hsecond he (lost := false) (by simpa using hno), hreset, when_false, when_false]

theorem dlActive_returned (hlost : HasLostSlice n d) (hreset : (d.link n).resetting = true) :
    dlActive n d = resumeHeld n (unpark n (connBit n 14 e)) := by
  rw [dlActive_rises hdown hl0 hsecond he (lost := true) (by simpa using hlost), hreset, when_true, when_true]

end Active

/-! ### Unplanned downs and flap protection (R74) -/

theorem exec_unplannedLinkDown {n : Fin 32} {s : State} (h : s.dev.dlUp n = true) :
    exec (.unplannedLinkDown n) s = .next (s.withDev (unplannedDown n s.dev)) := by
  refine congrArg Host.Outcome.next ?_
  rw [onDev_eq_withDev, if_pos h]

theorem exec_flapHoldEnd {n : Fin 32} {s : State} (h : s.dev.flag (aLinkStat n) 7 = true) : exec (.flapHoldEnd n) s =
    .next (s.withDev (setFlag (aLinkStat n) 7 false (timeTo ((s.dev.link n).holdSince + 1000000000) s.dev))) := by
  refine congrArg Host.Outcome.next ?_
  rw [onDev_eq_withDev, if_pos h]

section Unplanned
variable {n : Nat} {d : Dev} {t : List Nat} (ht : t = d.time :: (d.link n).downs.filter (d.time < · + 1000000000))
include ht

theorem unplannedDown_counted (h : t.length ≤ 8) : unplannedDown n d =
    updLink n (fun x => { x with downSince := some d.time, downs := t }) (hostLinkReset n 0 (hlCount n 0x20 d)) := by
  subst ht
  simp only [unplannedDown, Nat.not_lt.2 h, decide_false, when_false]
  rfl

/-- The ninth down within a second begins a hold. -/
theorem unplannedDown_held (h : 8 < t.length) : unplannedDown n d = hlCount n 0x28 (setFlag (aLinkStat n) 7 true
    (updLink n (fun x => { x with downSince := some d.time, downs := [], holdSince := d.time })
      (hostLinkReset n 0 (hlCount n 0x20 d)))) := by
  subst ht
  simp only [unplannedDown, h, decide_true, if_true, when_true]

end Unplanned

/-! ### Surprise removal (R76) -/

theorem exec_surpriseRemoval (n : Fin 32) (s : State) :
    exec (.surpriseRemoval n) s = .next (s.withDev (surpriseRemoval n s.dev)) := rfl

theorem surpriseRemoval_declares {n t : Nat} {d : Dev} (hsince : (d.link n).downSince = some t)
    (hthere : d.flag (aConn n) 0 = true) (hdown : d.dlUp n = false) :
    surpriseRemoval n d = declareLost n (timeTo (t + 10000000) d) := by
  rw [surpriseRemoval, hsince]
  dsimp only
  rw [if_pos (by rw [hthere, hdown]; rfl)]

theorem slices_connSync (n : Nat) (d : Dev) : (connSync n d).slices = d.slices := rfl

/-- A connector's event only speaks, and sets registers and a source. -/
theorem slices_connBit (n i : Nat) (d : Dev) : (connBit n i d).slices = d.slices := by
  have hraise (c a0 a1 a2 : Nat) (e : Dev) : (raise c a0 a1 a2 e).slices = e.slices :=
    (talk_raise c a0 a1 a2 e).keep (·.slices) fun _ _ _ _ _ _ _ => rfl
  unfold connBit
  split
  · rfl
  · dsimp only
    rw [slices_connSync, when_apply (·.slices), hraise, ite_self]
    exact setReg_slices _ _ d

theorem slices_declareLost {n k : Nat} {d : Dev} {x : Slice} (hs : d.slices = [(k, x)]) (hfn : x.fn = n)
    (hst : x.state = .active) (hp : d.pkts = []) :
    (declareLost n d).slices = [(k, { x with state := .hostLost })] := by
  simp [declareLost, slices_connBit, hp, hs, mmap, hfn, hst]

/-! ### L2 (R100) -/

theorem exec_pmeTurnOff {n : Fin 32} {s : State} (h : s.dev.dlUp n = true) :
    exec (.pmeTurnOff n) s = .next (s.withDev (linkDown n 7 (emit (.pmeToAck n) s.dev))) := by
  refine congrArg Host.Outcome.next ?_
  rw [onDev_eq_withDev, if_pos h]

/-- Settles O42: each row's meaning where it acts, as the lemmas above say. -/
theorem linksComeUpAndGoDown : Obligations.LinksComeUpAndGoDown := by
  unfold Obligations.LinksComeUpAndGoDown
  refine ⟨?active, fun _ _ => exec_unplannedLinkDown, fun _ _ _ ht => ⟨unplannedDown_counted ht, unplannedDown_held ht⟩,
    fun _ _ => exec_flapHoldEnd, ?removal, fun _ _ _ _ => slices_declareLost, fun _ _ => exec_pmeTurnOff⟩
  case active =>
    intro s n d hdown hl0 hsecond hd
    rw [exec_dlActive]
    constructor
    · intro hkept hreset
      have hno : ¬HasLostSlice n s.dev := fun ⟨k, hk, x, hx, hlost⟩ => hkept k hk x hx hlost
      rw [dlActive_kept hdown hl0 hsecond hd hno hreset]
    · intro hlost hreset
      rw [dlActive_returned hdown hl0 hsecond hd hlost hreset]
  case removal =>
    intro s n t hsince hthere hdown
    rw [exec_surpriseRemoval, surpriseRemoval_declares hsince hthere hdown]

end Sys2Proof.Proofs
end

section
/-!
PROOF. O40: the controls of host links and connectors, and a connector's inputs. First what each meaning does in each of
its cases; the statement is put together from these.
-/
namespace Sys2Proof.Proofs
open Sys2Proof Sys2Proof.Machine Sys2Proof.Laws

/-! ### The pairing is left alone by the connector's registers -/

theorem paired_emit (m : Nat) (o : Output) (d : Dev) : (emit o d).paired m = d.paired m := rfl

theorem paired_setFld {off m : Nat} (h : aLinkStat m ≠ off) (hi lo x : Nat) (d : Dev) :
    (setFld off hi lo x d).paired m = d.paired m :=
  congrArg (BitVec.getLsbD · 10) ((reg_setReg off (aLinkStat m) _ d).trans (if_neg h))

theorem paired_setFlag {off m : Nat} (h : aLinkStat m ≠ off) (i : Nat) (b : Bool) (d : Dev) :
    (setFlag off i b d).paired m = d.paired m := paired_setFld h i i _ d

theorem aLinkStat_ne_aConn (m n : Nat) : aLinkStat m ≠ aConn n := by
  unfold aLinkStat aConn aHl
  omega

theorem aLinkStat_ne_aConnCtrl (m n : Nat) : aLinkStat m ≠ aConnCtrl n := by
  unfold aLinkStat aConnCtrl aHl
  omega

theorem paired_setPower (m n : Nat) (p : Bool) (d : Dev) : (setPower n p d).paired m = d.paired m := by
  unfold setPower
  split
  · rfl
  · exact (paired_emit m _ _).trans (paired_setFlag (aLinkStat_ne_aConn m n) 2 p d)

theorem setPowers_unpaired {n : Nat} {d : Dev} (h : d.paired n = false) (p : Bool) :
    setPowers n p d = setPower n p d := by
  simp only [setPowers, h, Bool.false_and, when_false]

/-! ### HL_LINK_CTRL (R64, R65) -/

theorem exec_hlLinkCtrlWrite {s : State} {q : Requester} {n : Fin 32} (h : s.reaches q (aHl n) = true)
    (ht : trusted q = true) (v : Word) :
    exec (.hlLinkCtrlWrite q n v) s = .next (s.withDev (hlLinkCtrlWrite n v s.dev)) :=
  congrArg Host.Outcome.next (atRegAll_reaches s q (aHl n) _ h ht)

/-- MAX_SPEED and MAX_WIDTH taken from a write of HL_LINK_CTRL. -/
def takeLimits (n : Nat) (v : Word) (d : Dev) : Dev :=
  setFld (aHl n) 11 10 (wbits v 11 10) (setFld (aHl n) 15 12 (maxSpeed (wbits v 15 12)) d)

/-- LINK_DISABLE taken as `dis`. -/
def takeDisable (n : Nat) (dis : Bool) (d : Dev) : Dev := disableWrite n dis (setFlag (aHl n) 8 dis d)

theorem hlLinkCtrlWrite_second {n : Nat} {d : Dev} (h : d.secondOf n = true) (v : Word) :
    hlLinkCtrlWrite n v d = d := by
  rw [hlLinkCtrlWrite, if_pos h]

section LinkCtrl
variable {n : Nat} {v : Word} {d : Dev} (hsecond : d.secondOf n = false)
include hsecond

/-- PAIR first, then the limits, LINK_DISABLE and RETRAIN. -/
theorem hlLinkCtrlWrite_first : hlLinkCtrlWrite n v d =
    when (v.getLsbD 7 && !v.getLsbD 8 && d.dlUp n) (fun d => setHlState n 3 (emit (.link n 1) d))
      (when (v.getLsbD 8 != d.flag (aHl n) 8) (takeDisable n (v.getLsbD 8))
        (takeLimits n v (when (n % 2 == 0 && v.getLsbD 9 != d.flag (aHl n) 9) (pairWrite n (v.getLsbD 9)) d))) := by
  rw [hlLinkCtrlWrite, if_neg (by simp [hsecond])]
  rfl

section KeepsPair
variable (hpair : v.getLsbD 9 = d.flag (aHl n) 9 ∨ n % 2 = 1)
include hpair

theorem hlLinkCtrlWrite_keepsPair : hlLinkCtrlWrite n v d =
    when (v.getLsbD 7 && !v.getLsbD 8 && d.dlUp n) (fun d => setHlState n 3 (emit (.link n 1) d))
      (when (v.getLsbD 8 != d.flag (aHl n) 8) (takeDisable n (v.getLsbD 8))
        (takeLimits n v d)) := by
  have hno : (n % 2 == 0 && v.getLsbD 9 != d.flag (aHl n) 9) = false := by
    obtain h | h := hpair
    · rw [h, bne_self_eq_false, Bool.and_false]
    · rw [h]; rfl
  rw [hlLinkCtrlWrite_first hsecond, hno, when_false]

theorem hlLinkCtrlWrite_limits (hdis : v.getLsbD 8 = d.flag (aHl n) 8)
    (hno : (v.getLsbD 7 && !v.getLsbD 8 && d.dlUp n) = false) : hlLinkCtrlWrite n v d = takeLimits n v d := by
  rw [hlLinkCtrlWrite_keepsPair hsecond hpair, hno, hdis, bne_self_eq_false, when_false, when_false]

theorem hlLinkCtrlWrite_disables (hv : v.getLsbD 8 = true) (hd : d.flag (aHl n) 8 = false) :
    hlLinkCtrlWrite n v d = linkDown n 8 (setFlag (aHl n) 8 true (takeLimits n v d)) := by
  rw [hlLinkCtrlWrite_keepsPair hsecond hpair, when_neg (by rw [hv, Bool.not_true, Bool.and_false, Bool.false_and]),
    when_pos (by rw [hv, hd]; rfl), hv,
    takeDisable, disableWrite, if_pos rfl]

theorem hlLinkCtrlWrite_enables (hv : v.getLsbD 8 = false) (hd : d.flag (aHl n) 8 = true) (h7 : v.getLsbD 7 = false) :
    hlLinkCtrlWrite n v d = setHlState n 0 (setFlag (aHl n) 8 false (takeLimits n v d)) := by
  rw [hlLinkCtrlWrite_keepsPair hsecond hpair, when_neg (by rw [h7]; rfl), when_pos (by rw [hv, hd]; rfl), hv,
    takeDisable, disableWrite, if_neg (by decide)]

theorem hlLinkCtrlWrite_retrains (hv : v.getLsbD 8 = false) (hd : d.flag (aHl n) 8 = false) (h7 : v.getLsbD 7 = true)
    (hup : d.dlUp n = true) : hlLinkCtrlWrite n v d = setHlState n 3 (emit (.link n 1) (takeLimits n v d)) := by
  rw [hlLinkCtrlWrite_keepsPair hsecond hpair, when_pos (by rw [hv, h7, hup]; rfl), when_neg (by rw [hv, hd]; rfl)]

end KeepsPair

/-- A change of PAIR on a link that is and stays disabled. -/
theorem hlLinkCtrlWrite_pairs (heven : n % 2 = 0) (hpair : v.getLsbD 9 ≠ d.flag (aHl n) 9) (hv : v.getLsbD 8 = true)
    (hd : d.flag (aHl n) 8 = true) : hlLinkCtrlWrite n v d = takeLimits n v (pairWrite n (v.getLsbD 9) d) := by
  have hchange : (n % 2 == 0 && v.getLsbD 9 != d.flag (aHl n) 9) = true := by rw [heven, bne_iff_ne.2 hpair]; rfl
  rw [hlLinkCtrlWrite_first hsecond, when_neg (by rw [hv, Bool.not_true, Bool.and_false, Bool.false_and]),
    when_neg (by rw [hv, hd]; rfl), when_pos hchange]

end LinkCtrl

theorem pairWrite_refused {n : Nat} {p : Bool} {d : Dev} (h : d.mayPair n p = false) :
    pairWrite n p d = setFlag (aLinkStat n) 9 true d := by
  rw [pairWrite, if_neg (by simp [h])]

theorem pairWrite_dissolves {n : Nat} {d : Dev} (h : d.mayPair n false = true) : pairWrite n false d =
    setPower (n + 1) (d.flag (aConnCtrl (n + 1)) 0) (setFlag (aLinkStat (n + 1)) 10 false
      (setFlag (aLinkStat n) 10 false (setFlag (aHl n) 9 false d))) := by
  rw [pairWrite, if_pos h, when_neg (by rw [Bool.false_and, Bool.false_and]), if_neg (by decide)]

theorem mayPair_of {n : Nat} {p : Bool} {d : Dev} (hdis : d.flag (aHl n) 8 = true)
    (hdis' : d.flag (aHl (n + 1)) 8 = true) (hdown : d.dlUp n = false) (hdown' : d.dlUp (n + 1) = false)
    (hfree : p = true → (d.slicesOf (n + 1)).isEmpty = true ∧ (d.fn (n + 1)).qLen = 0) : d.mayPair n p = true := by
  cases p
  · simp [Dev.mayPair, hdis, hdis', hdown, hdown']
  · obtain ⟨hs, hq⟩ := hfree rfl
    simp [Dev.mayPair, hdis, hdis', hdown, hdown', hs, hq]

theorem mayPair_false {n : Nat} {p : Bool} {d : Dev} (h : d.flag (aHl n) 8 = false ∨ d.flag (aHl (n + 1)) 8 = false ∨
    d.dlUp n = true ∨ d.dlUp (n + 1) = true ∨ (p = true ∧ ((d.slicesOf (n + 1)).isEmpty = false ∨
      (d.fn (n + 1)).qLen ≠ 0))) : d.mayPair n p = false := by
  unfold Dev.mayPair
  obtain h | h | h | h | ⟨rfl, h | h⟩ := h <;> simp [h]

/-! ### CONN_CTRL (R69, R70, R78) -/

theorem exec_connCtrlWrite {s : State} {q : Requester} {n : Fin 32} (h : s.reaches q (aHl n + 0x14) = true)
    (ht : trusted q = true) (v : Word) :
    exec (.connCtrlWrite q n v) s = .next (s.withDev (connCtrlWrite n v s.dev)) :=
  congrArg Host.Outcome.next (atRegAll_reaches s q (aHl n + 0x14) _ h ht)

theorem connCtrlWrite_second {n : Nat} {d : Dev} (h : d.secondOf n = true) (v : Word) : connCtrlWrite n v d = d := by
  rw [connCtrlWrite, if_pos h]

/-- CONN_CTRL as written, with PWR_EN p. -/
def takeConnCtrl (n : Nat) (v : Word) (p : Bool) (d : Dev) : Dev :=
  setFlag (aConnCtrl n) 0 p (setFlag (aConnCtrl n) 3 (v.getLsbD 3)
    (setFld (aConnCtrl n) 5 4 (wbits v 5 4) (setFld (aConnCtrl n) 15 9 (wbits v 15 9) d)))

theorem paired_takeConnCtrl (m n : Nat) (v : Word) (p : Bool) (d : Dev) :
    (takeConnCtrl n v p d).paired m = d.paired m := by
  have h := aLinkStat_ne_aConnCtrl m n
  rw [takeConnCtrl, paired_setFlag h, paired_setFlag h, paired_setFld h, paired_setFld h]

/-- On a link of its own, with RESUME 0 or its link down: the power follows PWR_EN, and PWR_EN 0 clears the fault. -/
theorem connCtrlWrite_alone {n : Nat} {v : Word} {p : Bool} {d : Dev} (hsecond : d.secondOf n = false)
    (hpair : d.paired n = false) (hno : v.getLsbD 8 = false ∨ d.dlUp n = false)
    (hp : p = (if v.getLsbD 0 && d.flag (aConn n) 1 && v.getLsbD 3 then d.flag (aConnCtrl n) 0 else v.getLsbD 0)) :
    connCtrlWrite n v d = connSync n (when (!v.getLsbD 0) (setFlag (aConn n) 1 false)
      (setPower n p (takeConnCtrl n v p d))) := by
  have hresume : (v.getLsbD 8 && d.dlUp n) = false := by
    obtain h | h := hno
    · rw [h, Bool.false_and]
    · rw [h, Bool.and_false]
  have htaken : (takeConnCtrl n v p d).paired n = false := (paired_takeConnCtrl n n v p d).trans hpair
  have hpowered : (setPower n p (takeConnCtrl n v p d)).paired n = false := (paired_setPower n n p _).trans htaken
  simp only [connCtrlWrite, hsecond, hpair, hresume, Bool.false_and, Bool.or_false, ← hp, Bool.false_eq_true, if_false,
    when_false]
  change connSync n (when _ _ (setPowers n p (takeConnCtrl n v p d))) = _
  rw [setPowers_unpaired htaken]
  simp only [when, hpowered, Bool.false_eq_true, if_false]

theorem slicesOf_single {n k : Nat} {d : Dev} {x : Slice} (hs : d.slices = [(k, x)]) (hfn : x.fn = n) :
    d.slicesOf n = [k] := by
  simp [Dev.slicesOf, hs, hfn]

theorem slice_single {k : Nat} {d : Dev} {x : Slice} (hs : d.slices = [(k, x)]) : d.slice k = some x := by
  simp [Dev.slice, hs, mfind]

theorem resumeSlices_single {n k : Nat} {d : Dev} {x : Slice} (hs : d.slices = [(k, x)]) (hfn : x.fn = n)
    (hst : x.state = .hostLost) : resumeSlices n d =
      updSlice k (fun x => { x with state := .active }) (clearQueues (.slice (fin 4096 k)) d) := by
  simp only [resumeSlices, slicesOf_single hs hfn, each_cons, each_nil, slice_single hs, hst, if_true]

/-! ### Presence (R69, R76, R77) -/

theorem exec_presenceChange (n : Fin 32) (p : Bool) (s : State) :
    exec (.presenceChange n p) s = .next (s.withDev (presenceChange n p s.dev)) := rfl

theorem presenceChange_same {n : Nat} {p : Bool} {d : Dev} (h : d.flag (aConn n) 0 = p) : presenceChange n p d = d := by
  rw [presenceChange, if_pos (beq_iff_eq.2 h)]

section Inserted
variable {n : Nat} {d e : Dev} (habsent : d.flag (aConn n) 0 = false)
  (he : e = connBit n 10 (setFlag (aConn n) 0 true d))
include habsent he

theorem presenceChange_inserts : presenceChange n true d = when (decide (e.time ≤ 10000000) && !e.secondOf n)
    (fun d => setPowers n true (setFlag (aConnCtrl n) 0 true d)) e := by
  rw [presenceChange, habsent, if_neg (by decide), he]
  dsimp only
  rw [if_pos rfl]

theorem presenceChange_reports (h : 10000000 < e.time ∨ e.secondOf n = true) : presenceChange n true d = e := by
  have hno : (decide (e.time ≤ 10000000) && !e.secondOf n) = false := by
    obtain h | h := h
    · rw [decide_eq_false (Nat.not_le.2 h), Bool.false_and]
    · rw [h, Bool.not_true, Bool.and_false]
  rw [presenceChange_inserts habsent he, hno, when_false]

/-- A connector present at the end of the first debounce is powered. -/
theorem presenceChange_powers (htime : e.time ≤ 10000000) (hsecond : e.secondOf n = false) :
    presenceChange n true d = setPowers n true (setFlag (aConnCtrl n) 0 true e) := by
  rw [presenceChange_inserts habsent he, when_pos (by rw [decide_eq_true htime, hsecond]; rfl)]

end Inserted

section Removed
variable {n : Nat} {d e : Dev} (hpresent : d.flag (aConn n) 0 = true)
  (he : e = setFlag (aConn n) 1 false (connBit n 10 (setFlag (aConn n) 0 false d)))
include hpresent he

theorem presenceChange_removes :
    presenceChange n false d = if e.secondOf n then e else declareLost n (removalReset n e) := by
  rw [presenceChange, hpresent, if_neg (by decide), he]
  dsimp only
  rw [if_neg (by decide)]

theorem presenceChange_lost (hsecond : e.secondOf n = false) :
    presenceChange n false d = declareLost n (removalReset n e) := by
  rw [presenceChange_removes hpresent he, if_neg (by simp [hsecond])]

end Removed

theorem removalReset_up {n : Nat} {d : Dev} (hup : d.dlUp n = true) : removalReset n d = unplannedDown n d := by
  rw [removalReset, if_pos hup]

/-- A reset that began with the down stands. -/
theorem removalReset_resetting {n : Nat} {d : Dev} (hdown : d.dlUp n = false) (hr : (d.link n).resetting = true) :
    removalReset n d = d := by
  rw [removalReset, if_neg (by simp [hdown]), if_pos hr]

theorem removalReset_down {n : Nat} {d : Dev} (hdown : d.dlUp n = false) (hr : (d.link n).resetting = false) :
    removalReset n d = hostLinkReset n (d.hlState n) d := by
  rw [removalReset, if_neg (by simp [hdown]), if_neg (by simp [hr])]

/-! ### Power faults and the button (R65, R70, R71) -/

theorem exec_powerFault (n : Fin 32) (s : State) :
    exec (.powerFault n) s = .next (s.withDev (powerFault n s.dev)) := rfl

theorem cutPower_alone {m : Nat} {d : Dev} (h : d.paired m = false) :
    cutPower m d = setPower m false (setFlag (aConnCtrl m) 0 false d) := by
  have hkept : (setFlag (aConnCtrl m) 0 false d).paired m = false :=
    (paired_setFlag (aLinkStat_ne_aConnCtrl m m) _ _ d).trans h
  rw [← setPowers_unpaired hkept, cutPower, h, when_false]

theorem cutPower_paired {m : Nat} {d : Dev} (h : d.paired m = true) : cutPower m d =
    setPowers m false (setFlag (aConnCtrl (m + 1)) 0 false (setFlag (aConnCtrl m) 0 false d)) := by
  rw [cutPower, h, when_true]

/-- AUTO_OFF of the block that controls the connector decides whether the power is cut. -/
theorem powerFault_reports {n m : Nat} {d e : Dev} (hm : m = if d.secondOf n then n - 1 else n)
    (he : e = connBit n 12 (setFlag (aConn n) 1 true d)) :
    powerFault n d = when (d.flag (aConnCtrl m) 3) (cutPower m) e := by
  subst hm he
  rfl

theorem exec_attentionPress {n : Fin 32} {s : State} (h : s.dev.secondOf n = false) :
    exec (.attentionPress n) s = .next (s.withDev (connBit n 11 s.dev)) := by
  refine congrArg Host.Outcome.next ?_
  rw [onDev_eq_withDev, if_neg (by simp [h])]

/-! ### PERST# and hot reset (R72, R77) -/

theorem exec_perstAssert (n : Fin 32) (hot : Bool) (s : State) :
    exec (.perstAssert n hot) s = .next (s.withDev (perstAssert n hot s.dev)) := rfl

theorem exec_perstDeassert (n : Fin 32) (s : State) :
    exec (.perstDeassert n) s = .next (s.withDev (setPerst n false s.dev)) := rfl

/-- The second link of a pair only reports its PERST#. -/
theorem perstAssert_pin {n : Nat} {d e : Dev}
    (he : e = updLink n (fun x => { x with perst := true }) (setFlag (aConn n) 3 true d)) :
    perstAssert n false d = if e.secondOf n then e else hostLinkReset n 0 e := by
  subst he
  simp only [perstAssert, Bool.not_false, when_true, Bool.false_and, Bool.or_false, Bool.false_eq_true, if_false]
  rfl

theorem perstAssert_hot {n : Nat} {d : Dev} (hsecond : d.secondOf n = false) (hup : d.dlUp n = true) :
    perstAssert n true d = hostLinkReset n 9 d := by
  simp only [perstAssert, Bool.not_true, when_false, hsecond, hup, Bool.and_false, Bool.or_false, Bool.false_eq_true,
    if_false, if_true]

/-- On a link that is down already no LINK_CHG is raised. -/
theorem hostLinkReset_down {n st : Nat} {d : Dev} (hsecond : d.secondOf n = false) (hdown : d.dlUp n = false) :
    hostLinkReset n st d = fnStateReset n (fnStop n stAborted (updLink n (fun x => { x with resetting := true })
      (updLink n (fun x => { x with widenAt := none, excluded := [], eqFails := [] })
        (setHlState n st (setFlag (aLinkStat n) 8 false (setFld (aLinkStat n) 23 11 0 d)))))) := by
  simp only [hostLinkReset, linkDown, hsecond, hdown, Bool.false_eq_true, if_false, when_false]

/-- Settles O40: each control and each input of a connector acts as the lemmas above say. -/
theorem connectorsAndLinkControlsAct : Obligations.ConnectorsAndLinkControlsAct := by
  unfold Obligations.ConnectorsAndLinkControlsAct
  refine ⟨⟨?link, ?linkSecond, fun _ _ _ => mayPair_of, fun _ _ _ => mayPair_false, ?conn, ?connSecond,
    fun _ _ _ _ => resumeSlices_single⟩, ?same, ?inserted, ?removed, ?fault, fun _ _ => exec_attentionPress, ?perst,
    ?hot, fun _ _ => rfl, fun _ _ _ => hostLinkReset_down⟩
  case link =>
    rintro s q n v d h ht hsecond rfl
    rw [exec_hlLinkCtrlWrite h ht]
    refine ⟨fun hpair => ⟨?_, ?_, ?_, ?_⟩, fun heven hpair hv hd => ?_⟩
    · intro hdis hno
      rw [hlLinkCtrlWrite_limits hsecond hpair hdis hno, takeLimits]
    · intro hv hd
      rw [hlLinkCtrlWrite_disables hsecond hpair hv hd, takeLimits]
    · intro hv hd h7
      rw [hlLinkCtrlWrite_enables hsecond hpair hv hd h7, takeLimits]
    · intro hv hd h7 hup
      rw [hlLinkCtrlWrite_retrains hsecond hpair hv hd h7 hup, takeLimits]
    · rw [hlLinkCtrlWrite_pairs hsecond heven hpair hv hd, takeLimits]
      refine ⟨fun hno => by rw [pairWrite_refused hno], fun hmay h9 => ?_⟩
      rw [h9] at hmay ⊢
      rw [pairWrite_dissolves hmay]
  case linkSecond =>
    intro s q n v h ht hsecond
    rw [exec_hlLinkCtrlWrite h ht, hlLinkCtrlWrite_second hsecond]
    rfl
  case conn =>
    intro s q n v p h ht hsecond hpair hno hp
    rw [exec_connCtrlWrite h ht, connCtrlWrite_alone hsecond hpair hno hp, takeConnCtrl]
  case connSecond =>
    intro s q n v h ht hsecond
    rw [exec_connCtrlWrite h ht, connCtrlWrite_second hsecond]
    rfl
  case same =>
    intro s n p h
    rw [exec_presenceChange, presenceChange_same h]
    rfl
  case inserted =>
    intro s n d habsent hd
    rw [exec_presenceChange]
    exact ⟨fun h => by rw [presenceChange_reports habsent hd h],
      fun htime hsecond => by rw [presenceChange_powers habsent hd htime hsecond]⟩
  case removed =>
    intro s n d hpresent hd
    rw [exec_presenceChange]
    refine ⟨fun hsecond => ?_, fun hsecond hup => ?_, fun hsecond hdown hr => ?_, fun hsecond hdown hr => ?_⟩
    · rw [presenceChange_removes hpresent hd, if_pos hsecond]
    · rw [presenceChange_lost hpresent hd hsecond, removalReset_up hup]
    · rw [presenceChange_lost hpresent hd hsecond, removalReset_resetting hdown hr]
    · rw [presenceChange_lost hpresent hd hsecond, removalReset_down hdown hr]
  case fault =>
    intro s n m d hm hd
    rw [exec_powerFault, powerFault_reports hm hd]
    refine ⟨fun hoff => ?_, fun hoff hpair => ?_, fun hoff hpair => ?_⟩
    · rw [hoff, when_false]
    · rw [hoff, when_true, cutPower_alone hpair]
    · rw [hoff, when_true, cutPower_paired hpair]
  case perst =>
    intro s n d hd
    rw [exec_perstAssert, perstAssert_pin hd]
    exact ⟨fun hsecond => by rw [if_neg (by simp [hsecond])], fun hsecond => by rw [if_pos hsecond]⟩
  case hot =>
    intro s n hsecond hup
    rw [exec_perstAssert, perstAssert_hot hsecond hup]

end Sys2Proof.Proofs
end

section
/-!
PROOF. O10 and O9: command rings, and the commands NOP, WAKE and WAKE_SLOT_SET. First the fetch, the doorbells, and what a
reply does and leaves alone; the statements are put together from these.
-/
namespace Sys2Proof.Proofs
open Sys2Proof Sys2Proof.Machine Sys2Proof.Laws

/-! ### A packet is taken (R153, R154, R164) -/

theorem exec_commandFetch {r : Ring} {s : State} (h : List Byte) (hstart : s.dev.startable r = true)
    (hturn : s.dev.ringTurn r = true)
    (hdirect : s.dev.direct (s.dev.readFn r) (s.dev.slotRanges r (s.dev.ring r).head 1) = true) :
    exec (.commandFetch r (.ok h)) s = .next (s.withDev (headerRead r (padTo 32 h) s.dev)) := by
  refine congrArg Host.Outcome.next ?_
  rw [onDev_eq_withDev, if_pos (by rw [hstart, hturn]; rfl), withRead_direct _ _ _ _ _ _ hdirect, headerEnd]

theorem headerRead_takes {r : Ring} {h : List Byte} {d : Dev} (hlen : (execOf h).plen ≤ 4064)
    (hslots : slotsOf (execOf h).plen ≤ ringCount (crN (d.ring r)) (d.ring r).head (d.ring r).tail)
    (hwaits : d.sliceWaits (execOf h) = false) (hcheck : hdrCheck r h d = none) :
    headerRead r h d = takeSlots r (slotsOf (execOf h).plen) (execOf h) d := by
  simp only [headerRead, hcheck, hwaits, Bool.false_eq_true, if_false]
  rw [if_neg (Nat.not_lt.2 hlen), if_neg (Nat.not_lt.2 hslots)]

/-! ### Reads through the translation cache (R96) -/

theorem withRead_ready {f : Nat} {a : Option Nat} {l : List (Nat × Nat)} {d d' : Dev}
    (h : xlatRead f a (readPieces (d.fn f) l) d = (.ready, d')) (res : Read) (go : Read → Dev → Dev) :
    withRead f a l res go d = go res d' := by
  rw [withRead, h]

/-- A permitted request goes, its cache entry the one used last. -/
theorem xlatRead_hit {f a n : Nat} {p : Option Nat} {d : Dev} {e : AtcEntry} (hats : (d.fn f).atsEn = true)
    (hnone : ∀ x ∈ (d.fn f).xnone, ¬(x.1 = p ∧ x.2.1 = a)) (hhit : atcHit (d.fn f) p a n = some e) (hrd : e.rd = true)
    (rest : List (Nat × Nat)) : xlatRead f p ((a, n) :: rest) d = xlatRead f p rest (atcUse f e d) := by
  have hfail : (d.fn f).xnone.find? (fun e => e.1 == p && e.2.1 == a) = none := by
    simpa [List.find?_eq_none] using hnone
  simp only [xlatRead, hats, hfail, hhit, hrd, Bool.not_true, Bool.false_eq_true, if_false, if_true]

/-! ### Doorbells (R157-R160) -/

section Doorbells
variable {s : State} {r : Ring} (hcome : s.comes (s.dev.readFn r) = true) (hex : s.dev.ringExists r = true) (v : Word)
include hcome hex

theorem exec_crCtrlWrite : exec (.crCtrlWrite r v) s = .next (s.withDev (crCtrlWrite r v s.dev)) := by
  refine congrArg Host.Outcome.next ((through_comes s _ _ hcome).trans ?_)
  rw [onDev_eq_withDev, if_pos hex]

theorem exec_crTailWrite : exec (.crTailWrite r v) s = .next (s.withDev (crTailWrite r v s.dev)) := by
  refine congrArg Host.Outcome.next ((through_comes s _ _ hcome).trans ?_)
  rw [onDev_eq_withDev, if_pos hex]

theorem exec_rrHeadWrite : exec (.rrHeadWrite r v) s = .next (s.withDev (rrHeadWrite r v s.dev)) := by
  refine congrArg Host.Outcome.next ((through_comes s _ _ hcome).trans ?_)
  rw [onDev_eq_withDev, if_pos hex]

end Doorbells

section Ring
variable {r : Ring} {v : Word} {d : Dev}

/-- A stopped ring starts at position 0 with the sizes written. -/
theorem crCtrlWrite_starts (hen : (d.ring r).enable = false) (hv : v.getLsbD 31 = true) :
    crCtrlWrite r v d = updRing r (fun x =>
      { x with crLog2 := ringLog 7 7 (wbits v 28 24), rrLog2 := ringLog 6 6 (wbits v 20 16)
               crRaw := wbits v 28 24, rrRaw := wbits v 20 16, intEn := v.getLsbD 30
               vector := if r = .manager then x.vector else wbits v 10 0
               enable := true, head := 0, tail := 0, rrHead := 0, rrWrite := 0, halted := false, haltReason := 0
               need := 1, waits := none }) d :=
  updRing_congr r _ _ d (by simp [hen, hv])

/-- A running ring takes INT_EN and the vector alone. -/
theorem crCtrlWrite_runs (hen : (d.ring r).enable = true) (hv : v.getLsbD 31 = true) :
    crCtrlWrite r v d = updRing r (fun x =>
      { x with intEn := v.getLsbD 30, vector := if r = .manager then x.vector else wbits v 10 0 }) d :=
  updRing_congr r _ _ d (by simp [hen, hv])

/-- A running ring stops where it is. -/
theorem crCtrlWrite_stops (hen : (d.ring r).enable = true) (hv : v.getLsbD 31 = false) :
    crCtrlWrite r v d = updRing r (fun x =>
      { x with intEn := v.getLsbD 30, vector := if r = .manager then x.vector else wbits v 10 0, enable := false
               need := 1, waits := none }) d :=
  updRing_congr r _ _ d (by
    simp only [hen, hv, if_true, Bool.not_true, Bool.not_false, Bool.false_and, Bool.false_eq_true, if_false])

theorem crTailWrite_moves {q : Nat} (hen : (d.ring r).enable = true) (hready : d.engineReady = true)
    (hq : tailValid (crN (d.ring r)) (d.ring r).head (d.ring r).tail (wbits v 16 0) = some q) :
    crTailWrite r v d = updRing r (fun x => { x with tail := q }) d := by
  simp only [crTailWrite, hen, hready, hq, Bool.not_true, Bool.or_self, Bool.false_eq_true, if_false]

theorem crTailWrite_ignored (h : (d.ring r).enable = false ∨ d.engineReady = false ∨
      tailValid (crN (d.ring r)) (d.ring r).head (d.ring r).tail (wbits v 16 0) = none) :
    crTailWrite r v d = crErr r d := by
  unfold crTailWrite
  dsimp only
  split
  · rfl
  · next hruns =>
    obtain h | h | h := h
    · exact absurd (by rw [h]; rfl) hruns
    · exact absurd (by rw [h, Bool.not_false, Bool.or_true]) hruns
    · rw [h]

theorem rrHeadWrite_moves {q : Nat}
    (hq : headValid (rrN (d.ring r)) (d.ring r).rrHead (d.ring r).rrWrite (wbits v 16 0) = some q) :
    rrHeadWrite r v d = updRing r (fun x => { x with rrHead := q, notified := false }) d := by
  simp only [rrHeadWrite, hq]

theorem rrHeadWrite_ignored
    (hq : headValid (rrN (d.ring r)) (d.ring r).rrHead (d.ring r).rrWrite (wbits v 16 0) = none) :
    rrHeadWrite r v d = crErr r d := by
  simp only [rrHeadWrite, hq]

end Ring

/-! ### What a reply makes of the command that its ring executes (R155, R165) -/

/-- The command's end without its reply: INTERNAL_FAULT raised over a failure of the adapter, and COMMANDS counted. -/
def endExec (r : Ring) (e : Exec) (d : Dev) : Dev :=
  let d := when e.internal (raise 0x15 e.opcode (2 ^ 30 * ringKind r + ringNumber r) e.tag) d
  updRing r (fun x => { x with exec := none }) (if e.opcode = 0x0101 then d else meter e.slice 15 1 d)

/-- The reply that a command answers with: INTERNAL over a failure of the adapter, else what it asked for. -/
def replyOf (e : Exec) (st det : Nat) (ws : List Nat) : Reply :=
  if e.internal then { tag := e.tag, status := stInternal, detail := 0, words := [], quiet := bit e.flags 1 }
  else { tag := e.tag, status := st, detail := det, words := ws, quiet := bit e.flags 1, data := e.data }

section Reply
variable {r : Ring} {st det : Nat} {ws : List Nat} {d : Dev}

theorem reply_idle (h : (d.ring r).exec = none) : reply r st det ws d = d := by
  simp only [reply, h]

variable {e : Exec} (h : (d.ring r).exec = some e)
include h

theorem reply_ends : reply r st det ws d =
    if (endExec r e d).ringMay r && (d.ring r).held.isEmpty then replyOut r (replyOf e st det ws) (endExec r e d)
    else updRing r (fun x => { x with held := x.held ++ [replyOf e st det ws] }) (endExec r e d) := by
  simp only [reply, h]
  rfl

theorem reply_written (hmay : (endExec r e d).ringMay r = true) (hheld : (d.ring r).held = []) :
    reply r st det ws d = replyOut r (replyOf e st det ws) (endExec r e d) := by
  rw [reply_ends h, if_pos (by rw [hmay, hheld]; rfl)]

theorem reply_held (hno : (endExec r e d).ringMay r = false ∨ (d.ring r).held ≠ []) :
    reply r st det ws d = updRing r (fun x => { x with held := x.held ++ [replyOf e st det ws] }) (endExec r e d) := by
  refine (reply_ends h).trans (if_neg ?_)
  simpa [Classical.or_iff_not_imp_left] using hno

end Reply

/-! ### Speaking to the outside leaves the command rings alone -/

theorem rings_count (k : Nat) (d : Dev) : (count k d).rings = d.rings := rfl

theorem rings_sourcePulse (n : Nat) (d : Dev) : (sourcePulse n d).rings = d.rings := rfl

theorem rings_sent (f : Nat) (r : XReq) (o : Output) (d : Dev) : (sent f r o d).rings = d.rings := by
  unfold sent
  split <;> rfl

theorem rings_refuse (f : Nat) (r : XReq) (st : Nat) (d : Dev) : (refuse f r st d).rings = d.rings := by
  unfold refuse
  split
  · split
    · rfl
    · rw [updFn_rings, rings_count]
  · rw [when_apply Dev.rings, updFn_rings, ite_self, rings_count]

theorem rings_askAts (f : Nat) (r : XReq) (p : Option Nat) (a : Nat) (d : Dev) : (askAts f r p a d).rings = d.rings :=
  (updFn_rings f _ _).trans ((emit_rings _ _).trans
    ((updFn_rings f _ _).trans ((updFn_rings f _ _).trans (rings_count _ d))))

theorem rings_leaveNow (f : Nat) (r : XReq) (d : Dev) : (leaveNow f r d).rings = d.rings := by
  unfold leaveNow
  dsimp only
  split
  · exact rings_sent f r _ d
  · next w _ _ =>
    split
    · next e _ =>
      cases (if w = true then e.wr else e.rd)
      · exact rings_refuse f r _ (atcUse f e d)
      · exact rings_sent f r _ (atcUse f e d)
    · exact rings_askAts f r _ _ d

theorem rings_leave (f : Nat) (r : XReq) (d : Dev) : (leave f r d).rings = d.rings := by
  unfold leave
  dsimp only
  split
  · split_ifs <;> rfl
  · split_ifs
    · rfl
    · rfl
    · exact rings_leaveNow f r d

theorem rings_hostWriteAs (x : XFor) (f : Nat) (p : Option Nat) (a : Nat) (b : List Byte) (ro ep : Bool) (d : Dev) :
    (hostWriteAs x f p a b ro ep d).rings = d.rings :=
  each_keep Dev.rings _ (fun _ _ => rings_leave f _ _) _ d

theorem rings_mgrWrite (a : Nat) (b : List Byte) (d : Dev) : (mgrWrite a b d).rings = d.rings :=
  (when_apply Dev.rings _ _ _).trans (ite_self _)

theorem rings_ringWriteAs (x : XFor) (r : Ring) (a : Nat) (b : List Byte) (d : Dev) :
    (ringWriteAs x r a b d).rings = d.rings := by
  cases r
  · exact rings_mgrWrite a b d
  · exact rings_hostWriteAs x _ _ a b _ _ d
  · exact rings_hostWriteAs x _ _ a b _ _ d

theorem rings_msixRaiseFor (w : Option Nat) (f v : Nat) (d : Dev) : (msixRaiseFor w f v d).rings = d.rings := by
  unfold msixRaiseFor
  split_ifs
  · rfl
  · exact rings_leave f _ d
  · rfl

theorem rings_ownerVector (o : Owner) (v : Nat) (d : Dev) : (ownerVector o v d).rings = d.rings := by
  unfold ownerVector
  split
  · exact rings_msixRaiseFor none _ v d
  · split
    · split
      · exact rings_msixRaiseFor _ _ _ d
      · rfl
    · rfl

/-- An entry's two writes leave alone what each write does. -/
theorem rings_ringWrites {w : Nat → List Byte → Dev → Dev} (hw : ∀ a b d, (w a b d).rings = d.rings)
    (base n pos size : Nat) (b : List Byte) (k : Nat) (d : Dev) : (ringWrites w base n pos size b k d).rings = d.rings :=
  (hw _ _ _).trans (hw _ _ _)

theorem rings_mevPut (b : List Byte) (d : Dev) : (mevPut b d).rings = d.rings := by
  have hwrites := rings_ringWrites rings_mgrWrite d.mev.base d.mev.n d.mev.wpos 32 b 31 d
  unfold mevPut
  dsimp only
  split
  · exact (rings_msixRaiseFor none 32 _ _).trans hwrites
  · exact hwrites

theorem rings_mevLostFirst (d : Dev) : (mevLostFirst d).rings = d.rings := by
  unfold mevLostFirst
  split
  · exact rings_mevPut _ d
  · rfl

theorem rings_raiseEntry (code a0 a1 a2 : Nat) (d : Dev) : (raiseEntry code a0 a1 a2 d).rings = d.rings := by
  unfold raiseEntry
  dsimp only
  split_ifs
  · rfl
  · exact (rings_mevPut _ _).trans (rings_mevLostFirst d)
  · exact rings_mevLostFirst d

theorem rings_raise (code a0 a1 a2 : Nat) (d : Dev) : (raise code a0 a1 a2 d).rings = d.rings := by
  unfold raise
  cases eventSource code with
  | none => exact rings_raiseEntry code a0 a1 a2 d
  | some n => exact (rings_sourcePulse n _).trans (rings_raiseEntry code a0 a1 a2 d)

/-! ### What a reply leaves alone (R155) -/

theorem ring_of_rings {d d' : Dev} (h : d'.rings = d.rings) (r : Ring) : d'.ring r = d.ring r := by
  rw [Dev.ring, h, Dev.ring]

theorem ring_exec_ringInterrupt (r k : Ring) (d : Dev) : ((ringInterrupt r d).ring k).exec = (d.ring k).exec := by
  unfold ringInterrupt
  split
  · dsimp only
    split
    · rfl
    · rw [ring_of_rings (rings_raise _ _ _ _ _), ring_updRing]
      split <;> rfl
  · rw [msixRaise, ring_of_rings (rings_msixRaiseFor _ _ _ _)]
  · rw [ring_of_rings (rings_ownerVector _ _ _)]

theorem ring_exec_replyOut (r k : Ring) (p : Reply) (d : Dev) : ((replyOut r p d).ring k).exec = (d.ring k).exec := by
  have hwrites : (dataDone (d.ringFnNo r) p.data.toList (ringWrites (ringWriteAs p.serves r) (d.ring r).rrBase
      (rrN (d.ring r)) (d.ring r).rrWrite 32 (replyBytes p) 7 d)).rings = d.rings :=
    rings_ringWrites (rings_ringWriteAs p.serves r) _ _ _ _ _ _ d
  unfold replyOut
  dsimp only
  rw [when_apply (fun d => (d.ring k).exec), ring_exec_ringInterrupt, ite_self, ring_updRing,
    apply_ite CmdRing.exec, ite_self, ring_of_rings hwrites]

/-- A reply ends the command, whether it is written or held. -/
theorem ring_exec_reply (r : Ring) (st det : Nat) (ws : List Nat) (d : Dev) :
    ((reply r st det ws d).ring r).exec = none := by
  cases h : (d.ring r).exec with
  | none => rw [reply_idle h, h]
  | some e =>
    have hended : ((endExec r e d).ring r).exec = none := by rw [endExec, ring_updRing, if_pos rfl]
    rw [reply_ends h]
    split
    · rw [ring_exec_replyOut, hended]
    · rw [ring_updRing, if_pos rfl, hended]

/-- Whatever speaking does not change, and no slice's meter is part of, is as it was. -/
theorem reply_keeps {β : Type} (g : Dev → β)
    (hg : ∀ (x : Dev) o f r m i c, g { x with out := o, fns := f, regs := r, mev := m, ic := i, rings := c } = g x)
    (hslices : ∀ x l, g { x with slices := l } = g x) (r : Ring) (st det : Nat) (ws : List Nat) (d : Dev) :
    g (reply r st det ws d) = g d := by
  obtain ⟨d1, d2, h1, hmeter, h2⟩ := talk_reply r st det ws d
  have hcounted : g d2 = g d1 := by
    obtain rfl | ⟨s, rfl⟩ := hmeter
    · rfl
    · exact hslices d1 _
  exact (h2.keep g hg).trans (hcounted.trans (h1.keep g hg))

/-- Settles O10: each part of a ring's work as the lemmas above say. -/
theorem commandRingsWork : Obligations.CommandRingsWork := by
  unfold Obligations.CommandRingsWork
  refine ⟨?fetch, ⟨fun _ _ _ _ _ _ _ h => withRead_ready h _ _, ?params, ?hit, fun _ _ _ => rfl⟩,
    ⟨?starts, ?runs, ?stops⟩, ⟨?tail, ?tailErr, ?head, ?headErr⟩, fun _ _ _ _ _ => reply_idle, ?replies, ?keeps⟩
  case fetch =>
    intro s r h hstart hturn hlen hslots hwaits hcheck hdirect
    rw [exec_commandFetch h hstart hturn hdirect, headerRead_takes hlen hslots hwaits hcheck, takeSlots]
  case params =>
    intro r op p f d d' e b hx hop hbegun hahead hready hgate hp
    refine commandTo_ready id r op p f d d' e b hx hop hbegun ?_ hready hgate hp
    simpa using hahead
  case hit =>
    intro f a n p d e rest hats hnone hhit hrd
    exact xlatRead_hit hats hnone hhit hrd rest
  case starts =>
    intro s r v hcome hex hen hv
    rw [exec_crCtrlWrite hcome hex, crCtrlWrite_starts hen hv]
  case runs =>
    intro s r v hcome hex hen hv
    rw [exec_crCtrlWrite hcome hex, crCtrlWrite_runs hen hv]
  case stops =>
    intro s r v hcome hex hen hv
    rw [exec_crCtrlWrite hcome hex, crCtrlWrite_stops hen hv]
  case tail =>
    intro s r v q hcome hex hen hready hq
    rw [exec_crTailWrite hcome hex, crTailWrite_moves hen hready hq]
  case tailErr =>
    intro s r v hcome hex h
    rw [exec_crTailWrite hcome hex, crTailWrite_ignored h, crErr]
  case head =>
    intro s r v q hcome hex hq
    rw [exec_rrHeadWrite hcome hex, rrHeadWrite_moves hq]
  case headErr =>
    intro s r v hcome hex hq
    rw [exec_rrHeadWrite hcome hex, rrHeadWrite_ignored hq, crErr]
  case replies =>
    rintro r st det ws d e d0 d' p hx rfl rfl rfl
    exact ⟨reply_written hx, reply_held hx⟩
  case keeps =>
    intro r st det ws d
    exact ⟨ring_exec_reply r st det ws d, reply_keeps Dev.pkts (fun _ _ _ _ _ _ _ => rfl) (fun _ _ => rfl) ..,
      reply_keeps Dev.tables (fun _ _ _ _ _ _ _ => rfl) (fun _ _ => rfl) ..,
      reply_keeps Dev.queues (fun _ _ _ _ _ _ _ => rfl) (fun _ _ => rfl) ..,
      reply_keeps Dev.mem (fun _ _ _ _ _ _ _ => rfl) (fun _ _ => rfl) ..,
      reply_keeps Dev.time (fun _ _ _ _ _ _ _ => rfl) (fun _ _ => rfl) ..⟩

/-! ### NOP, WAKE and WAKE_SLOT_SET (R103, R167, R169, R170) -/

section Wake
variable {s : State} {r : Ring} {p : Read} {e : Exec} {b : List Byte}

theorem exec_nop (h : s.runs r 0x0001 p = some (e, b)) : exec (.nop r p) s = .next (s.withDev (nop r s.dev)) :=
  congrArg Host.Outcome.next (onDev_command_runs h _)

theorem exec_wake (h : s.runs r 0x0003 p = some (e, b)) : exec (.wake r p) s = .next (s.withDev (wake r b s.dev)) :=
  congrArg Host.Outcome.next (onDev_command_runs h _)

theorem exec_wakeSlotSet (h : s.runs r 0x0004 p = some (e, b)) :
    exec (.wakeSlotSet r p) s = .next (s.withDev (wakeSlotSet r e b s.dev)) :=
  congrArg Host.Outcome.next (onDev_command_runs h _)

end Wake

theorem nop_answers {r : Ring} {d : Dev} (h : d.updates = []) :
    nop r d = reply r stOk 0 [(d.reg 0x100008).toNat, (d.reg 0x10000C).toNat] d := by
  rw [nop, h, List.isEmpty_nil, if_pos rfl, updFinish]

/-- With an update staged the command has begun, and its fence stands behind the update accepted last. -/
theorem nop_fences {r : Ring} {d : Dev} {e : Exec} (hx : (d.ring r).exec = some e) (h : d.updates ≠ []) :
    nop r d = updRing r (fun x => { x with exec := some { e with begun := true } })
      { d with updates := fenceLast r d.updates } := by
  refine (if_neg (by simpa using h)).trans (updRing_congr r _ _ _ ?_)
  have hring : Dev.ring { d with updates := fenceLast r d.updates } r = d.ring r := rfl
  simp only [hring, hx, Option.map_some]

section Wake
variable {r : Ring} {b : List Byte} {d : Dev} (hf : byteAt b 0 < 32) (hex : d.fnExists (byteAt b 0) = true)
  (hzero : zeroAt b 1 3 = true)
include hf hex hzero

/-- What WAKE does for a function that exists. -/
theorem wake_named : wake r b d =
    if !(d.fn (byteAt b 0)).parked then reply r stOk 0 [0] d
    else if !(d.fn (byteAt b 0)).pmeEn then reply r stDenied 1 [] d
    else if (d.fn (byteAt b 0)).woken then reply r stOk 0 [if (d.link (byteAt b 0)).wakeSince.isSome then 2 else 1] d
    else reply r stOk 0 [(wakeSignal (byteAt b 0) d).1] (wakeSignal (byteAt b 0) d).2 := by
  unfold wake
  dsimp only
  rw [checks_clean]
  simp [hex, hzero, Nat.not_lt.2 (Nat.le_of_lt_succ hf)]

theorem wake_unparked (h : (d.fn (byteAt b 0)).parked = false) : wake r b d = reply r stOk 0 [0] d := by
  rw [wake_named hf hex hzero, h, Bool.not_false, if_pos rfl]

theorem wake_denied (h : (d.fn (byteAt b 0)).parked = true) (hpme : (d.fn (byteAt b 0)).pmeEn = false) :
    wake r b d = reply r stDenied 1 [] d := by
  rw [wake_named hf hex hzero, h, hpme, Bool.not_true, if_neg Bool.false_ne_true, Bool.not_false, if_pos rfl]

theorem wake_signals (h : (d.fn (byteAt b 0)).parked = true) (hpme : (d.fn (byteAt b 0)).pmeEn = true)
    (hnew : (d.fn (byteAt b 0)).woken = false) :
    wake r b d = reply r stOk 0 [(wakeSignal (byteAt b 0) d).1] (wakeSignal (byteAt b 0) d).2 := by
  rw [wake_named hf hex hzero, h, hpme, hnew, Bool.not_true, if_neg Bool.false_ne_true, if_neg Bool.false_ne_true,
    if_neg Bool.false_ne_true]

end Wake

/-- The manager sets any slot of a function that exists. -/
theorem wakeSlotSet_manager {e : Exec} {b : List Byte} {d : Dev} (hf : byteAt b 0 < 32)
    (hex : d.fnExists (byteAt b 0) = true) (hn : byteAt b 1 < 16) (hen : byteAt b 2 < 2) (hzero : byteAt b 3 = 0)
    (hslice : e.slice ≥ 4096) : wakeSlotSet .manager e b d = reply .manager stOk 0 []
      (setFlag (aWp (byteAt b 0) (byteAt b 1) + 0x14) 0 (bit (byteAt b 2) 0)
        (setReg (aWp (byteAt b 0) (byteAt b 1) + 0x10) (word (le b 20 4))
          (each (List.range 4) (fun k => setReg (aWp (byteAt b 0) (byteAt b 1) + 4 * k) (word (le b (4 + 4 * k) 4)))
            d))) := by
  have hany : (decide (e.slice < 4096) && !d.ownsWake e.slice (byteAt b 0) (byteAt b 1)) = false := by
    rw [decide_eq_false (Nat.not_lt.2 hslice), Bool.false_and]
  unfold wakeSlotSet
  dsimp only
  rw [checks_clean, hany, if_neg Bool.false_ne_true]
  simp [hex, hzero, Nat.le_of_lt_succ hf, Nat.le_of_lt_succ hn, Nat.le_of_lt_succ hen]

/-- Settles O9: each command as its lemma above says, where it runs. -/
theorem nopAndWakeCommandsAnswer : Obligations.NopAndWakeCommandsAnswer := by
  unfold Obligations.NopAndWakeCommandsAnswer
  refine ⟨⟨?answers, ?fences⟩, ⟨?unparked, ?denied, ?signals⟩, ?slot⟩
  case answers =>
    intro s r p e b h hnone
    rw [exec_nop h, nop_answers hnone]
  case fences =>
    intro s r p e b h hstaged
    rw [exec_nop h, nop_fences (runs_exec s r _ p e b h) hstaged]
  case unparked =>
    intro s r p e b h hf hex hzero hpark
    rw [exec_wake h, wake_unparked hf hex hzero hpark]
  case denied =>
    intro s r p e b h hf hex hzero hpark hpme
    rw [exec_wake h, wake_denied hf hex hzero hpark hpme]
  case signals =>
    intro s r p e b h hf hex hzero hpark hpme hnew
    rw [exec_wake h, wake_signals hf hex hzero hpark hpme hnew]
  case slot =>
    intro s p e b h hf hex hn hen hzero hslice
    rw [exec_wakeSlotSet h, wakeSlotSet_manager hf hex hn hen hzero hslice]

end Sys2Proof.Proofs
end

section
/-!
PROOF. O35 and O37: a function's enables, power states and masks, the completions of the adapter's reads, and ATS
invalidations. First what each configuration write does and what each end of a read serves; the statements are put
together from these.
-/
namespace Sys2Proof.Proofs
open Sys2Proof Sys2Proof.Machine Sys2Proof.Laws

/-! ### Configuration writes, completed at once or later (R98, R100) -/

/-- With no earlier one waiting, a write is done and completed, or waits for what it has begun. -/
theorem cfgWrite_idle {f : Nat} {d : Dev} (hex : d.fnExists f = true) (hup : d.dlUp f = true) (hready : d.ready = true)
    (hflr : (d.fn f).flr = false) (hclosing : (d.fn f).closing = none) (go : Dev → Dev) :
    cfgWrite f false go d = cfgWritten f (go d) := by
  have hnow : closeNow f d = d := by rw [closeNow, hclosing]
  rw [cfgWrite_served hex hup hready hflr, if_neg Bool.false_ne_true, hnow]

theorem closeNow_bme {f : Nat} {d : Dev} {c : Closing} (hc : (d.fn f).closing = some c) (h3 : c.d3 = false) :
    closeNow f d = emit (.completion f 0 [] false) (bmeHalted f d) := by
  simp only [closeNow, hc, h3, Bool.false_eq_true, if_false]

theorem closeNow_d3 {f : Nat} {d : Dev} {c : Closing} (hc : (d.fn f).closing = some c) (h3 : c.d3 = true) :
    closeNow f d = emit (.completion f 0 [] false) (d3Entered f d) := by
  simp only [closeNow, hc, h3, if_true]

section Exec
variable (f : Fin 32) (s : State)

theorem exec_busMasterDisable :
    exec (.busMasterDisable f) s = .next (s.withDev (cfgWrite f false (bmeClear f) s.dev)) := rfl

theorem exec_busMasterEnable :
    exec (.busMasterEnable f) s = .next (s.withDev (cfgWrite f false (bmeSet f) s.dev)) := rfl

theorem exec_d3hotEntry : exec (.d3hotEntry f) s = .next (s.withDev (cfgWrite f false (d3Enter f) s.dev)) := rfl

theorem exec_d0Return : exec (.d0Return f) s = .next (s.withDev (cfgWrite f false (d0Enter f) s.dev)) := rfl

theorem exec_pasidEnableWrite (on : Bool) :
    exec (.pasidEnableWrite f on) s = .next (s.withDev (cfgWrite f false (pasidWrite f on) s.dev)) := rfl

theorem exec_atsEnableWrite (on : Bool) :
    exec (.atsEnableWrite f on) s = .next (s.withDev (cfgWrite f false (atsWrite f on) s.dev)) := rfl

end Exec

/-- The function's own mask lies in configuration space (R89). -/
theorem msixUnmask_function (f : Nat) (d : Dev) :
    msixUnmask f none d = cfgWrite f false (functionMask f false) d := rfl

theorem functionMask_clear (f : Nat) (d : Dev) :
    functionMask f false d = msixFlush f (updFn f (fun x => { x with msixMask := false }) d) := rfl

section Enables
variable {f : Nat} {d : Dev}

/-- The function stops, its reads are forgotten but for translations, and the writes already started go on (R98). -/
theorem bmeClear_set (h : (d.fn f).bme = true) : bmeClear f d = advance f (msixPark f
    (updFn f (fun x => { x with
        reads := x.reads.filter (·.purpose == .translation), xdenied := [], xnone := []
        xq := x.xq.filter fun r => match r.out with | .memRead _ _ _ _ _ => false | _ => true })
      (fnStop f stAborted (updFn f (fun x => { x with
        bme := false, closing := some { d3 := false, due := d.time + 2000 } }) d)))) :=
  if_neg (by simp [h])

theorem bmeSet_clear (h : (d.fn f).bme = false) :
    bmeSet f d = resumeHeld f (updFn f (fun x => { x with bme := true }) d) := by
  rw [bmeSet, h, if_neg Bool.false_ne_true]

/-- Segments of the function's exporters and its flushing reads end ABORTED (R100, R339). -/
theorem d3Enter_d0 (h : (d.fn f).d3 = false) : d3Enter f d = advance f (msixPark f
    (each ((d.fn f).reads.filterMap fun r => match r.purpose with | .flush _ _ => some r.tag | _ => none)
      (fun t => flushEnd f t stAborted)
      (abortFlights (fun e _ => d.sliceOfFn f e.exporter) stAborted
        (updFn f (fun x => { x with closing := some { d3 := true, due := d.time + 100000 } }) d)))) :=
  if_neg (by simp [h])

/-- L1 is left with D3hot (R68, R101). -/
theorem d0Enter_d3 (h : (d.fn f).d3 = true) : d0Enter f d = resumeHeld f
    (setHlState f (if d.hlState f = 6 then 4 else d.hlState f) (unpark f (updFn f (fun x => { x with d3 := false }) d))) := by
  rw [d0Enter, h, Bool.not_true, if_neg Bool.false_ne_true]

theorem pasidWrite_on (h : (d.fn f).pasidEn = false) :
    pasidWrite f true d = resumeHeld f (updFn f (fun x => { x with pasidEn := true }) d) := by
  rw [pasidWrite, h, if_neg (by decide), if_pos rfl]

theorem pasidWrite_off (h : (d.fn f).pasidEn = true) :
    pasidWrite f false d = fnStop f stAborted (updFn f (fun x => { x with pasidEn := false }) d) := by
  rw [pasidWrite, h, if_neg (by decide), if_neg Bool.false_ne_true]

theorem atsWrite_on : atsWrite f true d = updFn f (fun x => { x with atsEn := true }) d := if_pos rfl

/-- The ATC is emptied, and what waited for a translation leaves without (R96). -/
theorem atsWrite_off : atsWrite f false d = advance f (updFn f (fun x => { x with
    atsEn := false, atc := [], xnone := [], xq := x.xq.map fun r => { r with wait := none }
    reads := x.reads.filter (·.purpose != .translation) }) d) :=
  if_neg Bool.false_ne_true

end Enables

/-- Settles O35: each write's effect is the lemma above about it, and its completion follows or waits. -/
theorem functionEnablesTakeEffect : Obligations.FunctionEnablesTakeEffect := by
  unfold Obligations.FunctionEnablesTakeEffect
  refine ⟨fun s f done hex hup hready hflr hclosing hdone => ?writes, fun d f c hc => ⟨closeNow_bme hc, ?inD3⟩⟩
  case writes =>
    have hwrite (go : Dev → Dev) : s.withDev (cfgWrite f false go s.dev) = done (go s.dev) := by
      rw [cfgWrite_idle hex hup hready hflr hclosing, hdone, cfgWritten]
    refine ⟨fun h => ?_, fun h => ?_, fun h => ?_, fun h => ?_, fun h => ?_, fun h => ?_, ?_, ?_, ?_⟩
    · rw [exec_busMasterDisable, hwrite]
      exact congrArg (fun d => Host.Outcome.next (done d)) (bmeClear_set h)
    · rw [exec_busMasterEnable, hwrite, bmeSet_clear h]
    · rw [exec_d3hotEntry, hwrite]
      exact congrArg (fun d => Host.Outcome.next (done d)) (d3Enter_d0 h)
    · rw [exec_d0Return, hwrite, d0Enter_d3 h]
    · rw [exec_pasidEnableWrite, hwrite, pasidWrite_on h]
    · rw [exec_pasidEnableWrite, hwrite, pasidWrite_off h]
    · rw [exec_atsEnableWrite, hwrite, atsWrite_on]
    · rw [exec_atsEnableWrite, hwrite, atsWrite_off]
    · rw [exec_msixUnmask, msixUnmask_function, hwrite, functionMask_clear]
  case inD3 =>
    intro h3
    rw [closeNow_d3 hc h3, d3Entered]

/-! ### Completions of the adapter's reads (R92, R93, R96) -/

/-- A Translation Request that is outstanding ends with an entry for the ATC. -/
theorem exec_translationCompletion {s : State} {f : Fin 32} {tag : Nat} {r : OutRead}
    (hr : (s.dev.fn f).readOf tag = some r) (hp : r.purpose = .translation) (base len xlat : Nat) (rd wr : Bool) :
    exec (.translationCompletion f tag base len xlat rd wr) s =
      .next (s.withDev (translated f tag [⟨r.pasid, base, len, xlat, rd, wr⟩] s.dev)) := by
  have hout : s.dev.translation f tag = some r := by simp [Dev.translation, hr, hp]
  refine congrArg Host.Outcome.next ?_
  rw [onDev_eq_withDev, hout]

theorem exec_readCompletion {s : State} {f : Fin 32} (hex : s.dev.fnExists f = true) (hup : s.dev.dlUp f = true)
    (tag : Nat) (res : Read) : exec (.readCompletion f tag res) s = .next (s.withDev (readEnd f tag res s.dev)) := by
  refine congrArg Host.Outcome.next ?_
  rw [onDev_eq_withDev, if_pos (by rw [hex, hup]; rfl)]

theorem exec_completionTimeout (f : Fin 32) (tag : Nat) (s : State) :
    exec (.completionTimeout f tag) s = .next (s.withDev (completionTimeout f tag s.dev)) := rfl

section ReadEnd
variable {f tag : Nat} {d : Dev}

/-- A completion that matches no tag is an Unexpected Completion (R91). -/
theorem readEnd_unmatched (h : (d.fn f).readOf tag = none) (res : Read) :
    readEnd f tag res d = aerUnc f erUnexpected true (count (aFn f 0x14) d) := by
  unfold readEnd
  rw [h]

variable {r : OutRead} (hr : (d.fn f).readOf tag = some r)
include hr

theorem readEnd_serves (hp : r.purpose ≠ .translation) (res : Read) :
    readEnd f tag res d = proceed f (serveRead f tag res d) := by
  unfold readEnd
  rw [hr]
  dsimp only
  split
  · contradiction
  · rfl

/-- Data never ends a Translation Request. -/
theorem readEnd_translation (hp : r.purpose = .translation) (b : List Byte) : readEnd f tag (.ok b) d = d := by
  simp only [readEnd, hr, hp]

theorem serveRead_descriptors {o : Owner} {q : Nat} (hp : r.purpose = .descriptors o q) (res : Read) :
    serveRead f tag res d = descsEnd f o q tag res d := by
  simp only [serveRead, hr, hp]

theorem serveRead_jobData {o : Owner} {q : Nat} (hp : r.purpose = .jobData o q) (res : Read) :
    serveRead f tag res d = txJob o q res d := by
  simp only [serveRead, hr, hp]

theorem serveRead_segment {o : Owner} {q k : Nat} (hp : r.purpose = .segment o q k) (res : Read) :
    serveRead f tag res d = segmentEnd o q k (segEnd (!d.xferWrites o q) res) d := by
  simp only [serveRead, hr, hp]

theorem flushOpen_of {h : Option Nat} {js : List Nat} (hp : r.purpose = .flush h js) : d.flushOpen f tag = true := by
  have hfound : (d.fn f).reads.find? (·.tag == tag) = some r := hr
  have htag := List.find?_some hfound
  exact List.any_eq_true.2 ⟨r, List.mem_of_find?_eq_some hfound, by simpa [hp] using htag⟩

theorem serveRead_flush {h : Option Nat} {js : List Nat} (hp : r.purpose = .flush h js) :
    serveRead f tag (.ok []) d = flushEnd f tag stOk d := by
  simp only [serveRead, hr, hp, flushDone, flushOpen_of hr hp, if_true]
  rfl

/-- The timeout runs from when the read was sent (R93). -/
theorem completionTimeout_ends (hsent : r.sent.isEmpty = false) :
    completionTimeout f tag d = readEnd f tag .timeout (timeTo (r.start + (d.fn f).cplLimit tag) d) := by
  simp only [completionTimeout, hr, hsent, Bool.false_eq_true, if_false]

end ReadEnd

/-- Descriptors whose read failed fail their queue, behind the report of the failure. -/
theorem descsEnd_timeout (f : Nat) (o : Owner) (q tag : Nat) (d : Dev) :
    descsEnd f o q tag .timeout d = fetchFailed o q .timeout (dmaFail f .timeout (dropTag f tag d)) := rfl

/-! ### Invalidations (R97) -/

theorem invalsOk_of {f : Nat} {d : Dev} (hex : d.fnExists f = true) (hup : d.dlUp f = true)
    (hflr : (d.fn f).flr = false) : d.invalsOk f = true := by
  rw [Dev.invalsOk, hex, hup, hflr]
  rfl

theorem exec_atsInvalidation {s : State} {f : Fin 32} (h : s.dev.invalsOk f = true) (itag : Nat) (pasid : Option Nat)
    (base len : Nat) : exec (.atsInvalidation f itag pasid base len) s =
      .next (s.withDev (invalBegin f itag pasid base len s.dev)) := by
  refine congrArg Host.Outcome.next ?_
  rw [onDev_eq_withDev, if_pos h]

theorem exec_atsInvalidationDone {s : State} {f : Fin 32} (h : s.dev.invalsOk f = true) (itag : Nat) :
    exec (.atsInvalidationDone f itag) s = .next (s.withDev (invalEnd f itag s.dev)) := by
  refine congrArg Host.Outcome.next ?_
  rw [onDev_eq_withDev, if_pos h]

/-- The Invalidation Completion leaves behind what the invalidation let go on. -/
def invalComplete (f itag : Nat) (d : Dev) : Dev :=
  emit (.invalidated f itag) (updFn f (fun x => { x with invals := x.invals.filter (·.itag != itag) }) (proceed f d))

section InvalEnd
variable {f itag : Nat} {d : Dev} {v : Inval} (hv : (d.fn f).invals.find? (·.itag == itag) = some v)
include hv

/-- Every read that it waited for is over. -/
theorem invalEnd_over (h : ∀ t ∈ v.open_, (d.fn f).readOf t = none) : invalEnd f itag d = invalComplete f itag d := by
  have hleft : (v.open_.filter fun t => ((d.fn f).readOf t).isSome) = [] := by
    rw [List.filter_eq_nil_iff]
    intro t ht
    simp [h t ht]
  simp only [invalEnd, hv, hleft]
  rfl

/-- What is still open at 40 µs is abandoned. -/
theorem invalEnd_abandons {l : List Nat} (hl : l = v.open_.filter fun t => ((d.fn f).readOf t).isSome) (hne : l ≠ []) :
    invalEnd f itag d = invalComplete f itag (each l (fun t d => serveRead f t .timeout (count (aFn f 0x28) d))
      (timeTo (v.start + 40000) d)) := by
  have hsome : (!l.isEmpty) = true := by simpa using hne
  simp only [invalEnd, hv, ← hl, hsome, when_true]
  rfl

end InvalEnd

/-- Settles O37: each end of a read and each step of an invalidation as the lemmas above say. -/
theorem readsAndInvalidationsEnd : Obligations.ReadsAndInvalidationsEnd := by
  unfold Obligations.ReadsAndInvalidationsEnd
  refine ⟨⟨?translation, ?unmatched, ?matched, ?timeout⟩, ?begins, ?done⟩
  case translation =>
    intro s f tag base len xlat rd wr r hr hp
    rw [exec_translationCompletion hr hp]
    rfl
  case unmatched =>
    intro s f tag res hex hup hr
    rw [exec_readCompletion hex hup, readEnd_unmatched hr]
  case matched =>
    intro s f tag r hex hup hr
    have hserve (res : Read) (hp : r.purpose ≠ .translation) :
        exec (.readCompletion f tag res) s = .next (s.withDev (proceed f (serveRead f tag res s.dev))) := by
      rw [exec_readCompletion hex hup, readEnd_serves hr hp]
    refine ⟨fun o q b hp => ?_, fun o q res hp => ?_, fun o q k b hp => ?_, fun h js hp => ?_, fun hp b => ?_⟩
    · rw [hserve _ (by simp [hp]), serveRead_descriptors hr hp, descsEnd]
    · rw [hserve _ (by simp [hp]), serveRead_jobData hr hp]
    · rw [hserve _ (by simp [hp]), serveRead_segment hr hp, segEnd]
    · rw [hserve _ (by simp [hp]), serveRead_flush hr hp]
    · rw [exec_readCompletion hex hup, readEnd_translation hr hp]
      rfl
  case timeout =>
    intro s f tag r o q d hr hsent hd hstill hp
    rw [exec_completionTimeout, completionTimeout_ends hr hsent, ← hd, readEnd_serves hstill (by simp [hp]),
      serveRead_descriptors hstill hp, descsEnd_timeout]
  case begins =>
    intro s f itag pasid base len sent hex hup hflr hsent
    rw [exec_atsInvalidation (invalsOk_of hex hup hflr), invalBegin, ← hsent]
  case done =>
    intro s f itag v hex hup hflr hv
    rw [exec_atsInvalidationDone (invalsOk_of hex hup hflr)]
    exact ⟨fun h => by rw [invalEnd_over hv h, invalComplete],
      fun l hl hne => by rw [invalEnd_abandons hv hl hne, invalComplete]⟩

end Sys2Proof.Proofs
end

section
/-!
PROOF. O34: TX jobs are sent, and received packets are placed in host memory. First what the report of a failed read leaves
alone, then what becomes of a job's data and of a packet for an RX queue; the statement is put together from these.
-/
namespace Sys2Proof.Proofs
open Sys2Proof Sys2Proof.Machine Sys2Proof.Laws

/-! ### The report of a failed read (R92, R93) -/

section Report
variable {β : Type} (g : Dev → β) (hg : ∀ (x : Dev) o f r n, g { x with out := o, fns := f, regs := r, free := n } = g x)
include hg

theorem emit_keeps (o : Output) (d : Dev) : g (emit o d) = g d := hg d _ _ _ _

theorem updFn_keeps (f : Nat) (x : Fn → Fn) (d : Dev) : g (updFn f x d) = g d := hg d _ _ _ _

theorem drawWord_keeps (d : Dev) : g (drawWord d).2 = g d := hg d _ _ _ _

theorem aerHeader_keeps (f b : Nat) (d : Dev) : g (aerHeader f b d) = g d := by
  unfold aerHeader
  dsimp only
  split_ifs
  · rfl
  · rw [updFn_keeps g hg, drawWord_keeps g hg, drawWord_keeps g hg, drawWord_keeps g hg, drawWord_keeps g hg]
  · exact updFn_keeps g hg f _ d

theorem aerUnc_keeps (f b : Nat) (adv : Bool) (d : Dev) : g (aerUnc f b adv d) = g d := by
  unfold aerUnc
  dsimp only
  split
  · rw [when_apply g, emit_keeps g hg, ite_self, updFn_keeps g hg, updFn_keeps g hg, aerHeader_keeps g hg]
  · rw [when_apply g, emit_keeps g hg, ite_self, updFn_keeps g hg, aerHeader_keeps g hg]

theorem when_count_keeps (c : Bool) (k : Nat) (d : Dev) : g (when c (count k) d) = g d := by
  rw [when_apply g]
  split
  · exact hg d _ _ _ _
  · rfl

theorem dmaFail_keeps (f : Nat) (r : Read) (d : Dev) : g (dmaFail f r d) = g d := by
  cases r with
  | ok b => rfl
  | aborted => exact when_count_keeps g hg _ _ d
  | poisoned b =>
    exact (aerUnc_keeps g hg f _ _ _).trans ((when_count_keeps g hg _ _ _).trans (when_count_keeps g hg _ _ d))
  | denied => exact (aerUnc_keeps g hg f _ _ _).trans (when_count_keeps g hg _ _ d)
  | internal b => exact (aerUnc_keeps g hg f _ _ _).trans (when_count_keeps g hg _ _ d)
  | timeout => exact (aerUnc_keeps g hg f _ _ _).trans (when_count_keeps g hg _ _ d)

end Report

/-! ### The oldest job of a TX queue (R116, R315) -/

theorem exec_txJob (o : Owner) (q : Nat) (res : Read) (s : State) :
    exec (.txJob o q res) s = .next (s.withDev (txJob o q res s.dev)) := rfl

/-- Job j is the oldest of TX queue q, a packet's, and nothing keeps its data from being read untranslated. -/
structure TxFront (o : Owner) (q : Nat) (j : Job) (d : Dev) : Prop where
  front : ∃ x js, d.queue o q = some x ∧ x.jobs = j :: js ∧ x.kind = .tx
  sound : j.fault = none
  op : dOp (j.descs.headD []) = 1
  may : d.ownerMay o = true
  free : ((d.jobCtx o (j.descs.headD [])).map d.ctxHeld).getD false = false
  direct : d.direct (d.fnOf o) (j.descs.map fun b => (dAddr b, dLen b)) = true

/-- What the read of a job's data makes of the job. -/
def txData (o : Owner) (q : Nat) (descs : List (List Byte)) (res : Read) (d : Dev) : Dev := match res with
  | .ok b => txRun o q descs false (padTo (jobLen descs) b) d
  | .poisoned b => txRun o q descs true (padTo (jobLen descs) b) d
  | r => endJob o q (readStatus r) 0 0 d

theorem TxFront.txJob_eq {o : Owner} {q : Nat} {j : Job} {d : Dev} (h : TxFront o q j d) (res : Read) :
    txJob o q res d = settleQueue o q (txData o q j.descs res (dmaFail (d.fnOf o) res d)) := by
  obtain ⟨⟨x, js, hx, hjobs, hkind⟩, hsound, hop, hmay, hfree, hdirect⟩ := h
  have hgo : (x.kind != .tx || j.fault.isSome || dOp (j.descs.headD []) != 1 || !d.ownerMay o) = false := by
    rw [hkind, hsound, hop, hmay]
    rfl
  unfold txJob
  rw [hx]
  dsimp only
  rw [hjobs]
  dsimp only
  rw [hgo, hfree, if_neg Bool.false_ne_true, if_neg Bool.false_ne_true, withRead_direct _ _ _ _ _ _ hdirect]
  cases res <;> rfl

theorem and_isNone_eq_false {α : Type} {c : Bool} {x : Option α} (h : c = true → x.isSome = true) :
    (c && x.isNone) = false := by
  cases c with
  | false => rfl
  | true => rw [← Option.not_isSome, h rfl]; rfl

section Run
variable {o : Owner} {q : Nat} {descs : List (List Byte)} {data job : List Byte} {d : Dev} {y : Parse}
  (hjob : job = txVlan (descs.headD []) data)
  (hy : y = (parsePacket d.gens.rules.pol [] job (0x1000 + d.fnOf o) 0xFFFF none false false).raw)
include hjob hy

/-- TSO without a TCP header fails. -/
theorem txRun_headless (htso : bit (byteAt (descs.headD []) 1) 3 = true) (hno : y.tcpHdr = none) (poisoned : Bool) :
    txRun o q descs poisoned data d = endJob o q stBadParam 1 data.length d := by
  subst hjob hy
  exact if_pos (by rw [htso, hno]; rfl)

variable (htcp : bit (byteAt (descs.headD []) 1) 3 = true → y.tcpHdr.isSome = true)
include htcp

/-- Poisoned data is sent on with its mark. -/
theorem txRun_poisoned : txRun o q descs true data d = txAccept none o q (byteAt (descs.headD []) 24 % 8) data.length true
    (d.jobCtx o (descs.headD [])) stPoisoned (txPackets y (descs.headD []) job) d := by
  have hgo := and_isNone_eq_false htcp
  subst hjob hy
  simp only [txRun, hgo, Bool.false_eq_true, if_false, if_true]

theorem txRun_unbound (hctx : d.jobCtx o (descs.headD []) = none) : txRun o q descs false data d =
    txAccept none o q (byteAt (descs.headD []) 24 % 8) data.length false none stOk (txPackets y (descs.headD []) job) d := by
  have hgo := and_isNone_eq_false htcp
  subst hjob hy
  simp only [txRun, hgo, hctx, Bool.false_eq_true, if_false]

theorem txRun_bound {c : Nat} (hctx : d.jobCtx o (descs.headD []) = some c) :
    txRun o q descs false data d = txBound o q c descs y job data.length d := by
  have hgo := and_isNone_eq_false htcp
  subst hjob hy
  simp only [txRun, hgo, hctx, Bool.false_eq_true, if_false]

end Run

/-- The report of the failure changes neither the parse policy nor what a job's owner holds. -/
theorem txRun_dmaFail_poisoned {o : Owner} {q f : Nat} {descs : List (List Byte)} {data job b : List Byte} {d : Dev}
    {y : Parse} (hf : f = d.fnOf o) (hjob : job = txVlan (descs.headD []) data)
    (hy : y = (parsePacket d.gens.rules.pol [] job (0x1000 + f) 0xFFFF none false false).raw)
    (htcp : bit (byteAt (descs.headD []) 1) 3 = true → y.tcpHdr.isSome = true) :
    txRun o q descs true data (dmaFail f (.poisoned b) d) = endJob o q stPoisoned 0 data.length
      (each (txPackets y (descs.headD []) job)
        (fun b => addPacket (txPacket o f (byteAt (descs.headD []) 24 % 8) true (d.jobCtx o (descs.headD [])) b))
        (dmaFail f (.poisoned b) d)) := by
  have hpol := dmaFail_keeps Dev.gens (fun _ _ _ _ _ => rfl) f (.poisoned b) d
  have hfn : (dmaFail f (.poisoned b) d).fnOf o = f :=
    (dmaFail_keeps (·.fnOf o) (fun _ _ _ _ _ => rfl) f (.poisoned b) d).trans hf.symm
  have hctx := dmaFail_keeps (·.jobCtx o (descs.headD [])) (fun _ _ _ _ _ => rfl) f (.poisoned b) d
  rw [txRun_poisoned hjob (by rw [hy, hpol, hfn]) htcp, txAccept, hfn, hctx, endJob]

/-! ### The oldest packet that waits for a host link (R123-R125) -/

theorem exec_rxPlacement (i : Nat) (descs : Read) (s : State) :
    exec (.rxPlacement i descs) s = .next (s.withDev (rxPlacement i descs s.dev)) := rfl

theorem rxPlacement_checks {i f : Nat} {p : Packet} {o : Owner} {q : Option Nat} {d : Dev} (hp : d.packet i = some p)
    (hloc : p.loc = .hostOut f) (holdest : (d.pkts.takeWhile (·.id != i)).any (fun x => x.loc == .hostOut f) = false)
    (hon : d.hlOn f = true) (hrecv : p.receiver = some (o, q)) (descs : Read) :
    rxPlacement i descs d = rxChecks f o q descs p d := by
  simp only [rxPlacement, hp, hloc, holdest, hon, hrecv, Bool.not_true, Bool.false_eq_true, if_false]

/-- The function takes the packet. -/
theorem rxChecks_passes {f : Nat} {o : Owner} {d : Dev} (hpark : (d.fn f).parked = false) (htakes : d.sliceTakes o = true)
    (hup : d.dlUp f = true) (hreset : (d.link f).resetting = false) (hflr : (d.fn f).flr = false)
    (hbme : (d.fn f).bme = true) (hpasid : ∀ k, o = .slice k → (d.fn f).pasidEn = true) (q : Option Nat) (descs : Read)
    (p : Packet) : rxChecks f o q descs p d = rxToQueue o q descs p d := by
  simp only [rxChecks, hpark, htakes, hup, hreset, hflr, hbme, Bool.not_true, Bool.or_self, Bool.false_eq_true, if_false]
  cases o with
  | function g => rfl
  | slice k => rw [hpasid k rfl]; rfl

section Queue
variable {o : Owner} {q : Option Nat} {q' h : Nat} {p : Packet} {d : Dev} {x : Queue} {l : List (List Byte)}

section Running
variable (hq : rxQueue o q p d = (some q', h)) (hx : d.queue o q' = some x) (hkind : x.kind = .rx)
  (hreason : x.reason = none)
include hq hx hkind hreason

theorem rxToQueue_shut (hshut : d.cqShut o x.cq = true) (descs : Read) : rxToQueue o q descs p d =
    rxDrop o p 0x4104 true (updQueue o q' (fun x => { x with cqFull := min (x.cqFull + 1) 0xFFFF }) d) := by
  simp only [rxToQueue, hq, hx, hkind, hreason, hshut, bne_self_eq_false, Option.isSome_none, Bool.false_eq_true, if_false,
    if_true]

theorem rxToQueue_reads (hopen : d.cqShut o x.cq = false)
    (hdirect : d.direct (d.fnOf o) (ringRange x.base 32 x.n x.fetch (min 64 x.unread)) = true) (b : List Byte) :
    rxToQueue o q (.ok b) p d = rxBuffers o q' h ((chunks 32 b).take x.unread) p d := by
  simp only [rxToQueue, hq, hx, hkind, hreason, hopen, bne_self_eq_false, Option.isSome_none, Bool.false_eq_true, if_false]
  rw [withRead_direct _ _ _ _ _ _ hdirect]

end Running

variable (hfaulty : rxFaulty o q' l d = (l, d)) (hx : d.queue o q' = some x) (hopen : d.cqShut o x.cq = false)
include hfaulty hx hopen

theorem rxBuffers_places {bufs : List (List Byte)}
    (hroom : rxReserve x.rxMeta (p.bytes.length + (if x.rxMeta then 32 else 0)) 64 l = some bufs) :
    rxBuffers o q' h l p d = (rxFaulty o q' (l.drop bufs.length) (rxPlace o q' x h bufs p d)).2 := by
  simp only [rxBuffers, hfaulty, hx, hopen, hroom, Bool.false_eq_true, if_false]

theorem rxBuffers_lacks (hroom : rxReserve x.rxMeta (p.bytes.length + (if x.rxMeta then 32 else 0)) 64 l = none) :
    rxBuffers o q' h l p d =
      rxDrop o p 0x4100 true (updQueue o q' (fun x => { x with noBuf := min (x.noBuf + 1) 0xFFFF }) d) := by
  simp only [rxBuffers, hfaulty, hx, hopen, hroom, Bool.false_eq_true, if_false]

end Queue

/-- Settles O34: a job's data and a packet for an RX queue go the ways that the lemmas above say. -/
theorem packetsLeaveAndReachHostMemory : Obligations.PacketsLeaveAndReachHostMemory := by
  unfold Obligations.PacketsLeaveAndReachHostMemory
  refine ⟨?tx, ?rx⟩
  case tx =>
    rintro s o q x j js ds f hx hjobs hkind hsound rfl hop hmay hf hfree hdirect
    have hfront : TxFront o q j s.dev := ⟨⟨x, js, hx, hjobs, hkind⟩, hsound, hop, hmay, hfree, hf ▸ hdirect⟩
    simp only [exec_txJob, hfront.txJob_eq, txData, ← hf]
    refine ⟨?sent, ?headless, ?failed⟩
    case sent =>
      intro b data job y hdata hjob hy htcp
      have hy' : y = (parsePacket s.dev.gens.rules.pol [] job (0x1000 + s.dev.fnOf o) 0xFFFF none false false).raw :=
        hf ▸ hy
      rw [← hdata]
      refine ⟨fun hctx => ?_, fun c hctx => ?_, ?_⟩
      · rw [dmaFail, txRun_unbound hjob hy' htcp hctx, txAccept, ← hf, endJob]
      · rw [dmaFail, txRun_bound hjob hy' htcp hctx]
      · rw [txRun_dmaFail_poisoned hf hjob hy htcp]
    case headless =>
      intro b data job hdata hjob htso hno
      rw [← hdata, dmaFail, txRun_headless hjob rfl htso (hf ▸ hno)]
    case failed =>
      rintro r (rfl | rfl | rfl) <;> rfl
  case rx =>
    intro s i p f o q q' h x b l hp hloc holdest hon hrecv hpark htakes hup hreset hflr hbme hpasid hq hx hkind hreason hl
    rw [exec_rxPlacement, rxPlacement_checks hp hloc holdest hon hrecv,
      rxChecks_passes hpark htakes hup hreset hflr hbme hpasid]
    refine ⟨fun hshut => by rw [rxToQueue_shut hq hx hkind hreason hshut], fun hopen hdirect hfaulty => ?_⟩
    rw [rxToQueue_reads hq hx hkind hreason hopen hdirect, ← hl]
    constructor
    · rintro bufs hroom i' d1 d2 d3 rfl rfl rfl rfl
      rw [rxBuffers_places hfaulty hx hopen hroom]
      cases o <;> rfl
    · intro hroom
      rw [rxBuffers_lacks hfaulty hx hopen hroom]

end Sys2Proof.Proofs
end

section
/-!
PROOF. O14: queues are created, configured, started, stopped and destroyed. First what a queue command that runs for its
owner makes of the state, then each command's meaning where its checks pass; the statement is put together from these.
-/
namespace Sys2Proof.Proofs
open Sys2Proof Sys2Proof.Machine Sys2Proof.Laws

/-! ### Queue commands that run for their owner (R132, R154) -/

/-- A queue command that runs changes the device by its meaning, for the owner that it acts on. -/
theorem onDev_queueCmd_runs {s : State} {r : Ring} {op : Nat} {p : Read} {e : Exec} {b : List Byte} {o : Owner}
    (h : s.runs r op p = some (e, b)) (ho : cmdOwner r e = some o) (f : Owner → List Byte → Dev → Dev) :
    (s.onDev fun _ d => queueCmd r op p f d) = s.withDev (f o b s.dev) := by
  simp only [queueCmd, onDev_command_runs h, ho]

/-- A command on a queue that exists, within the quota and with its reserved bytes 0, goes on. -/
theorem onQueue_found {r : Ring} {o : Owner} {b : List Byte} {d : Dev} {x : Queue} (hquota : le b 0 2 < d.queueQuota o)
    (hzero : zeroAt b 2 2 = true) (hx : d.queue o (le b 0 2) = some x) (go : Nat → Queue → Dev → Dev) :
    onQueue r o b go d = go (le b 0 2) x d := by
  simp only [onQueue, if_neg (Nat.not_le.2 hquota), hzero, hx, Bool.not_true, Bool.false_eq_true, if_false]

section Runs
variable {s : State} {r : Ring} {p : Read} {e : Exec} {b : List Byte} {o : Owner} {x : Queue}

theorem exec_queueCreate (h : s.runs r 0x0201 p = some (e, b)) (ho : cmdOwner r e = some o) :
    exec (.queueCreate r p) s = .next (s.withDev (queueCreate r o b s.dev)) :=
  congrArg Host.Outcome.next (onDev_queueCmd_runs h ho _)

theorem exec_queueQuery (h : s.runs r 0x0205 p = some (e, b)) (ho : cmdOwner r e = some o) :
    exec (.queueQuery r p) s = .next (s.withDev (queueQuery r o b s.dev)) :=
  congrArg Host.Outcome.next (onDev_queueCmd_runs h ho _)

theorem exec_cqModerate (h : s.runs r 0x0206 p = some (e, b)) (ho : cmdOwner r e = some o) :
    exec (.cqModerate r p) s = .next (s.withDev (cqModerateCmd r o b s.dev)) :=
  congrArg Host.Outcome.next (onDev_queueCmd_runs h ho _)

theorem exec_rssSet (h : s.runs r 0x0207 p = some (e, b)) (ho : cmdOwner r e = some o) :
    exec (.rssSet r p) s = .next (s.withDev (rssSet r o b s.dev)) :=
  congrArg Host.Outcome.next (onDev_queueCmd_runs h ho _)

variable (ho : cmdOwner r e = some o) (hquota : le b 0 2 < s.dev.queueQuota o) (hzero : zeroAt b 2 2 = true)
  (hx : s.dev.queue o (le b 0 2) = some x)
include ho hquota hzero hx

theorem exec_queueDestroy (h : s.runs r 0x0202 p = some (e, b)) :
    exec (.queueDestroy r p) s = .next (s.withDev (queueDestroy r o (le b 0 2) x s.dev)) :=
  congrArg Host.Outcome.next ((onDev_queueCmd_runs h ho _).trans
    (congrArg s.withDev (onQueue_found hquota hzero hx _)))

theorem exec_queueStop (h : s.runs r 0x0203 p = some (e, b)) :
    exec (.queueStop r p) s = .next (s.withDev (queueStop r o (le b 0 2) x s.dev)) :=
  congrArg Host.Outcome.next ((onDev_queueCmd_runs h ho _).trans
    (congrArg s.withDev (onQueue_found hquota hzero hx _)))

theorem exec_queueStart (h : s.runs r 0x0204 p = some (e, b)) :
    exec (.queueStart r p) s =
      .next (s.withDev (bmeHaltUpdate (s.dev.fnOf o) (queueStart r o b (le b 0 2) x s.dev))) :=
  congrArg Host.Outcome.next ((onDev_queueCmd_runs h ho _).trans
    (congrArg (fun d => s.withDev (bmeHaltUpdate (s.dev.fnOf o) d)) (onQueue_found hquota hzero hx _)))

end Runs

theorem exec_queueStopAbort (o : Owner) (q : Nat) (s : State) :
    exec (.queueStopAbort o q) s = .next (s.withDev (queueStopAbort o q s.dev)) := rfl

/-! ### Creation, query, moderation and hashing (R128, R132, R134) -/

section Meaning
variable {r : Ring} {o : Owner} {b : List Byte} {d : Dev}

/-- The queue is made, and with it the completion ring that it owns. -/
theorem queueCreate_makes (hquota : le b 0 2 < d.queueQuota o)
    (hfaults : clean (createFaults o (le b 0 2) b d) = true) (hnew : d.queue o (le b 0 2) = none) :
    queueCreate r o b d = reply r stOk 0 []
      { d with queues := mput d.queues (qKey o (le b 0 2)) (newQueue (le b 0 2) b),
               cqs := if bit (byteAt b 3) 0 then mput d.cqs (qKey o (le b 0 2)) (newCq b) else d.cqs } := by
  simp only [queueCreate, if_neg (Nat.not_le.2 hquota)]
  rw [checks_clean _ _ _ _ (by simp [hfaults, hnew])]
  cases bit (byteAt b 3) 0 <;> rfl

theorem queueQuery_answers {x : Queue} (hquota : le b 0 2 < d.queueQuota o) (hzero : zeroAt b 2 2 = true)
    (hx : d.queue o (le b 0 2) = some x) :
    queueQuery r o b d = reply r stOk 0 (queueWords d o (le b 0 2) x)
      (updQueue o (le b 0 2) (fun x => { x with noBuf := 0, cqFull := 0, haltedDrops := 0, stalls := 0 }) d) := by
  simp only [queueQuery, if_neg (Nat.not_le.2 hquota), hzero, hx, Bool.not_true, Bool.false_eq_true, if_false]

theorem cqModerateCmd_stages {c : Cq} (hquota : le b 0 2 < d.queueQuota o) (hflags : byteAt b 3 < 2)
    (htimer : le b 4 2 ≤ 2047) (hvector : d.vectorOk o (le b 6 2) = true) (hown : mayOwnCq o (le b 0 2) = true)
    (hc : d.cq o (le b 0 2) = some c) :
    cqModerateCmd r o b d = reply r stOk 0 [] (updCq o (le b 0 2)
      (fun x => { x with staged := some (byteAt b 2, le b 4 2, le b 6 2, bit (byteAt b 3) 0) }) d) := by
  simp only [cqModerateCmd, if_neg (Nat.not_le.2 hquota)]
  rw [checks_clean _ _ _ _ (by simp [hflags, htimer, hvector, hown, hc])]

/-- A list of checks none of which finds a fault is clean. -/
theorem clean_map_none {f : Nat → Option (Nat × Nat)} {l : List Nat} (h : ∀ i ∈ l, f i = none) :
    clean (l.map f) = true := by
  simpa [clean] using h

theorem rssSet_sets (hfields : le b 0 2 < 64) (hzero : zeroAt b 2 2 = true) (hzero' : zeroAt b 44 4 = true)
    (htable : ∀ i < 256, rssEntryFault d o b i = none) :
    rssSet r o b d = reply r stOk 0 [] (updOwner o (fun x => { x with
      rssFields := le b 0 2, rssKey := bytesAt b 4 40
      rssTable := (List.range 256).foldl (fun m i => mset 0 m i (le b (48 + 2 * i) 2)) [] }) d) := by
  have hentries : clean ((List.range 256).map (rssEntryFault d o b)) = true :=
    clean_map_none fun i hi => htable i (List.mem_range.1 hi)
  rw [rssSet, checks_clean _ _ _ _ (by simp [hfields, hzero, hzero', hentries])]

/-! ### Stop, destruction and start (R130, R131, R132) -/

variable {q : Nat} {x : Queue}

theorem queueDestroy_halted (hshared : d.cqShared o q = false) (hhalted : x.halted.isSome = true) :
    queueDestroy r o q x d = reply r stOk 0 [] (removeQueue o q d) := by
  obtain ⟨reason, hreason⟩ := Option.isSome_iff_exists.1 hhalted
  simp only [queueDestroy, hshared, hreason, Bool.false_eq_true, if_false]

theorem queueDestroy_running (hshared : d.cqShared o q = false) (hhalted : x.halted = none) (hending : x.ending = none) :
    queueDestroy r o q x d =
      endQueue o q { reason := 4, status := stOk, since := d.time, destroy := some r } (begin' r d) := by
  simp only [queueDestroy, hshared, hhalted, hending, Bool.false_eq_true, if_false]

theorem queueStop_halted (h : x.reason.isSome = true) :
    queueStop r o q x d = reply r stOk 0 [posWord x.n x.head] d := if_pos h

theorem queueStop_running (h : x.reason = none) : queueStop r o q x d =
    endQueue o q { reason := 4, status := stOk, since := d.time, stop := some r } (begin' r d) :=
  if_neg (by rw [h]; exact Bool.false_ne_true)

theorem queueStopAbort_aborts {w : Ending} (hx : d.queue o q = some x) (hw : x.ending = some w) :
    queueStopAbort o q d =
      endIfIdle o q (abortJobs o q stAborted x.jobs.length (timeTo (w.since + 100000) d)) := by
  simp only [queueStopAbort, hx, hw]

/-- A halted queue runs on from the position given; one that a Bus Master Enable clear halted, once that is set again. -/
theorem queueStart_starts {h : Nat} (hending : x.ending = none) (hhalted : x.halted.isSome = true)
    (hrange : le b 4 4 < 2 ^ 17) (hpos : posOf x.n (le b 4 4) = some h)
    (hbme : x.halted = some 1 → (d.fn (d.fnOf o)).bme = true) :
    queueStart r o b q x d = reply r stOk 0 []
      (updQueue o q (fun x => { x with halted := none, head := h, tail := h, fetch := h, run := x.run + 1 }) d) := by
  have hrun : x.halted.isNone = false := Option.isNone_eq_false_iff.2 hhalted
  have hsmall : le b 4 4 < 131072 := hrange
  have hmay : (x.halted == some 1 && !(d.fn (d.fnOf o)).bme) = false := by simpa using hbme
  simp only [queueStart, hending, Option.isSome_none, Bool.false_eq_true, if_false]
  rw [checks_clean _ _ _ _ (by simp [hrun, hsmall, hpos, hmay]), hpos, Option.getD_some]

end Meaning

/-- Settles O14: each command as its lemma above says, where its checks pass. -/
theorem queuesAreSetUpAndStopped : Obligations.QueuesAreSetUpAndStopped := by
  unfold Obligations.QueuesAreSetUpAndStopped
  refine ⟨⟨?create, ?query, ?moderate, ?rss⟩, ?destroy, ?stop, ?abort, ?start⟩
  case create =>
    intro s r p e b o h ho hquota hfaults hnew
    rw [exec_queueCreate h ho, queueCreate_makes hquota hfaults hnew]
  case query =>
    intro s r p e b o x h ho hquota hzero hx
    rw [exec_queueQuery h ho, queueQuery_answers hquota hzero hx]
  case moderate =>
    intro s r p e b o c h ho hquota hflags htimer hvector hown hc
    rw [exec_cqModerate h ho, cqModerateCmd_stages hquota hflags htimer hvector hown hc]
  case rss =>
    intro s r p e b o h ho hfields hzero hzero' htable
    rw [exec_rssSet h ho, rssSet_sets hfields hzero hzero' htable]
  case destroy =>
    intro s r p e b o x h ho hquota hzero hx hshared
    rw [exec_queueDestroy ho hquota hzero hx h]
    exact ⟨fun hhalted => by rw [queueDestroy_halted hshared hhalted],
      fun hhalted hending => by rw [queueDestroy_running hshared hhalted hending]⟩
  case stop =>
    intro s r p e b o x h ho hquota hzero hx
    rw [exec_queueStop ho hquota hzero hx h]
    exact ⟨fun hreason => by rw [queueStop_halted hreason], fun hreason => by rw [queueStop_running hreason]⟩
  case abort =>
    intro s o q x w hx hw
    rw [exec_queueStopAbort, queueStopAbort_aborts hx hw]
  case start =>
    intro s r p e b o x pos h ho hquota hzero hx hending hhalted hrange hpos hbme
    rw [exec_queueStart ho hquota hzero hx h, queueStart_starts hending hhalted hrange hpos hbme]

end Sys2Proof.Proofs
end

section
/-!
PROOF. O33 fails, by its last clause alone. That clause gives every entry listed under the queue's key the reads of the
entry that lookup finds, where the model changes each entry's own reads; and it does not ask that a key be listed once.
First what the doorbells, the timer and a fetch turn do, as the other clauses say, and the last clause's meaning where the
keys rise, as they do in a canonical table; then a table that lists a key twice, and the refutation.
-/
namespace Sys2Proof.Proofs
open Sys2Proof Sys2Proof.Machine Sys2Proof.Laws

/-! ### Doorbells and the moderation timer (R112, R113, R127, R128) -/

section Doorbells
variable {s : State} {o : Owner}

theorem exec_sqDbWrite (h : s.comes (some (s.dev.fnOf o)) = true) (ho : s.dev.ownerExists o = true) (q : Nat) (v : Word) :
    exec (.sqDbWrite o q v) s = .next (s.withDev (sqDbWrite o q v s.dev)) := by
  refine congrArg Host.Outcome.next ((through_comes s _ _ h).trans ?_)
  rw [onDev_eq_withDev, if_pos ho]

theorem exec_cqHeadWrite (h : s.comes (some (s.dev.fnOf o)) = true) (ho : s.dev.ownerExists o = true) (c : Nat)
    (v : Word) : exec (.cqHeadWrite o c v) s = .next (s.withDev (cqHeadWrite o c v s.dev)) := by
  refine congrArg Host.Outcome.next ((through_comes s _ _ h).trans ?_)
  rw [onDev_eq_withDev, if_pos ho]

theorem exec_moderationTimer (o : Owner) (c : Nat) (s : State) :
    exec (.moderationTimer o c) s = .next (s.withDev (moderationTimer o c s.dev)) := rfl

variable {q : Nat} {v : Word} {d : Dev} {x : Queue}

theorem sqDbWrite_moves {t : Nat} (hx : d.queue o q = some x) (hrun : x.reason = none)
    (ht : tailValid x.n x.head x.tail (wbits v 16 0) = some t) :
    sqDbWrite o q v d = updQueue o q (fun x => { x with tail := t }) d := by
  simp only [sqDbWrite, hx, hrun, ht, Option.isSome_none, Bool.false_eq_true, if_false]

theorem sqDbWrite_halted (hx : d.queue o q = some x) (hhalted : x.reason.isSome = true) : sqDbWrite o q v d = d := by
  simp only [sqDbWrite, hx, hhalted, if_true]

theorem sqDbWrite_bad (hx : d.queue o q = some x) (hrun : x.reason = none)
    (ht : tailValid x.n x.head x.tail (wbits v 16 0) = none) : sqDbWrite o q v d = dbBad o q v d := by
  simp only [sqDbWrite, hx, hrun, ht, Option.isSome_none, Bool.false_eq_true, if_false]

theorem cqHeadWrite_moves {c h : Nat} {y : Cq} (hy : d.cq o c = some y)
    (hh : headValid y.n y.head y.wpos (wbits v 16 0) = some h) : cqHeadWrite o c v d =
      cqRoom o c (updCq o c (fun z => { z with head := h, stalled := z.stalled && h == y.head }) d) := by
  simp only [cqHeadWrite, hy, hh]

theorem moderationTimer_triggers {c t : Nat} {y : Cq} (hy : d.cq o c = some y) (ht : y.due = some t) :
    moderationTimer o c d = cqTrigger o c (timeTo t d) := by
  simp only [moderationTimer, hy, ht]

end Doorbells

/-! ### A fetch turn (R122) -/

/-- The owners of a function, as the participants of level 1. -/
def ownerParts (f : Nat) (d : Dev) : List Part :=
  (d.ownersOf f).map fun o => ⟨ownerKey o, d.ownerWeight o, d.eligibleOwner o⟩

/-- The queues of an owner, as the participants of level 2. -/
def queueParts (o : Owner) (d : Dev) : List Part :=
  (d.queuesOf o).map fun q => ⟨q, ((d.queue o q).map (·.weight)).getD 0, d.eligible o q⟩

theorem fetchTurn_asks {f k rd q rd' : Nat} {ps ps' : List Nat} {o : Owner} {d e : Dev}
    (howner : wrr (ownerParts f d) (maxWeight (ownerParts f d)) (maxWeight (ownerParts f d) + 1) (d.fn f).round
      (d.fn f).served = some (k, rd, ps))
    (ho : (d.ownersOf f).find? (fun o => ownerKey o == k) = some o)
    (he : e = updFn f (fun x => { x with round := rd, served := ps }) d)
    (hqueue : wrr (queueParts o e) (maxWeight (queueParts o e)) (maxWeight (queueParts o e) + 1) (e.owner o).round
      (e.owner o).served = some (q, rd', ps')) :
    fetchTurn f d = fetchDescs o q (((e.queue o q).map (·.burst)).getD 0)
      (updOwner o (fun y => { y with round := rd', served := ps' }) e) := by
  subst he
  simp only [ownerParts] at howner
  simp only [queueParts] at hqueue
  simp only [fetchTurn, howner, ho, hqueue]

/-! ### Descriptors that have all come (R115, R117) -/

theorem exec_descriptorFetchDone {o : Owner} {q : Nat} {s : State} {x : Queue} {g : Fetch} {gs : List Fetch}
    (hx : s.dev.queue o q = some x) (hg : x.fetching = g :: gs) (data : List Byte) :
    exec (.descriptorFetchDone o q data) s =
      .next (s.withDev (proceed (s.dev.fnOf o) (descsArrive o q g.tag data s.dev))) := by
  refine congrArg Host.Outcome.next ?_
  rw [onDev_eq_withDev, hx, Option.bind_some, hg, List.head?_cons]

/-- In a table whose keys rise, lookup finds every entry. -/
theorem mfind_of_rising {α : Type} {m : Map α} (h : Map.rising m = true) {e : Nat × α} (he : e ∈ m) :
    mfind m e.1 = some e.2 := by
  rw [rising_iff] at h
  induction m with
  | nil => cases he
  | cons a r ih =>
    rw [List.map_cons, List.pairwise_cons] at h
    obtain rfl | he := List.mem_cons.1 he
    · exact if_pos rfl
    · have hlt : a.1 < e.1 := h.1 _ (List.mem_map_of_mem he)
      exact (if_neg (Nat.ne_of_lt hlt)).trans (ih h.2 he)

/-- Where the keys rise, two changes that agree on the queue that lookup finds are one. -/
theorem updQueue_congr {o : Owner} {q : Nat} {d : Dev} {x : Queue} {g h : Queue → Queue}
    (hkeys : Map.rising d.queues = true) (hx : d.queue o q = some x) (hgh : g x = h x) :
    updQueue o q g d = updQueue o q h d := by
  have hentry : ∀ e ∈ d.queues, (if e.1 = qKey o q then (e.1, g e.2) else e) =
      if e.1 = qKey o q then (e.1, h e.2) else e := by
    intro e he
    split
    next hkey =>
      have hfind : some e.2 = some x := (mfind_of_rising hkeys he).symm.trans (hkey ▸ hx)
      rw [Option.some.inj hfind, hgh]
    next => rfl
  simp only [updQueue, mmod, List.map_congr_left hentry]

/-- Descriptor j of a read's data is taken. -/
def takeAt (o : Owner) (q : Nat) (data : List Byte) (j : Nat) (d : Dev) : Dev :=
  updQueue o q (fun x =>
    { takeDesc o x.kind (x.fetch % x.n) (bytesAt data (32 * j) 32) d x with fetch := ringAdd x.n x.fetch 1 }) d

/-- The read under way has come, and nothing of another. -/
def holding (g : Fetch) (x : Queue) : Queue := { x with fetching := [g] }

/-- The oldest read is over. -/
def readOver (x : Queue) : Queue := { x with fetching := x.fetching.tail }

/-- What a read that came whole leaves: its descriptors taken in ring order, its tag free. -/
def takeWhole (o : Owner) (q : Nat) (g : Fetch) (d : Dev) : Dev :=
  dropTag (d.fnOf o) g.tag (updQueue o q readOver (each (List.range g.n) (takeAt o q g.got) d))

theorem takeDescs_whole {o : Owner} {q : Nat} {d : Dev} {x : Queue} {g : Fetch} (hx : d.queue o q = some x)
    (hg : x.fetching = [g]) (hlen : g.got.length = 32 * g.n) : takeDescs o q 1 d = takeWhole o q g d := by
  have hall : min g.n (g.got.length / 32) = g.n := by omega
  have hfn : (each (List.range g.n) (takeAt o q g.got) d).fnOf o = d.fnOf o :=
    each_keep (·.fnOf o) (takeAt o q g.got) (fun _ _ => rfl) _ d
  rw [takeDescs, hx, Option.bind_some, hg, List.head?_cons]
  simp only [Option.map_some, hall, if_true, List.nil_append, Nat.lt_irrefl, if_false, takeDescs]
  rw [takeWhole, ← hfn]
  rfl

/-- Where the keys rise, the one read under way is taken as the refuted clause of O33 says. -/
theorem descsArrive_whole {o : Owner} {q : Nat} {data : List Byte} {d d2 : Dev} {x : Queue} {g : Fetch}
    (hkeys : Map.rising d.queues = true) (hx : d.queue o q = some x) (hg : x.fetching = [g]) (hgot : g.got = [])
    (hlen : data.length = 32 * g.n)
    (hd2 : d2 = takeWhole o q { g with got := data } (updQueue o q (holding { g with got := data }) d)) :
    descsArrive o q g.tag data d = settleQueue o q (when ((d2.queue o q).any fun x =>
      !x.chain.isEmpty && x.unread > 0 && x.fetching.isEmpty) (fetchDescs o q 1) d2) := by
  have harrive := updQueue_congr hkeys hx (g := fun x => { x with fetching := x.fetching.map fun y =>
      if y.tag = g.tag then { y with got := y.got ++ data } else y })
    (h := holding { g with got := data }) (by simp [holding, hg, hgot])
  have hqueue : (updQueue o q (holding { g with got := data }) d).queue o q =
      some (holding { g with got := data } x) := by rw [queue_updQueue, hx, Option.map_some]
  unfold descsArrive
  rw [hx]
  dsimp only
  rw [harrive, hg, List.length_singleton, takeDescs_whole hqueue rfl hlen, ← hd2]
  cases d2.queue o q <;> rfl

/-! ### A key listed twice -/

/-- A TX queue with descriptor reads under way. -/
def reading (l : List Fetch) : Queue := { kind := .tx, log2 := 6, base := 0, cq := 0, fetching := l }

/-- Queue 0 of function 0 is listed twice: lookup finds the entry with one read, the other has two of its own. -/
def twiceListed : State :=
  { dev := { queues := [(0, reading [{ tag := 0, n := 1 }]), (0, reading [{ tag := 1, n := 1 }, { tag := 2, n := 1 }])] } }

/-- The reads under way, entry by entry. -/
def readsOf (d : Dev) : List (List Fetch) := d.queues.map (·.2.fetching)

/-- One descriptor comes: the oldest read of each entry is over, and the second entry keeps its other one. -/
theorem readsOf_twiceListed :
    readsOf (proceed 0 (descsArrive (.function 0) 0 0 (List.replicate 32 0) twiceListed.dev)) =
      [[], [{ tag := 2, n := 1 }]] := by decide +kernel

/-- Refutes O33: by the last clause the second entry of the queue listed twice keeps no read. -/
theorem not_queueDoorbellsAndFetches : ¬ Obligations.QueueDoorbellsAndFetches := by
  unfold Obligations.QueueDoorbellsAndFetches
  rintro ⟨-, -, hdone⟩
  have hx : twiceListed.dev.queue (.function 0) 0 = some (reading [{ tag := 0, n := 1 }]) := by
    decide +kernel
  have hclaim := hdone twiceListed (.function 0) 0 (List.replicate 32 0) _ { tag := 0, n := 1 } _ _ hx rfl rfl
    List.length_replicate rfl rfl
  rw [exec_descriptorFetchDone hx rfl] at hclaim
  have hreads := congrArg (fun s => readsOf s.dev) (Host.Outcome.next.inj hclaim)
  exact absurd (readsOf_twiceListed.symm.trans hreads) (by decide +kernel)

end Sys2Proof.Proofs
end

section
/-!
PROOF. O44: messages are posted, claimed and acknowledged, and sides are reset. First what a command on an existing
pair's set makes of the state, then what each operation leaves of the two sides of a pair, then where the pages of the
arena lie; the statement is put together from these.
-/
namespace Sys2Proof.Proofs
open Sys2Proof Sys2Proof.Machine Sys2Proof.Laws

/-! ### Commands on a side's set (R144) -/

section Commands
variable {s : State} {x : Side} (hcome : s.comes (s.dev.sideFn x) = true)
include hcome

theorem through_onSide (go : Dev → Dev) :
    s.through (s.dev.sideFn x) (fun _ d => onSide x go d) = s.withDev (onSide x go s.dev) := by
  rw [through_comes s _ _ hcome, onDev_eq_withDev]

/-- The set of a pair that does not exist: a region with no register (R8). -/
theorem next_onSide_absent (hpair : s.dev.pairExists x.pair = false) (go : Dev → Dev) :
    Host.Outcome.next (φ := Fault) (ρ := Refusal) (s.through (s.dev.sideFn x) fun _ d => onSide x go d) =
      .next (s.withDev (if x.mgr then badAccess s.dev else s.dev)) := by
  rw [through_onSide hcome, onSide, hpair, if_neg Bool.false_ne_true]

variable (hpair : s.dev.pairExists x.pair = true)
include hpair

theorem next_onSide_exists (go : Dev → Dev) :
    Host.Outcome.next (φ := Fault) (ρ := Refusal) (s.through (s.dev.sideFn x) fun _ d => onSide x go d) =
      .next (s.withDev (go s.dev)) := by
  rw [through_onSide hcome, onSide, if_pos hpair]

theorem exec_mbDbSet (v : Word) : exec (.mbDbSet x v) s = .next (s.withDev (mbDbSet x v s.dev)) :=
  next_onSide_exists hcome hpair _

theorem exec_mbClaim (v : Word) : exec (.mbClaim x v) s = .next (s.withDev (mbClaim x v s.dev)) :=
  next_onSide_exists hcome hpair _

theorem exec_mbRxAck (n : Fin 32) (v : Word) :
    exec (.mbRxAck x n v) s = .next (s.withDev (mbRxAck x n v s.dev)) :=
  next_onSide_exists hcome hpair _

theorem exec_mbSideReset (v : Word) : exec (.mbSideReset x v) s = .next (s.withDev (mbCtrlWrite x v s.dev)) :=
  next_onSide_exists hcome hpair _

theorem exec_mbMaskWrite (ack : Bool) (v : Word) :
    exec (.mbMaskWrite x ack v) s = .next (s.withDev (mbMaskWrite x ack v s.dev)) :=
  next_onSide_exists hcome hpair _

theorem exec_arenaPageWrite (u : Bool) (off : Nat) (data : List Byte) (ep : Bool) :
    exec (.arenaPageWrite x u off data ep) s = .next (s.withDev (arenaWrite x u [(off, data)] ep s.dev)) :=
  next_onSide_exists hcome hpair _

end Commands

/-! ### Writes to a side's registers and page (R143, R146, R149) -/

section Writes
variable {x : Side} {v : Word} {d : Dev}

theorem mbRxAck_claimed {n : Nat} (hclaimed : (d.side x).claimed.getLsbD n = true)
    (hcode : wbits v 15 0 < 0xE000 ∨ 0xEFFF < wbits v 15 0) : mbRxAck x n v d =
      when (mget 0 (d.side x).rxStat n != 0xE002) (mbAck x n (wbits v 15 0))
        (updSide x (fun m => { m with claimed := clrBit m.claimed n, rxPtr := mset 0 m.rxPtr n 0,
                                      rxStat := mset 0 m.rxStat n 0 }) d) := by
  have hfree : (decide (0xE000 ≤ wbits v 15 0) && decide (wbits v 15 0 ≤ 0xEFFF)) = false := by
    simp only [Bool.and_eq_false_iff, decide_eq_false_iff_not]; omega
  simp only [mbRxAck, hclaimed, hfree, Bool.not_true, Bool.or_self, Bool.false_eq_true, if_false, bne]

theorem mbRxAck_refused {n : Nat} (h : (d.side x).claimed.getLsbD n = false ∨
    (0xE000 ≤ wbits v 15 0 ∧ wbits v 15 0 ≤ 0xEFFF)) : mbRxAck x n v d = mbErr x d :=
  if_pos (by simpa using h)

/-- A function's or slice's own side holds a vector, which RESET clears (log 74). -/
theorem mbCtrlWrite_vector (hpair : ∀ c, x.pair ≠ .core c) (hmgr : x.mgr = false) : mbCtrlWrite x v d =
    updSide x (fun m => { m with vector := if v.getLsbD 31 then 0 else wbits v 10 0 })
      (when (v.getLsbD 31) (sideReset x) d) := by
  simp only [mbCtrlWrite, hmgr, Bool.false_eq_true, if_false]

theorem mbCtrlWrite_noVector (h : x.mgr = true ∨ ∃ c, x.pair = .core c) :
    mbCtrlWrite x v d = when (v.getLsbD 31) (sideReset x) d := by
  unfold mbCtrlWrite
  split
  next => rfl
  next hpair =>
    have hmgr : x.mgr = true := h.resolve_right fun ⟨c, hc⟩ => hpair c hc
    exact if_pos hmgr

theorem arenaWrite_foreign {u : Bool} (hu : u ≠ x.mgr) (runs : List (Nat × List Byte)) :
    arenaWrite x u runs false d = arenaRefused x d :=
  if_pos (bne_iff_ne.2 hu)

/-- A side's own page takes the bytes; those written under a posted message are torn (log 140). -/
theorem arenaWrite_own (off : Nat) (data : List Byte) : arenaWrite x x.mgr [(off, data)] false d =
    mbRefresh (Side.other x) (updSide x (fun m => { m with
        torn := m.torn.filter (fun o => !((List.range data.length).map (off + ·)).contains o) ++
          ((List.range data.length).map (off + ·)).filter (d.postedAt x) })
      (writeHbm (sidePage x + off) data false d)) := by
  simp only [arenaWrite, bne_self_eq_false, Bool.false_and, Bool.false_eq_true, if_false, when_false, arenaStore,
    List.flatMap_singleton, runOffs, each_cons, each_nil]

/-- A poisoned write into BAR0 is reported and discarded (R92). -/
theorem arenaWrite_poisoned_bar0 (hmgr : x.mgr = false) {f : Fin 32} (hf : x.pair = .function f)
    (runs : List (Nat × List Byte)) : arenaWrite x false runs true d = hostPoisoned x d := by
  simp only [arenaWrite, hmgr, hf, bne_self_eq_false, Bool.not_false, Bool.and_self, Bool.false_eq_true, if_false,
    if_true, when_true]

end Writes

/-! ### The two sides of a pair -/

@[simp] theorem side_other_other (x : Side) : Side.other (Side.other x) = x := by
  simp only [Side.other, Bool.not_not]

theorem sideKey_other_ne (x : Side) : sideKey (Side.other x) ≠ sideKey x := by
  simp only [sideKey, Side.other]
  cases x.mgr <;> simp only [b2n, Bool.not_true, Bool.not_false, Bool.false_eq_true, if_true, if_false] <;> omega

@[simp] theorem side_other_updSide (x : Side) (g : MbSide → MbSide) (d : Dev) :
    (updSide x g d).side (Side.other x) = d.side (Side.other x) := by
  simp only [updSide, Dev.side, mget_mupd, if_neg (sideKey_other_ne x)]

@[simp] theorem side_updSide_other (x : Side) (g : MbSide → MbSide) (d : Dev) :
    (updSide (Side.other x) g d).side x = d.side x := by
  simpa only [side_other_other] using side_other_updSide (Side.other x) g d

@[simp] theorem side_clearPage (x y : Side) (d : Dev) : (clearPage x d).side y = d.side y := rfl

theorem side_of_talk {d d' : Dev} (h : Talk d d') (x : Side) : d'.side x = d.side x :=
  h.keep (·.side x) fun _ _ _ _ _ _ _ => rfl

/-- An interrupt leaves of the side that it goes to all but that it has been told (R151). -/
theorem side_mbInterrupt (x : Side) (ack : Bool) (d : Dev) :
    ∃ i a, (mbInterrupt x ack d).side x = { d.side x with toldIn := i, toldAck := a } := by
  have hgo (f : Dev → Dev) (hf : ∀ d, Talk d (f d)) :
      ∃ i a, (if (d.side x).told ack then d else f (updSide x (·.tell ack true) d)).side x =
        { d.side x with toldIn := i, toldAck := a } := by
    split
    next => exact ⟨_, _, rfl⟩
    next =>
      rw [side_of_talk (hf _), side_updSide]
      cases ack
      · exact ⟨true, _, rfl⟩
      · exact ⟨_, true, rfl⟩
  obtain ⟨pair, mgr⟩ := x
  cases mgr with
  | true =>
    cases pair with
    | function f => exact hgo _ (talk_raise _ _ _ _)
    | slice k => exact hgo _ (talk_raise _ _ _ _)
    | core c => exact hgo _ (talk_raise _ _ _ _)
  | false =>
    cases pair with
    | function f => exact hgo _ (talk_msixRaise _ _)
    | slice k => exact hgo _ (talk_ownerVector _ _)
    | core c => exact ⟨_, _, rfl⟩

/-! ### Posting (R145) -/

section Post
variable (x : Side) (n : Nat) (d : Dev)

theorem side_mbPost : (mbPost x n d).side x =
    { d.side x with dbOut := setBit (d.side x).dbOut n, ack := mset 0 (d.side x).ack n 0 } := by
  rw [mbPost, side_updSide_other, side_updSide]

theorem side_other_mbPost : (mbPost x n d).side (Side.other x) =
    { d.side (Side.other x) with
      dbIn := setBit (d.side (Side.other x)).dbIn n
      inPtr := mset 0 (d.side (Side.other x)).inPtr n (mget 0 (d.side x).ptr n &&& 0x1FFF0FFF) } := by
  rw [mbPost, side_updSide, side_other_updSide]

end Post

/-- Of the 32 messages, the word with bit n alone names n. -/
theorem filter_singleBit {n : Nat} (hn : n < 32) : (List.range 32).filter (word (2 ^ n)).getLsbD = [n] := by
  have hall : ∀ k : Fin 32, (List.range 32).filter (word (2 ^ k.val)).getLsbD = [k.val] := by decide +kernel
  exact hall ⟨n, hn⟩

theorem mbDbSet_one_refused {x : Side} {n : Nat} {d : Dev} (hn : n < 32) (hok : mbPostOk (d.side x) n = false) :
    mbDbSet x (word (2 ^ n)) d = mbErr x d := by
  simp only [mbDbSet, filter_singleBit hn, hok, each_cons, each_nil, List.filter_cons, List.filter_nil, List.any_nil,
    when_false, Bool.false_eq_true, if_false]

/-! ### Claiming (R146) -/

theorem mbClaim_one {x : Side} {n : Nat} {d : Dev} (hn : n < 32) (hin : (d.side x).dbIn.getLsbD n = true) :
    mbClaim x (word (2 ^ n)) d = mbClaimOne x n (updSide x (fun m => { m with toldIn := false }) d) := by
  have hnamed : (List.range 32).filter (fun k => (word (2 ^ n)).getLsbD k && (d.side x).dbIn.getLsbD k) = [n] := by
    rw [List.filter_congr fun k _ => Bool.and_comm _ _, ← List.filter_filter, filter_singleBit hn]
    simp [hin]
  simp only [mbClaim, hnamed, each_cons, each_nil]
  rfl

theorem side_mbClaimOne (x : Side) (n : Nat) (d : Dev) : (mbClaimOne x n d).side x =
    { d.side x with
      dbIn := clrBit (d.side x).dbIn n, inPtr := mset 0 (d.side x).inPtr n 0
      claimed := setBit (d.side x).claimed n
      rxPtr := mset 0 (d.side x).rxPtr n (mget 0 (d.side x).inPtr n)
      rxStat := mset 0 (d.side x).rxStat n (if d.msgPoisoned x (mget 0 (d.side x).inPtr n) then 0xE003 else 0) } :=
  side_updSide _ _ _

/-! ### Acknowledging (R146, R148) -/

theorem side_other_mbAck (x : Side) (n code : Nat) (d : Dev) :
    ∃ i a, (mbAck x n code d).side (Side.other x) =
      { d.side (Side.other x) with
        dbOut := clrBit (d.side (Side.other x)).dbOut n
        ack := mset 0 (d.side (Side.other x)).ack n (word (2 ^ 31 + code))
        ackSum := setBit (d.side (Side.other x)).ackSum n, toldIn := i, toldAck := a } := by
  simp only [mbAck, when]
  split
  next =>
    obtain ⟨i, a, h⟩ := side_mbInterrupt (Side.other x) true (updSide (Side.other x) (fun m => { m with
      dbOut := clrBit m.dbOut n, ack := mset 0 m.ack n (word (2 ^ 31 + code)), ackSum := setBit m.ackSum n }) d)
    rw [side_updSide] at h
    exact ⟨i, a, h⟩
  next =>
    rw [side_updSide]
    exact ⟨_, _, rfl⟩

/-! ### The reset of a side (R149) -/

theorem side_sideReset (x : Side) (d : Dev) : (sideReset x d).side x = {} := side_updSide _ _ _

/-- With nothing posted to it and nothing claimed, a side that is reset acknowledges nothing: what is left of the other
side is that it has no doorbell any more and that the messages which it has claimed are withdrawn. -/
theorem side_other_sideReset {x : Side} {d : Dev} (hin : (d.side x).dbIn = 0) (hclaimed : (d.side x).claimed = 0) :
    (sideReset x d).side (Side.other x) = { d.side (Side.other x) with
      dbIn := 0, inPtr := [], toldIn := false
      rxPtr := mkeep (d.side (Side.other x)).rxPtr fun n _ => (d.side (Side.other x)).claimed.getLsbD n
      rxStat := ((List.range 32).filter (d.side (Side.other x)).claimed.getLsbD).foldl (fun r n => mset 0 r n 0xE002)
        (d.side (Side.other x)).rxStat } := by
  have hlost : (List.range 32).filter (fun n => (d.side x).dbIn.getLsbD n ||
      ((d.side x).claimed.getLsbD n && mget 0 (d.side x).rxStat n != 0xE002)) = [] := by
    simp [hin, hclaimed]
  simp only [sideReset, hlost, each_nil, side_other_updSide, side_updSide, side_clearPage]

theorem mget_foldl_mset {α : Type} [DecidableEq α] (x c : α) (l : List Nat) (m : Map α) (k : Nat) :
    mget x (l.foldl (fun r n => mset x r n c) m) k = if k ∈ l then c else mget x m k := by
  induction l generalizing m with
  | nil => simp
  | cons n r ih =>
    rw [List.foldl_cons, ih, mget_mset]
    by_cases hk : k ∈ r <;> by_cases hn : k = n <;> simp [hk, hn]

/-! ### The pages of the arena (R142) -/

/-- The first area placed lies within the 261,888 pages, wherever the configuration places it. -/
theorem areaStart_first_fits (i n : Nat) (hn : n ≤ 261888) : areaStart [] i n + n ≤ 261888 := by
  have hlt : Config.place i % (261888 + 1 - n) < 261888 + 1 - n := Nat.mod_lt _ (by omega)
  simp only [areaStart, freeStarts, List.map_cons, List.map_nil, List.sum_cons, List.sum_nil, nthStart, Nat.sub_zero,
    Nat.add_zero, if_pos hlt]
  omega

theorem arena_lies_in_reserved_region :
    15 * 2 ^ 30 ≤ arenaBase ∧ arenaBase + 8280 * 4096 ≤ 2 ^ 34 ∧ arenaBase % 4096 = 0 := by
  have hfits : arenaPage + 8280 ≤ 261888 := areaStart_first_fits 0 8280 (by decide)
  simp only [arenaBase, reservedAt]
  omega

theorem sidePage_mgr (p : Pair) : sidePage ⟨p, true⟩ = sidePage ⟨p, false⟩ + 4096 := by
  simp only [sidePage, b2n, Bool.false_eq_true, if_true, if_false]; omega

theorem pairPage_le (p : Pair) : pairPage p ≤ 8278 := by
  cases p <;> simp only [pairPage] <;> omega

theorem pairPage_even (p : Pair) : pairPage p % 2 = 0 := by
  cases p <;> simp only [pairPage] <;> omega

theorem b2n_le_one (b : Bool) : b2n b ≤ 1 := by
  cases b <;> decide

/-- The page of a byte of a side's page, counted in the arena. -/
theorem page_of_sidePage (x : Side) {o : Nat} (ho : o < 4096) :
    (sidePage x + o - arenaBase) / 4096 = pairPage x.pair + b2n x.mgr := by
  simp only [sidePage]; omega

/-- Every byte of a side's page is found again as that side's, cores 0-3 apart, which have no pair (R141). -/
theorem arenaSide_sidePage {x : Side} (hx : ∀ c, x.pair = .core c → 4 ≤ c.val) {o : Nat} (ho : o < 4096) :
    arenaSide (sidePage x + o) = some x := by
  have hpage := pairPage_le x.pair
  have hlast := b2n_le_one x.mgr
  have hin : ¬ (sidePage x + o < arenaBase ∨ 8280 ≤ pairPage x.pair + b2n x.mgr) := by
    simp only [sidePage]; omega
  simp only [arenaSide, page_of_sidePage x ho]
  rw [if_neg (by simpa using hin)]
  refine congrArg some (congr (congrArg Side.mk ?pair) ?mgr)
  case mgr =>
    rw [Nat.add_mod, pairPage_even]
    cases x.mgr <;> rfl
  case pair =>
    cases hp : x.pair with
    | slice k =>
      have hk : pairPage (.slice k) = 2 * k := rfl
      rw [if_pos (by omega)]
      exact congrArg Pair.slice (Fin.ext (by simp only [fin]; omega))
    | function f =>
      have hf : pairPage (.function f) = 8192 + 2 * f := rfl
      rw [if_neg (by omega), if_pos (by omega)]
      exact congrArg Pair.function (Fin.ext (by simp only [fin]; omega))
    | core c =>
      have hc : pairPage (.core c) = 8256 + 2 * (c - 4) := rfl
      have hfour := hx c hp
      rw [if_neg (by omega), if_neg (by omega)]
      exact congrArg Pair.core (Fin.ext (by simp only [fin]; omega))

/-- Settles O44: each command acts as its lemma above says, on the two sides of its pair; a page's bytes are found again
as those of its side. -/
theorem mailboxesCarryMessages : Obligations.MailboxesCarryMessages := by
  unfold Obligations.MailboxesCarryMessages
  refine ⟨⟨?existing, ?absent⟩, ⟨?post, ?refused, ?claimed, ?acked, side_sideReset, ?withdrawn⟩,
    arena_lies_in_reserved_region, fun _ => rfl, fun _ => rfl, fun _ _ => rfl, sidePage_mgr,
    fun _ _ hx ho => arenaSide_sidePage hx ho⟩
  case existing =>
    intro s x hcome hpair
    refine ⟨fun v => ?dbSet, fun v => ?claim, fun n v d hclaimed hcode hd => ?rxAck, fun n v hbad => ?badAck,
      fun v hv hcore hmgr => ?vectorReset, fun v hv hcore hmgr => ?vectorSet, fun v hnone => ?noVector,
      fun v m hm => ?masks, fun u off data hu => ?foreign, fun off data l hl => ?own,
      fun off data hmgr ⟨f, hf⟩ => ?poisoned⟩
    case dbSet => simp only [exec_mbDbSet hcome hpair, mbDbSet, List.any_filter]
    case claim => exact exec_mbClaim hcome hpair v
    case rxAck =>
      rw [exec_mbRxAck hcome hpair, mbRxAck_claimed hclaimed hcode, ← hd]
      exact ⟨fun hstat => by rw [bne_iff_ne.2 hstat, when_true],
        fun hstat => by rw [hstat, bne_self_eq_false, when_false]⟩
    case badAck => rw [exec_mbRxAck hcome hpair, mbRxAck_refused hbad]
    case vectorReset => rw [exec_mbSideReset hcome hpair, mbCtrlWrite_vector hcore hmgr, hv]; rfl
    case vectorSet => rw [exec_mbSideReset hcome hpair, mbCtrlWrite_vector hcore hmgr, hv]; rfl
    case noVector => rw [exec_mbSideReset hcome hpair, mbCtrlWrite_noVector hnone]
    case masks =>
      subst hm
      exact ⟨exec_mbMaskWrite hcome hpair false v, exec_mbMaskWrite hcome hpair true v⟩
    case foreign => rw [exec_arenaPageWrite hcome hpair, arenaWrite_foreign hu]
    case own => rw [exec_arenaPageWrite hcome hpair, arenaWrite_own, hl]
    case poisoned => rw [exec_arenaPageWrite hcome hpair, arenaWrite_poisoned_bar0 hmgr hf]
  case absent =>
    rintro s x c hcome hpair ⟨v, n, u, off, data, ep, rfl | rfl | rfl | rfl | rfl | rfl⟩
    all_goals exact next_onSide_absent hcome hpair _
  case post =>
    intro x n d
    rw [side_mbPost, side_other_mbPost]
    exact ⟨rfl, by rw [mget_mset, if_pos rfl], rfl, by rw [mget_mset, if_pos rfl], rfl⟩
  case refused =>
    intro x n d hn hok
    rw [mbDbSet_one_refused hn hok, mbErr, side_updSide]
  case claimed =>
    intro x n d p hn hin hp
    rw [mbClaim_one hn hin, side_mbClaimOne, side_updSide, hp]
    rfl
  case acked =>
    intro x n c d hn
    obtain ⟨i, a, hside⟩ := side_other_mbAck x n c d
    rw [hside]
    exact ⟨rfl, by rw [mget_mset, if_pos rfl], rfl⟩
  case withdrawn =>
    intro x d n hn hin hclaimed hother
    rw [side_other_sideReset hin hclaimed, mget_foldl_mset,
      if_pos (List.mem_filter.2 ⟨List.mem_range.2 hn, hother⟩)]
    exact ⟨rfl, rfl⟩

end Sys2Proof.Proofs
end

section
/-!
PROOF. O5 and O11: IDENTIFY, Control Reset and FW_SELECT. First what the header checks leave of a packet that is in order
but for its length, then what each command and each end of a reset makes of the state; the statements are put together
from these.
-/
namespace Sys2Proof.Proofs
open Sys2Proof Sys2Proof.Machine Sys2Proof.Laws

/-! ### The length that an opcode requires (R154, R166) -/

/-- The rings that a row of the opcode table is for. -/
def carries (o : OpRow) : Ring → Bool
  | .manager => o.mgr
  | .function _ => o.fn
  | .slice _ => o.slice

/-- A header in order, from a ring that may send it: what is left to check is PLEN. -/
theorem hdrCheck_plen {r : Ring} {h : List Byte} {d : Dev} {o : OpRow} {n : Nat} (hversion : byteAt h 3 = 1)
    (hrow : opRow (execOf h).opcode = some o) (hreserved : hdrReserved h = none) (hcarried : carries o r = true)
    (howns : d.ringOwns r (execOf h).slice = true) (hplen : o.plen = some n) :
    hdrCheck r h d = if (execOf h).plen = n then none else some (stBadLength, n, false) := by
  cases r
  all_goals
    dsimp only [carries] at hcarried
    simp [hdrCheck, hversion, hrow, hreserved, hcarried, howns, hplen]

/-! ### IDENTIFY (R168) -/

theorem exec_identify {s : State} {r : Ring} {p : Read} {e : Exec} {b : List Byte}
    (h : s.runs r 0x0002 p = some (e, b)) : exec (.identify r p) s = .next (s.withDev
      (reply r stOk 0 [1, slotVersion s.nv s.dev.slot, 0, ringKind r, ringNumber r] s.dev)) :=
  congrArg (fun d => Host.Outcome.next (s.withDev d)) (command_runs s r _ p _ e b h)

theorem hdrCheck_identify {r : Ring} {h : List Byte} {d : Dev} (hversion : byteAt h 3 = 1)
    (hop : (execOf h).opcode = 0x0002) (hreserved : hdrReserved h = none)
    (howns : d.ringOwns r (execOf h).slice = true) :
    hdrCheck r h d = if (execOf h).plen = 0 then none else some (stBadLength, 0, false) := by
  have hrow : opRow (execOf h).opcode = some ⟨0x0002, true, true, true, some 0⟩ := by rw [hop]; rfl
  exact hdrCheck_plen hversion hrow hreserved (by cases r <;> rfl) howns rfl

/-- Settles O5: the command's meaning where it runs, and the check of its header, where PLEN alone decides. -/
theorem identifyReplies : Obligations.IdentifyReplies := by
  unfold Obligations.IdentifyReplies
  refine ⟨fun s r p e b h => exec_identify h, fun r h d hversion hop hreserved howns => ?_⟩
  rw [hdrCheck_identify hversion hop hreserved howns]
  exact ⟨by simp, fun hlen => if_neg hlen⟩

/-! ### Control Reset (R174, R451) -/

theorem exec_controlReset {s : State} (h : s.reaches .manager 0xD801000 = true) :
    exec (.controlReset .manager) s = .next (s.withDev (controlReset s.dev)) :=
  congrArg Host.Outcome.next (atReg_reaches s _ _ _ h)

/-- A ready engine that no Control Reset stops yet: the reset notes when it began. -/
theorem controlReset_begins {d : Dev} (hready : d.ready = true) (hnone : d.power.ctlReset = none) :
    controlReset d = resetCores (finishBegun (dropCommands
      (updPower (fun x => { x with ctlReset := some d.time }) (setFlag 0xD801004 0 false d)))) := by
  refine if_neg ?_
  rw [hnone, hready]
  decide

/-- Steps 4 and 5 with an image that runs. -/
theorem controlResetDone_restarts {nv : Nv} {d : Dev} {n : Nat} {a : Nv × Dev} (hruns : d.power.ctlReset.isSome = true)
    (himage : d.power.noImage = false) (hn : n = min (d.fld 0xD801004 31 16 + 1) 0xFFFF)
    (ha : activate (4, n) nv d = a) (hstarted : a.2.power.noImage = false) : controlResetDone nv d =
      (a.1,
        let d' := startCores (setFlag 0xD801004 0 true (setFld 0xD801004 31 16 n
          (updPower (fun x => { x with ctlReset := none }) a.2)))
        raise 5 (d'.reg 0xD801004).toNat 0 0 d') := by
  subst hn ha
  simp only [controlResetDone, Option.isNone_eq_false_iff.2 hruns, himage, hstarted, power_updPower,
    Bool.false_eq_true, if_false]

/-! ### FW_SELECT (R488) -/

theorem exec_fwSelect {s : State} {r : Ring} {p : Read} {e : Exec} {b : List Byte}
    (h : s.runs r 0x0010 p = some (e, b)) :
    exec (.fwSelect r p) s = .next (s.onBoth (fwSelect r b)) := by
  refine congrArg Host.Outcome.next ?_
  rw [State.onBoth, commandTo_runs _ s r _ p _ e b h, State.onBoth]

/-- A slot selected without a check, with no SPI operation to wait for: one record, which the device may fail to write
(log 155). -/
theorem fwSelect_records {r : Ring} {b : List Byte} {nv : Nv} {d : Dev} (hidle : d.spiBusy = false)
    (hslot : byteAt b 0 ≤ 1) (hcheck : byteAt b 1 = 0) (hzero : zeroAt b 2 2 = true) : fwSelect r b nv d =
      if (drawWord d).1.getLsbD 0 then
        (logTorn (drawBytes 64 (drawWord d).2).1 nv, reply r stMediaError 0 [] (drawBytes 64 (drawWord d).2).2)
      else (logAppend 5 (byteAt b 0) 0 d.time nv, reply r stOk 0 [] (drawWord d).2) := by
  simp [fwSelect, hidle, Nat.not_lt.2 hslot, hcheck, hzero]

/-- Settles O11: each command's meaning where it acts, and the end of a reset, as the lemmas above say. -/
theorem engineResetsAndSelectsImages : Obligations.EngineResetsAndSelectsImages := by
  unfold Obligations.EngineResetsAndSelectsImages
  refine ⟨⟨?begins, ?ends⟩, ?selects⟩
  case begins =>
    intro s hreach hready hnone
    rw [exec_controlReset hreach, controlReset_begins hready hnone]
  case ends =>
    intro s a hruns himage ha hstarted
    refine ⟨s.onBoth controlResetDone, rfl, ?_⟩
    rw [State.onBoth, controlResetDone_restarts hruns himage rfl ha hstarted]
    exact ⟨rfl, rfl⟩
  case selects =>
    intro s r p e b h hidle hslot hcheck hzero
    rw [exec_fwSelect h, State.onBoth, fwSelect_records hidle hslot hcheck hzero]
    dsimp only
    split <;> rfl

end Sys2Proof.Proofs
end

section
/-!
PROOF. O22: the rule-set commands write the SHADOW bank. O23: SLICE_EXCEPTION_SET and ACT_CNT_INDEX. First what a command
on the SHADOW bank that runs makes of the state, then the bank that each command writes where its checks pass.
-/
namespace Sys2Proof.Proofs
open Sys2Proof Sys2Proof.Machine Sys2Proof.Laws

/-! ### Commands on the SHADOW bank (R256, R258) -/

theorem onShadow_some {d : Dev} {x : RuleSet} (hx : d.gens.shadow = some x) (r : Ring) (go : RuleSet → Dev → Dev) :
    onShadow r go d = go x d := by
  rw [onShadow, hx]

/-- A command on the SHADOW bank that runs while there is one changes the device by its meaning, on that bank. -/
theorem onDev_shadowCmd_runs {s : State} {r : Ring} {op : Nat} {p : Read} {e : Exec} {b : List Byte} {x : RuleSet}
    (hx : s.dev.gens.shadow = some x) (h : s.runs r op p = some (e, b)) (go : List Byte → RuleSet → Dev → Dev) :
    (s.onDev fun _ d => command r op p (fun _ b => onShadow r (go b)) d) = s.withDev (go b x s.dev) := by
  rw [onDev_command_runs h, onShadow_some hx]

section Runs
variable {s : State} {r : Ring} {p : Read} {e : Exec} {b : List Byte} {x : RuleSet} (hx : s.dev.gens.shadow = some x)
include hx

theorem exec_rsKeyProfile (h : s.runs r 0x0402 p = some (e, b)) :
    exec (.rsKeyProfile r p) s = .next (s.withDev (rsKeyProfile r b x s.dev)) :=
  congrArg Host.Outcome.next (onDev_shadowCmd_runs hx h _)

theorem exec_rsTableBind (h : s.runs r 0x0403 p = some (e, b)) :
    exec (.rsTableBind r p) s = .next (s.withDev (rsTableBind r b x s.dev)) :=
  congrArg Host.Outcome.next (onDev_shadowCmd_runs hx h _)

theorem exec_rsTcamWrite (h : s.runs r 0x0404 p = some (e, b)) :
    exec (.rsTcamWrite r p) s = .next (s.withDev (rsTcamWrite r b x s.dev)) :=
  congrArg Host.Outcome.next (onDev_shadowCmd_runs hx h _)

/-- RS_ACTION_WRITE of the length that its TYPE and COUNT require (R260). -/
theorem exec_rsActionWrite (h : s.runs r 0x0405 p = some (e, b)) (hlen : ∀ n, actionLen b = some n → e.plen = n) :
    exec (.rsActionWrite r p) s = .next (s.withDev (rsActionWrite r b x s.dev)) := by
  refine congrArg Host.Outcome.next ((onDev_command_runs h _).trans (congrArg s.withDev ?_))
  cases hn : actionLen b with
  | none => exact onShadow_some hx r _
  | some n =>
    have hplen : e.plen = n := hlen n hn
    simp only [hplen, bne_self_eq_false, Bool.false_eq_true, if_false]
    exact onShadow_some hx r _

theorem exec_rsEncapWrite (h : s.runs r 0x0406 p = some (e, b)) :
    exec (.rsEncapWrite r p) s = .next (s.withDev (rsEncapWrite r b x s.dev)) :=
  congrArg Host.Outcome.next (onDev_shadowCmd_runs hx h _)

theorem exec_rsParsePolicy (h : s.runs r 0x0407 p = some (e, b)) :
    exec (.rsParsePolicy r p) s = .next (s.withDev (rsParsePolicy r b x s.dev)) :=
  congrArg Host.Outcome.next (onDev_shadowCmd_runs hx h _)

theorem exec_rsPatternWrite (h : s.runs r 0x0408 p = some (e, b)) :
    exec (.rsPatternWrite r p) s = .next (s.withDev (rsPatternWrite r b x s.dev)) :=
  congrArg Host.Outcome.next (onDev_shadowCmd_runs hx h _)

theorem exec_rsPolicerProfile (h : s.runs r 0x0409 p = some (e, b)) :
    exec (.rsPolicerProfile r p) s = .next (s.withDev (rsPolicerProfile r b x s.dev)) :=
  congrArg Host.Outcome.next (onDev_shadowCmd_runs hx h _)

end Runs

/-! ### The bank that each command writes (R190, R197, R206-R210, R226, R260, R283, R346) -/

section Writes
variable {b : List Byte} {x : RuleSet} {d : Dev} (r : Ring)

/-- A key profile with the contents of CURRENT's redefines no table (R210). -/
theorem rsKeyProfile_writes (hfaults : clean (profileFaults b) = true)
    (hsame : mfind d.gens.rules.profiles (byteAt b 0) = some b) :
    rsKeyProfile r b x d = shadowSet r { x with profiles := mput x.profiles (byteAt b 0) b } d := by
  rw [rsKeyProfile, checks_clean _ _ _ _ hfaults, if_pos hsame]
  rfl

/-- A table that CURRENT does not define is not redefined (R210). -/
theorem rsTableBind_writes (hfields : clean (bindFields b) = true) (hfaults : clean (bindFaults b x) = true)
    (hnew : d.gens.rules.kind (byteAt b 0) = 0) :
    rsTableBind r b x d = shadowSet r { x with
      tcam := keepRules b x
      tables := if tKind b = 0 then mdel x.tables (byteAt b 0) else mput x.tables (byteAt b 0) b } d := by
  simp only [rsTableBind, hnew, bne_self_eq_false, Bool.false_and, Bool.false_eq_true, if_false]
  rw [checks_clean _ _ _ _ (by simp [hfields, hfaults])]
  rfl

/-- A rule in FORMAT 0. -/
theorem rsTcamWrite_writes (hkind : tcamKind (x.kind (byteAt b 0)) = true) (hformat : byteAt b 1 = 0)
    (hindex : le b 2 2 < perUnit (x.kind (byteAt b 0)) * tSize (x.table (byteAt b 0))) (hflags : byteAt b 4 < 2)
    (hzero : zeroAt b 5 3 = true) (hshort : x.kind (byteAt b 0) = 3 → zeroAt b 28 20 = true ∧ zeroAt b 68 20 = true) :
    rsTcamWrite r b x d = shadowSet r { x with
      tcam := if bit (byteAt b 4) 0 then mput x.tcam (byteAt b 0 * 65536 + le b 2 2) (ruleBytes b)
              else mdel x.tcam (byteAt b 0 * 65536 + le b 2 2) } d := by
  rw [rsTcamWrite, checks_clean]
  by_cases h3 : x.kind (byteAt b 0) = 3
  · obtain ⟨hvalue, hmask⟩ := hshort h3
    simp [hkind, hformat, hindex, hflags, hzero, hvalue, hmask]
  · simp [hkind, hformat, hindex, hflags, hzero, h3]

/-- TYPE selects what is written: an action list, a group or an egress binding. -/
theorem rsActionWrite_writes (hfaults : clean (actionFaults b) = true) :
    rsActionWrite r b x d = shadowSet r (
      if byteAt b 0 = 0 then { x with lists := if bit (byteAt b 1) 0 then mput x.lists (le b 2 2) (bytesAt b 8 128)
                                               else mdel x.lists (le b 2 2) }
      else if byteAt b 0 = 1 then { x with groups := mset [] x.groups (le b 2 2) (bytesAt b 8 (8 * le b 4 2)) }
      else { x with egress := mset 0xFFFF x.egress (le b 2 2) (le b 8 2) }) d := by
  rw [rsActionWrite, checks_clean _ _ _ _ hfaults]
  by_cases hlist : byteAt b 0 = 0
  · simp only [if_pos hlist]
  · by_cases hgroup : byteAt b 0 = 1
    · simp only [if_neg hlist, if_pos hgroup]
    · simp only [if_neg hlist, if_neg hgroup]

theorem rsEncapWrite_writes (hfaults : clean (encapFaults x b) = true) :
    rsEncapWrite r b x d = shadowSet r { x with
      templates := if eType b = 0 then mdel x.templates (le b 0 2) else mput x.templates (le b 0 2) b } d :=
  checks_clean _ _ _ _ hfaults

theorem rsParsePolicy_writes (hports : portTwice b = none) (hmodes : ∀ i < 4, byteAt b (32 + i) ≤ 2)
    (hflags : byteAt b 36 < 64) (hzero : byteAt b 37 = 0) (hdepth : le b 38 2 ≤ 1024) (hzero' : zeroAt b 40 8 = true) :
    rsParsePolicy r b x d = shadowSet r { x with policy := if b = policyDefault then none else some b } d := by
  have hclean : clean ((List.range 4).map fun i => bad (byteAt b (32 + i) > 2) (32 + i)) = true :=
    clean_map_none fun i hi => by simp [bad, hmodes i (List.mem_range.1 hi)]
  rw [rsParsePolicy, checks_clean]
  simp only [clean_append, hclean]
  simp [hports, hflags, hzero, hdepth, hzero']

theorem rsPatternWrite_writes (hfaults : clean (patternFaults b) = true) :
    rsPatternWrite r b x d = shadowSet r { x with
      patterns := if bit (byteAt b 2) 0 then mput x.patterns (le b 0 2) b else mdel x.patterns (le b 0 2) } d :=
  checks_clean _ _ _ _ hfaults

theorem rsPolicerProfile_writes (hfaults : clean (policerProfileFaults b) = true) :
    rsPolicerProfile r b x d = shadowSet r { x with
      policers := if bit (byteAt b 1) 0 then mput x.policers (byteAt b 0) b else mdel x.policers (byteAt b 0) } d :=
  checks_clean _ _ _ _ hfaults

end Writes

/-- Settles O22: each command acts on the SHADOW bank, and the bank it writes there is its lemma's above. -/
theorem ruleSetCommandsWriteTheShadow : Obligations.RuleSetCommandsWriteTheShadow := by
  unfold Obligations.RuleSetCommandsWriteTheShadow
  intro s p e b x set hx hset
  have hwritten (y : RuleSet) : s.withDev (shadowSet .manager y s.dev) = set y := (hset y).symm
  refine ⟨?profile, ?table, ?rule, ?action, ?template, ?policy, ?pattern, ?policer⟩
  case profile =>
    intro h hfaults hsame
    rw [exec_rsKeyProfile hx h, rsKeyProfile_writes _ hfaults hsame, hwritten]
  case table =>
    intro h hfields hfaults hnew
    rw [exec_rsTableBind hx h, rsTableBind_writes _ hfields hfaults hnew, hwritten]
  case rule =>
    intro h hkind hformat hindex hflags hzero hshort
    rw [exec_rsTcamWrite hx h, rsTcamWrite_writes _ hkind hformat hindex hflags hzero hshort, hwritten]
  case action =>
    intro h hlen hfaults
    rw [exec_rsActionWrite hx h hlen, rsActionWrite_writes _ hfaults, hwritten]
  case template =>
    intro h hfaults
    rw [exec_rsEncapWrite hx h, rsEncapWrite_writes _ hfaults, hwritten]
  case policy =>
    intro h hports hmodes hflags hzero hdepth hzero'
    rw [exec_rsParsePolicy hx h, rsParsePolicy_writes _ hports hmodes hflags hzero hdepth hzero', hwritten]
  case pattern =>
    intro h hfaults
    rw [exec_rsPatternWrite hx h, rsPatternWrite_writes _ hfaults, hwritten]
  case policer =>
    intro h hfaults
    rw [exec_rsPolicerProfile hx h, rsPolicerProfile_writes _ hfaults, hwritten]

/-! ### SLICE_EXCEPTION_SET (R195) -/

theorem exec_sliceExceptionSet {s : State} {r : Ring} {p : Read} {e : Exec} {b : List Byte}
    (h : s.runs r 0x0420 p = some (e, b)) :
    exec (.sliceExceptionSet r p) s = .next (s.withDev (sliceExceptionSet r e b s.dev)) :=
  congrArg Host.Outcome.next (onDev_command_runs h _)

/-- The policy of the command's owner, whose queue lies within its quota or is none. -/
theorem sliceExceptionSet_sets {r : Ring} {e : Exec} {b : List Byte} {d : Dev} {o : Owner} (ho : cmdOwner r e = some o)
    (hfaults : clean (excFaults b) = true) (hslice : r = .manager → e.slice ≠ 0xFFFF)
    (hqueue : le b 2 2 = 0xFFFF ∨ le b 2 2 < d.queueQuota o) :
    sliceExceptionSet r e b d = reply r stOk 0 [] (updOwner o (fun x =>
      { x with queue := le b 2 2, lenOver := byteAt b 4, trailer := byteAt b 5, malformed := byteAt b 6,
               depth := byteAt b 7, oversize := byteAt b 8 }) d) := by
  have hnamed : (r == .manager && e.slice == 0xFFFF) = false := by simpa using hslice
  have hquota : (le b 2 2 != 0xFFFF && le b 2 2 ≥ d.queueQuota o) = false := by
    simpa [or_iff_not_imp_left] using hqueue
  rw [sliceExceptionSet, checks_clean _ _ _ _ (by simp [hnamed, hfaults])]
  simp only [ho, Option.getD_some, hquota, Bool.false_eq_true, if_false]

/-! ### ACT_CNT_INDEX (R265) -/

theorem exec_actCntIndexWrite {s : State} {q : Requester} (h : s.reaches q 0xD803100 = true) (ht : trusted q = true)
    (v : Word) : exec (.actCntIndexWrite q v) s = .next (s.withDev (actCntIndexWrite q v s.dev)) :=
  congrArg Host.Outcome.next (atRegAll_reaches s q 0xD803100 _ h ht)

/-- Settles O23: the command sets its owner's policy; a register write captures both counters of the pair it names. -/
theorem exceptionPolicyAndCounterCapture : Obligations.ExceptionPolicyAndCounterCapture := by
  unfold Obligations.ExceptionPolicyAndCounterCapture
  refine ⟨?policy, ?counters⟩
  case policy =>
    intro s r p e b o h ho hfaults hslice hqueue
    rw [exec_sliceExceptionSet h, sliceExceptionSet_sets ho hfaults hslice hqueue]
  case counters =>
    intro s q v h ht
    rw [exec_actCntIndexWrite h ht, actCntIndexWrite]

end Sys2Proof.Proofs
end

section
/-!
PROOF. O17 and O16: the exact-match store. First what a lookup finds after one write, and where free slots lie; then
the plan of an entry command and how a ring carries it out.
-/
namespace Sys2Proof.Proofs
open Sys2Proof Sys2Proof.Machine Sys2Proof.Laws

/-! ### Places in buckets lie below the stash (R211, R212) -/

theorem leNat_lt (l : List Byte) : leNat l < 256 ^ l.length := by
  induction l with
  | nil => simp [leNat]
  | cons x r ih =>
    have hx : x.toNat < 256 := x.isLt
    simp only [leNat, List.length_cons, Nat.pow_succ]
    omega

theorem length_bytesAt (b : List Byte) (o n : Nat) : (bytesAt b o n).length = n := by
  simp only [bytesAt, List.length_append, List.length_take, List.length_replicate]
  omega

/-- SIZE is a field of two bytes. -/
theorem tSize_lt (df : List Byte) : tSize df < 65536 := by
  have h := leNat_lt (bytesAt df 6 2)
  rwa [length_bytesAt] at h

theorem scaled_le (h : Word) (n : Nat) : h.toNat * n / 2 ^ 32 ≤ n :=
  Nat.div_le_of_le_mul (Nat.mul_le_mul_right n h.isLt.le)

theorem buckets_le (t size : Nat) (key : List Byte) :
    (buckets t size key).1 ≤ size * 1024 ∧ (buckets t size key).2 ≤ size * 1024 := by
  refine ⟨scaled_le _ _, ?_⟩
  simp only [buckets]
  split
  · split
    · exact Nat.zero_le _
    · exact (Nat.mod_lt _ (by omega)).le
  · exact scaled_le _ _

theorem not_inStash_slotKeys {kind b p : Nat} (hb : b ≤ 65535 * 1024) (hp : p ∈ slotKeys kind b) : inStash p = false := by
  obtain ⟨i, hi, rfl⟩ := List.mem_map.1 hp
  have hslots : i < slotsPer kind := List.mem_range.1 hi
  have hper : slotsPer kind ≤ 2 := by unfold slotsPer; split <;> decide
  simp only [inStash, decide_eq_false_iff_not]
  omega

/-- The slots of a key's two buckets, in the order of a lookup (R213). -/
def bucketSlots (kind : Nat) (ab : Nat × Nat) : List Nat := slotKeys kind ab.1 ++ slotKeys kind ab.2

theorem not_inStash_bucketSlots {t p : Nat} {df key : List Byte}
    (hp : p ∈ bucketSlots (tKind df) (buckets t (tSize df) key)) : inStash p = false := by
  obtain ⟨ha, hb⟩ := buckets_le t (tSize df) key
  have hsize : tSize df * 1024 ≤ 65535 * 1024 := Nat.mul_le_mul_right _ (Nat.le_of_lt_succ (tSize_lt df))
  rcases List.mem_append.1 hp with hp | hp
  · exact not_inStash_slotKeys (ha.trans hsize) hp
  · exact not_inStash_slotKeys (hb.trans hsize) hp

theorem freeSlot_some {m : Map Entry} {kind b p : Nat} (h : freeSlot m kind b = some p) :
    p ∈ slotKeys kind b ∧ mfind m p = none :=
  ⟨List.mem_of_find?_eq_some h, by simpa using List.find?_some h⟩

/-- The lowest free slot of bucket A, else of B. -/
theorem freeSlot_either {m : Map Entry} {kind p : Nat} {ab : Nat × Nat}
    (h : ((freeSlot m kind ab.1).orElse fun _ => freeSlot m kind ab.2) = some p) :
    p ∈ bucketSlots kind ab ∧ mfind m p = none := by
  cases ha : freeSlot m kind ab.1 with
  | some q =>
    rw [ha] at h
    obtain rfl : q = p := Option.some.inj h
    exact (freeSlot_some ha).imp_left (List.mem_append_left _)
  | none =>
    rw [ha] at h
    exact (freeSlot_some h).imp_left (List.mem_append_right _)

/-! ### What a lookup finds (R213) -/

/-- The entry at a place, if it has the key. -/
def heldAt (m : Map Entry) (key : List Byte) (p : Nat) : Option (Nat × Entry) := match mfind m p with
  | some e => if e.key = key then some (p, e) else none
  | none => none

theorem findKey_eq (m : Map Entry) (kind : Nat) (ab : Nat × Nat) (key : List Byte) :
    findKey m kind ab key = ((bucketSlots kind ab).findSome? (heldAt m key)).or
      (m.find? fun x => inStash x.1 && x.2.key == key) := by
  dsimp only [findKey]
  split
  · next x hx => rw [show (bucketSlots kind ab).findSome? (heldAt m key) = some x from hx]; rfl
  · next hx => rw [show (bucketSlots kind ab).findSome? (heldAt m key) = none from hx]; rfl

/-- A write changes what is held at its own place alone. -/
theorem heldAt_mput (m : Map Entry) (key : List Byte) (p q : Nat) (e : Entry) :
    heldAt (mput m p e) key q = if q = p then (if e.key = key then some (p, e) else none) else heldAt m key q := by
  unfold heldAt
  rw [mfind_mput]
  by_cases hq : q = p
  · by_cases hkey : e.key = key <;> simp [hq, hkey]
  · simp [hq]

/-- A search passes over a written place that can never satisfy it. -/
theorem find?_mput_of_not {α : Type} {f : Nat × α → Bool} {n : Nat} (hf : ∀ x, f (n, x) = false) (m : Map α) (x : α) :
    (mput m n x).find? f = m.find? f := by
  induction m with
  | nil => simp [mput, hf]
  | cons a r ih =>
    obtain ⟨k, v⟩ := a
    simp only [mput]
    split
    · simp [hf]
    · split
      · next hk => subst hk; simp [hf]
      · simp only [List.find?_cons, ih]

/-- A key that was absent is found in the slot of its buckets where it was written. -/
theorem findKey_mput_same {m : Map Entry} {kind p : Nat} {ab : Nat × Nat} {e : Entry}
    (habsent : findKey m kind ab e.key = none) (hp : p ∈ bucketSlots kind ab) :
    findKey (mput m p e) kind ab e.key = some (p, e) := by
  rw [findKey_eq, Option.or_eq_none_iff, List.findSome?_eq_none_iff] at habsent
  obtain ⟨hbuckets, -⟩ := habsent
  have hfound : ((bucketSlots kind ab).findSome? (heldAt (mput m p e) e.key)).isSome :=
    List.findSome?_isSome_iff.2 ⟨p, hp, by simp [heldAt_mput]⟩
  obtain ⟨x, hx⟩ := Option.isSome_iff_exists.1 hfound
  obtain ⟨q, hq, hheld⟩ := List.exists_of_findSome?_eq_some hx
  have hpx : (p, e) = x := by
    rw [heldAt_mput, hbuckets q hq] at hheld
    by_cases hqp : q = p <;> simp_all
  rw [findKey_eq, hx, hpx, Option.some_or]

/-- A write of another key to a free slot changes nothing for a lookup. -/
theorem findKey_mput_other {m : Map Entry} {kind p : Nat} {ab : Nat × Nat} {e : Entry} {key : List Byte}
    (hkey : key ≠ e.key) (hfree : mfind m p = none) (hp : inStash p = false) :
    findKey (mput m p e) kind ab key = findKey m kind ab key := by
  have hheld : heldAt (mput m p e) key = heldAt m key := by
    funext q
    rw [heldAt_mput, if_neg hkey.symm]
    split
    · next hq => rw [hq, heldAt, hfree]
    · rfl
  rw [findKey_eq, findKey_eq, hheld, find?_mput_of_not fun x => by simp [hp]]

/-! ### Insertion into a free slot (R214) -/

theorem planNew_free {t now draw p : Nat} {df : List Byte} {m : Map Entry} {e : Entry}
    (h : ((freeSlot m (tKind df) (buckets t (tSize df) e.key).1).orElse fun _ =>
      freeSlot m (tKind df) (buckets t (tSize df) e.key).2) = some p) :
    planNew t df now draw m e = { status := stOk, writes := [[(p, some e)]], added := true, ins := true } := by
  simp only [planNew, h]

/-- A write of an entry sets no more than its HIT_TIME (R219). -/
theorem putSlot_some (now : Nat) (m : Map Entry) (p : Nat) (e : Entry) :
    ∃ hit, putSlot now m (p, some e) = mput m p { e with hit := hit } := ⟨_, rfl⟩

/-- Settles O17: the plan writes the key to one free slot of its buckets, and lookups after that write are the lemmas'
above. -/
theorem insertedKeyIsFound : Obligations.InsertedKeyIsFound := by
  unfold Obligations.InsertedKeyIsFound
  intro t df now draw m e p habsent hfree
  obtain ⟨hp, hnone⟩ := freeSlot_either hfree
  obtain ⟨hit, hput⟩ := putSlot_some now m p e
  rw [planNew_free hfree, hput]
  refine ⟨rfl, rfl, ⟨_, findKey_mput_same (e := { e with hit := hit }) habsent hp, rfl, rfl, rfl⟩, fun key hkey => ?_⟩
  rw [findKey_mput_other (e := { e with hit := hit }) hkey hnone (not_inStash_bucketSlots hp)]

/-! ### Entry commands on a ring (R220-R223) -/

/-- Each entry command is its operation's, on the header and parameters of the command that runs. -/
theorem exec_entryCommand {op : EntryOp} {c : Ring → Read → Instr} {code : Nat}
    (hc : (op = .insert ∧ c = .entryInsert ∧ code = 0x0301) ∨
      (op = .ifAbsent ∧ c = .entryInsertIfAbsent ∧ code = 0x0302) ∨ (op = .modify ∧ c = .entryModify ∧ code = 0x0303) ∨
      (op = .delete ∧ c = .entryDelete ∧ code = 0x0304) ∨ (op = .lookup ∧ c = .entryLookup ∧ code = 0x0305))
    {s : State} {r : Ring} {p : Read} {e : Exec} {b : List Byte} (h : s.runs r code p = some (e, b)) :
    exec (c r p) s = .next (s.withDev (entryCommand op r e b s.dev)) := by
  rcases hc with ⟨rfl, rfl, rfl⟩ | ⟨rfl, rfl, rfl⟩ | ⟨rfl, rfl, rfl⟩ | ⟨rfl, rfl, rfl⟩ | ⟨rfl, rfl, rfl⟩
  all_goals exact congrArg Host.Outcome.next (onDev_command_runs h _)

/-- The entry that a plan evicts goes to the host. -/
def writeEvicted (r : Ring) (b : List Byte) (p : Plan) (d : Dev) : Dev := match p.evicted with
  | some (v, age) => ringData r [(le b 8 8, entryRecord (byteAt b 0) (d.gens.rules.kind (byteAt b 0)) age false v)] d
  | none => d

/-- A plan carried out for a ring's command with parameters b, which replies with its outcome. -/
def runEntry (r : Ring) (b : List Byte) (p : Plan) (d : Dev) : Dev :=
  runPlan (byteAt b 0) p (fun ws => .reply r p.status p.detail ws) (begin' r (writeEvicted r b p d))

theorem runEntry_keeps {p : Plan} (h : p.evicted = none) (r : Ring) (b : List Byte) (d : Dev) :
    runEntry r b p d = runPlan (byteAt b 0) p (fun ws => .reply r p.status p.detail ws) (begin' r d) := by
  rw [runEntry, writeEvicted, h]

theorem runEntry_evicts {p : Plan} {v : Entry} {age : Nat} (h : p.evicted = some (v, age)) (r : Ring) (b : List Byte)
    (d : Dev) : runEntry r b p d =
      runPlan (byteAt b 0) p (fun ws => .reply r p.status p.detail ws) (begin' r
        (ringData r [(le b 8 8, entryRecord (byteAt b 0) (d.gens.rules.kind (byteAt b 0)) age false v)] d)) := by
  rw [runEntry, writeEvicted, h]

section Entry
variable {op : EntryOp} {e : Exec} {b : List Byte} {d : Dev}

/-- An operation that no staged insertion keeps waiting (R217). -/
theorem not_held (hheld : op ≠ .lookup → d.tableHeld (byteAt b 0) = false) :
    (op != .lookup && d.tableHeld (byteAt b 0)) = false := by
  by_cases hop : op = .lookup
  · simp [hop]
  · rw [hheld hop, Bool.and_false]

/-- The manager's command acts on the key as it stands, for the owner that its flag gives. -/
theorem entryCommand_manager (hclean : clean (entryFaults op .manager b d) = true)
    (hheld : op ≠ .lookup → d.tableHeld (byteAt b 0) = false) :
    entryCommand op .manager e b d = runEntry .manager b
      (planEntry op (byteAt b 0) (bytesAt b 16 (pKeyLen (d.gens.rules.profileOf (byteAt b 0)))) (bytesAt b 64 8)
        (if bit (byteAt b 1) 0 then some (le b 2 2) else none) none d) d := by
  rw [entryCommand, checks_clean _ _ _ _ hclean]
  simp only [slicePath, bne_self_eq_false, Bool.false_and, Option.isSome_none, not_held hheld, Bool.false_eq_true,
    if_false]
  rfl

/-- A slice's command acts on the key with the slice's number in it, for the slice, on its own entries (R221). -/
theorem entryCommand_slice {r : Ring} {o : Nat} (hr : r ≠ .manager) (hclean : clean (entryFaults op r b d) = true)
    (hslice : e.slice < 4096) (ho : pSlice (d.gens.rules.profileOf (byteAt b 0)) = some o)
    (hheld : op ≠ .lookup → d.tableHeld (byteAt b 0) = false) :
    entryCommand op r e b d = runEntry r b
      (planEntry op (byteAt b 0) (putLe (bytesAt b 16 (pKeyLen (d.gens.rules.profileOf (byteAt b 0)))) o 2 e.slice)
        (bytesAt b 64 8) (some e.slice) (some e.slice) d) d := by
  have hpath : slicePath r e = some e.slice := by
    cases r with
    | manager => exact absurd rfl hr
    | function _ => exact if_pos hslice
    | slice _ => exact if_pos hslice
  rw [entryCommand, checks_clean _ _ _ _ hclean]
  simp only [hpath, ho, Option.isNone_some, Bool.and_false, not_held hheld, Bool.false_eq_true, if_false]
  rfl

end Entry

/-- A slice's operation on an entry that it does not own writes nothing (R221). -/
theorem planEntry_not_owned {op : EntryOp} {t k q : Nat} {key data : List Byte} {owner : Option Nat} {d : Dev} {x : Entry}
    (hfound : findKey (if op = .lookup then d.table t else d.tableWith t fun _ => true).ents
      (tKind (d.gens.rules.table t)) (buckets t (tSize (d.gens.rules.table t)) key) key = some (q, x))
    (hother : x.owner ≠ some k) : (planEntry op t key data owner (some k) d).writes = [] := by
  have hdenied : ((some k).isSome && x.owner != some k) = true := by simpa using hother
  simp only [planEntry, hfound, hdenied, if_true]
  split <;> rfl

/-- Settles O16: each command carries out the plan of its operation, for the key, owner and path of its ring. -/
theorem entryCommandsChangeTables : Obligations.EntryCommandsChangeTables := by
  unfold Obligations.EntryCommandsChangeTables
  refine ⟨?manager, ?slice, ?owned⟩
  case manager =>
    rintro op c code hc s p e b plan h hclean hheld rfl
    rw [exec_entryCommand hc h, entryCommand_manager hclean hheld]
    refine ⟨fun hkept => ?_, fun v age hevicted => ?_⟩
    · rw [runEntry_keeps hkept]
    · rw [runEntry_evicts hevicted]
  case slice =>
    rintro op c code hc s r p e b o plan hr h hclean hslice ho hheld rfl hkept
    rw [exec_entryCommand hc h, entryCommand_slice hr hclean hslice ho hheld, runEntry_keeps hkept]
  case owned =>
    intro op t key data owner k d q x hfound hother
    exact planEntry_not_owned hfound hother

end Sys2Proof.Proofs
end

section
/-!
PROOF. O19: LPM_INSERT and LPM_DELETE. O20: AGE_SCAN, AGE_VISIT and TABLE_QUERY. First each command's meaning where its
checks pass and nothing holds its table; the statements are put together from these.
-/
namespace Sys2Proof.Proofs
open Sys2Proof Sys2Proof.Machine Sys2Proof.Laws

/-! ### LPM tables (R229-R231) -/

section Lpm
variable {s : State} {r : Ring} {p : Read} {e : Exec} {b : List Byte} {d : Dev}

theorem exec_lpmInsert (h : s.runs r 0x0307 p = some (e, b)) :
    exec (.lpmInsert r p) s = .next (s.withDev (lpmInsert r b s.dev)) :=
  congrArg Host.Outcome.next (onDev_command_runs h _)

theorem exec_lpmDelete (h : s.runs r 0x0308 p = some (e, b)) :
    exec (.lpmDelete r p) s = .next (s.withDev (lpmDelete r b s.dev)) :=
  congrArg Host.Outcome.next (onDev_command_runs h _)

/-- The prefixes of the table that b names, in effect or staged. -/
def lpmList (b : List Byte) (d : Dev) : List Prefix := (d.tableWith (byteAt b 0) fun _ => true).prefixes

/-- What the parameters of an insertion put in. -/
def lpmNew (b : List Byte) (d : Dev) : Prefix := prefixOf (tKind (d.gens.rules.table (byteAt b 0))) b

/-- Rows that each of the prefixes of the table that b names takes. -/
def lpmWidth (b : List Byte) (d : Dev) : Nat := lpmRows (tKind (d.gens.rules.table (byteAt b 0)))

/-- Nothing keeps an insertion from the table that b names: its checks pass, no redefinition is pending, and no update
of the table is staged. -/
structure LpmInserts (b : List Byte) (d : Dev) : Prop where
  clean : clean (lpmFaults b d) = true
  settled : d.redefining (byteAt b 0) = false
  free : d.tableHeld (byteAt b 0) = false

theorem lpmInsert_checked (h : LpmInserts b d) : lpmInsert r b d =
    if (lpmList b d).any (samePrefix (lpmNew b d)) then
      runLpm r (byteAt b 0) [(lpmList b d).map fun y => if samePrefix (lpmNew b d) y then lpmNew b d else y] 1 0 d
    else if ((lpmList b d).length + 1) * lpmWidth b d > tSize (d.gens.rules.table (byteAt b 0)) * 1024 then
      reply r stTableFull 0 [] (count (aTbl (byteAt b 0) + 0x20) d)
    else
      let up := (lpmList b d).takeWhile fun y => y.len ≥ (lpmNew b d).len
      let down := (lpmList b d).drop up.length
      runLpm r (byteAt b 0)
        (List.replicate (shiftChunks (down.length * lpmWidth b d)) (lpmList b d) ++ [up ++ lpmNew b d :: down]) 0
        (down.length * lpmWidth b d) (count (aTbl (byteAt b 0) + 0x10) d) := by
  rw [lpmInsert, checks_clean _ _ _ _ (by simp [h.clean, h.settled])]
  simp only [h.free, Bool.false_eq_true, if_false]
  rfl

/-- Where the table has it already, it gets the new data in place. -/
theorem lpmInsert_present (h : LpmInserts b d) (hin : (lpmList b d).any (samePrefix (lpmNew b d)) = true) :
    lpmInsert r b d = runLpm r (byteAt b 0)
      [(lpmList b d).map fun y => if samePrefix (lpmNew b d) y then lpmNew b d else y] 1 0 d := by
  rw [lpmInsert_checked h, if_pos hin]

/-- One more that finds no room answers TABLE_FULL. -/
theorem lpmInsert_full (h : LpmInserts b d) (hin : (lpmList b d).any (samePrefix (lpmNew b d)) = false)
    (hfull : tSize (d.gens.rules.table (byteAt b 0)) * 1024 < ((lpmList b d).length + 1) * lpmWidth b d) :
    lpmInsert r b d = reply r stTableFull 0 [] (count (aTbl (byteAt b 0) + 0x20) d) := by
  rw [lpmInsert_checked h, if_neg (Bool.eq_false_iff.1 hin), if_pos hfull]

/-- One more that finds room goes behind all prefixes as long or longer; what follows it moves. -/
theorem lpmInsert_new (h : LpmInserts b d) (hin : (lpmList b d).any (samePrefix (lpmNew b d)) = false)
    (hroom : ((lpmList b d).length + 1) * lpmWidth b d ≤ tSize (d.gens.rules.table (byteAt b 0)) * 1024)
    {up down : List Prefix} (hup : up = (lpmList b d).takeWhile fun y => y.len ≥ (lpmNew b d).len)
    (hdown : down = (lpmList b d).drop up.length) :
    lpmInsert r b d = runLpm r (byteAt b 0)
      (List.replicate (shiftChunks (down.length * lpmWidth b d)) (lpmList b d) ++ [up ++ lpmNew b d :: down]) 0
      (down.length * lpmWidth b d) (count (aTbl (byteAt b 0) + 0x10) d) := by
  subst hup hdown
  rw [lpmInsert_checked h, if_neg (Bool.eq_false_iff.1 hin), if_neg (Nat.not_lt.2 hroom)]

/-- A deletion takes out the one that it names, and what followed moves up. -/
theorem lpmDelete_present {i : Nat} (hclean : clean (lpmFaults b d) = true) (hfree : d.tableHeld (byteAt b 0) = false)
    (hfound : (lpmList b d).findIdx? (samePrefix (prefixOf (d.gens.rules.kind (byteAt b 0)) b)) = some i) :
    lpmDelete r b d = runLpm r (byteAt b 0)
      (List.replicate (shiftChunks (((lpmList b d).length - i - 1) * lpmRows (d.gens.rules.kind (byteAt b 0))) + 1)
        ((lpmList b d).eraseIdx i)) 0
      (((lpmList b d).length - i - 1) * lpmRows (d.gens.rules.kind (byteAt b 0))) d := by
  unfold lpmList at hfound ⊢
  rw [lpmDelete, checks_clean _ _ _ _ hclean]
  simp only [hfree, hfound, Bool.false_eq_true, if_false]

end Lpm

/-- Settles O19: each clause is the case of the insertion, or of the deletion, that its lemma above gives. -/
theorem lpmInsertAndDelete : Obligations.LpmInsertAndDelete := by
  unfold Obligations.LpmInsertAndDelete
  refine ⟨?insert, ?delete⟩
  case insert =>
    rintro s p e b t l x h rfl hclean hsettled hfree rfl rfl
    have hinserts : LpmInserts b s.dev := ⟨hclean, hsettled, hfree⟩
    rw [exec_lpmInsert h]
    refine ⟨fun hin => ?present, fun hin hroom up down hup hdown => ?new, fun hin hfull => ?full⟩
    case present => rw [lpmInsert_present hinserts hin]; rfl
    case new => rw [lpmInsert_new hinserts hin hroom hup hdown]; rfl
    case full => rw [lpmInsert_full hinserts hin hfull]
  case delete =>
    rintro s p e b t l x i h rfl hclean hfree rfl rfl hfound
    rw [exec_lpmDelete h, lpmDelete_present hclean hfree hfound]
    rfl

/-! ### Aging (R219, R224) -/

section Aging
variable {s : State} {r : Ring} {p : Read} {e : Exec} {b : List Byte} {d : Dev}

theorem exec_ageScan (h : s.runs r 0x0306 p = some (e, b)) :
    exec (.ageScan r p) s = .next (s.withDev (ageScan r b s.dev)) :=
  congrArg Host.Outcome.next (onDev_command_runs h _)

/-- Where a walk goes on: at the position where it stopped; without one at its end, or all ones past the table. -/
def walkNext (nb w : Nat) : Option Nat → Nat
  | some v => v
  | none => if w ≥ nb + 1024 then 0xFFFFFFFF else w

/-- The parameters of an AGE_SCAN in order: an exact-match table, a walk that begins within its nb buckets and stash,
fields in their ranges, and zero where they are reserved (R224). -/
structure ScanParams (b : List Byte) (d : Dev) (nb : Nat) : Prop where
  table : byteAt b 0 ≤ 63
  kind : exactKind (d.gens.rules.kind (byteAt b 0)) = true
  flags : byteAt b 1 ≤ 1
  owner : le b 2 2 ≤ 4095
  age_pos : 1 ≤ le b 4 2
  age_le : le b 4 2 ≤ 32767
  two_le_max : 2 ≤ le b 6 2
  max_le : le b 6 2 ≤ 4096
  start : le b 8 4 < nb + 1024
  reserved : zeroAt b 12 4 = true
  aligned : le b 16 8 % 64 = 0

/-- Such a scan writes the records of its walk to the host and answers how many and where it goes on. -/
theorem ageScan_scans {nb w : Nat} {l : List (Nat × Entry)} {x : List (Nat × Entry) × Option Nat}
    (h : ScanParams b d nb) (hnb : nb = tSize (d.gens.rules.table (byteAt b 0)) * 1024)
    (hw : w = min (nb + 1024) (le b 8 4 + 65536))
    (hl : l = (d.table (byteAt b 0)).ents.filter (fun x => le b 8 4 ≤ walkPos nb x.1 && walkPos nb x.1 < w &&
      entryAge d.time x.2 ≥ le b 4 2 && (!bit (byteAt b 1) 0 || x.2.owner == some (le b 2 2))))
    (hx : x = takeWalk nb (le b 6 2) ((l.map fun x => walkPos nb x.1).eraseDups) l 0) :
    ageScan r b d = reply r stOk 0 [x.1.length, walkNext nb w x.2]
      (ringData r (x.1.zipIdx.map fun e => (le b 16 8 + 64 * e.2,
        entryRecord (byteAt b 0) (tKind (d.gens.rules.table (byteAt b 0))) (entryAge d.time e.1.2) (inStash e.1.1)
          e.1.2)) d) := by
  obtain ⟨htable, hkind, hflags, howner, hpos, hage, htwo, hmax, hstart, hreserved, haligned⟩ := h
  rw [ageScan, ← hnb, checks_clean]
  · dsimp only
    rw [← hw, ← hl, ← hx]
    rfl
  · simp [htable, hkind, hflags, howner, Nat.ne_of_gt hpos, hage, Nat.lt_of_succ_le htwo, hmax, hstart, hreserved,
      haligned]

/-- What the adapter's visit makes of an entry: an age of 32,768 s or more becomes that age (R219). -/
def pulled (now : Nat) (e : Entry) : Entry :=
  if entryAge now e ≥ 32768 then { e with hit := List.replicate 4 (second now - 32768) } else e

theorem exec_ageVisit (s : State) (t : Fin 64) : exec (.ageVisit t) s = .next (s.withDev (ageVisit t s.dev)) := rfl

theorem ents_ageVisit (t : Nat) (d : Dev) :
    ((ageVisit t d).table t).ents = mmap (d.table t).ents fun _ e => pulled d.time e := by
  simp [ageVisit, pulled]

/-- The visit changes the entries of its table and nothing else. -/
theorem ageVisit_eq (t : Nat) (d : Dev) :
    ageVisit t d = updTable t (fun x => { x with ents := ((ageVisit t d).table t).ents }) d :=
  updTable_congr _ _ _ _ (by rw [ents_ageVisit]; rfl)

/-! ### TABLE_QUERY (R225) -/

theorem exec_tableQuery (h : s.runs r 0x0309 p = some (e, b)) :
    exec (.tableQuery r p) s = .next (s.withDev (tableQuery r e b s.dev)) :=
  congrArg Host.Outcome.next (onDev_command_runs h _)

/-- The answer to a query of table t: its definition, and two words of its use. -/
def queryWords (d : Dev) (t used more : Nat) : List Nat :=
  let df := d.gens.rules.table t
  [tKind df + tProfile df * 2 ^ 8 + tEvict df * 2 ^ 16 + b2n (d.redefining t) * 2 ^ 24, capacity df, used, more,
    tBase df, tSize df]

section Query
variable (htable : byteAt b 0 ≤ 63) (h1 : byteAt b 1 = 0) (h2 : byteAt b 2 = 0) (h3 : byteAt b 3 = 0)
include htable h1 h2 h3

theorem queryFaults_clean : clean [bad (byteAt b 0 > 63) 0, bad (byteAt b 1 != 0) 1, bad (byteAt b 2 != 0) 2,
    bad (byteAt b 3 != 0) 3] = true := by
  simp [htable, h1, h2, h3]

/-- A query that names no slice answers the use of the table. -/
theorem tableQuery_table (hnone : d.slice e.slice = none) : tableQuery r e b d =
    reply r stOk 0 (queryWords d (byteAt b 0) (d.tableInUse (byteAt b 0))
      (if exactKind (tKind (d.gens.rules.table (byteAt b 0))) then stashCount (d.table (byteAt b 0)).ents else 0)) d := by
  rw [tableQuery, checks_clean _ _ _ _ (queryFaults_clean htable h1 h2 h3), hnone]
  rfl

/-- A query that names a slice answers the slice's entries and its cap. -/
theorem tableQuery_slice {x : Slice} (hx : d.slice e.slice = some x) : tableQuery r e b d =
    reply r stOk 0 (queryWords d (byteAt b 0)
      (if exactKind (tKind (d.gens.rules.table (byteAt b 0))) then ownedBy (d.table (byteAt b 0)).ents e.slice else 0)
      (x.caps.getD (byteAt b 0) 0)) d := by
  rw [tableQuery, checks_clean _ _ _ _ (queryFaults_clean htable h1 h2 h3), hx]
  rfl

end Query
end Aging

/-- Settles O20: the scan, the visit and the query, as the lemmas above say. -/
theorem agingAndTableQuery : Obligations.AgingAndTableQuery := by
  unfold Obligations.AgingAndTableQuery
  refine ⟨?scan, ?visit, ?query⟩
  case scan =>
    rintro s p e b t nb w l x h rfl htable hkind hflags howner hpos hage htwo hmax hnb hstart hreserved haligned hw hl hx
    have hparams : ScanParams b s.dev nb :=
      ⟨htable, hkind, hflags, howner, hpos, hage, htwo, hmax, hstart, hreserved, haligned⟩
    rw [exec_ageScan h, ageScan_scans hparams hnb hw hl hx]
    rfl
  case visit =>
    intro s t
    refine ⟨ageVisit t s.dev, exec_ageVisit s t, ageVisit_eq t s.dev, fun k => ?_⟩
    rw [ents_ageVisit, mfind_mmap]
    rfl
  case query =>
    rintro s p e b t df h rfl htable h1 h2 h3 rfl
    rw [exec_tableQuery h]
    refine ⟨fun hnone => ?_, fun x hx => ?_⟩
    · rw [tableQuery_table htable h1 h2 h3 hnone]
      rfl
    · rw [tableQuery_slice htable h1 h2 h3 hx]
      rfl

end Sys2Proof.Proofs
end

section
/-!
PROOF. O21: RS_OPEN, GEN_COMMIT, GEN_QUERY and the retirement of a generation. First each command's meaning where its
checks pass, and what the commit's update makes of the banks; the statement is put together from these.
-/
namespace Sys2Proof.Proofs
open Sys2Proof Sys2Proof.Machine Sys2Proof.Laws

section Generations
variable {s : State} {r : Ring} {p : Read} {e : Exec} {b : List Byte} {d : Dev} {x : RuleSet}

/-! ### RS_OPEN (R254, R259) -/

theorem exec_rsOpen (h : s.runs r 0x0401 p = some (e, b)) :
    exec (.rsOpen r p) s = .next (s.withDev (rsOpen r b s.dev)) :=
  congrArg Host.Outcome.next (onDev_command_runs h _)

section Open
variable (hshadow : d.gens.shadow = none) (hcommitting : d.gens.committing = none) (hzero : badBytes b 1 3 = none)
include hshadow hcommitting hzero

theorem rsOpen_copies (hflags : byteAt b 0 = 0) : rsOpen r b d = reply r stOk 0 [d.gens.current]
    { d with gens := { d.gens with shadow := some d.gens.rules, base := d.gens.current } } := by
  have hclear : bit 0 1 = false ∧ bit 0 0 = false := by decide
  rw [rsOpen, checks_clean _ _ _ _ (by simp [hflags, hzero])]
  simp [hflags, hclear, hshadow, hcommitting]

theorem rsOpen_empty (hflags : byteAt b 0 = 1) : rsOpen r b d = reply r stOk 0 [0]
    { d with gens := { d.gens with shadow := some {}, base := 0 } } := by
  have hempty : bit 1 1 = false ∧ bit 1 0 = true := by decide
  rw [rsOpen, checks_clean _ _ _ _ (by simp [hflags, hzero])]
  simp [hflags, hempty, hshadow, hcommitting]

end Open

theorem rsOpen_discards (hflags : byteAt b 0 = 2) (hzero : badBytes b 1 3 = none) (hx : d.gens.shadow = some x) :
    rsOpen r b d = reply r stOk 0 [] (discardShadow d) := by
  have hdiscard : bit 2 1 = true := by decide
  rw [rsOpen, checks_clean _ _ _ _ (by simp [hflags, hzero])]
  simp only [hflags, hdiscard, if_true]
  exact onShadow_some hx r _

/-! ### GEN_COMMIT and its apply point (R255, R256, R261) -/

theorem exec_genCommit (hx : s.dev.gens.shadow = some x) (h : s.runs r 0x0410 p = some (e, b)) :
    exec (.genCommit r p) s = .next (s.withDev (genCommit r e b x s.dev)) :=
  congrArg Host.Outcome.next ((onDev_command_runs h _).trans (congrArg s.withDev (onShadow_some hx r _)))

/-- A bank whose items are in order is staged while no generation is DRAINING. -/
theorem genCommit_stages (hbase : le b 0 2 = 0 ∨ le b 0 2 = d.gens.current) (hzero : badBytes b 2 6 = none)
    (hitems : commitFault x = none) (hdrained : d.gens.draining = none) :
    genCommit r e b x d = stageAt (d.applyPoint 4000) .commit
      [.reply r stOk 0 [nextGen d.gens.current, d.gens.current, lo32 (d.applyPoint 4000), hi32 (d.applyPoint 4000)]]
      (begin' r { d with gens := { d.gens with shadow := none, committing := some x, base := 0 } }) := by
  have hgen : (le b 0 2 != 0 && le b 0 2 != d.gens.current) = false := by simpa [or_iff_not_imp_left] using hbase
  rw [genCommit, checks_clean _ _ _ _ (by simp [hgen, hzero, hitems])]
  simp only [hdrained]

/-- The bank that is COMMITTING becomes CURRENT, and CURRENT becomes DRAINING. -/
theorem gensCommit_committing {g : Gens} (hx : g.committing = some x) (a age : Nat) :
    gensCommit a age g = { g with
      current := nextGen g.current, rules := x, applied := a, draining := some (g.current, g.rules)
      ageMax := age, committing := none, base := 0, redef := [], redefDrain := g.redef } := by
  rw [gensCommit, hx]

theorem gens_updEffect_commit (a : Nat) (d : Dev) :
    (updEffect a .commit d).gens = gensCommit a d.ageLimit d.gens := rfl

/-! ### GEN_QUERY (R262) -/

/-- What GEN_QUERY says of the banks. -/
def genWords (d : Dev) : List Nat :=
  [d.gens.current + 65536 * d.drainingGen, b2n d.gens.shadow.isSome + 2 * b2n d.gens.committing.isSome,
    lo32 d.gens.applied, hi32 d.gens.applied,
    match d.gens.draining with | some (i, _) => sat32 (d.stamped i) | none => 0, d.gens.base]

theorem exec_genQuery (h : s.runs r 0x0411 p = some (e, b)) :
    exec (.genQuery r p) s = .next (s.withDev (reply r stOk 0 (genWords s.dev) s.dev)) :=
  congrArg Host.Outcome.next (onDev_command_runs h _)

/-! ### GEN_RETIRE (R257) -/

theorem exec_genRetire (s : State) : exec .genRetire s = .next (s.withDev (genRetire s.dev)) := rfl

/-- The first multiple of 256 ns from now on that lies behind the apply point of CURRENT. -/
def retirePoint (d : Dev) : Nat := max ((d.time + 255) / 256 * 256) (d.gens.applied + 256)

/-- At point a the bank of generation n is FREE, and GEN_RETIRED says so, with n and a. -/
def retireAt (n a : Nat) (d : Dev) : Dev :=
  raise 0x06 n (lo32 a) (hi32 a) { d with gens := { d.gens with draining := none, redefDrain := [] } }

theorem genRetire_unstamped {n : Nat} (hdraining : d.gens.draining = some (n, x)) (hnone : d.stamped n = 0) :
    genRetire d = retireAt n (retirePoint d) (timeTo (retirePoint d) d) := by
  simp only [genRetire, hdraining, hnone, bne_self_eq_false, Bool.false_eq_true, if_false]
  rfl

end Generations

/-- Settles O21: each command as its lemma above says, the commit's effect by what becomes of the banks, and the
retirement of a generation that no packet carries. -/
theorem generationsOpenCommitAndRetire : Obligations.GenerationsOpenCommitAndRetire := by
  unfold Obligations.GenerationsOpenCommitAndRetire
  refine ⟨⟨?copy, ?empty, ?discard⟩, ?commit, ?effect, ?query, ?retire⟩
  case copy =>
    intro s p e b h hflags hzero hshadow hcommitting
    rw [exec_rsOpen h, rsOpen_copies hshadow hcommitting hzero hflags]
  case empty =>
    intro s p e b h hflags hzero hshadow hcommitting
    rw [exec_rsOpen h, rsOpen_empty hshadow hcommitting hzero hflags]
  case discard =>
    intro s p e b x h hflags hzero hx
    rw [exec_rsOpen h, rsOpen_discards hflags hzero hx, discardShadow]
  case commit =>
    rintro s p e b x a h hx hbase hzero hitems hdrained rfl
    rw [exec_genCommit hx h, genCommit_stages hbase hzero hitems hdrained]
  case effect =>
    intro a d x hx
    rw [gens_updEffect_commit, gensCommit_committing hx]
    exact ⟨rfl, rfl, rfl, rfl, rfl⟩
  case query =>
    intro s p e b h
    exact exec_genQuery h
  case retire =>
    rintro s n x a d hdraining hnone rfl rfl
    rw [exec_genRetire, genRetire_unstamped hdraining hnone]
    rfl

end Sys2Proof.Proofs
end

section
/-!
PROOF. O3 and O2: what a step does to the flash and the fuses, and that every command completes. First a relation
between what survives power-on before and after, which each operation on the flash and the fuses keeps; then the
commands, of which all but six leave it alone.
-/
namespace Sys2Proof.Proofs
open Sys2Proof Sys2Proof.Machine Sys2Proof.Laws

/-! ### What becomes of what survives power-on (R434, R437, R480, R491) -/

/-- The flash stays canonical, a burned field lock stays burned, and fuse slots are only added, at the end. -/
structure NvGrows (nv nv' : Nv) : Prop where
  flash : nv.wf = true → nv'.wf = true
  lock : nv.fieldLock = true → nv'.fieldLock = true
  slots : nv.slots <+: nv'.slots

theorem NvGrows.refl (nv : Nv) : NvGrows nv nv := ⟨id, id, List.prefix_rfl⟩

theorem NvGrows.trans {a b c : Nv} (h : NvGrows a b) (h' : NvGrows b c) : NvGrows a c :=
  ⟨h'.flash ∘ h.flash, h'.lock ∘ h.lock, h.slots.trans h'.slots⟩

/-! ### The flash -/

theorem nvGrows_flashProgram (o : Nat) (b : List Byte) (nv : Nv) : NvGrows nv (flashProgram o b nv) :=
  ⟨nvWf_flashProgram o b nv, id, List.prefix_rfl⟩

theorem nvGrows_flashErase (o n : Nat) (nv : Nv) : NvGrows nv (flashErase o n nv) :=
  ⟨nvWf_flashErase o n nv, id, List.prefix_rfl⟩

theorem nvGrows_flashStore (o : Nat) (b : List Byte) (nv : Nv) : NvGrows nv (flashStore o b nv) :=
  ⟨nvWf_flashStore o b nv, id, List.prefix_rfl⟩

/-! ### The event log (R485) -/

theorem nvGrows_logPlace (nv : Nv) : NvGrows nv (logPlace nv).2 := by
  unfold logPlace
  cases logNewest nv with
  | none => exact nvGrows_flashErase _ _ nv
  | some w =>
    dsimp only
    split
    · exact NvGrows.refl nv
    · exact nvGrows_flashErase _ _ nv

theorem nvGrows_logAppend (code a0 a1 t : Nat) (nv : Nv) : NvGrows nv (logAppend code a0 a1 t nv) :=
  (nvGrows_logPlace nv).trans (nvGrows_flashProgram _ _ _)

theorem nvGrows_logTorn (b : List Byte) (nv : Nv) : NvGrows nv (logTorn b nv) :=
  (nvGrows_logPlace nv).trans (nvGrows_flashStore _ _ _)

/-! ### The six operations that change it -/

/-- An activation only logs (R176, R483). -/
theorem nvGrows_activate (record : Nat × Nat) (nv : Nv) (d : Dev) : NvGrows nv (activate record nv d).1 := by
  unfold activate
  dsimp only
  split
  · exact (nvGrows_logAppend _ _ _ _ _).trans (nvGrows_logAppend _ _ _ _ _)
  · split
    · exact ((nvGrows_logAppend _ _ _ _ _).trans (nvGrows_logAppend _ _ _ _ _)).trans (nvGrows_logAppend _ _ _ _ _)
    · exact NvGrows.refl nv

theorem nvGrows_startupEffect (n : Nat) (sp : List Nat) (nv : Nv) (d : Dev) :
    NvGrows nv (startupEffect n sp nv d).1 := by
  unfold startupEffect
  repeat' split
  case isFalse.isTrue => exact nvGrows_activate _ _ _
  all_goals exact NvGrows.refl nv

theorem nvGrows_startupStep (fail : Option Nat) (sp : List Nat) (nv : Nv) (d : Dev) :
    NvGrows nv (startupStep fail sp nv d).1 := by
  unfold startupStep
  dsimp only
  split
  · exact NvGrows.refl nv
  · cases fail with
    | none => exact nvGrows_startupEffect _ _ _ _
    | some i =>
      dsimp only
      split
      · exact NvGrows.refl nv
      · exact nvGrows_startupEffect _ _ _ _

theorem nvGrows_controlResetDone (nv : Nv) (d : Dev) : NvGrows nv (controlResetDone nv d).1 := by
  unfold controlResetDone
  split
  · exact NvGrows.refl nv
  · dsimp only
    split
    · exact NvGrows.refl nv
    · exact nvGrows_activate _ _ _

/-- Each repair committed takes one fuse slot behind those that are there (R434). -/
theorem nvGrows_commitAll (m : Nat) (bad : List Nat) (l : List Repair) (n : Nat) (x : Nv × Dev) :
    NvGrows x.1 (commitAll m bad l n x).2.1 := by
  induction l generalizing n x with
  | nil => exact NvGrows.refl x.1
  | cons r l ih =>
    unfold commitAll
    dsimp only
    split
    · exact NvGrows.refl x.1
    · split
      · exact ⟨id, id, List.prefix_append _ _⟩
      · exact NvGrows.trans (b := { x.1 with slots := x.1.slots ++ [{ mem := m, unit := r.unit, committed := true }] })
          ⟨id, id, List.prefix_append _ _⟩ (ih _ (_, _))

theorem nvGrows_spareCommit (nv : Nv) (r : Ring) (bad : List Nat) (b : List Byte) (d : Dev) :
    NvGrows nv (spareCommit nv r bad b d).1 := by
  unfold spareCommit
  dsimp only
  split
  · exact NvGrows.refl nv
  · split
    · exact NvGrows.refl nv
    · exact (nvGrows_commitAll _ _ _ _ (nv, d)).trans (nvGrows_logAppend _ _ _ _ _)

theorem nvGrows_fwSelect (r : Ring) (b : List Byte) (nv : Nv) (d : Dev) : NvGrows nv (fwSelect r b nv d).1 := by
  unfold fwSelect
  dsimp only
  split
  · exact NvGrows.refl nv
  · split
    · exact NvGrows.refl nv
    · split
      · exact NvGrows.refl nv
      · split
        · exact nvGrows_logTorn _ nv
        · exact nvGrows_logAppend _ _ _ _ nv

theorem nvGrows_spiBroken (op addr len off : Nat) (b : List Byte) (nv : Nv) (d : Dev) :
    NvGrows nv (spiBroken op addr len off b nv d).1 := by
  unfold spiBroken
  dsimp only
  split
  · exact (nvGrows_flashProgram _ _ _).trans (nvGrows_flashStore _ _ _)
  · exact (nvGrows_flashErase _ _ _).trans (nvGrows_flashStore _ _ _)

theorem nvGrows_spiOpDone (fault : Option Nat) (nv : Nv) (d : Dev) : NvGrows nv (spiOpDone fault nv d).1 := by
  unfold spiOpDone
  dsimp only
  split
  · exact NvGrows.refl nv
  · split
    · exact NvGrows.refl nv
    · split
      · cases fault <;> exact NvGrows.refl nv
      · cases fault with
        | some off => exact nvGrows_spiBroken _ _ _ _ _ nv _
        | none =>
          dsimp only
          split
          · exact nvGrows_flashErase _ _ nv
          · split <;> exact nvGrows_flashProgram _ _ nv

theorem nvGrows_fieldLockDone (readBack : Bool) (nv : Nv) (d : Dev) : NvGrows nv (fieldLockDone readBack nv d).1 := by
  have hburn : NvGrows nv { nv with fieldLock := true } := ⟨id, fun _ => rfl, List.prefix_rfl⟩
  unfold fieldLockDone
  dsimp only
  repeat' split
  · exact NvGrows.refl nv
  · exact hburn
  · exact hburn.trans (nvGrows_logAppend _ _ _ _ _)
  · exact NvGrows.refl nv

/-- What holds of every end of a command's frame holds of the command (R154). -/
theorem commandTo_inv {α : Type} {P : α → Prop} {lift : Dev → α} (hlift : ∀ d, P (lift d)) (r : Ring) (op : Nat) (p : Read)
    {f : Exec → List Byte → Dev → α} (hf : ∀ e b d, P (f e b d)) (d : Dev) : P (commandTo lift r op p f d) := by
  have hrun : ∀ e b d, P (match sliceGate e d with
      | some (st, det) => lift (reply r st det [] d)
      | none => f e b d) := by
    intro e b d
    split
    · exact hlift _
    · exact hf e b d
  unfold commandTo
  split
  · exact hlift d
  · split
    · exact hlift d
    · split
      · exact hlift _
      · exact hlift _
      · split
        · dsimp only
          split
          · exact hrun _ _ _
          · exact hlift _
        · split
          · exact hrun _ _ _
          · split
            · exact hrun _ _ _
            · exact hlift _

/-! ### What a command leaves of the queue and of what survives power-on -/

section Frames
variable (s : State) (q : Requester) (off : Nat) (f : Nv → Dev → Dev)

@[simp] theorem pending_atReg : (s.atReg q off f).pending = s.pending := by
  unfold State.atReg
  repeat' split
  all_goals rfl

@[simp] theorem nv_atReg : (s.atReg q off f).nv = s.nv := by
  unfold State.atReg
  repeat' split
  all_goals rfl

@[simp] theorem pending_atRegAll : (s.atRegAll q off f).pending = s.pending := pending_atReg _ _ _ _
@[simp] theorem nv_atRegAll : (s.atRegAll q off f).nv = s.nv := nv_atReg _ _ _ _

@[simp] theorem pending_atRead : (s.atRead q off f).pending = s.pending := by
  unfold State.atRead
  repeat' split
  all_goals rfl

@[simp] theorem nv_atRead : (s.atRead q off f).nv = s.nv := by
  unfold State.atRead
  repeat' split
  all_goals rfl

@[simp] theorem pending_through (o : Option Nat) : (s.through o f).pending = s.pending := by
  unfold State.through
  repeat' split
  all_goals rfl

@[simp] theorem nv_through (o : Option Nat) : (s.through o f).nv = s.nv := by
  unfold State.through
  repeat' split
  all_goals rfl

@[simp] theorem pending_write32 (v : Word) : (s.write32 q off v).pending = s.pending := by
  cases q <;> simp [State.write32]

@[simp] theorem nv_write32 (v : Word) : (s.write32 q off v).nv = s.nv := by
  cases q <;> simp [State.write32]

@[simp] theorem pending_read32 : (s.read32 q off).pending = s.pending := by
  cases q <;> simp [State.read32]

@[simp] theorem nv_read32 : (s.read32 q off).nv = s.nv := by
  cases q <;> simp [State.read32]

@[simp] theorem pending_writeSpace (v : BitVec 64) (n : Nat) : (s.writeSpace q off v n).pending = s.pending := by
  unfold State.writeSpace
  repeat' split
  all_goals simp

@[simp] theorem nv_writeSpace (v : BitVec 64) (n : Nat) : (s.writeSpace q off v n).nv = s.nv := by
  unfold State.writeSpace
  repeat' split
  all_goals simp

@[simp] theorem pending_readSpace (n : Nat) : (s.readSpace q off n).pending = s.pending := by
  unfold State.readSpace
  repeat' split
  all_goals simp

@[simp] theorem nv_readSpace (n : Nat) : (s.readSpace q off n).nv = s.nv := by
  unfold State.readSpace
  repeat' split
  all_goals simp

theorem pending_ite_onDev (c : Bool) (g : Dev → Dev) :
    (if c then s.onDev fun _ d => g d else s).pending = s.pending := by
  cases c <;> rfl

theorem nv_ite_onDev (c : Bool) (g : Dev → Dev) : (if c then s.onDev fun _ d => g d else s).nv = s.nv := by
  cases c <;> rfl

@[simp] theorem pending_writeSpan (v : BitVec 64) (n : Nat) : (s.writeSpan q off v n).pending = s.pending := by
  cases q with
  | host g => rfl
  | core c =>
    dsimp only [State.writeSpan]
    cases coreSpace off with
    | some o => exact pending_writeSpace ..
    | none => exact pending_ite_onDev s _ _
  | manager | stitch => exact pending_writeSpace ..

@[simp] theorem nv_writeSpan (v : BitVec 64) (n : Nat) : (s.writeSpan q off v n).nv = s.nv := by
  cases q with
  | host g => rfl
  | core c =>
    dsimp only [State.writeSpan]
    cases coreSpace off with
    | some o => exact nv_writeSpace ..
    | none => exact nv_ite_onDev s _ _
  | manager | stitch => exact nv_writeSpace ..

@[simp] theorem pending_readSpan (n : Nat) : (s.readSpan q off n).pending = s.pending := by
  cases q with
  | host g => rfl
  | core c =>
    dsimp only [State.readSpan]
    cases coreSpace off with
    | some o => exact pending_readSpace ..
    | none => exact pending_ite_onDev s _ _
  | manager | stitch => exact pending_readSpace ..

@[simp] theorem nv_readSpan (n : Nat) : (s.readSpan q off n).nv = s.nv := by
  cases q with
  | host g => rfl
  | core c =>
    dsimp only [State.readSpan]
    cases coreSpace off with
    | some o => exact nv_readSpace ..
    | none => exact nv_ite_onDev s _ _
  | manager | stitch => exact nv_readSpace ..

end Frames

/-- The commands that may change the flash or the fuses. -/
def touchesNv : Instr → Bool
  | .fwSelect _ _ | .spiOpDone _ | .fieldLockBurnDone _ | .spareCommit _ _ _ | .controlResetDone | .startupStepDone _ _ => true
  | _ => false

/-- Every command answers a next state, with the queue as it was. -/
theorem exec_next (c : Instr) (s : State) : ∃ t, exec c s = .next t ∧ t.pending = s.pending := by
  cases c <;> exact ⟨_, rfl, by simp⟩

theorem nv_exec_kept {c : Instr} (h : touchesNv c = false) {s t : State} (ht : exec c s = .next t) : t.nv = s.nv := by
  cases c with
  | fwSelect | spiOpDone | fieldLockBurnDone | spareCommit | controlResetDone | startupStepDone => cases h
  | _ => cases ht; simp

/-- The commands that may change it only let it grow. -/
theorem nvGrows_exec_touches {c : Instr} (h : touchesNv c = true) {s t : State} (ht : exec c s = .next t) :
    NvGrows s.nv t.nv := by
  cases c with
  | fwSelect r p =>
    cases ht
    exact commandTo_inv (P := fun x : Nv × Dev => NvGrows s.nv x.1) (fun _ => NvGrows.refl _) _ _ _
      (fun _ _ _ => nvGrows_fwSelect _ _ _ _) _
  | spareCommit r p bad =>
    cases ht
    exact commandTo_inv (P := fun x : Nv × Dev => NvGrows s.nv x.1) (fun _ => NvGrows.refl _) _ _ _
      (fun _ _ _ => nvGrows_spareCommit _ _ _ _ _) _
  | spiOpDone fault => cases ht; exact nvGrows_spiOpDone _ _ _
  | fieldLockBurnDone readBack => cases ht; exact nvGrows_fieldLockDone _ _ _
  | controlResetDone => cases ht; exact nvGrows_controlResetDone _ _
  | startupStepDone fail sp => cases ht; exact nvGrows_startupStep _ _ _ _
  | _ => cases h

theorem nvGrows_exec {c : Instr} {s t : State} (ht : exec c s = .next t) : NvGrows s.nv t.nv := by
  cases h : touchesNv c with
  | true => exact nvGrows_exec_touches h ht
  | false => rw [nv_exec_kept h ht]; exact NvGrows.refl _

/-- A step is a command, or the idle tick, which changes the device alone. -/
theorem nvGrows_step {s t : State} (ht : step s = .next t) : NvGrows s.nv t.nv := by
  cases h : s.pending with
  | nil => rw [step_nil h] at ht; cases ht; exact NvGrows.refl _
  | cons c l => rw [step_cons h] at ht; exact nvGrows_exec (s := { s with pending := l }) ht

/-- Settles O3: whatever a step does, what survives power-on grows in the sense of the relation above. -/
theorem fusesOnlyGrowAndFlashStaysCanonical : Obligations.FusesOnlyGrowAndFlashStaysCanonical := by
  unfold Obligations.FusesOnlyGrowAndFlashStaysCanonical
  intro s t ht hwf
  obtain ⟨hflash, hlock, l, hl⟩ := nvGrows_step ht
  exact ⟨hflash hwf, hlock, l, hl.symm⟩

/-- Settles O2: each command is a next state that keeps the queue, and all but those six change the device alone. -/
theorem everyCommandCompletes : Obligations.EveryCommandCompletes := by
  unfold Obligations.EveryCommandCompletes
  intro c s
  obtain ⟨t, ht, hpending⟩ := exec_next c s
  refine ⟨t, ht, hpending, ?_⟩
  cases c with
  | fwSelect | spiOpDone | fieldLockBurnDone | spareCommit | controlResetDone | startupStepDone => trivial
  | _ => exact nv_exec_kept rfl ht

end Sys2Proof.Proofs
end

section
/-!
PROOF. O31: the check code, and words stored through the checker. First the code is linear and each of its columns odd,
so that what a read finds wrong depends on the inverted bits alone; then what a store leaves in the memory.
-/
namespace Sys2Proof.Proofs
open Sys2Proof Sys2Proof.Machine Sys2Proof.Laws

/-! ### The check code is linear (R421) -/

theorem bit_eq_testBit (v i : Nat) : bit v i = v.testBit i := by
  rw [Nat.testBit_eq_decide_div_mod_eq]; rfl

theorem bit_xor (v w i : Nat) : bit (v ^^^ w) i = (bit v i ^^ bit w i) := by
  simp only [bit_eq_testBit, Nat.testBit_xor]

/-- The columns of a list of columns whose data bits are set, added up. -/
def columnSum (l : List (Nat × Nat)) (w c : Nat) : Nat := l.foldl (fun c e => if bit w e.2 then c ^^^ e.1 else c) c

theorem columnSum_xor (l : List (Nat × Nat)) (v w a b : Nat) :
    columnSum l (v ^^^ w) (a ^^^ b) = columnSum l v a ^^^ columnSum l w b := by
  induction l generalizing a b with
  | nil => rfl
  | cons e l ih =>
    simp only [columnSum, List.foldl_cons, bit_xor] at ih ⊢
    rw [← ih]
    congr 1
    cases bit v e.2 <;> cases bit w e.2 <;> simp [Nat.xor_comm, Nat.xor_left_comm]

theorem eccCheck_xor (v w : Nat) : eccCheck (v ^^^ w) = eccCheck v ^^^ eccCheck w := by
  have h := columnSum_xor eccColumns.zipIdx v w 0 0
  rwa [Nat.xor_self] at h

theorem eccCheck_lt (w : Nat) : eccCheck w < 2 ^ 8 := by
  have hfold : ∀ (l : List (Nat × Nat)) (c : Nat), c < 2 ^ 8 → (∀ e ∈ l, e.1 < 2 ^ 8) → columnSum l w c < 2 ^ 8 := by
    intro l
    induction l with
    | nil => intro c hc _; exact hc
    | cons e l ih =>
      intro c hc hl
      refine ih _ ?_ fun x hx => hl x (List.mem_cons_of_mem _ hx)
      dsimp only
      split
      · exact Nat.xor_lt_two_pow hc (hl e List.mem_cons_self)
      · exact hc
  exact hfold _ 0 (by decide) (by decide +kernel)

/-! ### Its columns (R421) -/

/-- An inverted data bit shows as its column, at its place. -/
theorem idxOf_eccCheck_bit : ∀ i < 64, eccColumns.idxOf? (eccCheck (2 ^ i)) = some i := by decide +kernel

/-- Bits are inverted in a column in an odd number. -/
theorem weight_eccCheck_bit : ∀ i < 64, weight (eccCheck (2 ^ i)) % 2 = 1 := by decide +kernel

/-- No column and no single check bit is even. -/
theorem even_no_column : ∀ s < 2 ^ 8, weight s % 2 = 0 →
    eccColumns.idxOf? s = none ∧ (List.range 8).find? (fun j => 2 ^ j == s) = none := by decide +kernel

/-- A single check bit is no column. -/
theorem checkBit_no_column : ∀ j < 8, eccColumns.idxOf? (2 ^ j) = none ∧
    (List.range 8).find? (fun k => 2 ^ k == 2 ^ j) = some j := by decide +kernel

theorem weight_xor (v w : Nat) : weight (v ^^^ w) % 2 = (weight v + weight w) % 2 := by
  have hbit : ∀ i, (v ^^^ w) / 2 ^ i % 2 = (v / 2 ^ i % 2 + w / 2 ^ i % 2) % 2 := by
    intro i
    rw [Nat.xor_div_two_pow, Nat.xor_mod_two_eq, Nat.add_mod]
  simp only [weight, List.range, List.range.loop, List.foldl_cons, List.foldl_nil, hbit]
  omega

/-! ### How a read judges (R422) -/

theorem eccJudge_clean (w : Nat) : eccJudge w (eccCheck w) = ⟨0, 0, w, 0⟩ := by
  simp [eccJudge]

/-- A syndrome that is a column inverts the column's bit. -/
theorem eccJudge_column {w c i : Nat} (h : eccColumns.idxOf? (eccCheck w ^^^ c) = some i) (h0 : eccCheck w ^^^ c ≠ 0) :
    eccJudge w c = ⟨1, eccCheck w ^^^ c, w ^^^ 2 ^ i, i⟩ := by
  simp only [eccJudge, h0, if_false, h]

/-- Zero is no column: its weight is even. -/
theorem eccCheck_bit_ne_zero {i : Nat} (hi : i < 64) : eccCheck (2 ^ i) ≠ 0 := by
  intro h
  have hodd := weight_eccCheck_bit i hi
  rw [h] at hodd
  exact absurd hodd (by decide)

/-- What a bit inverted in the data adds to the syndrome. -/
theorem syndrome_bit (w v : Nat) : eccCheck (w ^^^ v) ^^^ eccCheck w = eccCheck v := by
  rw [eccCheck_xor, Nat.xor_comm (eccCheck w), Nat.xor_assoc, Nat.xor_self, Nat.xor_zero]

theorem eccJudge_bit (w : Nat) {i : Nat} (hi : i < 64) :
    eccJudge (w ^^^ 2 ^ i) (eccCheck w) = ⟨1, eccCheck (2 ^ i), w, i⟩ := by
  have hs := syndrome_bit w (2 ^ i)
  rw [eccJudge_column (i := i), hs, Nat.xor_assoc, Nat.xor_self, Nat.xor_zero]
  · rw [hs]; exact idxOf_eccCheck_bit i hi
  · rw [hs]; exact eccCheck_bit_ne_zero hi

theorem xor_cancel_left (a b : Nat) : a ^^^ (a ^^^ b) = b := by
  rw [← Nat.xor_assoc, Nat.xor_self, Nat.zero_xor]

theorem eccJudge_checkBit (w : Nat) {j : Nat} (hj : j < 8) :
    eccJudge w (eccCheck w ^^^ 2 ^ j) = ⟨1, 2 ^ j, w, 64 + j⟩ := by
  obtain ⟨hcolumn, hfind⟩ := checkBit_no_column j hj
  have h0 : 2 ^ j ≠ 0 := Nat.pos_iff_ne_zero.1 (Nat.two_pow_pos j)
  simp only [eccJudge, xor_cancel_left, h0, if_false, hcolumn, hfind]

/-- An even syndrome other than 0 is never taken for good. -/
theorem eccJudge_even {w c : Nat} (h0 : eccCheck w ^^^ c ≠ 0) (hc : c < 2 ^ 8) (heven : weight (eccCheck w ^^^ c) % 2 = 0) :
    (eccJudge w c).outcome = if eccCheck w ^^^ c = 0xA5 then 3 else 2 := by
  obtain ⟨hcolumn, hfind⟩ := even_no_column _ (Nat.xor_lt_two_pow (eccCheck_lt w) hc) heven
  simp only [eccJudge, h0, if_false, hcolumn, hfind]
  split <;> rfl

theorem two_le_eccJudge_twoBits (w : Nat) {i k : Nat} (hi : i < 64) (hk : k < 64) (hne : i ≠ k) :
    2 ≤ (eccJudge (w ^^^ 2 ^ i ^^^ 2 ^ k) (eccCheck w)).outcome := by
  have hs : eccCheck (w ^^^ 2 ^ i ^^^ 2 ^ k) ^^^ eccCheck w = eccCheck (2 ^ i) ^^^ eccCheck (2 ^ k) := by
    rw [Nat.xor_assoc, syndrome_bit, eccCheck_xor]
  have h0 : eccCheck (2 ^ i) ^^^ eccCheck (2 ^ k) ≠ 0 := by
    intro h
    have hcolumn := idxOf_eccCheck_bit i hi
    rw [Nat.xor_eq_zero_iff.1 h, idxOf_eccCheck_bit k hk] at hcolumn
    exact hne (Option.some.inj hcolumn).symm
  have heven : weight (eccCheck (2 ^ i) ^^^ eccCheck (2 ^ k)) % 2 = 0 := by
    have h1 := weight_eccCheck_bit i hi
    have h2 := weight_eccCheck_bit k hk
    rw [weight_xor]
    omega
  rw [eccJudge_even (by rwa [hs]) (eccCheck_lt w) (by rwa [hs])]
  split <;> decide

theorem eccJudge_poison (w : Nat) : eccJudge w (eccCheck w ^^^ 0xA5) = ⟨3, 0xA5, w, 0⟩ := by
  have hodd : eccColumns.idxOf? 0xA5 = none ∧ (List.range 8).find? (fun j => 2 ^ j == 0xA5) = none :=
    even_no_column 0xA5 (by decide) (by decide)
  simp [eccJudge, hodd]

/-! ### What a store leaves (R422, R423) -/

theorem leNat_leBytes (n v : Nat) : leNat (leBytes n v) = v % 256 ^ n := by
  induction n generalizing v with
  | zero => simp [leBytes, leNat, Nat.mod_one]
  | succ n ih =>
    rw [leBytes, leNat, ih, BitVec.toNat_ofNat, Nat.pow_succ' (m := 256), Nat.mod_mul]

theorem memKey_inj (m a b : Nat) : memKey m a = memKey m b ↔ a = b := Nat.add_left_cancel_iff

section Store
variable (m o v c : Nat) (d : Dev)

/-- The cells of a word hold the bytes stored. -/
theorem cells_storeRaw : (List.range 8).map (fun i => cellAt (storeRaw m o v c d).mem (memKey m (o / 8 * 8 + i))) =
    leBytes 8 v := by
  simp only [storeRaw, leBytes, List.zipIdx_cons, List.zipIdx_nil, List.foldl_cons, List.foldl_nil, List.range,
    List.range.loop, List.map_cons, List.map_nil, cellAt_mset, memKey_inj, Nat.add_left_cancel_iff, Nat.reduceAdd,
    Nat.reduceEqDiff, if_true, if_false]

theorem chk_storeRaw : (storeRaw m o v c d).chk = mset 0 d.chk (memKey m o / 8) (BitVec.ofNat 8 c) := rfl

theorem rawWord_storeRaw (hv : v < 2 ^ 64) (hc : c < 2 ^ 8) : (storeRaw m o v c d).rawWord m o = (v, c) := by
  rw [Dev.rawWord, cells_storeRaw, leNat_leBytes, chk_storeRaw, cellAt_mset, if_pos rfl, BitVec.toNat_ofNat,
    Nat.mod_eq_of_lt hc, Nat.mod_eq_of_lt (b := 256 ^ 8) hv]

end Store

/-- With the flip mask not armed, a store stores the word with fresh check bits, or with the poison syndrome. -/
theorem storeWord_unarmed {d : Dev} (h : d.flag 0xE00310C 31 = false) (m o v : Nat) (p f : Bool) :
    storeWord m o v p f d = storeRaw m o v (eccCheck v ^^^ (if p then 0xA5 else 0)) d := by
  have hc : (d.reg 0xE00310C).getLsbD 31 = false := h
  simp only [storeWord, hc, Bool.and_false, Bool.false_and, Bool.false_eq_true, if_false]

/-- A read of the word just stored. -/
theorem eccJudge_stored (v : Nat) (p : Bool) : (eccJudge v (eccCheck v ^^^ (if p then 0xA5 else 0))).data = v ∧
    (eccJudge v (eccCheck v ^^^ (if p then 0xA5 else 0))).outcome = if p then 3 else 0 := by
  cases p
  · simp [eccJudge_clean]
  · simp [eccJudge_poison]

/-- Settles O31: the judgements above for what can go wrong in a word, and for the word that a store leaves. -/
theorem storedWordsAreCheckedAndCorrected : Obligations.StoredWordsAreCheckedAndCorrected := by
  unfold Obligations.StoredWordsAreCheckedAndCorrected
  refine ⟨fun w _ => ⟨eccJudge_clean w, fun i hi => ?_, fun j hj => ?_, fun i hi k hk => two_le_eccJudge_twoBits w hi hk, ?_⟩,
    fun m o v p f d ho hv harmed => ?_⟩
  · rw [eccJudge_bit w hi]; exact ⟨rfl, rfl, rfl⟩
  · rw [eccJudge_checkBit w hj]; exact ⟨rfl, rfl, rfl⟩
  · rw [eccJudge_poison]
  · have hchk : eccCheck v ^^^ (if p then 0xA5 else 0) < 2 ^ 8 :=
      Nat.xor_lt_two_pow (eccCheck_lt v) (by cases p <;> decide)
    have haligned : o / 8 * 8 = o := Nat.div_mul_cancel (Nat.dvd_of_mod_eq_zero ho)
    have hraw := rawWord_storeRaw m o v _ d hv hchk
    obtain ⟨hdata, houtcome⟩ := eccJudge_stored v p
    rw [storeWord_unarmed harmed]
    refine ⟨by rw [hraw], by rw [readWord, hraw]; exact hdata, by rw [readWord, hraw]; exact houtcome, fun k hk => ?_,
      fun k hk => ?_⟩
    · exact storeRaw_other m o v _ k d fun i hi => by rw [haligned]; exact hk i hi
    · rw [chk_storeRaw, cellAt_mset, if_neg hk]

end Sys2Proof.Proofs
end

section
/-!
PROOF. O50: GCM. Counter mode adds the same key stream when it seals and when it opens; the tag is over the ciphertext on
both sides.
-/
namespace Sys2Proof.Proofs
open Sys2Proof Sys2Proof.Machine Sys2Proof.Laws

/-! ### Pieces of a byte string -/

@[simp] theorem chunks_nil {n : Nat} (hn : 0 < n) : chunks n [] = [] := by
  simp [chunks, hn]

theorem chunks_cons {n : Nat} (hn : 0 < n) {b : List Byte} (hb : b ≠ []) :
    chunks n b = b.take n :: chunks n (b.drop n) := by
  have hlen : 0 < b.length := List.length_pos_iff.2 hb
  have hcount : (b.length + n - 1) / n = ((b.drop n).length + n - 1) / n + 1 := by
    rw [List.length_drop, ← Nat.add_div_right _ hn]
    by_cases h : b.length ≤ n
    · rw [Nat.div_eq_of_lt_le (k := 1) (by omega) (by omega), Nat.div_eq_of_lt_le (k := 1) (by omega) (by omega)]
    · congr 1; omega
  simp only [chunks, hcount, List.range_succ_eq_map, List.map_cons, List.map_map, Nat.zero_mul, List.drop_zero]
  congr 2
  funext i
  simp only [Function.comp_apply, List.drop_drop, Nat.succ_mul, Nat.add_comm]

/-! ### Counter mode (R304) -/

/-- One block with its piece of the key stream added. -/
def addStream (ks : List Nat) (iv i : Nat) (b : List Byte) : List Byte :=
  (b.zip (beBytes 16 (aesBlock ks (iv * 2 ^ 32 + i + 2)))).map fun x => x.1 ^^^ x.2

/-- Counter mode from the i-th block of the message on. -/
def ctrFrom (ks : List Nat) (iv i : Nat) (b : List Byte) : List Byte :=
  ((chunks 16 b).zipIdx i).flatMap fun c => addStream ks iv c.2 c.1

theorem gcmCtr_eq (ks : List Nat) (iv : Nat) (b : List Byte) : gcmCtr ks iv b = ctrFrom ks iv 0 b := rfl

section Stream
variable (ks : List Nat) (iv i : Nat)

theorem length_addStream {b : List Byte} (hb : b.length ≤ 16) : (addStream ks iv i b).length = b.length := by
  have hblock : ∀ v, (beBytes 16 v).length = 16 := fun v => by rw [beBytes, List.length_reverse, leBytes_length]
  rw [addStream, List.length_map, List.length_zip, hblock, Nat.min_eq_left hb]

/-- What was added once is taken away when it is added again. -/
theorem addStream_addStream {b : List Byte} (hb : b.length ≤ 16) : addStream ks iv i (addStream ks iv i b) = b := by
  have hlen := length_addStream ks iv i hb
  refine List.ext_getElem ((length_addStream ks iv i (hlen.trans_le hb)).trans hlen) fun k h1 h2 => ?_
  simp [addStream]

@[simp] theorem ctrFrom_nil : ctrFrom ks iv i [] = [] := by simp [ctrFrom]

theorem ctrFrom_step {b : List Byte} (hb : b ≠ []) :
    ctrFrom ks iv i b = addStream ks iv i (b.take 16) ++ ctrFrom ks iv (i + 1) (b.drop 16) := by
  simp [ctrFrom, chunks_cons (n := 16) (by decide) hb]

theorem ctrFrom_ctrFrom (b : List Byte) : ctrFrom ks iv i (ctrFrom ks iv i b) = b := by
  induction h : b.length using Nat.strongRecOn generalizing b i with
  | _ n ih =>
    by_cases hb : b = []
    · simp [hb]
    have hpos : 0 < b.length := List.length_pos_iff.2 hb
    have hblock := length_addStream ks iv i (b := b.take 16) (by simp)
    have hnext : (b.drop 16).length < n := by rw [List.length_drop]; omega
    rw [ctrFrom_step ks iv i hb, ctrFrom_step]
    · by_cases hlong : 16 ≤ b.length
      · have h16 : (addStream ks iv i (b.take 16)).length = 16 := by rw [hblock, List.length_take]; omega
        rw [List.take_left' h16, List.drop_left' h16, addStream_addStream ks iv i (by simp), ih _ hnext (i + 1) _ rfl,
          List.take_append_drop]
      · have hdrop : b.drop 16 = [] := List.drop_eq_nil_of_le (by omega)
        have htake : b.take 16 = b := List.take_of_length_le (by omega)
        rw [htake] at hblock
        have hle : (addStream ks iv i b).length ≤ 16 := by omega
        rw [hdrop, htake, ctrFrom_nil, List.append_nil, List.take_of_length_le hle, List.drop_eq_nil_of_le hle, ctrFrom_nil,
          List.append_nil, addStream_addStream ks iv i (by omega)]
    · refine List.ne_nil_of_length_pos ?_
      rw [List.length_append, hblock, List.length_take]
      omega

end Stream

/-- Settles O50: counter mode undoes itself, and the tag is computed from the same ciphertext. -/
theorem gcmOpensWhatItSealed : Obligations.GcmOpensWhatItSealed := by
  unfold Obligations.GcmOpensWhatItSealed
  intro key iv aad plain
  rw [gcmOpen, gcmSeal, gcmCtr_eq, gcmCtr_eq, ctrFrom_ctrFrom, beq_self_eq_true]

end Sys2Proof.Proofs
end

section
/-!
PROOF. O7, O56 and O57: stitch channels. First what a change of a channel does to its interrupt source, then the writes of
CH_CTRL, the service of an engine's queue, and the four instructions; the statements are put together from these.
-/
namespace Sys2Proof.Proofs
open Sys2Proof Sys2Proof.Machine Sys2Proof.Laws

/-! ### A change of a channel (R418) -/

theorem chan_updChan_same (e ch : Nat) (g : Chan → Chan) (d : Dev) : (updChan e ch g d).chan e ch = g (d.chan e ch) := by
  simp [updChan, Dev.chan]

/-- A change is what it makes of the present value. -/
theorem updChan_const (e ch : Nat) (f : Chan → Chan) (d : Dev) :
    updChan e ch f d = updChan e ch (fun _ => f (d.chan e ch)) d := updChan_congr e ch _ _ d rfl

theorem setChan_rises {e ch : Nat} {f : Chan → Chan} {d : Dev} (hx : (f (d.chan e ch)).level = true)
    (hwas : (d.chan e ch).level = false) : setChan e ch f d = raise 0x0E e ch (f (d.chan e ch)).bits3
      (sourceLevel (160 + 16 * e + ch) true (updChan e ch f d)) := by
  simp only [setChan, chan_updChan_same, hx, hwas]
  rfl

theorem setChan_quiet {e ch : Nat} {f : Chan → Chan} {d : Dev}
    (h : (f (d.chan e ch)).level = false ∨ (d.chan e ch).level = true) :
    setChan e ch f d = sourceLevel (160 + 16 * e + ch) (f (d.chan e ch)).level (updChan e ch f d) := by
  have hno : ((f (d.chan e ch)).level && !(d.chan e ch).level) = false := by
    rcases h with h | h <;> simp [h]
  simp only [setChan, chan_updChan_same, hno, when_false]

/-- Settles O7: the level before and after a change decides whether it rises. -/
theorem stitchLevelsRaiseEvents : Obligations.StitchLevelsRaiseEvents := by
  unfold Obligations.StitchLevelsRaiseEvents
  intro e ch f d x lv _ _ hx hlv
  obtain rfl : lv = Chan.level := funext hlv
  subst hx
  rw [← updChan_const]
  exact ⟨setChan_rises, setChan_quiet⟩

/-! ### What a change of a channel leaves alone -/

/-- The source's level and the event are all that a change of a channel does beside it. -/
theorem talk_setChan (e ch : Nat) (f : Chan → Chan) (d : Dev) : Talk (updChan e ch f d) (setChan e ch f d) :=
  (talk_sourceLevel _ _ _).trans (Talk.when (talk_raise _ _ _ _) _)

theorem chan_setChan (e ch : Nat) (f : Chan → Chan) (d : Dev) : (setChan e ch f d).chan e ch = f (d.chan e ch) :=
  ((talk_setChan e ch f d).keep (·.chan e ch) fun _ _ _ _ _ _ _ => rfl).trans (chan_updChan_same e ch f d)

theorem engine_setChan (e ch k : Nat) (f : Chan → Chan) (d : Dev) : (setChan e ch f d).engine k = d.engine k :=
  (talk_setChan e ch f d).keep (·.engine k) fun _ _ _ _ _ _ _ => rfl

theorem chan_engineFree (e ch k m : Nat) (d : Dev) : (engineFree e ch d).chan k m = d.chan k m := rfl

theorem running_engineFree (e ch : Nat) (d : Dev) : ((engineFree e ch d).engine e).running ≠ some ch := by
  rw [engineFree, engine_updEngine, if_pos rfl]
  split
  · simp
  · assumption

/-! ### CH_CTRL (R408, R409, R416, R417) -/

section Ctrl
variable {q : Requester} {e ch : Nat} {v : Word} {d : Dev}

/-- The manager and cores 0-3 write the channels, the manager not channel 0. -/
theorem chGate_open (hq : managerOr03 q = true) (h : ch ≠ 0 ∨ q ≠ .manager) (go : Dev → Dev) :
    chGate q e ch go d = go d := by
  cases q with
  | manager => exact if_neg (h.resolve_right (absurd rfl))
  | core c => exact if_pos (by simpa [managerOr03] using hq)
  | stitch | host => cases hq

/-- With CUSTOMER as it was, a write sets INT_EN; the rest depends on the state. -/
theorem chCtrlWrite_eq {x : Dev} (hcust : v.getLsbD 29 = (d.chan e ch).customer ∨ ch = 0)
    (hx : x = setChan e ch (fun x => { x with intEn := wbits v 2 0 }) d) : chCtrlWrite q e ch v d =
      if v.getLsbD 30 then when (v.getLsbD 31) (stErr e) (when (decide ((x.chan e ch).state < 3)) (chStop e ch) x)
      else
        let y := when ((x.chan e ch).state == 4)
          (setChan e ch fun x => { x with state := 0, disable := false, disDone := false }) x
        if !v.getLsbD 31 then y else if (x.chan e ch).state = 0 then chStart e ch y else stErr e y := by
  have hkept : chCustomer q e ch (v.getLsbD 29) d = d := by
    rw [chCustomer]
    refine if_pos ?_
    rcases hcust with h | h <;> simp only [h, decide_true, Bool.true_or, Bool.or_true]
  subst hx
  rw [chCtrlWrite, hkept]

variable {x : Dev} (hcust : v.getLsbD 29 = (d.chan e ch).customer ∨ ch = 0)
  (hx : x = setChan e ch (fun x => { x with intEn := wbits v 2 0 }) d)
include hcust hx

theorem chCtrlWrite_starts (hst : (x.chan e ch).state = 0) (hv : v.getLsbD 31 = true) (hdis : v.getLsbD 30 = false) :
    chCtrlWrite q e ch v d = chStart e ch x := by
  rw [chCtrlWrite_eq hcust hx, hst, hv, hdis]
  rfl

theorem chCtrlWrite_busy (hst : (x.chan e ch).state ∈ [1, 2, 3]) (hv : v.getLsbD 31 = true)
    (hdis : v.getLsbD 30 = false) : chCtrlWrite q e ch v d = stErr e x := by
  simp only [List.mem_cons, List.not_mem_nil, or_false] at hst
  rw [chCtrlWrite_eq hcust hx, hv, hdis]
  rcases hst with h | h | h <;> rw [h] <;> rfl

theorem chCtrlWrite_disables (hst : (x.chan e ch).state < 3) (hv : v.getLsbD 31 = false) (hdis : v.getLsbD 30 = true) :
    chCtrlWrite q e ch v d = chStop e ch x := by
  rw [chCtrlWrite_eq hcust hx, hv, hdis]
  simp [hst]

theorem chCtrlWrite_enables (hst : (x.chan e ch).state = 4) (hv : v.getLsbD 31 = false) (hdis : v.getLsbD 30 = false) :
    chCtrlWrite q e ch v d = setChan e ch (fun x => { x with state := 0, disable := false, disDone := false }) x := by
  rw [chCtrlWrite_eq hcust hx, hv, hdis]
  simp [hst]

end Ctrl

/-- The three commands that write CH_CTRL. -/
theorem exec_chCtrlWrite {s : State} {q : Requester} {e : Fin 2} {ch : Fin 16} {v : Word} {c : Instr}
    (hc : c ∈ [Instr.chStart q e ch v, .chDisable q e ch v, .chEnable q e ch v]) (hreach : s.reaches q 0xF000000 = true)
    (hq : managerOr03 q = true) (h0 : ch.val ≠ 0 ∨ q ≠ .manager) :
    exec c s = .next (s.withDev (chCtrlWrite q e ch v s.dev)) := by
  have hwrite : (s.atReg q 0xF000000 fun _ d => chGate q e ch (chCtrlWrite q e ch v) d) =
      s.withDev (chCtrlWrite q e ch v s.dev) := by
    rw [atReg_reaches _ _ _ _ hreach, onDev_eq_withDev, chGate_open hq h0]
  simp only [List.mem_cons, List.not_mem_nil, or_false] at hc
  obtain rfl | rfl | rfl := hc <;> exact congrArg Host.Outcome.next hwrite

/-! ### Service of the queue, and the end of a disable (R409, R416) -/

theorem exec_chRun (e : Fin 2) (f : Read) (s : State) :
    exec (.chRun e f) s = .next (s.withDev (stStart s.nv e f s.dev)) := rfl

/-- The head of the queue runs when its first instruction can be fetched; else it ends there. -/
theorem stStart_runs {nv : Nv} {e : Fin 2} {f : Read} {d x : Dev} {ch : Nat} {rest : List Nat}
    (hfree : d.engine e = { queue := ch :: rest, running := none })
    (hx : x = setChan e ch (fun x => { x with state := 2, pc := x.prog })
      (updEngine e (fun _ => { queue := rest, running := some ch }) d)) :
    stStart nv e f d = match (stFetch nv e ch f x).1 with
      | some k => stFault e ch k (stFetch nv e ch f x).2.1 (stFetch nv e ch f x).2.2
      | none => x := by
  subst hx
  simp only [stStart, hfree]
  split
  next h => rw [h]
  next h => rw [h]

theorem stStart_busy {nv : Nv} {e : Fin 2} {f : Read} {d : Dev} {ch : Nat} (h : (d.engine e).running = some ch) :
    stStart nv e f d = d := by
  simp [stStart, h]

theorem exec_chDisableDone (e : Fin 2) (ch : Fin 16) (f : Read) (s : State) :
    exec (.chDisableDone e ch f) s = .next (s.withDev (stDisableDone s.nv e ch f s.dev)) := rfl

theorem stDisableDone_idle {nv : Nv} {e : Fin 2} {ch : Nat} {f : Read} {d : Dev} (hst : (d.chan e ch).state = 3)
    (hidle : (d.engine e).running ≠ some ch) : stDisableDone nv e ch f d = chDisabled e ch d := by
  simp [stDisableDone, hst, hidle]

theorem stDisableDone_running {nv : Nv} {e : Fin 2} {ch : Nat} {f : Read} {d : Dev} (hst : (d.chan e ch).state = 3)
    (hruns : (d.engine e).running = some ch) (hfetch : (stFetch nv e ch f d).1 = none) :
    stDisableDone nv e ch f d = chDisabled e ch (stMoveLost e ch (stFetch nv e ch f d).2.1 d) := by
  simp only [stDisableDone, hst, hruns, bne_self_eq_false, Bool.false_eq_true, if_false, if_true]
  split
  next h => rw [h]
  next h => rw [h] at hfetch; cases hfetch

/-- Settles O56: each clause is a write of CH_CTRL, or a turn of the engine, in the state that its hypotheses give. -/
theorem channelsStartAndStop : Obligations.ChannelsStartAndStop := by
  unfold Obligations.ChannelsStartAndStop
  refine ⟨?writes, ?runs, ?busy, ?disabled, fun e ch d _ _ => ?ended⟩
  case writes =>
    intro s q e ch v d hreach hq h0 hcust hd
    have hwrite : ∀ c ∈ [Instr.chStart q e ch v, .chDisable q e ch v, .chEnable q e ch v],
        exec c s = .next (s.withDev (chCtrlWrite q e ch v s.dev)) := fun c hc => exec_chCtrlWrite hc hreach hq h0
    refine ⟨fun hst hv hdis => ?_, fun hst hv hdis => ?_, fun hst hv hdis => ?_, fun hst hv hdis => ?_⟩
    · rw [hwrite _ (by simp), chCtrlWrite_starts hcust hd hst hv hdis]
    · rw [hwrite _ (by simp), chCtrlWrite_busy hcust hd hst hv hdis]
    · rw [hwrite _ (by simp), chCtrlWrite_disables hcust hd hst hv hdis]
    · rw [hwrite _ (by simp), chCtrlWrite_enables hcust hd hst hv hdis]
  case runs =>
    rintro s e f ch rest d r hfree hd rfl
    rw [exec_chRun, stStart_runs hfree hd]
    exact ⟨fun h => by rw [h], fun k h => by rw [h]⟩
  case busy =>
    intro s e f ch h
    rw [exec_chRun, stStart_busy h]
    rfl
  case disabled =>
    intro s e ch f hst
    refine ⟨fun hidle => ?_, ?_⟩
    · rw [exec_chDisableDone, stDisableDone_idle hst hidle]
    · rintro r hruns rfl hfetch
      rw [exec_chDisableDone, stDisableDone_running hst hruns hfetch]
  case ended =>
    rw [chDisabled, chan_engineFree, chan_setChan]
    exact ⟨rfl, rfl, rfl⟩

/-! ### The commands of a running channel -/

section Commands
variable (s : State) (e : Fin 2) (f : Read)

theorem exec_stMove (data : Read) : exec (.stMove e f data) s =
    .next (s.withDev (stRun s.nv e 1 f (stMoveGo s.nv e data) s.dev)) := rfl

theorem exec_stLoop : exec (.stLoop e f) s = .next (s.withDev (stRun s.nv e 2 f (stLoopGo e) s.dev)) := rfl

theorem exec_stWait (w : Read) : exec (.stWait e f w) s =
    .next (s.withDev (stRun s.nv e 3 f (fun ch b d => stLook s.nv e d.time w ch b d) s.dev)) := rfl

theorem exec_stSignal : exec (.stSignal e f) s = .next (s.withDev (stRun s.nv e 4 f (stSignalGo s.nv e) s.dev)) := rfl

theorem exec_stWaitPoll (w : Read) : exec (.stWaitPoll e w) s = .next (s.withDev (stPoll s.nv e w s.dev)) := rfl

end Commands

/-! ### The instruction at CH_PC (R412, R413) -/

section Run
variable {nv : Nv} {e : Fin 2} {ch kind : Nat} {f : Read} {d d' : Dev} {b : List Byte}
variable (hruns : (d.engine e).running = some ch) (hwait : (d.chan e ch).waiting = none) (hst : (d.chan e ch).state = 2)
include hruns hwait hst

/-- An instruction that can be fetched runs when it is of the command's kind. -/
theorem stRun_fetched (hfetch : stFetch nv e ch f d = (none, b, d')) (hop : stOp b = kind)
    (go : Nat → List Byte → Dev → Dev) : stRun nv e kind f go d = go ch b d' := by
  simp [stRun, hruns, hwait, hst, hfetch, hop]

/-- A faulty instruction ends the program, whatever its kind. -/
theorem stRun_faulty {k : Nat} (hfetch : stFetch nv e ch f d = (some k, b, d')) (go : Nat → List Byte → Dev → Dev) :
    stRun nv e kind f go d = stFault e ch k b d' := by
  simp [stRun, hruns, hwait, hst, hfetch]

end Run

section Kinds
variable {nv : Nv} {e : Fin 2} {ch : Nat} {b : List Byte} {d : Dev}

theorem stMoveGo_moves {data : Read} {x : Chan} {r : StRead} (hx : x = d.chan e ch)
    (hcheck : d.stMoveCheck x (stSrc x b) (stDst x b) (stLen b) = stOk)
    (hr : r = stRead nv e ch (stSrc x b) (stLen b) data d) (hok : r.st = stOk) : stMoveGo nv e data ch b d =
      stNext e ch b (updChan e ch (fun x => { x with
        bytes := (x.bytes + stLen b) % 2 ^ 64, poison := x.poison || r.poisoned }) (stWrite (stDst x b) r.data r.dev)) := by
  subst hx hr
  simp only [stMoveGo, hcheck, hok, ne_eq, not_true_eq_false, if_false]

section Loop
variable {l : Bool × Nat} {n : Nat} (hl : l = (d.chan e ch).levels.getD (byteAt b 2) (false, 0))
  (hn : n = if l.1 then l.2 else 0)
include hl hn

theorem stLoopGo_again (hless : n < le b 4 4) : stLoopGo e ch b d = updChan e ch (fun x => { x with
    levels := x.levels.set (byteAt b 2) (true, n + 1), pc := x.pc - 32 * byteAt b 3 }) d := by
  subst hl hn
  exact if_pos hless

theorem stLoopGo_done (hdone : le b 4 4 ≤ n) : stLoopGo e ch b d = stNext e ch b
    (updChan e ch (fun x => { x with levels := x.levels.set (byteAt b 2) (false, 0) }) d) := by
  subst hl hn
  exact if_neg (Nat.not_lt.2 hdone)

end Loop

theorem stLook_time {t : Nat} {w : Read} (hmode : byteAt b 2 = 2) (hdue : le b 8 8 ≤ d.time) :
    stLook nv e t w ch b d = stNext e ch b d := by
  simp [stLook, hmode, hdue]

theorem stLook_word {t : Nat} {w : Read} {r : StRead} (hmode : byteAt b 2 < 2) (hr : r = stRead nv e ch (stAddr b) 4 w d)
    (hok : r.st = stOk) (hgood : r.poisoned = false) : stLook nv e t w ch b d =
      if stHolds b (leNat r.bytes) then stNext e ch b r.dev
      else updChan e ch (fun x => { x with waiting := some (b, t) }) r.dev := by
  subst hr
  simp [stLook, Nat.ne_of_lt hmode, hok, hgood]

theorem stSignalGo_eq {r : Nat × Dev}
    (hr : r = if bit (byteAt b 2) 0 then stPut nv e ch (stAddr b) (le b 16 4) d else (stOk, d)) :
    stSignalGo nv e ch b d = if r.1 ≠ stOk then chFault e ch r.1 r.2
      else stNext e ch b (when (bit (byteAt b 2) 1)
        (setChan e ch fun x => { x with sigval := word (le b 16 4), sig := true }) r.2) := by
  subst hr; rfl

end Kinds

/-! ### A waiting channel (R413) -/

section Poll
variable {nv : Nv} {e : Fin 2} {ch t k : Nat} {w : Read} {b : List Byte} {d : Dev}
variable (hruns : (d.engine e).running = some ch) (hwait : (d.chan e ch).waiting = some (b, t))
  (hk : k = t + 1000 * ((d.time - t) / 1000 + 1))
include hruns hwait hk

theorem stPoll_looks (h : le b 4 4 = 0 ∨ k < t + 1000 * le b 4 4) :
    stPoll nv e w d = stLook nv e t w ch b (timeTo k d) := by
  have hno : (decide (le b 4 4 ≠ 0) && decide (t + 1000 * le b 4 4 ≤ k)) = false := by
    rcases h with h | h
    · simp [h]
    · simp [Nat.not_le.2 h]
  subst hk
  simp only [stPoll, hruns, hwait, hno, Bool.false_eq_true, if_false]

theorem stPoll_times_out (h0 : le b 4 4 ≠ 0) (h : t + 1000 * le b 4 4 ≤ k) :
    stPoll nv e w d = chFault e ch stTimeout (timeTo (t + 1000 * le b 4 4) d) := by
  subst hk
  simp [stPoll, hruns, hwait, h0, h]

end Poll

/-- Settles O57: each instruction runs as its lemma above says, a faulty one ends the program, and a poll looks or ends. -/
theorem stitchProgramsRun : Obligations.StitchProgramsRun := by
  unfold Obligations.StitchProgramsRun
  refine ⟨?kinds, ?polls, ?faulty, fun e ch k d _ _ => ?ended⟩
  case kinds =>
    intro s e ch f b d hruns hwait hst hfetch
    have hrun : ∀ kind, stOp b = kind → ∀ go, stRun s.nv e kind f go s.dev = go ch b d :=
      fun kind hop go => stRun_fetched hruns hwait hst hfetch hop go
    refine ⟨?move, ?loop, ?time, ?word, ?signal⟩
    case move =>
      intro x r data hop hx hcheck hr hok
      rw [exec_stMove, hrun 1 hop, stMoveGo_moves hx hcheck hr hok]
    case loop =>
      intro l n hop hl hn
      refine ⟨fun hless => ?_, fun hdone => ?_⟩
      · rw [exec_stLoop, hrun 2 hop, stLoopGo_again hl hn hless]
      · rw [exec_stLoop, hrun 2 hop, stLoopGo_done hl hn hdone]
    case time =>
      intro w hop hmode hdue
      rw [exec_stWait, hrun 3 hop, stLook_time hmode hdue]
    case word =>
      intro w r hop hmode hr hok hgood
      refine ⟨fun h => ?_, fun h => ?_⟩
      · rw [exec_stWait, hrun 3 hop, stLook_word hmode hr hok hgood, if_pos h]
      · rw [exec_stWait, hrun 3 hop, stLook_word hmode hr hok hgood, if_neg (by simp [h])]
    case signal =>
      intro r hop hr
      refine ⟨fun h => ?_, fun h => ?_⟩
      · rw [exec_stSignal, hrun 4 hop, stSignalGo_eq hr, if_neg (not_not.2 h)]
      · rw [exec_stSignal, hrun 4 hop, stSignalGo_eq hr, if_pos h]
  case polls =>
    intro s e ch w b t k hruns hwait hk
    refine ⟨fun h => ?_, fun h0 h => ?_⟩
    · rw [exec_stWaitPoll, stPoll_looks hruns hwait hk h]
    · rw [exec_stWaitPoll, stPoll_times_out hruns hwait hk h0 h]
  case faulty =>
    intro s e ch f b d k data w hruns hwait hst hfetch c hc
    have hrun : ∀ kind go, stRun s.nv e kind f go s.dev = stFault e ch k b d :=
      fun kind go => stRun_faulty hruns hwait hst hfetch go
    simp only [List.mem_cons, List.not_mem_nil, or_false] at hc
    obtain rfl | rfl | rfl | rfl := hc
    · rw [exec_stMove, hrun]
    · rw [exec_stLoop, hrun]
    · rw [exec_stWait, hrun]
    · rw [exec_stSignal, hrun]
  case ended =>
    refine ⟨?_, ?_, running_engineFree e ch _⟩
    · rw [chFault, chan_engineFree, chan_setChan]
    · rw [chFault, chan_engineFree, chan_setChan]

end Sys2Proof.Proofs
end

section
/-!
PROOF. O8, O29 and O30: memory events, scrubs, the checker's test registers, the flip mask and spares. First each
command's meaning in the situation that its clause gives; the statements are put together from these.
-/
namespace Sys2Proof.Proofs
open Sys2Proof Sys2Proof.Machine Sys2Proof.Laws

/-! ### MEM_EVT (R428) -/

theorem memEvent_rises {i m : Nat} {d : Dev} (h : d.flag 0xE001000 i = false) : memEvent i m d = sourcePulse 206
    (raise 0x0F m ((setFlag 0xE001000 i true d).reg 0xE001000).toNat 0 (setFlag 0xE001000 i true d)) :=
  if_neg (by simp [h])

theorem memEvent_stands {i m : Nat} {d : Dev} (h : d.flag 0xE001000 i = true) : memEvent i m d = d := if_pos h

/-- Settles O8: the bit decides. -/
theorem memoryEventsRiseOnce : Obligations.MemoryEventsRiseOnce := by
  unfold Obligations.MemoryEventsRiseOnce
  exact ⟨fun _ _ _ h => memEvent_rises h, fun _ _ _ h => memEvent_stands h⟩

/-! ### Writes of the MEM block (R426) -/

/-- A write that reaches its register is the meaning behind the gate of who may write. -/
theorem atReg_mgrGate {s : State} {q : Requester} {off : Nat} (h : s.reaches q off = true) (hq : managerOr03 q = true)
    (go : Nv → Dev → Dev) : (s.atReg q off fun nv d => mgrGate q (go nv) d) = s.withDev (go s.nv s.dev) := by
  rw [atReg_reaches _ _ _ _ h, onDev_eq_withDev, mgrGate, if_pos hq]

/-! ### Scrubs (R429, R430) -/

theorem exec_scrub {s : State} {r : Ring} {p : Read} {e : Exec} {b : List Byte} (h : s.runs r 0x0B01 p = some (e, b)) :
    exec (.scrub r p) s = .next (s.withDev (scrubCmd r e b s.dev)) :=
  congrArg Host.Outcome.next (onDev_command_runs h _)

/-- A range in order names a memory that there is. -/
theorem le_of_scrubFault_none {m start len : Nat} (h : scrubFault m start len = none) : m ≤ 11 := by
  by_contra hm
  rw [scrubFault, if_pos (Nat.lt_of_not_le hm)] at h
  cases h

theorem scrubCmd_starts {r : Ring} {e : Exec} {b : List Byte} {d : Dev} {m : Nat} {x : Scrub} (hm : m = byteAt b 0)
    (hzero : zeroAt b 1 7 = true) (hrange : scrubFault m (le b 8 8) (le b 16 8) = none) (hfree : mfind d.scrubs m = none)
    (hx : x = { start := le b 8 8, len := le b 16 8, began := d.time, ring := some r }) :
    scrubCmd r e b d = begin' r { d with scrubs := mput d.scrubs m x } := by
  subst hm hx
  have hle := Nat.not_lt.2 (le_of_scrubFault_none hrange)
  simp [scrubCmd, hle, hzero, hrange, hfree]

theorem exec_scrubGo {s : State} {q : Requester} (h : s.reaches q 0xE002000 = true) (hq : managerOr03 q = true) (v : Word) :
    exec (.scrubGo q v) s = .next (s.withDev (scrubCtrlWrite v s.dev)) :=
  congrArg Host.Outcome.next (atReg_mgrGate h hq _)

/-- A GO that names memory m clears the summary of the scrub before. -/
def scrubCleared (m : Nat) (d : Dev) : Dev :=
  setReg 0xE00202C 0 (setReg64 0xE002024 (2 ^ 64 - 1) (setReg 0xE002020 0 (setReg 0xE00201C 0 (setReg 0xE002018 0
    (setReg 0xE002000 (word m) d)))))

theorem scrubCtrlWrite_starts {v : Word} {m : Nat} {d x : Dev} (hidle : d.scrubBusy = false) (hv : v.getLsbD 31 = true)
    (hm : m = wbits v 3 0) (hx : x = scrubCleared m d)
    (hrange : scrubFault m (x.reg64 0xE002008) (x.reg64 0xE002010) = none) (hfree : mfind x.scrubs m = none) :
    scrubCtrlWrite v d = { setReg 0xE002004 (word (2 ^ 31 + stPending)) x with
      scrubs := mput x.scrubs m { start := x.reg64 0xE002008, len := x.reg64 0xE002010, began := x.time, ring := none } } := by
  have hgo : scrubCtrlWrite v d = match scrubFault m (x.reg64 0xE002008) (x.reg64 0xE002010) with
      | some _ => scrubEnd stBadParam x
      | none =>
        if (mfind x.scrubs m).isSome then scrubEnd stNoResource x
        else { setReg 0xE002004 (word (2 ^ 31 + stPending)) x with
          scrubs := mput x.scrubs m { start := x.reg64 0xE002008, len := x.reg64 0xE002010, began := x.time, ring := none } } := by
    subst hm hx
    rw [scrubCtrlWrite, hidle, hv]
    rfl
  rw [hgo, hrange, hfree]
  rfl

theorem exec_scrubDone (m : Fin 12) (s : State) : exec (.scrubDone m) s = .next (s.withDev (scrubDone m s.dev)) := rfl

/-- The end of a scrub that a ring started answers the ring. -/
theorem scrubDone_answers {m n : Nat} {x : Scrub} {r : Ring} {d t : Dev} {w : ScrubSum × Dev}
    (hx : mfind d.scrubs m = some x) (hr : x.ring = some r) (hn : n = scrubWords m x.start x.len)
    (ht : t = timeTo (x.began + scrubTime m (8 * n)) d)
    (hw : w = scrubWalk m (t.dirtyWords m x.start x.len) { t with scrubs := mdel t.scrubs m }) :
    scrubDone m d = reply r stOk 0
      [n, w.1.corrected, w.1.bad, lo32 w.1.first, hi32 w.1.first, (t.time - x.began) / 1000] w.2 := by
  subst hn ht hw
  simp only [scrubDone, hx, hr]

/-! ### The test registers (R432, R480) -/

theorem exec_testRawWrite {s : State} {q : Requester} (h : s.reaches q 0xE003018 = true) (hq : managerOr03 q = true) :
    exec (.testRawWrite q) s = .next (s.withDev (testOp s.nv rawWrite s.dev)) :=
  congrArg Host.Outcome.next (atReg_mgrGate h hq _)

theorem exec_testRawRead {s : State} {q : Requester} (h : s.reaches q 0xE003018 = true) (hq : managerOr03 q = true) :
    exec (.testRawRead q) s = .next (s.withDev (testOp s.nv rawRead s.dev)) :=
  congrArg Host.Outcome.next (atReg_mgrGate h hq _)

theorem exec_testCheckedRead {s : State} {q : Requester} (h : s.reaches q 0xE003018 = true) (hq : managerOr03 q = true) :
    exec (.testCheckedRead q) s = .next (s.withDev (testOp s.nv checkedRead s.dev)) :=
  congrArg Host.Outcome.next (atReg_mgrGate h hq _)

/-- An aligned word of the memory, inside the window under the lock. -/
theorem testOp_acts {nv : Nv} {d : Dev} {m o : Nat} (hm : m = d.fld 0xE003000 3 0) (ho : o = d.reg64 0xE003004)
    (h8 : o % 8 = 0) (hsize : o < memSize m) (hlock : nv.fieldLock = true → inTest m o = true) (go : Nat → Nat → Dev → Dev) :
    testOp nv go d = go m o d := by
  have hrange : (o % 8 != 0 || decide (o ≥ memSize m)) = false := by simp [h8, hsize]
  have hwindow : (nv.fieldLock && !inTest m o) = false := by
    cases hf : nv.fieldLock <;> simp [hf] at hlock ⊢
    exact hlock
  subst hm ho
  simp only [testOp, hrange, hwindow, Bool.false_eq_true, if_false]

/-- Settles O29: scrubs start and end, and the test registers act, as the lemmas above say. -/
theorem scrubsAndTestRegistersActOnWords : Obligations.ScrubsAndTestRegistersActOnWords := by
  unfold Obligations.ScrubsAndTestRegistersActOnWords
  refine ⟨⟨?ring, ?registers, ?done⟩, ?test⟩
  case ring =>
    intro s p e b m x h hm hzero hrange hfree hx
    rw [exec_scrub h, scrubCmd_starts hm hzero hrange hfree hx]
  case registers =>
    intro s q v m d hreach hq hidle hv hm hd hrange hfree
    rw [exec_scrubGo hreach hq, scrubCtrlWrite_starts hidle hv hm hd hrange hfree]
  case done =>
    intro s m x r n d w hx hr hn hd hw
    rw [exec_scrubDone, scrubDone_answers hx hr hn hd hw]
  case test =>
    intro s q m o hreach hq hm ho h8 hsize hlock
    have hacts := testOp_acts (nv := s.nv) hm ho h8 hsize hlock
    refine ⟨?_, ?_, ?_⟩
    · rw [exec_testRawWrite hreach hq, hacts]; rfl
    · rw [exec_testRawRead hreach hq, hacts]; rfl
    · rintro r rfl
      rw [exec_testCheckedRead hreach hq, hacts]; rfl

/-! ### The flip mask (R433) -/

theorem exec_flipCtrlWrite {s : State} {q : Requester} (h : s.reaches q 0xE00310C = true) (hq : managerOr03 q = true)
    (v : Word) : exec (.flipCtrlWrite q v) s = .next (s.withDev (flipCtrlWrite s.nv v s.dev)) :=
  congrArg Host.Outcome.next (atReg_mgrGate h hq _)

theorem flipCtrlWrite_takes {nv : Nv} {v : Word} (h : nv.fieldLock = true → v.getLsbD 30 = false) (d : Dev) :
    flipCtrlWrite nv v d = setReg 0xE00310C (v &&& 0xC000000F) d := by
  have hno : (nv.fieldLock && v.getLsbD 30) = false := by
    cases hf : nv.fieldLock
    · rfl
    · rw [h hf]; rfl
  rw [flipCtrlWrite, hno]
  rfl

theorem flipCtrlWrite_refused {nv : Nv} {v : Word} (hf : nv.fieldLock = true) (hv : v.getLsbD 30 = true) (d : Dev) :
    flipCtrlWrite nv v d = count aMemErr (setReg 0xE00310C (v &&& 0x8000000F) d) := by
  rw [flipCtrlWrite, hf, hv]
  rfl

/-! ### Spares (R435, R436) -/

/-- The word of SPARE_CMD with GO, an operation and a memory. -/
def spareWord (op m : Nat) : Word := word (2 ^ 31 + op * 0x100 + m)

theorem spareWord_fields (op : Fin 4) (m : Fin 16) : (spareWord op m).getLsbD 31 = true ∧
    wbits (spareWord op m) 9 8 = op ∧ wbits (spareWord op m) 3 0 = m := by
  revert op m; decide

theorem exec_spareAdd {s : State} {q : Requester} (h : s.reaches q 0xE004000 = true) (hq : managerOr03 q = true)
    (m : Fin 16) : exec (.spareAdd q m) s =
      .next (s.withDev (spareAdd s.nv m (setReg 0xE004000 (spareWord 1 m &&& 0x30F) s.dev))) := by
  obtain ⟨hgo, hop, hm⟩ := spareWord_fields 1 m
  refine congrArg Host.Outcome.next ((atReg_mgrGate h hq fun nv => spareCmdWrite nv (spareWord 1 m)).trans ?_)
  simp only [Fin.val_one, Fin.isValue] at hgo hop hm
  simp only [spareCmdWrite, hgo, hop, hm, Bool.not_true, Bool.false_eq_true, if_false, if_true]

theorem exec_spareRemove {s : State} {q : Requester} (h : s.reaches q 0xE004000 = true) (hq : managerOr03 q = true)
    (m : Fin 16) : exec (.spareRemove q m) s =
      .next (s.withDev (spareRemove s.nv m (setReg 0xE004000 (spareWord 2 m &&& 0x30F) s.dev))) := by
  obtain ⟨hgo, hop, hm⟩ := spareWord_fields 2 m
  refine congrArg Host.Outcome.next ((atReg_mgrGate h hq fun nv => spareCmdWrite nv (spareWord 2 m)).trans ?_)
  simp only [Fin.val_two, Fin.isValue] at hgo hop hm
  simp only [spareCmdWrite, hgo, hop, hm, Bool.not_true, Bool.false_eq_true, if_false, if_true, OfNat.ofNat_ne_one]

section Spare
variable {nv : Nv} {m u : Nat} {d : Dev} (hu : u = d.reg64 0xE004004) (hsize : u < memSize m)
include hu hsize

theorem spareAdd_repairs (hnew : repaired nv d m u = false) (hroom : d.volatileUsed m < volatileCap m) :
    spareAdd nv m d = setReg 0xE00400C (word stOk) { copyUnit m u d with
      repairs := (copyUnit m u d).repairs ++ [{ mem := m, unit := u }] } := by
  subst hu
  simp only [spareAdd, Nat.not_le.2 hsize, hnew, Nat.not_le.2 hroom, Bool.false_eq_true, if_false]
  rfl

theorem spareRemove_ends (hold : repaired nv d m u = true) (hopen : committedAt nv d m u = false) :
    spareRemove nv m d = setReg 0xE00400C (word stOk) { copyUnit m u d with
      repairs := (copyUnit m u d).repairs.filter fun r => !(r.mem == m && r.unit == u) } := by
  subst hu
  simp only [spareRemove, Nat.not_le.2 hsize, hold, hopen, Bool.not_true, Bool.false_eq_true, if_false]
  rfl

end Spare

theorem exec_spareCommit {s : State} {r : Ring} {p : Read} {bad : List Nat} {e : Exec} {b : List Byte}
    (h : s.runs r 0x0B02 p = some (e, b)) :
    exec (.spareCommit r p bad) s = .next (s.onBoth fun nv d => spareCommit nv r bad b d) := by
  refine congrArg Host.Outcome.next ?_
  rw [State.onBoth, commandTo_runs _ s r _ p _ e b h, State.onBoth]

theorem spareCommit_burns {nv : Nv} {r : Ring} {bad : List Nat} {b : List Byte} {d : Dev} {m : Nat}
    {x : (Nat × Nat × Nat) × Nv × Dev} (hm : m = byteAt b 0) (hle : m ≤ 11) (hzero : zeroAt b 1 3 = true)
    (hx : x = commitAll m bad (d.repairs.filter fun y => y.mem == m && !y.committed) 0 (nv, d)) :
    spareCommit nv r bad b d = (logAppend 6 m x.1.2.2 d.time x.2.1,
      reply r x.1.1 x.1.2.1 [x.1.2.2, 16 - slotsUsed x.2.1 m] x.2.2) := by
  subst hm hx
  simp only [spareCommit, Nat.not_lt.2 hle, hzero, Bool.not_true, Bool.false_eq_true, if_false]

/-- Settles O30: each write and the commit, as the lemmas above say. -/
theorem flipSpareAndCommitRepair : Obligations.FlipSpareAndCommitRepair := by
  unfold Obligations.FlipSpareAndCommitRepair
  refine ⟨⟨?takes, ?refused, ?add, ?remove⟩, ?commit⟩
  case takes =>
    intro s q v hreach hq h
    rw [exec_flipCtrlWrite hreach hq, flipCtrlWrite_takes h]
  case refused =>
    intro s q v hreach hq hf hv
    rw [exec_flipCtrlWrite hreach hq, flipCtrlWrite_refused hf hv]
  case add =>
    intro s q m u d hreach hq hd hu hsize hnew hroom
    rw [exec_spareAdd hreach hq, ← spareAdd_repairs hu hsize hnew hroom, hd]
    rfl
  case remove =>
    intro s q m u d hreach hq hd hu hsize hold hopen
    rw [exec_spareRemove hreach hq, ← spareRemove_ends hu hsize hold hopen, hd]
    rfl
  case commit =>
    intro s p bads e b m x h hm hle hzero hx
    rw [exec_spareCommit h, State.onBoth, spareCommit_burns hm hle hzero hx]

end Sys2Proof.Proofs
end

section
/-!
PROOF. O6 and O58: FW_QUERY, the manager's access to the flash, and the field lock. First what each command makes of the
state, then how an operation on the flash ends; the statements are put together from these.
-/
namespace Sys2Proof.Proofs
open Sys2Proof Sys2Proof.Machine Sys2Proof.Laws

/-! ### FW_QUERY (R489) -/

theorem exec_fwQuery {s : State} {r : Ring} {p : Read} {e : Exec} {b : List Byte} (h : s.runs r 0x0011 p = some (e, b)) :
    exec (.fwQuery r p) s = .next (s.withDev (reply r stOk 0 (fwWords s.nv s.dev) s.dev)) :=
  congrArg (fun d => Host.Outcome.next (s.withDev d)) (command_runs s r _ p _ e b h)

theorem hdrCheck_fwQuery {h : List Byte} {d : Dev} (hversion : byteAt h 3 = 1) (hop : (execOf h).opcode = 0x0011)
    (hreserved : hdrReserved h = none) :
    hdrCheck .manager h d = if (execOf h).plen = 0 then none else some (stBadLength, 0, false) := by
  have hrow : opRow (execOf h).opcode = some ⟨0x0011, true, false, false, some 0⟩ := by rw [hop]; rfl
  exact hdrCheck_plen hversion hrow hreserved rfl rfl rfl

/-- Settles O6: the command's words where it runs, and the check of its header, where PLEN alone decides. -/
theorem firmwareQueryReplies : Obligations.FirmwareQueryReplies := by
  unfold Obligations.FirmwareQueryReplies
  refine ⟨fun s p e b v h hv => ?_, fun h d hversion hop hreserved => ?_⟩
  · rw [exec_fwQuery h, hv 0, hv 1]
    rfl
  · rw [hdrCheck_fwQuery hversion hop hreserved]
    exact ⟨by simp, fun hlen => if_neg hlen⟩

/-! ### Writes that are the manager's alone (R391) -/

theorem atReg_managerGate {s : State} {off : Nat} (h : s.reaches .manager off = true) (go : Dev → Dev) :
    (s.atReg .manager off fun _ d => managerGate .manager go d) = s.withDev (go s.dev) :=
  atReg_reaches _ _ _ _ h

theorem atReg_managerGate_refused {s : State} {q : Requester} {off : Nat} (h : s.reaches q off = true) (hq : q ≠ .manager)
    (go : Dev → Dev) : (s.atReg q off fun _ d => managerGate q go d) = s.withDev (refuseWrite q s.dev) := by
  rw [atReg_reaches _ _ _ _ h, onDev_eq_withDev, managerGate, if_neg hq]

/-! ### SPI_CTRL (R487) -/

/-- The commands that write SPI_CTRL with GO, and the word of each: read, program, erase. -/
def spiCommands (q : Requester) : List (Instr × Nat) := [(.spiRead q, 1), (.spiProgram q, 2), (.spiErase q, 3)]

theorem exec_spiCommand {s : State} {q : Requester} {c : Instr × Nat} (hc : c ∈ spiCommands q) : exec c.1 s =
    .next (s.atReg q 0x200 fun _ d => managerGate q (spiCtrlWrite (word (2 ^ 31 + c.2))) d) := by
  simp only [spiCommands, List.mem_cons, List.not_mem_nil, or_false] at hc
  obtain rfl | rfl | rfl := hc <;> rfl

theorem spiCtrlWrite_starts {d : Dev} (hidle : d.spiBusy = false) (k : Fin 4) : spiCtrlWrite (word (2 ^ 31 + k)) d =
    setReg 0x20C (word stPending) (setReg 0x200 (word (2 ^ 30 + k)) d) := by
  have hgo : (word (2 ^ 31 + k)).getLsbD 31 = true ∧ wbits (word (2 ^ 31 + k)) 1 0 = k := by revert k; decide
  rw [spiCtrlWrite, hidle, hgo.1, hgo.2]
  rfl

theorem spiCtrlWrite_busy {d : Dev} (hbusy : d.spiBusy = true) (v : Word) : spiCtrlWrite v d = badAccess d := if_pos hbusy

/-! ### The end of an operation (R487) -/

theorem exec_spiOpDone (f : Option Nat) (s : State) : exec (.spiOpDone f) s =
    .next { s with nv := (spiOpDone f s.nv s.dev).1, dev := (spiOpDone f s.nv s.dev).2 } := rfl

section SpiEnd
variable {nv : Nv} {d : Dev} {op a n : Nat} (hbusy : d.spiBusy = true) (hready : d.ready = true)
  (hop : op = d.fld 0x200 1 0) (ha : a = d.fld 0x204 25 0) (hn : n = d.fld 0x208 22 0)
include hbusy hready hop ha hn

theorem spiOpDone_faulty (f : Option Nat) {st : Nat} (hfault : spiFault op a n d = some st) :
    spiOpDone f nv d = (nv, spiEnd st 0 d) := by
  subst hop ha hn
  simp [spiOpDone, hbusy, hready, hfault]

variable (hgood : spiFault op a n d = none)
include hgood

theorem spiOpDone_reads (h1 : op = 1) :
    spiOpDone none nv d = (nv, spiEnd stOk 0 (writeHbm stagingBase (flashRead nv a n) false d)) := by
  subst ha hn
  simp only [spiOpDone, hbusy, hready, ← hop, h1 ▸ hgood, h1, Bool.not_true, Bool.or_self, Bool.false_eq_true,
    if_false, if_true]

theorem spiOpDone_read_fails (h1 : op = 1) (o : Nat) : spiOpDone (some o) nv d = (nv, spiEnd stMediaError o d) := by
  subst ha hn
  simp only [spiOpDone, hbusy, hready, ← hop, h1 ▸ hgood, h1, Bool.not_true, Bool.or_self, Bool.false_eq_true,
    if_false, if_true]

theorem spiOpDone_erases (h3 : op = 3) : spiOpDone none nv d = (flashErase a n nv, spiEnd stOk 0 d) := by
  subst ha hn
  simp [spiOpDone, hbusy, hready, ← hop, h3 ▸ hgood, h3]

theorem spiOpDone_programs (h2 : op = 2) {r : List Byte × Bool × Dev} (hr : r = readHbm stagingBase n d)
    (hsame : spiDiffers (flashProgram a r.1 nv) a r.1 = none) :
    spiOpDone none nv d = (flashProgram a r.1 nv, spiEnd stOk 0 r.2.2) := by
  subst ha hn hr
  simp [spiOpDone, hbusy, hready, ← hop, h2 ▸ hgood, h2, hsame]

/-- A program or an erase that the device fails leaves what it touched open from there on. -/
theorem spiOpDone_breaks (h1 : op ≠ 1) (o : Nat) {r : List Byte × Bool × Dev}
    (hr : r = if op = 2 then readHbm stagingBase n d else ([], false, d)) :
    spiOpDone (some o) nv d = spiBroken op a n o r.1 nv r.2.2 := by
  subst ha hn hr
  simp only [spiOpDone, hbusy, hready, ← hop, hgood, h1, Bool.not_true, Bool.or_self, Bool.false_eq_true, if_false]

end SpiEnd

/-- MEDIA_ERROR tells where the device failed. -/
theorem spiBroken_reports (op a n o : Nat) (b : List Byte) (nv : Nv) (d : Dev) :
    ∃ nv' d', spiBroken op a n o b nv d = (nv', spiEnd stMediaError o d') := ⟨_, _, rfl⟩

/-! ### The field lock (R491) -/

theorem exec_fuseLockCmdWrite {s : State} (h : s.reaches .manager 0x134 = true) (v : Word) :
    exec (.fuseLockCmdWrite .manager v) s = .next (s.withDev (fuseLockCmdWrite v s.dev)) :=
  congrArg Host.Outcome.next (atReg_managerGate h _)

theorem fuseLockCmdWrite_first (d : Dev) :
    fuseLockCmdWrite 0x4C4F434B d = updPower (fun x => { x with lockArmed := true }) d := rfl

theorem fuseLockCmdWrite_second {d : Dev} (h : d.power.lockArmed = true) : fuseLockCmdWrite 1 d =
    updPower (fun x => { x with lockArmed := false, lockBusy := true, lockFail := false }) d := by
  have h1 : (1 : Word) ≠ 0x4C4F434B := by decide
  simp only [fuseLockCmdWrite, updPower, h, h1, if_false, decide_true, Bool.and_self, if_true]

theorem fuseLockCmdWrite_cancels {d : Dev} {v : Word} (hfirst : v ≠ 0x4C4F434B)
    (hsecond : v ≠ 1 ∨ d.power.lockArmed = false) :
    fuseLockCmdWrite v d = updPower (fun x => { x with lockArmed := false }) d := by
  have hno : (decide (v = 1) && d.power.lockArmed) = false := by
    rcases hsecond with h | h
    · rw [decide_eq_false h, Bool.false_and]
    · rw [h, Bool.and_false]
  simp only [fuseLockCmdWrite, updPower, hfirst, hno, if_false, Bool.false_eq_true]

theorem exec_fieldLockBurnDone (readBack : Bool) (s : State) : exec (.fieldLockBurnDone readBack) s =
    .next { s with nv := (fieldLockDone readBack s.nv s.dev).1, dev := (fieldLockDone readBack s.nv s.dev).2 } := rfl

/-- A fuse that reads back is the lock, whether or not firmware logs it. -/
theorem fieldLockDone_burns {nv : Nv} {d : Dev} (h : d.power.lockBusy = true) : ∃ nv', nv'.fieldLock = true ∧
    fieldLockDone true nv d = (nv', updPower (fun x => { x with lockBusy := false }) d) := by
  rw [fieldLockDone, h]
  cases d.power.noImage
  · exact ⟨_, (nvGrows_logAppend 7 0 0 d.time { nv with fieldLock := true }).lock rfl, rfl⟩
  · exact ⟨{ nv with fieldLock := true }, rfl, rfl⟩

theorem fieldLockDone_fails {nv : Nv} {d : Dev} (h : d.power.lockBusy = true) : fieldLockDone false nv d =
    (nv, updPower (fun x => { x with lockBusy := false, lockFail := true }) d) := by
  rw [fieldLockDone, h]
  rfl

/-- Settles O58: the writes of SPI_CTRL and of the lock's command by who makes them, and each end of an operation and of
a burn as the lemmas above say. -/
theorem flashAndFieldLock : Obligations.FlashAndFieldLock := by
  unfold Obligations.FlashAndFieldLock
  refine ⟨⟨?starts, ?busy, ?refused, ?ends⟩, ?lockWrite, ?lockRefused, ?burn⟩
  case starts =>
    intro s d hreach hidle hd
    have hstart : ∀ c ∈ spiCommands .manager, c.2 < 4 → exec c.1 s = .next (s.withDev (d c.2)) := by
      intro c hc hlt
      rw [exec_spiCommand hc, atReg_managerGate hreach, spiCtrlWrite_starts hidle ⟨c.2, hlt⟩, hd]
    exact ⟨hstart (.spiRead .manager, 1) (by simp [spiCommands]) (by decide),
      hstart (.spiProgram .manager, 2) (by simp [spiCommands]) (by decide),
      hstart (.spiErase .manager, 3) (by simp [spiCommands]) (by decide)⟩
  case busy =>
    intro s hreach hbusy c hc
    obtain ⟨k, hk⟩ : ∃ k, (c, k) ∈ spiCommands .manager := by simpa [spiCommands, exists_or] using hc
    rw [exec_spiCommand hk, atReg_managerGate hreach, spiCtrlWrite_busy hbusy]
  case refused =>
    intro s q hq hreach c hc
    obtain ⟨k, hk⟩ : ∃ k, (c, k) ∈ spiCommands q := by simpa [spiCommands, exists_or] using hc
    rw [exec_spiCommand hk, atReg_managerGate_refused hreach hq]
  case ends =>
    intro s op a n hbusy hready hop ha hn
    refine ⟨fun f st hfault => ?_, fun h1 hgood => ?_, fun o h1 hgood => ?_, fun h3 hgood => ?_,
      fun r h2 hgood hr hsame => ?_, fun o h23 hgood => ?_⟩
    · rw [exec_spiOpDone, spiOpDone_faulty hbusy hready hop ha hn f hfault]
      rfl
    · rw [exec_spiOpDone, spiOpDone_reads hbusy hready hop ha hn hgood h1]
      rfl
    · rw [exec_spiOpDone, spiOpDone_read_fails hbusy hready hop ha hn hgood h1]
      rfl
    · rw [exec_spiOpDone, spiOpDone_erases hbusy hready hop ha hn hgood h3]
    · rw [exec_spiOpDone, spiOpDone_programs hbusy hready hop ha hn hgood h2 hr hsame]
    · obtain ⟨nv, d, h⟩ := spiBroken_reports op a n o _ s.nv _
      exact ⟨nv, d, by rw [exec_spiOpDone, spiOpDone_breaks hbusy hready hop ha hn hgood (by omega) o rfl, h]⟩
  case lockWrite =>
    intro s hreach
    refine ⟨?_, fun harmed => ?_, fun v hfirst hsecond => ?_⟩
    · rw [exec_fuseLockCmdWrite hreach, fuseLockCmdWrite_first]
    · rw [exec_fuseLockCmdWrite hreach, fuseLockCmdWrite_second harmed]
    · rw [exec_fuseLockCmdWrite hreach, fuseLockCmdWrite_cancels hfirst hsecond]
  case lockRefused =>
    intro s q v hq hreach
    exact congrArg Host.Outcome.next (atReg_managerGate_refused hreach hq _)
  case burn =>
    intro s hbusy
    obtain ⟨nv, hlock, hburn⟩ := fieldLockDone_burns (nv := s.nv) hbusy
    refine ⟨nv, hlock, ?_, ?_⟩
    · rw [exec_fieldLockBurnDone, hburn]
    · rw [exec_fieldLockBurnDone, fieldLockDone_fails hbusy]
      rfl

end Sys2Proof.Proofs
end

section
/-!
PROOF. O32 and O59: power domains, resets and start-up. First each command's meaning in the situation that its clause
gives, and what a Device Reset leaves; the statements are put together from these.
-/
namespace Sys2Proof.Proofs
open Sys2Proof Sys2Proof.Machine Sys2Proof.Laws

/-! ### Power domains (R458, R459) -/

theorem exec_domainSet {s : State} {r : Ring} {p : Read} {e : Exec} {b : List Byte} (h : s.runs r 0x0C01 p = some (e, b)) :
    exec (.domainSet r p) s = .next (s.withDev (domainSet r b s.dev)) :=
  congrArg Host.Outcome.next (onDev_command_runs h _)

section DomainSet
variable {r : Ring} {b : List Byte} {d : Dev}
  (hgood : domainFault (byteAt b 0) (byteAt b 1) (byteAt b 2) (byteAt b 3) d = none)
include hgood

theorem domainSet_already (h : d.domainOn (byteAt b 0) (byteAt b 1) = decide (byteAt b 2 = 1)) :
    domainSet r b d = reply r stOk 0 [0xFFFFFFFF] d := by
  have hsame : (d.domainOn (byteAt b 0) (byteAt b 1) = true) = (byteAt b 2 = 1) := by rw [h, decide_eq_true_eq]
  simp only [domainSet, hgood, hsame, if_true]

theorem domainSet_begins (h : d.domainOn (byteAt b 0) (byteAt b 1) ≠ decide (byteAt b 2 = 1)) : domainSet r b d =
    updPower (fun x => { x with domain := some (byteAt b 0, byteAt b 1, decide (byteAt b 2 = 1), r) })
      (setReg 0xF80040C (word (2 ^ 31 + 256 * byteAt b 0 + byteAt b 1)) (begin' r d)) := by
  have hdiffers : ¬((d.domainOn (byteAt b 0) (byteAt b 1) = true) = (byteAt b 2 = 1)) := fun heq => by
    rw [Ne, Bool.eq_iff_iff, heq, decide_eq_true_eq] at h
    exact h Iff.rfl
  simp only [domainSet, hgood, hdiffers, if_false]

end DomainSet

theorem exec_bindOff (s : State) : exec .bindOff s = .next (s.withDev (bindOff s.dev)) := rfl

/-- A pipeline, a crypto unit or a port group goes off. -/
theorem bindOff_unit {d : Dev} {k i : Nat} {r : Ring} {x : (Nat × Nat) × Dev} (h : d.power.domain = some (k, i, false, r))
    (hk : k < 3) (hx : x = if k = 2 then groupBindOff i d else unitBindOff i (k == 1) d) :
    bindOff d = domainDone k i false r [x.1.1, x.1.2] (countBy 0xF800414 x.1.1 x.2) := by
  subst hx
  have h3 : k ≠ 3 := Nat.ne_of_lt hk
  simp only [bindOff, h, h3, if_false, beq_eq_false_iff_ne.2 h3, when_false]

/-- A host link goes off. -/
theorem bindOff_link {d : Dev} {i : Nat} {r : Ring} (h : d.power.domain = some (3, i, false, r)) :
    bindOff d = domainDone 3 i false r [(linkBindOff i d).1.1, (linkBindOff i d).1.2]
      (countBy 0xF800414 (linkBindOff i d).1.1 (countBy 0xF800410 (linkBindOff i d).1.2 (linkBindOff i d).2)) := by
  simp only [bindOff, h, if_true, beq_self_eq_true, when_true]

theorem exec_domainPowerUpDone (s : State) : exec .domainPowerUpDone s = .next (s.withDev (domainPowerUp s.dev)) := rfl

theorem domainPowerUp_done {d : Dev} {k i : Nat} {r : Ring} (h : d.power.domain = some (k, i, true, r)) (hk : k ≠ 2) :
    domainPowerUp d = domainDone k i true r [] d := by
  simp only [domainPowerUp, h, hk, if_false]

/-- Settles O32: a change begins or is there already, and its end is the end of its kind of domain. -/
theorem domainsTurnOffAndOn : Obligations.DomainsTurnOffAndOn := by
  unfold Obligations.DomainsTurnOffAndOn
  refine ⟨fun s p e b h hgood => ⟨fun hsame => ?_, fun hdiffers => ?_⟩, fun s k i r x h hk hx => ?_, fun s i r x h hx => ?_,
    fun s k i r h hk => ?_⟩
  · rw [exec_domainSet h, domainSet_already hgood hsame]
  · rw [exec_domainSet h, domainSet_begins hgood hdiffers]
  · rw [exec_bindOff, bindOff_unit h hk hx]
    rfl
  · rw [exec_bindOff, bindOff_link h, ← hx]
    rfl
  · rw [exec_domainPowerUpDone, domainPowerUp_done h hk]
    rfl

/-! ### What a Device Reset leaves (R450, R452) -/

/-- What a Device Reset starts from: the outputs, the free values and the world's inputs. -/
def freshDev (h : List Hold) (d : Dev) : Dev :=
  { out := d.out, free := d.free, power := { holds := h, cpPerst := d.power.cpPerst }
    links := d.links.filterMap fun e => if e.2.perst then some (e.1, { perst := true }) else none }

section Reset
variable (c r : Nat) (h : List Hold) (d : Dev)

/-- What no register holds is as in the state that the reset starts from. -/
theorem deviceReset_keeps {β : Type} (g : Dev → β) (hg : ∀ off v d, g (setReg off v d) = g d) :
    g (deviceReset c r h d) = g (freshDev h d) :=
  (hg _ _ _).trans (each_keep g _ (fun _ _ => hg _ _ _) _ _)

theorem cause_deviceReset : (deviceReset c r h d).reg 0x18 = word (16 * r + c) := by
  rw [deviceReset, reg_setReg, if_pos rfl]

end Reset

/-! ### Causes and holds (R441, R449, R450) -/

theorem exec_resetNAssert (s : State) : exec .resetNAssert s = .next (s.withDev
    (if s.dev.power.holds.contains .powerOn || s.dev.power.holds.contains .sysclk then
      updPower (fun x => { x with holds := addHold .resetN x.holds }) s.dev
    else deviceReset 2 0 (addHold .resetN s.dev.power.holds) s.dev)) := rfl

theorem exec_devCtrlReset {s : State} (h : s.reaches .manager 0x10 = true) :
    exec (.devCtrlReset .manager) s = .next (s.withDev (deviceReset 3 0 [] s.dev)) :=
  congrArg Host.Outcome.next (atReg_managerGate h _)

theorem exec_brownout {s : State} {r : Fin 15} {mv : Nat} (hmv : mv < 4096) (hlow : s.dev.railBelow r mv 90 = true) :
    exec (.brownout r mv) s = .next (s.withDev (setFld (aRail r) 11 0 mv (deviceReset 4 r s.dev.power.holds s.dev))) := by
  have hlow' : s.dev.railBelow r (mv % 4096) 90 = true := by rwa [Nat.mod_eq_of_lt hmv]
  refine (congrArg (fun d => Host.Outcome.next (s.withDev d)) (if_pos hlow')).trans ?_
  rw [Nat.mod_eq_of_lt hmv]

theorem exec_thermalRelease {s : State} {l : List (BitVec 12)} (hlen : l.length = 8) (hcool : ∀ t ∈ l, t.toNat < 760) :
    exec (.thermalRelease l) s = .next (s.withDev (updPower (fun x => { x with holds := x.holds.filter (· != .thermal) })
      (each l.zipIdx (fun t => setFld (aTemp t.2) 11 0 t.1.toNat) s.dev))) := by
  refine congrArg (fun d => Host.Outcome.next (s.withDev d)) (if_pos ?_)
  rw [Bool.and_eq_true, decide_eq_true_eq, List.all_eq_true]
  exact ⟨hlen, fun t ht => decide_eq_true (hcool t ht)⟩

/-! ### Start-up (R454, R455) -/

theorem exec_startupStepDone (f : Option Nat) (sp : List Nat) (s : State) : exec (.startupStepDone f sp) s =
    .next { s with nv := (startupStep f sp s.nv s.dev).1, dev := (startupStep f sp s.nv s.dev).2 } := rfl

section Startup
variable {nv : Nv} {d : Dev} {n : Nat} {sp : List Nat}

theorem startupStep_over {f : Option Nat} (h : d.power.holds ≠ [] ∨ d.flag 0x14 30 = true ∨ 8 ≤ d.fld 0x14 3 0) :
    startupStep f sp nv d = (nv, d) := by
  refine if_pos ?_
  simpa [or_assoc, Nat.lt_succ_iff] using h

variable (hholds : d.power.holds = []) (hok : d.flag 0x14 30 = false) (hn : n = d.fld 0x14 3 0 + 1) (h8 : n ≤ 8)
include hholds hok hn h8

theorem startupStep_reaches : startupStep none sp nv d = startupEffect n sp nv (setFld 0x14 3 0 n d) := by
  subst hn
  simp [startupStep, hholds, hok, Nat.not_lt.2 h8]

theorem startupStep_stops (i : Nat) (hfail : n ∈ [2, 3, 5, 7]) : startupStep (some i) sp nv d =
    (nv, setFld 0x14 23 16 i (setFlag 0x14 30 true (setFld 0x14 3 0 n d))) := by
  have hmay : mayFail n = true := by simpa [mayFail, or_assoc] using hfail
  subst hn
  simp [startupStep, hholds, hok, Nat.not_lt.2 h8, hmay]

end Startup

/-- Steps up to the fourth bring nothing beside their number. -/
theorem startupEffect_early {n : Nat} (h : n ≤ 4) (sp : List Nat) (nv : Nv) (d : Dev) :
    startupEffect n sp nv d = (nv, d) := by
  have hne : n ≠ 5 ∧ n ≠ 6 ∧ n ≠ 7 ∧ n ≠ 8 := by omega
  simp only [startupEffect, hne, if_false]

/-- Step 6 reads the board record and starts an image. -/
theorem startupEffect_starts (sp : List Nat) (nv : Nv) (d : Dev) : startupEffect 6 sp nv d =
    activate (1, d.fld 0x18 7 0) nv { d with board := boardRecord nv } := by
  simp only [startupEffect, Nat.reduceEqDiff, if_false, if_true]

/-- Step 8 makes the device ready. -/
theorem startupEffect_ready (sp : List Nat) (nv : Nv) {d : Dev} {t : Nat} {b : Bool} (ht : d.time = t)
    (hb : d.power.noImage = b) : startupEffect 8 sp nv d = (nv, setReg 0x20 (word (t / 1000000))
      (setFlag 0xD801004 0 (!b) (setFlag 0x14 31 true d))) := by
  subst ht hb
  rfl

/-- Settles O59: each cause resets and holds as its clause says, and start-up goes from step to step. -/
theorem resetsAndStartUp : Obligations.ResetsAndStartUp := by
  unfold Obligations.ResetsAndStartUp
  refine ⟨⟨fun s => rfl, fun s hp hs => ?_, fun s h => ?_, fun s => rfl, fun s h => exec_devCtrlReset h, fun s q hq h => ?_,
    fun s r mv hmv hlow => exec_brownout hmv hlow, fun s i => rfl, fun s l hlen hcool => exec_thermalRelease hlen hcool,
    fun c r h d => ?reset⟩, ?steps, fun s f sp h => ?_⟩
  · rw [exec_resetNAssert, if_neg (by simpa using ⟨hp, hs⟩)]
  · rw [exec_resetNAssert, if_pos (by simpa using h)]
  · exact congrArg Host.Outcome.next (atReg_managerGate_refused h hq _)
  case reset =>
    have hkeeps {β : Type} (g : Dev → β) := deviceReset_keeps c r h d g
    exact ⟨hkeeps (fun d => d.out) fun _ _ _ => rfl, hkeeps (fun d => d.slices) fun _ _ _ => rfl, hkeeps (fun d => d.mem) fun _ _ _ => rfl,
      hkeeps (fun d => d.pkts) fun _ _ _ => rfl, hkeeps (fun d => d.queues) fun _ _ _ => rfl,
      hkeeps (fun d => d.power.holds) fun _ _ _ => rfl, hkeeps (fun d => d.time) fun _ _ _ => rfl, cause_deviceReset c r h d⟩
  case steps =>
    intro s sp n d hholds hok hn h8 hd
    have hreach : exec (.startupStepDone none sp) s = .next
        { s with nv := (startupEffect n sp s.nv d).1, dev := (startupEffect n sp s.nv d).2 } := by
      rw [exec_startupStepDone, startupStep_reaches hholds hok hn h8, hd]
    refine ⟨fun h4 => ?_, fun h5 => ?_, fun r h6 hr => ?_, fun h7 => ?_, fun heighth => ?_, fun i hfail => ?_⟩
    · rw [hreach, startupEffect_early h4]; rfl
    · rw [hreach, h5]; rfl
    · rw [hreach, h6, hr, startupEffect_starts]
    · rw [hreach, h7]; rfl
    · have htime : d.time = s.dev.time := by rw [hd]; rfl
      have himage : d.power.noImage = s.dev.power.noImage := by rw [hd]; rfl
      rw [hreach, heighth, startupEffect_ready sp s.nv htime himage]
      rfl
    · rw [exec_startupStepDone, startupStep_stops hholds hok hn h8 i hfail, hd]; rfl
  · rw [exec_startupStepDone, startupStep_over h]

end Sys2Proof.Proofs
end

section
/-!
PROOF. O53: core control, watchdogs and timers. First who may write a core's registers, what a core reset leaves, and how
device time moves; then one lemma for each situation of a command.
-/
namespace Sys2Proof.Proofs
open Sys2Proof Sys2Proof.Machine Sys2Proof.Laws

/-! ### Device time (R14, R17) -/

section Time

theorem time_of_talk {d d' : Dev} (h : Talk d d') : d'.time = d.time := h.keep (·.time) fun _ _ _ _ _ _ _ => rfl

theorem time_meter (s k n : Nat) (d : Dev) : (meter s k n d).time = d.time := updSlice_time _ _ _

theorem time_reply (r : Ring) (st det : Nat) (ws : List Nat) (d : Dev) : (reply r st det ws d).time = d.time := by
  obtain ⟨d1, d2, h1, hm, h2⟩ := talk_reply r st det ws d
  have hmid : d2.time = d1.time := by
    rcases hm with rfl | ⟨s, rfl⟩
    · rfl
    · exact time_meter s 15 1 d1
  rw [time_of_talk h2, hmid, time_of_talk h1]

theorem time_flushRead (s : Nat) (h : Option Nat) (js : List Nat) (d : Dev) : (flushRead s h js d).time = d.time := by
  unfold flushRead
  split
  · rfl
  · exact (time_of_talk (talk_issue _ _ _)).trans (time_of_talk (talk_newTag _ _ _ _))

theorem time_eyeletSettle (h : Nat) (d : Dev) : (eyeletSettle h d).time = d.time := by
  unfold eyeletSettle
  split
  · rfl
  · split
    · rfl
    · split_ifs
      · rfl
      · exact time_flushRead _ _ _ _
      · rfl

theorem time_updEffect (a : Nat) (u : UpdOp) (d : Dev) : (updEffect a u d).time = d.time := by
  cases u with
  | window h w => exact time_eyeletSettle h _
  | _ => rfl

theorem time_updFinish (l : UpdDone) (d : Dev) : (updFinish l d).time = d.time := by
  cases l with
  | regPath q => cases q <;> rfl
  | _ => exact time_reply _ _ _ _ _

theorem time_applyFirst {d : Dev} {u : Update} {us : List Update} (h : d.updates = u :: us) :
    (applyFirst d).time = max d.time u.apply := by
  simp only [applyFirst, h, setReg64]
  rw [each_keep (·.time) _ (fun _ _ => time_updFinish _ _)]
  exact time_updEffect _ _ _

/-- The updates that take effect by t take device time no further than t. -/
theorem max_time_applyDue (t k : Nat) (d : Dev) : max (applyDue t k d).time t = max d.time t := by
  induction k generalizing d with
  | zero => rfl
  | succ k ih =>
    unfold applyDue
    split
    · rfl
    · rename_i u us hu
      split
      · rw [ih, time_applyFirst hu]
        omega
      · rfl

theorem time_timeTo (t : Nat) (d : Dev) : (timeTo t d).time = max d.time t := max_time_applyDue _ _ _

end Time

/-! ### Who writes the core control registers (R391) -/

theorem coreGate_manager {c : Nat} (hc : 4 ≤ c) (go : Dev → Dev) (d : Dev) : coreGate .manager c go d = go d := by
  simp [coreGate, hc]

theorem coreGate_other {q : Requester} {c : Nat} (hq : q ≠ .manager ∨ c < 4) (go : Dev → Dev) (d : Dev) :
    coreGate q c go d = refuseWrite q d := by
  have hno : ¬(q = .manager ∧ 4 ≤ c) := fun ⟨hm, hc⟩ => hq.elim (· hm) (by omega)
  simp [coreGate, hno]

section Exec
variable {s : State} {c : Fin 16}

theorem exec_coreHold {q : Requester} (h : s.reaches q (aCore c) = true) (hold : Bool) : exec (.coreHold q c hold) s =
    .next (s.withDev (coreGate q c (coreCtrlWrite c hold false) s.dev)) :=
  congrArg Host.Outcome.next (atReg_reaches _ _ _ _ h)

theorem exec_coreReset {q : Requester} (h : s.reaches q (aCore c) = true) : exec (.coreReset q c) s =
    .next (s.withDev (coreGate q c (coreCtrlWrite c (s.dev.flag (aCore c) 31) true) s.dev)) :=
  congrArg Host.Outcome.next (atReg_reaches _ _ _ _ h)

theorem exec_coreWdogWrite {q : Requester} (h : s.reaches q (aCore c + 0xC) = true) (v : Word) :
    exec (.coreWdogWrite q c v) s = .next (s.withDev (coreGate q c (coreWdogWrite c v) s.dev)) :=
  congrArg Host.Outcome.next (atReg_reaches _ _ _ _ h)

theorem exec_coreKick {q : Requester} (h : s.reaches q (aCore c + 0x10) = true) : exec (.coreKick q c) s =
    .next (s.withDev (coreKick q c s.dev)) :=
  congrArg Host.Outcome.next (atReg_reaches _ _ _ _ h)

theorem exec_watchdogExpiry : exec (.watchdogExpiry c) s = .next (s.withDev (watchdogExpiry c s.dev)) := rfl

theorem exec_mtimecmpReached :
    exec (.mtimecmpReached c) s = .next (s.withDev (timeTo (s.dev.core c).mtimecmp s.dev)) := rfl

end Exec

/-! ### HOLD, RESET and the start of a core (R391, R392) -/

/-- A core whose BOOT lies in the customer region starts; another one faults at its first fetch. -/
theorem coreStart_inside {c : Nat} {d : Dev} (h : 0x10400000 ≤ (d.reg (aCore c + 4)).toNat ∧ (d.reg (aCore c + 4)).toNat < 0x11000000) :
    coreStart c d = d := by
  simp [coreStart, h]

theorem coreStart_outside {c : Nat} {d : Dev}
    (h : ¬(0x10400000 ≤ (d.reg (aCore c + 4)).toNat ∧ (d.reg (aCore c + 4)).toNat < 0x11000000)) :
    coreStart c d = emit (.coreFault c) d := by
  have hout : (!(decide (0x10400000 ≤ (d.reg (aCore c + 4)).toNat) && decide ((d.reg (aCore c + 4)).toNat < 0x11000000))) = true := by
    rw [← Bool.decide_and, decide_eq_false h, Bool.not_false]
  simp only [coreStart, hout, when_true]

section Ctrl
variable (c : Nat) (d : Dev)

theorem coreCtrlWrite_eq (hold reset : Bool) : coreCtrlWrite c hold reset d =
    when (!hold && (d.flag (aCore c) 31 || reset)) (coreStart c)
      (coreHeld c hold (when (hold || reset) (coreReset c) d)) := rfl

theorem coreCtrlWrite_hold (reset : Bool) : coreCtrlWrite c true reset d = coreHeld c true (coreReset c d) := by
  rw [coreCtrlWrite_eq, Bool.true_or, when_true, Bool.not_true, Bool.false_and, when_false]

theorem coreCtrlWrite_run {d : Dev} (h : d.flag (aCore c) 31 = false) :
    coreCtrlWrite c false false d = coreHeld c false d := by
  rw [coreCtrlWrite_eq, h, Bool.or_false, when_false, Bool.and_false, when_false]

theorem coreCtrlWrite_release {d : Dev} (h : d.flag (aCore c) 31 = true) :
    coreCtrlWrite c false false d = coreStart c (coreHeld c false d) := by
  rw [coreCtrlWrite_eq, h, Bool.or_false, Bool.not_false, Bool.and_true, when_true, Bool.or_false, when_false]

theorem coreCtrlWrite_restart : coreCtrlWrite c false true d = coreStart c (coreHeld c false (coreReset c d)) := by
  rw [coreCtrlWrite_eq, Bool.or_true, Bool.not_false, Bool.and_true, when_true, Bool.or_true, when_true]

end Ctrl

/-! ### What a core reset leaves (R392) -/

section ResetKeeps
variable {β : Type} (g : Dev → β) (htold : ∀ a0 a1 a2 d, g (raise 0x03 a0 a1 a2 d) = g d)
  (hmail : ∀ x f d, g (updSide x f d) = g d) (hpage : ∀ x d, g (clearPage x d) = g d)
include htold hmail

/-- The manager is told of an acknowledge by an event. -/
theorem mbAck_core_keeps (c : Fin 16) (n code : Nat) (d : Dev) : g (mbAck ⟨.core c, false⟩ n code d) = g d := by
  have hint (b : Dev) : g (mbInterrupt ⟨.core c, true⟩ true b) = g b := by
    simp only [mbInterrupt, if_true]
    split
    · rfl
    · exact (htold _ _ _ _).trans (hmail _ _ _)
  have hend := when_apply g (!((d.side ⟨.core c, true⟩).ackSum.getLsbD n) && !((d.side ⟨.core c, true⟩).ackMask.getLsbD n))
    (mbInterrupt ⟨.core c, true⟩ true)
  refine (hend _).trans ?_
  rw [hint, ite_self, hmail]

include hpage

theorem sideReset_core_keeps (c : Fin 16) (d : Dev) : g (sideReset ⟨.core c, false⟩ d) = g d := by
  simp only [sideReset]
  rw [hmail, each_keep g _ fun _ _ => mbAck_core_keeps g htold hmail c _ _ _, hmail, hpage]

end ResetKeeps

theorem core_coreReset (c : Nat) (d : Dev) : (coreReset c d).core c = (coreClear c d).core c :=
  sideReset_core_keeps (·.core c) (fun _ _ _ d => (talk_raise _ _ _ _ d).keep (·.core c) fun _ _ _ _ _ _ _ => rfl)
    (fun _ _ _ => rfl) (fun _ _ => rfl) _ _

theorem locks_coreReset (c : Nat) (d : Dev) : (coreReset c d).locks = (coreClear c d).locks :=
  sideReset_core_keeps (·.locks) (fun _ _ _ d => (talk_raise _ _ _ _ d).keep (·.locks) fun _ _ _ _ _ _ _ => rfl)
    (fun _ _ _ => rfl) (fun _ _ => rfl) _ _

theorem reg_coreReset {k : Nat} (hk : tally k = false) (c : Nat) (d : Dev) : (coreReset c d).reg k = d.reg k :=
  sideReset_core_keeps (·.reg k) (fun _ _ _ d => (talk_raise _ _ _ _ d).regs k hk) (fun _ _ _ => rfl) (fun _ _ => rfl) _ _

/-- No register of a core counts what is told. -/
theorem tally_core {c off : Nat} (hc : c < 16) (hoff : off < 0x100) : tally (aCore c + off) = false := by
  have hlow : (aCore c + off) % 0x10000 = c * 0x100 + off := by
    unfold aCore
    omega
  have hne : aCore c + off ≠ 0x318 := by
    unfold aCore
    omega
  simp only [tally, hlow, beq_eq_false_iff_ne.2 hne, Bool.false_or, Bool.and_eq_false_iff, decide_eq_false_iff_not]
  omega

theorem core_coreClear (c : Nat) (d : Dev) : (coreClear c d).core c = { wdogStart := d.time } := by
  simp [coreClear, freeLocks, updCore, Dev.core]

theorem locks_coreClear {c : Nat} {d : Dev} {e : Nat × Option Nat} (he : e ∈ (coreClear c d).locks) : e.2 ≠ some c := by
  simp only [coreClear, freeLocks, List.mem_filter, bne_iff_ne] at he
  exact he.2

/-! ### The watchdog (R391, R393) -/

theorem coreWdogWrite_kept {v : Word} (h : v.getLsbD 31 = false) (c : Nat) (d : Dev) :
    coreWdogWrite c v d = setReg (aCore c + 0xC) (v &&& 0xC000FFFF) d := by
  simp only [coreWdogWrite, h, when_false]

theorem coreWdogWrite_restarts {v : Word} (h : v.getLsbD 31 = true) (c : Nat) (d : Dev) : coreWdogWrite c v d =
    updCore c (fun x => { x with wdogStart := d.time }) (setReg (aCore c + 0xC) (v &&& 0xC000FFFF) d) := by
  simp only [coreWdogWrite, h, when_true]

theorem coreKick_own {c : Fin 16} (hc : 4 ≤ c.val) (d : Dev) :
    coreKick (.core c) c d = updCore c (fun x => { x with wdogStart := d.time }) d := by
  refine if_pos ?_
  rw [fin_val]
  simp [hc]

theorem coreKick_other {q : Requester} {c : Fin 16} (hq : q ≠ .core c) (d : Dev) : coreKick q c d = refuseWrite q d := by
  refine if_neg ?_
  rw [fin_val]
  simp [hq]

theorem watchdogExpiry_off {c : Nat} {d : Dev} (h : c < 4 ∨ (d.reg (aCore c + 0xC)).getLsbD 31 = false) :
    watchdogExpiry c d = d := by
  refine if_pos ?_
  rcases h with h | h
  · rw [decide_eq_true h, Bool.true_or]
  · rw [h, Bool.not_false, Bool.or_true]

/-- The watchdog of core c reports, and counts anew. -/
def watchdogReport (c : Nat) (d : Dev) : Dev :=
  d |> timeTo ((d.core c).wdogStart + max 1 (wbits (d.reg (aCore c + 0xC)) 15 0) * 1000000)
    |> setFlag (aCore c + 8) 2 true |> raise 0x0D c 0 0
    |> (fun d => updCore c (fun x => { x with wdogStart := d.time }) d)

theorem watchdogExpiry_on {c : Nat} {d : Dev} (hc : 4 ≤ c) (hen : (d.reg (aCore c + 0xC)).getLsbD 31 = true) :
    watchdogExpiry c d = when ((d.reg (aCore c + 0xC)).getLsbD 30)
      (fun d => d |> coreReset c |> when (!d.flag (aCore c) 31) (coreStart c)) (watchdogReport c d) := by
  refine if_neg ?_
  rw [decide_eq_false (Nat.not_lt.2 hc), hen]
  decide

/-- Settles O53: who may write, then HOLD, RESET and the watchdog by the state of the core. -/
theorem coresAndWatchdogs : Obligations.CoresAndWatchdogs := by
  unfold Obligations.CoresAndWatchdogs
  refine ⟨⟨?control, ?refused, ?cleared⟩, ?wdogWrite, ?kick, ?kickOther, ?expiry, ?wdogOff, ?timer⟩
  case control =>
    intro s c hc h
    rw [exec_coreHold h, exec_coreHold h, exec_coreReset h]
    rw [coreGate_manager hc, coreGate_manager hc, coreGate_manager hc, coreCtrlWrite_hold]
    refine ⟨rfl, fun hrun => by rw [coreCtrlWrite_run c hrun], fun hheld => by rw [hheld, coreCtrlWrite_hold], ?_⟩
    intro d b hb
    refine ⟨fun hheld hd => ?_, fun hrun hd => ?_⟩
    · rw [coreCtrlWrite_release c hheld, ← hd]
      rw [hb]
      exact ⟨fun hin => by rw [coreStart_inside hin], fun hout => by rw [coreStart_outside hout]⟩
    · rw [hrun, coreCtrlWrite_restart, ← hd]
      rw [hb]
      exact ⟨fun hin => by rw [coreStart_inside hin], fun hout => by rw [coreStart_outside hout]⟩
  case refused =>
    intro s q c hold hq h
    rw [exec_coreHold h, exec_coreReset h, coreGate_other hq, coreGate_other hq]
    exact ⟨rfl, rfl⟩
  case cleared =>
    intro c d _
    rw [core_coreReset, core_coreClear, locks_coreReset]
    exact ⟨rfl, rfl, fun e he => locks_coreClear he, side_sideReset _ _⟩
  case wdogWrite =>
    intro s c v d hc h hd
    rw [exec_coreWdogWrite h, coreGate_manager hc, hd]
    exact ⟨fun hen => by rw [coreWdogWrite_kept hen], fun hen => by rw [coreWdogWrite_restarts hen]⟩
  case kick =>
    intro s c hc h
    rw [exec_coreKick h, coreKick_own hc]
  case kickOther =>
    intro s q c hq h
    rw [exec_coreKick h, coreKick_other hq]
  case expiry =>
    intro s c w d d' hc hw hen hd hd'
    have hreport : watchdogReport c s.dev = d' := by
      rw [hd', hd, hw]
      rfl
    rw [exec_watchdogExpiry, watchdogExpiry_on hc (hw ▸ hen), ← hw, hreport]
    refine ⟨fun hno => by rw [hno, when_false], fun r hyes hr => ?_⟩
    have hkept : r.flag (aCore c) 31 = d'.flag (aCore c) 31 := by
      rw [hr]
      exact congrArg (·.getLsbD 31) (reg_coreReset (tally_core (off := 0) c.isLt (by decide)) _ _)
    simp only [hyes, when_true, ← hr, ← hkept]
    exact ⟨fun hheld => by rw [hheld, Bool.not_true, when_false], fun hrun => by rw [hrun, Bool.not_false, when_true]⟩
  case wdogOff =>
    intro s c h
    rw [exec_watchdogExpiry, watchdogExpiry_off h]
    rfl
  case timer => exact fun s c => ⟨exec_mtimecmpReached, time_timeTo _ _⟩

end Sys2Proof.Proofs
end

section
/-!
PROOF. O54 and O55: interrupts are claimed, locks have one owner, I2C transactions run to their ends. First each access in
its situation, then the arbitration of a lock and what the end of a transaction leaves.
-/
namespace Sys2Proof.Proofs
open Sys2Proof Sys2Proof.Machine Sys2Proof.Laws

/-! ### Claims (R397, R399) -/

section Claims
variable {s : State} {c : Fin 16}

theorem exec_icClaimWrite {q : Requester} (h : s.reaches q (aIc c 0) = true) (v : Word) :
    exec (.icClaimWrite q c v) s = .next (s.withDev (icClaimWrite q c v s.dev)) :=
  congrArg Host.Outcome.next (atReg_reaches _ _ _ _ h)

theorem exec_icClaimRead {q : Requester} (h : s.reaches q (aIc c 0) = true) : exec (.icClaimRead q c) s =
    .next (s.withDev (emit (.value q (aIc c 0) (word (icClaimRead q c s.dev).1)) (icClaimRead q c s.dev).2)) :=
  congrArg Host.Outcome.next (atRead_reaches _ _ _ _ h)

theorem icClaimWrite_own (c : Fin 16) (v : Word) (d : Dev) :
    icClaimWrite (.core c) c v d = updCore c (fun x => { x with claim := some (wbits v 11 0) }) d := by
  rw [icClaimWrite, fin_val, if_pos rfl]

theorem icClaimWrite_manager (c : Nat) (v : Word) (d : Dev) : icClaimWrite .manager c v d = count (aIc c 0x200) d :=
  if_neg Requester.noConfusion

theorem icClaimRead_own {n : Nat} {d : Dev} (h : (d.core c).claim = some n) : icClaimRead (.core c) c d =
    (if (icClaim c n (updCore c (fun x => { x with claim := none }) d)).1 then n else 0xFFF,
      (icClaim c n (updCore c (fun x => { x with claim := none }) d)).2) := by
  simp only [icClaimRead, fin_val, ne_eq, not_true_eq_false, if_false, h]

theorem icClaimRead_none {q : Requester} {d : Dev} (h : q ≠ .core c ∨ (d.core c).claim = none) :
    icClaimRead q c d = (0xFFF, d) := by
  rw [icClaimRead, fin_val]
  split
  · rfl
  · rw [h.resolve_left ‹_›]

end Claims

section IcClaim
variable {c n : Nat} (d : Dev) (hn : 64 ≤ n)
include hn

/-- A shared source of the core is claimed when it is pending, and is no longer. -/
theorem icClaim_own (hmax : n ≤ 1087) (htarget : (mget {} d.ic n).target = c) :
    (icClaim c n d).1 = (mget {} d.ic n).pending ∧ (mget {} (icClaim c n d).2.ic n).pending = false := by
  have hshared : ¬ n < 64 := Nat.not_lt.2 hn
  have hmine : ¬(n > 1087 ∨ (mget {} d.ic n).target ≠ c) := fun h => h.elim (Nat.not_lt.2 hmax) (· htarget)
  cases hp : (mget {} d.ic n).pending with
  | true => simp [icClaim, hshared, hmine, hp]
  | false => simp [icClaim, hshared, hmine, hp]

theorem icClaim_foreign (h : 1087 < n ∨ (mget {} d.ic n).target ≠ c) : icClaim c n d = (false, count (aIc c 0x200) d) := by
  have hshared : ¬ n < 64 := Nat.not_lt.2 hn
  have hother : (decide (n > 1087) || decide ((mget {} d.ic n).target ≠ c)) = true := by
    rw [← Bool.decide_or]
    exact decide_eq_true h
  simp only [icClaim, hshared, if_false, hother, if_true]

end IcClaim

/-! ### Raising and configuring sources (R396-R398) -/

section Sources
variable {s : State} {q : Requester}

theorem exec_icPsw {c : Fin 16} (h : s.reaches q (aIc c 0x30) = true) (v : Word) :
    exec (.icPsw q c v) s = .next (s.withDev (icPsw c v s.dev)) :=
  congrArg Host.Outcome.next (atReg_reaches _ _ _ _ h)

theorem exec_icSwSet (h : s.reaches q 0xE882000 = true) (v : Word) :
    exec (.icSwSet q v) s = .next (s.withDev (icSwSet v s.dev)) :=
  congrArg Host.Outcome.next (atReg_reaches _ _ _ _ h)

theorem exec_icCfgWrite (h : s.reaches q 0xE880000 = true) (n : Fin 1024) (v : Word) :
    exec (.icCfgWrite q n v) s = .next (s.withDev (icCfgWrite q (64 + n) v s.dev)) :=
  congrArg Host.Outcome.next (atReg_reaches _ _ _ _ h)

end Sources

/-- Whether a write of IC_CFG of source n leaves WITHDRAW set: pulse sources keep it at 0. -/
def withdraws (n : Nat) (v : Word) : Bool := v.getLsbD 30 && (n ≤ 200 || (208 ≤ n && n < 576))

theorem icCfgWrite_eq (q : Requester) (n : Nat) (v : Word) (d : Dev) : icCfgWrite q n v d =
    if !managerOr03 q then refuseWrite q d
    else { d with ic := mupd {} d.ic n fun s =>
      { s with enable := v.getLsbD 31, smode := v.getLsbD 29, target := wbits v 3 0, withdraw := withdraws n v
               pending := if withdraws n v && !s.withdraw && s.armed then s.level else s.pending } } := by
  cases q <;> rfl

section Cfg
variable {q : Requester} (n : Nat) (v : Word) (d : Dev)

theorem icCfgWrite_refused (hq : managerOr03 q = false) : icCfgWrite q n v d = refuseWrite q d := by
  rw [icCfgWrite_eq, hq, Bool.not_false, if_pos rfl]

theorem icCfgWrite_latching (hq : managerOr03 q = true) (hw : withdraws n v = false) : icCfgWrite q n v d =
    { d with ic := mupd {} d.ic n fun x =>
      { x with enable := v.getLsbD 31, smode := v.getLsbD 29, target := wbits v 3 0, withdraw := false } } := by
  simp only [icCfgWrite_eq, hq, hw, Bool.not_true, Bool.false_eq_true, if_false, Bool.false_and]

theorem icCfgWrite_withdrawing (hq : managerOr03 q = true) (hw : withdraws n v = true) : icCfgWrite q n v d =
    { d with ic := mupd {} d.ic n fun x =>
      { x with enable := v.getLsbD 31, smode := v.getLsbD 29, target := wbits v 3 0, withdraw := true
               pending := if !x.withdraw && x.armed then x.level else x.pending } } := by
  simp only [icCfgWrite_eq, hq, hw, Bool.not_true, Bool.false_eq_true, if_false, Bool.true_and]

end Cfg

/-- Settles O54: who claims, raises and configures, each by its situation. -/
theorem interruptsAreClaimed : Obligations.InterruptsAreClaimed := by
  unfold Obligations.InterruptsAreClaimed
  refine ⟨?write, ?writeManager, ?read, ?readNone, fun c n d hn hmax ht => icClaim_own d hn hmax ht,
    fun c n d hn h => icClaim_foreign d hn h, fun s q c v h => exec_icPsw h v, fun s q v h => exec_icSwSet h v,
    ?latching, ?withdrawing, ?refused⟩
  case write =>
    intro s c v h
    rw [exec_icClaimWrite h, icClaimWrite_own]
  case writeManager =>
    intro s c v h
    rw [exec_icClaimWrite h, icClaimWrite_manager]
  case read =>
    intro s c n d h hclaim hd
    rw [exec_icClaimRead h, icClaimRead_own hclaim, ← hd]
    exact ⟨fun hgot => by rw [hgot, if_pos rfl], fun hnot => by rw [hnot, if_neg Bool.false_ne_true]; rfl⟩
  case readNone =>
    intro s q c h hnone
    rw [exec_icClaimRead h, icClaimRead_none hnone]
    rfl
  case latching =>
    intro s q n v h hq hv
    have hw : withdraws (64 + n) v = false := by
      rcases hv with hv | hn
      · rw [withdraws, hv, Bool.false_and]
      · have hpulse : ¬(64 + n.val ≤ 200 ∨ 208 ≤ 64 + n.val ∧ 64 + n.val < 576) := by omega
        simpa [withdraws] using fun _ => hpulse
    rw [exec_icCfgWrite h, icCfgWrite_latching _ _ _ hq hw]
  case withdrawing =>
    intro s q n v h hq hv hn
    have hlevel : 64 + n.val ≤ 200 ∨ 208 ≤ 64 + n.val ∧ 64 + n.val < 576 := by omega
    have hw : withdraws (64 + n) v = true := by
      rw [withdraws, hv, Bool.true_and, ← Bool.decide_and, ← Bool.decide_or]
      exact decide_eq_true hlevel
    rw [exec_icCfgWrite h, icCfgWrite_withdrawing _ _ _ hq hw]
  case refused =>
    intro s q n v h hq
    rw [exec_icCfgWrite h, icCfgWrite_refused _ _ _ hq]

/-! ### Locks (R401-R403) -/

theorem exec_lockRead {s : State} (h : s.dev.serves (2 ^ 32) = true) (l : List Requester) (i : Fin 256) (k : Nat) :
    exec (.lockRead l i k) s = .next (s.withDev (each (lockRead (l.eraseDups.filter s.dev.admits) i k s.dev).1
      (fun x => emit (.value x.1 (aLock i) (word x.2))) (lockRead (l.eraseDups.filter s.dev.admits) i k s.dev).2)) :=
  congrArg Host.Outcome.next (through_comes s none _ h)

theorem exec_lockWrite {s : State} {q : Requester} {i : Fin 256} (h : s.reaches q (aLock i) = true) :
    exec (.lockWrite q i) s = .next (s.withDev (lockWrite q i s.dev)) :=
  congrArg Host.Outcome.next (atReg_reaches _ _ _ _ h)

/-- The arbitration of a cycle keeps the better of the winner so far and the next reader. -/
def lockBetter (cycle : Nat) (w : Option (Requester × Nat)) (x : Requester × Nat) : Option (Requester × Nat) :=
  match w with
  | none => some x
  | some y => if (masterPos x.2 + 19 - cycle % 19) % 19 < (masterPos y.2 + 19 - cycle % 19) % 19 then some x else w

theorem lockWinner_eq (cycle : Nat) (l : List (Requester × Nat)) : lockWinner cycle l = l.foldl (lockBetter cycle) none := rfl

theorem lockBetter_some (cycle : Nat) (y x : Requester × Nat) :
    lockBetter cycle (some y) x = some x ∨ lockBetter cycle (some y) x = some y := by
  unfold lockBetter
  dsimp only
  split
  · exact .inl rfl
  · exact .inr rfl

theorem foldl_lockBetter_mem (cycle : Nat) (l : List (Requester × Nat)) (y : Requester × Nat) :
    ∃ w ∈ y :: l, l.foldl (lockBetter cycle) (some y) = some w := by
  induction l generalizing y with
  | nil => exact ⟨y, List.mem_singleton_self y, rfl⟩
  | cons x r ih =>
    rw [List.foldl_cons]
    rcases lockBetter_some cycle y x with hx | hy
    · obtain ⟨w, hw, he⟩ := ih x
      exact ⟨w, List.mem_cons_of_mem _ hw, by rw [hx, he]⟩
    · obtain ⟨w, hw, he⟩ := ih y
      refine ⟨w, ?_, by rw [hy, he]⟩
      rcases List.mem_cons.1 hw with rfl | hr
      · exact List.mem_cons_self
      · exact List.mem_cons_of_mem _ (List.mem_cons_of_mem _ hr)

/-- Some reader wins. -/
theorem lockWinner_mem {cycle : Nat} {l : List (Requester × Nat)} (h : l ≠ []) : ∃ w ∈ l, lockWinner cycle l = some w := by
  cases l with
  | nil => exact absurd rfl h
  | cons x r => exact foldl_lockBetter_mem cycle r x

/-- The masters among the readers, with their IDs. -/
def lockReaders (l : List Requester) : List (Requester × Nat) := l.filterMap fun q => (masterId q).map fun m => (q, m)

theorem mem_lockReaders {l : List Requester} {q : Requester} {m : Nat} :
    (q, m) ∈ lockReaders l ↔ q ∈ l ∧ masterId q = some m := by
  simp [lockReaders]

section LockRead
variable {l : List Requester} {i k : Nat} {d : Dev}

theorem lockRead_owned {o : Nat} (h : mget none d.locks i = some o) :
    lockRead l i k d = ((lockReaders l).map fun x => (x.1, o), d) := by
  simp only [lockRead, h, Option.isSome_some, if_true]
  rfl

theorem lockRead_free {w : Requester × Nat} (h : mget none d.locks i = none) (hw : lockWinner k (lockReaders l) = some w) :
    lockRead l i k d = ((lockReaders l).map fun x => (x.1, if some w = some x then 2 ^ 31 + x.2 else 0xFF),
      { d with locks := mset none d.locks i (some w.2) }) := by
  have hw' : lockWinner k (l.filterMap fun q => (masterId q).map fun m => (q, m)) = some w := hw
  simp only [lockRead, h, hw', Option.isSome_none, Bool.false_eq_true, if_false]
  rfl

/-- A lock that is free goes to one of the masters that read it. -/
theorem lockRead_gives (h : mget none d.locks i = none) (hreader : ∃ q ∈ l, masterId q ≠ none) :
    ∃ q m, q ∈ l ∧ masterId q = some m ∧ mget none (lockRead l i k d).2.locks i = some m ∧
      (q, 2 ^ 31 + m) ∈ (lockRead l i k d).1 ∧ ∀ x ∈ (lockRead l i k d).1, x.1 ≠ q → x.2 = 0xFF := by
  obtain ⟨p, hp, hmaster⟩ := hreader
  obtain ⟨n, hn⟩ := Option.ne_none_iff_exists'.1 hmaster
  have hne : lockReaders l ≠ [] := List.ne_nil_of_mem (mem_lockReaders.2 ⟨hp, hn⟩)
  obtain ⟨⟨q, m⟩, hmem, hwin⟩ := lockWinner_mem (cycle := k) hne
  obtain ⟨hq, hm⟩ := mem_lockReaders.1 hmem
  rw [lockRead_free h hwin]
  refine ⟨q, m, hq, hm, ?_, List.mem_map.2 ⟨(q, m), hmem, ?_⟩, fun x hx hother => ?_⟩
  · rw [mget_mset, if_pos rfl]
  · rw [if_pos rfl]
  · obtain ⟨y, _, rfl⟩ := List.mem_map.1 hx
    exact if_neg fun he => hother (congrArg Prod.fst (Option.some.inj he)).symm

end LockRead

section LockWrite
variable {q : Requester} {i m : Nat} {d : Dev} (hq : masterId q = some m)
include hq

theorem lockWrite_owner (h : mget none d.locks i = some m) : lockWrite q i d = { d with locks := mdel d.locks i } := by
  simp only [lockWrite, hq, h, if_true]

theorem lockWrite_other (h : mget none d.locks i ≠ some m) :
    lockWrite q i d = setReg 0xE900804 (word (m * 256 + i)) (count 0xE900800 d) := by
  simp only [lockWrite, hq, h, if_false]

end LockWrite

/-! ### I2C transactions (R405-R407) -/

section I2cExec
variable {s : State} {q : Requester} {n : Fin 8}

theorem exec_i2cGo (h : s.reaches q (aI2c n + 4) = true) (v : Word) (low : Bool) :
    exec (.i2cGo q n v low) s = .next (s.withDev (i2cCmdWrite n v low s.dev)) :=
  congrArg Host.Outcome.next (atReg_reaches _ _ _ _ h)

theorem exec_i2cRecover (h : s.reaches q (aI2c n) = true) :
    exec (.i2cRecover q n) s = .next (s.withDev (i2cRecover n s.dev)) :=
  congrArg Host.Outcome.next (atReg_reaches _ _ _ _ h)

theorem exec_i2cDone (res : I2cEnd) : exec (.i2cDone n res) s = .next (s.withDev (i2cDone n res s.dev)) := rfl

theorem exec_i2cTimeout (k : Nat) (rd : List Byte) (h : s.dev.i2cBusy n = true) :
    exec (.i2cTimeout n k rd) s = .next (s.withDev (i2cEnd n (some 3) (k + rd.length) rd s.dev)) :=
  congrArg (fun d => Host.Outcome.next (s.withDev d)) (if_pos h)

end I2cExec

section Command
variable {n : Nat} {v : Word} {d : Dev}

theorem i2cCmdWrite_busy (low : Bool) (h : d.i2cBusy n = true) : i2cCmdWrite n v low d = badAccess d := if_pos h

variable (hidle : d.i2cBusy n = false) (hgo : v.getLsbD 30 = true)
include hidle hgo

theorem i2cCmdWrite_refused (low : Bool) (h : d.flag (aI2c n) 31 = false ∨ 64 < wbits v 15 8 ∨ 64 < wbits v 7 0) :
    i2cCmdWrite n v low d = badAccess d := by
  have hbad : (!d.flag (aI2c n) 31 || wbits v 15 8 > 64 || wbits v 7 0 > 64) = true := by
    simpa [or_assoc] using h
  rw [i2cCmdWrite, hidle, hgo, hbad]
  rfl

/-- The transaction that a GO sets up. -/
def i2cBegin (n : Nat) (v : Word) (d : Dev) : Dev :=
  i2cSync n (setFld (aI2c n + 8) 15 2 0 (setReg (aI2c n + 4) ((v &&& 0x23FFFFFF) ||| 0x80000000) d))

theorem i2cCmdWrite_starts (low : Bool) (hon : d.flag (aI2c n) 31 = true) (hr : wbits v 15 8 ≤ 64) (hw : wbits v 7 0 ≤ 64) :
    i2cCmdWrite n v low d = if low then i2cEnd n (some 2) 0 [] (i2cBegin n v d)
      else emit (.i2c n ((i2cBegin n v d).reg (aI2c n + 4)) (((i2cBegin n v d).i2cBuffer n).take (wbits v 7 0)))
        (i2cBegin n v d) := by
  have hgood : (!d.flag (aI2c n) 31 || wbits v 15 8 > 64 || wbits v 7 0 > 64) = false := by
    simp [hon, hr, hw]
  rw [i2cCmdWrite, hidle, hgo, hgood]
  rfl

end Command

section Ends
variable {n : Nat} {d : Dev}

theorem i2cRecover_sends (hidle : d.i2cBusy n = false) (hon : d.flag (aI2c n) 31 = true) :
    i2cRecover n d = emit (.i2cRecover n) d := by
  rw [i2cRecover, hidle, hon]
  rfl

theorem i2cRecover_ignored (h : d.i2cBusy n = true ∨ d.flag (aI2c n) 31 = false) : i2cRecover n d = d := by
  refine when_neg ?_ _ _
  rcases h with h | h
  · rw [h, Bool.not_true, Bool.false_and]
  · rw [h, Bool.and_false]

theorem i2cDone_ends (res : I2cEnd) (h : d.i2cBusy n = true) : i2cDone n res d = match res with
    | .ok rd => i2cEnd n none (d.fld (aI2c n + 4) 7 0 + d.fld (aI2c n + 4) 15 8) (padTo (d.fld (aI2c n + 4) 15 8) rd) d
    | .nackAddr m => i2cEnd n (some 6) m [] d
    | .nackData m => i2cEnd n (some 5) m [] d
    | .arbLost m => i2cEnd n (some 4) m [] d := by
  rw [i2cDone, h]
  cases res <;> rfl

end Ends

/-- What an end of a transaction stores before its status: the bytes read, how many moved, and the fault. -/
def i2cResult (n : Nat) (fault : Option Nat) (moved : Nat) (rd : List Byte) (d : Dev) : Dev :=
  d |> each (List.range 16) (fun i => setReg (aI2c n + 0x40 + 4 * i) (word (le (putBytes (d.i2cBuffer n) 0 rd) (4 * i) 4)))
    |> setFld (aI2c n + 8) 15 8 moved |> (match fault with | some i => setFlag (aI2c n + 8) i true | none => id)

theorem i2cEnd_eq (n : Nat) (fault : Option Nat) (moved : Nat) (rd : List Byte) (d : Dev) : i2cEnd n fault moved rd d =
    i2cSync n (setFlag (aI2c n + 4) 31 false (setFlag (aI2c n + 8) 7 true (i2cResult n fault moved rd d))) := by
  cases fault <;> rfl

theorem time_setFld (off hi lo x : Nat) (d : Dev) : (setFld off hi lo x d).time = d.time := setReg_time _ _ _

theorem time_setFlag (off i : Nat) (b : Bool) (d : Dev) : (setFlag off i b d).time = d.time := time_setFld _ _ _ _ _

theorem time_i2cResult (n : Nat) (fault : Option Nat) (moved : Nat) (rd : List Byte) (d : Dev) :
    (i2cResult n fault moved rd d).time = d.time := by
  have hstored (f : Nat → Word) : (each (List.range 16) (fun i => setReg (aI2c n + 0x40 + 4 * i) (f i)) d).time = d.time :=
    each_keep (·.time) _ (fun _ _ => setReg_time _ _ _) _ _
  cases fault with
  | none => rw [i2cResult, id, time_setFld, hstored]
  | some i => rw [i2cResult, time_setFlag, time_setFld, hstored]

theorem flag_i2cSync (n k i : Nat) (d : Dev) : (i2cSync n d).flag k i = d.flag k i := rfl

theorem time_i2cSync (n : Nat) (d : Dev) : (i2cSync n d).time = d.time := rfl

section End
variable (n : Nat) (fault : Option Nat) (moved : Nat) (rd : List Byte) (d : Dev)

/-- An end frees the master. -/
theorem i2cBusy_i2cEnd : (i2cEnd n fault moved rd d).i2cBusy n = false := by
  rw [Dev.i2cBusy, i2cEnd_eq, flag_i2cSync, flag_setFlag _ _ _ _ (by decide)]

/-- An end sets DONE. -/
theorem done_i2cEnd : (i2cEnd n fault moved rd d).flag (aI2c n + 8) 7 = true := by
  rw [i2cEnd_eq, flag_i2cSync, flag_setFlag_other _ _ _ _ _ _ (by decide) (.inl (by omega)),
    flag_setFlag _ _ _ _ (by decide)]

theorem time_i2cEnd : (i2cEnd n fault moved rd d).time = d.time := by
  rw [i2cEnd_eq, time_i2cSync, time_setFlag, time_setFlag, time_i2cResult]

end End

/-- Settles O55: the arbitration gives a free lock to one reader, and each I2C command and end by the state of its master. -/
theorem locksAndI2cMasters : Obligations.LocksAndI2cMasters := by
  unfold Obligations.LocksAndI2cMasters
  refine ⟨⟨?read, ?owned, fun l i k d h hr => lockRead_gives h hr, ?write⟩,
    ?go, ?refused, ?recover, ?recoverIgnored, ?done,
    fun n f m rd d _ => ⟨i2cBusy_i2cEnd n f m rd d, done_i2cEnd n f m rd d, time_i2cEnd n f m rd d⟩⟩
  case read =>
    intro s l i k r h hr
    rw [exec_lockRead h, ← hr]
  case owned =>
    intro l i k d o h
    rw [lockRead_owned h]
    refine ⟨rfl, fun x hx => ?_⟩
    obtain ⟨y, _, rfl⟩ := List.mem_map.1 hx
    rfl
  case write =>
    intro s q i m h hq
    rw [exec_lockWrite h]
    exact ⟨fun ho => by rw [lockWrite_owner hq ho], fun ho => by rw [lockWrite_other hq ho]⟩
  case go =>
    intro s q n v d h hidle hgo hon hr hw hd
    have hbegin : i2cBegin n v s.dev = d := hd.symm
    rw [exec_i2cGo h, exec_i2cGo h, i2cCmdWrite_starts hidle hgo _ hon hr hw, i2cCmdWrite_starts hidle hgo _ hon hr hw, hbegin]
    exact ⟨rfl, rfl⟩
  case refused =>
    intro s q n v low h hbad
    rw [exec_i2cGo h]
    cases hbusy : s.dev.i2cBusy n with
    | true => rw [i2cCmdWrite_busy low hbusy]
    | false =>
      obtain ⟨hgo, hno⟩ := hbad.resolve_left (by rw [hbusy]; exact Bool.false_ne_true)
      rw [i2cCmdWrite_refused hbusy hgo low hno]
  case recover =>
    intro s q n h hidle hon
    rw [exec_i2cRecover h, i2cRecover_sends hidle hon]
  case recoverIgnored =>
    intro s q n h hno
    rw [exec_i2cRecover h, i2cRecover_ignored hno]
    rfl
  case done =>
    intro s n rl wl hbusy hrl hwl
    subst hrl hwl
    refine ⟨fun rd => ?_, fun m => ?_, fun m => ?_, fun m => ?_, fun k rd => exec_i2cTimeout k rd hbusy⟩
    all_goals rw [exec_i2cDone, i2cDone_ends _ hbusy]

end Sys2Proof.Proofs
end

section
/-!
PROOF. O24 and O25: the learning ring, context commands, placement tables. First what it is for a field to be reserved as 0,
then each command's meaning in its situation.
-/
namespace Sys2Proof.Proofs
open Sys2Proof Sys2Proof.Machine Sys2Proof.Laws

theorem zeroAt_of_byteAt {b : List Byte} {o n : Nat} (h : ∀ i < n, byteAt b (o + i) = 0) : zeroAt b o n = true := by
  simp only [zeroAt, bytesAt, List.all_eq_true, List.mem_append, List.mem_replicate, beq_iff_eq]
  rintro x (hx | ⟨-, rfl⟩)
  · obtain ⟨i, hi, rfl⟩ := List.getElem_of_mem hx
    rw [List.length_take, List.length_drop] at hi
    have hbyte := h i (by omega)
    rw [byteAt, List.getD_eq_getElem _ _ (by omega)] at hbyte
    rw [List.getElem_take, List.getElem_drop]
    exact BitVec.eq_of_toNat_eq hbyte
  · rfl

/-! ### The learn ring (R275, R277-R279) -/

section LearnExec
variable {s : State} {p : Read} {e : Exec} {b : List Byte}

theorem exec_learnRingSet {r : Ring} (h : s.runs r 0x0501 p = some (e, b)) :
    exec (.learnRingSet r p) s = .next (s.withDev (learnRingSet r b s.dev)) :=
  congrArg Host.Outcome.next (onDev_command_runs h _)

theorem exec_learnFilterSet {r : Ring} (h : s.runs r 0x0502 p = some (e, b)) :
    exec (.learnFilterSet r p) s = .next (s.withDev (learnFilterSet r b s.dev)) :=
  congrArg Host.Outcome.next (onDev_command_runs h _)

theorem exec_learnHeadWrite {q : Requester} (h : s.reaches q 0xD803200 = true) (ht : trusted q = true) (v : Word) :
    exec (.learnHeadWrite q v) s = .next (s.withDev (learnHeadWrite v s.dev)) :=
  congrArg Host.Outcome.next (atRegAll_reaches _ _ _ _ h ht)

theorem exec_learnNoticeWrite (n : Fin 8) : exec (.learnNoticeWrite n) s = .next (s.withDev (learnNoticeWrite n s.dev)) := rfl

end LearnExec

section LearnRing
variable {r : Ring} {b : List Byte} {d : Dev} (hbase : le b 0 8 % 4096 = 0) (hlow : 8 ≤ byteAt b 8) (hhigh : byteAt b 8 ≤ 16)
  (hzero : ∀ i < 6, byteAt b (10 + i) = 0) (hflags : byteAt b 9 < 4)
include hbase hlow hhigh hzero hflags

/-- With its fields in range the command checks nothing but that the ring is not started twice. -/
theorem learnRingSet_clean (h : (bit (byteAt b 9) 0 && d.learn.ring.enable) = false) : clean
    [if bit (byteAt b 9) 0 && d.learn.ring.enable then some (stExists, 0) else none, bad (le b 0 8 % 4096 != 0) 0,
      bad (byteAt b 8 < 8 || byteAt b 8 > 16) 8, bad (byteAt b 9 / 4 != 0) 9, bad (!zeroAt b 10 6) 10] = true := by
  have hsize : (decide (byteAt b 8 < 8) || decide (byteAt b 8 > 16)) = false := by
    rw [decide_eq_false (Nat.not_lt.2 hlow), decide_eq_false (Nat.not_lt.2 hhigh), Bool.or_self]
  have hunused : (byteAt b 9 / 4 != 0) = false := by
    rw [Nat.div_eq_of_lt hflags, bne_self_eq_false]
  simp only [clean_cons, clean_nil, isNone_bad, h, hbase, hsize, hunused, zeroAt_of_byteAt hzero, bne_self_eq_false,
    Bool.false_eq_true, if_false, Option.isNone_none, Bool.not_true, Bool.not_false, Bool.and_self]

theorem learnRingSet_starts (hon : bit (byteAt b 9) 0 = true) (hoff : d.learn.ring.enable = false) :
    learnRingSet r b d = reply r stOk 0 [] { d with learn := { d.learn with
      ring := { d.learn.ring with base := le b 0 8, log2 := byteAt b 8, enable := true, head := 0, wpos := 0 }
      event := bit (byteAt b 9) 1, notified := false } } := by
  have hclean := learnRingSet_clean (d := d) hbase hlow hhigh hzero hflags (by rw [hoff, Bool.and_false])
  rw [learnRingSet, checks_clean _ _ _ _ hclean]
  simp only [hon, if_true]
  rfl

theorem learnRingSet_stops (hoff : bit (byteAt b 9) 0 = false) : learnRingSet r b d = reply r stOk 0 [] { d with
    learn := { d.learn with
      ring := { d.learn.ring with base := le b 0 8, log2 := byteAt b 8, enable := false }
      event := bit (byteAt b 9) 1, fifos := [] } } := by
  have hclean := learnRingSet_clean (d := d) hbase hlow hhigh hzero hflags (by rw [hoff, Bool.false_and])
  rw [learnRingSet, checks_clean _ _ _ _ hclean]
  simp only [hoff, Bool.false_eq_true, if_false]

end LearnRing

theorem learnFilterSet_off {r : Ring} {b : List Byte} {d : Dev} (htable : byteAt b 0 ≤ 63) (hprofile : byteAt b 1 ≤ 63)
    (hoff : bit (byteAt b 3) 0 = false) (hport : byteAt b 2 ≤ 4) (hflags : byteAt b 3 < 8) (hwindow : le b 4 4 ≤ 1000000)
    (hzero : ∀ i < 4, byteAt b (28 + i) = 0) : learnFilterSet r b d = reply r stOk 0 [] { d with learn := { d.learn with
      table := byteAt b 0, profile := byteAt b 1, portOff := byteAt b 2, on := false, moves := bit (byteAt b 3) 1
      window := le b 4 4, portEn := le b 8 20
      filters := if bit (byteAt b 3) 2 || byteAt b 0 != d.learn.table || byteAt b 1 != d.learn.profile ||
        le b 4 4 != d.learn.window then [] else d.learn.filters } } := by
  have hunused : (byteAt b 3 / 8 != 0) = false := by
    rw [Nat.div_eq_of_lt hflags, bne_self_eq_false]
  rw [learnFilterSet, checks_clean]
  · simp only [hoff]
  · simp only [clean_cons, clean_nil, isNone_bad, hoff, hunused, zeroAt_of_byteAt hzero, Bool.false_and, Bool.or_false,
      decide_eq_false (Nat.not_lt.2 htable), decide_eq_false (Nat.not_lt.2 hprofile), decide_eq_false (Nat.not_lt.2 hport),
      decide_eq_false (Nat.not_lt.2 hwindow), Bool.not_true, Bool.not_false, Bool.and_self]

theorem learnNoticeWrite_moves {n : Nat} {x : List Byte} {l : List (List Byte)} {d : Dev} (hfifo : mget [] d.learn.fifos n = x :: l)
    (hon : d.learn.ring.enable = true) (hroom : d.learn.ring.full = false) (hmay : d.mgrMay = true) (htype : byteAt x 8 ≠ 3) :
    learnNoticeWrite n d = when (d.learn.event && d.learn.ring.empty && !d.learn.notified)
      (raise 0x07 (posWord d.learn.ring.n d.learn.ring.step.wpos) 0 0)
      { ringWrites mgrWrite d.learn.ring.base d.learn.ring.n d.learn.ring.wpos 128 x 127 d with learn := { d.learn with
        fifos := mset [] d.learn.fifos n l, ring := d.learn.ring.step
        notified := d.learn.notified || (d.learn.event && d.learn.ring.empty && !d.learn.notified) } } := by
  have hgo : (!d.learn.ring.enable || d.learn.ring.full || !d.mgrMay) = false := by
    rw [hon, hroom, hmay]
    rfl
  simp only [learnNoticeWrite, hfifo, hgo, Bool.false_eq_true, if_false, if_neg htype]

/-- Settles O24: each command with its fields in range, and the writer with a notice and room for it. -/
theorem learningRingWorks : Obligations.LearningRingWorks := by
  unfold Obligations.LearningRingWorks
  refine ⟨fun s p e b h hbase hlow hhigh hzero hflags => ⟨fun hon hoff => ?_, fun hoff => ?_⟩,
    fun s p e b h htable hprofile hoff hport hflags hwindow hzero => ?_,
    fun s q v h ht => ⟨fun p hvalid => ?_, fun hinvalid => ?_⟩, fun s n x l d hfifo hon hroom hmay htype hd => ?_⟩
  · rw [exec_learnRingSet h, learnRingSet_starts hbase hlow hhigh hzero hflags hon hoff]
  · rw [exec_learnRingSet h, learnRingSet_stops hbase hlow hhigh hzero hflags hoff]
  · rw [exec_learnFilterSet h, learnFilterSet_off htable hprofile hoff hport hflags hwindow hzero]
  · simp only [exec_learnHeadWrite h ht, learnHeadWrite, hvalid]
  · simp only [exec_learnHeadWrite h ht, learnHeadWrite, hinvalid]
  · rw [exec_learnNoticeWrite, learnNoticeWrite_moves hfifo hon hroom hmay htype, ← hd]

/-! ### Context commands (R291-R293, R302) -/

section ContextExec
variable {s : State} {r : Ring} {p : Read} {e : Exec} {b : List Byte}

theorem exec_contextWrite (h : s.runs r 0x0601 p = some (e, b)) : exec (.contextWrite r p) s =
    .next (s.withDev (onContext r e b (contextFaults b) (contextWrite r b) s.dev)) :=
  congrArg Host.Outcome.next (onDev_command_runs h _)

theorem exec_contextRead (h : s.runs r 0x0602 p = some (e, b)) : exec (.contextRead r p) s = .next (s.withDev
    (onContext r e b [bad (!zeroAt b 4 4) 4, bad (le b 8 8 % 64 != 0) 8] (contextRead r b) s.dev)) :=
  congrArg Host.Outcome.next (onDev_command_runs h _)

theorem exec_saKeyRotate (h : s.runs r 0x0603 p = some (e, b)) : exec (.saKeyRotate r p) s = .next (s.withDev
    (onContext r e b [bad (!zeroAt b 4 4) 4, bad (!zeroAt b 52 4) 52] (saKeyRotate r b) s.dev)) :=
  congrArg Host.Outcome.next (onDev_command_runs h _)

theorem exec_placementSet (h : s.runs r 0x0701 p = some (e, b)) : exec (.placementSet r p) s =
    .next (s.withDev (onContext r e b [] (placementSet r b) s.dev)) :=
  congrArg Host.Outcome.next (onDev_command_runs h _)

theorem exec_placementClear (h : s.runs r 0x0702 p = some (e, b)) : exec (.placementClear r p) s =
    .next (s.withDev (onContext r e b [bad (!zeroAt b 4 4) 4] (placementClear r) s.dev)) :=
  congrArg Host.Outcome.next (onDev_command_runs h _)

end ContextExec

section OnContext
variable {e : Exec} {b : List Byte} {faults : List (Option (Nat × Nat))} {go : Nat → Dev → Dev} {d : Dev}
  (hunused : byteAt b 3 = 0)
include hunused

/-- The manager names a context by its global number. -/
theorem onContext_manager (hclean : clean faults = true) (hon : d.plOn (homePl (le b 0 3)) = true)
    (hfree : d.ctxHeld (le b 0 3) = false) : onContext .manager e b faults go d = go (le b 0 3) (ctxUse (le b 0 3) d) := by
  rw [onContext, checks_clean]
  · simp only [hon, hfree, Bool.not_true, Bool.false_eq_true, if_false]
  · rw [clean_cons, isNone_bad, hunused, bne_self_eq_false, hclean]
    rfl

/-- On a slice path the number is the slice's own. -/
theorem onContext_slice {r : Ring} {x : Slice} (hr : r ≠ .manager) (hslice : d.slice e.slice = some x)
    (hquota : le b 0 3 < x.cLen) (hclean : clean faults = true) (hon : d.plOn (homePl (x.cBase + le b 0 3)) = true)
    (hfree : d.ctxHeld (x.cBase + le b 0 3) = false) :
    onContext r e b faults go d = go (x.cBase + le b 0 3) (ctxUse (x.cBase + le b 0 3) d) := by
  have hrun : checks r faults (fun d => if (!d.plOn (homePl (x.cBase + le b 0 3))) = true then reply r stDomainDown 0 [] d
      else if d.ctxHeld (x.cBase + le b 0 3) = true then d
      else go (x.cBase + le b 0 3) (ctxUse (x.cBase + le b 0 3) d)) d =
      go (x.cBase + le b 0 3) (ctxUse (x.cBase + le b 0 3) d) := by
    rw [checks_clean _ _ _ _ hclean]
    simp only [hon, hfree, Bool.not_true, Bool.false_eq_true, if_false]
  have hfirst : bad (byteAt b 3 != 0) 0 = none := by
    rw [hunused]
    rfl
  cases r with
  | manager => exact absurd rfl hr
  | function f => simp only [onContext, hslice, hfirst, if_neg (Nat.not_le.2 hquota), hrun]
  | slice k => simp only [onContext, hslice, hfirst, if_neg (Nat.not_le.2 hquota), hrun]

end OnContext

section Context
variable {r : Ring} {b : List Byte} {c : Nat} {d : Dev} {o : List Byte × Bool × Dev} (ho : readCtx c d = o)
include ho

theorem contextWrite_stores {keep : Bool} {d' : Dev} {y : List Byte} (hkeep : bit (byteAt b 4) 0 = keep)
    (hgood : keep = true → o.2.1 = false ∧ cxType o.1 = cxType (bytesAt b 8 256))
    (hd : d' = if keep then o.2.2 else stopPlacement c o.1 o.2.2)
    (hy : y = ctxAfterWrite o.1 (bytesAt b 8 256) keep (o.2.2.ctxOwner c)) :
    contextWrite r b c d = reply r stOk 0 [lo32 d'.time, hi32 d'.time]
      (when (cxType y == 3 && (cxType o.1 != 3 || bytesAt y 44 1 != bytesAt o.1 44 1 || bytesAt y 108 8 != bytesAt o.1 108 8))
        (ptHeader c y) (writeCtx c y d')) := by
  have hread : (keep && o.2.1) = false := by
    cases keep with
    | false => rfl
    | true => exact (hgood rfl).1
  have htype : (keep && cxType o.1 != cxType (bytesAt b 8 256)) = false := by
    cases keep with
    | false => rfl
    | true => rw [(hgood rfl).2, bne_self_eq_false, Bool.and_false]
  subst hd hy
  simp only [contextWrite, ho, hkeep, hread, htype, Bool.false_eq_true, if_false]

variable (hsound : o.2.1 = false)
include hsound

theorem contextRead_hands : contextRead r b c d = reply r stOk 0 []
    (ringData r [(le b 8 8, if cxType o.1 = 3 then o.1 else putLe o.1 32 72 0)] o.2.2) := by
  simp only [contextRead, ho, hsound, Bool.false_eq_true, if_false]

theorem saKeyRotate_switches (htype : cxType o.1 = 1 ∨ cxType o.1 = 2) (hahead : cxSeq o.1 < le b 8 8)
    (hidle : cxSwitching o.1 = false) {k : Nat} (hk : k = 1 - byteAt o.1 24 % 2) :
    saKeyRotate r b c d = reply r stOk 0 [] (writeCtx c
      (putLe (putBytes (putBytes (putBytes o.1 (32 + 32 * k) (bytesAt b 16 32)) (96 + 4 * k) (bytesAt b 48 4))
        16 (bytesAt b 8 8)) 24 1 (2 + (1 - k))) o.2.2) := by
  have hesp : (cxType o.1 != 1 && cxType o.1 != 2) = false := by
    rcases htype with h | h <;> rw [h] <;> rfl
  subst hk
  simp only [saKeyRotate, ho, hsound, hesp, hidle, if_neg (Nat.not_le.2 hahead), Bool.false_eq_true, if_false]

variable (htype : cxType o.1 = 3)
include htype

theorem placementSet_gives (hnone : o.2.2.ptValid c o.1 = false) (hzero : zeroAt b 4 4 = true) (haddr : le b 8 8 % 64 = 0)
    (hlog : byteAt b 16 ≤ 16) (hzero' : zeroAt b 17 7 = true) : placementSet r b c d = reply r stOk 0 []
      (writeCtx c (nxByte 105 1 (putBytes (putBytes o.1 96 (bytesAt b 8 8)) 104 (bytesAt b 16 1)))
        { o.2.2 with ptOff := o.2.2.ptOff.filter (· != c) }) := by
  rw [placementSet, ho, checks_clean]
  simp only [clean_cons, clean_nil, isNone_bad, hsound, htype, hnone, hzero, haddr, hzero', Bool.false_eq_true, if_false,
    Option.isNone_none, bne_self_eq_false, decide_eq_false (Nat.not_lt.2 hlog), Bool.not_true, Bool.not_false, Bool.and_self]

theorem placementClear_takes (hvalid : o.2.2.ptValid c o.1 = true) : placementClear r c d = reply r stOk 0 []
    (writeCtx c (nxByte 105 0 o.1) { o.2.2 with placing := mdel o.2.2.placing c }) := by
  simp only [placementClear, ho, hsound, htype, hvalid, bne_self_eq_false, Bool.not_true, Bool.or_self, Bool.false_eq_true,
    if_false]

end Context

/-- The reserved bytes of a context command. -/
theorem clean_reserved {b : List Byte} {o n off : Nat} (l : List (Option (Nat × Nat))) (hzero : zeroAt b o n = true)
    (hl : clean l = true) : clean (bad (!zeroAt b o n) off :: l) = true := by
  rw [clean_cons, isNone_bad, hzero, hl]
  rfl

/-- Settles O25: the context is reached, then each command with its fields in range. -/
theorem contextsAndPlacementTables : Obligations.ContextsAndPlacementTables := by
  unfold Obligations.ContextsAndPlacementTables
  refine ⟨fun s p e b c o hc hunused hon hfree ho => ?manager, fun s r p e b x c o hr hslice hunused hquota hc hon hfree ho
    hsound htype hzero => ?slice⟩
  case manager =>
    subst hc
    refine ⟨fun h hclean hgood d y hd hy => ?_, fun h hzero haddr hsound => ?_,
      fun h hzero hzero' hsound htype hahead hidle k hk => ?_⟩
    · rw [exec_contextWrite h, onContext_manager hunused hclean hon hfree, contextWrite_stores ho.symm rfl hgood hd hy]
    · have hclean : clean [bad (!zeroAt b 4 4) 4, bad (le b 8 8 % 64 != 0) 8] = true :=
        clean_reserved _ (zeroAt_of_byteAt hzero) (by rw [haddr]; rfl)
      rw [exec_contextRead h, onContext_manager hunused hclean hon hfree, contextRead_hands ho.symm hsound]
    · have hclean : clean [bad (!zeroAt b 4 4) 4, bad (!zeroAt b 52 4) 52] = true :=
        clean_reserved _ (zeroAt_of_byteAt hzero) (clean_reserved _ (zeroAt_of_byteAt hzero') rfl)
      rw [exec_saKeyRotate h, onContext_manager hunused hclean hon hfree,
        saKeyRotate_switches ho.symm hsound htype hahead hidle hk]
  case slice =>
    subst hc
    have hzero := zeroAt_of_byteAt hzero
    refine ⟨fun h hnone haddr hlog hzero' => ?_, fun h hvalid => ?_⟩
    · rw [exec_placementSet h, onContext_slice hunused hr hslice hquota rfl hon hfree,
        placementSet_gives ho.symm hsound htype hnone hzero haddr hlog (zeroAt_of_byteAt hzero')]
    · rw [exec_placementClear h, onContext_slice hunused hr hslice hquota (clean_reserved _ hzero rfl) hon hfree,
        placementClear_takes ho.symm hsound htype hvalid]

end Sys2Proof.Proofs
end

section
/-!
PROOF. O28: policers and nodes take their settings at a refill boundary. First the commands that stage them, then what a
boundary does, and what a query answers.
-/
namespace Sys2Proof.Proofs
open Sys2Proof Sys2Proof.Machine Sys2Proof.Laws

/-! ### Policers (R343, R349) -/

theorem exec_policerSet {s : State} {r : Ring} {p : Read} {e : Exec} {b : List Byte} (h : s.runs r 0x0901 p = some (e, b)) :
    exec (.policerSet r p) s = .next (s.withDev (policerSet r e b s.dev)) :=
  congrArg Host.Outcome.next (onDev_command_runs h _)

theorem exec_policerRefill (s : State) {p : Nat} (h : p < 262144) :
    exec (.policerRefill p) s = .next (s.withDev (policerRefill p s.dev)) :=
  congrArg (fun d => Host.Outcome.next (s.withDev d)) (if_pos h)

/-- The settings that POLICER_SET stages. -/
def policerSettings (b : List Byte) (due : Nat) : List Nat :=
  [byteAt b 4 % 2, byteAt b 5, le b 8 4, le b 12 4, le b 16 4, le b 20 4, byteAt b 4 / 2 % 2, due]

/-- Policer i of the command's parameters: a global number, or one of the slice's own. -/
def policerNamed (e : Exec) (b : List Byte) (i : Nat) (d : Dev) : Prop :=
  (d.slice e.slice = none ∧ le b 0 4 < 262144 ∧ i = le b 0 4) ∨
    ∃ x, d.slice e.slice = some x ∧ le b 0 4 < x.pLen ∧ i = x.pBase + le b 0 4

theorem policerSet_stages {r : Ring} {e : Exec} {b : List Byte} {d d' : Dev} {k i : Nat} (hclean : clean (policerFaults b) = true)
    (hdraw : drawStaging d = (k, d')) (hi : policerNamed e b i d) : policerSet r e b d =
      updPolicer i (fun x => { x with staged := some (policerSettings b (boundary 1024 (d.time + k)), r) }) (begin' r d') := by
  rcases hi with ⟨hslice, hn, rfl⟩ | ⟨x, hslice, hn, rfl⟩
  · simp only [policerSet, hslice, hn, if_true, checks_clean _ _ _ _ hclean, hdraw]
    rfl
  · simp only [policerSet, hslice, hn, if_true, checks_clean _ _ _ _ hclean, hdraw]
    rfl

theorem policerRefill_staged {p : Nat} {d : Dev} {l : List Nat} {r : Ring} (h : (d.policer p).staged = some (l, r)) :
    policerRefill p d = policerSettle p (timeTo (l.getD 7 0) d) := by
  simp only [policerRefill, h]

theorem policerRefill_next {p : Nat} {d : Dev} (h : (d.policer p).staged = none) :
    policerRefill p d = policerSettle p (timeTo ((d.time / 1024 + 1) * 1024) d) := by
  simp only [policerRefill, h]

theorem policerSettle_installs {p : Nat} {d : Dev} {l : List Nat} {r : Ring} (h : (d.policer p).staged = some (l, r))
    (hdue : l.getD 7 0 ≤ d.time) : policerSettle p d =
      let d' := reply r stOk 0 [p] (updPolicer p (fun x => x.install l (l.getD 7 0 / 1024)) d)
      updPolicer p (fun x => x.credit (d'.time / 1024)) d' := by
  simp only [policerSettle, h, hdue, if_true]

/-! ### Nodes (R356-R358) -/

section NodeExec
variable {s : State} {r : Ring} {p : Read} {e : Exec} {b : List Byte}

theorem exec_nodeSet (h : s.runs r 0x0902 p = some (e, b)) :
    exec (.nodeSet r p) s = .next (s.withDev (nodeSet r e b s.dev)) :=
  congrArg Host.Outcome.next (onDev_command_runs h _)

theorem exec_nodeQuery (h : s.runs r 0x0903 p = some (e, b)) :
    exec (.nodeQuery r p) s = .next (s.withDev (nodeQuery r e b s.dev)) :=
  congrArg Host.Outcome.next (onDev_command_runs h _)

theorem exec_nodeRefill (n : NodeId) : exec (.nodeRefill n) s = .next (s.withDev (nodeRefill n s.dev)) := rfl

theorem exec_nodeUnbindDrained (k : Fin 4096) (n : Fin 256) :
    exec (.nodeUnbindDrained k n) s = .next (s.withDev (unbindDrained (.slice k n) s.dev)) := rfl

end NodeExec

theorem nodeSet_stages {r : Ring} {e : Exec} {b : List Byte} {d d' : Dev} {k : Nat} (hname : clean (nameFaults e b) = true)
    (hclean : clean (nodeFaults b) = true) (hanswer : nodeAnswer e b d = none)
    (hflags : byteAt b 6 % 4 ≠ 0 → le b 4 2 ≠ 0xFFFF ∧ byteAt b 6 % 4 ≠ 3) (hdraw : drawStaging d = (k, d')) :
    nodeSet r e b d = updNode (nodeNamed e.slice b) (fun x => { x with
      staged := some (padTo 48 b ++ leBytes 8 (boundary (nodeInterval (nodeNamed e.slice b)) (d.time + k)), r) })
      (begin' r d') := by
  have hfits : (byteAt b 6 % 4 != 0 && le b 4 2 == 0xFFFF || byteAt b 6 % 4 == 3) = false := by
    by_cases h0 : byteAt b 6 % 4 = 0
    · rw [h0]
      rfl
    · obtain ⟨hsub, hone⟩ := hflags h0
      rw [beq_eq_false_iff_ne.2 hsub, beq_eq_false_iff_ne.2 hone, Bool.and_false, Bool.or_self]
  rw [nodeSet, checks_clean _ _ _ _ (by rw [clean_append, hname, hclean]; rfl)]
  simp only [hanswer, hfits, Bool.false_eq_true, if_false, hdraw]

theorem nodeRefill_staged {n : NodeId} {d : Dev} {b : List Byte} {r : Ring} (h : (d.node n).staged = some (b, r)) :
    nodeRefill n d = nodeSettle n (timeTo (le b 48 8) d) := by
  simp only [nodeRefill, h]

theorem nodeRefill_next {n : NodeId} {d : Dev} (h : (d.node n).staged = none) :
    nodeRefill n d = nodeSettle n (timeTo ((d.time / nodeInterval n + 1) * nodeInterval n) d) := by
  simp only [nodeRefill, h]

theorem unbindDrained_returns {n : NodeId} {d : Dev} {r : Ring} {t : Nat} (h : (d.node n).unbinding = some (some r, t))
    (hempty : d.waiting n = []) :
    unbindDrained n d = reply r stOk 0 [0, 0, 0, 0, lo32 t, hi32 t] (forgetNode n d) := by
  simp only [unbindDrained, h, hempty, List.isEmpty_nil, if_true]

theorem byteAt_of_badBytes {b : List Byte} {o n : Nat} (h : badBytes b o n = none) : ∀ i < n, byteAt b (o + i) = 0 := by
  simpa [badBytes] using h

theorem nodeQuery_answers {r : Ring} {e : Exec} {b : List Byte} {d : Dev} (hname : clean (nameFaults e b) = true)
    (hzero : badBytes b 6 2 = none) (hanswer : nodeAnswer e (padTo 48 (b.take 6)) d = none) :
    nodeQuery r e b d = reply r stOk 0 (nodeWords (nodeNamed e.slice b) (nodeSettle (nodeNamed e.slice b) d))
      (updNode (nodeNamed e.slice b) (fun x => { x with drops := 0 }) (nodeSettle (nodeNamed e.slice b) d)) := by
  have hclean : clean (nameFaults e b ++ [bad (!zeroAt b 6 2) 6]) = true := by
    rw [clean_append, hname, clean_cons, isNone_bad, zeroAt_of_byteAt (byteAt_of_badBytes hzero)]
    rfl
  rw [nodeQuery, checks_clean _ _ _ _ hclean]
  simp only [hanswer]

/-- Settles O28: a command stages, a boundary installs, the end of an unbinding returns the node, a query answers. -/
theorem creditSettingsTakeEffectAtBoundaries : Obligations.CreditSettingsTakeEffectAtBoundaries := by
  unfold Obligations.CreditSettingsTakeEffectAtBoundaries
  refine ⟨⟨fun s p e b k d i l h hclean hdraw hi hl => ?_, fun s p l r hp hstaged => ?_, fun s p hp hnone => ?_,
    fun p d l r hstaged hdue => policerSettle_installs hstaged hdue⟩,
    fun s p e b k d n l h hname hclean hanswer hflags hn hdraw hl => ?_, fun s n b r hstaged => ?_, fun s n hnone => ?_,
    fun s k n r t hunbinding hempty => ?_, fun s p e b n d h hname hzero hanswer hn hd => ?_⟩
  · rw [exec_policerSet h, policerSet_stages hclean hdraw hi, hl]
    rfl
  · rw [exec_policerRefill s hp, policerRefill_staged hstaged]
  · rw [exec_policerRefill s hp, policerRefill_next hnone]
  · rw [exec_nodeSet h, nodeSet_stages hname hclean hanswer hflags hdraw, hl, hn]
  · rw [exec_nodeRefill, nodeRefill_staged hstaged]
  · rw [exec_nodeRefill, nodeRefill_next hnone]
  · rw [exec_nodeUnbindDrained, unbindDrained_returns hunbinding hempty]
  · rw [exec_nodeQuery h, nodeQuery_answers hname hzero hanswer, hd, hn]

end Sys2Proof.Proofs
end

section
/-!
PROOF. O26 and O27: eyelets are exported, rewritten, read and withdrawn, and eyelet jobs issue segments. First the commands
and the end of a rewrite, then the start and the ends of a segment.
-/
namespace Sys2Proof.Proofs
open Sys2Proof Sys2Proof.Machine Sys2Proof.Laws

/-! ### Eyelet commands (R330-R333) -/

theorem withExporter_slice {r : Ring} {e : Exec} (go : Nat → Dev → Dev) (d : Dev) (h : e.slice < 4096) :
    withExporter r e go d = go e.slice d := if_pos h

theorem onEyelet_own {r : Ring} {k h : Nat} {faults : List (Option (Nat × Nat))} {go : Eyelet → Dev → Dev} {d : Dev}
    {y : Eyelet} (hy : d.eyelet h = some y) (hexp : y.exporter = k) (hclean : clean faults = true) :
    onEyelet r k h faults go d = go y d := by
  simp only [onEyelet, hy, hexp, bne_self_eq_false, Bool.false_eq_true, if_false, checks_clean _ _ _ _ hclean]

/-- What a rewrite does to its eyelet once it is found: it waits for an earlier one, then stages its window. -/
def rewriteBegin (r : Ring) (h : Nat) (w : Option Window) (y : Eyelet) (d : Dev) : Dev :=
  if y.rewrite.isSome then d else d |> stageWindow h w (some r) |> begin' r

theorem rewriteBegin_stages {r : Ring} {h : Nat} {y : Eyelet} (w : Option Window) (d : Dev) (hy : y.rewrite = none) :
    rewriteBegin r h w y d = begin' r (stageWindow h w (some r) d) := by
  rw [rewriteBegin, hy, Option.isSome_none, if_neg Bool.false_ne_true]

section EyeletExec
variable {s : State} {r : Ring} {p : Read} {e : Exec} {b : List Byte} (hs : e.slice < 4096)
include hs

theorem exec_eyeletExport (h : s.runs r 0x0801 p = some (e, b)) :
    exec (.eyeletExport r p) s = .next (s.withDev (eyeletExport r e.slice b s.dev)) :=
  congrArg Host.Outcome.next ((onDev_command_runs h _).trans (congrArg s.withDev (withExporter_slice _ _ hs)))

theorem exec_eyeletRewrite (h : s.runs r 0x0802 p = some (e, b)) : exec (.eyeletRewrite r p) s =
    .next (s.withDev (onEyelet r e.slice (le b 18 2) (windowFaults false b ++ importerFaults b s.dev)
      (rewriteBegin r (le b 18 2) (some (windowOf b))) s.dev)) :=
  congrArg Host.Outcome.next ((onDev_command_runs h _).trans (congrArg s.withDev (withExporter_slice _ _ hs)))

theorem exec_eyeletWithdraw (h : s.runs r 0x0803 p = some (e, b)) : exec (.eyeletWithdraw r p) s =
    .next (s.withDev (onEyelet r e.slice (le b 0 2) [bad (!zeroAt b 2 2) 2] (rewriteBegin r (le b 0 2) none) s.dev)) :=
  congrArg Host.Outcome.next ((onDev_command_runs h _).trans (congrArg s.withDev (withExporter_slice _ _ hs)))

theorem exec_eyeletQuery (h : s.runs r 0x0804 p = some (e, b)) : exec (.eyeletQuery r p) s =
    .next (s.withDev (onEyelet r e.slice (le b 0 2) [bad (!zeroAt b 2 6) 2, bad (le b 8 8 % 64 != 0) 8]
      (eyeletQuery r (le b 0 2) (le b 8 8)) s.dev)) :=
  congrArg Host.Outcome.next ((onDev_command_runs h _).trans (congrArg s.withDev (withExporter_slice _ _ hs)))

end EyeletExec

theorem eyeletExport_takes {r : Ring} {k h : Nat} {b : List Byte} {d d' : Dev} (hwindow : clean (windowFaults true b) = true)
    (himporters : clean (importerFaults b d) = true)
    (hquota : (d.eyeletsOf k).length < ((d.slice k).map (·.eyelets)).getD 0) (hnext : nextHandle d = (some h, d')) :
    eyeletExport r k b d = begin' r (stageWindow h (some (windowOf b)) (some r)
      { d' with eyelets := mput d'.eyelets h { exporter := k }, freed := d'.freed.filter (·.1 != h) }) := by
  rw [eyeletExport, checks_clean]
  · simp only [hnext]
  · rw [clean_append, clean_append, hwindow, himporters, if_neg (Nat.not_le.2 hquota)]
    rfl

/-! ### A rewrite's end (R332) -/

theorem exec_eyeletRewriteReply (s : State) (h : Fin 65536) :
    exec (.eyeletRewriteReply h) s = .next (s.withDev (rewriteReply h s.dev)) := rfl

section RewriteReply
variable {h : Nat} {d : Dev} {y : Eyelet} {w : Rewrite} {r : Ring} (hy : d.eyelet h = some y) (hrewrite : y.rewrite = some w)
  (happlied : w.applied = true) (hflush : w.flush = false) (hold : ∀ x ∈ y.flight, x.old = false) (hring : w.ring = some r)
include hy hrewrite happlied hflush hold hring

theorem rewriteReply_answers : rewriteReply h d =
    if w.withdraw then
      { reply r stOk 0 [h, 0, 0, 0, lo32 y.apply, hi32 y.apply] d with
        eyelets := mdel (reply r stOk 0 [h, 0, 0, 0, lo32 y.apply, hi32 y.apply] d).eyelets h
        freed := (reply r stOk 0 [h, 0, 0, 0, lo32 y.apply, hi32 y.apply] d).freed ++
          [(h, (reply r stOk 0 [h, 0, 0, 0, lo32 y.apply, hi32 y.apply] d).time)] }
    else updEyelet h (fun y => { y with rewrite := none }) (reply r stOk 0 [h, 0, 0, 0, lo32 y.apply, hi32 y.apply] d) := by
  have hnone : y.flight.any (·.old) = false := by simpa using hold
  have hgo : (!w.applied || w.flush || y.flight.any (·.old)) = false := by
    rw [happlied, hflush, hnone]
    rfl
  simp only [rewriteReply, hy, hrewrite, hgo, hring, Bool.false_eq_true, if_false]

end RewriteReply

/-- Settles O26: each command reaches its eyelet and stages its window or answers; a rewrite's reply ends it. -/
theorem eyeletCommandsRewriteWindows : Obligations.EyeletCommandsRewriteWindows := by
  unfold Obligations.EyeletCommandsRewriteWindows
  refine ⟨fun s r p e b h d hrun hs hwindow himporters hquota hnext => ?_,
    fun s r p e b y hrun hs hy hexp hidle hwindow himporters => ?_, fun s r p e b y hrun hs hy hexp hidle hzero => ?_,
    fun s r p e b y w hrun hs hy hexp hzero haddr hw => ?_,
    fun s h y w r hy hrewrite happlied hflush hold hring => ⟨fun hkeep => ?_, fun hgone d hd => ?_⟩⟩
  · rw [exec_eyeletExport hs hrun, eyeletExport_takes hwindow himporters hquota hnext]
  · have hclean : clean (windowFaults false b ++ importerFaults b s.dev) = true := by
      rw [clean_append, hwindow, himporters]
      rfl
    rw [exec_eyeletRewrite hs hrun, onEyelet_own hy hexp hclean, rewriteBegin_stages _ _ hidle]
  · rw [exec_eyeletWithdraw hs hrun, onEyelet_own hy hexp (clean_reserved _ hzero rfl), rewriteBegin_stages _ _ hidle]
  · have hclean : clean [bad (!zeroAt b 2 6) 2, bad (le b 8 8 % 64 != 0) 8] = true :=
      clean_reserved _ hzero (by rw [haddr]; rfl)
    rw [exec_eyeletQuery hs hrun, onEyelet_own hy hexp hclean, hw]
    rfl
  · rw [exec_eyeletRewriteReply, rewriteReply_answers hy hrewrite happlied hflush hold hring, hkeep,
      if_neg Bool.false_ne_true]
  · rw [exec_eyeletRewriteReply, rewriteReply_answers hy hrewrite happlied hflush hold hring, hgone, if_pos rfl, hd]

/-! ### The start of a segment (R335, R336) -/

theorem exec_xferSegmentStart (s : State) (o : Owner) (q : Nat) :
    exec (.xferSegmentStart o q) s = .next (s.withDev (segmentStart o q s.dev)) := rfl

/-- Queue q of slice k has a job x whose next segment may start. -/
structure SegmentReady (k : Fin 4096) (q : Nat) (y : Queue) (x : Xfer) (d : Dev) : Prop where
  queue : d.queue (.slice k) q = some y
  job : y.job = some x
  may : d.mayStart (.slice k) y = true
  sound : x.failed = false
  running : x.flushing = false
  more : x.next < x.count
  room : x.open_ < 16
  die : d.segsOnDie (dieOfLink (d.fnOf (.slice k))) < 1024

/-- The job once its next segment has been taken, to a window at `base`. -/
def segmentTaken (base : Nat) (x : Xfer) : Xfer :=
  { x with next := x.next + 1, segs := x.segs ++ [{ idx := x.next, bytes := x.hi x.next - x.lo x.next, base := base }] }

theorem lo_extended (x : Xfer) (l : List Seg) (n i : Nat) : Xfer.lo { x with segs := l, next := n } i = x.lo i := rfl

section SegmentStart
variable {k : Fin 4096} {q : Nat} {y : Queue} {x : Xfer} {d : Dev} (h : SegmentReady k q y x d)
include h

theorem SegmentReady.goes : (!d.mayStart (.slice k) y || x.failed || x.flushing || x.next ≥ x.count || x.open_ ≥ 16 ||
    d.segsOnDie (dieOfLink (d.fnOf (.slice k))) ≥ 1024) = false := by
  rw [h.may, h.sound, h.running, decide_eq_false (Nat.not_le.2 h.more), decide_eq_false (Nat.not_le.2 h.room),
    decide_eq_false (Nat.not_le.2 h.die)]
  rfl

theorem segmentStart_fails {n : Xfer} {st : Nat}
    (hn : n = segmentTaken ((((d.eyelet x.handle).bind (·.win)).map (·.base)).getD 0) x)
    (hcheck : segCheck k n x.next d = some st) : segmentStart (.slice k) q d =
      segSettle (.slice k) q x.next st (updQueue (.slice k) q (fun y => { y with xfer := some n }) d) := by
  subst hn
  rw [segmentTaken] at hcheck
  simp only [segmentStart, h.queue, h.job, h.goes, Bool.false_eq_true, if_false, hcheck]
  rfl

section Flight
variable {eye : Eyelet} {w : Window} {src : Owner} {n : Xfer} {pieces : List (Nat × Nat)} {t : Nat}
  (heye : d.eyelet x.handle = some eye) (hwin : eye.win = some w) (hn : n = segmentTaken w.base x)
  (hcheck : segCheck k n x.next d = none) (hsrc : src = if x.write then .slice k else .slice (fin 4096 eye.exporter))
  (hpieces : pieces = if x.write then localPieces (y.jobs.headD { descs := [], last := 0 }).descs (x.lo x.next - x.offset)
      (x.hi x.next - x.lo x.next) else [(w.base + x.lo x.next, x.hi x.next - x.lo x.next)])
  (ht : t = (d.fn (d.fnOf src)).nextTag)
include heye hwin hn hcheck hsrc hpieces ht

/-- A segment that passes its checks enters flight with its read, which translation may refuse at once. -/
theorem segmentStart_flies {d' : Dev} (hd : d' = each pieces (fun a => hostRead (d.fnOf src) (d.pasidOf src) a.1 a.2 t)
      (newTag (d.fnOf src) (.segment (.slice k) q x.next) (d.pasidOf src)
        (updEyelet x.handle (fun e => { e with flight := e.flight ++ [{ q := qKey (.slice k) q, seg := x.next, write := x.write }] })
          (updQueue (.slice k) q (fun y => { y with xfer := some { n with exporter := some eye.exporter } }) d))))
    (hgranted : takeDenied (d.fnOf src) t d' = none) : segmentStart (.slice k) q d = d' := by
  have hbase : (((d.eyelet x.handle).bind (·.win)).map (·.base)).getD 0 = w.base := by
    rw [heye, Option.bind_some, hwin]
    rfl
  have hwindow : ((d.eyelet x.handle).bind fun e => e.win.map fun w => (e.exporter, w)) = some (eye.exporter, w) := by
    rw [heye, Option.bind_some, hwin]
    rfl
  subst hn hsrc hpieces ht hd
  rw [segmentTaken] at hcheck hgranted
  simp only [segmentStart, h.queue, h.job, h.goes, Bool.false_eq_true, if_false, hbase, hcheck, hwindow, lo_extended,
    expOwner, hgranted]
  rfl

end Flight

end SegmentStart

/-! ### The ends of a segment (R334, R337, R340) -/

theorem exec_xferSegmentEnd (s : State) (o : Owner) (q k : Nat) (res : SegEnd) : exec (.xferSegmentEnd o q k res) s =
    .next (s.withDev (proceed (s.dev.fnOf o) (segmentEnd o q k res s.dev))) := rfl

/-- What the end of a segment does once its read is off the link of function `src`. -/
def segmentEnds (o : Owner) (q k src : Nat) (descs : List (List Byte)) (x : Xfer) (base : Nat) (res : SegEnd) (d : Dev) : Dev :=
  match res with
  | .ok data => segLand o q k stOk (segWrite o q descs x k base (x.exporter.getD 0) data false d)
  | .poisoned data => segLand o q k stPoisoned
      (segWrite o q descs x k base (x.exporter.getD 0) data true (dmaFail src (.poisoned data) d))
  | .failed onExp timeout => segSettle o q k (readStatus (if timeout then .timeout else .denied))
      (dmaFail (if onExp then d.fnOf (expOwner (x.exporter.getD 0)) else d.fnOf o) (if timeout then .timeout else .denied) d)

theorem segmentEnd_ends {o : Owner} {q k src : Nat} {y : Queue} {x : Xfer} {sg : Seg} {d : Dev} (hy : d.queue o q = some y)
    (hx : y.xfer = some x) (hsg : x.segs.find? (fun s => s.idx == k && s.status.isNone && s.landing.isNone) = some sg)
    (hsrc : src = if x.write then d.fnOf o else d.fnOf (.slice (fin 4096 (x.exporter.getD 0))))
    (hread : (d.fn src).reads.any (·.purpose == .segment o q k) = true) (res : SegEnd) : segmentEnd o q k res d =
      segmentEnds o q k src (y.jobs.headD { descs := [], last := 0 }).descs x sg.base res
        (dropReads src (.segment o q k) d) := by
  subst hsrc
  have hstands : (!(d.fn (if x.write then d.fnOf o else d.fnOf (expOwner (x.exporter.getD 0)))).reads.any
      (·.purpose == .segment o q k)) = false := by
    rw [expOwner, hread]
    rfl
  simp only [segmentEnd, hy, hx, hsg, hstands, Bool.false_eq_true, if_false]
  cases res <;> rfl

theorem segLand_settles {o : Owner} {q k st f : Nat} {d : Dev} {x : Xfer} (hx : (d.queue o q).bind (·.xfer) = some x)
    (hf : f = if x.write then d.fnOf (.slice (fin 4096 (x.exporter.getD 0))) else d.fnOf o)
    (hleft : (d.fn f).waits (.seg (qKey o q) k) = false) : segLand o q k st d =
      segSettle o q k (((d.fn f).xbad.find? (·.1 == .seg (qKey o q) k)).elim st (·.2)) d := by
  subst hf
  rw [← expOwner] at hleft ⊢
  simp only [segLand, hx, hleft, Bool.false_eq_true, if_false]
  cases (d.fn (if x.write then d.fnOf (expOwner (x.exporter.getD 0)) else d.fnOf o)).xbad.find?
    (·.1 == .seg (qKey o q) k) <;> rfl

/-! ### Flushing reads (R338) -/

theorem exec_eyeletFlushReadDone {s : State} {f : Fin 32} {tag : Nat} (h : s.dev.flushOpen f tag = true) :
    exec (.eyeletFlushReadDone f tag) s = .next (s.withDev (proceed f (flushEnd f tag stOk s.dev))) :=
  congrArg (fun d => Host.Outcome.next (s.withDev (proceed f d))) (if_pos h)

/-- Settles O27: a segment that is ready fails its check or flies; its ends; the end of a flushing read. -/
theorem eyeletSegmentsRun : Obligations.EyeletSegmentsRun := by
  unfold Obligations.EyeletSegmentsRun
  refine ⟨?fails, ?flies, ?ends, fun o q k st d x f hx hf hleft => segLand_settles hx hf hleft,
    fun s f tag h => exec_eyeletFlushReadDone h⟩
  case fails =>
    intro s k q y x st n hqueue hjob hmay hsound hrunning hmore hroom hdie hn hcheck
    have hready : SegmentReady k q y x s.dev := ⟨hqueue, hjob, hmay, hsound, hrunning, hmore, hroom, hdie⟩
    rw [exec_xferSegmentStart, segmentStart_fails hready hn hcheck]
  case flies =>
    intro s k q y x n eye w src at' t d hqueue hjob hmay hsound hrunning hmore hroom hdie heye hwin hn hcheck hsrc hat ht hd
      hgranted
    have hready : SegmentReady k q y x s.dev := ⟨hqueue, hjob, hmay, hsound, hrunning, hmore, hroom, hdie⟩
    rw [exec_xferSegmentStart, segmentStart_flies hready heye hwin hn hcheck hsrc hat ht hd hgranted]
  case ends =>
    intro s o q k y x sg src hy hx hsg hsrc hread
    refine ⟨fun data => ?_, fun data => ?_, fun d hd => ?_⟩
    · rw [exec_xferSegmentEnd, segmentEnd_ends hy hx hsg hsrc hread, segmentEnds]
    · rw [exec_xferSegmentEnd, segmentEnd_ends hy hx hsg hsrc hread, segmentEnds]
    · rw [exec_xferSegmentEnd, segmentEnd_ends hy hx hsg hsrc hread, ← hd]
      rfl

end Sys2Proof.Proofs
end

section
/-!
PROOF. O46 and O47: line ports negotiate and train, come up and go down. One lemma for each event in its situation; the
statements are put together from these.
-/
namespace Sys2Proof.Proofs
open Sys2Proof Sys2Proof.Machine Sys2Proof.Laws

/-! ### Negotiation (R368, R370) -/

section NegotiationExec
variable (s : State) (g : Fin 32) (k : Fin 4)

theorem exec_anBasePageTimeout :
    exec (.anBasePageTimeout g k) s = .next (s.withDev (anBasePageTimeout (portKey g k) s.dev)) := rfl

theorem exec_anRestartTimer : exec (.anRestartTimer g k) s = .next (s.withDev (anRestart (portKey g k) s.dev)) := rfl

theorem exec_basePageReceive (rates : BitVec 3) (pause : BitVec 2) (own : Bool) : exec (.basePageReceive g k rates pause own) s =
    .next (s.withDev (basePage (portKey g k) rates.toNat pause.toNat own s.dev)) := rfl

theorem exec_linkTrainingFail : exec (.linkTrainingFail g k) s = .next (s.withDev (trainingFail (portKey g k) s.dev)) := rfl

end NegotiationExec

section Negotiation
variable {p : Nat} {d : Dev}

theorem anBasePageTimeout_reports (hneg : d.negotiating p = true) (hnone : d.flag (aAn p) 15 = false)
    (hnew : (d.port p).anFailed = false) : anBasePageTimeout p d =
      lpBit p 1 (updPort p (fun x => { x with anFailed := true }) (timeTo ((d.port p).since + 1000000000) d)) := by
  simp only [anBasePageTimeout, hneg, hnone, hnew, Bool.not_true, Bool.or_self, Bool.false_eq_true, if_false]
  rfl

theorem anRestart_restarts (hex : d.portExists p = true) (hstate : d.lpState p = 1) (hwaits : (d.port p).restart = true) :
    anRestart p d = bringUp p (timeTo ((d.port p).since + 1000000000) d) := by
  simp only [anRestart, hex, hstate, hwaits, Bool.not_true, bne_self_eq_false, Bool.or_self, Bool.false_eq_true, if_false]
  rfl

section BasePage
variable (hneg : d.negotiating p = true)
include hneg

/-- What a base page of the partner leaves before its rates are judged. -/
def pageTaken (p rates pause : Nat) (d : Dev) : Dev :=
  updPort p (fun x => { x with nonce := 0 }) (setFld (aAn p) 15 10 (32 + 4 * rates + pause) d)

theorem basePage_common {rates pause r : Nat} (hr : topRate ((pageTaken p rates pause d).allowedRates p &&& rates) = some r) :
    basePage p rates pause false d =
      setLpState p 2 (updPort p (fun x => { x with lastRate := r }) (pageTaken p rates pause d)) := by
  rw [pageTaken] at hr
  simp only [basePage, hneg, hr, Bool.not_true, Bool.false_eq_true, if_false]
  rfl

theorem basePage_none {rates pause : Nat} (hr : topRate ((pageTaken p rates pause d).allowedRates p &&& rates) = none) :
    basePage p rates pause false d = holdNegotiation p (lpBit p 3 (pageTaken p rates pause d)) := by
  rw [pageTaken] at hr
  simp only [basePage, hneg, hr, Bool.not_true, Bool.false_eq_true, if_false]
  rfl

theorem basePage_own (rates pause : Nat) : basePage p rates pause true d =
    if (d.port p).nonce + 1 = 8 then holdNegotiation p (lpBit p 4 d)
    else updPort p (fun x => { x with nonce := (d.port p).nonce + 1 }) d := by
  simp only [basePage, hneg, Bool.not_true, Bool.false_eq_true, if_false, if_true]

end BasePage

section Training
variable (hex : d.portExists p = true) (hstate : d.lpState p = 2)

/-- What a failure of training leaves before the rates are looked at: n failures in a row at the rate. -/
def trainingFailed (p n : Nat) (d : Dev) : Dev :=
  updPort p (fun y => { y with fails := if n ≥ 3 then [] else [((d.port p).lastRate, n)] }) (lpBit p 2 d)

include hex hstate

theorem trainingFail_eq {n : Nat} (hn : n = mget 0 (d.port p).fails (d.port p).lastRate + 1) {d' : Dev}
    (hd : d' = when (n ≥ 3) (setFlag (aAn p) (16 + (d.port p).lastRate) true) (trainingFailed p n d)) :
    trainingFail p d = if d'.allowedRates p = 0 && d'.offeredRates p != 0 then holdNegotiation p (clearExclusions p d')
      else bringUp p d' := by
  subst hn hd
  simp only [trainingFail, hex, hstate, Bool.not_true, bne_self_eq_false, Bool.or_self, Bool.false_eq_true, if_false]
  rfl

end Training

end Negotiation

/-- Settles O46: each event of negotiation and training in its situation. -/
theorem linePortsNegotiate : Obligations.LinePortsNegotiate := by
  unfold Obligations.LinePortsNegotiate
  intro s g k p x hp hx
  subst hp hx
  refine ⟨fun hneg hnone hnew => ?_, fun hex hstate hwaits => ?_, fun rates pause d hneg hd => ⟨fun r hr => ?_, fun hr => ?_⟩,
    fun rates pause hneg hfew => ?_, fun rates pause hneg hlast => ?_, fun n d hex hstate hn hd => ?training⟩
  · rw [exec_anBasePageTimeout, anBasePageTimeout_reports hneg hnone hnew]
  · rw [exec_anRestartTimer, anRestart_restarts hex hstate hwaits]
  · subst hd
    rw [exec_basePageReceive, basePage_common hneg hr, pageTaken]
  · subst hd
    rw [exec_basePageReceive, basePage_none hneg hr, pageTaken]
  · rw [exec_basePageReceive, basePage_own hneg, if_neg (by omega)]
  · rw [exec_basePageReceive, basePage_own hneg, if_pos (by omega)]
  case training =>
    have hfailed : d = trainingFailed (portKey g k) n s.dev := hd
    have hbelow (h : n < 3) : d = when (n ≥ 3) (setFlag (aAn (portKey g k)) (16 + (s.dev.port (portKey g k)).lastRate) true)
        (trainingFailed (portKey g k) n s.dev) := by
      rw [when_neg (decide_eq_false (Nat.not_le.2 h)), hfailed]
    have hthird (h : 3 ≤ n) : setFlag (aAn (portKey g k)) (16 + (s.dev.port (portKey g k)).lastRate) true d =
        when (n ≥ 3) (setFlag (aAn (portKey g k)) (16 + (s.dev.port (portKey g k)).lastRate) true)
          (trainingFailed (portKey g k) n s.dev) := by
      rw [when_pos (decide_eq_true h), hfailed]
    refine ⟨fun h hallowed => ?_, fun d' h hd' hallowed => ?_, fun d' h hd' hnone hoffered => ?_⟩
    · rw [exec_linkTrainingFail, trainingFail_eq hex hstate hn (hbelow h), decide_eq_false hallowed, Bool.false_and,
        if_neg Bool.false_ne_true]
    · rw [exec_linkTrainingFail, trainingFail_eq hex hstate hn (hd'.trans (hthird h)), decide_eq_false hallowed,
        Bool.false_and, if_neg Bool.false_ne_true]
    · rw [exec_linkTrainingFail, trainingFail_eq hex hstate hn (hd'.trans (hthird h)), decide_eq_true hnone, Bool.true_and,
        if_pos (bne_iff_ne.2 hoffered)]

/-! ### Up, down, faults, FEC (R370-R372) -/

section LinkExec
variable (s : State) (g : Fin 32) (k : Fin 4)

theorem exec_lineLinkUp : exec (.lineLinkUp g k) s = .next (s.withDev (lineUp (portKey g k) s.dev)) := rfl

theorem exec_lineLinkDown : exec (.lineLinkDown g k) s = .next (s.withDev (lineDown (portKey g k) s.dev)) := rfl

theorem exec_lineFaultChange (lf rf : Bool) :
    exec (.lineFaultChange g k lf rf) s = .next (s.withDev (faultChange (portKey g k) lf rf s.dev)) := rfl

theorem exec_fecDegradedChange (x : Bool) :
    exec (.fecDegradedChange g k x) s = .next (s.withDev (fecChange (portKey g k) x s.dev)) := rfl

variable {s g k}

theorem exec_lineFlapHoldEnd (hex : s.dev.portExists (portKey g k) = true) (hheld : s.dev.lpState (portKey g k) = 5) :
    exec (.lineFlapHoldEnd g k) s = .next (s.withDev
      (bringUp (portKey g k) (timeTo ((s.dev.port (portKey g k)).since + 1000000000) s.dev))) := by
  refine congrArg (fun d => Host.Outcome.next (s.withDev d)) (if_pos ?_)
  rw [hex, hheld]
  rfl

end LinkExec

section Link
variable {p : Nat} {d : Dev}

theorem lineUp_aligned (hex : d.portExists p = true) (hclock : d.lrefOn p = true) (hstate : d.lpState p = 2 ∨ d.lpState p = 3) :
    lineUp p d = linkJudge p (setLpState p 3 (updPort p (fun x => { x with aligned := true, fails := [] }) d)) := by
  have htrains : (d.lpState p != 2 && d.lpState p != 3) = false := by
    rcases hstate with h | h <;> rw [h] <;> rfl
  simp only [lineUp, hex, hclock, htrains, Bool.not_true, Bool.or_self, Bool.false_eq_true, if_false]

section Down
variable (haligned : (d.port p).aligned = true)
include haligned

theorem lineDown_unseen (hdown : d.flag (aStat p) 31 = false) : lineDown p d = bringUp p (portDown p 1 d) := by
  simp only [lineDown, haligned, hdown, Bool.not_true, Bool.false_eq_true, if_false]

theorem lineDown_seen (hup : d.flag (aStat p) 31 = true) : lineDown p d =
    if (flapCount p (portDown p 1 d)).1 then (flapCount p (portDown p 1 d)).2
    else bringUp p (flapCount p (portDown p 1 d)).2 := by
  simp only [lineDown, haligned, hup, Bool.not_true, Bool.false_eq_true, if_false, if_true]

end Down

/-- The ninth down within a second holds the port. -/
theorem flapCount_holds (p : Nat) (d : Dev) :
    (flapCount p d).1 = decide (8 ≤ ((d.port p).downs.filter fun t => d.time < t + 1000000000).length) := by
  have hlist : ((d.port p).downs.filter fun t => t + oneSecond > d.time) =
      (d.port p).downs.filter fun t => d.time < t + 1000000000 := rfl
  simp only [flapCount, hlist, List.length_append, List.length_singleton]
  split
  next h => exact (decide_eq_true (Nat.lt_succ_iff.1 h)).symm
  next h => exact (decide_eq_false fun h8 => h (Nat.lt_succ_iff.2 h8)).symm

theorem faultChange_judges (hex : d.portExists p = true) {lf rf : Bool} {d' : Dev}
    (hd : d' = linkJudge p (setFlag (aStat p) 26 rf (setFlag (aStat p) 27 lf d))) : faultChange p lf rf d =
      if d.flag (aStat p) 31 && !d'.flag (aStat p) 31 then (flapCount p d').2 else d' := by
  subst hd
  simp only [faultChange, hex, Bool.not_true, Bool.false_eq_true, if_false]

theorem fecChange_reports (hex : d.portExists p = true) {x : Bool} (hnew : d.flag (aStat p) 25 ≠ x) : fecChange p x d =
    raise 0x0B p ((setFlag (aStat p) 25 x d).fld (aStat p) 7 0) (b2n x) (setFlag (aStat p) 25 x d) := by
  have hchange : (!d.portExists p || d.flag (aStat p) 25 == x) = false := by
    rw [hex, beq_eq_false_iff_ne.2 hnew]
    rfl
  simp only [fecChange, hchange, Bool.false_eq_true, if_false]

end Link

/-- Settles O47: each event of a port's link in its situation. -/
theorem linePortsComeUpAndGoDown : Obligations.LinePortsComeUpAndGoDown := by
  unfold Obligations.LinePortsComeUpAndGoDown
  intro s g k p hp
  subst hp
  refine ⟨fun hex hclock hstate => ?_, fun d haligned hd => ⟨fun hdown => ?_, fun hup hfree => ?_, fun hup hheld => ?_⟩,
    flapCount_holds _, fun hex hheld => exec_lineFlapHoldEnd hex hheld,
    fun lf rf d hex hd => ⟨fun hstays => ?_, fun hup hdown => ?_⟩, fun x d hex hnew hd => ?_⟩
  · rw [exec_lineLinkUp, lineUp_aligned hex hclock hstate]
  · rw [exec_lineLinkDown, lineDown_unseen haligned hdown, hd]
  · rw [exec_lineLinkDown, lineDown_seen haligned hup, ← hd, hfree, if_neg Bool.false_ne_true]
  · rw [exec_lineLinkDown, lineDown_seen haligned hup, ← hd, hheld, if_pos rfl]
  · rw [exec_lineFaultChange, faultChange_judges hex hd, if_neg]
    rcases hstays with h | h <;> simp [h]
  · rw [exec_lineFaultChange, faultChange_judges hex hd, hup, hdown]
    rfl
  · rw [exec_fecDegradedChange, fecChange_reports hex hnew, hd]

end Sys2Proof.Proofs
end

section
/-!
PROOF. O49: pauses and generated flow control, MACsec commands. One lemma for each event in its situation, then the MACsec
operation by what it finds.
-/
namespace Sys2Proof.Proofs
open Sys2Proof Sys2Proof.Machine Sys2Proof.Laws

/-! ### Pauses (R379, R380) -/

section PauseExec
variable (s : State) (g : Fin 32) (k : Fin 4) (c : Fin 8)

theorem exec_pauseExpiry : exec (.pauseExpiry g k c) s = .next (s.withDev (pauseExpiry (portKey g k) c s.dev)) := rfl

theorem exec_pfcWatchdog : exec (.pfcWatchdog g k c) s = .next (s.withDev (pfcWatchdog (portKey g k) c s.dev)) := rfl

theorem exec_xoffReached : exec (.xoffReached g k c) s = .next (s.withDev (xoffReached (portKey g k) c s.dev)) := rfl

theorem exec_xoffRefresh : exec (.xoffRefresh g k c) s = .next (s.withDev (xoffRefresh (portKey g k) c s.dev)) := rfl

theorem exec_xonReached : exec (.xonReached g k c) s = .next (s.withDev (xonReached (portKey g k) c s.dev)) := rfl

variable {s g k c}

theorem exec_pfcWatchdogEnd (h : mget 0 (s.dev.port (portKey g k)).ignoreEnd c ≠ 0) : exec (.pfcWatchdogEnd g k c) s =
    .next (s.withDev (updPort (portKey g k) (fun x => { x with ignoreEnd := mdel x.ignoreEnd c })
      (timeTo (mget 0 (s.dev.port (portKey g k)).ignoreEnd c) s.dev))) :=
  congrArg (fun d => Host.Outcome.next (s.withDev d)) (if_neg h)

end PauseExec

section Pause
variable {p c : Nat} {d : Dev} (hpaused : mget 0 (d.port p).pauseEnd c ≠ 0)
include hpaused

theorem pauseExpiry_ends : pauseExpiry p c d =
    updPort p (fun x => { x with pauseEnd := mdel x.pauseEnd c, pauseSince := mdel x.pauseSince c })
      (timeTo (mget 0 (d.port p).pauseEnd c) d) := if_neg hpaused

theorem pfcWatchdog_frees (hwd : 0 < d.fld (aPfc p) 15 8)
    (hdue : mget 0 (d.port p).pauseSince c + d.fld (aPfc p) 15 8 * 1000000 ≤ mget 0 (d.port p).pauseEnd c) {d' : Dev}
    (hd : d' = timeTo (mget 0 (d.port p).pauseSince c + d.fld (aPfc p) 15 8 * 1000000) d) :
    pfcWatchdog p c d = lpBit p 7 (updPort p (fun x => { x with
      pauseEnd := mdel x.pauseEnd c, pauseSince := mdel x.pauseSince c
      ignoreEnd := mset 0 x.ignoreEnd c (d'.time + 100000000) }) d') := by
  subst hd
  refine if_neg ?_
  rw [decide_eq_false hwd.ne', decide_eq_false hpaused, decide_eq_false (Nat.not_lt.2 hdue)]
  decide

end Pause

/-! ### Generated flow control (R381) -/

section Flow
variable {p c : Nat} {d : Dev} (hon : d.flowOn p c = true)
include hon

theorem xoffReached_sends (hfull : d.xoff p * 1024 ≤ d.flowBytes p c) (hnew : mfind (d.port p).xoffAt (d.flowKey p c) = none) :
    xoffReached p c d = sendXoff p c d := by
  refine if_pos ?_
  rw [hon, hnew, decide_eq_true hfull]
  rfl

theorem xoffRefresh_sends {t : Nat} (hsent : mfind (d.port p).xoffAt (d.flowKey p c) = some t)
    (habove : d.xon p * 1024 < d.flowBytes p c) : xoffRefresh p c d =
      sendXoff p c (timeTo (t + (65535 * 256 + d.speed p - 1) / d.speed p) d) := by
  have hgo : (d.flowOn p c && decide (d.flowBytes p c > d.xon p * 1024)) = true := by
    rw [hon, decide_eq_true habove, Bool.and_self]
  simp only [xoffRefresh, hsent, hgo, if_true]

theorem xonReached_sends {t : Nat} (hsent : mfind (d.port p).xoffAt (d.flowKey p c) = some t)
    (hbelow : d.flowBytes p c < d.xon p * 1024) : xonReached p c d =
      updPort p (fun x => { x with xoffAt := mdel x.xoffAt (d.flowKey p c) }) (sendFlow p c 0 d) := by
  refine if_pos ?_
  rw [hon, hsent, decide_eq_true hbelow]
  rfl

end Flow

/-! ### MACsec commands (R305, R306) -/

section MsExec
variable {s : State} {q : Requester} {g : Fin 32} (h : s.reaches q (aLp g + 0x8020) = true) (ht : trusted q = true)
include h ht

theorem exec_msWriteSa : exec (.msWriteSa q g) s = .next (s.withDev (msGo g 1 s.dev)) :=
  congrArg Host.Outcome.next (atRegAll_reaches _ _ _ _ h ht)

theorem exec_msReadSa : exec (.msReadSa q g) s = .next (s.withDev (msGo g 2 s.dev)) :=
  congrArg Host.Outcome.next (atRegAll_reaches _ _ _ _ h ht)

theorem exec_msInvalidateSa : exec (.msInvalidateSa q g) s = .next (s.withDev (msGo g 3 s.dev)) :=
  congrArg Host.Outcome.next (atRegAll_reaches _ _ _ _ h ht)

end MsExec

theorem msGo_starts {g : Nat} {d : Dev} (hidle : d.msBusy g = false) (op : Nat) :
    msGo g op d = msResult g stPending 0 (setFld (aMsCmd g) 1 0 op (setFlag (aMsCmd g) 31 true d)) := by
  rw [msGo, hidle, if_neg Bool.false_ne_true]

theorem msGo_refused {g : Nat} {d : Dev} (hbusy : d.msBusy g = true) (op : Nat) : msGo g op d = badAccess d := if_pos hbusy

section MsSettle
variable {g : Nat} {d : Dev} (hbusy : d.msBusy g = true)
include hbusy

/-- The operation in progress ends its BUSY and acts. -/
theorem msSettle_busy : msSettle g d =
    (if d.fld (aMsCmd g) 1 0 = 1 then msWrite g else if d.fld (aMsCmd g) 1 0 = 2 then msRead g
      else if d.fld (aMsCmd g) 1 0 = 3 then msInvalidate g else msResult g stBadParam 0) (setFlag (aMsCmd g) 31 false d) := by
  rw [msSettle, hbusy, Bool.not_true, if_neg Bool.false_ne_true]

theorem msSettle_write (hop : d.fld (aMsCmd g) 1 0 = 1) : msSettle g d = msWrite g (setFlag (aMsCmd g) 31 false d) := by
  rw [msSettle_busy hbusy, if_pos hop]

theorem msSettle_read (hop : d.fld (aMsCmd g) 1 0 = 2) : msSettle g d = msRead g (setFlag (aMsCmd g) 31 false d) := by
  rw [msSettle_busy hbusy, hop, if_neg (by decide : ¬ 2 = 1), if_pos rfl]

theorem msSettle_invalidate (hop : d.fld (aMsCmd g) 1 0 = 3) :
    msSettle g d = msInvalidate g (setFlag (aMsCmd g) 31 false d) := by
  rw [msSettle_busy hbusy, hop, if_neg (by decide : ¬ 3 = 1), if_neg (by decide : ¬ 3 = 2), if_pos rfl]

end MsSettle

section MsRun
variable {g : Nat} {d : Dev}

theorem msRun_fault {whole : Bool} {o : Nat} (go : List Byte → Dev → Dev) (h : saFault whole (msRecord g d) = some o) :
    msRun g whole go d = msResult g stBadParam o d := by
  simp only [msRun, h]

theorem msRun_good {whole : Bool} (go : List Byte → Dev → Dev) (h : saFault whole (msRecord g d) = none) :
    msRun g whole go d = go (msRecord g d) d := by
  simp only [msRun, h]

end MsRun

section MsOps
variable {g : Nat} {d : Dev}

theorem msWrite_stores (h : saFault true (msRecord g d) = none) : msWrite g d = msResult g stOk 0
    (saStore g (msRecord g d) (if saValid (msRecord g d) then some (msRecord g d) else none) d) := msRun_good _ h

variable (h : saFault false (msRecord g d) = none)
include h

theorem msRead_answers {x : List Byte} (hx : saSlot g (msRecord g d) d = some x) : msRead g d = msResult g stOk 0
    (each (List.range 20) (fun i => setReg (aMsData g i) (word (le (putBytes x 40 (leBytes 32 0)) (4 * i) 4))) d) := by
  rw [msRead, msRun_good _ h, hx]

theorem msInvalidate_frees {x : List Byte} (hx : saSlot g (msRecord g d) d = some x) :
    msInvalidate g d = msResult g stOk 0 (saStore g (msRecord g d) none d) := by
  rw [msInvalidate, msRun_good _ h, hx]

theorem msRead_missing (hx : saSlot g (msRecord g d) d = none) : msRead g d = msResult g stNotFound 0 d := by
  rw [msRead, msRun_good _ h, hx]

theorem msInvalidate_missing (hx : saSlot g (msRecord g d) d = none) : msInvalidate g d = msResult g stNotFound 0 d := by
  rw [msInvalidate, msRun_good _ h, hx]

end MsOps

/-- Settles O49: each event of flow control in its situation, then MACsec's GO and its operation by what it finds. -/
theorem flowControlAndMacsec : Obligations.FlowControlAndMacsec := by
  unfold Obligations.FlowControlAndMacsec
  refine ⟨?flow, ?go, ?operation⟩
  case flow =>
    intro s g k c p x hp hx
    subst hp hx
    refine ⟨fun hpaused => ?_, fun due d hwd hpaused hdue hle hd => ?_, fun h => exec_pfcWatchdogEnd h,
      fun hon hfull hnew => ?_, fun t hsent hon habove => ?_, fun t hsent hon hbelow => ?_⟩
    · rw [exec_pauseExpiry, pauseExpiry_ends hpaused]
    · subst hdue
      rw [exec_pfcWatchdog, pfcWatchdog_frees hpaused hwd hle hd]
    · rw [exec_xoffReached, xoffReached_sends hon hfull hnew]
    · rw [exec_xoffRefresh, xoffRefresh_sends hon hsent habove]
    · rw [exec_xonReached, xonReached_sends hon hsent hbelow]
  case go =>
    intro s q g h ht
    rw [exec_msWriteSa h ht, exec_msReadSa h ht, exec_msInvalidateSa h ht]
    refine ⟨fun hidle => ⟨by rw [msGo_starts hidle], by rw [msGo_starts hidle], by rw [msGo_starts hidle]⟩,
      fun hbusy c hc => ?_⟩
    simp only [List.mem_cons, List.not_mem_nil, or_false] at hc
    rcases hc with rfl | rfl | rfl
    · rw [exec_msWriteSa h ht, msGo_refused hbusy]
    · rw [exec_msReadSa h ht, msGo_refused hbusy]
    · rw [exec_msInvalidateSa h ht, msGo_refused hbusy]
  case operation =>
    intro g d e r hbusy he hr
    subst he hr
    refine ⟨fun hop hgood => ?_, fun o hop hbad => ?_, fun o hop hbad => ?_, fun x hop hgood hx => ?_,
      fun x hop hgood hx => ?_, fun hop hgood hnone => ?_⟩
    · rw [msSettle_write hbusy hop, msWrite_stores hgood]
    · rw [msSettle_write hbusy hop, msWrite, msRun_fault _ hbad]
    · rcases List.mem_pair.1 hop with hop | hop
      · rw [msSettle_read hbusy hop, msRead, msRun_fault _ hbad]
      · rw [msSettle_invalidate hbusy hop, msInvalidate, msRun_fault _ hbad]
    · rw [msSettle_read hbusy hop, msRead_answers hgood hx]
    · rw [msSettle_invalidate hbusy hop, msInvalidate_frees hgood hx]
    · rcases List.mem_pair.1 hop with hop | hop
      · rw [msSettle_read hbusy hop, msRead_missing hgood hnone]
      · rw [msSettle_invalidate hbusy hop, msInvalidate_missing hgood hnone]

end Sys2Proof.Proofs
end

section
/-!
PROOF. O48: frames are received, transmitted and timestamped. First what a counter leaves alone and how a frame and its FCS
are told apart, then a good frame, the choice of the next frame to send, and the PTP FIFOs.
-/
namespace Sys2Proof.Proofs
open Sys2Proof Sys2Proof.Machine Sys2Proof.Laws

/-! ### What counting leaves (R384) -/

theorem reg_lpSync (g k : Nat) (d : Dev) : (lpSync g d).reg k = d.reg k := rfl

/-- The control registers of a group lie below its counters. -/
theorem reg_lpAdd {j : Nat} (hj : j < 0x200) (p i n : Nat) (d : Dev) :
    (lpAdd p i n d).reg (aLp (p / 4) + j) = d.reg (aLp (p / 4) + j) := by
  have htally : tally (aLp (p / 4) + j) = false := by
    have hlow : (aLp (p / 4) + j) % 0x10000 = j := by
      unfold aLp
      omega
    have hne : aLp (p / 4) + j ≠ 0x318 := by
      unfold aLp
      omega
    simp only [tally, hlow, beq_eq_false_iff_ne.2 hne, Bool.false_or, Bool.and_eq_false_iff, decide_eq_false_iff_not]
    omega
  have hcounter (v : Nat) (d : Dev) :
      (setReg64 (aLp (p / 4) + 0x1000 + 0x400 * (p % 4) + 8 * i) v d).reg (aLp (p / 4) + j) = d.reg (aLp (p / 4) + j) := by
    rw [setReg64, reg_setReg, if_neg (by omega), reg_setReg, if_neg (by omega)]
  have hhalf (d : Dev) : (setFlag (aLp (p / 4) + 0x200 + 0x10 * (p % 4) + 4 * (i / 32)) (i % 32) true d).reg
      (aLp (p / 4) + j) = d.reg (aLp (p / 4) + j) := by
    rw [setFlag, setFld, reg_setReg, if_neg (by omega)]
  simp only [lpAdd]
  generalize (if wideCounter i then 48 else 40) = w
  split
  · exact hcounter _ _
  · rw [reg_lpSync, (talk_raise _ _ _ _ _).regs _ htally, hhalf, hcounter]

theorem maxFrame_lpAdd (p i n : Nat) (d : Dev) : (lpAdd p i n d).maxFrame p = d.maxFrame p := by
  simp only [Dev.maxFrame, Dev.fld, Nat.add_assoc, reg_lpAdd (show 0x10 + 4 * (p % 4) < 0x200 by omega)]

theorem flow_lpAdd (p i n : Nat) (d : Dev) : (lpAdd p i n d).flow p = d.flow p := by
  simp only [Dev.flow, Dev.fld, aCtrl, Nat.add_assoc, reg_lpAdd (show 0x10 + 4 * (p % 4) < 0x200 by omega)]

/-! ### A frame and its FCS (R373, R374) -/

theorem bytesAt_append {b : List Byte} {o n : Nat} (h : o + n ≤ b.length) (x : List Byte) :
    bytesAt (b ++ x) o n = bytesAt b o n := by
  have htake : ((b ++ x).drop o).take n = (b.drop o).take n := by
    rw [List.drop_append_of_le_length (by omega), List.take_append_of_le_length (by rw [List.length_drop]; omega)]
  rw [bytesAt, bytesAt, htake]

theorem length_fcsBytes (b : List Byte) : (fcsBytes b).length = 4 := leBytes_length _ _

theorem frameFault_eq_none {n max : Nat} {code fcs : Bool} (hmax : max ≤ 16383) :
    frameFault n max code fcs = none ↔ code = false ∧ fcs = true ∧ 64 ≤ n ∧ n ≤ max := by
  cases code with
  | true => simp [frameFault]
  | false =>
    by_cases hmin : n < 64
    · simp [frameFault, hmin, Nat.not_le.2 hmin]
    · by_cases hlong : n > max
      · have hshort : ¬ n ≤ max := Nat.not_le.2 hlong
        simp only [frameFault, Bool.false_eq_true, if_false, hmin, hlong, if_true, hshort, and_false, iff_false]
        split <;> exact Option.some_ne_none _
      · have hstored : ¬ n > 16383 := by omega
        cases fcs <;> simp [frameFault, hmin, hlong, hstored, Nat.not_lt.1 hmin, Nat.not_lt.1 hlong]

/-- A frame that carries its own FCS and a length in range has no fault. -/
theorem frameReceive_whole {p : Nat} {b : List Byte} {d : Dev} (hmin : 64 ≤ b.length + 4)
    (hmax : b.length + 4 ≤ d.maxFrame p) (hstored : b.length + 4 ≤ 16383) : frameReceive p (b ++ fcsBytes b) false d =
      if be (b ++ fcsBytes b) 12 2 = 0x8808 then
        macControl p (b ++ fcsBytes b) (b.length + 4) (lpAdd p 0 (b.length + 4) d)
      else goodFrame p (b.length + 4) b
        (lpCount p (6 + sizeBin (b.length + 4)) (lpAdd p 0 (b.length + 4) d)) := by
  have hlen : (b ++ fcsBytes b).length = b.length + 4 := by
    rw [List.length_append, length_fcsBytes]
  have htake : (b ++ fcsBytes b).take 16384 = b ++ fcsBytes b := List.take_of_length_le (by omega)
  have hfault : frameFault (b.length + 4) (d.maxFrame p) false true = none := by
    simp only [frameFault, Bool.false_eq_true, if_false, if_neg (Nat.not_lt.2 hmin), Bool.not_true, Bool.and_false,
      Bool.or_false, decide_eq_false (Nat.not_lt.2 hstored), if_neg (Nat.not_lt.2 hmax)]
  have hfcs : (decide (b.length + 4 ≤ 16384) && decide (4 ≤ b.length + 4) && fcsBytes b == fcsBytes b) = true := by
    rw [decide_eq_true (by omega), decide_eq_true (by omega), beq_self_eq_true]
    rfl
  simp only [frameReceive, htake, hlen, Nat.add_sub_cancel, List.take_left', List.drop_left', hfcs, maxFrame_lpAdd, hfault]

theorem macControl_pause {p : Nat} {b : List Byte} {d : Dev} (hflow : d.flow p = 1) (hop : be b 14 2 = 1)
    (haddr : be b 0 6 = 0x0180C2000001) :
    macControl p b 64 d = each (List.range 8) (pauseClass p (be b 16 2)) (lpCount p 22 d) := by
  simp [macControl, hflow, hop, haddr]

section ReceiveExec
variable {s : State} {g : Fin 32} {k : Fin 4}

theorem exec_lineFrameReceive_up (hup : s.dev.linkUp (portKey g k) = true) (hon : s.dev.lpOn g = true) (f : List Byte)
    (code : Bool) : exec (.lineFrameReceive g k f code) s = .next (s.withDev (frameReceive (portKey g k) f code s.dev)) :=
  congrArg (fun d => Host.Outcome.next (s.withDev d)) (if_pos (by rw [hup, hon]; rfl))

theorem exec_pauseFrameReceive_up (hup : s.dev.linkUp (portKey g k) = true) (hon : s.dev.lpOn g = true) {f : List Byte}
    (hf : be f 12 2 = 0x8808) :
    exec (.pauseFrameReceive g k f) s = .next (s.withDev (frameReceive (portKey g k) f false s.dev)) :=
  congrArg (fun d => Host.Outcome.next (s.withDev d)) (if_pos (by rw [hup, hon, hf]; rfl))

theorem exec_lineFrameReceive_down (hdown : s.dev.linkUp (portKey g k) = false) (f : List Byte) (code : Bool) :
    exec (.lineFrameReceive g k f code) s = .next s :=
  congrArg (fun d => Host.Outcome.next (s.withDev d)) (if_neg (by rw [hdown]; exact Bool.false_ne_true))

theorem exec_pauseFrameReceive_down (hdown : s.dev.linkUp (portKey g k) = false) (f : List Byte) :
    exec (.pauseFrameReceive g k f) s = .next s :=
  congrArg (fun d => Host.Outcome.next (s.withDev d)) (if_neg (by rw [hdown]; exact Bool.false_ne_true))

end ReceiveExec

/-! ### Transmit (R376, R377) -/

theorem exec_macTransmit (s : State) (g : Fin 32) (k : Fin 4) :
    exec (.macTransmit g k) s = .next (s.withDev (macTransmit (portKey g k) s.dev)) := rfl

/-- The packet that queues 1 to 3 of a port send next. -/
def nextOfQueues (p : Nat) (d : Dev) : Option (Nat × Packet) :=
  [1, 2, 3].findSome? fun q => (d.pkts.find? fun x => x.loc == .mac p q).map fun x => (q, x)

/-- The lowest queue that holds a packet sends its first one. -/
theorem nextOfQueues_lowest {p q : Nat} {x : Packet} {d : Dev} (hq : q ∈ [1, 2, 3])
    (hx : d.pkts.find? (fun y => y.loc == .mac p q) = some x)
    (hlower : ∀ q' < q, ∀ y ∈ d.pkts, q' ≠ 0 → y.loc ≠ .mac p q') : nextOfQueues p d = some (q, x) := by
  have hempty (q' : Nat) (hlt : q' < q) (hpos : q' ≠ 0) : d.pkts.find? (fun y => y.loc == .mac p q') = none := by
    rw [List.find?_eq_none]
    exact fun y hy => by simpa using hlower q' hlt y hy hpos
  simp only [List.mem_cons, List.not_mem_nil, or_false] at hq
  rcases hq with rfl | rfl | rfl
  · simp only [nextOfQueues, List.findSome?_cons, hx, Option.map_some]
  · simp only [nextOfQueues, List.findSome?_cons, hempty 1 (by decide) (by decide), hx, Option.map_some, Option.map_none]
  · simp only [nextOfQueues, List.findSome?_cons, hempty 1 (by decide) (by decide), hempty 2 (by decide) (by decide), hx,
      Option.map_some, Option.map_none]

section Transmit
variable {p : Nat} {d d' : Dev} (hup : d.linkUp p = true) (hd : d' = msSettle (p / 4) d)
include hup hd

theorem macTransmit_control {b : List Byte} {r : List (List Byte)} (hctrl : (d'.port p).ctrl = b :: r) :
    macTransmit p d = sendCtrl p b (updPort p (fun x => { x with ctrl := r }) d') := by
  subst hd
  simp only [macTransmit, hup, Bool.not_true, Bool.false_eq_true, if_false, hctrl]

theorem macTransmit_packet {q : Nat} {x : Packet} (hctrl : (d'.port p).ctrl = []) (hx : nextOfQueues p d' = some (q, x)) :
    macTransmit p d = sendPacket p q x d' := by
  subst hd
  rw [nextOfQueues] at hx
  simp only [macTransmit, hup, Bool.not_true, Bool.false_eq_true, if_false, hctrl, hx]

end Transmit

theorem sendPacket_long {p : Nat} {x : Packet} {d : Dev} (h : d.maxFrame p - 4 < x.bytes.length) (q : Nat) :
    sendPacket p q x d = endPacket x (lpCount p 68 d) := if_pos h

/-! ### PTP FIFOs (R383) -/

theorem ptpInfoAnswer_reads {q : Requester} {p : Nat} {d : Dev} (hport : d.portExists p = true) (tx : Bool) : ptpInfoAnswer tx q p d =
    emit (.value q (aPtp p + (if tx then 0x10 else 4)) (word (ptpInfoRead tx q p d).1)) (ptpInfoRead tx q p d).2 := by
  rw [ptpInfoAnswer, hport, Bool.not_true, if_neg Bool.false_ne_true]

section PtpExec
variable {s : State} {q : Requester} {g : Fin 32} {k : Fin 4} (hex : s.dev.portExists (portKey g k) = true)
include hex

theorem exec_ptpRxInfoRead (h : s.reaches q (aPtp (portKey g k) + 4) = true) : exec (.ptpRxInfoRead q g k) s =
    .next (s.withDev (emit (.value q (aPtp (portKey g k) + 4) (word (ptpInfoRead false q (portKey g k) s.dev).1))
      (ptpInfoRead false q (portKey g k) s.dev).2)) :=
  congrArg Host.Outcome.next ((atRead_reaches _ _ _ _ h).trans (congrArg s.withDev (ptpInfoAnswer_reads hex false)))

theorem exec_ptpTxInfoRead (h : s.reaches q (aPtp (portKey g k) + 0x10) = true) : exec (.ptpTxInfoRead q g k) s =
    .next (s.withDev (emit (.value q (aPtp (portKey g k) + 0x10) (word (ptpInfoRead true q (portKey g k) s.dev).1))
      (ptpInfoRead true q (portKey g k) s.dev).2)) :=
  congrArg Host.Outcome.next ((atRead_reaches _ _ _ _ h).trans (congrArg s.withDev (ptpInfoAnswer_reads hex true)))

end PtpExec

theorem ptpInfoRead_oldest {q : Requester} {p : Nat} {d : Dev} {e : PtpEntry} {r : List PtpEntry}
    (hfifo : (d.port p).ptpRx = e :: r) (hkept : (d.port p).ptpRxOvf = false) : ptpInfoRead false q p d =
      (2 ^ 31 + 2 ^ 24 * e.type + 2 ^ 16 * e.domain + e.seq,
        updPort p (fun x => { x with ptpRx := r, ptpRxOvf := false }) (capture q (aPtp p + 8) e.time d)) := by
  have hnone : 2 ^ 31 + 2 ^ 30 * b2n false = 2 ^ 31 := rfl
  simp only [ptpInfoRead, Bool.false_eq_true, if_false, hfifo, hkept, hnone]

theorem ptpInfoRead_empty {q : Requester} {p : Nat} {d : Dev} (h : (d.port p).ptpTx = []) :
    ptpInfoRead true q p d = (0, d) := by
  simp only [ptpInfoRead, if_true, h]

/-- Settles O48: reception by the state of the port and the frame, the order of transmission, and the PTP FIFOs. -/
theorem framesComeAndGo : Obligations.FramesComeAndGo := by
  unfold Obligations.FramesComeAndGo
  refine ⟨⟨?up, ?down, ?good, ?pause, fun n max code fcs hmax => frameFault_eq_none hmax,
    fun p b d hflow hop haddr => macControl_pause hflow hop haddr⟩,
    ?transmit, ?ptp, fun q p d e r hfifo hkept => ptpInfoRead_oldest hfifo hkept, fun q p d h => ptpInfoRead_empty h⟩
  case up =>
    intro s g k f code p hp hup hon
    subst hp
    exact ⟨exec_lineFrameReceive_up hup hon f code, fun hf => exec_pauseFrameReceive_up hup hon hf⟩
  case down =>
    exact fun s g k f code hdown => ⟨exec_lineFrameReceive_down hdown f code, exec_pauseFrameReceive_down hdown f⟩
  case good =>
    intro s g k p b n hp hup hon hn hmin hmax hstored htype
    subst hp hn
    have hframe : be (b ++ fcsBytes b) 12 2 ≠ 0x8808 := by
      rwa [be, bytesAt_append (by omega)]
    rw [exec_lineFrameReceive_up hup hon, frameReceive_whole hmin hmax hstored, if_neg hframe]
  case pause =>
    intro s g k p b f hp hup hon hf hlen hmax htype hop haddr hflow
    subst hp hf
    rw [exec_pauseFrameReceive_up hup hon htype,
      frameReceive_whole (by omega) (by omega) (by omega), if_pos htype, hlen,
      macControl_pause ((flow_lpAdd _ _ _ _).trans hflow) hop haddr]
  case transmit =>
    intro s g k p d hp hup hd
    subst hp
    refine ⟨fun b r hctrl => ?_, fun q x hctrl hq hx hlower => ?_⟩
    · rw [exec_macTransmit, macTransmit_control hup hd hctrl]
    · rw [exec_macTransmit, macTransmit_packet hup hd hctrl (nextOfQueues_lowest hq hx hlower)]
      exact ⟨rfl, fun hlong => by rw [sendPacket_long hlong]⟩
  case ptp =>
    intro s q g k p hp hex
    subst hp
    exact ⟨fun h r hr => by rw [exec_ptpRxInfoRead hex h, hr], fun h r hr => by rw [exec_ptpTxInfoRead hex h, hr]⟩

end Sys2Proof.Proofs
end
